-- ==== Sys2Proof/Word.lean ====
section
/-! DEFINITION. The bit-vector types of the PZ416: a byte of a frame, a 32-bit table word (R179) and a
39-bit stored codeword of table memory (R157). -/
namespace Sys2Proof

/-- A character's 8 data bits, or one byte of a payload (R1, R179). -/
abbrev Byte := BitVec 8

/-- One 32-bit word of a table, a view, a PUT or an ANSWER (R157, R179). -/
abbrev Word := BitVec 32

/-- One stored word of table memory: data in bits 31:0, the 7 check bits in bits 38:32 (R157). -/
abbrev Codeword := BitVec 39

end Sys2Proof
end

