-- ==== Sys2Proof/Syntax.lean ====
section
/-! DEFINITION. The commands of the node: one constructor of `Instr` per row of spec/opcode_table.json,
each with the operands its event carries, and the operand types. -/
namespace Sys2Proof

/-- The strap levels (section Straps of 00_scope.md), read at a POWER-UP and at a PIN reset. -/
structure Straps where
  address  : BitVec 7
  lineRate : BitVec 2
  deriving DecidableEq, Repr

/-- The header fields of a received frame other than its kind and length (R3). -/
structure Envelope where
  dst : Byte
  src : Byte
  hop : Byte
  deriving DecidableEq, Repr

/-- Why a frame is bad (R2, R3, R4). -/
inductive BadFrameCause where
  /-- the carried CRC differs, at completion -/
  | crc
  /-- the kind is none of the eleven, at completion -/
  | kind
  /-- the source is above 120, at completion -/
  | source
  /-- the length character is above 32 -/
  | length
  /-- a marked character came before completion; it is the kind of the next frame -/
  | short (next : Byte)
  /-- an unmarked character after a complete frame -/
  | stray
  /-- a character with a framing error -/
  | framing
  deriving DecidableEq, Repr

/-- A character as the receiver hands it over (R1). -/
inductive LineChar where
  | marked (b : Byte)
  | unmarked (b : Byte)
  | framingError
  deriving DecidableEq, Repr

/-- An alert level, in rising order (section 8.2; codes of R179). -/
inductive Level where
  | notice | attend | urgent
  deriving DecidableEq, Repr

/-- An input that is sampled on the 1 ms time base (R60, R80, R81, R144). -/
inductive Input where
  | button (b : Fin 16)
  | guard (g : Fin 4)
  | key
  | home (c : Fin 4)
  | far (c : Fin 4)
  | fault (c : Fin 4)
  deriving DecidableEq, Repr

/-- The two blinking lamp patterns (R74). -/
inductive LampPattern where
  | wait | fast
  deriving DecidableEq, Repr

/-- The two attendant outputs (R148). -/
inductive AlertOutput where
  | beacon | sounder
  deriving DecidableEq, Repr

/-- The commands and events of the node: one constructor per row of spec/opcode_table.json. -/
inductive Instr where
  | powerUp (straps : Straps)
  | pinReset (straps : Straps)
  | loadHeaderRead (header : List Byte)
  | loadWordRead (data : Word)
  | restart (env : Envelope) (payload : List Byte)
  | badFrame (cause : BadFrameCause)
  | goodFrame (kind : Byte) (env : Envelope) (payload : List Byte)
  | pulse (env : Envelope) (payload : List Byte)
  | cue (env : Envelope) (payload : List Byte)
  | tap (env : Envelope) (payload : List Byte)
  | done (env : Envelope) (payload : List Byte)
  | hush (env : Envelope) (payload : List Byte)
  | put (env : Envelope) (payload : List Byte)
  | putWordWrite
  | peek (env : Envelope) (payload : List Byte)
  | peekWordRead
  | save (env : Envelope) (data : Word)
  | clearLineRecord (env : Envelope) (data : Word)
  | clearFirstFault (env : Envelope) (data : Word)
  | clearMemoryLog (env : Envelope) (data : Word)
  | saveEraseDone (failed : Bool)
  | saveWordRead
  | saveProgramDone (failed : Bool)
  | saveVerifyRead (flashWord : Word)
  | saveHeaderDone (readBack : List Byte)
  | flashTimeout
  | transmitterFree
  | waitingFrameJoin
  | lineLossExpiry
  | clockSecond
  | cueRead
  | start (c : Fin 4) (p : Fin 32)
  | stop (mask : BitVec 4)
  | home (mask : BitVec 4)
  | effect (o : Fin 8) (target : Int) (fade : BitVec 16)
  | call (code : Fin 16) (level : Level)
  | lock (mask : BitVec 16)
  | unlock (mask : BitVec 16)
  | buttonSettingsRead
  | channelSettingsRead
  | effectSettingsRead
  | alertSettingsRead
  | localPlayRead
  | prefetchRead
  | scrubTimerExpiry
  | scrubAccess
  | channelTick (c : Fin 4)
  | arrival (c : Fin 4)
  | dwellEnd (c : Fin 4)
  | stopComplete (c : Fin 4)
  | homeFound (c : Fin 4)
  | searchExhausted (c : Fin 4)
  | guardOpening (g : Fin 4)
  | guardClosing (g : Fin 4)
  | driverFault (c : Fin 4)
  | faultInputCleared (c : Fin 4)
  | farLimit (c : Fin 4)
  | farCleared (c : Fin 4)
  | acceptedClosure (b : Fin 16)
  | acceptedRelease (b : Fin 16)
  | holdTimeReached (b : Fin 16)
  | stuckTimeReached (b : Fin 16)
  | refillExpiry (b : Fin 16)
  | fadeStep (o : Fin 8)
  | deadTimerExpiry (k : Fin 4)
  | carrierPeriodStart
  | escalationExpiry (slot : Fin 16)
  | keyClosure
  | characterReceived (ch : LineChar)
  /-- `active`: a button, key or home switch closed, a guard open, a FAR or FAULT input asserted -/
  | inputSample (input : Input) (active : Bool)
  | resetRelease
  | lampPatternPhase (pattern : LampPattern)
  | beaconPatternPhase (output : AlertOutput)
  deriving DecidableEq, Repr

end Sys2Proof
end

