-- ==== Sys2Proof/Decode.lean ====
section
/-! DEFINITION. The decoder of the table's bits. spec/opcode_table.json gives no bits to any of its 73
rows (the node takes events and frames, not instruction words), so no word spells a command. -/
namespace Sys2Proof

/-- The command a word of the table's bits spells: none, since no row of the table has bits. -/
def decodeTableWord (_nbits _w : Nat) : Option Instr := none

end Sys2Proof
end

