-- ==== Sys2Proof/Config.lean ====
section
/-! DEFINITION. What the part fixes for every run: capacities and fixed times, each with the rule that
gives it, and the free values that the manual leaves open (opaque constants: nothing in Lean can
evaluate one). -/
namespace Sys2Proof.Config

/-- The relay buffer never holds more than 4 frames (R13). -/
abbrev relayCapacity : Nat := 4
/-- The consecutive-relay count stays at 4 (R17). -/
abbrev relayCountMax : Nat := 4
/-- The insertion queue never holds more than 8 frames (R14). -/
abbrev insertionCapacity : Nat := 8
/-- The trigger queue never holds more than 16 records (R38). -/
abbrev triggerCapacity : Nat := 16
/-- The longest payload of a frame (R3). -/
abbrev payloadMax : Nat := 32
/-- Table memory holds 2128 words (R153). -/
abbrev wordCount : Nat := 2128
/-- The cue table holds 64 entries (R42). -/
abbrev cueEntries : Nat := 64
/-- A request is passed over by rank at most 16 times (R155). -/
abbrev passOverMax : Nat := 16
/-- A guard closes after 10 unbroken closed samples (R81). -/
abbrev guardCloseSamples : Nat := 10
/-- The attendant key's fixed debounce time, in ms (R144). -/
abbrev keyDebounce : Nat := 20
/-- The debounce time of a DAMAGED button and of one whose entry has not been read, in ms (R60). -/
abbrev unreadDebounce : Nat := 50
/-- The part code a READY and the identity view carry (R177). -/
abbrev partCode : Nat := 416
/-- The silicon revision (R177). -/
abbrev revision : Nat := 1
/-- The image signature (Formats, section 11.5). -/
abbrev imageSignature : Nat := 0x505A5442
/-- Seconds in a day: the gallery clock runs 0 to 86399 (R28). -/
abbrev daySeconds : Nat := 86400
/-- The dead interval of a DAMAGED effect entry, in ms (R123). -/
abbrev damagedDeadInterval : Nat := 255

/-- FREE VALUE (log entry 3). The safe level of output `o` while no effect entry has been read since a
POWER-UP or PIN reset: R133 says there is none until the load ends and gives none for the time until
the entry's own read. Only the range of a safe level is kept (`unreadSafeLevel`). -/
opaque unreadSafeCode : Nat → Fin 511

/-- The free safe level as a level, −255 to 255 (section 7.1). -/
def unreadSafeLevel (o : Nat) : Int := (unreadSafeCode o).val - 255

/-- FREE VALUE (log entry 3). The dead interval of pair `k`, 0 to 255 ms, while no effect entry of its
even output has been read. -/
opaque unreadDeadInterval : Nat → Fin 256

/-- FREE VALUE (log entry 4). The stopping distance of R112 when D is 0. R107 keeps D at 6 or more in
every segment, so no run divides by 0; a State that no run reaches may. -/
opaque stopDistanceZero : Nat → Nat

/-- FREE VALUE (log entry 3). The carrier code that the effect live view carries while no carrier has been
taken since a POWER-UP or PIN reset: R133 says there is none, and R181 names no code for it. -/
opaque unreadCarrierCode : Fin 4

end Sys2Proof.Config
end

