-- ==== Sys2Proof/Machine/State.lean ====
section
/-! DEFINITION. The state of the node, block by block as the manual owns it, its value right after
reset, and the reasons a step could stop. Every structure is plain data. -/
namespace Sys2Proof.Machine

/-- The manual names no event that stops the node, so there is no fault. -/
inductive Fault where
  deriving DecidableEq, Repr

/-- Why a command has no meaning. -/
inductive Refusal where
  /-- Raised by exec alone, for a row whose meaning is not written (none is left). Safe: the machine
  stops where the hardware goes on. -/
  | notModelled (mnemonic : String)
  deriving DecidableEq, Repr

/-! ## Names shared by several blocks -/

/-- Kinds of reset (00_scope.md, Resets; codes of R179). -/
inductive ResetCause where
  | powerUp | pin | restart
  deriving DecidableEq, Repr

/-- The effective mode (R24; codes of R179). -/
inductive GalleryMode where
  | held | opened | quiet | closed | service
  deriving DecidableEq, Repr

/-- The node state (R29 to R34). -/
inductive NodeState where
  | bypass | active | closing | dormant
  deriving DecidableEq, Repr

/-- How a press ended (R61, R62). -/
inductive PressKind where
  | short | hold
  deriving DecidableEq, Repr

/-- How a profile ended (section 5.11). -/
inductive EndOutcome where
  | completed | stopped | halted | faulted
  deriving DecidableEq, Repr

/-- What a reader holds of one entry: nothing read yet, an entry it found damaged, or a copy (R58,
R78, R123, R134). -/
inductive Held (α : Type) where
  | absent
  | damaged
  | copy (a : α)
  deriving DecidableEq, Repr

/-- The copy that is held, if there is one. -/
def Held.get? {α : Type} : Held α → Option α
  | .copy a => some a
  | .absent => none
  | .damaged => none

/-- A word as an access delivers it: the data and whether it read uncorrectable (R157, R158). -/
structure Delivered where
  data : Word
  bad  : Bool
  deriving DecidableEq, Repr

/-! ## Ring port (chapter 1) -/

/-- A frame less its mark bits and CRC, which its other bytes determine (R3, section 1.2). -/
structure Frame where
  kind    : Byte
  dst     : Byte
  src     : Byte
  hop     : Byte
  payload : List Byte
  deriving DecidableEq, Repr

/-- The receive assembler's four states (R2). -/
inductive AsmState where
  | joining | collecting | trailing | discarding
  deriving DecidableEq, Repr

/-- The receive assembler: its state and the characters collected, oldest first (R2, R3). -/
structure Assembler where
  state : AsmState
  chars : List Byte
  deriving DecidableEq, Repr

/-- The six counts of the line record, 0 to 65535 (R20). -/
structure LineRecord where
  badFrames       : Nat
  relayDrops      : Nat
  hopExpiries     : Nat
  insertionDrops  : Nat
  triggerDrops    : Nat
  managementDrops : Nat
  deriving DecidableEq, Repr

/-- The ring port. -/
structure Ring where
  /-- the BYPASS output is asserted (R19) -/
  bypass     : Bool
  assembler  : Assembler
  /-- relay copies, oldest first (R13) -/
  relay      : List Frame
  /-- own frames, oldest first (R14) -/
  insertion  : List Frame
  /-- the frame in transmission; none is an idle transmitter (R16) -/
  sending    : Option Frame
  /-- the consecutive-relay count (R17) -/
  relayCount : Nat
  /-- working copy of the ring hop limit (R15) -/
  hopLimit   : Nat
  /-- working copy of the line-loss time, in 10 ms units (R15) -/
  lossUnits  : Nat
  record     : LineRecord
  /-- the line-loss timer: ms to expiry, none when stopped (R21) -/
  lossTimer  : Option Nat
  deriving DecidableEq, Repr

/-! ## Mode unit (chapter 2) -/

/-- The mode unit. -/
structure ModeUnit where
  mode      : GalleryMode
  node      : NodeState
  /-- gallery clock, seconds of the day (R28) -/
  clock     : Nat
  /-- millisecond count under it (R28) -/
  ms        : Nat
  lineLost  : Bool
  /-- local-play as read for the present LINE-LOST (R27) -/
  localPlay : Option Bool
  deriving DecidableEq, Repr

/-! ## Cue engine (chapter 3) -/

/-- A trigger record (section 3.2). -/
inductive Trigger where
  | lineCue (number : Byte)
  | peerTap (node : Byte) (button : Fin 16) (kind : PressKind)
  | peerDone (node : Byte) (channel : Fin 4) (outcome : EndOutcome) (profile : Fin 32)
  | localPress (button : Fin 16) (kind : PressKind)
  | localDone (channel : Fin 4) (outcome : EndOutcome) (profile : Fin 32)
  | modeEntry (mode : GalleryMode)
  deriving DecidableEq, Repr

/-- A cue action with its operands (section 3.1). -/
inductive Action where
  | start (c : Fin 4) (p : Fin 32)
  | stop (mask : BitVec 4)
  | home (mask : BitVec 4)
  | effect (o : Fin 8) (target : Int) (fade : BitVec 16)
  | call (code : Fin 16) (level : Level)
  | lock (mask : BitVec 16)
  | unlock (mask : BitVec 16)
  deriving DecidableEq, Repr

/-- The current dispatch (R39 to R44). -/
inductive Dispatch where
  | idle
  /-- reading entry `index`; `words` are the words of it delivered so far -/
  | scanning (t : Trigger) (index : Nat) (words : List Delivered)
  /-- entry `index` fires; its actions as read, and the position of the next one to hand on -/
  | performing (t : Trigger) (index : Nat) (actions : List Action) (next : Nat)
  deriving DecidableEq, Repr

/-- The cue engine. -/
structure CueEngine where
  queue    : List Trigger
  dispatch : Dispatch
  /-- the action that was being handed on when a reset abandoned its dispatch, or a PUT its entry's reading,
  until its command comes (R47, R57; the model's own field, log entry 10) -/
  recalled : Option Action
  deriving DecidableEq, Repr

/-! ## Button unit (chapter 4) -/

/-- The ten fields of a button table entry (section 4.1), in their stored units. -/
structure ButtonSettings where
  enabled     : Bool
  help        : Bool
  reportTap   : Bool
  lampChannel : Option (Fin 4)
  debounce    : Nat
  hold        : Nat
  stuck       : Nat
  allowance   : Nat
  rough       : Nat
  refill      : Nat
  deriving DecidableEq, Repr

/-- Press phases (section 4.3). -/
inductive Phase where
  | released | timing | settled | stuck
  deriving DecidableEq, Repr

/-- Lamp states (R73). -/
inductive Lamp where
  | off | ready | wait | helpFast | helpSteady
  deriving DecidableEq, Repr

/-- One button: held settings and live record (chapter 4). -/
structure Button where
  held         : Held ButtonSettings
  /-- the input as last sampled: closed -/
  pin          : Bool
  /-- a first sample has been taken since the reset (R76) -/
  primed       : Bool
  /-- the debounced level: closed -/
  closed       : Bool
  /-- debounce count, ms (R60) -/
  count        : Nat
  phase        : Phase
  /-- closure time, ms -/
  closure      : Nat
  /-- hold time in force, 100 ms units -/
  holdInForce  : Nat
  /-- stuck time in force, s -/
  stuckInForce : Nat
  /-- stuck timing runs for the present closure (R61, R76) -/
  stuckTiming  : Bool
  lock         : Bool
  /-- allowance count; none when no count is kept (allowance max 0) -/
  allowance    : Option Nat
  /-- refill timer: ms to expiry, none when stopped -/
  refill       : Option Nat
  spentRun     : Nat
  rough        : Bool
  lamp         : Lamp
  deriving DecidableEq, Repr

/-- The button unit: 16 buttons and the phase counters of the two blinking patterns (R74). -/
structure ButtonUnit where
  buttons : Vector Button 16
  /-- position in the WAIT pattern, 0 to 999 ms -/
  waitCtr : Nat
  /-- position in the fast HELP-CALLED pattern, 0 to 249 ms -/
  fastCtr : Nat
  deriving DecidableEq, Repr

/-! ## Motion unit and step generator (chapters 5 and 6) -/

/-- Busy policies (R49). -/
inductive BusyPolicy where
  | refuse | queue | preempt
  deriving DecidableEq, Repr

/-- The fields of a channel settings entry (section 5.1), in their stored units. -/
structure ChannelSettings where
  enabled        : Bool
  rotary         : Bool
  homeOutward    : Bool
  attend         : Bool
  holdsPosition  : Bool
  autoHome       : Bool
  reportDone     : Bool
  invert         : Bool
  /-- loss action FINISH; clear is STOP -/
  lossFinish     : Bool
  policy         : BusyPolicy
  guardMap       : BitVec 4
  park           : Option (Fin 32)
  quietPercent   : Nat
  /-- travel limit of a LINEAR channel, wrap length of a ROTARY one -/
  travel         : Nat
  startSpeed     : Nat
  homeSpeed      : Nat
  searchLimit    : Nat
  deriving DecidableEq, Repr

/-- Channel states (section 5.3; codes of R179). -/
inductive ChanState where
  | unhomed | homing | idle | moving | stopping | halted | fault | resting
  deriving DecidableEq, Repr

/-- Why a channel is in FAULT (R96, R97). -/
inductive FaultReason where
  | driver | limit
  deriving DecidableEq, Repr

/-- What a stop in progress will report (R95). -/
inductive Ending where
  | stopped | faulted
  deriving DecidableEq, Repr

/-- Segment kinds (section 5.7). -/
inductive SegKind where
  | goto | byDistance | dwell
  deriving DecidableEq, Repr

/-- A segment as its three words give it. -/
structure Segment where
  kind   : SegKind
  target : Int
  cruise : Nat
  dwell  : Nat
  accel  : Nat
  deriving DecidableEq, Repr

/-- A directory entry as its words give it (R114). -/
structure Directory where
  first   : Nat
  count   : Nat
  repeats : Nat
  deriving DecidableEq, Repr

/-- A fetched segment in a channel's buffer; `ord` is its place in the running order, from 0. -/
structure Buffered where
  ord : Nat
  seg : Segment
  deriving DecidableEq, Repr

/-- One channel: held settings, live record and step generator items (sections 5.2 and 6). -/
structure Channel where
  held         : Held ChannelSettings
  /-- a copy read while the channel was busy, held aside (R78) -/
  aside        : Option (Held ChannelSettings)
  state        : ChanState
  position     : Nat
  v            : Nat
  phi          : Nat
  /-- R: steps still to make -/
  rem          : Nat
  braking      : Bool
  /-- cruise ceiling V_c -/
  vc           : Nat
  /-- velocity change per tick D -/
  accel        : Nat
  /-- start velocity V_s -/
  vs           : Nat
  /-- home velocity V_h -/
  vh           : Nat
  dwell        : Nat
  outward      : Bool
  profile      : Option (Fin 32)
  /-- the directory entry of the current profile, once read -/
  dir          : Option Directory
  segment      : Nat
  pass         : Nat
  /-- place in the running order of the current or awaited segment -/
  ord          : Nat
  /-- the current segment; none while the channel waits for one -/
  current      : Option Segment
  /-- the current segment has arrived and dwells (R111) -/
  arrived      : Bool
  buffer       : List Buffered
  finalPass    : Bool
  ending       : Option Ending
  /-- pending-start slot -/
  slot         : Option (Fin 32)
  faultReason  : Option FaultReason
  restState    : Option ChanState
  positionLost : Bool
  clamped      : Bool
  completed    : Nat
  refused      : Nat
  /-- inputs as last sampled: HOME closed, FAR asserted, FAULT asserted -/
  homePin      : Bool
  farPin       : Bool
  faultPin     : Bool
  /-- the DIR output is high (R80) -/
  dirPin       : Bool
  /-- STEP pulses emitted in the channel's last tick (R113) -/
  stepPulses   : Nat
  deriving DecidableEq, Repr

/-- One guard input: its reading, its count of closed samples and its level as last sampled (R81). -/
structure GuardInput where
  isOpen : Bool
  count  : Nat
  pin    : Bool
  deriving DecidableEq, Repr

/-- What a fetch owed by the prefetch reads (R115). -/
inductive FetchItem where
  | directory (p : Fin 32)
  /-- the segment at place `ord` of the running order; `base` is its first word once the directory
  entry has told which segment that is -/
  | segment (ord : Nat) (base : Nat)
  deriving DecidableEq, Repr

/-- One owed fetch; a cancelled one ends at the next word boundary (R116). -/
structure Fetch where
  chan      : Fin 4
  item      : FetchItem
  cancelled : Bool
  deriving DecidableEq, Repr

/-- The motion unit with the step generator. -/
structure MotionUnit where
  channels   : Vector Channel 4
  guards     : Vector GuardInput 4
  /-- owed fetches of all channels, in the order owed (R115) -/
  owed       : List Fetch
  /-- words of the head fetch delivered so far -/
  fetchWords : List Delivered
  deriving DecidableEq, Repr

/-! ## Effect unit (chapter 7) -/

/-- Carrier selections (R124). -/
inductive Carrier where
  | hz200 | khz1 | khz20
  deriving DecidableEq, Repr

/-- The fields of an effect entry (section 7.1). -/
structure EffectSettings where
  safe : Int
  dead : Nat
  deriving DecidableEq, Repr

/-- One effect output, or a joined pair in its even output (chapter 7). -/
structure Effect where
  held      : Held EffectSettings
  fine      : Int
  target    : Int
  /-- step Δ -/
  delta     : Nat
  remaining : Nat
  running   : Bool
  dead      : Nat
  /-- high time taken at the last carrier period start, in reference periods (R124) -/
  highTime  : Nat
  deriving DecidableEq, Repr

/-- The effect unit. -/
structure EffectUnit where
  outputs  : Vector Effect 8
  /-- working copy of the carrier; none until first taken (R133) -/
  carrier  : Option Carrier
  /-- the carrier of the period in progress (R124) -/
  inForce  : Carrier
  /-- working copy of the pairing: pair k joined at bit k -/
  pairing  : BitVec 4
  counter  : Nat
  counting : Bool
  deriving DecidableEq, Repr

/-! ## Alert unit (chapter 8) -/

/-- Alert causes, in the order of their numbers (section 8.1). -/
inductive Cause where
  | guardOpen | driverFault | limitHit | homeFailed | help | buttonStuck
  | roughHandling | tableDamage | lineLost | cuedCall | imageFailed | saveFailed
  deriving DecidableEq, Repr

/-- The fields of a cause word (section 8.1). -/
structure CauseSettings where
  level : Level
  /-- escalation time, 10 s units -/
  esc   : Nat
  deriving DecidableEq, Repr

/-- Record states (section 8.2). -/
inductive RecState where
  | raised | called | acknowledged | clearing
  deriving DecidableEq, Repr

/-- One alert record (section 8.2). -/
structure Record where
  cause       : Cause
  subject     : Nat
  level       : Level
  state       : RecState
  condition   : Bool
  due         : Bool
  repeats     : Nat
  escalations : Nat
  raisedAt    : Nat
  /-- escalation timer: ms to expiry, none when stopped -/
  timer       : Option Nat
  deriving DecidableEq, Repr

/-- Channel data handed with a raise (R149). -/
structure ChanInfo where
  state    : ChanState
  position : Nat
  velocity : Nat
  deriving DecidableEq, Repr

/-- The first-fault snapshot (section 8.7). -/
structure Snapshot where
  cause   : Cause
  subject : Nat
  time    : Nat
  slot    : Option (Fin 16)
  chan    : Option ChanInfo
  deriving DecidableEq, Repr

/-- The attendant key input (R144). -/
structure KeyInput where
  pin    : Bool
  primed : Bool
  closed : Bool
  count  : Nat
  deriving DecidableEq, Repr

/-- The alert unit. -/
structure AlertUnit where
  held       : Vector (Held CauseSettings) 12
  slots      : Vector (Option Record) 16
  overflow   : Bool
  snapshot   : Option Snapshot
  /-- the beacon level; none is off (R147) -/
  beacon     : Option Level
  beaconOn   : Bool
  beaconCtr  : Nat
  sounderOn  : Bool
  sounderCtr : Nat
  key        : KeyInput
  deriving DecidableEq, Repr

/-! ## Table memory (chapter 9) -/

/-- Table memory's words: (word index, codeword) pairs, indices strictly rising, none with the
codeword an unlisted index reads as. -/
abbrev Memory := List (Nat × Codeword)

/-- The blocks served by the settings path, in the order in which requests of one moment are taken
(R154). -/
inductive Block where
  | button | motion | effect | alert | mode
  deriving DecidableEq, Repr

/-- One entry a block is to read through the settings path; the effect unit's node settings word is
entry 8 of the effect block (R154, R160). -/
structure Job where
  block : Block
  entry : Nat
  deriving DecidableEq, Repr

/-- A request on the settings path: the entry and the words of it delivered so far (R154). -/
structure Ask where
  job : Job
  got : List Delivered
  deriving DecidableEq, Repr

/-- What a granted access does (R154). -/
inductive AccessOp where
  | prefetch
  | putWrite (data : Word)
  | peekRead
  | saveRead
  | verifyRead
  | cueRead
  | settings (block : Block)
  | scrub
  deriving DecidableEq, Repr

/-- The access in progress. `stale`: a RESTART reached its requester after the grant (R165). -/
structure Access where
  op    : AccessOp
  index : Nat
  stale : Bool
  deriving DecidableEq, Repr

/-- Kinds of error a log records (R163). -/
inductive ErrorKind where
  | corrected | uncorrectable
  deriving DecidableEq, Repr

/-- Requesters as the log names them (R163; codes of R179). -/
inductive Requester where
  | prefetch | management | cue | button | motion | effect | alert | mode | scrubber
  deriving DecidableEq, Repr

/-- The memory error log's record (R163). -/
structure ErrorLog where
  index     : Nat
  kind      : ErrorKind
  syndrome  : BitVec 7
  requester : Requester
  deriving DecidableEq, Repr

/-- Table memory with its arbiter, scrubber, log and counts. -/
structure TableMemory where
  words         : Memory
  access        : Option Access
  /-- pass-over counts by rank: prefetch, management, cue, settings, scrubber (R155) -/
  passOver      : Vector Nat 5
  scrubWaiting  : Bool
  scrubPtr      : Nat
  /-- scrub timer: ms to expiry, none when stopped -/
  scrubTimer    : Option Nat
  scrubInterval : Nat
  log           : Option ErrorLog
  corrected     : Nat
  uncorrectable : Nat
  passes        : Nat
  /-- the settings path, requests in the order asked (R154) -/
  path          : List Ask
  /-- re-reads owed that are not yet on the path (R160) -/
  owed          : List Job
  deriving DecidableEq, Repr

/-! ## Management unit (chapter 10) -/

/-- Result codes (R166). -/
inductive ResultCode where
  | ok | clamped | damaged | range | inUse | busy | readOnly | noTable | length
  deriving DecidableEq, Repr

/-- A PUT or PEEK of a table in progress; `first` is the first word within the table. -/
inductive Request where
  | put (table : Nat) (first : Nat) (words : List Word) (clamped : Bool) (written : Nat)
  | peek (table : Nat) (first : Nat) (count : Nat) (got : List Delivered)
  deriving DecidableEq, Repr

/-- The request slot (R166). -/
inductive Slot where
  | empty
  | working (r : Request)
  | answering (f : Frame)
  deriving DecidableEq, Repr

/-- The image state (R173 to R176). -/
inductive ImageState where
  | empty | loading | loaded | loadFailed | saving
  deriving DecidableEq, Repr

/-- How far a load has come (R173). -/
inductive LoadStep where
  | none
  | header
  /-- word `index` is next; `crc` is the CRC-32 so far, `want` the header's -/
  | words (index : Nat) (crc : BitVec 32) (want : BitVec 32)
  deriving DecidableEq, Repr

/-- The save step in hand (R175). -/
inductive SaveStep where
  | erase (sector : Nat)
  | program (part : Nat)
  | verify (word : Nat)
  | header
  deriving DecidableEq, Repr

/-- Save progress (R175, R178). -/
structure SaveProgress where
  step   : SaveStep
  crc    : BitVec 32
  /-- words gathered for the program unit in hand -/
  buffer : List Word
  /-- the image state before the SAVE -/
  before : ImageState
  /-- the first erase has been issued to the device -/
  begun  : Bool
  deriving DecidableEq, Repr

/-- An erase or program issued to the flash device (section 10.5). -/
inductive FlashOp where
  | erase (sector : Nat)
  | program (part : Nat) (words : List Word)
  | programHeader (bytes : List Byte)
  deriving DecidableEq, Repr

/-- A frame that waits for room in the insertion queue (R14, R177). -/
inductive WaitingFrame where
  /-- the ANSWER in the request slot -/
  | slotAnswer
  | saveAnswer (f : Frame)
  | ready (f : Frame)
  deriving DecidableEq, Repr

/-- The management unit. -/
structure Management where
  slot      : Slot
  image     : ImageState
  load      : LoadStep
  save      : Option SaveProgress
  /-- frames that wait for room, in the order built -/
  waiting   : List WaitingFrame
  /-- the operation issued to the flash device and not yet reported ready -/
  flashBusy : Option FlashOp
  /-- the operation that waits for the device to report ready -/
  flashNext : Option FlashOp
  deriving DecidableEq, Repr

/-! ## The node -/

/-- The state of the node. `pending` is the queue of commands that wait, first in first out; it is the
model's, not the manual's. -/
structure State where
  /-- the straps as read at the last POWER-UP or PIN reset -/
  straps     : Straps
  resetCause : ResetCause
  /-- local inputs are sampled: the load has ended since the last POWER-UP or PIN reset (R173) -/
  sampling   : Bool
  ring       : Ring
  mode       : ModeUnit
  cue        : CueEngine
  button     : ButtonUnit
  motion     : MotionUnit
  effect     : EffectUnit
  alert      : AlertUnit
  mem        : TableMemory
  mgmt       : Management
  pending    : List Instr
  deriving DecidableEq, Repr

/-! ## Reset values -/

/-- The line record with all counts 0 (R20). -/
def LineRecord.zero : LineRecord := ⟨0, 0, 0, 0, 0, 0⟩

/-- The ring port after POWER-UP (R22). The working copies hold the blank content's values until the
load ends (DESIGN CHOICE, log entry 5). The assembler stands in JOINING with no characters from the
reset on, where R22 and R2 give JOINING at the release of BYPASS alone (DESIGN CHOICE, log entry 28). -/
def Ring.reset : Ring :=
  { bypass := true, assembler := ⟨.joining, []⟩, relay := [], insertion := [], sending := none
    relayCount := 0, hopLimit := 127, lossUnits := 50, record := .zero, lossTimer := none }

/-- The mode unit after POWER-UP (R36). -/
def ModeUnit.reset : ModeUnit :=
  { mode := .held, node := .bypass, clock := 0, ms := 0, lineLost := false, localPlay := none }

/-- The cue engine after POWER-UP (R56). -/
def CueEngine.reset : CueEngine := { queue := [], dispatch := .idle, recalled := none }

/-- One button after POWER-UP (R76). No allowance count is kept before the entry's first read gives a
maximum (DESIGN CHOICE, log entry 28). -/
def Button.reset : Button :=
  { held := .absent, pin := false, primed := false, closed := false, count := 0, phase := .released
    closure := 0, holdInForce := 0, stuckInForce := 0, stuckTiming := false, lock := false
    allowance := none, refill := none, spentRun := 0, rough := false, lamp := .off }

/-- The button unit after POWER-UP (R74, R76). -/
def ButtonUnit.reset : ButtonUnit :=
  { buttons := Vector.replicate 16 .reset, waitCtr := 0, fastCtr := 0 }

/-- One channel after POWER-UP (R105, R122). -/
def Channel.reset : Channel :=
  { held := .absent, aside := none, state := .unhomed, position := 0, v := 0, phi := 0, rem := 0
    braking := false, vc := 0, accel := 0, vs := 0, vh := 0, dwell := 0, outward := false
    profile := none, dir := none, segment := 0, pass := 1, ord := 0, current := none
    arrived := false, buffer := [], finalPass := false, ending := none, slot := none
    faultReason := none, restState := none, positionLost := false, clamped := false
    completed := 0, refused := 0, homePin := false, farPin := false, faultPin := false
    dirPin := false, stepPulses := 0 }

/-- A guard at reset: CLOSED with count 0 (R81). -/
def GuardInput.reset : GuardInput := { isOpen := false, count := 0, pin := false }

/-- The motion unit after POWER-UP (R105, R122). -/
def MotionUnit.reset : MotionUnit :=
  { channels := Vector.replicate 4 .reset, guards := Vector.replicate 4 .reset
    owed := [], fetchWords := [] }

/-- One effect output after POWER-UP (R133). -/
def Effect.reset : Effect :=
  { held := .absent, fine := 0, target := 0, delta := 0, remaining := 0, running := false, dead := 0
    highTime := 0 }

/-- The effect unit after POWER-UP (R133). -/
def EffectUnit.reset : EffectUnit :=
  { outputs := Vector.replicate 8 .reset, carrier := none, inForce := .khz1, pairing := 0
    counter := 0, counting := false }

/-- The attendant key before its first sample (R151). -/
def KeyInput.reset : KeyInput := { pin := false, primed := false, closed := false, count := 0 }

/-- The alert unit after POWER-UP (R151). -/
def AlertUnit.reset : AlertUnit :=
  { held := Vector.replicate 12 .absent, slots := Vector.replicate 16 none, overflow := false
    snapshot := none, beacon := none, beaconOn := false, beaconCtr := 0, sounderOn := false
    sounderCtr := 0, key := .reset }

/-- Table memory after POWER-UP (R164). The scrub interval copy holds the blank 10 ms until the load
ends (DESIGN CHOICE, log entry 5). -/
def TableMemory.reset : TableMemory :=
  { words := [], access := none, passOver := Vector.replicate 5 0, scrubWaiting := false
    scrubPtr := 0, scrubTimer := none, scrubInterval := 10, log := none, corrected := 0
    uncorrectable := 0, passes := 0, path := [], owed := [] }

/-- The management unit after POWER-UP (R178). -/
def Management.reset : Management :=
  { slot := .empty, image := .empty, load := .none, save := none, waiting := [], flashBusy := none
    flashNext := none }

/-- The node right after a POWER-UP reset, before the supply is stable (R173), with no command waiting.
The straps read node address 1 and line rate 0 (DESIGN CHOICE, log entry 6). -/
def State.reset : State :=
  { straps := ⟨1, 0⟩, resetCause := .powerUp, sampling := false, ring := .reset, mode := .reset
    cue := .reset, button := .reset, motion := .reset, effect := .reset, alert := .reset
    mem := .reset, mgmt := .reset, pending := [] }

end Sys2Proof.Machine
end

