-- ==== Sys2Proof/Machine/Ops.lean ====
section
/-! DEFINITION. The small operations every block uses: saturating counts, the index lists, table memory
and its check code (R157), the two CRCs, frames on the line, and reading and writing one channel,
button, output, guard or alert slot. -/
namespace Sys2Proof.Machine

/-! ## Counts and index lists -/

/-- A saturating increase (00_scope.md, Numbers). -/
def satInc (top n : Nat) : Nat := if n < top then n + 1 else top

/-- A 16-bit saturating increase. -/
def inc16 (n : Nat) : Nat := satInc 65535 n

/-- An 8-bit saturating increase. -/
def inc8 (n : Nat) : Nat := satInc 255 n

/-- Clamping into a range, to the nearer end (R169). -/
def clampNat (lo hi n : Nat) : Nat := max lo (min hi n)

/-- Clamping of an integer into a range. -/
def clampInt (lo hi n : Int) : Int := max lo (min hi n)

/-- A quotient rounded up (00_scope.md, Rounding); 0 for a divisor of 0, which no caller passes. -/
def ceilDiv (a b : Nat) : Nat := (a + b - 1) / b

/-- Channels, and guards, in ascending order. -/
def four : List (Fin 4) := [0, 1, 2, 3]

/-- Effect outputs in ascending order. -/
def eight : List (Fin 8) := [0, 1, 2, 3, 4, 5, 6, 7]

/-- Buttons, and alert slots, in ascending order. -/
def sixteen : List (Fin 16) := [0, 1, 2, 3, 4, 5, 6, 7, 8, 9, 10, 11, 12, 13, 14, 15]

/-! ## Bytes and words -/

/-- The low `n` bits of `w` from bit `lo`, as a number. -/
def field (w : Word) (lo n : Nat) : Nat := (w.toNat / 2 ^ lo) % 2 ^ n

/-- One bit of a word. -/
def flag (w : Word) (i : Nat) : Bool := w.getLsbD i

/-- A number as `n` bytes, most significant first (R179). -/
def bytesBE : Nat → Nat → List Byte
  | 0, _ => []
  | n + 1, x => BitVec.ofNat 8 (x / 256 ^ n) :: bytesBE n x

/-- Bytes as a number, most significant first (R179). -/
def natBE (bs : List Byte) : Nat := bs.foldl (fun a b => a * 256 + b.toNat) 0

/-- Byte `i` of a payload; a byte the payload is too short to carry is 0 (R180). -/
def byteAt (bs : List Byte) (i : Nat) : Byte := bs.getD i 0

/-- Bytes `i` to `i + n - 1` of a payload as a number, missing bytes being 0 (R179, R180). -/
def numAt (bs : List Byte) (i n : Nat) : Nat :=
  natBE ((List.range n).map (fun k => byteAt bs (i + k)))

/-- The bytes of a table word on the line and in the image (R179). -/
def wordBytes (w : Word) : List Byte := bytesBE 4 w.toNat

/-- The word that four bytes of the image spell (R179, R182). -/
def wordOfBytes (bs : List Byte) : Word := BitVec.ofNat 32 (natBE bs)

/-! ## Frame check sequence (section 1.2) and image CRC (section 10.5) -/

/-- One bit step of the CRC-16 with polynomial 0x1021. -/
def crc16Bit (c : BitVec 16) : BitVec 16 :=
  if c.getLsbD 15 then (c <<< 1) ^^^ 0x1021#16 else c <<< 1

/-- One byte into the CRC-16, most significant bit first. -/
def crc16Byte (c : BitVec 16) (b : Byte) : BitVec 16 :=
  (List.range 8).foldl (fun a _ => crc16Bit a) (c ^^^ (b.zeroExtend 16 <<< 8))

/-- The CRC-16 of the characters of a frame: initial value 0xFFFF, no final value. -/
def crc16 (bs : List Byte) : BitVec 16 := bs.foldl crc16Byte 0xFFFF#16

/-- One bit step of the reflected CRC-32 (polynomial 0x04C11DB7 reflected). -/
def crc32Bit (c : BitVec 32) : BitVec 32 :=
  if c.getLsbD 0 then (c >>> 1) ^^^ 0xEDB88320#32 else c >>> 1

/-- One byte into the running CRC-32. -/
def crc32Byte (c : BitVec 32) (b : Byte) : BitVec 32 :=
  (List.range 8).foldl (fun a _ => crc32Bit a) (c ^^^ b.zeroExtend 32)

/-- The initial running value of the CRC-32. -/
def crc32Init : BitVec 32 := 0xFFFFFFFF#32

/-- Bytes into the running CRC-32. -/
def crc32Add (c : BitVec 32) (bs : List Byte) : BitVec 32 := bs.foldl crc32Byte c

/-- The CRC-32 a running value stands for: final exclusive-or 0xFFFFFFFF. -/
def crc32Final (c : BitVec 32) : BitVec 32 := c ^^^ 0xFFFFFFFF#32

/-! ## Table memory (R153, R156, R157) -/

/-- The syndromes of data bits 0 to 31: the 7-bit values with three bits set, ascending (R157). -/
def dataSyndromes : List (BitVec 7) :=
  [7, 11, 13, 14, 19, 21, 22, 25, 26, 28, 35, 37, 38, 41, 42, 44,
   49, 50, 52, 56, 67, 69, 70, 73, 74, 76, 81, 82, 84, 88, 97, 98]

/-- The exclusive-or of the syndromes of the set data bits, from bit `i` on. -/
def checkFrom (w : Word) : Nat → List (BitVec 7) → BitVec 7
  | _, [] => 0
  | i, y :: ys => (if w.getLsbD i then y else 0) ^^^ checkFrom w (i + 1) ys

/-- The 7 check bits of a word (R157). -/
def checkBits (w : Word) : BitVec 7 := checkFrom w 0 dataSyndromes

/-- A word with fresh check bits (R157). -/
def encodeWord (w : Word) : Codeword := checkBits w ++ w

/-- The data bits of a stored word. -/
def dataOf (k : Codeword) : Word := k.setWidth 32

/-- The syndrome of a stored word (R157). -/
def syndromeOf (k : Codeword) : BitVec 7 := checkBits (dataOf k) ^^^ (k >>> 32).setWidth 7

/-- How a read classifies a word (R157). -/
inductive WordClass where
  | clean
  | corrected
  | uncorrectable
  deriving DecidableEq, Repr

/-- Whether a syndrome is that of a check bit: exactly one bit set. -/
def isCheckSyndrome (y : BitVec 7) : Bool := [1, 2, 4, 8, 16, 32, 64].contains y

/-- The class of a stored word and the data it delivers (R157). -/
def classify (k : Codeword) : WordClass × Word :=
  let y := syndromeOf k
  if y = 0 then (.clean, dataOf k)
  else if isCheckSyndrome y then (.corrected, dataOf k)
  else match dataSyndromes.findIdx? (· == y) with
    | some i => (.corrected, dataOf k ^^^ (1#32 <<< i))
    | none => (.uncorrectable, dataOf k)

/-- What an unlisted word reads as: data 0 with its check bits, 0 (log entry 7). -/
def Memory.unlisted : Codeword := 0

/-- The codeword at an index. -/
def Memory.read : Memory → Nat → Codeword
  | [], _ => Memory.unlisted
  | (j, k) :: rest, i => if i = j then k else Memory.read rest i

/-- Storing a codeword: the canonical form is kept, so the value an unlisted word reads as removes
the entry. -/
def Memory.write : Memory → Nat → Codeword → Memory
  | [], i, x => if x = Memory.unlisted then [] else [(i, x)]
  | (j, k) :: rest, i, x =>
    if i < j then (if x = Memory.unlisted then (j, k) :: rest else (i, x) :: (j, k) :: rest)
    else if i = j then (if x = Memory.unlisted then rest else (i, x) :: rest)
    else (j, k) :: Memory.write rest i x

/-- The canonical form: indices strictly rising, no entry with the unlisted value. -/
def Memory.wf : Memory → Bool
  | [] => true
  | (i, k) :: rest =>
    decide (k ≠ Memory.unlisted) && rest.all (fun e => decide (i < e.1)) && Memory.wf rest

/-- The first word of each region, by table id (R153). -/
def regionFirst : Nat → Nat
  | 0 => 0 | 1 => 16 | 2 => 32 | 3 => 64 | 4 => 80 | 5 => 144 | 6 => 528 | 7 => 592 | _ => 2128

/-- The number of words of each region, by table id (R153). -/
def regionWords : Nat → Nat
  | 0 => 16 | 1 => 16 | 2 => 32 | 3 => 16 | 4 => 64 | 5 => 384 | 6 => 64 | 7 => 1536 | _ => 0

/-- The words of one entry of each region (R153). -/
def entryWords : Nat → Nat
  | 1 => 1 | 2 => 8 | 3 => 2 | 4 => 4 | 5 => 6 | 6 => 2 | 7 => 3 | _ => 16

/-- The region a word index lies in (R153). -/
def regionOf (i : Nat) : Nat :=
  if i < 16 then 0 else if i < 32 then 1 else if i < 64 then 2 else if i < 80 then 3
  else if i < 144 then 4 else if i < 528 then 5 else if i < 592 then 6 else 7

/-! ## Frames -/

/-- The header and payload characters of a frame, which the CRC covers (section 1.2). -/
def Frame.covered (f : Frame) : List Byte :=
  [f.kind, f.dst, f.src, f.hop, BitVec.ofNat 8 f.payload.length] ++ f.payload

/-- The characters of a frame as sent: the CRC is computed afresh, high byte first (R3, R8). -/
def Frame.chars (f : Frame) : List Byte :=
  f.covered ++ bytesBE 2 (crc16 f.covered).toNat

/-- The 11 line levels of a character in the order sent, the mark level being true: start bit, data bits
0 to 7, mark bit, stop bit (R1, R179). A data bit or mark bit of 1 is at the mark level and one of 0 at the space
level: R179 gives levels for the start and stop bits alone (DESIGN CHOICE, log entry 38). -/
def charBits (mark : Bool) (b : Byte) : List Bool :=
  [false, b.getLsbD 0, b.getLsbD 1, b.getLsbD 2, b.getLsbD 3, b.getLsbD 4, b.getLsbD 5, b.getLsbD 6,
   b.getLsbD 7, mark, true]

/-- The data bits of a character's line levels, bit 0 being the second level (R179) and the mark level a 1 (log
entry 38). -/
def charData (bits : List Bool) : Byte :=
  BitVec.ofNat 8 ((List.range 8).foldl (fun a i => a + (bits.getD (i + 1) false).toNat * 2 ^ i) 0)

/-- The character that the receiver makes of 11 line levels; none where there are not 11 of them or the
first is no start bit (R1, R179). A mark bit at the mark level is set (log entry 38). -/
def charOfBits (bits : List Bool) : Option LineChar :=
  if bits.length ≠ 11 ∨ bits.getD 0 true = true then none
  else if bits.getD 10 false = false then some .framingError
  else if bits.getD 9 false then some (.marked (charData bits))
  else some (.unmarked (charData bits))

/-- The line levels of a frame as sent, character by character: the first marked, the rest unmarked
(R16). -/
def Frame.line (f : Frame) : List (List Bool) :=
  match f.chars with
  | [] => []
  | b :: bs => charBits true b :: bs.map (charBits false)

/-- Microseconds that sending a frame takes at a LINE-RATE strap value: (7 + L) × 11 bit times (R1,
R16). -/
def frameTimeUs (rate : BitVec 2) (f : Frame) : Nat :=
  (7 + f.payload.length) * 11 * (if rate = 0 then 4 else if rate = 1 then 2 else 1)

/-- The node's own address (section Straps). -/
def State.address (s : State) : Byte := s.straps.address.zeroExtend 8

/-- The straps give a node address (R19). -/
def State.addressed (s : State) : Bool :=
  decide (1 ≤ s.straps.address.toNat) && decide (s.straps.address.toNat ≤ 120)

/-- An own frame: destination 0, the node's address as source, the ring hop limit stamped (R15). -/
def State.ownFrame (s : State) (kind : Byte) (payload : List Byte) : Frame :=
  { kind := kind, dst := 0, src := s.address, hop := BitVec.ofNat 8 s.ring.hopLimit
    payload := payload }

/-! ## One channel, guard, button, output, alert slot -/

/-- Channel `c`. -/
def State.chan (s : State) (c : Fin 4) : Channel := s.motion.channels[c]

/-- Replacing channel `c`. -/
def State.withChan (s : State) (c : Fin 4) (ch : Channel) : State :=
  { s with motion.channels := s.motion.channels.set c ch }

/-- Replacing all four channels. -/
def State.mapChans (s : State) (f : Channel → Channel) : State :=
  { s with motion.channels := Vector.ofFn fun c => f s.motion.channels[c] }

/-- Guard `g`. -/
def State.guardIn (s : State) (g : Fin 4) : GuardInput := s.motion.guards[g]

/-- Replacing guard `g`. -/
def State.withGuard (s : State) (g : Fin 4) (x : GuardInput) : State :=
  { s with motion.guards := s.motion.guards.set g x }

/-- Button `b`. -/
def State.btn (s : State) (b : Fin 16) : Button := s.button.buttons[b]

/-- Replacing button `b`. -/
def State.withBtn (s : State) (b : Fin 16) (x : Button) : State :=
  { s with button.buttons := s.button.buttons.set b x }

/-- Effect output `o`. -/
def State.out (s : State) (o : Fin 8) : Effect := s.effect.outputs[o]

/-- Replacing effect output `o`. -/
def State.withOut (s : State) (o : Fin 8) (x : Effect) : State :=
  { s with effect.outputs := s.effect.outputs.set o x }

/-- Alert slot `i`. -/
def State.slotAt (s : State) (i : Fin 16) : Option Record := s.alert.slots[i]

/-- Replacing alert slot `i`. -/
def State.withSlot (s : State) (i : Fin 16) (r : Option Record) : State :=
  { s with alert.slots := s.alert.slots.set i r }

/-! ## Line record (R20) -/

/-- One bad frame counted (R5). -/
def State.countBadFrame (s : State) : State :=
  { s with ring.record.badFrames := inc16 s.ring.record.badFrames }

/-- One relay drop counted (R8). -/
def State.countRelayDrop (s : State) : State :=
  { s with ring.record.relayDrops := inc16 s.ring.record.relayDrops }

/-- One hop expiry counted (R7). -/
def State.countHopExpiry (s : State) : State :=
  { s with ring.record.hopExpiries := inc16 s.ring.record.hopExpiries }

/-- One insertion drop counted (R14). -/
def State.countInsertionDrop (s : State) : State :=
  { s with ring.record.insertionDrops := inc16 s.ring.record.insertionDrops }

/-- One trigger drop counted (R12, R38). -/
def State.countTriggerDrop (s : State) : State :=
  { s with ring.record.triggerDrops := inc16 s.ring.record.triggerDrops }

/-- One management drop counted (R12). -/
def State.countManagementDrop (s : State) : State :=
  { s with ring.record.managementDrops := inc16 s.ring.record.managementDrops }

end Sys2Proof.Machine
end

