-- ==== Sys2Proof/Machine/Operands.lean ====
section
/-! DEFINITION. The fields of table words (section 11.3): which codes are valid and how numbers are
clamped (R159, R169), the settings each reader decodes from them, the unit conversions of R107, and
the codes of enumerations (R179). -/
namespace Sys2Proof.Machine

/-! ## Codes (R179) -/

/-- Mode code. -/
def GalleryMode.code : GalleryMode → Nat
  | .held => 0 | .opened => 1 | .quiet => 2 | .closed => 3 | .service => 4

/-- The mode of a code 1 to 4, as a PULSE and a MODE-ENTRY entry carry it. -/
def modeOfCode : Nat → Option GalleryMode
  | 1 => some .opened | 2 => some .quiet | 3 => some .closed | 4 => some .service | _ => none

/-- Node state code. -/
def NodeState.code : NodeState → Nat
  | .bypass => 0 | .active => 1 | .closing => 2 | .dormant => 3

/-- Press kind code. -/
def PressKind.code : PressKind → Nat
  | .short => 0 | .hold => 1

/-- The press kind of a code. -/
def pressOfCode : Nat → Option PressKind
  | 0 => some .short | 1 => some .hold | _ => none

/-- Outcome code. -/
def EndOutcome.code : EndOutcome → Nat
  | .completed => 0 | .stopped => 1 | .halted => 2 | .faulted => 3

/-- The outcome of a code. -/
def outcomeOfCode : Nat → Option EndOutcome
  | 0 => some .completed | 1 => some .stopped | 2 => some .halted | 3 => some .faulted | _ => none

/-- Level code. -/
def levelCode : Level → Nat
  | .notice => 0 | .attend => 1 | .urgent => 2

/-- The level of a code; code 3, which is invalid, is never looked up past a word's check. -/
def levelOfCode : Nat → Level
  | 0 => .notice | 1 => .attend | _ => .urgent

/-- Record state code. -/
def RecState.code : RecState → Nat
  | .raised => 0 | .called => 1 | .acknowledged => 2 | .clearing => 3

/-- Cause number (section 8.1). -/
def Cause.code : Cause → Fin 12
  | .guardOpen => 0 | .driverFault => 1 | .limitHit => 2 | .homeFailed => 3 | .help => 4
  | .buttonStuck => 5 | .roughHandling => 6 | .tableDamage => 7 | .lineLost => 8
  | .cuedCall => 9 | .imageFailed => 10 | .saveFailed => 11

/-- Result code. -/
def ResultCode.code : ResultCode → Nat
  | .ok => 0 | .clamped => 1 | .damaged => 2 | .range => 3 | .inUse => 4 | .busy => 5
  | .readOnly => 6 | .noTable => 7 | .length => 8

/-- Image state code. -/
def ImageState.code : ImageState → Nat
  | .empty => 0 | .loading => 1 | .loaded => 2 | .loadFailed => 3 | .saving => 4

/-- Reset cause code. -/
def ResetCause.code : ResetCause → Nat
  | .powerUp => 0 | .pin => 1 | .restart => 2

/-- Channel state code. -/
def ChanState.code : ChanState → Nat
  | .unhomed => 0 | .homing => 1 | .idle => 2 | .moving => 3 | .stopping => 4 | .halted => 5
  | .fault => 6 | .resting => 7

/-- Carrier code. -/
def Carrier.code : Carrier → Nat
  | .hz200 => 0 | .khz1 => 1 | .khz20 => 2

/-- The carrier of a code; code 3, which is invalid, is never looked up past a word's check. -/
def carrierOfCode : Nat → Carrier
  | 0 => .hz200 | 1 => .khz1 | _ => .khz20

/-- Requester code. -/
def Requester.code : Requester → Nat
  | .prefetch => 0 | .management => 1 | .cue => 2 | .button => 3 | .motion => 4 | .effect => 5
  | .alert => 6 | .mode => 7 | .scrubber => 8

/-! ## Field rules (R159, R169) -/

/-- One field of a table word: its place, the codes it may hold, and how a number is clamped. -/
structure FieldRule where
  lo  : Nat
  len : Nat
  ok  : Nat → Bool
  fix : Nat → Nat

/-- A field every value of which is allowed: a flag, a mask, a full-range number. -/
def anyValue (lo len : Nat) : FieldRule := ⟨lo, len, fun _ => true, id⟩

/-- An enumeration or index. -/
def codeField (lo len : Nat) (ok : Nat → Bool) : FieldRule := ⟨lo, len, ok, id⟩

/-- A numeric field with a range. -/
def numField (lo len : Nat) (fix : Nat → Nat) : FieldRule := ⟨lo, len, fun _ => true, fix⟩

/-- The word a PUT stores for `w`, and what a reader takes `w` for: none if a code is invalid, else the
fields with numbers clamped and every bit of no field 0 (R159, R169). -/
def applyRules (rules : List FieldRule) (w : Word) : Option Word :=
  if rules.all (fun r => r.ok (field w r.lo r.len)) then
    some (rules.foldl (fun a r => a ||| BitVec.ofNat 32 (r.fix (field w r.lo r.len) * 2 ^ r.lo)) 0)
  else none

/-- Whether a number of the word was clamped (R169). -/
def wasClamped (rules : List FieldRule) (w : Word) : Bool :=
  rules.any (fun r => r.fix (field w r.lo r.len) != field w r.lo r.len)

/-- An index below `n`, or 255 for absent or any (R179). -/
def indexOrNone (n : Nat) (x : Nat) : Bool := decide (x < n) || x == 255

/-- A source node 1 to 120, or 255 any. -/
def sourceCode (x : Nat) : Bool := (decide (1 ≤ x) && decide (x ≤ 120)) || x == 255

/-- The hold time: 0, or 5 to 100; a value in the gap becomes 5 (R169). -/
def fixHold (x : Nat) : Nat := if x = 0 then 0 else clampNat 5 100 x

/-- A signed field of `n` bits as a number. -/
def signed (n x : Nat) : Int := if x < 2 ^ (n - 1) then x else (x : Int) - 2 ^ n

/-- A number as a signed field of `n` bits. -/
def unsign (n : Nat) (x : Int) : Nat := (x % 2 ^ n).toNat

/-- A signed level −255 to 255 in a field of `n` bits. -/
def fixLevel (n x : Nat) : Nat := unsign n (clampInt (-255) 255 (signed n x))

/-- The fields of word `off` of the cue table's entries. -/
def cueRules (off : Nat) (w : Word) : List FieldRule :=
  if off = 0 then
    let t := field w 24 3
    let a := if t = 1 ∨ t = 2 then codeField 16 8 sourceCode else anyValue 16 8
    let b := if t = 1 then codeField 8 8 (indexOrNone 16)
      else if t = 3 then codeField 8 8 (fun x => decide (x < 16))
      else if t = 2 ∨ t = 4 then codeField 8 8 (fun x => decide (x < 4)) else anyValue 8 8
    let c := if t = 1 ∨ t = 3 then codeField 0 8 (fun x => decide (x < 2))
      else if t = 2 ∨ t = 4 then codeField 0 8 (indexOrNone 32)
      else if t = 5 then codeField 0 8 (fun x => decide (1 ≤ x) && decide (x ≤ 4))
      else anyValue 0 8
    [c, b, a, codeField 24 3 (fun x => decide (x < 6)), anyValue 31 1]
  else if off = 1 then
    [anyValue 0 4, codeField 8 8 (indexOrNone 4),
     codeField 16 3 (fun x => decide (1 ≤ x) && decide (x ≤ 4))]
  else
    codeField 28 4 (fun x => decide (x < 7)) ::
    match field w 28 4 with
    | 0 => [anyValue 16 2, anyValue 0 5]
    | 1 => [anyValue 0 4]
    | 2 => [anyValue 0 4]
    | 3 => [anyValue 25 3, numField 16 9 (fixLevel 9), anyValue 0 16]
    | 4 => [anyValue 0 4, codeField 8 2 (fun x => decide (x < 3))]
    | 5 => [anyValue 0 16]
    | 6 => [anyValue 0 16]
    | _ => []

/-- The fields of word `off` of an entry of table `t` (section 11.3). `rotary` is the kind held in the
same channel entry, which decides the bound of the shared travel field (R169); `i` is the word within
the table. -/
def wordRules (t off i : Nat) (rotary : Bool) (w : Word) : List FieldRule :=
  match t with
  | 0 => match off with
    | 0 => [numField 0 7 (clampNat 2 127), numField 16 9 (clampNat 10 500)]
    | 1 => [numField 0 8 (clampNat 1 255)]
    | 2 => [codeField 0 2 (fun x => decide (x < 3)), anyValue 8 4]
    | 3 => [anyValue 0 1]
    | _ => []
  | 1 => if i < 12 then [codeField 0 2 (fun x => decide (x < 3)), anyValue 8 8] else []
  | 2 => match off with
    | 0 => [anyValue 0 9, codeField 9 2 (fun x => decide (x < 3)), anyValue 12 4,
            codeField 16 8 (indexOrNone 32), numField 24 8 (clampNat 10 100)]
    | 1 => [numField 0 20 (clampNat (if rotary then 2 else 1) 1000000)]
    | 2 => [numField 0 13 (clampNat 10 5000), numField 16 13 (clampNat 10 5000)]
    | 3 => [numField 0 21 (clampNat 1 2000000)]
    | _ => []
  | 3 => match off with
    | 0 => [numField 0 16 (fixLevel 16)]
    | _ => [anyValue 0 8]
  | 4 => match off with
    | 0 => [anyValue 0 3, codeField 8 8 (indexOrNone 4)]
    | 1 => [numField 0 8 (clampNat 1 50), numField 8 8 fixHold, numField 16 8 (clampNat 10 120)]
    | 2 => [numField 0 8 (clampNat 0 15), numField 8 8 (clampNat 0 15),
            numField 16 8 (clampNat 1 255)]
    | _ => []
  | 5 => cueRules off w
  | 6 => match off with
    | 0 => [anyValue 0 9, numField 16 6 (clampNat 0 32), anyValue 24 8]
    | _ => []
  | 7 => match off with
    | 0 => [anyValue 0 24, codeField 30 2 (fun x => decide (x < 3))]
    | 1 => [numField 0 15 (clampNat 1 20000), anyValue 16 16]
    | _ => [numField 0 18 (clampNat 100 200000)]
  | _ => []

/-- The bits of a word that belong to one of its fields. -/
def fieldBits (rules : List FieldRule) : Word :=
  rules.foldl (fun a r => a ||| BitVec.ofNat 32 ((2 ^ r.len - 1) * 2 ^ r.lo)) 0

/-- Word `i` of an image as table memory stores it: the bits of no field are stored as 0 (R173, R179). Which
fields an action word of the cue table has follows its own kind, and one of an invalid kind has its kind alone. -/
def imageWord (i : Nat) (w : Word) : Word :=
  let t := regionOf i
  let n := i - regionFirst t
  w &&& fieldBits (wordRules t (n % entryWords t) n false w)

/-- A delivered word as its reader takes it: none if it read uncorrectable or holds an invalid code,
else with its numbers clamped (R159). -/
def readWord (t off i : Nat) (rotary : Bool) (d : Delivered) : Option Word :=
  if d.bad then none else applyRules (wordRules t off i rotary d.data) d.data

/-- Word `n` of the words delivered for an entry. -/
def nthWord (ws : List Delivered) (n : Nat) : Delivered := ws.getD n ⟨0, true⟩

/-! ## Settings as their readers decode them -/

/-- An optional index of `n` values in 8 bits: 255 is absent (R179). -/
def optIndex (n : Nat) [NeZero n] (x : Nat) : Option (Fin n) :=
  if x = 255 then none else some (Fin.ofNat n x)

/-- The busy policy of a code; code 3, which is invalid, is never looked up past a word's check. -/
def policyOfCode : Nat → BusyPolicy
  | 0 => .refuse | 1 => .queue | _ => .preempt

/-- A channel settings entry from its eight words (R78, section 11.3). -/
def channelOfWords (ws : List Delivered) : Held ChannelSettings :=
  let rotary := flag (nthWord ws 0).data 1
  let rd := fun n => readWord 2 n n rotary (nthWord ws n)
  match rd 0, rd 1, rd 2, rd 3, (ws.drop 4).all (fun d => !d.bad) with
  | some a, some b, some c, some d, true =>
    .copy
      { enabled := flag a 0, rotary := rotary, homeOutward := flag a 2, attend := flag a 3
        holdsPosition := flag a 4, autoHome := flag a 5, reportDone := flag a 6
        invert := flag a 7, lossFinish := flag a 8, policy := policyOfCode (field a 9 2)
        guardMap := BitVec.ofNat 4 (field a 12 4), park := optIndex 32 (field a 16 8)
        quietPercent := field a 24 8, travel := field b 0 20, startSpeed := field c 0 13
        homeSpeed := field c 16 13, searchLimit := field d 0 21 }
  | _, _, _, _, _ => .damaged

/-- A button table entry from its four words (R58, section 11.3). -/
def buttonOfWords (ws : List Delivered) : Held ButtonSettings :=
  match readWord 4 0 0 false (nthWord ws 0), readWord 4 1 1 false (nthWord ws 1),
      readWord 4 2 2 false (nthWord ws 2), (nthWord ws 3).bad with
  | some a, some b, some c, false =>
    .copy
      { enabled := flag a 0, help := flag a 1, reportTap := flag a 2
        lampChannel := optIndex 4 (field a 8 8), debounce := field b 0 8, hold := field b 8 8
        stuck := field b 16 8, allowance := field c 0 8, rough := field c 8 8
        refill := field c 16 8 }
  | _, _, _, _ => .damaged

/-- An effect entry from its two words (R123). -/
def effectOfWords (ws : List Delivered) : Held EffectSettings :=
  match readWord 3 0 0 false (nthWord ws 0), readWord 3 1 1 false (nthWord ws 1) with
  | some a, some b => .copy { safe := signed 16 (field a 0 16), dead := field b 0 8 }
  | _, _ => .damaged

/-- A cause word (R134). An invalid start level makes that of CUED-CALL DAMAGED too, though no record takes its
level from it (DESIGN CHOICE, log entry 14). -/
def causeOfWord (d : Delivered) : Held CauseSettings :=
  match readWord 1 0 0 false d with
  | some a => .copy { level := levelOfCode (field a 0 2), esc := field a 8 8 }
  | none => .damaged

/-- The carrier and pairing of a node settings word 2; none if it reads damaged (R123). -/
def carrierOfWord (d : Delivered) : Option (Carrier × BitVec 4) :=
  match readWord 0 2 2 false d with
  | some a => some (carrierOfCode (field a 0 2), BitVec.ofNat 4 (field a 8 4))
  | none => none

/-- A directory entry from its two words; none if damaged (R89). -/
def directoryOfWords (ws : List Delivered) : Option Directory :=
  match readWord 6 0 0 false (nthWord ws 0), (nthWord ws 1).bad with
  | some a, false => some { first := field a 0 9, count := field a 16 6, repeats := field a 24 8 }
  | _, _ => none

/-- Segment kind of a code. -/
def segKindOfCode : Nat → SegKind
  | 0 => .goto | 1 => .byDistance | _ => .dwell

/-- A sign-and-magnitude number of 24 bits (R179). -/
def signMagnitude (x : Nat) : Int :=
  if x < 2 ^ 23 then (x : Int) else -((x % 2 ^ 23 : Nat) : Int)

/-- A segment from its three words; none if damaged (R99). -/
def segmentOfWords (ws : List Delivered) : Option Segment :=
  match readWord 7 0 0 false (nthWord ws 0), readWord 7 1 1 false (nthWord ws 1),
      readWord 7 2 2 false (nthWord ws 2) with
  | some a, some b, some c =>
    some { kind := segKindOfCode (field a 30 2), target := signMagnitude (field a 0 24)
           cruise := field b 0 15, dwell := field b 16 16, accel := field c 0 18 }
  | _, _, _ => none

/-! ## Cue entries -/

/-- The condition words of a cue entry (section 3.1). -/
structure Condition where
  enabled     : Bool
  kind        : Nat
  opA         : Nat
  opB         : Nat
  opC         : Nat
  modeSet     : BitVec 4
  requireIdle : Option (Fin 4)
  count       : Nat
  deriving DecidableEq, Repr

/-- The condition of an entry from its first two words; none if damaged (R42, R159). -/
def conditionOfWords (ws : List Delivered) : Option Condition :=
  match readWord 5 0 0 false (nthWord ws 0), readWord 5 1 1 false (nthWord ws 1) with
  | some a, some b =>
    some { enabled := flag a 31, kind := field a 24 3, opA := field a 16 8, opB := field a 8 8
           opC := field a 0 8, modeSet := BitVec.ofNat 4 (field b 0 4)
           requireIdle := optIndex 4 (field b 8 8), count := field b 16 3 }
  | _, _ => none

/-- An action from an action word; none if damaged (R43, R159). -/
def actionOfWord (d : Delivered) : Option Action :=
  match readWord 5 2 2 false d with
  | none => none
  | some a =>
    match field a 28 4 with
    | 0 => some (.start (Fin.ofNat 4 (field a 16 2)) (Fin.ofNat 32 (field a 0 5)))
    | 1 => some (.stop (BitVec.ofNat 4 (field a 0 4)))
    | 2 => some (.home (BitVec.ofNat 4 (field a 0 4)))
    | 3 => some (.effect (Fin.ofNat 8 (field a 25 3)) (signed 9 (field a 16 9))
        (BitVec.ofNat 16 (field a 0 16)))
    | 4 => some (.call (Fin.ofNat 16 (field a 0 4)) (levelOfCode (field a 8 2)))
    | 5 => some (.lock (BitVec.ofNat 16 (field a 0 16)))
    | 6 => some (.unlock (BitVec.ofNat 16 (field a 0 16)))
    | _ => none

/-- The actions of the delivered action words; none if one is damaged (R43). -/
def actionsOfWords : List Delivered → Option (List Action)
  | [] => some []
  | d :: ds =>
    match actionOfWord d, actionsOfWords ds with
    | some a, some as => some (a :: as)
    | _, _ => none

/-- An operand that may be "any" (255) agrees with a value (R40). -/
def agrees (op x : Nat) : Bool := op == 255 || op == x

/-- An entry's condition matches a trigger record (R40). -/
def matchesTrigger (k : Condition) : Trigger → Bool
  | .lineCue n => k.kind == 0 && k.opA == n.toNat
  | .peerTap n b p =>
    k.kind == 1 && agrees k.opA n.toNat && agrees k.opB b.val && k.opC == p.code
  | .peerDone n c o p =>
    k.kind == 2 && agrees k.opA n.toNat && k.opB == c.val && agrees k.opC p.val
      && decide (o = .completed)
  | .localPress b p => k.kind == 3 && k.opB == b.val && k.opC == p.code
  | .localDone c o p =>
    k.kind == 4 && k.opB == c.val && agrees k.opC p.val && decide (o = .completed)
  | .modeEntry m => k.kind == 5 && k.opC == m.code

/-- The mode set's bit for an effective mode; HELD is in no mode set (R26, R41). -/
def modeInSet (m : GalleryMode) (set : BitVec 4) : Bool :=
  match m with
  | .held => false
  | .opened => set.getLsbD 0
  | .quiet => set.getLsbD 1
  | .closed => set.getLsbD 2
  | .service => set.getLsbD 3

/-! ## Conversions (R107) -/

/-- A speed in steps/s as a velocity in 2⁻¹⁶ step per tick. -/
def convSpeed (steps : Nat) : Nat := steps * 65536 / 1000

/-- V_c: the cruise speed, scaled by the quiet percent in QUIET. -/
def convCruise (m : GalleryMode) (quietPercent cruise : Nat) : Nat :=
  if m = .quiet then convSpeed cruise * quietPercent / 100 else convSpeed cruise

/-- D: an acceleration in steps/s² as a velocity change per tick. -/
def convAccel (a : Nat) : Nat := a * 65536 / 1000000

/-- Reference periods of one carrier period (R124). -/
def Carrier.period : Carrier → Nat
  | .hz200 => 80000 | .khz1 => 16000 | .khz20 => 800

/-- The start of STEP pulse `k` (from 1) of the `n` pulses of a tick, in reference periods (R113). -/
def pulseStart (n k : Nat) : Nat := (k - 1) * 16000 / n

/-! ## Blank content (R134, R174) -/

/-- The blank start level and escalation time of a cause (R134). -/
def blankCause : Cause → CauseSettings
  | .guardOpen => ⟨.attend, 6⟩
  | .driverFault => ⟨.urgent, 0⟩
  | .limitHit => ⟨.urgent, 0⟩
  | .homeFailed => ⟨.attend, 30⟩
  | .help => ⟨.attend, 6⟩
  | .buttonStuck => ⟨.notice, 30⟩
  | .roughHandling => ⟨.notice, 0⟩
  | .tableDamage => ⟨.attend, 0⟩
  | .lineLost => ⟨.attend, 60⟩
  | .cuedCall => ⟨.attend, 12⟩
  | .imageFailed => ⟨.urgent, 0⟩
  | .saveFailed => ⟨.attend, 0⟩

/-- All causes, in the order of their numbers. -/
def causes : List Cause :=
  [.guardOpen, .driverFault, .limitHit, .homeFailed, .help, .buttonStuck, .roughHandling,
   .tableDamage, .lineLost, .cuedCall, .imageFailed, .saveFailed]

/-- The blank content of word `i` of table `t` (R174): the values it names, and otherwise 0 or the
least value of the range, the first value of an enumeration, flags clear, options absent. -/
def blankTableWord (t i : Nat) : Word :=
  match t with
  | 0 => match i with
    | 0 => BitVec.ofNat 32 (127 + 50 * 2 ^ 16)
    | 1 => 10
    | 2 => 1
    | _ => 0
  | 1 => match causes[i]? with
    | some c => BitVec.ofNat 32 (levelCode (blankCause c).level + (blankCause c).esc * 2 ^ 8)
    | none => 0
  | 2 => match i % 8 with
    | 0 => BitVec.ofNat 32 (255 * 2 ^ 16 + 10 * 2 ^ 24)
    | 1 => 1
    | 2 => BitVec.ofNat 32 (10 + 10 * 2 ^ 16)
    | 3 => 1
    | _ => 0
  | 3 => if i % 2 = 1 then 20 else 0
  | 4 => match i % 4 with
    | 0 => BitVec.ofNat 32 (255 * 2 ^ 8)
    | 1 => BitVec.ofNat 32 (1 + 10 * 2 ^ 16)
    | 2 => BitVec.ofNat 32 (1 * 2 ^ 16)
    | _ => 0
  | 5 => match i % 6 with
    | 1 => BitVec.ofNat 32 (255 * 2 ^ 8 + 1 * 2 ^ 16)
    | _ => 0
  | 6 => 0
  | _ => match i % 3 with
    | 1 => 1
    | 2 => 100
    | _ => 0

/-- The blank content of a word of table memory, by index (R174). -/
def blankWord (i : Nat) : Word := blankTableWord (regionOf i) (i - regionFirst (regionOf i))

end Sys2Proof.Machine
end

