-- ==== Sys2Proof/Machine/Flags.lean ====
section
/-! DEFINITION. What the node's state says at a moment: the mode unit's answers (R26, R27), gating and
guards (R82, R85), the rest test (R31), lamps (R72, R73), the beacon level (R147), output levels (R80,
R125) and the in-use marks (R117). Nothing here changes state. -/
namespace Sys2Proof.Machine

/-! ## The mode unit's answers (R26, R27) -/

/-- What becomes of a press (section 2.2). -/
inductive PressAnswer where
  | dispatched | reported | ignored
  deriving DecidableEq, Repr

/-- Local-play as the mode unit takes it: clear until its word is delivered (R27). -/
def State.localPlayOn (s : State) : Bool := s.mode.localPlay == some true

/-- The line is lost and local-play is clear (R27). -/
def State.lossRestricts (s : State) : Bool := s.mode.lineLost && !s.localPlayOn

/-- The answer for a press of a HELP or a PLAIN button (R26, R27). -/
def State.pressAnswer (s : State) (help : Bool) : PressAnswer :=
  match s.mode.mode with
  | .held => .ignored
  | .opened => if help then .dispatched else if s.lossRestricts then .ignored else .dispatched
  | .quiet => if help then .dispatched else if s.lossRestricts then .ignored else .dispatched
  | .service => if help then .reported else if s.lossRestricts then .ignored else .reported
  | .closed => if help then .dispatched else .ignored

/-- A START proceeds (R26, R27). -/
def State.startAllowed (s : State) : Bool :=
  match s.mode.mode with
  | .opened => !s.lossRestricts
  | .quiet => !s.lossRestricts
  | .service => !s.lossRestricts
  | .held => false
  | .closed => false

/-- A HOME proceeds (R26). -/
def State.homeAllowed (s : State) : Bool := decide (s.mode.mode ≠ .closed)

/-- An EFFECT action may change a level (R26, R53). -/
def State.effectAllowed (s : State) : Bool := decide (s.mode.node ≠ .dormant)

/-! ## Channels -/

/-- The channel is enabled: it holds a copy with the flag set (R78). -/
def Channel.enabled (ch : Channel) : Bool :=
  match ch.held with
  | .copy k => k.enabled
  | .absent => false
  | .damaged => false

/-- The guards that protect the channel; none without a copy. -/
def Channel.guardMap (ch : Channel) : BitVec 4 :=
  match ch.held with
  | .copy k => k.guardMap
  | .absent => 0
  | .damaged => 0

/-- The attend-before-restart flag. -/
def Channel.attend (ch : Channel) : Bool :=
  match ch.held with
  | .copy k => k.attend
  | .absent => false
  | .damaged => false

/-- The channel holds a copy of a ROTARY entry. -/
def Channel.rotary (ch : Channel) : Bool :=
  match ch.held with
  | .copy k => k.rotary
  | .absent => false
  | .damaged => false

/-- Every guard of a map reads CLOSED (R82, R84). -/
def State.guardsClosed (s : State) (map : BitVec 4) : Bool :=
  four.all fun g => !(map.getLsbD g.val && (s.guardIn g).isOpen)

/-- A record that waits to be seen: RAISED or CALLED. -/
def Record.unseen (r : Record) : Bool := decide (r.state = .raised) || decide (r.state = .called)

/-- Some record in the table satisfies `p`. -/
def State.anyRecord (s : State) (p : Record → Bool) : Bool :=
  sixteen.any fun i => match s.slotAt i with
    | some r => p r
    | none => false

/-- A record that would gate channel `c` under guard map `map` (R85). -/
def gatingRecord (c : Fin 4) (map : BitVec 4) (r : Record) : Bool :=
  match r.cause with
  | .guardOpen => map.getLsbD r.subject
  | .limitHit => r.subject == c.val
  | .driverFault => r.subject == c.val
  | .homeFailed => r.subject == c.val
  | _ => false

/-- Channel `c` is gated (R85). -/
def State.gated (s : State) (c : Fin 4) : Bool :=
  (s.chan c).attend && s.anyRecord fun r => r.unseen && gatingRecord c (s.chan c).guardMap r

/-- Channel `c` is energised: its ENABLE output is on (R80). -/
def State.energised (s : State) (c : Fin 4) : Bool :=
  !s.ring.bypass && match (s.chan c).state with
    | .fault => false
    | .resting => false
    | _ => true

/-- A HALTED channel is free to be released (R84). -/
def State.haltReleased (s : State) (c : Fin 4) : Bool :=
  s.guardsClosed (s.chan c).guardMap &&
    (!(s.chan c).attend ||
      !s.anyRecord fun r =>
        r.unseen && decide (r.cause = .guardOpen) && (s.chan c).guardMap.getLsbD r.subject)

/-- A FAULT channel is free to be released (R98). -/
def State.faultReleased (s : State) (c : Fin 4) : Bool :=
  match (s.chan c).faultReason with
  | some .driver =>
    !(s.chan c).faultPin &&
      !s.anyRecord fun r => r.unseen && decide (r.cause = .driverFault) && r.subject == c.val
  | some .limit =>
    !s.anyRecord fun r => r.unseen && decide (r.cause = .limitHit) && r.subject == c.val
  | none => true

/-- The channel states that pass the rest test (R31). -/
def ChanState.atRest : ChanState → Bool
  | .unhomed => true
  | .idle => true
  | .halted => true
  | .fault => true
  | .homing => false
  | .moving => false
  | .stopping => false
  | .resting => false

/-- The states in which a held copy is replaced at once (R78). -/
def ChanState.replaceable : ChanState → Bool
  | .unhomed => true
  | .idle => true
  | .resting => true
  | .homing => false
  | .moving => false
  | .stopping => false
  | .halted => false
  | .fault => false

/-- The states in which a channel emits steps (R82). -/
def ChanState.inMotion : ChanState → Bool
  | .homing => true
  | .moving => true
  | .stopping => true
  | .unhomed => false
  | .idle => false
  | .halted => false
  | .fault => false
  | .resting => false

/-- The rest test of R31 passes. -/
def State.restPasses (s : State) : Bool :=
  (four.all fun c => (s.chan c).state.atRest) && !s.anyRecord Record.unseen

/-- The channel has motion still to make for FAR (R97, R110). -/
def Channel.motionToMake (ch : Channel) : Bool :=
  match ch.state with
  | .moving => ch.current.isSome && !ch.arrived && decide (0 < ch.rem)
  | .stopping => decide (ch.vs < ch.v)
  | _ => false

/-- FAR is read for the channel at a tick (R97). -/
def Channel.farRead (ch : Channel) : Bool :=
  ch.enabled && !ch.rotary && ch.outward && ch.motionToMake

/-- The level DIR takes for a direction (R80). -/
def Channel.dirLevel (ch : Channel) (outward : Bool) : Bool :=
  match ch.held with
  | .copy k => if k.invert then !outward else outward
  | .absent => outward
  | .damaged => outward

/-- Segment number at a place of the running order (R114). -/
def Directory.segmentAt (d : Directory) (ord : Nat) : Nat := (d.first + ord % d.count) % 512

/-- The running order of a channel reaches place `ord` (R115). -/
def Channel.orderReaches (ch : Channel) (d : Directory) (ord : Nat) : Bool :=
  (!ch.finalPass || decide (ord < d.count * (ch.ord / d.count + 1))) &&
    (d.repeats == 0 || decide (ord < d.count * d.repeats))

/-- Directory entry `p` is marked in use by the channel (R117). -/
def Channel.usesProfile (ch : Channel) (p : Nat) : Bool :=
  match ch.profile with
  | some q => q.val == p
  | none => false

/-- Segment `n` is marked in use by the channel (R117). Between the begin of a profile and the delivery of its
directory entry no segment is marked, since the marks are those of the entry "as read"; R117 and section 6.13 also
speak of marks from the profile's beginning (DESIGN CHOICE, log entry 37). -/
def Channel.usesSegment (ch : Channel) (n : Nat) : Bool :=
  match ch.profile, ch.dir with
  | some _, some d => (List.range d.count).any fun k => d.segmentAt k == n
  | _, _ => false

/-! ## Effect outputs (R125) -/

/-- The pair of an output. -/
def pairOf (o : Fin 8) : Fin 4 := Fin.ofNat 4 (o.val / 2)

/-- The even output of a pair. -/
def evenOf (k : Fin 4) : Fin 8 := Fin.ofNat 8 (2 * k.val)

/-- The odd output of a pair. -/
def oddOf (k : Fin 4) : Fin 8 := Fin.ofNat 8 (2 * k.val + 1)

/-- Output `o` is in a joined pair. -/
def State.joined (s : State) (o : Fin 8) : Bool := s.effect.pairing.getLsbD (pairOf o).val

/-- The output whose record holds the state of `o`: the even one while its pair is joined. -/
def State.base (s : State) (o : Fin 8) : Fin 8 := if s.joined o then evenOf (pairOf o) else o

/-- The level a fine level stands for: rounded down on the magnitude, with its sign (chapter 7). -/
def levelOfFine (f : Int) : Int :=
  if 0 ≤ f then ((f.natAbs / 256 : Nat) : Int) else -((f.natAbs / 256 : Nat) : Int)

/-- The drive level of an output (R125). -/
def State.driveLevel (s : State) (o : Fin 8) : Nat :=
  let l := levelOfFine (s.out (s.base o)).fine
  if s.joined o then
    (if o.val % 2 = 0 then l.toNat else (-l).toNat)
  else l.toNat

/-- The start of a period of carrier `k`: each output takes its drive level as it stands, and with it its
high time (R124). -/
def State.takeLevels (s : State) (k : Carrier) : State :=
  { s with effect.outputs := Vector.ofFn fun o =>
      { s.effect.outputs[o] with highTime := s.driveLevel o * k.period / 255 } }

/-- The effect output pin is high (R124, R125). -/
def State.effectPin (s : State) (o : Fin 8) : Bool :=
  !s.ring.bypass && s.effect.counting && decide (s.effect.counter < (s.out o).highTime)

/-- The dead interval in force for a pair (R123; log entry 3 for one not yet read). -/
def State.deadInterval (s : State) (k : Fin 4) : Nat :=
  match (s.out (evenOf k)).held with
  | .copy e => e.dead
  | .damaged => Config.damagedDeadInterval
  | .absent => (Config.unreadDeadInterval k.val).val

/-- The safe level in the held entry of an output (R123; log entry 3 for one not yet read). -/
def State.safeLevel (s : State) (o : Fin 8) : Int :=
  match (s.out o).held with
  | .copy e => e.safe
  | .damaged => 0
  | .absent => Config.unreadSafeLevel o.val

/-! ## Alerts -/

/-- The settings of a cause as the alert unit uses them (R134). -/
def State.causeSettings (s : State) (c : Cause) : CauseSettings :=
  match s.alert.held[c.code] with
  | .copy k => k
  | .damaged => ⟨.urgent, 0⟩
  | .absent => blankCause c

/-- The cause is latched (section 8.1). -/
def Cause.latched : Cause → Bool
  | .buttonStuck => false
  | .roughHandling => false
  | _ => true

/-- The cause's condition ends in the event of its raise (R138). -/
def Cause.momentary : Cause → Bool
  | .homeFailed => true
  | .help => true
  | .tableDamage => true
  | .cuedCall => true
  | _ => false

/-- The slot of the record of a matter. -/
def State.findRecord (s : State) (c : Cause) (subject : Nat) : Option (Fin 16) :=
  sixteen.find? fun i => match s.slotAt i with
    | some r => decide (r.cause = c) && r.subject == subject
    | none => false

/-- The lowest empty slot (R135). -/
def State.emptySlot (s : State) : Option (Fin 16) := sixteen.find? fun i => (s.slotAt i).isNone

/-- The higher of two levels. -/
def levelMax (a b : Level) : Level := if levelCode a < levelCode b then b else a

/-- The next level up (R142). -/
def levelUp : Level → Level
  | .notice => .attend
  | .attend => .urgent
  | .urgent => .urgent

/-- The beacon level the table and the overflow flag call for (R147). -/
def State.beaconLevel (s : State) : Option Level :=
  if s.alert.overflow then some .urgent
  else sixteen.foldl (fun acc i => match s.slotAt i with
    | some r => if r.unseen then some (match acc with
        | some l => levelMax l r.level
        | none => r.level) else acc
    | none => acc) none

/-- The level of a due record in slot `i`. -/
def State.dueLevel (s : State) (i : Fin 16) : Option Level :=
  match s.slotAt i with
  | some r => if r.due then some r.level else none
  | none => none

/-- The slot whose record the next CALL is built from: the highest level, then the lowest slot (R18). -/
def State.dueSlot (s : State) : Option (Fin 16) :=
  match sixteen.find? (fun i => s.dueLevel i == some .urgent) with
  | some i => some i
  | none => match sixteen.find? (fun i => s.dueLevel i == some .attend) with
    | some i => some i
    | none => sixteen.find? (fun i => s.dueLevel i == some .notice)

/-! ## Buttons (R72, R73) -/

/-- The button is enabled: it holds a copy with the flag set (R58). -/
def Button.enabled (x : Button) : Bool :=
  match x.held with
  | .copy k => k.enabled
  | .absent => false
  | .damaged => false

/-- The button holds a copy of a HELP entry. -/
def Button.help (x : Button) : Bool :=
  match x.held with
  | .copy k => k.help
  | .absent => false
  | .damaged => false

/-- The allowance is not exhausted: no count is kept, or it is 1 or more. -/
def Button.hasAllowance (x : Button) : Bool :=
  match x.allowance with
  | none => true
  | some n => decide (1 ≤ n)

/-- A button is dispatch-ready (R72). -/
def State.dispatchReady (s : State) (b : Fin 16) : Bool :=
  let x := s.btn b
  x.enabled && !x.lock && decide (x.phase ≠ .stuck)
    && decide (s.pressAnswer x.help = .dispatched) && x.hasAllowance

/-- The lamp channel of a button is absent, or IDLE and not gated (R73). -/
def State.lampChannelReady (s : State) (k : ButtonSettings) : Bool :=
  match k.lampChannel with
  | none => true
  | some c => decide ((s.chan c).state = .idle) && !s.gated c

/-- The state of the HELP record of a button, if there is one. -/
def State.helpRecord (s : State) (b : Fin 16) : Option RecState :=
  match s.findRecord .help b.val with
  | some i => (s.slotAt i).map (fun r => r.state)
  | none => none

/-- The lamp state the rules call for (R73). -/
def State.lampFor (s : State) (b : Fin 16) : Lamp :=
  match (s.btn b).held with
  | .absent => .off
  | .damaged => .off
  | .copy k =>
    let rest : Lamp :=
      if (s.btn b).lock || decide (s.pressAnswer k.help = .ignored) then .off
      else if s.dispatchReady b && s.lampChannelReady k then .ready
      else .wait
    if !k.enabled then .off
    else if k.help then
      match s.helpRecord b with
      | some .raised => .helpFast
      | some .called => .helpFast
      | some .acknowledged => .helpSteady
      | some .clearing => .helpSteady
      | none => rest
    else rest

/-- The lamp output is on (R74). -/
def State.lampPin (s : State) (b : Fin 16) : Bool :=
  match (s.btn b).lamp with
  | .off => false
  | .ready => true
  | .wait => decide (s.button.waitCtr < 500)
  | .helpFast => decide (s.button.fastCtr < 125)
  | .helpSteady => true

end Sys2Proof.Machine
end

