-- ==== Sys2Proof/Machine/Notices.lean ====
section
/-! DEFINITION. What one block tells another when its state changes: lamps (R75), the beacon (R147,
R148), the rest test and the entry into DORMANT (R31, R32, R103, R132), the replacement of a held
channel copy (R78, R79), a change of channel state (R80), the releases (R84, R98) and the notice of a
changed alert record (R140). -/
namespace Sys2Proof.Machine

/-! ## Lamps (R75) -/

/-- Recomputing the lamp of one button (R75). -/
def State.lampUpdate (s : State) (b : Fin 16) : State :=
  s.withBtn b { s.btn b with lamp := s.lampFor b }

/-- Recomputing every lamp. -/
def State.allLamps (s : State) : State :=
  { s with button.buttons := Vector.ofFn fun b => { s.button.buttons[b] with lamp := s.lampFor b } }

/-- The button names channel `c` as its lamp channel (R73). -/
def Button.namesChannel (x : Button) (c : Fin 4) : Bool :=
  match x.held with
  | .copy k => k.lampChannel == some c
  | .absent => false
  | .damaged => false

/-- Recomputing the lamps that name channel `c` (R75). -/
def State.channelLamps (s : State) (c : Fin 4) : State :=
  { s with button.buttons := Vector.ofFn fun b =>
      if s.button.buttons[b].namesChannel c then
        { s.button.buttons[b] with lamp := s.lampFor b }
      else s.button.buttons[b] }

/-! ## Beacon (R147, R148) -/

/-- Recomputing the beacon level; a changed level starts its pattern at its on part (R148). -/
def State.beaconUpdate (s : State) : State :=
  let l := s.beaconLevel
  if l = s.alert.beacon then s
  else { s with
    alert.beacon := l, alert.beaconOn := l.isSome, alert.beaconCtr := 0
    alert.sounderOn := (l == some .urgent), alert.sounderCtr := 0 }

/-! ## Held channel copies (R78, R79) -/

/-- An IDLE channel becomes UNHOMED with position 0; a RESTING one that was IDLE wakes UNHOMED. -/
def Channel.losePosition (ch : Channel) : Channel :=
  match ch.state with
  | .idle => { ch with state := .unhomed, position := 0 }
  | .resting => if ch.restState = some .idle then { ch with restState := some .unhomed } else ch
  | _ => ch

/-- Disabling: an IDLE channel becomes UNHOMED with position 0; a RESTING one wakes UNHOMED (R79). -/
def Channel.disableEffect (ch : Channel) : Channel :=
  match ch.state with
  | .idle => { ch with state := .unhomed, position := 0 }
  | .resting => { ch with restState := some .unhomed }
  | _ => ch

/-- A travel limit below the position of a LINEAR channel (R79). -/
def Channel.travelEffect (ch : Channel) : Channel :=
  match ch.state with
  | .idle => { ch with state := .unhomed, position := 0 }
  | .resting => { ch with position := 0, restState := some .unhomed }
  | _ => ch

/-- Two copies differ in kind, wrap length, home direction or direction invert (R79). -/
def ChannelSettings.movesHome (a b : ChannelSettings) : Bool :=
  a.rotary != b.rotary || (b.rotary && a.travel != b.travel) || a.homeOutward != b.homeOutward
    || a.invert != b.invert

/-- Replacing the held copy of a channel, each changed field acting as R79 gives, whether or not the copies
are enabled; becoming DAMAGED acts as disabling, and after no copy, or a DAMAGED one, there are no fields
to differ from. -/
def Channel.replaceHeld (ch : Channel) (h : Held ChannelSettings) : Channel :=
  let now := { ch with held := h }
  match ch.held, h with
  | .copy a, .copy b =>
    let one := if a.enabled && !b.enabled then now.disableEffect else now
    let two := if a.movesHome b then one.losePosition else one
    if !b.rotary && a.travel != b.travel && decide (b.travel < two.position) then two.travelEffect
    else two
  | .copy _, .damaged => now.disableEffect
  | .copy _, .absent => now.disableEffect
  | .absent, _ => now
  | .damaged, _ => now

/-- A copy held aside replaces the held copy once the channel is UNHOMED, IDLE or RESTING (R78). -/
def Channel.takeAside (ch : Channel) : Channel :=
  match ch.aside with
  | some h => if ch.state.replaceable then { ch with aside := none }.replaceHeld h else ch
  | none => ch

/-! ## Rest (R31, R32, R103, R132) -/

/-- A channel enters RESTING, its state recorded (R103). -/
def Channel.enterResting (ch : Channel) : Channel :=
  { ch with restState := some ch.state, state := .resting }.takeAside

/-- An output at rest: level 0, fade idle, dead timer 0 (R132). The target, the step and the fade time
remaining, of which R32 and R132 say nothing, stay (DESIGN CHOICE, log entry 16). -/
def Effect.rested (e : Effect) : Effect :=
  { e with fine := 0, running := false, dead := 0 }

/-- Every output and pair at fine level 0, fades idle, dead timers 0 (R132). -/
def State.restOutputs (s : State) : State :=
  { s with effect.outputs := Vector.ofFn fun o => s.effect.outputs[o].rested }

/-- Entering DORMANT (R32). -/
def State.enterDormant (s : State) : State :=
  (({ s with mode.node := .dormant }.mapChans Channel.enterResting).restOutputs).allLamps

/-- The mode unit's rest test, made while CLOSING (R31). -/
def State.restTest (s : State) : State :=
  if s.mode.node = .closing ∧ s.restPasses = true then s.enterDormant else s

/-! ## Channel state changes (R80) -/

/-- Telling of a change of channel state: the rest test, then the lamps that name the channel. -/
def State.tellChannel (s : State) (c : Fin 4) : State := s.restTest.channelLamps c

/-- Channel `c` takes the record `ch`, whose state has changed: a copy held aside is taken where the
state allows it, and the change is told (R78, R80). The copy is taken before the telling, so the rest test of a
CLOSING node finds the state that the copy leaves (DESIGN CHOICE, log entry 18). -/
def State.changeChan (s : State) (c : Fin 4) (ch : Channel) : State :=
  (s.withChan c ch.takeAside).tellChannel c

/-- Testing a HALTED or FAULT channel for release (R84, R98). -/
def State.releaseTest (s : State) (c : Fin 4) : State :=
  let ch := s.chan c
  match ch.state with
  | .halted =>
    if s.haltReleased c then
      s.changeChan c { ch with state := if ch.positionLost then .unhomed else .idle }
    else s
  | .fault =>
    if s.faultReleased c then s.changeChan c { ch with state := .unhomed, faultReason := none }
    else s
  | _ => s

/-! ## Alert records (R140) -/

/-- The channels a record of a cause concerns (R85). -/
def State.concerned (s : State) (c : Cause) (subject : Nat) : List (Fin 4) :=
  match c with
  | .guardOpen => four.filter fun i => (s.chan i).guardMap.getLsbD subject
  | .driverFault => four.filter fun i => i.val == subject
  | .limitHit => four.filter fun i => i.val == subject
  | .homeFailed => four.filter fun i => i.val == subject
  | _ => []

/-- A channel whose gating records changed: its lamps are recomputed and it is tested for release
(R85). -/
def State.gatingNotice (s : State) (c : Fin 4) : State := (s.channelLamps c).releaseTest c

/-- Telling of a created, changed or freed record: the beacon, the mode unit, the motion unit, and the
button unit for HELP (R140). -/
def State.tellRecord (s : State) (c : Cause) (subject : Nat) : State :=
  let s1 := s.beaconUpdate.restTest
  let s2 := (s1.concerned c subject).foldl State.gatingNotice s1
  match c with
  | .help => s2.lampUpdate (Fin.ofNat 16 subject)
  | _ => s2

end Sys2Proof.Machine
end

