-- ==== Sys2Proof/Machine/Alerts.lean ====
section
/-! DEFINITION. The transmitter's choice (R17, R18), offers to the insertion queue and the relay buffer
(R8, R14), and the alert table: raising, condition ends, acknowledgement, escalation and calls
(chapter 8), with the commands TRANSMITTER_FREE, WAITING_FRAME_JOIN, CALL's raise, ESCALATION_EXPIRY,
KEY_CLOSURE and BEACON_PATTERN_PHASE. -/
namespace Sys2Proof.Machine

/-! ## Building a CALL (R18, R141) -/

/-- The payload of a CALL built from the record in slot `i` (section 11.2). -/
def callPayload (i : Fin 16) (r : Record) : List Byte :=
  [BitVec.ofNat 8 i.val, BitVec.ofNat 8 r.cause.code.val, BitVec.ofNat 8 r.subject,
   BitVec.ofNat 8 (levelCode r.level), BitVec.ofNat 8 r.state.code, BitVec.ofNat 8 r.repeats,
   BitVec.ofNat 8 r.escalations] ++ bytesBE 3 r.raisedAt

/-- The escalation timer's full time in ms, none for escalation time 0 (R142). -/
def State.escalationTime (s : State) (c : Cause) : Option Nat :=
  if (s.causeSettings c).esc = 0 then none else some ((s.causeSettings c).esc * 10000)

/-- A record after its CALL is built; none when the build frees it (R141). -/
def State.recordAfterCall (s : State) (r : Record) : Option Record :=
  match r.state with
  | .raised => some { r with state := .called, due := false, timer := s.escalationTime r.cause }
  | .called => some { r with due := false }
  | .acknowledged => some { r with due := false }
  | .clearing => none

/-- The alert table's side of a CALL build from slot `i`: the record's change, and its telling where
the state changed or the slot was freed (R140, R141). -/
def State.buildCall (s : State) (i : Fin 16) (r : Record) : State :=
  let s1 := s.withSlot i (s.recordAfterCall r)
  match r.state with
  | .raised => s1.tellRecord r.cause r.subject
  | .clearing => s1.tellRecord r.cause r.subject
  | .called => s1
  | .acknowledged => s1

/-! ## The transmitter (R16, R17) -/

/-- A due record may be called: the line is not lost and one is due (R17). -/
def State.callWaiting (s : State) : Bool := !s.mode.lineLost && s.dueSlot.isSome

/-- An own frame is waiting (R17). -/
def State.ownWaiting (s : State) : Bool := !s.ring.insertion.isEmpty || s.callWaiting

/-- The choice an own frame's turn makes: a CALL before the head of the insertion queue (R17). -/
def State.takeOwn (s : State) : State :=
  if s.callWaiting then
    match s.dueSlot with
    | some i => match s.slotAt i with
      | some r =>
        { s with
          ring.sending := some (s.ownFrame 0x13 (callPayload i r)), ring.relayCount := 0 }.buildCall
            i r
      | none => s
    | none => s
  else match s.ring.insertion with
    | f :: rest =>
      { s with ring.sending := some f, ring.insertion := rest, ring.relayCount := 0 }
    | [] => s

/-- The choice of a free transmitter (R17). -/
def State.choose (s : State) : State :=
  match s.ring.relay with
  | f :: rest =>
    if s.ownWaiting = false ∨ s.ring.relayCount < Config.relayCountMax then
      { s with
        ring.sending := some f, ring.relay := rest
        ring.relayCount := satInc Config.relayCountMax s.ring.relayCount }
    else s.takeOwn
  | [] => if s.ownWaiting then s.takeOwn else s

/-- An idle transmitter chooses at once, unless BYPASS is asserted (R16). -/
def State.pump (s : State) : State :=
  if s.ring.bypass = false ∧ s.ring.sending = none then s.choose else s

/-- A frame offered to the relay buffer (R8). -/
def State.offerRelay (s : State) (f : Frame) : State :=
  if s.ring.relay.length < Config.relayCapacity then
    { s with ring.relay := s.ring.relay ++ [f] }.pump
  else s.countRelayDrop

/-- A TAP or DONE offered to the insertion queue (R14). -/
def State.offerOwn (s : State) (f : Frame) : State :=
  if s.ring.bypass = false ∧ s.ring.insertion.length < Config.insertionCapacity then
    { s with ring.insertion := s.ring.insertion ++ [f] }.pump
  else s.countInsertionDrop

/-- A frame that waits joins the insertion queue: the ANSWER of the request slot frees the slot (R14,
R166, R177). -/
def State.joinWaiting (s : State) (w : WaitingFrame) : State :=
  match w with
  | .slotAnswer => match s.mgmt.slot with
    | .answering f =>
      { s with ring.insertion := s.ring.insertion ++ [f], mgmt.slot := .empty }.pump
    | _ => s
  | .saveAnswer f => { s with ring.insertion := s.ring.insertion ++ [f] }.pump
  | .ready f => { s with ring.insertion := s.ring.insertion ++ [f] }.pump

/-- An ANSWER or READY offered: it joins when the queue has room and no frame waits before it, and
otherwise waits (R14, R177), however many wait: a second SAVE ANSWER built while one waits joins them too (DESIGN
CHOICE, log entry 12). -/
def State.offerWaiting (s : State) (w : WaitingFrame) : State :=
  if s.ring.bypass = false ∧ s.mgmt.waiting = []
      ∧ s.ring.insertion.length < Config.insertionCapacity then
    s.joinWaiting w
  else { s with mgmt.waiting := s.mgmt.waiting ++ [w] }

/-! ## Raising (R135 to R138, R149) -/

/-- A new record (R135), with the condition of a momentary cause already ended (R138). -/
def State.newRecord (s : State) (c : Cause) (subject : Nat) (l : Level) : Record :=
  { cause := c, subject := subject, level := l, state := .raised, condition := !c.momentary
    due := true, repeats := 0, escalations := 0, raisedAt := s.mode.clock, timer := none }

/-- A record after a further raise of its matter (R136); `lift` is the level a CALL action hands. -/
def Record.raisedAgain (r : Record) (lift : Option Level) : Record :=
  let l := match lift with
    | some x => levelMax r.level x
    | none => r.level
  let one := { r with
    level := l, repeats := inc8 r.repeats, condition := !r.cause.momentary, due := true }
  match r.state with
  | .raised => one
  | .called => one
  | .acknowledged => { one with state := .raised, timer := none }
  | .clearing => { one with state := .raised, timer := none }

/-- A latched raise fills an empty snapshot (R149). -/
def State.fillSnapshot (s : State) (c : Cause) (subject : Nat) (slot : Option (Fin 16))
    (info : Option ChanInfo) : State :=
  if c.latched = true ∧ s.alert.snapshot = none then
    { s with alert.snapshot := some ⟨c, subject, s.mode.clock, slot, info⟩ }
  else s

/-- A raise: the record is created or renewed, or the overflow flag set; the snapshot; the telling;
and the transmitter, which may now find a due record (R135 to R137, R140, R149, R16). `lvl` is the
level handed with a CUED-CALL. -/
def State.raiseWith (s : State) (c : Cause) (subject : Nat) (lvl : Option Level)
    (info : Option ChanInfo) : State :=
  match s.findRecord c subject with
  | some i => match s.slotAt i with
    | some r =>
      let s1 := (s.withSlot i (some (r.raisedAgain lvl))).fillSnapshot c subject (some i) info
      (if r.unseen then s1.beaconUpdate else s1.tellRecord c subject).pump
    | none => s
  | none => match s.emptySlot with
    | some i =>
      let l := match lvl with
        | some x => x
        | none => (s.causeSettings c).level
      let s1 := (s.withSlot i (some (s.newRecord c subject l))).fillSnapshot c subject (some i) info
      (s1.tellRecord c subject).pump
    | none =>
      ({ s with alert.overflow := true }.fillSnapshot c subject none info).beaconUpdate

/-- A raise without handed level or channel data. -/
def State.raise (s : State) (c : Cause) (subject : Nat) : State := s.raiseWith c subject none none

/-! ## Condition ends and acknowledgement (R139, R143) -/

/-- A record that enters CLEARING: kept, or freed at once while BYPASS is asserted (R139). -/
def State.clearingRecord (s : State) (r : Record) : Option Record :=
  if s.ring.bypass then none else some r

/-- The end of the condition of a matter (R138, R139). -/
def State.conditionEnd (s : State) (c : Cause) (subject : Nat) : State :=
  match s.findRecord c subject with
  | none => s
  | some i => match s.slotAt i with
    | none => s
    | some r =>
      let clear := s.clearingRecord
        { r with condition := false, state := .clearing, timer := none, due := true }
      let ended := ((s.withSlot i clear).tellRecord c subject).pump
      match r.state with
      | .clearing => s
      | .acknowledged => ended
      | .raised =>
        if c.latched then s.withSlot i (some { r with condition := false }) else ended
      | .called =>
        if c.latched then s.withSlot i (some { r with condition := false }) else ended

/-- A record after an acknowledgement; none when it is freed at once (R139, R143). -/
def State.acknowledged (s : State) (r : Record) : Option Record :=
  if r.unseen then
    if r.condition then some { r with state := .acknowledged, timer := none, due := true }
    else s.clearingRecord { r with state := .clearing, timer := none, due := true }
  else some r

/-- Acknowledging the records of the listed slots in one event, then telling of each changed one
(R143 to R145). -/
def State.acknowledge (s : State) (slots : List (Fin 16)) : State :=
  let hit := slots.filterMap fun i => match s.slotAt i with
    | some r => if r.unseen then some (i, r) else none
    | none => none
  let s1 := hit.foldl (fun a e => a.withSlot e.1 (s.acknowledged e.2)) s
  (hit.foldl (fun a e => a.tellRecord e.2.cause e.2.subject) s1).pump

/-- Clearing the overflow flag (R146). -/
def State.clearOverflow (s : State) : State := { s with alert.overflow := false }.beaconUpdate

/-- A key closure: every waiting record is acknowledged and the overflow flag cleared (R144). -/
def State.keyClosed (s : State) : State :=
  (s.acknowledge sixteen).clearOverflow

/-! ## Commands -/

/-- TRANSMITTER_FREE: the frame in transmission has been sent; the transmitter chooses, or becomes
idle (R16, R17). Without a frame in transmission, or with BYPASS asserted, nothing ends. -/
def execTransmitterFree (s : State) : Host.Outcome State Fault Refusal :=
  .next (if s.ring.bypass = false ∧ s.ring.sending.isSome = true then
    { s with ring.sending := none }.choose else s)

/-- WAITING_FRAME_JOIN: the first frame built of those that wait joins when there is room (R177). -/
def execWaitingFrameJoin (s : State) : Host.Outcome State Fault Refusal :=
  .next (match s.mgmt.waiting with
    | w :: rest =>
      if s.ring.bypass = false ∧ s.ring.insertion.length < Config.insertionCapacity then
        { s with mgmt.waiting := rest }.joinWaiting w
      else s
    | [] => s)

/-- The record of a slot after its escalation timer expires (R142). -/
def State.escalate (s : State) (r : Record) : Record :=
  { r with
    level := levelUp r.level, escalations := inc8 r.escalations, due := true
    timer := s.escalationTime r.cause }

/-- ESCALATION_EXPIRY: the record's level rises, the count increases, report-due is set and the timer
starts again (R142). A timer that is stopped, or has time left, has no expiry. -/
def execEscalationExpiry (i : Fin 16) (s : State) : Host.Outcome State Fault Refusal :=
  .next (match s.slotAt i with
    | some r =>
      if r.state = .called ∧ r.timer = some 0 then
        ((s.withSlot i (some (s.escalate r))).beaconUpdate).pump
      else s
    | none => s)

/-- KEY_CLOSURE: the attendant key is debounced closed (R144). The key must be sampled and its level
OPEN. -/
def execKeyClosure (s : State) : Host.Outcome State Fault Refusal :=
  .next (if s.sampling = true ∧ s.alert.key.primed = true ∧ s.alert.key.closed = false then
    { s with alert.key.closed := true, alert.key.pin := true, alert.key.count := 0 }.keyClosed
    else s)

/-- One sample of the attendant key (R144): the first sample after a reset is its level. -/
def State.sampleKey (s : State) (closed : Bool) : State :=
  let k := s.alert.key
  if k.primed = false then
    { s with alert.key := { pin := closed, primed := true, closed := closed, count := 0 } }
  else if closed = k.closed then { s with alert.key := { k with pin := closed, count := 0 } }
  else if k.count + 1 < Config.keyDebounce then
    { s with alert.key := { k with pin := closed, count := k.count + 1 } }
  else
    let s1 := { s with alert.key := { k with pin := closed, closed := closed, count := 0 } }
    if closed then s1.keyClosed else s1

/-- The end of an on or off part of the BEACON pattern (R148); the URGENT level and an unlit beacon
have no parts. -/
def State.beaconPhase (s : State) : State :=
  match s.alert.beacon with
  | some .notice => { s with alert.beaconOn := !s.alert.beaconOn, alert.beaconCtr := 0 }
  | some .attend => { s with alert.beaconOn := !s.alert.beaconOn, alert.beaconCtr := 0 }
  | some .urgent => s
  | none => s

/-- The end of an on or off part of the SOUNDER pattern, which only URGENT has (R148). -/
def State.sounderPhase (s : State) : State :=
  match s.alert.beacon with
  | some .urgent => { s with alert.sounderOn := !s.alert.sounderOn, alert.sounderCtr := 0 }
  | some .attend => s
  | some .notice => s
  | none => s

/-- BEACON_PATTERN_PHASE: the output switches at the end of a part of its pattern (R148). -/
def execBeaconPatternPhase (output : AlertOutput) (s : State) :
    Host.Outcome State Fault Refusal :=
  .next (match output with
    | .beacon => s.beaconPhase
    | .sounder => s.sounderPhase)

/-- The length in ms of the part of its pattern an output is in; none for a steady output (R148). -/
def State.beaconPart (s : State) : Option Nat :=
  match s.alert.beacon with
  | some .notice => some (if s.alert.beaconOn then 100 else 1900)
  | some .attend => some 250
  | some .urgent => none
  | none => none

/-- The length in ms of the part of the SOUNDER pattern it is in (R148). -/
def State.sounderPart (s : State) : Option Nat :=
  match s.alert.beacon with
  | some .urgent => some (if s.alert.sounderOn then 1000 else 9000)
  | _ => none

end Sys2Proof.Machine
end

