-- ==== Sys2Proof/Machine/Arbiter.lean ====
section
/-! DEFINITION. Table memory's arbiter, reads and writes (R154 to R158, R163), the settings path and its
owed re-reads (R154, R160), and the scrubber's two commands (R161, R162). A requester waits exactly
while it has a word to read or write, so its waiting request is computed, not stored. -/
namespace Sys2Proof.Machine

/-! ## What each requester waits for (R154) -/

/-- The first word of an owed fetch. -/
def FetchItem.base : FetchItem → Nat
  | .directory p => 528 + 2 * p.val
  | .segment _ b => b

/-- The words of an owed fetch: two of a directory entry, three of a segment (R115). -/
def FetchItem.len : FetchItem → Nat
  | .directory _ => 2
  | .segment _ _ => 3

/-- The prefetch's next word. -/
def State.prefetchNeed (s : State) : Option (AccessOp × Nat) :=
  match s.motion.owed with
  | f :: _ => some (.prefetch, f.item.base + s.motion.fetchWords.length)
  | [] => none

/-- The first table word of a save's program unit, and the number of its words (R175). -/
def unitFirst (u : Nat) : Nat := if u = 0 then 0 else 56 + 64 * (u - 1)

/-- The words of a program unit (R175). -/
def unitWords (u : Nat) : Nat := if u = 0 then 56 else if u < 33 then 64 else 24

/-- The next read of a save (R175). -/
def State.saveNeed (s : State) : Option (AccessOp × Nat) :=
  match s.mgmt.save with
  | some p => match p.step with
    | .program u =>
      if p.buffer.length < unitWords u then some (.saveRead, unitFirst u + p.buffer.length)
      else none
    | .verify w => some (.verifyRead, w)
    | .erase _ => none
    | .header => none
  | none => none

/-- The management unit's next access: a PEEK or PUT in the request slot goes before a save's next
read (R175). A save's read that already waits at the arbiter when the PEEK enters the slot is replaced there by
the PEEK's first word, which keeps its pass-over count (DESIGN CHOICE, log entry 33). -/
def State.managementNeed (s : State) : Option (AccessOp × Nat) :=
  match s.mgmt.slot with
  | .working (.peek t first count got) =>
    if got.length < count then some (.peekRead, regionFirst t + first + got.length)
    else s.saveNeed
  | .working (.put t first words _ written) => match words[written]? with
    | some w => some (.putWrite w, regionFirst t + first + written)
    | none => s.saveNeed
  | .empty => s.saveNeed
  | .answering _ => s.saveNeed

/-- The cue engine's next word (R42, R43). -/
def State.cueNeed (s : State) : Option (AccessOp × Nat) :=
  match s.cue.dispatch with
  | .scanning _ i ws => some (.cueRead, 144 + 6 * i + ws.length)
  | .performing _ _ _ _ => none
  | .idle => none

/-- The first word of a settings job. -/
def Job.base (j : Job) : Nat :=
  match j.block with
  | .button => 80 + 4 * j.entry
  | .motion => 32 + 8 * j.entry
  | .effect => if j.entry = 8 then 2 else 64 + 2 * j.entry
  | .alert => 16 + j.entry
  | .mode => 3

/-- The words of a settings job (R154). -/
def Job.len (j : Job) : Nat :=
  match j.block with
  | .button => 4
  | .motion => 8
  | .effect => if j.entry = 8 then 1 else 2
  | .alert => 1
  | .mode => 1

/-- The settings path's next word (R154). -/
def State.settingsNeed (s : State) : Option (AccessOp × Nat) :=
  match s.mem.path with
  | a :: _ => some (.settings a.job.block, a.job.base + a.got.length)
  | [] => none

/-- The scrubber's waiting request (R161). It names the word at the pointer as it stands at the grant, so a
request made while a scrub access is in progress names the word after that one (DESIGN CHOICE, log entry
33). -/
def State.scrubNeed (s : State) : Option (AccessOp × Nat) :=
  if s.mem.scrubWaiting then some (.scrub, s.mem.scrubPtr) else none

/-- What the requester of each rank waits for (R154). -/
def State.need (s : State) (r : Fin 5) : Option (AccessOp × Nat) :=
  match r with
  | 0 => s.prefetchNeed
  | 1 => s.managementNeed
  | 2 => s.cueNeed
  | 3 => s.settingsNeed
  | 4 => s.scrubNeed

/-! ## Granting (R155) -/

/-- The ranks in order. -/
def ranks : List (Fin 5) := [0, 1, 2, 3, 4]

/-- The requester of a rank waits. -/
def State.waits (s : State) (r : Fin 5) : Bool := (s.need r).isSome

/-- The requester granted next: the highest rank among those passed over 16 times, else the highest
rank that waits (R155). -/
def State.chosenRank (s : State) : Option (Fin 5) :=
  match ranks.find? (fun r => s.waits r && s.mem.passOver[r] == Config.passOverMax) with
  | some r => some r
  | none => ranks.find? s.waits

/-- The pass-over counts after a grant to rank `r` (R155). -/
def State.passOverAfter (s : State) (r : Fin 5) : Vector Nat 5 :=
  Vector.ofFn fun i =>
    if i = r then 0
    else if s.waits i then satInc Config.passOverMax s.mem.passOver[i] else 0

/-- The arbiter grants nothing until the load has ended (R154). -/
def State.arbiterOpen (s : State) : Bool :=
  decide (s.mgmt.image ≠ .empty) && decide (s.mgmt.image ≠ .loading)

/-- Granting an access to rank `r`: a scrub request ceases to wait (R155, R161). -/
def State.grant (s : State) (r : Fin 5) : State :=
  match s.need r with
  | some (op, i) =>
    { s with
      mem.access := some ⟨op, i, false⟩, mem.passOver := s.passOverAfter r
      mem.scrubWaiting := s.mem.scrubWaiting && decide (r ≠ 4) }
  | none => s

/-- When the memory is free and a request waits, one access is granted at once (R155). -/
def State.arbitrate (s : State) : State :=
  if s.mem.access = none ∧ s.arbiterOpen = true then
    match s.chosenRank with
    | some r => s.grant r
    | none => s
  else s

/-- The end of an access: the memory is free and the arbiter chooses again (R155). -/
def State.endAccess (s : State) : State := { s with mem.access := none }.arbitrate

/-! ## Reading (R157, R158, R163) -/

/-- The effect of a read's class on the counts and the log (R158, R163). -/
def State.countRead (s : State) (i : Nat) (k : Codeword) (who : Requester) : State :=
  match (classify k).1 with
  | .clean => s
  | .corrected =>
    { s with
      mem.corrected := inc16 s.mem.corrected
      mem.log := s.mem.log <|> some ⟨i, .corrected, syndromeOf k, who⟩ }
  | .uncorrectable =>
    { s with
      mem.uncorrectable := inc16 s.mem.uncorrectable
      mem.log := s.mem.log <|> some ⟨i, .uncorrectable, syndromeOf k, who⟩ }

/-- The word a read of index `i` delivers (R157). -/
def State.wordAt (s : State) (i : Nat) : Delivered :=
  let k := Memory.read s.mem.words i
  ⟨(classify k).2, decide ((classify k).1 = .uncorrectable)⟩

/-- Reading index `i` for a requester: the counts and the log change as R158 gives. -/
def State.readFor (s : State) (i : Nat) (who : Requester) : State :=
  s.countRead i (Memory.read s.mem.words i) who

/-- Storing a word with fresh check bits (R157, R160). -/
def State.writeWord (s : State) (i : Nat) (w : Word) : State :=
  { s with mem.words := Memory.write s.mem.words i (encodeWord w) }

/-- The end of an access of kind `op`: none is in progress, or another kind, and nothing happens;
else the read is counted and logged, and, unless a RESTART reached the requester after the grant
(R165), `take` gives the delivered word to it; then the arbiter chooses again. -/
def State.deliver (s : State) (op : AccessOp) (who : Requester)
    (take : Delivered → State → State) : State :=
  match s.mem.access with
  | some a =>
    if a.op = op then
      let s1 := s.readFor a.index who
      (if a.stale then s1 else take (s.wordAt a.index) s1).endAccess
    else s
  | none => s

/-! ## Settings path (R154, R160) -/

/-- The blocks in the order in which requests of one moment are taken (R154). -/
def blocks : List Block := [.button, .motion, .effect, .alert, .mode]

/-- A block without a request on the path asks for the first entry it owes (R154). -/
def State.askFor (s : State) (b : Block) : State :=
  if s.mem.path.any (fun a => decide (a.job.block = b)) then s
  else match s.mem.owed.find? (fun j => decide (j.block = b)) with
    | some j =>
      { s with mem.path := s.mem.path ++ [⟨j, []⟩], mem.owed := s.mem.owed.erase j }
    | none => s

/-- Every block asks, in the order of R154. -/
def State.ask (s : State) : State := blocks.foldl State.askFor s

/-- A write notice for an entry: the block owes it one re-read; a re-read in progress begins again
from the entry's first word (R160). A block reads the entries it owes in the order owed, one owed by a notice
after the reads of the load still owed; a request of the entry that waits at the arbiter names its first word from
then on and keeps its pass-over count (DESIGN CHOICE, log entry 33). -/
def State.notice (s : State) (j : Job) : State :=
  if s.mem.path.any (fun a => decide (a.job = j)) then
    { s with mem.path := s.mem.path.map fun a => if a.job = j then ⟨j, []⟩ else a }
  else if s.mem.owed.contains j then s
  else { s with mem.owed := s.mem.owed ++ [j] }.ask

/-- One word more of the entry at the head of the path. -/
def State.pathWord (s : State) (d : Delivered) : State :=
  match s.mem.path with
  | a :: rest => { s with mem.path := ⟨a.job, a.got ++ [d]⟩ :: rest }
  | [] => s

/-- The entry at the head of the path, once all its words are delivered. -/
def State.pathDone (s : State) : Option Ask :=
  match s.mem.path with
  | a :: _ => if a.got.length < a.job.len then none else some a
  | [] => none

/-- The head of the path is done: its block asks for the next entry it owes (R154). -/
def State.pathNext (s : State) : State := { s with mem.path := s.mem.path.tail }.ask

/-- A settings word delivered to a block: `finish` takes the complete entry (R58, R78, R123, R134). -/
def State.settingsWord (s : State) (d : Delivered) (finish : Ask → State → State) : State :=
  let s1 := s.pathWord d
  match s1.pathDone with
  | some a => finish a s1.pathNext
  | none => s1

/-! ## The scrubber (R161, R162) -/

/-- SCRUB_TIMER_EXPIRY: the timer runs on for an interval, and the scrubber requests an access unless
a request of it still waits (R161). A timer that is stopped, or has time left (a RESTART starts it afresh, R164), has
no expiry. -/
def execScrubTimerExpiry (s : State) : Host.Outcome State Fault Refusal :=
  .next (if s.mem.scrubTimer = some 0 then
    { s with
      mem.scrubTimer := some s.mem.scrubInterval, mem.scrubWaiting := true }.arbitrate
    else s)

/-- The pointer after a scrub access; after word 2127 a pass is counted (R161). -/
def State.scrubAdvance (s : State) : State :=
  if s.mem.scrubPtr + 1 < Config.wordCount then
    { s with mem.scrubPtr := s.mem.scrubPtr + 1 }
  else { s with mem.scrubPtr := 0, mem.passes := inc16 s.mem.passes }

/-- What a scrub access does with its word: a corrected word is rewritten, an uncorrectable one raises
TABLE-DAMAGE for its region (R162). -/
def State.scrubWord (s : State) (i : Nat) : State :=
  let k := Memory.read s.mem.words i
  match (classify k).1 with
  | .clean => s
  | .corrected => s.writeWord i (classify k).2
  | .uncorrectable => s.raise .tableDamage (regionOf i)

/-- SCRUB_ACCESS: the granted scrub access ends (R162). After a RESTART that fell during it, the
pointer stays at 0 (R164), and an access to word 2127 counts no pass: R165 does not say whether the advance of R161 is
among the effects that stand (DESIGN CHOICE, log entry 21). -/
def execScrubAccess (s : State) : Host.Outcome State Fault Refusal :=
  .next (match s.mem.access with
    | some a =>
      if a.op = .scrub then
        let s1 := (s.readFor a.index .scrubber).scrubWord a.index
        (if a.stale then s1 else s1.scrubAdvance).endAccess
      else s
    | none => s)

end Sys2Proof.Machine
end

