-- ==== Sys2Proof/Machine/Cue.lean ====
section
/-! DEFINITION. The cue engine (chapter 3): the trigger queue, the scan, and the commands CUE_READ and
CALL. The other actions are commands of the blocks that take them; each moves the dispatch on by
`handOn`. -/
namespace Sys2Proof.Machine

/-! ## Trigger queue (R38, R39) -/

/-- The idle engine takes the head of the queue: in HELD every record is discarded, else a scan begins
(R39). -/
def State.takeTrigger (s : State) : State :=
  match s.cue.dispatch with
  | .idle => match s.cue.queue with
    | [] => s
    | t :: rest =>
      if s.mode.mode = .held then { s with cue.queue := [] }
      else { s with cue.queue := rest, cue.dispatch := .scanning t 0 [] }.arbitrate
  | .scanning _ _ _ => s
  | .performing _ _ _ _ => s

/-- A trigger offered to the queue (R38). -/
def State.offerTrigger (s : State) (t : Trigger) : State :=
  if s.cue.queue.length < Config.triggerCapacity then
    { s with cue.queue := s.cue.queue ++ [t] }.takeTrigger
  else s.countTriggerDrop

/-! ## The scan (R42 to R46) -/

/-- The scan moves past entry `i`; after entry 63 it ends and the next trigger is taken (R44). -/
def State.nextEntry (s : State) (t : Trigger) (i : Nat) : State :=
  if i + 1 < Config.cueEntries then { s with cue.dispatch := .scanning t (i + 1) [] }
  else { s with cue.dispatch := .idle }.takeTrigger

/-- A matching entry is live (R41). -/
def State.live (s : State) (k : Condition) : Bool :=
  k.enabled && modeInSet s.mode.mode k.modeSet &&
    match k.requireIdle with
    | none => true
    | some c => decide ((s.chan c).state = .idle)

/-- An entry is damaged: TABLE-DAMAGE is raised for region 5 and the entry is skipped (R46). -/
def State.entryDamaged (s : State) (t : Trigger) (i : Nat) : State :=
  (s.raise .tableDamage 5).nextEntry t i

/-- Both condition words of entry `i` are in hand (R42). -/
def State.judgeEntry (s : State) (t : Trigger) (i : Nat) (ws : List Delivered) : State :=
  match conditionOfWords ws with
  | none => s.entryDamaged t i
  | some k =>
    if k.enabled = true ∧ matchesTrigger k t = true ∧ s.live k = true then
      { s with cue.dispatch := .scanning t i ws }
    else s.nextEntry t i

/-- The number of action words entry `i` uses, from its condition words. -/
def actionCount (ws : List Delivered) : Nat :=
  match conditionOfWords ws with
  | some k => k.count
  | none => 0

/-- The action words of a firing entry are in hand (R43). -/
def State.judgeActions (s : State) (t : Trigger) (i : Nat) (ws : List Delivered) : State :=
  match actionsOfWords (ws.drop 2) with
  | none => s.entryDamaged t i
  | some acts => { s with cue.dispatch := .performing t i acts 0 }

/-- A word delivered to the scan (R42, R43). -/
def State.cueWord (s : State) (d : Delivered) : State :=
  match s.cue.dispatch with
  | .scanning t i got =>
    let ws := got ++ [d]
    if ws.length < 2 then { s with cue.dispatch := .scanning t i ws }
    else if ws.length = 2 then s.judgeEntry t i ws
    else if ws.length < 2 + actionCount ws then { s with cue.dispatch := .scanning t i ws }
    else s.judgeActions t i ws
  | .idle => s
  | .performing _ _ _ _ => s

/-- CUE_READ: a cue table word has been delivered (R42). -/
def execCueRead (s : State) : Host.Outcome State Fault Refusal :=
  .next (s.deliver .cueRead .cue (fun d a => a.cueWord d))

/-- The action the engine hands on next, if it performs (R43). -/
def State.nextAction (s : State) : Option Action :=
  match s.cue.dispatch with
  | .performing _ _ acts n => acts[n]?
  | .idle => none
  | .scanning _ _ _ => none

/-- A block has taken an action: where it is the one the engine hands on next, the engine goes on to
the following action or entry (R43, R44). -/
def State.handOn (s : State) (a : Action) : State :=
  match s.cue.dispatch with
  | .performing t i acts n =>
    if acts[n]? = some a then
      (if n + 1 < acts.length then { s with cue.dispatch := .performing t i acts (n + 1) }
      else s.nextEntry t i).arbitrate
    else s
  | .idle => s
  | .scanning _ _ _ => s

/-- The action is the one that was being handed on when a reset abandoned its dispatch, or a PUT its entry's
reading, and no present dispatch hands it on (R47, R57). -/
def State.recalls (s : State) (a : Action) : Bool :=
  s.cue.recalled == some a && s.nextAction != some a

/-- The action that a reset or a PUT recalls: the one being handed on, or one recalled before whose command
has not come (R47, R57). -/
def State.recalledBy (s : State) : Option Action :=
  match s.nextAction with
  | some a => some a
  | none => s.cue.recalled

/-- An action comes to its block: performed by `f`, the engine then going on; or, where a reset or a PUT came
first and recalled it, not performed (R47, R57). -/
def State.takeAction (s : State) (a : Action) (f : State → State) : State :=
  if s.recalls a then { s with cue.recalled := none } else (f s).handOn a

/-- A PUT wrote a word of entry `e`: an entry that has begun and handed nothing on is read again from
its first condition word, and an action of it that was being handed on is recalled, so that the entry is
acted on wholly as it stands after the PUT (R47; the recall's form is log entry 10). A request of the entry
that waits at the arbiter names its first word from then on and keeps its pass-over count (DESIGN CHOICE, log
entry 33). -/
def State.entryWritten (s : State) (e : Nat) : State :=
  match s.cue.dispatch with
  | .scanning t i _ => if i = e then { s with cue.dispatch := .scanning t i [] } else s
  | .performing t i _ n =>
    if i = e ∧ n = 0 then
      { s with cue.dispatch := .scanning t i [], cue.recalled := s.recalledBy }
    else s
  | .idle => s

/-- CALL: a CUED-CALL alert with the action's code as subject and its level in place of the start
level (R54). -/
def execCall (code : Fin 16) (level : Level) (s : State) : Host.Outcome State Fault Refusal :=
  .next (s.takeAction (.call code level) fun a => a.raiseWith .cuedCall code.val (some level) none)

end Sys2Proof.Machine
end

