-- ==== Sys2Proof/Machine/Motion.lean ====
section
/-! DEFINITION. The motion unit's operations (chapter 5) and the step generator's (chapter 6): owed
fetches, segments becoming current, profiles beginning and ending, stops, halts, faults, homing, and
the stages of a tick. -/
namespace Sys2Proof.Machine

/-! ## Owed fetches and buffers (R115, R116) -/

/-- Cancelling the owed fetches of channel `c` that `keep` does not keep: the head fetch, whose words
are being requested, is marked and ends at the next word boundary; the others go (R115, R116). -/
def cancelFetches (keep : Fetch → Bool) (fs : List Fetch) : List Fetch :=
  match fs with
  | [] => []
  | f :: rest => (if keep f then f else { f with cancelled := true }) :: rest.filter keep

/-- Every owed fetch of channel `c` is cancelled (R116). -/
def State.cancelOwed (s : State) (c : Fin 4) : State :=
  { s with motion.owed := cancelFetches (fun f => decide (f.chan ≠ c)) s.motion.owed }

/-- Owing a fetch, unless it is the prefetch's already (R115). -/
def State.owe (s : State) (f : Fetch) : State := { s with motion.owed := s.motion.owed ++ [f] }

/-- A segment at place `ord` of channel `c`'s running order is owed already. -/
def State.owesSegment (s : State) (c : Fin 4) (ord : Nat) : Bool :=
  s.motion.owed.any fun f =>
    decide (f.chan = c) && !f.cancelled &&
      match f.item with
      | .segment o _ => o == ord
      | .directory _ => false

/-- The fetch of the segment at place `ord` of a known directory entry. -/
def segmentFetch (c : Fin 4) (d : Directory) (ord : Nat) : Fetch :=
  ⟨c, .segment ord (592 + 3 * d.segmentAt ord), false⟩

/-- The segment at place `ord` is owed, unless it is buffered or owed or the running order does not
reach it (R115). -/
def State.oweSegment (s : State) (c : Fin 4) (ord : Nat) : State :=
  match (s.chan c).dir with
  | some d =>
    if (s.chan c).orderReaches d ord = true ∧ s.owesSegment c ord = false
        ∧ ((s.chan c).buffer.any fun b => b.ord == ord) = false then
      s.owe (segmentFetch c d ord)
    else s
  | none => s

/-! ## Segments becoming current (R90, R91, R109) -/

/-- The signed distance of a segment, and whether a LINEAR target was changed by clamping (R90, R91).
A ROTARY distance is signed by its direction. -/
def segmentDistance (rotary : Bool) (travel position : Nat) (g : Segment) : Int × Bool :=
  let p : Int := position
  if rotary then
    match g.kind with
    | .goto => ((g.target - p) % (travel : Int), false)
    | .byDistance => (g.target, false)
    | .dwell => (0, false)
  else
    match g.kind with
    | .goto =>
      let t := clampInt 0 travel g.target
      (t - p, decide (t ≠ g.target))
    | .byDistance =>
      let t := clampInt 0 travel (p + g.target)
      (t - p, decide (t ≠ p + g.target))
    | .dwell => (0, false)

/-- A channel whose segment `g`, number `n`, becomes current under mode `m` (R108, R109). -/
def Channel.enterSegment (ch : Channel) (m : GalleryMode) (k : ChannelSettings) (n : Nat)
    (g : Segment) : Channel :=
  let d := segmentDistance k.rotary k.travel ch.position g
  let vc := convCruise m k.quietPercent g.cruise
  let vs := min (convSpeed k.startSpeed) vc
  let out := if d.1 = 0 then ch.outward else decide (0 < d.1)
  { ch with
    current := some g, arrived := false, segment := n, rem := d.1.natAbs, outward := out
    dirPin := if d.1 = 0 then ch.dirPin else ch.dirLevel out
    clamped := ch.clamped || d.2, vc := vc, accel := convAccel g.accel, vs := vs, v := vs, phi := 0
    braking := false, dwell := g.dwell }

/-- The awaited segment becomes current if it is in hand; the one two beyond it is then owed (R109,
R115). -/
def State.tryCurrent (s : State) (c : Fin 4) : State :=
  let ch := s.chan c
  match ch.state, ch.current, ch.dir, ch.held, ch.buffer with
  | .moving, none, some d, .copy k, b :: rest =>
    if b.ord = ch.ord then
      ((s.withChan c
          ({ ch with buffer := rest }.enterSegment s.mode.mode k (d.segmentAt b.ord) b.seg)).oweSegment
            c (ch.ord + 2)).arbitrate
    else s
  | _, _, _, _, _ => s

/-! ## Profiles beginning (R89) -/

/-- A channel whose profile `p` begins (R89). The segment number stays at its last value until the first
segment becomes current (DESIGN CHOICE, log entry 32). -/
def Channel.begin (ch : Channel) (p : Fin 32) : Channel :=
  { ch with
    state := .moving, profile := some p, dir := none, pass := 1, ord := 0, current := none
    arrived := false, buffer := [], clamped := false, finalPass := false, ending := none, v := 0
    phi := 0, rem := 0, braking := false, dwell := 0 }

/-- Profile `p` begins on channel `c`: its directory entry and the first three segments of its running
order are owed (R89, R115). -/
def State.beginProfile (s : State) (c : Fin 4) (p : Fin 32) : State :=
  let s1 := s.withChan c ((s.chan c).begin p)
  let more : List Fetch :=
    [⟨c, .directory p, false⟩, ⟨c, .segment 0 0, false⟩, ⟨c, .segment 1 0, false⟩,
     ⟨c, .segment 2 0, false⟩]
  ({ s1 with motion.owed := s1.motion.owed ++ more }.tellChannel c).arbitrate

/-! ## Profiles ending (R92, R93, R95, R100) -/

/-- The payload of a DONE (section 11.2). -/
def donePayload (c : Fin 4) (p : Fin 32) (o : EndOutcome) (clamped : Bool) (position : Nat) :
    List Byte :=
  [BitVec.ofNat 8 c.val, BitVec.ofNat 8 p.val, BitVec.ofNat 8 o.code, if clamped then 1 else 0]
    ++ bytesBE 3 position

/-- Reporting the end of the profile that the record `ch` of channel `c` was running, the channel having
entered its new state: the DONE, if the copy held in that state asks for it, with the position at which the
profile ended (log entry 32); then the LOCAL-DONE trigger; the profile is then absent and the clamped flag
clear (R100). A record without a profile has nothing to report. -/
def State.report (s : State) (c : Fin 4) (ch : Channel) (o : EndOutcome) : State :=
  match ch.profile with
  | none => s
  | some p =>
    let asked := match (s.chan c).held with
      | .copy k => k.reportDone
      | .absent => false
      | .damaged => false
    let s1 := if asked then
        s.offerOwn (s.ownFrame 0x12 (donePayload c p o ch.clamped ch.position))
      else s
    let s2 := s1.offerTrigger (.localDone c o p)
    s2.withChan c { s2.chan c with profile := none, clamped := false }

/-- A channel's step generator at rest, as after any ending (R121). The segment and pass numbers, for which
the views have no absent code, keep their last values (DESIGN CHOICE, log entry 32). -/
def Channel.halt (ch : Channel) : Channel :=
  { ch with
    v := 0, phi := 0, rem := 0, braking := false, dwell := 0, buffer := [], current := none
    arrived := false, dir := none, finalPass := false, ending := none }

/-- Channel `c`, whose record comes to rest as `ch`, becomes IDLE, or passes to MOVING with its pending
start; the profile that ended with `o`, if one did, is reported between (R93, R100). A copy held aside stays aside
where the pending start begins, and that start is tested, and runs, under the old copy: R78 has the copy taken at the
next entry into IDLE, which R92 and R95 name here, while R93 makes the passage to MOVING one change with no IDLE seen
(DESIGN CHOICE, log entry 36). -/
def State.comeToRest (s : State) (c : Fin 4) (ch : Channel) (o : Option EndOutcome) : State :=
  let s0 := s.cancelOwed c
  let rep : State → State := fun a => match o with
    | some x => a.report c ch x
    | none => a
  match ch.slot with
  | some p =>
    if s0.gated c = false ∧ s0.guardsClosed ch.guardMap = true then
      (rep (s0.withChan c { ch with slot := none })).beginProfile c p
    else
      rep (s0.changeChan c { ch with slot := none, state := .idle, refused := inc16 ch.refused })
  | none => rep (s0.changeChan c { ch with state := .idle })

/-- The profile of channel `c` completes (R92). -/
def State.complete (s : State) (c : Fin 4) : State :=
  let ch := s.chan c
  (s.comeToRest c { ch.halt with completed := inc16 ch.completed } (some .completed)).arbitrate

/-- The profile of channel `c` ends at once at a damaged or empty directory entry (R89). -/
def State.failProfile (s : State) (c : Fin 4) : State :=
  (s.comeToRest c (s.chan c).halt (some .faulted)).arbitrate

/-- The stop of channel `c` is complete: IDLE, its ending outcome reported; the pending start is taken
after STOPPED and emptied after FAULTED (R95). -/
def State.stopDone (s : State) (c : Fin 4) : State :=
  let ch := s.chan c
  match ch.ending with
  | some .faulted => (s.comeToRest c { ch.halt with slot := none } (some .faulted)).arbitrate
  | some .stopped => (s.comeToRest c ch.halt (some .stopped)).arbitrate
  | none => (s.comeToRest c ch.halt (some .stopped)).arbitrate

/-! ## Stopping, halting, faults, homing -/

/-- A channel that enters STOPPING: V_s converted afresh, R 0, buffer emptied (R108, R118, R121). -/
def Channel.stopWith (ch : Channel) (e : Ending) : Channel :=
  let vs := match ch.held with
    | .copy k => min (convSpeed k.startSpeed) ch.vc
    | .absent => ch.vs
    | .damaged => ch.vs
  { ch with state := .stopping, ending := some e, rem := 0, vs := vs, dwell := 0, buffer := []
            arrived := false }

/-- A MOVING channel enters STOPPING (R95); any other is left. -/
def State.enterStopping (s : State) (c : Fin 4) (e : Ending) : State :=
  match (s.chan c).state with
  | .moving => (s.cancelOwed c).changeChan c ((s.chan c).stopWith e)
  | _ => s

/-- A search for home abandoned: UNHOMED, the slot emptied (R51, R104, R121). -/
def State.abandonSearch (s : State) (c : Fin 4) : State :=
  match (s.chan c).state with
  | .homing => s.changeChan c { (s.chan c).halt with state := .unhomed, slot := none }
  | _ => s

/-- A guard halts channel `c` at once (R83). -/
def State.haltChannel (s : State) (c : Fin 4) : State :=
  let ch := s.chan c
  let lost := ch.positionLost || decide (ch.vs < ch.v) || decide (ch.state = .homing)
  ((s.cancelOwed c).changeChan c
    { ch.halt with state := .halted, positionLost := lost, slot := none, stepPulses := 0 }).report
      c ch .halted

/-- Channel `c` enters FAULT: the state, the raise, the release test, then the report (R96 to R98). -/
def State.faultChannel (s : State) (c : Fin 4) (why : FaultReason) : State :=
  let ch := s.chan c
  let cause : Cause := match why with
    | .driver => .driverFault
    | .limit => .limitHit
  let s1 := (s.cancelOwed c).changeChan c
    { ch.halt with state := .fault, faultReason := some why, slot := none, stepPulses := 0 }
  let s2 := s1.raiseWith cause c.val none (some ⟨.fault, ch.position, ch.v⟩)
  (s2.releaseTest c).report c ch .faulted

/-- A channel that enters HOMING (R86). -/
def Channel.startSearch (ch : Channel) (k : ChannelSettings) : Channel :=
  let out := k.rotary && k.homeOutward
  { ch.halt with
    state := .homing, position := 0, rem := k.searchLimit, vh := convSpeed k.homeSpeed
    v := convSpeed k.homeSpeed, outward := out, dirPin := ch.dirLevel out }

/-- One refusal counted at channel `c` (R48, R52). -/
def State.refuse (s : State) (c : Fin 4) : State :=
  s.withChan c { s.chan c with refused := inc16 (s.chan c).refused }

/-- A HOME for channel `c` (R52). -/
def State.takeHome (s : State) (c : Fin 4) : State :=
  let ch := s.chan c
  if s.homeAllowed = false ∨ s.gated c = true then s.refuse c
  else match ch.held with
    | .copy k =>
      if k.enabled = false then s.refuse c
      else match ch.state with
        | .unhomed =>
          if s.guardsClosed k.guardMap then s.changeChan c (ch.startSearch k) else s.refuse c
        | .idle =>
          if s.guardsClosed k.guardMap then s.changeChan c (ch.startSearch k) else s.refuse c
        | .homing => s
        | .moving => s.refuse c
        | .stopping => s.refuse c
        | .halted => s.refuse c
        | .fault => s.refuse c
        | .resting => s.refuse c
    | .absent => s.refuse c
    | .damaged => s.refuse c

/-- Home is found: IDLE at position 0, or the pending start (R87). -/
def State.foundHome (s : State) (c : Fin 4) : State :=
  (s.comeToRest c { (s.chan c).halt with position := 0, positionLost := false, stepPulses := 0 }
    none).arbitrate

/-- The search is exhausted: UNHOMED, the slot emptied, HOME-FAILED raised (R88, R149). -/
def State.searchFailed (s : State) (c : Fin 4) : State :=
  let ch := s.chan c
  (s.changeChan c { ch.halt with state := .unhomed, slot := none, stepPulses := 0 }).raiseWith
    .homeFailed c.val none (some ⟨.unhomed, ch.position, ch.vh⟩)

/-! ## STARTs (R48, R49) -/

/-- Profile `p` waits in the pending-start slot of channel `c` (R49). -/
def State.toSlot (s : State) (c : Fin 4) (p : Fin 32) : State :=
  s.withChan c { s.chan c with slot := some p }

/-- A START that passed the mode and gating tests meets the channel's state and busy policy (R49). -/
def State.startByState (s : State) (c : Fin 4) (p : Fin 32) (k : ChannelSettings) : State :=
  match (s.chan c).state with
  | .idle => if s.guardsClosed k.guardMap then s.beginProfile c p else s.refuse c
  | .moving => match k.policy with
    | .refuse => s.refuse c
    | .queue => s.toSlot c p
    | .preempt => (s.enterStopping c .stopped).toSlot c p
  | .stopping => match k.policy with
    | .refuse => s.refuse c
    | .queue => s.toSlot c p
    | .preempt => s.toSlot c p
  | .homing => match k.policy with
    | .refuse => s.refuse c
    | .queue => s.toSlot c p
    | .preempt => s.toSlot c p
  | .unhomed => s.refuse c
  | .halted => s.refuse c
  | .fault => s.refuse c
  | .resting => s.refuse c

/-- A START for channel `c` and profile `p` (R48). -/
def State.takeStart (s : State) (c : Fin 4) (p : Fin 32) : State :=
  if s.startAllowed = false ∨ s.gated c = true then s.refuse c
  else match (s.chan c).held with
    | .copy k => if k.enabled = false then s.refuse c else s.startByState c p k
    | .absent => s.refuse c
    | .damaged => s.refuse c

/-- A STOP for channel `c` (R51). -/
def State.takeStop (s : State) (c : Fin 4) : State :=
  (s.enterStopping c .stopped).abandonSearch c

/-! ## The stages of a tick (R111 to R120) -/

/-- The stopping distance of R112; log entry 4 for D = 0. -/
def stopDistance (v d : Nat) : Nat :=
  if d = 0 then Config.stopDistanceZero v else v * v / (131072 * d)

/-- Stages 2 and 3 of a MOVING tick: the new velocity and braking flag (R112). -/
def Channel.nextVelocity (ch : Channel) : Nat × Bool :=
  if ch.braking = true ∨ ch.rem ≤ stopDistance ch.v ch.accel then
    (max (ch.v - ch.accel) ch.vs, true)
  else if ch.v < ch.vc then (min (ch.v + ch.accel) ch.vc, false)
  else if ch.vc < ch.v then (max (ch.v - ch.accel) ch.vc, false)
  else (ch.v, false)

/-- The position after `n` steps in the channel's direction (R91, R113). -/
def Channel.moved (ch : Channel) (n : Nat) : Nat :=
  match ch.held with
  | .copy k =>
    if k.rotary then
      (((ch.position : Int) + (if ch.outward then (n : Int) else -n)) % (k.travel : Int)).toNat
    else if ch.outward then ch.position + n else ch.position - n
  | .absent => if ch.outward then ch.position + n else ch.position - n
  | .damaged => if ch.outward then ch.position + n else ch.position - n

/-- Stage 4 limited by R: the steps of the tick and the phase left (R113, R120). -/
def Channel.stepCount (ch : Channel) (v : Nat) : Nat × Nat :=
  let f := ch.phi + v
  if ch.rem < f / 65536 then (ch.rem, 0) else (f / 65536, f % 65536)

/-- A MOVING channel's tick with motion to make (R112, R113). -/
def Channel.moveTick (ch : Channel) : Channel :=
  let nv := ch.nextVelocity
  let n := ch.stepCount nv.1
  { ch with
    v := nv.1, braking := nv.2, phi := n.2, position := ch.moved n.1, rem := ch.rem - n.1
    stepPulses := n.1 }

/-- A HOMING channel's tick: V_h, the position staying 0 (R120). -/
def Channel.searchTick (ch : Channel) : Channel :=
  let n := ch.stepCount ch.vh
  { ch with v := ch.vh, phi := n.2, rem := ch.rem - n.1, stepPulses := n.1 }

/-- The steps a LINEAR stop may still make in its direction; none on a ROTARY channel (R119). -/
def Channel.stopRoom (ch : Channel) : Option Nat :=
  match ch.held with
  | .copy k =>
    if k.rotary then none
    else some (if ch.outward then k.travel - ch.position else ch.position)
  | .absent => none
  | .damaged => none

/-- A STOPPING channel's tick above V_s: the record after it, and whether the travel bound completed
the stop (R118, R119). A tick whose steps reach the bound exactly and do not pass it is cut by nothing and runs on
with its v and φ, by the words of R119; the worked case of section 6.11 completes such a stop in that tick (DESIGN
CHOICE, log entry 35). -/
def Channel.stopTick (ch : Channel) : Channel × Bool :=
  let v := max (ch.v - ch.accel) ch.vs
  let f := ch.phi + v
  let n := f / 65536
  let free : Channel × Bool :=
    ({ ch with v := v, phi := f % 65536, position := ch.moved n, stepPulses := n }, false)
  match ch.stopRoom with
  | some room =>
    if room < n then
      ({ ch with v := 0, phi := 0, position := ch.moved room, stepPulses := room }, true)
    else free
  | none => free

/-! ## The dwell, passes and completion (R111, R114) -/

/-- The segment in hand of channel `c` is finished (R114): completion, a new pass, or the next segment. While
the channel waits for that one, the segment number stays the finished one's (DESIGN CHOICE, log entry 32). -/
def State.segmentDone (s : State) (c : Fin 4) : State :=
  let ch := s.chan c
  match ch.dir with
  | none => s
  | some d =>
    let next := { ch with current := none, arrived := false, ord := ch.ord + 1, v := 0, phi := 0 }
    if (ch.ord + 1) % d.count = 0 then
      if ch.finalPass = true ∨ (d.repeats ≠ 0 ∧ ch.pass = d.repeats) then s.complete c
      else (s.withChan c { next with pass := inc8 ch.pass }).tryCurrent c
    else (s.withChan c next).tryCurrent c

/-- The arrival of channel `c`: its segment's motion is over; with dwell count 0 the segment is
finished (R111). -/
def State.arrive (s : State) (c : Fin 4) : State :=
  let ch := s.chan c
  let s1 := s.withChan c
    { ch with v := 0, phi := 0, braking := false, arrived := true, stepPulses := 0 }
  if ch.dwell = 0 then s1.segmentDone c else s1

/-- A tick of a dwell in progress (R111). -/
def State.dwellTick (s : State) (c : Fin 4) : State :=
  let ch := s.chan c
  let s1 := s.withChan c { ch with dwell := ch.dwell - 1, stepPulses := 0 }
  if ch.dwell ≤ 1 then s1.segmentDone c else s1

/-- The stages of a MOVING tick (R111). -/
def State.movingTick (s : State) (c : Fin 4) : State :=
  let ch := s.chan c
  match ch.current with
  | none => s.withChan c { ch with stepPulses := 0 }
  | some _ =>
    if ch.arrived then s.dwellTick c
    else if 0 < ch.rem then s.withChan c ch.moveTick
    else s.arrive c

/-- The stages of a STOPPING tick (R118, R119). -/
def State.stoppingTick (s : State) (c : Fin 4) : State :=
  let ch := s.chan c
  if ch.v ≤ ch.vs then (s.withChan c { ch with stepPulses := 0 }).stopDone c
  else
    let t := ch.stopTick
    if t.2 then (s.withChan c t.1).stopDone c else s.withChan c t.1

/-- Steps 3 to 5 of a tick of a MOVING or STOPPING channel: FAR, then FAULT, then the stages (R110). -/
def State.drivenTick (s : State) (c : Fin 4) : State :=
  let ch := s.chan c
  if ch.farRead = true ∧ ch.farPin = true then s.faultChannel c .limit
  else if ch.enabled = true ∧ s.energised c = true ∧ ch.faultPin = true then
    s.faultChannel c .driver
  else match ch.state with
    | .moving => s.movingTick c
    | .stopping => s.stoppingTick c
    | _ => s

/-- Steps 2 to 5 of a tick of a HOMING channel (R110). -/
def State.homingTick (s : State) (c : Fin 4) : State :=
  let ch := s.chan c
  if ch.homePin then s.foundHome c
  else if ch.rem = 0 then s.searchFailed c
  else if ch.enabled = true ∧ s.energised c = true ∧ ch.faultPin = true then
    s.faultChannel c .driver
  else s.withChan c ch.searchTick

end Sys2Proof.Machine
end

