-- ==== Sys2Proof/Machine/Channels.lean ====
section
/-! DEFINITION. The commands of the motion unit and the step generator: START, STOP, HOME, the channel
settings and prefetch reads, ticks and their endings, guards, and the FAULT and FAR inputs. -/
namespace Sys2Proof.Machine

/-! ## Actions (R48 to R52) -/

/-- START: channel `c` takes a START for profile `p` (R48, R49). -/
def execStart (c : Fin 4) (p : Fin 32) (s : State) : Host.Outcome State Fault Refusal :=
  .next (s.takeAction (.start c p) fun a => a.takeStart c p)

/-- The channels of a mask take an action in ascending order. -/
def State.forMask (s : State) (mask : BitVec 4) (f : State → Fin 4 → State) : State :=
  four.foldl (fun a c => if mask.getLsbD c.val then f a c else a) s

/-- STOP: the channels of the mask stop (R51). -/
def execStop (mask : BitVec 4) (s : State) : Host.Outcome State Fault Refusal :=
  .next (s.takeAction (.stop mask) fun a => a.forMask mask State.takeStop)

/-- HOME: the channels of the mask home (R52). -/
def execHome (mask : BitVec 4) (s : State) : Host.Outcome State Fault Refusal :=
  .next (s.takeAction (.home mask) fun a => a.forMask mask State.takeHome)

/-! ## Held channel settings (R78) -/

/-- Word `n` of a channel entry reads as damaged (R159). -/
def channelWordDamaged (n : Nat) (d : Delivered) : Bool := (readWord 2 n n false d).isNone

/-- Some word, from number `n` on, reads as damaged. -/
def anyChannelDamage : Nat → List Delivered → Bool
  | _, [] => false
  | n, d :: ds => channelWordDamaged n d || anyChannelDamage (n + 1) ds

/-- The first damaged word of an entry raises TABLE-DAMAGE as it is read (R78). -/
def State.channelWordRaise (s : State) (d : Delivered) : State :=
  match s.mem.path with
  | a :: _ =>
    if channelWordDamaged a.got.length d = true ∧ anyChannelDamage 0 a.got = false then
      s.raise .tableDamage 2
    else s
  | [] => s

/-- A complete entry: the held copy is replaced, or the copy is held aside (R78, R79). -/
def State.channelCopy (s : State) (c : Fin 4) (h : Held ChannelSettings) : State :=
  let ch := s.chan c
  if ch.state.replaceable then
    let now := { ch with aside := none }.replaceHeld h
    if now.state = ch.state then (s.withChan c now).channelLamps c else s.changeChan c now
  else s.withChan c { ch with aside := some h }

/-- CHANNEL_SETTINGS_READ: a channel settings word has been delivered (R78). -/
def execChannelSettingsRead (s : State) : Host.Outcome State Fault Refusal :=
  .next (s.deliver (.settings .motion) .motion fun d a =>
    (a.channelWordRaise d).settingsWord d fun e b =>
      b.channelCopy (Fin.ofNat 4 e.job.entry) (channelOfWords e.got))

/-! ## Prefetch (R89, R99, R115, R116) -/

/-- Word `n` of a fetch reads as damaged (R115, R159). -/
def FetchItem.wordDamaged (f : FetchItem) (n : Nat) (d : Delivered) : Bool :=
  match f with
  | .directory _ => if n = 0 then (readWord 6 0 0 false d).isNone else d.bad
  | .segment _ _ => (readWord 7 n n false d).isNone

/-- The segments channel `c` owes, once its directory entry `d` is known: each finds its words, and
those the running order does not reach go (R115). -/
def resolveFetches (c : Fin 4) (ch : Channel) (d : Directory) (fs : List Fetch) : List Fetch :=
  fs.filterMap fun f =>
    if f.chan = c ∧ f.cancelled = false then
      match f.item with
      | .directory _ => some f
      | .segment o _ => if ch.orderReaches d o then some (segmentFetch c d o) else none
    else some f

/-- The directory entry of channel `c`'s profile has been read (R89). -/
def State.directoryRead (s : State) (c : Fin 4) (d : Directory) : State :=
  if d.count = 0 then s.failProfile c
  else
    let s1 := s.withChan c { s.chan c with dir := some d }
    { s1 with motion.owed := resolveFetches c (s1.chan c) d s1.motion.owed }

/-- A segment of channel `c` has been read: it joins the buffer, and becomes current if awaited
(R109, R115). -/
def State.segmentRead (s : State) (c : Fin 4) (ord : Nat) (g : Segment) : State :=
  (s.withChan c { s.chan c with buffer := (s.chan c).buffer ++ [⟨ord, g⟩] }).tryCurrent c

/-- A fetch of channel `c` is damaged: at a directory entry the profile ends at once (R89); at a segment
TABLE-DAMAGE is raised, the slot emptied, and the channel stops (R99). -/
def State.fetchDamaged (s : State) (c : Fin 4) (f : FetchItem) : State :=
  match f with
  | .directory _ => (s.raise .tableDamage 6).failProfile c
  | .segment _ _ =>
    let s1 := s.raise .tableDamage 7
    (s1.withChan c { s1.chan c with slot := none }).enterStopping c .faulted

/-- The last word of a fetch has been delivered. -/
def State.fetchComplete (s : State) (c : Fin 4) (f : FetchItem) (ws : List Delivered) : State :=
  match f with
  | .directory _ => match directoryOfWords ws with
    | some d => s.directoryRead c d
    | none => s.fetchDamaged c f
  | .segment o _ => match segmentOfWords ws with
    | some g => s.segmentRead c o g
    | none => s.fetchDamaged c f

/-- The head fetch is finished or ended. -/
def State.dropFetch (s : State) : State :=
  { s with motion.owed := s.motion.owed.tail, motion.fetchWords := [] }

/-- A word delivered to the prefetch: a fetch of a channel that has left MOVING is cancelled (R115, R116). -/
def State.prefetchWord (s : State) (d : Delivered) : State :=
  match s.motion.owed with
  | [] => s
  | f :: _ =>
    let ws := s.motion.fetchWords ++ [d]
    if f.cancelled = true ∨ (s.chan f.chan).state ≠ .moving then s.dropFetch
    else if f.item.wordDamaged s.motion.fetchWords.length d then
      (s.fetchDamaged f.chan f.item).dropFetch
    else if ws.length < f.item.len then { s with motion.fetchWords := ws }
    else (s.fetchComplete f.chan f.item ws).dropFetch

/-- PREFETCH_READ: a directory or segment word has been delivered (R115). -/
def execPrefetchRead (s : State) : Host.Outcome State Fault Refusal :=
  .next (s.deliver .prefetch .prefetch fun d a => a.prefetchWord d)

/-- ARRIVAL: a MOVING channel finds R at 0 (R111). -/
def execArrival (c : Fin 4) (s : State) : Host.Outcome State Fault Refusal :=
  let ch := s.chan c
  .next (if ch.state = .moving ∧ ch.current.isSome = true ∧ ch.arrived = false ∧ ch.rem = 0 then
    s.arrive c else s)

/-- DWELL_END: the dwell count of an arrived segment reaches 0, and the segment is finished (R111). -/
def execDwellEnd (c : Fin 4) (s : State) : Host.Outcome State Fault Refusal :=
  let ch := s.chan c
  .next (if ch.state = .moving ∧ ch.current.isSome = true ∧ ch.arrived = true then
    (s.withChan c { ch with dwell := 0, stepPulses := 0 }).segmentDone c else s)

/-- STOP_COMPLETE: a STOPPING channel finds v at or below V_s (R118). -/
def execStopComplete (c : Fin 4) (s : State) : Host.Outcome State Fault Refusal :=
  let ch := s.chan c
  .next (if ch.state = .stopping ∧ ch.v ≤ ch.vs then
    (s.withChan c { ch with stepPulses := 0 }).stopDone c else s)

/-- HOME_FOUND: the home switch of a HOMING channel reads closed (R87). -/
def execHomeFound (c : Fin 4) (s : State) : Host.Outcome State Fault Refusal :=
  let ch := s.chan c
  .next (if ch.state = .homing then
    (s.withChan c { ch with homePin := true }).foundHome c else s)

/-- SEARCH_EXHAUSTED: the home switch of a HOMING channel reads open with R at 0 (R88). -/
def execSearchExhausted (c : Fin 4) (s : State) : Host.Outcome State Fault Refusal :=
  let ch := s.chan c
  .next (if ch.state = .homing ∧ ch.rem = 0 then
    (s.withChan c { ch with homePin := false }).searchFailed c else s)

/-! ## Guards (R81, R82) -/

/-- A guard halts channel `c` if it protects it and the channel is in motion (R82). -/
def State.guardHalt (s : State) (g c : Fin 4) : State :=
  let ch := s.chan c
  if ch.enabled = true ∧ ch.guardMap.getLsbD g.val = true ∧ ch.state.inMotion = true then
    s.haltChannel c
  else s

/-- A guard's opening event (R82). -/
def State.guardOpened (s : State) (g : Fin 4) : State :=
  (four.foldl (fun a c => a.guardHalt g c)
    (s.withGuard g { isOpen := true, count := 0, pin := true })).raise .guardOpen g.val

/-- A guard's closing event (R81). -/
def State.guardClosing (s : State) (g : Fin 4) : State :=
  let s1 := (s.withGuard g { isOpen := false, count := 0, pin := false }).conditionEnd .guardOpen g.val
  (four.filter fun c => (s1.chan c).guardMap.getLsbD g.val).foldl State.releaseTest s1

/-- One sample of a guard (R81). -/
def State.sampleGuard (s : State) (g : Fin 4) (isOpen : Bool) : State :=
  let x := s.guardIn g
  if x.isOpen then
    if isOpen then s.withGuard g { x with count := 0, pin := true }
    else if x.count + 1 < Config.guardCloseSamples then
      s.withGuard g { x with count := x.count + 1, pin := false }
    else s.guardClosing g
  else if isOpen then s.guardOpened g
  else s.withGuard g { x with pin := false }

/-! ## Ticks (R110) -/

/-- Steps 2 to 5 of a tick (R110); a channel in none of the three states of motion has no tick. -/
def State.tickStages (s : State) (c : Fin 4) : State :=
  match (s.chan c).state with
  | .homing => s.homingTick c
  | .moving => s.drivenTick c
  | .stopping => s.drivenTick c
  | .unhomed => s
  | .idle => s
  | .halted => s
  | .fault => s
  | .resting => s

/-- Guard `g` protects channel `c` and stands at its open level while it reads CLOSED. -/
def State.guardStandsOpen (s : State) (c g : Fin 4) : Bool :=
  (s.chan c).guardMap.getLsbD g.val && (s.guardIn g).pin && !(s.guardIn g).isOpen

/-- Step 1 of a tick: a guard of the channel that stands open opens (R110); the samples of a guard that reads
OPEN are counted once a millisecond, by INPUT_SAMPLE. -/
def State.tickGuards (s : State) (c : Fin 4) : State :=
  four.foldl (fun a g => if a.guardStandsOpen c g then a.guardOpened g else a) s

/-- CHANNEL_TICK: the tick of a HOMING, MOVING or STOPPING channel, its inputs as last sampled (R110). -/
def execChannelTick (c : Fin 4) (s : State) : Host.Outcome State Fault Refusal :=
  .next (if (s.chan c).state.inMotion then (s.tickGuards c).tickStages c else s)

/-- GUARD_OPENING: a guard that reads CLOSED is sampled open (R82). -/
def execGuardOpening (g : Fin 4) (s : State) : Host.Outcome State Fault Refusal :=
  .next (if s.sampling = true ∧ (s.guardIn g).isOpen = false then s.guardOpened g else s)

/-- GUARD_CLOSING: a guard that reads OPEN has read closed for 10 ms (R81). -/
def execGuardClosing (g : Fin 4) (s : State) : Host.Outcome State Fault Refusal :=
  .next (if s.sampling = true ∧ (s.guardIn g).isOpen = true then s.guardClosing g else s)

/-! ## FAULT and FAR inputs (R96 to R98, R138) -/

/-- A FAULT sample at the asserted level (R96). -/
def State.faultAsserted (s : State) (c : Fin 4) : State :=
  let s1 := s.withChan c { s.chan c with faultPin := true }
  if (s1.chan c).enabled = true ∧ s1.energised c = true then s1.faultChannel c .driver else s1

/-- A FAULT sample at the clear level: the condition ends and the channel is tested for release (R98,
R138). -/
def State.faultClear (s : State) (c : Fin 4) : State :=
  ((s.withChan c { s.chan c with faultPin := false }).conditionEnd .driverFault c.val).releaseTest c

/-- A FAR sample at the clear level ends the LIMIT-HIT condition (R138). -/
def State.farClear (s : State) (c : Fin 4) : State :=
  (s.withChan c { s.chan c with farPin := false }).conditionEnd .limitHit c.val

/-- DRIVER_FAULT: the FAULT input is sampled asserted (R96). -/
def execDriverFault (c : Fin 4) (s : State) : Host.Outcome State Fault Refusal :=
  .next (if s.sampling then s.faultAsserted c else s)

/-- FAULT_INPUT_CLEARED: the FAULT input is sampled clear (R98). -/
def execFaultInputCleared (c : Fin 4) (s : State) : Host.Outcome State Fault Refusal :=
  .next (if s.sampling then s.faultClear c else s)

/-- FAR_LIMIT: FAR reads asserted; a LINEAR channel in outward motion enters FAULT (R97), any other is
left (R97: FAR is not read in any other state). -/
def execFarLimit (c : Fin 4) (s : State) : Host.Outcome State Fault Refusal :=
  .next (if s.sampling then
    let s1 := s.withChan c { s.chan c with farPin := true }
    if (s1.chan c).farRead then s1.faultChannel c .limit else s1
  else s)

/-- FAR_CLEARED: the FAR input is sampled clear (R138). -/
def execFarCleared (c : Fin 4) (s : State) : Host.Outcome State Fault Refusal :=
  .next (if s.sampling then s.farClear c else s)

end Sys2Proof.Machine
end

