-- ==== Sys2Proof/Machine/Buttons.lean ====
section
/-! DEFINITION. The button unit (chapter 4): held copies, samples, press phases, taking a press, the
allowance, locks and lamp patterns, with their commands. -/
namespace Sys2Proof.Machine

/-! ## Taking a press (R65 to R69) -/

/-- The payload of a TAP (section 11.2). -/
def tapPayload (b : Fin 16) (k : PressKind) (duration : Nat) : List Byte :=
  [BitVec.ofNat 8 b.val, BitVec.ofNat 8 k.code] ++ bytesBE 2 duration

/-- A TAP for a press, if the button reports its presses (R69). -/
def State.sendTap (s : State) (b : Fin 16) (set : ButtonSettings) (k : PressKind)
    (duration : Nat) : State :=
  if set.reportTap then s.offerOwn (s.ownFrame 0x11 (tapPayload b k duration)) else s

/-- A dispatched press: the TAP, then the LOCAL-PRESS trigger (R69). -/
def State.dispatchPress (s : State) (b : Fin 16) (set : ButtonSettings) (k : PressKind)
    (duration : Nat) : State :=
  (s.sendTap b set k duration).offerTrigger (.localPress b k)

/-- The refill interval in ms (section 4.1). -/
def ButtonSettings.refillMs (set : ButtonSettings) : Nat := set.refill * 100

/-- A press that consumes one unit of a count of `n`: from full, the refill timer starts; the spent run
is 0 (R66, R67). -/
def Button.consume (x : Button) (set : ButtonSettings) (n : Nat) : Button :=
  { x with
    allowance := some (n - 1), spentRun := 0
    refill := if n = set.allowance then some set.refillMs else x.refill }

/-- A spent press: the spent run rises, and at a nonzero threshold ROUGH-HANDLING is raised (R66, R68).
-/
def State.spendPress (s : State) (b : Fin 16) (set : ButtonSettings) : State :=
  let x := s.btn b
  let run := inc8 x.spentRun
  if set.rough ≠ 0 ∧ set.rough ≤ run then
    (s.withBtn b { x with spentRun := run, rough := true }).raise .roughHandling b.val
  else s.withBtn b { x with spentRun := run }

/-- The allowance test (R66). -/
def State.allowanceTest (s : State) (b : Fin 16) (set : ButtonSettings) (k : PressKind)
    (duration : Nat) : State :=
  match (s.btn b).allowance with
  | none => s.dispatchPress b set k duration
  | some 0 => s.spendPress b set
  | some (n + 1) =>
    (s.withBtn b ((s.btn b).consume set (n + 1))).dispatchPress b set k duration

/-- The tests of a press after the HELP alert: lock, mode, allowance (R65). -/
def State.pressTests (s : State) (b : Fin 16) (set : ButtonSettings) (k : PressKind)
    (duration : Nat) : State :=
  if set.help = false ∧ (s.btn b).lock = true then s
  else match s.pressAnswer set.help with
    | .ignored => s
    | .reported => s.sendTap b set k duration
    | .dispatched => s.allowanceTest b set k duration

/-- Taking a press (R65); the lamp is recomputed after it. -/
def State.takePress (s : State) (b : Fin 16) (k : PressKind) (duration : Nat) : State :=
  match (s.btn b).held with
  | .copy set =>
    if set.enabled then
      let s1 := if set.help then s.raise .help b.val else s
      (s1.pressTests b set k duration).lampUpdate b
    else s
  | .absent => s
  | .damaged => s

/-! ## Press phases (R61 to R64) -/

/-- An accepted closure (R61). -/
def State.closureAccepted (s : State) (b : Fin 16) : State :=
  let x := { s.btn b with closed := true, pin := true, count := 0 }
  match x.held with
  | .copy set =>
    if set.enabled then
      let y := { x with
        closure := 0, holdInForce := set.hold, stuckInForce := set.stuck, stuckTiming := true }
      if set.hold = 0 then (s.withBtn b { y with phase := .settled }).takePress b .short 0
      else s.withBtn b { y with phase := .timing }
    else s.withBtn b { x with phase := .settled, stuckTiming := false }
  | .absent => s.withBtn b { x with phase := .settled, stuckTiming := false }
  | .damaged => s.withBtn b { x with phase := .settled, stuckTiming := false }

/-- The duration of a SHORT press in 10 ms units: rounded down, at least 1, saturating (R62). -/
def shortDuration (closure : Nat) : Nat := min 65535 (max 1 (closure / 10))

/-- An accepted release (R62 to R64). The closure time, and the hold and stuck time in force, stay as they stand
while the button is RELEASED (DESIGN CHOICE, log entry 17). -/
def State.releaseAccepted (s : State) (b : Fin 16) : State :=
  let x := s.btn b
  let s1 := s.withBtn b
    { x with closed := false, pin := false, count := 0, phase := .released, stuckTiming := false }
  match x.phase with
  | .timing => s1.takePress b .short (shortDuration x.closure)
  | .stuck => (s1.conditionEnd .buttonStuck b.val).lampUpdate b
  | .settled => s1
  | .released => s1

/-- The closure time reaches the hold time in TIMING: a HOLD press is taken (R62). -/
def State.holdReached (s : State) (b : Fin 16) : State :=
  let x := s.btn b
  (s.withBtn b
    { x with phase := .settled, closure := max x.closure (x.holdInForce * 100) }).takePress b .hold
      (10 * x.holdInForce)

/-- The closure time reaches the stuck time: STUCK, and BUTTON-STUCK is raised (R64). -/
def State.stuckReached (s : State) (b : Fin 16) : State :=
  let x := s.btn b
  ((s.withBtn b
    { x with
      phase := .stuck, stuckTiming := false
      closure := max x.closure (x.stuckInForce * 1000) }).raise .buttonStuck b.val).lampUpdate b

/-! ## Samples (R60, R76) -/

/-- The debounce time of a button: 50 ms without a copy (R60). -/
def Button.debounce (x : Button) : Nat :=
  match x.held with
  | .copy set => set.debounce
  | .absent => Config.unreadDebounce
  | .damaged => Config.unreadDebounce

/-- Stuck timing begins now, under the stuck time of the copy `set` (R59, R76). -/
def Button.timeStuck (x : Button) (set : ButtonSettings) : Button :=
  { x with closure := 0, stuckInForce := set.stuck, stuckTiming := true }

/-- The first sample after a reset is the debounced level; a button found closed is SETTLED, with stuck
timing from that sample if it is enabled (R76). -/
def Button.firstSample (x : Button) (closed : Bool) : Button :=
  let y := { x with
    pin := closed, primed := true, closed := closed, count := 0
    phase := if closed then .settled else .released, stuckTiming := false }
  match x.held with
  | .copy set => if closed = true ∧ set.enabled = true then y.timeStuck set else y
  | .absent => y
  | .damaged => y

/-- One sample of a button (R60). -/
def State.sampleButton (s : State) (b : Fin 16) (closed : Bool) : State :=
  let x := s.btn b
  if x.primed = false then s.withBtn b (x.firstSample closed)
  else if closed = x.closed then s.withBtn b { x with pin := closed, count := 0 }
  else if x.count + 1 < x.debounce then s.withBtn b { x with pin := closed, count := x.count + 1 }
  else if closed then s.closureAccepted b
  else s.releaseAccepted b

/-! ## Held copies (R58, R59) -/

/-- The allowance a full button holds: none when no count is kept. -/
def fullAllowance (set : ButtonSettings) : Option Nat :=
  if set.allowance = 0 then none else some set.allowance

/-- Enabled, set to clear (R59). -/
def Button.disable (x : Button) (old : ButtonSettings) (h : Held ButtonSettings) : Button :=
  { x with
    held := h, phase := if x.closed then .settled else .released, stuckTiming := false
    rough := false, spentRun := 0, refill := none
    allowance := match h with
      | .copy set => fullAllowance set
      | .absent => fullAllowance old
      | .damaged => fullAllowance old }

/-- Enabled, clear to set: stuck timing of a closed button counts from this moment; the allowance is full, or
no count is kept, so the refill timer is stopped (R59, R67). -/
def Button.enable (x : Button) (set : ButtonSettings) : Button :=
  let y := { x with
    held := .copy set, phase := if x.closed then .settled else .released, stuckTiming := false
    allowance := fullAllowance set, refill := none }
  if x.closed then y.timeStuck set else y

/-- A changed allowance max (R59). -/
def Button.changeMax (x : Button) (set : ButtonSettings) : Button :=
  if set.allowance = 0 then
    { x with allowance := none, spentRun := 0, refill := none, rough := false }
  else match x.allowance with
    | none => { x with allowance := some set.allowance }
    | some n =>
      if set.allowance ≤ n then
        { x with allowance := some set.allowance, refill := none, rough := false }
      else { x with refill := x.refill <|> some set.refillMs }

/-- A changed kind (R59). -/
def Button.changeKind (x : Button) (set : ButtonSettings) : Button :=
  { x with
    phase := if x.phase = .timing then .settled else x.phase
    lock := x.lock && !set.help }

/-- A PUT that makes a button HELP clears its lock, enabled or not (R59, R71). -/
def Button.helpUnlock (x : Button) : Button := { x with lock := x.lock && !x.help }

/-- A copy where there was none, or a DAMAGED one: as enabled changing from clear to set, if the copy is
enabled (R58, R59). -/
def Button.firstCopy (x : Button) (set : ButtonSettings) : Button :=
  (if set.enabled then x.enable set
    else { x with held := .copy set, allowance := fullAllowance set }).helpUnlock

/-- The button after its held copy is replaced, each changed field acting as R59 gives, whether or not the copies are
enabled. Where enabled and the allowance max change together, the enabling or disabling acts last and decides the
count and the refill timer (DESIGN CHOICE, log entry 17). A first read that finds the entry DAMAGED keeps no allowance
count (DESIGN CHOICE, log entry 28). -/
def Button.replaceHeld (x : Button) (h : Held ButtonSettings) : Button :=
  match x.held, h with
  | .copy old, .copy set =>
    if old.enabled = true ∧ set.enabled = false then (x.disable old h).helpUnlock
    else if old.enabled = false ∧ set.enabled = true then
      ((if old.allowance = set.allowance then x else x.changeMax set).enable set).helpUnlock
    else
      let y := { x with held := .copy set }
      let y1 := if old.help = set.help then y else y.changeKind set
      if old.allowance = set.allowance then y1 else y1.changeMax set
  | .copy old, .damaged => x.disable old h
  | .copy old, .absent => x.disable old h
  | .absent, .copy set => x.firstCopy set
  | .damaged, .copy set => x.firstCopy set
  | .absent, _ => { x with held := h }
  | .damaged, _ => { x with held := h }

/-- A complete entry replaces the held copy: a stuck button that is disabled is stuck no more, a
cleared rough flag ends its condition, a DAMAGED entry is raised, and the lamp is recomputed (R58, R59). BUTTON-STUCK
ends first, then ROUGH-HANDLING, then TABLE-DAMAGE is raised, and an idle transmitter may build a CALL between (DESIGN
CHOICE, log entry 18: the spec gives no order of these three). -/
def State.buttonCopy (s : State) (b : Fin 16) (h : Held ButtonSettings) : State :=
  let x := s.btn b
  let y := x.replaceHeld h
  let s1 := s.withBtn b y
  let s2 := if x.phase = .stuck ∧ y.phase ≠ .stuck then s1.conditionEnd .buttonStuck b.val else s1
  let s3 := if x.rough = true ∧ y.rough = false then s2.conditionEnd .roughHandling b.val else s2
  let s4 := match h with
    | .damaged => s3.raise .tableDamage 4
    | .absent => s3
    | .copy _ => s3
  s4.lampUpdate b

/-! ## Commands -/

/-- BUTTON_SETTINGS_READ: a button table word has been delivered (R58). -/
def execButtonSettingsRead (s : State) : Host.Outcome State Fault Refusal :=
  .next (s.deliver (.settings .button) .button fun d a =>
    a.settingsWord d fun e z => z.buttonCopy (Fin.ofNat 16 e.job.entry) (buttonOfWords e.got))

/-- ACCEPTED_CLOSURE: the debounced level of a sampled button becomes CLOSED (R60, R61). -/
def execAcceptedClosure (b : Fin 16) (s : State) : Host.Outcome State Fault Refusal :=
  .next (if s.sampling = true ∧ (s.btn b).primed = true ∧ (s.btn b).closed = false then
    s.closureAccepted b else s)

/-- ACCEPTED_RELEASE: the debounced level of a sampled button becomes OPEN (R60, R63). -/
def execAcceptedRelease (b : Fin 16) (s : State) : Host.Outcome State Fault Refusal :=
  .next (if s.sampling = true ∧ (s.btn b).primed = true ∧ (s.btn b).closed = true then
    s.releaseAccepted b else s)

/-- HOLD_TIME_REACHED: in TIMING the closure time reaches the hold time (R62). -/
def execHoldTimeReached (b : Fin 16) (s : State) : Host.Outcome State Fault Refusal :=
  .next (if (s.btn b).phase = .timing then s.holdReached b else s)

/-- STUCK_TIME_REACHED: the closure time of an enabled button reaches the stuck time in force; in TIMING
the HOLD press of the same millisecond is taken first (R64). -/
def execStuckTimeReached (b : Fin 16) (s : State) : Host.Outcome State Fault Refusal :=
  let x := s.btn b
  .next (if x.stuckTiming = true ∧ x.phase = .timing then (s.holdReached b).stuckReached b
    else if x.stuckTiming = true ∧ x.phase = .settled then s.stuckReached b
    else s)

/-- REFILL_EXPIRY: one unit of allowance is restored; at full the timer stops and ROUGH-HANDLING ends
(R67). A timer that is stopped, or has time left, has no expiry. -/
def execRefillExpiry (b : Fin 16) (s : State) : Host.Outcome State Fault Refusal :=
  let x := s.btn b
  .next (match x.held, x.allowance, x.refill with
    | .copy set, some n, some 0 =>
      if n + 1 < set.allowance then
        (s.withBtn b { x with allowance := some (n + 1), refill := some set.refillMs }).lampUpdate b
      else
        let s1 := s.withBtn b
          { x with allowance := some set.allowance, refill := none, rough := false }
        (if x.rough then s1.conditionEnd .roughHandling b.val else s1).lampUpdate b
    | _, _, _ => s)

/-- The buttons of a mask whose lock changes, and their lamps (R55). -/
def State.setLocks (s : State) (mask : BitVec 16) (lock : Bool) : State :=
  sixteen.foldl (fun a b =>
    if mask.getLsbD b.val = true ∧ ((a.btn b).help = false ∨ lock = false) then
      (a.withBtn b { a.btn b with lock := lock }).lampUpdate b
    else a) s

/-- LOCK: the PLAIN buttons of the mask are locked (R55). -/
def execLock (mask : BitVec 16) (s : State) : Host.Outcome State Fault Refusal :=
  .next (s.takeAction (.lock mask) fun a => a.setLocks mask true)

/-- UNLOCK: the buttons of the mask are unlocked (R55). -/
def execUnlock (mask : BitVec 16) (s : State) : Host.Outcome State Fault Refusal :=
  .next (s.takeAction (.unlock mask) fun a => a.setLocks mask false)

/-- LAMP_PATTERN_PHASE: a blinking pattern reaches the end of its half (R74). -/
def execLampPatternPhase (pattern : LampPattern) (s : State) : Host.Outcome State Fault Refusal :=
  .next (match pattern with
    | .wait => { s with button.waitCtr := if s.button.waitCtr < 500 then 500 else 0 }
    | .fast => { s with button.fastCtr := if s.button.fastCtr < 125 then 125 else 0 })

end Sys2Proof.Machine
end

