-- ==== Sys2Proof/Machine/Effects.lean ====
section
/-! DEFINITION. The effect unit (chapter 7): fades, dead intervals, pairing, safe levels, the carrier,
with their commands. `o` below is always the output whose record holds the state: the even output of a
joined pair. -/
namespace Sys2Proof.Machine

/-! ## Fades (R126 to R128) -/

/-- A new fine level. A joined pair whose fine level becomes 0 from a nonzero value loads its dead timer
with `interval` (R128). -/
def Effect.setFine (e : Effect) (pair : Bool) (interval : Nat) (f : Int) : Effect :=
  { e with fine := f, dead := if pair = true ∧ f = 0 ∧ e.fine ≠ 0 then interval else e.dead }

/-- The target clamped by the pairing (R53). -/
def clampTarget (pair : Bool) (t : Int) : Int :=
  if pair then clampInt (-255) 255 t else clampInt 0 255 t

/-- Two nonzero numbers have opposite signs. -/
def oppositeSigns (a b : Int) : Bool :=
  (decide (a < 0) && decide (0 < b)) || (decide (0 < a) && decide (b < 0))

/-- A fade toward `t` over `f` ms begins on an output or pair (R126, R128). Where the time is 0, the sign of a
pair is that of its fine level, so a pair at a fine level below 256 in magnitude goes first to 0 too (DESIGN
CHOICE, log entry 16). -/
def Effect.beginFade (e : Effect) (pair : Bool) (interval : Nat) (t : Int) (f : Nat) : Effect :=
  let dist := (t * 256 - e.fine).natAbs
  let x := { e with target := t }
  if dist = 0 then { x with running := false }
  else if pair = true ∧ 0 < e.dead then { x with remaining := f, running := true }
  else if f = 0 then
    if pair = true ∧ oppositeSigns e.fine t = true then
      { x.setFine pair interval 0 with remaining := 0, running := true }
    else { x.setFine pair interval (t * 256) with remaining := 0, running := false }
  else { x with delta := ceilDiv dist f, remaining := f, running := true }

/-- The fine level one step of Δ nearer the target, clamped there (R127). -/
def Effect.stepped (e : Effect) : Int :=
  if e.fine ≤ e.target * 256 then min (e.fine + e.delta) (e.target * 256)
  else max (e.fine - e.delta) (e.target * 256)

/-- One step of a fade; a pair's step onto or across 0 stops at 0 (R127, R128). -/
def Effect.fadeStep (e : Effect) (pair : Bool) (interval : Nat) : Effect :=
  let f := e.stepped
  if pair = true ∧ e.fine ≠ 0 ∧ (f = 0 ∨ oppositeSigns e.fine f = true) then
    { e.setFine pair interval 0 with
      remaining := e.remaining - 1, running := decide (e.target ≠ 0) }
  else
    { e with
      fine := f, remaining := e.remaining - 1, running := decide (f ≠ e.target * 256) }

/-- A pair's fade goes on from 0 once the dead timer is 0 (R128). -/
def Effect.resume (e : Effect) (pair : Bool) (interval : Nat) : Effect :=
  if e.remaining = 0 then { e with fine := e.target * 256, running := false }
  else { e with delta := ceilDiv (e.target * 256).natAbs e.remaining }.fadeStep pair interval

/-- The tick of an output or pair: the dead timer runs down, or a running fade takes its step (R127,
R128). -/
def Effect.tick (e : Effect) (pair : Bool) (interval : Nat) : Effect :=
  if pair = true ∧ 0 < e.dead then { e with dead := e.dead - 1 }
  else if e.running = false then e
  else if pair = true ∧ e.fine = 0 then e.resume pair interval
  else e.fadeStep pair interval

/-- The effect unit takes an EFFECT on output `o` (R53, R126). -/
def State.beginEffect (s : State) (o : Fin 8) (t : Int) (f : Nat) : State :=
  let pair := s.joined o
  s.withOut (s.base o)
    ((s.out (s.base o)).beginFade pair (s.deadInterval (pairOf o)) (clampTarget pair t) f)

/-- EFFECT: a fade begins on the output or its pair, unless the node is DORMANT (R53). -/
def execEffect (o : Fin 8) (target : Int) (fade : BitVec 16) (s : State) :
    Host.Outcome State Fault Refusal :=
  .next (s.takeAction (.effect o target fade) fun a =>
    if a.effectAllowed then a.beginEffect o target fade.toNat else a)

/-- FADE_STEP: the tick of an output, or of the pair it is joined in (R127, R128). -/
def execFadeStep (o : Fin 8) (s : State) : Host.Outcome State Fault Refusal :=
  .next (s.withOut (s.base o)
    ((s.out (s.base o)).tick (s.joined o) (s.deadInterval (pairOf o))))

/-- DEAD_TIMER_EXPIRY: a joined pair's dead timer has come to 0, and its waiting fade goes on (R128). A timer with
time left, as one loaded anew by an event that came first, runs on to its end (R128; log entry 8); a pair that is not
at 0 with a fade running has none that waits. -/
def execDeadTimerExpiry (k : Fin 4) (s : State) : Host.Outcome State Fault Refusal :=
  let e := s.out (evenOf k)
  .next (if s.effect.pairing.getLsbD k.val = true ∧ e.dead = 0 ∧ e.running = true ∧ e.fine = 0 then
    s.withOut (evenOf k) (e.resume true (s.deadInterval k))
  else s)

/-! ## Safe levels (R131) -/

/-- Output `o` takes its safe level, as by an EFFECT with fade time 0; the odd output of a joined pair
takes none of its own (R131). -/
def State.takeSafe (s : State) (o : Fin 8) : State :=
  if s.base o = o then s.beginEffect o (s.safeLevel o) 0 else s

/-- Every output or pair takes its safe level, unless the node is DORMANT (R131). -/
def State.safeLevels (s : State) : State :=
  if s.mode.node = .dormant then s else eight.foldl State.takeSafe s

/-! ## The carrier (R124) -/

/-- CARRIER_PERIOD_START: the counter wraps, a changed carrier comes into force, and each output takes
the high time of its drive level (R124). A counter that does not run starts no period. -/
def execCarrierPeriodStart (s : State) : Host.Outcome State Fault Refusal :=
  .next (match s.effect.carrier with
    | some k =>
      if s.effect.counting = true ∧ s.ring.bypass = false then
        { s with effect.counter := 0, effect.inForce := k }.takeLevels k
      else s
    | none => s)

/-! ## Settings (R123, R130) -/

/-- An output whose pairing changes: level 0 and fade idle (R130); `dead` is the dead timer it takes. -/
def Effect.repaired (e : Effect) (dead : Nat) : Effect :=
  { e with fine := 0, target := 0, running := false, dead := dead }

/-- The pairing becomes `p`: both outputs of each changed pair go to 0, and a pair newly joined loads
its dead timer (R130). -/
def State.changePairing (s : State) (p : BitVec 4) : State :=
  { s with
    effect.pairing := p
    effect.outputs := Vector.ofFn fun o =>
      let k := pairOf o
      if p.getLsbD k.val = s.effect.pairing.getLsbD k.val then s.effect.outputs[o]
      else s.effect.outputs[o].repaired
        (if p.getLsbD k.val = true ∧ o.val % 2 = 0 then s.deadInterval k else 0) }

/-- The working copies are first taken: the carrier counter starts at 0, with it the first period, and each
output takes its drive level (R124, R125, R133). -/
def State.firstCarrier (s : State) (k : Carrier) (p : BitVec 4) : State :=
  { s with
    effect.carrier := some k, effect.inForce := k, effect.pairing := p, effect.counter := 0
    effect.counting := true }.takeLevels k

/-- The node settings word of the carrier and pairing has been read (R123). -/
def State.carrierCopy (s : State) (d : Delivered) : State :=
  match carrierOfWord d, s.effect.carrier with
  | some (k, p), some _ => { s with effect.carrier := some k }.changePairing p
  | some (k, p), none => s.firstCarrier k p
  | none, some _ => s.raise .tableDamage 0
  | none, none => (s.raise .tableDamage 0).firstCarrier .khz1 0

/-- A complete effect entry, or the node settings word (entry 8 of the block), has been read (R123). -/
def State.effectCopy (s : State) (e : Ask) : State :=
  if e.job.entry = 8 then s.carrierCopy (nthWord e.got 0)
  else
    let o : Fin 8 := Fin.ofNat 8 e.job.entry
    let h := effectOfWords e.got
    let s1 := s.withOut o { s.out o with held := h }
    match h with
    | .damaged => s1.raise .tableDamage 3
    | .absent => s1
    | .copy _ => s1

/-- EFFECT_SETTINGS_READ: a word read by the effect unit has been delivered (R123). -/
def execEffectSettingsRead (s : State) : Host.Outcome State Fault Refusal :=
  .next (s.deliver (.settings .effect) .effect fun d a =>
    a.settingsWord d fun e b => b.effectCopy e)

/-- A cause word has been read: the held settings are replaced, or the cause is DAMAGED and TABLE-DAMAGE
raised (R134). -/
def State.causeCopy (s : State) (i : Fin 12) (h : Held CauseSettings) : State :=
  let s1 := { s with alert.held := s.alert.held.set i h }
  match h with
  | .damaged => s1.raise .tableDamage 1
  | .absent => s1
  | .copy _ => s1

/-- ALERT_SETTINGS_READ: a cause word has been delivered (R134). -/
def execAlertSettingsRead (s : State) : Host.Outcome State Fault Refusal :=
  .next (s.deliver (.settings .alert) .alert fun d a =>
    a.settingsWord d fun e b =>
      b.causeCopy (Fin.ofNat 12 e.job.entry) (causeOfWord (nthWord e.got 0)))

end Sys2Proof.Machine
end

