-- ==== Sys2Proof/Machine/Mode.lean ====
section
/-! DEFINITION. The mode unit (chapter 2): an accepted PULSE with closing, waking and auto-home, the
setting of LINE-LOST with its loss actions, the gallery clock, and the local-play read. -/
namespace Sys2Proof.Machine

/-! ## Ceilings under a new mode (R101, R108) -/

/-- A MOVING or STOPPING channel's ceilings under a changed effective mode: V_c from the current
segment, V_s reduced to it; a channel without a current segment takes the mode at its next one (R108). -/
def Channel.newCeiling (ch : Channel) (m : GalleryMode) : Channel :=
  match ch.held, ch.current with
  | .copy k, some g =>
    if ch.state = .moving ∨ ch.state = .stopping then
      let vc := convCruise m k.quietPercent g.cruise
      { ch with vc := vc, vs := min (convSpeed k.startSpeed) vc }
    else ch
  | _, _ => ch

/-! ## Closing and waking (R30, R34, R102, R103) -/

/-- The park profile in the held copy, if there is one. -/
def Channel.park (ch : Channel) : Option (Fin 32) :=
  match ch.held with
  | .copy k => k.park
  | .absent => none
  | .damaged => none

/-- Parking channel `c` when the node state becomes CLOSING (R102). -/
def State.parkChannel (s : State) (c : Fin 4) : State :=
  match (s.chan c).state, (s.chan c).park with
  | .moving, p =>
    let s1 := s.enterStopping c .stopped
    s1.withChan c { s1.chan c with slot := p }
  | .idle, some p =>
    if s.gated c = false ∧ s.guardsClosed (s.chan c).guardMap = true then s.beginProfile c p else s
  | _, _ => s

/-- A channel that wakes: IDLE if it rested IDLE and holds its position without power, else UNHOMED;
the recorded rest state and the fault reason become absent (R34, R103). -/
def Channel.wake (ch : Channel) : Channel :=
  let holds := match ch.held with
    | .copy k => k.holdsPosition
    | .absent => false
    | .damaged => false
  { ch with
    state := if ch.restState = some .idle ∧ holds = true then .idle else .unhomed
    restState := none, faultReason := none }

/-- Waking channel `c`, and telling of it (R34, R80). -/
def State.wakeChannel (s : State) (c : Fin 4) : State :=
  match (s.chan c).state with
  | .resting => s.changeChan c (s.chan c).wake
  | _ => s

/-- The auto-home flag in the held copy. -/
def Channel.autoHome (ch : Channel) : Bool :=
  match ch.held with
  | .copy k => k.autoHome
  | .absent => false
  | .damaged => false

/-- Auto-home for channel `c` (R35). -/
def State.autoHomeChannel (s : State) (c : Fin 4) : State :=
  let ch := s.chan c
  if ch.enabled = true ∧ ch.autoHome = true ∧ ch.state = .unhomed then s.takeHome c else s

/-- A change from `old` to `new` applies auto-home (R35). -/
def autoHomeApplies (old new : GalleryMode) : Bool :=
  (decide (new = .opened) || decide (new = .quiet)) &&
    (decide (old = .held) || decide (old = .service) || decide (old = .closed))

/-- The node state after the effective mode becomes `m` (R24, R30, R34). -/
def nodeAfter (n : NodeState) (m : GalleryMode) : NodeState :=
  match n, m with
  | .active, .closed => .closing
  | .active, _ => .active
  | .closing, .closed => .closing
  | .closing, _ => .active
  | .dormant, .closed => .dormant
  | .dormant, _ => .active
  | .bypass, _ => .bypass

/-! ## Mode change (R25) -/

/-- The motion unit is told of a changed mode and of a node state that was `n`: ceilings, then the
closing or the wake (R25, R101, R102, R34). -/
def State.tellMotionMode (s : State) (n : NodeState) : State :=
  let s1 := s.mapChans fun ch => ch.newCeiling s.mode.mode
  match n, s.mode.node with
  | .active, .closing => four.foldl State.parkChannel s1
  | .dormant, .active => four.foldl State.wakeChannel s1
  | _, _ => s1

/-- The effective mode changes to `m` (R24, R25): the node state, the blocks told, auto-home, the
MODE-ENTRY trigger, and on an entry into CLOSING the first rest test (R30). -/
def State.changeMode (s : State) (m : GalleryMode) : State :=
  let n := s.mode.node
  let old := s.mode.mode
  let s1 := { s with mode.mode := m, mode.node := nodeAfter n m }
  let s2 := (s1.tellMotionMode n).allLamps
  let s3 := if autoHomeApplies old m then four.foldl State.autoHomeChannel s2 else s2
  let s4 := s3.offerTrigger (.modeEntry m)
  if n = .active ∧ m = .closed then s4.restTest else s4

/-- Clearing LINE-LOST: every lamp is recomputed, the LINE-LOST condition ends, and an idle transmitter
may now build a CALL (R16, R24, R27, R138): the condition ends before that choice (DESIGN CHOICE, log entry 18: R24
and R16 give no order of the two). -/
def State.clearLineLost (s : State) : State :=
  if s.mode.lineLost then
    (({ s with mode.lineLost := false, mode.localPlay := none }.allLamps).conditionEnd
      .lineLost 0).pump
  else s

/-- An accepted PULSE with mode `m` and time `t` (R11, R21, R24, R28). -/
def State.takePulse (s : State) (m : GalleryMode) (t : Nat) : State :=
  let s1 :=
    ({ s with
      ring.lossTimer := some (s.ring.lossUnits * 10)
      mode.clock := t, mode.ms := 0 }).clearLineLost
  if m = s1.mode.mode then s1 else s1.changeMode m

/-! ## Line loss (R21, R27, R104) -/

/-- Fetches and buffered segments kept when channel `c` enters its final pass (R115). -/
def inFinalPass (d : Directory) (pass ord : Nat) : Bool := decide (ord < d.count * (pass / d.count + 1))

/-- An owed fetch is kept when channel `c`, at place `at_` of directory entry `d`, enters its final pass. -/
def Fetch.keptInFinal (c : Fin 4) (d : Directory) (at_ : Nat) (f : Fetch) : Bool :=
  decide (f.chan ≠ c) ||
    match f.item with
    | .directory _ => true
    | .segment o _ => inFinalPass d at_ o

/-- The final-pass flag of channel `c` is set: buffered segments and owed fetches of a later pass go
(R104, R115). -/
def State.enterFinalPass (s : State) (c : Fin 4) : State :=
  let ch := s.chan c
  match ch.dir with
  | none => s.withChan c { ch with finalPass := true }
  | some d =>
    { s.withChan c
        { ch with
          finalPass := true, buffer := ch.buffer.filter fun b => inFinalPass d ch.ord b.ord } with
      motion.owed := cancelFetches (Fetch.keptInFinal c d ch.ord) s.motion.owed }

/-- The loss action of channel `c`, whose copy is `k` (R104). -/
def State.lossAct (s : State) (c : Fin 4) (k : ChannelSettings) : State :=
  match (s.chan c).state with
  | .moving => if k.lossFinish then s.enterFinalPass c else s.enterStopping c .stopped
  | .homing => if k.lossFinish then s else s.abandonSearch c
  | _ => s

/-- An enabled channel empties its pending-start slot and applies its loss action (R104). -/
def State.lossChannel (s : State) (c : Fin 4) : State :=
  match (s.chan c).held with
  | .copy k =>
    if k.enabled then (s.withChan c { s.chan c with slot := none }).lossAct c k else s
  | .absent => s
  | .damaged => s

/-- The mode unit owes a read of its local-play word (R27, R154). A read of an earlier LINE-LOST that is still
outstanding goes on: its word is taken for the present LINE-LOST, and the word of this read then replaces it
(DESIGN CHOICE, log entry 22). -/
def State.askLocalPlay (s : State) : State :=
  ({ s with mem.owed := s.mem.owed ++ [Job.mk .mode 0] }.ask).arbitrate

/-- LINE-LOST is set: local-play is read, the motion, effect and button units are told, and the alert is
raised (R21, R27). The raise comes last, after the loss actions and the safe levels, so a CLOSING node whose last
channel gives up its search rests before the record stands (DESIGN CHOICE, log entry 18). -/
def State.setLineLost (s : State) : State :=
  let s1 := ({ s with
    ring.lossTimer := none, mode.lineLost := true, mode.localPlay := none }).askLocalPlay
  ((((four.foldl State.lossChannel s1).arbitrate).safeLevels).allLamps).raise .lineLost 0

/-- LINE_LOSS_EXPIRY: the line-loss timer expires, the line-loss time having elapsed (R21). A timer that a PULSE
has started or restarted since has time left, and a stopped one has none: neither expires. -/
def execLineLossExpiry (s : State) : Host.Outcome State Fault Refusal :=
  .next (if s.ring.lossTimer = some 0 ∧ s.ring.bypass = false then s.setLineLost else s)

/-! ## Clock (R28) -/

/-- CLOCK_SECOND: the millisecond count, at 999, returns to 0 and the clock advances one second (R28). A count
that a PULSE has restarted since is below 999, and the advance does not happen. -/
def execClockSecond (s : State) : Host.Outcome State Fault Refusal :=
  .next (if 999 ≤ s.mode.ms then
    { s with mode.ms := 0, mode.clock := (s.mode.clock + 1) % Config.daySeconds } else s)

/-! ## Local-play (R27) -/

/-- The local-play word as delivered: clear if it reads damaged (R27). -/
def localPlayOf (d : Delivered) : Bool :=
  match readWord 0 3 3 false d with
  | some w => flag w 0
  | none => false

/-- The local-play word has been read: it holds while LINE-LOST is set (R27). It is the word as it stood when the
read was granted (R156), so that a PUT written after LINE-LOST was set and before that grant serves the present
LINE-LOST, though R27 has a PUT take effect at the next setting (DESIGN CHOICE, log entry 22). -/
def State.takeLocalPlay (s : State) (d : Delivered) : State :=
  if s.mode.lineLost then { s with mode.localPlay := some (localPlayOf d) }.allLamps else s

/-- LOCAL_PLAY_READ: the local-play word has been delivered (R27). -/
def execLocalPlayRead (s : State) : Host.Outcome State Fault Refusal :=
  .next (s.deliver (.settings .mode) .mode fun d a =>
    a.settingsWord d fun e b => b.takeLocalPlay (nthWord e.got 0))

end Sys2Proof.Machine
end

