-- ==== Sys2Proof/Machine/Views.lean ====
section
/-! DEFINITION. The read-only views 16 to 23 (section 11.4, R181): each view word from the live state of
its owner. -/
namespace Sys2Proof.Machine

/-- A word from its fields: (lowest bit, width, value). -/
def pack (fs : List (Nat × Nat × Nat)) : Word :=
  BitVec.ofNat 32 (fs.foldl (fun a f => a + (f.2.2 % 2 ^ f.2.1) * 2 ^ f.1) 0)

/-- A flag as a number. -/
def bit (b : Bool) : Nat := if b then 1 else 0

/-- An optional index in 8 bits: 255 is absent (R179). -/
def optCode {n : Nat} (x : Option (Fin n)) : Nat :=
  match x with
  | some i => i.val
  | none => 255

/-- The word count of a view; 0 for an id that is none (section 11.4). -/
def viewWords : Nat → Nat
  | 16 => 4 | 17 => 48 | 18 => 64 | 19 => 49 | 20 => 4 | 21 => 4 | 22 => 3 | 23 => 25 | _ => 0

/-- Save step code and step index; the header is program unit 34 (R175, DEDUCED, log entry 23). -/
def saveStepCode (p : Option SaveProgress) : Nat × Nat :=
  match p with
  | none => (0, 0)
  | some p => match p.step with
    | .erase k => (1, k)
    | .program u => (2, u)
    | .verify w => (3, w)
    | .header => (4, 34)

/-- Words of the identity view. -/
def State.identityView (s : State) (n : Nat) : Word :=
  match n with
  | 0 => pack [(16, 16, Config.partCode), (8, 8, Config.revision), (0, 8, s.straps.address.toNat)]
  | 1 => pack [(24, 8, s.mode.mode.code), (16, 8, s.mode.node.code), (8, 8, s.mgmt.image.code),
      (0, 1, bit s.mode.lineLost)]
  | 2 => pack [(0, 17, s.mode.clock), (22, 10, s.mode.ms)]
  | _ => pack [(24, 8, (saveStepCode s.mgmt.save).1), (16, 8, s.resetCause.code),
      (0, 16, (saveStepCode s.mgmt.save).2)]

/-- Code of a recorded rest state: 15 absent. -/
def restCode (x : Option ChanState) : Nat :=
  match x with
  | some t => t.code
  | none => 15

/-- Code of a fault reason. -/
def faultCode (x : Option FaultReason) : Nat :=
  match x with
  | none => 0
  | some .driver => 1
  | some .limit => 2

/-- Code of an ending outcome in progress. -/
def endingCode (x : Option Ending) : Nat :=
  match x with
  | none => 0
  | some .stopped => 1
  | some .faulted => 2

/-- The owed fetches of a channel. -/
def State.owedBy (s : State) (c : Fin 4) : Nat :=
  (s.motion.owed.filter fun f => decide (f.chan = c) && !f.cancelled).length

/-- Word `n` of the twelve words of channel `c`. -/
def State.channelView (s : State) (c : Fin 4) (n : Nat) : Word :=
  let ch := s.chan c
  match n with
  | 0 => pack
      [(28, 4, ch.state.code), (24, 4, restCode ch.restState), (22, 2, faultCode ch.faultReason),
       (20, 2, endingCode ch.ending), (19, 1, bit (s.energised c)),
       (18, 1, bit (decide (ch.held = .damaged))), (17, 1, bit (s.gated c)),
       (16, 1, bit ch.finalPass), (15, 1, bit ch.clamped), (14, 1, bit ch.positionLost),
       (13, 1, bit ch.outward), (12, 1, bit ch.braking)]
  | 1 => pack [(24, 8, optCode ch.profile), (16, 8, optCode ch.slot), (8, 8, ch.pass)]
  | 2 => pack [(16, 9, ch.segment), (0, 16, ch.dwell)]
  | 3 => pack [(0, 20, ch.position)]
  | 4 => pack [(0, 21, ch.v)]
  | 5 => pack [(16, 14, ch.accel), (0, 16, ch.phi)]
  | 6 => pack [(0, 23, ch.rem)]
  | 7 => pack [(0, 32, ch.vc)]
  | 8 => pack [(0, 32, ch.vs)]
  | 9 => pack [(0, 32, ch.vh)]
  | 10 => pack [(16, 16, ch.completed), (0, 16, ch.refused)]
  | _ => pack [(0, 2, ch.buffer.length), (4, 3, s.owedBy c)]

/-- Press phase code. -/
def Phase.code : Phase → Nat
  | .released => 0 | .timing => 1 | .settled => 2 | .stuck => 3

/-- Lamp state code. -/
def Lamp.code : Lamp → Nat
  | .off => 0 | .ready => 1 | .wait => 2 | .helpFast => 3 | .helpSteady => 4

/-- Word `n` of the four words of button `b`. -/
def State.buttonView (s : State) (b : Fin 16) (n : Nat) : Word :=
  let x := s.btn b
  match n with
  | 0 => pack
      [(31, 1, bit x.closed), (28, 2, x.phase.code), (27, 1, bit x.lock), (26, 1, bit x.rough),
       (25, 1, bit (decide (x.held = .damaged))), (24, 1, bit x.enabled), (20, 3, x.lamp.code),
       (8, 8, x.count), (0, 8, x.allowance.getD 255)]
  | 1 => pack [(0, 17, x.closure)]
  | 2 => pack [(16, 8, x.spentRun), (0, 16, x.refill.getD 0)]
  | _ => pack [(0, 8, x.holdInForce), (8, 8, x.stuckInForce)]

/-- Word `n` of the three words of an alert record. -/
def recordView (r : Record) (n : Nat) : Word :=
  match n with
  | 0 => pack
      [(31, 1, 1), (30, 1, bit r.condition), (29, 1, bit r.due), (26, 2, levelCode r.level),
       (24, 2, r.state.code), (20, 4, r.cause.code.val), (16, 4, r.subject), (8, 8, r.repeats),
       (0, 8, r.escalations)]
  | 1 => pack [(0, 17, r.raisedAt)]
  | _ => pack [(0, 22, r.timer.getD 0)]

/-- Beacon level code: 0 is off. -/
def beaconCode (l : Option Level) : Nat :=
  match l with
  | none => 0
  | some l => levelCode l + 1

/-- Words of the alert table view; an empty slot reads 0 (R181). -/
def State.alertView (s : State) (n : Nat) : Word :=
  if n < 48 then
    match s.slotAt (Fin.ofNat 16 (n / 3)) with
    | some r => recordView r (n % 3)
    | none => 0
  else
    pack ([(0, 2, beaconCode s.alert.beacon), (8, 1, bit s.alert.overflow)] ++
      causes.map fun c => (16 + c.code.val, 1, bit (decide (s.alert.held[c.code] = .damaged))))

/-- Words of the line record view. -/
def State.lineView (s : State) (n : Nat) : Word :=
  let r := s.ring.record
  match n with
  | 0 => pack [(16, 16, r.badFrames), (0, 16, r.relayDrops)]
  | 1 => pack [(16, 16, r.hopExpiries), (0, 16, r.insertionDrops)]
  | 2 => pack [(16, 16, r.triggerDrops), (0, 16, r.managementDrops)]
  | _ => pack [(24, 8, s.ring.relay.length), (16, 8, s.ring.insertion.length),
      (8, 8, s.cue.queue.length), (0, 8, s.ring.relayCount)]

/-- The channel state field of a snapshot: 15 absent. -/
def snapState (i : Option ChanInfo) : Nat :=
  match i with
  | some x => x.state.code
  | none => 15

/-- Words of the first-fault snapshot view; an empty snapshot reads 0 (R181). -/
def State.snapshotView (s : State) (n : Nat) : Word :=
  match s.alert.snapshot with
  | none => 0
  | some x => match n with
    | 0 => pack [(31, 1, 1), (24, 4, x.cause.code.val), (16, 4, x.subject), (8, 8, optCode x.slot),
        (0, 4, snapState x.chan)]
    | 1 => pack [(0, 17, x.time)]
    | 2 => pack [(0, 20, (x.chan.map fun i => i.position).getD 0)]
    | _ => pack [(0, 21, (x.chan.map fun i => i.velocity).getD 0)]

/-- Words of the memory error log view; an empty log's word reads 0 (R181). -/
def State.logView (s : State) (n : Nat) : Word :=
  match n with
  | 0 => match s.mem.log with
    | none => 0
    | some l => pack [(31, 1, 1), (30, 1, bit (decide (l.kind = .uncorrectable))),
        (16, 7, l.syndrome.toNat), (12, 4, l.requester.code), (0, 12, l.index)]
  | 1 => pack [(16, 16, s.mem.corrected), (0, 16, s.mem.uncorrectable)]
  | _ => pack [(16, 16, s.mem.passes), (0, 12, s.mem.scrubPtr)]

/-- Word `n` of the three words of output `o`; the odd output of a joined pair carries its drive level
alone (R181). -/
def State.outputView (s : State) (o : Fin 8) (n : Nat) : Word :=
  let e := s.out o
  if s.base o = o then
    match n with
    | 0 => pack [(31, 1, bit e.running), (30, 1, bit (decide (e.held = .damaged))),
        (22, 8, s.driveLevel o), (0, 18, unsign 18 e.fine)]
    | 1 => pack [(16, 9, unsign 9 e.target), (0, 16, e.remaining)]
    | _ => pack [(24, 8, e.dead), (0, 18, e.delta)]
  else if n = 0 then pack [(22, 8, s.driveLevel o)] else 0

/-- The carrier field of the effect view (log entry 3 while none has been taken). -/
def State.carrierField (s : State) : Nat :=
  match s.effect.carrier with
  | some k => k.code
  | none => Config.unreadCarrierCode.val

/-- Words of the effect live view. -/
def State.effectView (s : State) (n : Nat) : Word :=
  if n < 24 then s.outputView (Fin.ofNat 8 (n / 3)) (n % 3)
  else pack [(24, 2, s.carrierField), (20, 4, s.effect.pairing.toNat), (0, 17, s.effect.counter)]

/-- Word `n` of a view (section 11.4). -/
def State.viewWord (s : State) (view n : Nat) : Word :=
  match view with
  | 16 => s.identityView n
  | 17 => s.channelView (Fin.ofNat 4 (n / 12)) (n % 12)
  | 18 => s.buttonView (Fin.ofNat 16 (n / 4)) (n % 4)
  | 19 => s.alertView n
  | 20 => s.lineView n
  | 21 => s.snapshotView n
  | 22 => s.logView n
  | 23 => s.effectView n
  | _ => 0

end Sys2Proof.Machine
end

