-- ==== Sys2Proof/Machine/Management.lean ====
section
/-! DEFINITION. The management unit (chapter 10) but for resets: examining a PUT or PEEK (R167 to R170),
ANSWERs, word writes with their notices (R160, R171), word reads, the clear commands, and a SAVE through
its steps (R175, R176). -/
namespace Sys2Proof.Machine

/-! ## A request's payload (section 11.2, R180) -/

/-- Table id of a request. -/
def reqTable (p : List Byte) : Nat := (byteAt p 0).toNat

/-- First word of a request. -/
def reqFirst (p : List Byte) : Nat := numAt p 1 2

/-- Count of a request. -/
def reqCount (p : List Byte) : Nat := (byteAt p 3).toNat

/-- Data words of a PUT. -/
def reqWords (p : List Byte) : List Word :=
  (List.range (reqCount p)).map fun i => BitVec.ofNat 32 (numAt p (4 + 4 * i) 4)

/-! ## The range test (R169) -/

/-- The channel entry of word `i` of table 2 is ROTARY as it stands after a PUT of `ws` from word `first`:
its word 0 as written by the PUT, or as stored (R169): with a corrected error as corrected, and with an
uncorrectable one by its bit 1 as it stands (DESIGN CHOICE, log entry 24). -/
def State.rotaryAfter (s : State) (first : Nat) (ws : List Word) (i : Nat) : Bool :=
  let w0 := i / 8 * 8
  if first ≤ w0 ∧ w0 < first + ws.length then flag (ws.getD (w0 - first) 0) 1
  else flag (classify (Memory.read s.mem.words (32 + w0))).2 1

/-- The field rules of word `i` of table `t` under a PUT of `ws` from word `first`. -/
def State.putRules (s : State) (t first : Nat) (ws : List Word) (i : Nat) (w : Word) :
    List FieldRule :=
  wordRules t (i % entryWords t) i (s.rotaryAfter first ws i) w

/-- The words a PUT stores, from word `i` on: none if a code is invalid (R169). -/
def State.storedFrom (s : State) (t first : Nat) (all : List Word) :
    Nat → List Word → Option (List Word)
  | _, [] => some []
  | i, w :: ws =>
    match applyRules (s.putRules t first all i w) w, s.storedFrom t first all (i + 1) ws with
    | some x, some xs => some (x :: xs)
    | _, _ => none

/-- Whether a number of the words, from word `i` on, is clamped (R169). -/
def State.clampedFrom (s : State) (t first : Nat) (all : List Word) : Nat → List Word → Bool
  | _, [] => false
  | i, w :: ws =>
    wasClamped (s.putRules t first all i w) w || s.clampedFrom t first all (i + 1) ws

/-! ## The in-use test (R170) -/

/-- Word `i` of table `t` belongs to running work (R170). -/
def State.wordInUse (s : State) (t i : Nat) : Bool :=
  match t with
  | 2 => four.any fun c => c.val == i / 8 && !(s.chan c).state.replaceable
  | 6 => four.any fun c => (s.chan c).usesProfile (i / 2)
  | 7 => four.any fun c => (s.chan c).usesSegment (i / 3)
  | _ => false

/-! ## Examination (R167) -/

/-- The first test that a PUT fails (R167). -/
def State.putFails (s : State) (p : List Byte) : Option ResultCode :=
  let t := reqTable p
  let first := reqFirst p
  let n := reqCount p
  if 16 ≤ t ∧ t ≤ 23 then some .readOnly
  else if 7 < t ∧ t ≠ 31 then some .noTable
  else if n = 0 ∨ 7 < n ∨ p.length ≠ 4 + 4 * n ∨ (t = 31 ∧ n ≠ 1)
      ∨ (t ≠ 31 ∧ regionWords t < first + n) then some .length
  else if s.mgmt.image = .saving ∧ (t ≠ 31 ∨ first = 0) then some .busy
  else if (List.range n).any (fun k => s.wordInUse t (first + k)) then some .inUse
  else if t = 31 then (if 3 < first then some .range else none)
  else if s.storedFrom t first (reqWords p) first (reqWords p) = none then some .range
  else none

/-- The words of a table or view that a PEEK may name. -/
def peekWords (t : Nat) : Nat := if t ≤ 7 then regionWords t else viewWords t

/-- The first test that a PEEK fails (R167). -/
def peekFails (p : List Byte) : Option ResultCode :=
  let t := reqTable p
  if ¬(t ≤ 7 ∨ (16 ≤ t ∧ t ≤ 23)) then some .noTable
  else if reqCount p = 0 ∨ 7 < reqCount p ∨ p.length ≠ 4
      ∨ peekWords t < reqFirst p + reqCount p then some .length
  else none

/-! ## ANSWERs (R166, R180) -/

/-- The payload of an ANSWER. -/
def answerPayload (table first : Nat) (r : ResultCode) (ws : List Word) : List Byte :=
  [BitVec.ofNat 8 table] ++ bytesBE 2 first ++ [BitVec.ofNat 8 r.code] ++ ws.flatMap wordBytes

/-- The ANSWER to the request is built and offered (R166). -/
def State.answer (s : State) (table first : Nat) (r : ResultCode) (ws : List Word) : State :=
  { s with
    mgmt.slot := .answering (s.ownFrame 0x14 (answerPayload table first r ws)) }.offerWaiting
      .slotAnswer

/-! ## The flash device (section 10.5) -/

/-- The byte of the flash at which word `i` of table memory stands (R182). -/
def flashByte (i : Nat) : Nat := 32 + 4 * i

/-- Bytes of one flash sector (section 10.5). -/
def sectorBytes : Nat := 4096

/-- Where in the flash an operation acts, and the bytes it programs there: a unit's words in the byte order of
R179 from its first word's byte on, the header at byte 0; an erase programs none (R175, R182). -/
def FlashOp.place (op : FlashOp) : Nat × List Byte :=
  match op with
  | .erase k => (sectorBytes * k, [])
  | .program u ws => (flashByte (unitFirst u), ws.flatMap wordBytes)
  | .programHeader bs => (0, bs)

/-- Issuing an operation to the flash: at once if the device is ready, else when it next reports ready. Where
one waits already, the new one takes its place (DESIGN CHOICE, log entry 26). -/
def State.issueFlash (s : State) (op : FlashOp) : State :=
  match s.mgmt.flashBusy with
  | none => { s with mgmt.flashBusy := some op }
  | some _ => { s with mgmt.flashNext := some op }

/-- The operation issued has been reported ready; one that waited is issued now. The answer is whether one
waited. -/
def State.flashReady (s : State) : State × Bool :=
  match s.mgmt.flashNext with
  | some op =>
    ({ s with
      mgmt.flashBusy := some op, mgmt.flashNext := none
      mgmt.save := s.mgmt.save.map fun p => { p with begun := true } }, true)
  | none => ({ s with mgmt.flashBusy := none }, false)

/-! ## Commands (R172) -/

/-- A SAVE is accepted: the slot is freed and the erase of sector 0 is issued, or waits for the device
(R175). -/
def State.beginSave (s : State) : State :=
  ({ s with
    mgmt.slot := .empty, mgmt.image := .saving
    mgmt.save := some
      ⟨.erase 0, crc32Init, [], s.mgmt.image, s.mgmt.flashBusy.isNone⟩ }).issueFlash (.erase 0)

/-- The clear commands (R20, R150, R163). -/
def State.clearCommand (s : State) (n : Nat) : State :=
  match n with
  | 1 => { s with ring.record := .zero }
  | 2 => { s with alert.snapshot := none }
  | 3 => { s with mem.log := none, mem.corrected := 0, mem.uncorrectable := 0, mem.passes := 0 }
  | _ => s

/-! ## Requests -/

/-- A PUT that passed every test (R171, R172). -/
def State.runPut (s : State) (p : List Byte) : State :=
  let t := reqTable p
  let first := reqFirst p
  if t = 31 then
    if first = 0 then s.beginSave else (s.clearCommand first).answer t first .ok []
  else match s.storedFrom t first (reqWords p) first (reqWords p) with
    | some ws =>
      let hit := s.clampedFrom t first (reqWords p) first (reqWords p)
      { s with mgmt.slot := .working (.put t first ws hit 0) }.arbitrate
    | none => s.answer t first .range []

/-- A PUT handed to the management unit (R12, R166, R167). -/
def State.takePut (s : State) (p : List Byte) : State :=
  if s.mgmt.slot ≠ .empty then s.countManagementDrop
  else match s.putFails p with
    | some r => s.answer (reqTable p) (reqFirst p) r []
    | none => s.runPut p

/-- The words of a view that a PEEK names, taken as one event (R168). -/
def State.viewRange (s : State) (view first n : Nat) : List Word :=
  (List.range n).map fun k => s.viewWord view (first + k)

/-- A PEEK handed to the management unit (R12, R166, R167, R168). -/
def State.takePeek (s : State) (p : List Byte) : State :=
  let t := reqTable p
  let first := reqFirst p
  if s.mgmt.slot ≠ .empty then s.countManagementDrop
  else match peekFails p with
    | some r => s.answer t first r []
    | none =>
      if t ≤ 7 then { s with mgmt.slot := .working (.peek t first (reqCount p) []) }.arbitrate
      else s.answer t first .ok (s.viewRange t first (reqCount p))

/-! ## Word writes (R160, R171) -/

/-- The write notice of word `i`, now holding `w` (R160). -/
def State.writeNotice (s : State) (i : Nat) (w : Word) : State :=
  if i = 0 then { s with ring.hopLimit := field w 0 7, ring.lossUnits := field w 16 9 }
  else if i = 1 then { s with mem.scrubInterval := field w 0 8 }
  else if i = 2 then s.notice ⟨.effect, 8⟩
  else match regionOf i with
    | 1 => if i < 28 then s.notice ⟨.alert, i - 16⟩ else s
    | 2 => s.notice ⟨.motion, (i - 32) / 8⟩
    | 3 => s.notice ⟨.effect, (i - 64) / 2⟩
    | 4 => s.notice ⟨.button, (i - 80) / 4⟩
    | 5 => s.entryWritten ((i - 144) / 6)
    | _ => s

/-- The PUT in the slot has had one more word written; after the last its ANSWER is built (R171). -/
def State.putProgress (s : State) : State :=
  match s.mgmt.slot with
  | .working (.put t first ws hit n) =>
    if n + 1 < ws.length then { s with mgmt.slot := .working (.put t first ws hit (n + 1)) }
    else s.answer t first (if hit then .clamped else .ok) ws
  | .working (.peek _ _ _ _) => s
  | .empty => s
  | .answering _ => s

/-- PUT_WORD_WRITE: the granted write ends; its notices are handed (R171). After a RESTART that fell
during it, the write and its notices stand alone (R165). -/
def execPutWordWrite (s : State) : Host.Outcome State Fault Refusal :=
  .next (match s.mem.access with
    | some a => match a.op with
      | .putWrite w =>
        let s1 := (s.writeWord a.index w).writeNotice a.index w
        (if a.stale then s1 else s1.putProgress).endAccess
      | _ => s
    | none => s)

/-! ## Word reads (R168) -/

/-- A word read for the PEEK in the slot; after the last its ANSWER is built (R168). Where that word reads
uncorrectable, TABLE-DAMAGE is raised before the ANSWER is offered, so an idle transmitter takes the CALL first (DESIGN
CHOICE, log entry 18: R166 and R168 give no order of the two). -/
def State.peekWord (s : State) (d : Delivered) : State :=
  match s.mgmt.slot with
  | .working (.peek t first n got) =>
    let all := got ++ [d]
    let s1 := if d.bad then s.raise .tableDamage t else s
    if all.length < n then { s1 with mgmt.slot := .working (.peek t first n all) }
    else s1.answer t first (if all.any (fun x => x.bad) then .damaged else .ok)
      (all.map fun x => x.data)
  | .working (.put _ _ _ _ _) => s
  | .empty => s
  | .answering _ => s

/-- PEEK_WORD_READ: a table word read for a PEEK has been delivered (R168). -/
def execPeekWordRead (s : State) : Host.Outcome State Fault Refusal :=
  .next (s.deliver .peekRead .management fun d a => a.peekWord d)

/-! ## SAVE (R175, R176) -/

/-- The 32-byte image header with a CRC-32 (section 11.5). -/
def headerBytes (crc : BitVec 32) : List Byte :=
  bytesBE 4 Config.imageSignature ++ [1, 0]
    ++ ([1, 16, 4, 8, 16, 64, 32, 512].flatMap (bytesBE 2))
    ++ bytesBE 2 Config.wordCount ++ bytesBE 4 crc.toNat ++ [0, 0, 0, 0]

/-- A save fails: at the header step sector 0 is erased once more; LOAD-FAILED; SAVE-FAILED raised; a
damaged word also raises TABLE-DAMAGE for its region (R176). LOAD-FAILED and SAVE-FAILED come with the issue of that
erase, not with its end (DESIGN CHOICE, log entry 26), and SAVE-FAILED is raised before TABLE-DAMAGE (DESIGN CHOICE, log
entry 18): R176 says neither. -/
def State.saveFail (s : State) (damage : Option Nat) : State :=
  let s1 := match s.mgmt.save with
    | some p => match p.step with
      | .header => s.issueFlash (.erase 0)
      | .erase _ => { s with mgmt.flashNext := none }
      | .program _ => { s with mgmt.flashNext := none }
      | .verify _ => { s with mgmt.flashNext := none }
    | none => s
  let s2 := { s1 with mgmt.save := none, mgmt.image := .loadFailed }.raise .saveFailed 0
  match damage with
  | some i => s2.raise .tableDamage (regionOf i)
  | none => s2

/-- A save succeeds: LOADED, the two conditions end, and the SAVE ANSWER is offered (R138, R176). The IMAGE-FAILED
condition ends first, and an idle transmitter may build the CALL of its record before the SAVE-FAILED condition ends
(DESIGN CHOICE, log entry 18: the spec gives no order of the two ends). The ANSWER is offered after both. -/
def State.saveSucceed (s : State) : State :=
  let s1 := (({ s with mgmt.save := none, mgmt.image := .loaded }.conditionEnd .imageFailed 0)).conditionEnd
    .saveFailed 0
  s1.offerWaiting (.saveAnswer (s1.ownFrame 0x14 (answerPayload 31 0 .ok [])))

/-- The save goes on to a step. -/
def State.saveStep (s : State) (p : SaveProgress) (step : SaveStep) : State :=
  { s with mgmt.save := some { p with step := step, buffer := [] } }

/-- The save's step after an erase of sector `k` (R175). -/
def State.afterErase (s : State) (p : SaveProgress) (k : Nat) : State :=
  if k < 2 then (s.saveStep p (.erase (k + 1))).issueFlash (.erase (k + 1))
  else (s.saveStep p (.program 0)).arbitrate

/-- The save's step after program unit `u` (R175). -/
def State.afterProgram (s : State) (p : SaveProgress) (u : Nat) : State :=
  (if u < 33 then s.saveStep p (.program (u + 1)) else s.saveStep p (.verify 0)).arbitrate

/-- SAVE_ERASE_DONE: the device reports an erase ready, or failed (R175, R176). An erase of an abandoned
or failed save only leaves the device ready for the operation that waits. -/
def execSaveEraseDone (failed : Bool) (s : State) : Host.Outcome State Fault Refusal :=
  .next (match s.mgmt.flashBusy with
    | some (.erase _) =>
      let r := s.flashReady
      if r.2 then r.1
      else match r.1.mgmt.save with
        | some p => match p.step with
          | .erase k => if failed then r.1.saveFail none else r.1.afterErase p k
          | .program _ => r.1
          | .verify _ => r.1
          | .header => r.1
        | none => r.1
    | some (.program _ _) => s
    | some (.programHeader _) => s
    | none => s)

/-- A word read for the save joins the program unit and the CRC-32; a full unit is programmed (R175). -/
def State.saveWord (s : State) (d : Delivered) : State :=
  match s.mgmt.save with
  | some p => match p.step with
    | .program u =>
      let i := unitFirst u + p.buffer.length
      if d.bad then s.saveFail (some i)
      else
        let q := { p with
          buffer := p.buffer ++ [d.data], crc := crc32Add p.crc (wordBytes d.data) }
        let s1 := { s with mgmt.save := some q }
        if q.buffer.length < unitWords u then s1 else s1.issueFlash (.program u q.buffer)
    | .erase _ => s
    | .verify _ => s
    | .header => s
  | none => s

/-- SAVE_WORD_READ: a table word read for the save has been delivered (R175). -/
def execSaveWordRead (s : State) : Host.Outcome State Fault Refusal :=
  .next (s.deliver .saveRead .management fun d a => a.saveWord d)

/-- SAVE_PROGRAM_DONE: the device reports a program ready, or failed (R175, R176). A header that is
programmed is still to be read back (SAVE_HEADER_DONE). -/
def execSaveProgramDone (failed : Bool) (s : State) : Host.Outcome State Fault Refusal :=
  .next (match s.mgmt.flashBusy with
    | none => s
    | some (.erase _) => s
    | some (.program _ _) =>
      let r := s.flashReady
      if r.2 then r.1
      else match r.1.mgmt.save with
        | some p => match p.step with
          | .program u => if failed then r.1.saveFail none else r.1.afterProgram p u
          | .erase _ => r.1
          | .verify _ => r.1
          | .header => r.1
        | none => r.1
    | some (.programHeader _) =>
      let r := s.flashReady
      if r.2 then r.1
      else match r.1.mgmt.save with
        | some p => match p.step with
          | .header => if failed then r.1.saveFail none else r.1
          | .program _ => r.1
          | .erase _ => r.1
          | .verify _ => r.1
        | none => r.1)

/-- A word read back from the flash is compared with the same word read again from table memory; after
the last the header is programmed (R175). -/
def State.verifyWord (s : State) (flashWord : Word) (d : Delivered) : State :=
  match s.mgmt.save with
  | some p => match p.step with
    | .verify w =>
      if d.bad then s.saveFail (some w)
      else if d.data ≠ flashWord then s.saveFail none
      else if w + 1 < Config.wordCount then s.saveStep p (.verify (w + 1))
      else (s.saveStep p .header).issueFlash (.programHeader (headerBytes (crc32Final p.crc)))
    | .erase _ => s
    | .program _ => s
    | .header => s
  | none => s

/-- SAVE_VERIFY_READ: a word of the flash and the same word of table memory are in hand (R175). -/
def execSaveVerifyRead (flashWord : Word) (s : State) : Host.Outcome State Fault Refusal :=
  .next (s.deliver .verifyRead .management fun d a => a.verifyWord flashWord d)

/-- SAVE_HEADER_DONE: the header has been programmed and read back; if it compares equal the save
succeeds (R175, R176). -/
def execSaveHeaderDone (readBack : List Byte) (s : State) : Host.Outcome State Fault Refusal :=
  .next (match s.mgmt.save with
    | some p => match p.step with
      | .header =>
        let s1 := { s with mgmt.flashBusy := none }
        if readBack = headerBytes (crc32Final p.crc) then s1.saveSucceed else s1.saveFail none
      | .erase _ => s
      | .program _ => s
      | .verify _ => s
    | none => s)

/-- FLASH_TIMEOUT: the operation issued has not reported ready in time: a save fails; without one, an
erase that waits after a failed save is given up (R176). With nothing issued there is no limit. -/
def execFlashTimeout (s : State) : Host.Outcome State Fault Refusal :=
  .next (if s.mgmt.flashBusy.isSome then
    match s.mgmt.save with
    | some _ => s.saveFail none
    | none => { s with mgmt.flashNext := none }
  else s)

end Sys2Proof.Machine
end

