-- ==== Sys2Proof/Machine/Reset.lean ====
section
/-! DEFINITION. Resets and the image load: POWER_UP, PIN_RESET, RESET_RELEASE, the load from the flash
(R173, R174), the end of a load with bypass release and READY (R19, R177), and what a RESTART does to
every block (R22, R36, R56, R76, R105, R106, R122, R133, R151, R164, R165, R178). -/
namespace Sys2Proof.Machine

/-! ## POWER-UP and PIN (the reset tables) -/

/-- POWER_UP: every block takes its POWER-UP values, and the straps are read (R22, R36, R56, R76, R105,
R122, R133, R151, R164, R178). An action that was being handed on is not performed after it (R57). -/
def execPowerUp (straps : Straps) (s : State) : Host.Outcome State Fault Refusal :=
  .next { State.reset with
    straps := straps, pending := s.pending, cue.recalled := s.recalledBy }

/-- PIN_RESET: every block takes its PIN values: as at POWER-UP, but the line record (R20), the first-fault
snapshot (R151) and the memory error log with its counts (R164) are kept; the words stay until the load
writes them, and an operation issued to the flash runs on there (section 10.5), while one that still waits for the
device is dropped (DESIGN CHOICE, log entry 26). A word access under way is dropped with no effect on the words, the
counts or the log (DESIGN CHOICE, log entry 25: R165 speaks of a RESTART alone). -/
def execPinReset (straps : Straps) (s : State) : Host.Outcome State Fault Refusal :=
  .next { State.reset with
    straps := straps, resetCause := .pin, pending := s.pending, cue.recalled := s.recalledBy
    ring.record := s.ring.record
    alert.snapshot := s.alert.snapshot
    mem.words := s.mem.words, mem.log := s.mem.log, mem.corrected := s.mem.corrected
    mem.uncorrectable := s.mem.uncorrectable, mem.passes := s.mem.passes
    mgmt.flashBusy := s.mgmt.flashBusy }

/-- RESET_RELEASE: the supply is stable and the RESET pin released: EMPTY becomes LOADING and the header
is read (R173). -/
def execResetRelease (s : State) : Host.Outcome State Fault Refusal :=
  .next (if s.mgmt.image = .empty then
    { s with mgmt.image := .loading, mgmt.load := .header } else s)

/-! ## READY (R177) -/

/-- The payload of a READY (section 11.2). -/
def State.readyPayload (s : State) : List Byte :=
  [BitVec.ofNat 8 s.resetCause.code, BitVec.ofNat 8 s.mgmt.image.code]
    ++ bytesBE 2 Config.partCode ++ [BitVec.ofNat 8 Config.revision]

/-- A READY is built and offered (R177). -/
def State.sendReady (s : State) : State := s.offerWaiting (.ready (s.ownFrame 0x15 s.readyPayload))

/-! ## The end of a load (R173, R19) -/

/-- A node settings word as its copy holder takes it: numbers clamped (R15, R159, R161). -/
def State.nodeWord (s : State) (i : Nat) : Word :=
  (readWord 0 i i false ⟨dataOf (Memory.read s.mem.words i), false⟩).getD 0

/-- The re-reads owed at the end of a load, in the order of R58, R78, R123 and R134. -/
def loadJobs : List Job :=
  (List.range 16).map (Job.mk .button) ++ (List.range 4).map (Job.mk .motion)
    ++ [Job.mk .effect 8] ++ (List.range 8).map (Job.mk .effect)
    ++ (List.range 12).map (Job.mk .alert)

/-- BYPASS is released: the assembler enters JOINING, the node state becomes ACTIVE, the transmitter begins
choosing, and the READY is offered (R19, R29). -/
def State.releaseBypass (s : State) : State :=
  (({ s with
    ring.bypass := false, ring.assembler := ⟨.joining, []⟩, mode.node := .active }).pump).sendReady

/-- The end of a load, in state LOADED or LOAD-FAILED: the copy holders are told, sampling begins, and
BYPASS is released if the straps give an address (R19, R173). A READY of an unaddressed node is discarded
(R177). -/
def State.endLoad (s : State) : State :=
  let s1 := { s with
    mgmt.load := .none, sampling := true
    ring.hopLimit := field (s.nodeWord 0) 0 7, ring.lossUnits := field (s.nodeWord 0) 16 9
    mem.scrubInterval := field (s.nodeWord 1) 0 8
    mem.scrubTimer := some (field (s.nodeWord 1) 0 8)
    mem.owed := s.mem.owed ++ loadJobs }
  let s2 := (s1.ask).arbitrate
  if s2.addressed then s2.releaseBypass else s2

/-- Table memory filled with the blank content (R174): the words that differ from an unlisted one. -/
def blankMemory : Memory :=
  (List.range Config.wordCount).filterMap fun i =>
    if encodeWord (blankWord i) = Memory.unlisted then none else some (i, encodeWord (blankWord i))

/-- A failed load: the blank content, LOAD-FAILED, and IMAGE-FAILED raised; then the load ends (R173,
R174). -/
def State.failLoad (s : State) : State :=
  (({ s with mem.words := blankMemory, mgmt.image := .loadFailed }).raise .imageFailed 0).endLoad

/-! ## The load (R173, R182) -/

/-- The header bytes that a load compares: signature and version, and the entry counts and word count
(R182). -/
def headerOk (h : List Byte) : Bool :=
  h.take 5 == (headerBytes 0).take 5 && (h.drop 6).take 18 == ((headerBytes 0).drop 6).take 18

/-- LOAD_HEADER_READ: the header is checked; a mismatch fails the load (R173). -/
def execLoadHeaderRead (header : List Byte) (s : State) : Host.Outcome State Fault Refusal :=
  .next (match s.mgmt.load with
    | .header =>
      if headerOk header then
        { s with mgmt.load := .words 0 crc32Init (BitVec.ofNat 32 (numAt header 24 4)) }
      else s.failLoad
    | .none => s
    | .words _ _ _ => s)

/-- LOAD_WORD_READ: an image word is written, its bits of no field as 0, with fresh check bits (R173, R179), and added
as read to the CRC-32; after the last the CRC-32 is compared and the load ends (R173). -/
def execLoadWordRead (data : Word) (s : State) : Host.Outcome State Fault Refusal :=
  .next (match s.mgmt.load with
    | .words i crc want =>
      let s1 := s.writeWord i (imageWord i data)
      let crc' := crc32Add crc (wordBytes data)
      if i + 1 < Config.wordCount then { s1 with mgmt.load := .words (i + 1) crc' want }
      else if crc32Final crc' = want then ({ s1 with mgmt.image := .loaded }).endLoad
      else s1.failLoad
    | .none => s
    | .header => s)

/-! ## RESTART (R178) -/

/-- A button after a RESTART: its settings kept, the level as last sampled, the rest as R76 gives. The hold time
in force stays, and so do the closure time and the stuck time in force where no stuck timing begins (DESIGN
CHOICE, log entry 21). -/
def Button.restart (x : Button) : Button :=
  { x.firstSample x.pin with
    primed := x.primed, lock := false, refill := none, spentRun := 0, rough := false
    allowance := match x.held with
      | .copy k => fullAllowance k
      | .absent => x.allowance
      | .damaged => x.allowance }

/-- A channel after a RESTART: UNHOMED with the values of R105 and R122; held settings, counts and inputs
kept; a copy held aside replaces the held copy, since UNHOMED allows it (R78). -/
def Channel.restart (ch : Channel) : Channel :=
  { Channel.reset with
    held := ch.held, aside := ch.aside, completed := ch.completed, refused := ch.refused
    homePin := ch.homePin, farPin := ch.farPin, faultPin := ch.faultPin
    dirPin := ch.dirPin }.takeAside

/-- An effect output after a RESTART: level 0, fade idle; the settings and the period in progress kept
(R133). -/
def Effect.restart (e : Effect) : Effect :=
  { Effect.reset with held := e.held, highTime := e.highTime }

/-- Accesses whose requester a RESTART resets (R164, R165); the scrubber's neither advances the pointer nor counts
a pass (DESIGN CHOICE, log entry 21). -/
def AccessOp.resets : AccessOp → Bool
  | .prefetch => true
  | .putWrite _ => true
  | .peekRead => true
  | .saveRead => true
  | .verifyRead => true
  | .cueRead => true
  | .settings _ => false
  | .scrub => true

/-- The ring port after a RESTART (R22, R23). -/
def Ring.restart (r : Ring) : Ring :=
  { r with relay := [], insertion := [], relayCount := 0, lossTimer := none }

/-- The alert unit after a RESTART (R151). -/
def AlertUnit.restart (a : AlertUnit) : AlertUnit :=
  { AlertUnit.reset with
    held := a.held, snapshot := a.snapshot, key := { KeyInput.reset with pin := a.key.pin } }

/-- Table memory after a RESTART (R164, R165). -/
def TableMemory.restart (m : TableMemory) : TableMemory :=
  { m with
    access := m.access.map fun a => { a with stale := a.stale || a.op.resets }
    passOver := Vector.replicate 5 0, scrubPtr := 0
    scrubTimer := m.scrubTimer.map fun _ => m.scrubInterval }

/-- The image state after a RESTART: a SAVE that had not issued its first erase leaves the state before
it, one that had leaves LOAD-FAILED (R178). -/
def Management.imageAfter (g : Management) : ImageState :=
  match g.save with
  | some p => if p.begun then .loadFailed else p.before
  | none => g.image

/-- The abandoned SAVE had issued its first erase (R178). -/
def Management.saveBroken (g : Management) : Bool :=
  match g.save with
  | some p => p.begun
  | none => false

/-- The management unit after a RESTART, but for its new READY (R178). An erase that still waits for the
device after a failed save is given up (DESIGN CHOICE, log entry 26). -/
def Management.restart (g : Management) : Management :=
  { g with
    slot := .empty, image := g.imageAfter, save := none, waiting := [], flashNext := none }

/-- Every block after a RESTART; the lamp patterns begin again (R74). -/
def State.restartBlocks (s : State) : State :=
  ({ s with
    resetCause := .restart, ring := s.ring.restart
    mode := { ModeUnit.reset with node := .active }
    cue := { CueEngine.reset with recalled := s.recalledBy }
    button := { buttons := Vector.ofFn fun b => s.button.buttons[b].restart, waitCtr := 0
                fastCtr := 0 }
    motion := { channels := Vector.ofFn fun c => s.motion.channels[c].restart
                guards := Vector.ofFn fun g => { GuardInput.reset with pin := s.motion.guards[g].pin }
                owed := [], fetchWords := [] }
    effect.outputs := Vector.ofFn fun o => s.effect.outputs[o].restart
    alert := s.alert.restart, mem := s.mem.restart, mgmt := s.mgmt.restart }).allLamps

/-- A RESTART: every block, the SAVE-FAILED of an abandoned SAVE, then the READY (R178). -/
def State.restart (s : State) : State :=
  let s1 := s.restartBlocks
  (if s.mgmt.saveBroken then s1.raise .saveFailed 0 else s1).sendReady

end Sys2Proof.Machine
end

