-- ==== Sys2Proof/WellFormed.lean ====
section
/-! DEFINITION. What a command's operands must satisfy to stand for an event of the line or the flash:
a good frame's source and length (R4, R10), an image header's length, an EFFECT target's range. -/
namespace Sys2Proof

/-- The eleven frame kinds (section 11.2). -/
def frameKinds : List Byte :=
  [0x01, 0x02, 0x03, 0x04, 0x05, 0x06, 0x11, 0x12, 0x13, 0x14, 0x15]

/-- A frame that R4 does not find bad: its source is at most 120 and its payload at most 32 bytes. -/
def goodOperands (env : Envelope) (payload : List Byte) : Bool :=
  decide (env.src.toNat ≤ 120) && decide (payload.length ≤ Config.payloadMax)

/-- The check of one command's operands. -/
def Instr.wellFormed : Instr → Bool
  | .loadHeaderRead h => h.length == 32
  | .saveHeaderDone h => h.length == 32
  | .goodFrame k e p => frameKinds.contains k && goodOperands e p
  | .restart e p => goodOperands e p
  | .pulse e p => goodOperands e p
  | .cue e p => goodOperands e p
  | .tap e p => goodOperands e p
  | .done e p => goodOperands e p
  | .hush e p => goodOperands e p
  | .put e p => goodOperands e p
  | .peek e p => goodOperands e p
  | .save e _ => decide (e.src.toNat ≤ 120)
  | .clearLineRecord e _ => decide (e.src.toNat ≤ 120)
  | .clearFirstFault e _ => decide (e.src.toNat ≤ 120)
  | .clearMemoryLog e _ => decide (e.src.toNat ≤ 120)
  | .effect _ t _ => decide (-255 ≤ t) && decide (t ≤ 255)
  | .powerUp _ | .pinReset _ | .loadWordRead _ | .badFrame _ | .putWordWrite | .peekWordRead
  | .saveEraseDone _ | .saveWordRead | .saveProgramDone _ | .saveVerifyRead _ | .flashTimeout
  | .transmitterFree | .waitingFrameJoin | .lineLossExpiry | .clockSecond | .cueRead
  | .start _ _ | .stop _ | .home _ | .call _ _ | .lock _ | .unlock _
  | .buttonSettingsRead | .channelSettingsRead | .effectSettingsRead | .alertSettingsRead
  | .localPlayRead | .prefetchRead | .scrubTimerExpiry | .scrubAccess
  | .channelTick _ | .arrival _ | .dwellEnd _ | .stopComplete _ | .homeFound _
  | .searchExhausted _ | .guardOpening _ | .guardClosing _ | .driverFault _
  | .faultInputCleared _ | .farLimit _ | .farCleared _ | .acceptedClosure _
  | .acceptedRelease _ | .holdTimeReached _ | .stuckTimeReached _ | .refillExpiry _
  | .fadeStep _ | .deadTimerExpiry _ | .carrierPeriodStart | .escalationExpiry _
  | .keyClosure | .characterReceived _ | .inputSample _ _ | .resetRelease
  | .lampPatternPhase _ | .beaconPatternPhase _ => true

end Sys2Proof
end

