-- ==== Sys2Proof/Machine/Frames.lean ====
section
/-! DEFINITION. The ring port's reception (chapter 1): the assembler and its characters (R2, R3), the frame
check (R4, R5), stripping, admission, action, consumption, expiry and relay (R6 to R12), the frame
commands, and INPUT_SAMPLE. -/
namespace Sys2Proof.Machine

/-! ## Good frames (R6 to R12) -/

/-- A frame from a command's operands. -/
def frameOf (kind : Byte) (env : Envelope) (payload : List Byte) : Frame :=
  { kind := kind, dst := env.dst, src := env.src, hop := env.hop, payload := payload }

/-- None of the completion conditions of R4 but the CRC holds, and the length is in range. -/
def Frame.good (f : Frame) : Bool :=
  frameKinds.contains f.kind && decide (f.src.toNat ≤ 120)
    && decide (f.payload.length ≤ Config.payloadMax)

/-- The destination is broadcast or the node's own address (R10). -/
def State.toNode (s : State) (f : Frame) : Bool :=
  decide (f.dst = 127) || decide (f.dst = s.address)

/-- A good, unstripped frame is admitted (R10). -/
def State.admits (s : State) (f : Frame) : Bool :=
  let head := decide (f.src = 0)
  let node := decide (1 ≤ f.src.toNat) && decide (f.src.toNat ≤ 120)
  if f.kind = 0x01 then head && s.toNode f && f.payload.length == 4
  else if f.kind = 0x02 then head && s.toNode f && f.payload.length == 1
  else if f.kind = 0x03 then head && s.toNode f && f.payload.length == 1
  else if f.kind = 0x06 then head && s.toNode f && f.payload.length == 0
  else if f.kind = 0x04 then head && decide (f.dst = s.address)
  else if f.kind = 0x05 then head && decide (f.dst = s.address)
  else if f.kind = 0x11 then node && f.payload.length == 4
  else if f.kind = 0x12 then node && f.payload.length == 7
  else false

/-- An admitted PULSE: accepted when its mode and time are in range (R11). -/
def State.actPulse (s : State) (p : List Byte) : State :=
  match modeOfCode (byteAt p 0).toNat with
  | some m => if numAt p 1 3 < Config.daySeconds then s.takePulse m (numAt p 1 3) else s
  | none => s

/-- An admitted TAP: a trigger if its fields are in range (R37). -/
def State.actTap (s : State) (src : Byte) (p : List Byte) : State :=
  match pressOfCode (byteAt p 1).toNat with
  | some k =>
    if (byteAt p 0).toNat < 16 then
      s.offerTrigger (.peerTap src (Fin.ofNat 16 (byteAt p 0).toNat) k)
    else s
  | none => s

/-- An admitted DONE: a trigger if its fields are in range (R37). -/
def State.actDone (s : State) (src : Byte) (p : List Byte) : State :=
  match outcomeOfCode (byteAt p 2).toNat with
  | some o =>
    if (byteAt p 0).toNat < 4 ∧ (byteAt p 1).toNat < 32 then
      s.offerTrigger
        (.peerDone src (Fin.ofNat 4 (byteAt p 0).toNat) o (Fin.ofNat 32 (byteAt p 1).toNat))
    else s
  | none => s

/-- A HUSH for a slot number (R145). -/
def State.actHush (s : State) (slot : Nat) : State :=
  if slot = 255 then (s.acknowledge sixteen).clearOverflow
  else if slot < 16 then s.acknowledge [Fin.ofNat 16 slot]
  else s

/-- An admitted frame handed to its block (R12). -/
def State.act (s : State) (f : Frame) : State :=
  if f.kind = 0x01 then s.actPulse f.payload
  else if f.kind = 0x02 then s.offerTrigger (.lineCue (byteAt f.payload 0))
  else if f.kind = 0x03 then s.actHush (byteAt f.payload 0).toNat
  else if f.kind = 0x04 then s.takePut f.payload
  else if f.kind = 0x05 then s.takePeek f.payload
  else if f.kind = 0x06 then s.restart
  else if f.kind = 0x11 then s.actTap f.src f.payload
  else if f.kind = 0x12 then s.actDone f.src f.payload
  else s

/-- A frame acted on where it is admitted (R10). -/
def State.actIfAdmitted (s : State) (f : Frame) : State := if s.admits f then s.act f else s

/-- The relay copy of a frame (R8). -/
def Frame.relayCopy (f : Frame) : Frame := { f with hop := f.hop - 1 }

/-- A frame after its action: consumed at the node it is addressed to; else expired with hop count 0; else
offered to the relay buffer (R7, R8). -/
def State.passOn (s : State) (f : Frame) : State :=
  if f.dst = s.address then s
  else if f.hop = 0 then s.countHopExpiry
  else s.offerRelay f.relayCopy

/-- What becomes of a good frame: stripped, or acted on and then passed on (R6, R7, R8). -/
def State.goodFrame (s : State) (f : Frame) : State :=
  if f.src = s.address then s else (s.actIfAdmitted f).passOn f

/-- The assembler after a complete frame (R3). -/
def State.trailing (s : State) : State := { s with ring.assembler := ⟨.trailing, []⟩ }

/-- A complete frame with a right CRC (R3, R4, R5): nothing is received while BYPASS is asserted (R1). -/
def State.receive (s : State) (f : Frame) : State :=
  if s.ring.bypass then s
  else if f.good then s.trailing.goodFrame f
  else s.trailing.countBadFrame

/-! ## Frame commands -/

/-- GOOD_FRAME: a good frame of any kind completes (R6 to R8). -/
def execGoodFrame (kind : Byte) (env : Envelope) (payload : List Byte) (s : State) :
    Host.Outcome State Fault Refusal :=
  .next (s.receive (frameOf kind env payload))

/-- PULSE (R11, R24). -/
def execPulse (env : Envelope) (payload : List Byte) (s : State) :
    Host.Outcome State Fault Refusal :=
  .next (s.receive (frameOf 0x01 env payload))

/-- CUE (R12, R37). -/
def execCue (env : Envelope) (payload : List Byte) (s : State) :
    Host.Outcome State Fault Refusal :=
  .next (s.receive (frameOf 0x02 env payload))

/-- HUSH (R145). -/
def execHush (env : Envelope) (payload : List Byte) (s : State) :
    Host.Outcome State Fault Refusal :=
  .next (s.receive (frameOf 0x03 env payload))

/-- PUT (R166, R167). -/
def execPut (env : Envelope) (payload : List Byte) (s : State) :
    Host.Outcome State Fault Refusal :=
  .next (s.receive (frameOf 0x04 env payload))

/-- PEEK (R166 to R168). -/
def execPeek (env : Envelope) (payload : List Byte) (s : State) :
    Host.Outcome State Fault Refusal :=
  .next (s.receive (frameOf 0x05 env payload))

/-- RESTART (R23, R178). -/
def execRestart (env : Envelope) (payload : List Byte) (s : State) :
    Host.Outcome State Fault Refusal :=
  .next (s.receive (frameOf 0x06 env payload))

/-- TAP (R37). -/
def execTap (env : Envelope) (payload : List Byte) (s : State) :
    Host.Outcome State Fault Refusal :=
  .next (s.receive (frameOf 0x11 env payload))

/-- DONE (R37). -/
def execDone (env : Envelope) (payload : List Byte) (s : State) :
    Host.Outcome State Fault Refusal :=
  .next (s.receive (frameOf 0x12 env payload))

/-- The payload of a PUT that issues command `n` with data word `w` (R172). -/
def commandPayload (n : Nat) (w : Word) : List Byte :=
  [31] ++ bytesBE 2 n ++ [1] ++ wordBytes w

/-- SAVE: the PUT of command 0 (R172, R175). -/
def execSave (env : Envelope) (data : Word) (s : State) : Host.Outcome State Fault Refusal :=
  .next (s.receive (frameOf 0x04 env (commandPayload 0 data)))

/-- CLEAR_LINE_RECORD: the PUT of command 1 (R20, R172). -/
def execClearLineRecord (env : Envelope) (data : Word) (s : State) :
    Host.Outcome State Fault Refusal :=
  .next (s.receive (frameOf 0x04 env (commandPayload 1 data)))

/-- CLEAR_FIRST_FAULT: the PUT of command 2 (R150, R172). -/
def execClearFirstFault (env : Envelope) (data : Word) (s : State) :
    Host.Outcome State Fault Refusal :=
  .next (s.receive (frameOf 0x04 env (commandPayload 2 data)))

/-- CLEAR_MEMORY_LOG: the PUT of command 3 (R163, R172). -/
def execClearMemoryLog (env : Envelope) (data : Word) (s : State) :
    Host.Outcome State Fault Refusal :=
  .next (s.receive (frameOf 0x04 env (commandPayload 3 data)))

/-! ## Bad frames (R2 to R5) -/

/-- The assembler after a bad frame of a cause (R2, R3). -/
def assemblerAfter : BadFrameCause → Assembler
  | .crc => ⟨.trailing, []⟩
  | .kind => ⟨.trailing, []⟩
  | .source => ⟨.trailing, []⟩
  | .length => ⟨.discarding, []⟩
  | .short c => ⟨.collecting, [c]⟩
  | .stray => ⟨.discarding, []⟩
  | .framing => ⟨.discarding, []⟩

/-- BAD_FRAME: the frame is discarded and counted (R5). -/
def execBadFrame (cause : BadFrameCause) (s : State) : Host.Outcome State Fault Refusal :=
  .next (if s.ring.bypass then s
    else { s with ring.assembler := assemblerAfter cause }.countBadFrame)

/-! ## Characters (R2, R3) -/

/-- The frame that the characters of a complete frame spell, its CRC left off (section 11.2). -/
def frameOfChars (cs : List Byte) : Frame :=
  { kind := byteAt cs 0, dst := byteAt cs 1, src := byteAt cs 2, hop := byteAt cs 3
    payload := (cs.drop 5).take (byteAt cs 4).toNat }

/-- A complete frame's carried CRC is the computed one (R4). -/
def crcOk (cs : List Byte) : Bool :=
  (crc16 (cs.take (5 + (byteAt cs 4).toNat))).toNat == numAt cs (5 + (byteAt cs 4).toNat) 2

/-- A complete frame is checked (R4) and handled. -/
def State.completeFrame (s : State) (cs : List Byte) : State :=
  if crcOk cs then s.receive (frameOfChars cs) else s.trailing.countBadFrame

/-- An unmarked character joins the frame being collected (R3). -/
def State.collect (s : State) (b : Byte) : State :=
  let cs := s.ring.assembler.chars ++ [b]
  if cs.length < 5 then { s with ring.assembler := ⟨.collecting, cs⟩ }
  else if Config.payloadMax < (byteAt cs 4).toNat then
    { s with ring.assembler := ⟨.discarding, []⟩ }.countBadFrame
  else if cs.length < 7 + (byteAt cs 4).toNat then
    { s with ring.assembler := ⟨.collecting, cs⟩ }
  else s.completeFrame cs

/-- One character handed to the assembler (R2). -/
def State.character (s : State) (ch : LineChar) : State :=
  match ch, s.ring.assembler.state with
  | .marked b, .collecting => { s with ring.assembler := ⟨.collecting, [b]⟩ }.countBadFrame
  | .marked b, .joining => { s with ring.assembler := ⟨.collecting, [b]⟩ }
  | .marked b, .trailing => { s with ring.assembler := ⟨.collecting, [b]⟩ }
  | .marked b, .discarding => { s with ring.assembler := ⟨.collecting, [b]⟩ }
  | .unmarked b, .collecting => s.collect b
  | .unmarked _, .joining => s
  | .unmarked _, .trailing => { s with ring.assembler := ⟨.discarding, []⟩ }.countBadFrame
  | .unmarked _, .discarding => s
  | .framingError, .collecting => { s with ring.assembler := ⟨.discarding, []⟩ }.countBadFrame
  | .framingError, .joining => s
  | .framingError, .trailing => { s with ring.assembler := ⟨.discarding, []⟩ }.countBadFrame
  | .framingError, .discarding => s

/-- CHARACTER_RECEIVED: the receiver hands a character over, unless BYPASS is asserted (R1, R2). -/
def execCharacterReceived (ch : LineChar) (s : State) : Host.Outcome State Fault Refusal :=
  .next (if s.ring.bypass then s else s.character ch)

/-! ## Samples -/

/-- A FAR sample: its clear level ends the LIMIT-HIT condition; its asserted level is read at the channel's
tick (R97, R138). -/
def State.sampleFar (s : State) (c : Fin 4) (active : Bool) : State :=
  if active then s.withChan c { s.chan c with farPin := true } else s.farClear c

/-- A FAULT sample: on a channel in motion an asserted level is read at step 4 of its tick; else it acts at
once (R96, R98, R110). -/
def State.sampleFault (s : State) (c : Fin 4) (active : Bool) : State :=
  if active = true ∧ (s.chan c).state.inMotion = true then
    s.withChan c { s.chan c with faultPin := true }
  else if active then s.faultAsserted c
  else s.faultClear c

/-- One sample of an input. -/
def State.sample (s : State) (input : Input) (active : Bool) : State :=
  match input with
  | .button b => s.sampleButton b active
  | .guard g => s.sampleGuard g active
  | .key => s.sampleKey active
  | .home c => s.withChan c { s.chan c with homePin := active }
  | .far c => s.sampleFar c active
  | .fault c => s.sampleFault c active

/-- INPUT_SAMPLE: an input is sampled, once sampling has begun (R60, R80, R81, R144). -/
def execInputSample (input : Input) (active : Bool) (s : State) :
    Host.Outcome State Fault Refusal :=
  .next (if s.sampling then s.sample input active else s)

end Sys2Proof.Machine
end

