-- ==== Sys2Proof/Machine/Clock.lean ====
section
/-! DEFINITION. What the node does by itself while no command waits (DESIGN CHOICE, log entry 1): work in
hand comes first, an access that ends, an action handed on, a frame that finds room; and with none in hand
one millisecond of the 1 ms time base passes. Both only move counters and put into the queue the commands
of the events that are due. -/
namespace Sys2Proof.Machine

/-! ## Work in hand -/

/-- A command if its event is due. -/
def dueIf (b : Bool) (c : Instr) : List Instr := if b then [c] else []

/-- The command of the end of an access. That of a verify read carries no flash word of its own: it is given
by the node itself only where none is compared (`State.awaitsFlash`). -/
def accessCommand : AccessOp → Instr
  | .prefetch => .prefetchRead
  | .putWrite _ => .putWordWrite
  | .peekRead => .peekWordRead
  | .saveRead => .saveWordRead
  | .verifyRead => .saveVerifyRead 0
  | .cueRead => .cueRead
  | .settings .button => .buttonSettingsRead
  | .settings .motion => .channelSettingsRead
  | .settings .effect => .effectSettingsRead
  | .settings .alert => .alertSettingsRead
  | .settings .mode => .localPlayRead
  | .scrub => .scrubAccess

/-- A save stands at its verify step (R175). -/
def State.verifying (s : State) : Bool :=
  match s.mgmt.save with
  | some p => match p.step with
    | .verify _ => true
    | .erase _ => false
    | .program _ => false
    | .header => false
  | none => false

/-- The access waits for a word of the flash to compare with: a verify read of a save in its verify step. One
whose save has ended, or was abandoned by a RESTART, runs to its end without (R165). -/
def State.awaitsFlash (s : State) (a : Access) : Bool :=
  decide (a.op = .verifyRead) && !a.stale && s.verifying

/-- The command of an action. -/
def Action.command : Action → Instr
  | .start c p => .start c p
  | .stop m => .stop m
  | .home m => .home m
  | .effect o t f => .effect o t f
  | .call k l => .call k l
  | .lock m => .lock m
  | .unlock m => .unlock m

/-- The command of the access in progress. -/
def State.accessDue (s : State) : List Instr :=
  match s.mem.access with
  | some a => dueIf (!s.awaitsFlash a) (accessCommand a.op)
  | none => []

/-- The command of the action the cue engine hands on. -/
def State.actionDue (s : State) : List Instr := (s.nextAction.map Action.command).toList

/-- A waiting frame that finds room (R177). -/
def State.joinDue (s : State) : List Instr :=
  if s.ring.bypass = false ∧ s.mgmt.waiting ≠ []
      ∧ s.ring.insertion.length < Config.insertionCapacity then [.waitingFrameJoin] else []

/-- The commands of the work in hand. -/
def State.workDue (s : State) : List Instr := s.actionDue ++ s.joinDue ++ s.accessDue

/-! ## One millisecond -/

/-- A timer that has a millisecond or less to run. -/
def timerDue (t : Option Nat) : Bool :=
  match t with
  | some n => decide (n ≤ 1)
  | none => false

/-- A timer one millisecond later. -/
def timerDown (t : Option Nat) : Option Nat := t.map fun n => n - 1

/-- The samples of a millisecond that come before the ticks, each input at the level at which it was last
sampled (R60, R80, R81, R110, R144). -/
def State.samplesDue (s : State) : List Instr :=
  if s.sampling then
    sixteen.map (fun b => .inputSample (.button b) (s.btn b).pin)
      ++ four.map (fun g => .inputSample (.guard g) (s.guardIn g).pin)
      ++ [.inputSample .key s.alert.key.pin]
      ++ four.flatMap (fun c =>
        [.inputSample (.home c) (s.chan c).homePin, .inputSample (.far c) (s.chan c).farPin])
  else []

/-- The ticks of the channels in motion (R110). -/
def State.ticksDue (s : State) : List Instr :=
  four.flatMap fun c => dueIf (s.chan c).state.inMotion (.channelTick c)

/-- The FAULT samples of the channels without a tick; that of a channel in motion is step 4 of its tick
(R80, R110). -/
def State.faultsDue (s : State) : List Instr :=
  four.flatMap fun c =>
    dueIf (s.sampling && !(s.chan c).state.inMotion) (.inputSample (.fault c) (s.chan c).faultPin)

/-- The closure time of a button after this millisecond. It is counted while stuck timing runs; a closure
that is not timed (of a disabled or DAMAGED button) keeps the value it found, of which R61 says nothing
(DESIGN CHOICE, log entry 17). -/
def Button.closureNext (x : Button) : Nat := if x.stuckTiming then x.closure + 1 else x.closure

/-- The hold, stuck and refill events of the buttons (R62, R64, R67). -/
def State.buttonsDue (s : State) : List Instr :=
  sixteen.flatMap fun b =>
    let x := s.btn b
    dueIf (decide (x.phase = .timing) && decide (x.holdInForce * 100 ≤ x.closureNext))
        (.holdTimeReached b)
      ++ dueIf (x.stuckTiming && decide (x.stuckInForce * 1000 ≤ x.closureNext))
        (.stuckTimeReached b)
      ++ dueIf (timerDue x.refill) (.refillExpiry b)

/-- The steps of the outputs and pairs that fade or wait out a dead interval (R127, R128). -/
def State.fadesDue (s : State) : List Instr :=
  eight.flatMap fun o =>
    dueIf (decide (s.base o = o) && ((s.out o).running || decide (0 < (s.out o).dead)))
      (.fadeStep o)

/-- The timer of the record in a slot. -/
def State.escalationTimer (s : State) (i : Fin 16) : Option Nat :=
  match s.slotAt i with
  | some r => r.timer
  | none => none

/-- The escalations that are due (R142). -/
def State.escalationsDue (s : State) : List Instr :=
  sixteen.flatMap fun i => dueIf (timerDue (s.escalationTimer i)) (.escalationExpiry i)

/-- The part of a pattern ends with this millisecond. -/
def partDue (part : Option Nat) (ctr : Nat) : Bool :=
  match part with
  | some n => decide (n ≤ ctr + 1)
  | none => false

/-- The ends of the lamp and beacon pattern parts (R74, R148). -/
def State.patternsDue (s : State) : List Instr :=
  dueIf (decide (s.button.waitCtr + 1 = 500) || decide (1000 ≤ s.button.waitCtr + 1))
      (.lampPatternPhase .wait)
    ++ dueIf (decide (s.button.fastCtr + 1 = 125) || decide (250 ≤ s.button.fastCtr + 1))
      (.lampPatternPhase .fast)
    ++ dueIf (partDue s.beaconPart s.alert.beaconCtr) (.beaconPatternPhase .beacon)
    ++ dueIf (partDue s.sounderPart s.alert.sounderCtr) (.beaconPatternPhase .sounder)

/-- The carrier counter reaches a period start within this millisecond (R124). -/
def State.carrierDue (s : State) : Bool :=
  s.effect.counting && !s.ring.bypass && decide (s.effect.inForce.period ≤ s.effect.counter + 16000)

/-- The commands of the events due in this millisecond: the pattern parts that end first, so that a level
that changes in it starts its own pattern whole (R148); then, as R110 orders a tick, the samples before the
ticks and the FAULT samples after them. -/
def State.tickDue (s : State) : List Instr :=
  s.patternsDue ++ s.samplesDue ++ s.ticksDue ++ s.faultsDue ++ s.buttonsDue ++ s.fadesDue
    ++ s.escalationsDue
    ++ dueIf s.carrierDue .carrierPeriodStart
    ++ dueIf (!s.ring.bypass && timerDue s.ring.lossTimer) .lineLossExpiry
    ++ dueIf (timerDue s.mem.scrubTimer) .scrubTimerExpiry
    ++ dueIf (decide (999 ≤ s.mode.ms)) .clockSecond

/-- A button's own counters one millisecond later. -/
def Button.advance (x : Button) : Button :=
  { x with closure := x.closureNext, refill := timerDown x.refill }

/-- A record's escalation timer one millisecond later. -/
def Record.advance (r : Record) : Record := { r with timer := timerDown r.timer }

/-- The alert unit's counters one millisecond later. -/
def AlertUnit.advance (a : AlertUnit) : AlertUnit :=
  { a with
    slots := Vector.ofFn fun i => a.slots[i].map Record.advance
    beaconCtr := a.beaconCtr + 1, sounderCtr := a.sounderCtr + 1 }

/-- A pattern's phase counter one millisecond later; at the end of a half of `half` ms it waits for the
command of that end (R74). -/
def phaseNext (half ctr : Nat) : Nat :=
  if ctr + 1 = half ∨ 2 * half ≤ ctr + 1 then ctr else ctr + 1

/-- The button unit's counters one millisecond later. -/
def ButtonUnit.advance (u : ButtonUnit) : ButtonUnit :=
  { buttons := Vector.ofFn fun b => u.buttons[b].advance
    waitCtr := phaseNext 500 u.waitCtr, fastCtr := phaseNext 125 u.fastCtr }

/-- The counters of the blocks one millisecond later; a timer at its end is set anew by the command of its
expiry. -/
def State.advance (s : State) : State :=
  { s with
    mode.ms := if 999 ≤ s.mode.ms then s.mode.ms else s.mode.ms + 1
    ring.lossTimer := if s.ring.bypass then s.ring.lossTimer else timerDown s.ring.lossTimer
    mem.scrubTimer := timerDown s.mem.scrubTimer
    button := s.button.advance
    alert := s.alert.advance
    effect.counter :=
      if s.effect.counting = true ∧ s.ring.bypass = false then
        (if s.carrierDue then s.effect.counter else s.effect.counter + 16000)
      else s.effect.counter }

/-- One millisecond passes: the counters move, and the due commands join the queue. -/
def State.tick (s : State) : State := { s.advance with pending := s.tickDue }

/-- What the node does on an empty queue: work in hand, and else a millisecond. -/
def State.proceed (s : State) : State :=
  match s.workDue with
  | [] => s.tick
  | c :: cs => { s with pending := c :: cs }

end Sys2Proof.Machine
end

