-- ==== Sys2Proof/Machine/Dispatch.lean ====
section
/-! DEFINITION. The dispatch: each command runs its own meaning. -/
namespace Sys2Proof.Machine

/-- The effect of a command on everything but the queue of commands that wait. -/
def exec (i : Instr) (s : State) : Host.Outcome State Fault Refusal :=
  match i with
  | .powerUp straps => Sys2Proof.Machine.execPowerUp straps s
  | .pinReset straps => Sys2Proof.Machine.execPinReset straps s
  | .loadHeaderRead header => Sys2Proof.Machine.execLoadHeaderRead header s
  | .loadWordRead data => Sys2Proof.Machine.execLoadWordRead data s
  | .restart env payload => Sys2Proof.Machine.execRestart env payload s
  | .badFrame cause => Sys2Proof.Machine.execBadFrame cause s
  | .goodFrame kind env payload => Sys2Proof.Machine.execGoodFrame kind env payload s
  | .pulse env payload => Sys2Proof.Machine.execPulse env payload s
  | .cue env payload => Sys2Proof.Machine.execCue env payload s
  | .tap env payload => Sys2Proof.Machine.execTap env payload s
  | .done env payload => Sys2Proof.Machine.execDone env payload s
  | .hush env payload => Sys2Proof.Machine.execHush env payload s
  | .put env payload => Sys2Proof.Machine.execPut env payload s
  | .putWordWrite => Sys2Proof.Machine.execPutWordWrite s
  | .peek env payload => Sys2Proof.Machine.execPeek env payload s
  | .peekWordRead => Sys2Proof.Machine.execPeekWordRead s
  | .save env data => Sys2Proof.Machine.execSave env data s
  | .clearLineRecord env data => Sys2Proof.Machine.execClearLineRecord env data s
  | .clearFirstFault env data => Sys2Proof.Machine.execClearFirstFault env data s
  | .clearMemoryLog env data => Sys2Proof.Machine.execClearMemoryLog env data s
  | .saveEraseDone failed => Sys2Proof.Machine.execSaveEraseDone failed s
  | .saveWordRead => Sys2Proof.Machine.execSaveWordRead s
  | .saveProgramDone failed => Sys2Proof.Machine.execSaveProgramDone failed s
  | .saveVerifyRead flashWord => Sys2Proof.Machine.execSaveVerifyRead flashWord s
  | .saveHeaderDone readBack => Sys2Proof.Machine.execSaveHeaderDone readBack s
  | .flashTimeout => Sys2Proof.Machine.execFlashTimeout s
  | .transmitterFree => Sys2Proof.Machine.execTransmitterFree s
  | .waitingFrameJoin => Sys2Proof.Machine.execWaitingFrameJoin s
  | .lineLossExpiry => Sys2Proof.Machine.execLineLossExpiry s
  | .clockSecond => Sys2Proof.Machine.execClockSecond s
  | .cueRead => Sys2Proof.Machine.execCueRead s
  | .start c p => Sys2Proof.Machine.execStart c p s
  | .stop mask => Sys2Proof.Machine.execStop mask s
  | .home mask => Sys2Proof.Machine.execHome mask s
  | .effect o target fade => Sys2Proof.Machine.execEffect o target fade s
  | .call code level => Sys2Proof.Machine.execCall code level s
  | .lock mask => Sys2Proof.Machine.execLock mask s
  | .unlock mask => Sys2Proof.Machine.execUnlock mask s
  | .buttonSettingsRead => Sys2Proof.Machine.execButtonSettingsRead s
  | .channelSettingsRead => Sys2Proof.Machine.execChannelSettingsRead s
  | .effectSettingsRead => Sys2Proof.Machine.execEffectSettingsRead s
  | .alertSettingsRead => Sys2Proof.Machine.execAlertSettingsRead s
  | .localPlayRead => Sys2Proof.Machine.execLocalPlayRead s
  | .prefetchRead => Sys2Proof.Machine.execPrefetchRead s
  | .scrubTimerExpiry => Sys2Proof.Machine.execScrubTimerExpiry s
  | .scrubAccess => Sys2Proof.Machine.execScrubAccess s
  | .channelTick c => Sys2Proof.Machine.execChannelTick c s
  | .arrival c => Sys2Proof.Machine.execArrival c s
  | .dwellEnd c => Sys2Proof.Machine.execDwellEnd c s
  | .stopComplete c => Sys2Proof.Machine.execStopComplete c s
  | .homeFound c => Sys2Proof.Machine.execHomeFound c s
  | .searchExhausted c => Sys2Proof.Machine.execSearchExhausted c s
  | .guardOpening g => Sys2Proof.Machine.execGuardOpening g s
  | .guardClosing g => Sys2Proof.Machine.execGuardClosing g s
  | .driverFault c => Sys2Proof.Machine.execDriverFault c s
  | .faultInputCleared c => Sys2Proof.Machine.execFaultInputCleared c s
  | .farLimit c => Sys2Proof.Machine.execFarLimit c s
  | .farCleared c => Sys2Proof.Machine.execFarCleared c s
  | .acceptedClosure b => Sys2Proof.Machine.execAcceptedClosure b s
  | .acceptedRelease b => Sys2Proof.Machine.execAcceptedRelease b s
  | .holdTimeReached b => Sys2Proof.Machine.execHoldTimeReached b s
  | .stuckTimeReached b => Sys2Proof.Machine.execStuckTimeReached b s
  | .refillExpiry b => Sys2Proof.Machine.execRefillExpiry b s
  | .fadeStep o => Sys2Proof.Machine.execFadeStep o s
  | .deadTimerExpiry k => Sys2Proof.Machine.execDeadTimerExpiry k s
  | .carrierPeriodStart => Sys2Proof.Machine.execCarrierPeriodStart s
  | .escalationExpiry slot => Sys2Proof.Machine.execEscalationExpiry slot s
  | .keyClosure => Sys2Proof.Machine.execKeyClosure s
  | .characterReceived ch => Sys2Proof.Machine.execCharacterReceived ch s
  | .inputSample input active => Sys2Proof.Machine.execInputSample input active s
  | .resetRelease => Sys2Proof.Machine.execResetRelease s
  | .lampPatternPhase pattern => Sys2Proof.Machine.execLampPatternPhase pattern s
  | .beaconPatternPhase output => Sys2Proof.Machine.execBeaconPatternPhase output s

end Sys2Proof.Machine
end

