-- ==== Sys2Proof/Machine/Step.lean ====
section
/-! DEFINITION. The step: the command at the front of the queue runs, on the state with the queue's rest;
on an empty queue the node proceeds by itself (Clock.lean; DESIGN CHOICE, log entry 1). -/
namespace Sys2Proof.Machine

/-- One step of the node. -/
def step (s : State) : Host.Outcome State Fault Refusal :=
  match s.pending with
  | c :: rest => Sys2Proof.Machine.exec c { s with pending := rest }
  | [] => .next s.proceed

/-- `s` with the command a table word spells put at the front of its queue; no row of the table has bits,
so no word spells one. -/
def State.withFetchWord (s : State) (nbits w : Nat) : State :=
  match Sys2Proof.decodeTableWord nbits w with
  | some c => { s with pending := c :: s.pending }
  | none => s

end Sys2Proof.Machine
end

