-- ==== Sys2Proof/Safety.lean ====
section
/-! DEFINITION. What a safe state is: the capacities of the queues, table memory's canonical form, no motion
under an open guard, and a DORMANT node at rest; and a run of commands, one after another. -/
namespace Sys2Proof.Machine

/-- No queue holds more than its capacity, and the consecutive-relay count is at most 4 (R13, R14, R17,
R38). -/
structure State.Bounded (s : State) : Prop where
  relay      : s.ring.relay.length ≤ Config.relayCapacity
  insertion  : s.ring.insertion.length ≤ Config.insertionCapacity
  triggers   : s.cue.queue.length ≤ Config.triggerCapacity
  relayCount : s.ring.relayCount ≤ Config.relayCountMax

/-- Table memory's words are in canonical form. -/
def State.Canonical (s : State) : Prop := Memory.wf s.mem.words = true

/-- An enabled channel in HOMING, MOVING or STOPPING has every guard of its guard map CLOSED (R82, R83). -/
def State.GuardsRespected (s : State) : Prop :=
  ∀ c : Fin 4, (s.chan c).enabled = true → (s.chan c).state.inMotion = true →
    s.guardsClosed (s.chan c).guardMap = true

/-- CLOSING and DORMANT go with CLOSED, and a DORMANT node has every channel RESTING and every effect
output at level 0 with its fade idle (section 2.4, R32, R132). -/
structure State.RestOk (s : State) : Prop where
  closed : s.mode.node = .closing ∨ s.mode.node = .dormant → s.mode.mode = .closed
  channels : s.mode.node = .dormant → ∀ c : Fin 4, (s.chan c).state = .resting
  outputs : s.mode.node = .dormant → ∀ o : Fin 8, (s.out o).fine = 0 ∧ (s.out o).running = false

/-- Running commands one after another, stopping where one stops. -/
def execAll : List Instr → State → Host.Outcome State Fault Refusal
  | [], s => .next s
  | c :: cs, s =>
    match exec c s with
    | .next t => execAll cs t
    | .fault r => .fault r
    | .refused r => .refused r

/-- The commands of a frame's characters as the receiver hands them over: the first marked (R1, R16). -/
def Frame.received (f : Frame) : List Instr :=
  match f.chars with
  | [] => []
  | b :: bs => .characterReceived (.marked b) :: bs.map fun x => .characterReceived (.unmarked x)

end Sys2Proof.Machine
end

