-- ==== Sys2Proof/Certificates/Slice0/Obligations.lean ====
section
/-! DEFINITION. The statements about the node that the provers are to settle, chapter by chapter. Operators of the
machine that stand in a conclusion are reactions of other blocks, each with a clause of its own that says what it
does: `passOn` in GoodFrameIsHandled, `pump` and `buildCall` in TransmitterChooses, `answer`, `offerOwn` and
`offerWaiting` in InsertionQueueTakesFrames, `offerTrigger` in TriggerIsOffered, `field`, `matchesTrigger` and the
decoders of a cue entry in ScanReadsEntry, `handOn` and `recalls` in ActionIsHandedOn, `lampUpdate` and `lampFor` in
LocksFollowMask, `takePress`, `sendTap` and `allowanceTest` in PressIsTaken, `raise` in RaiseIsRecorded,
`conditionEnd`, `tellRecord`, `tellChannel` and `restTest` in ConditionEndIsRecorded, `acknowledge` and
`clearOverflow` in KeyAndHushAcknowledge, `beaconUpdate` in EscalationLiftsLevel, `gated` and `guardsClosed` in
StartIsTaken, `tryCurrent` in SegmentsEnd, `releaseTest` in GuardClosingReleases, `replaceHeld` in
ChannelEntryIsTaken, `driveLevel` in CarrierPeriodTakesLevels, `arbitrate`, `endAccess`, `need` and `ask` in
ArbiterGrantsOne, `readFor` and `wordAt` in ScrubberRepairs, `syndromeOf` and `classify` in StoredWordSurvivesUpset,
the codes and `saveStepCode` in PeekIsAnswered, `headerBytes` in SaveGoesOn, `headerOk`, `crc32Add` and `blankWord` in
LoadProceedsAndEnds, `farRead` and `energised` in TickMakesSteps, the decoder of each table entry in the statement
that takes the entry. -/
open Sys2Proof Sys2Proof.Machine

/-! ## The whole machine -/

/-- The command at the front of the queue runs on the state with the queue's rest. -/
def Obligations.StepRunsFront : Prop :=
  ∀ (c : Instr) (rest : List Instr) (s : State), s.pending = c :: rest →
    step s = exec c { s with pending := rest }

/-- The model's choice (log entry 1): on an empty queue the commands of work in hand join the queue: the action that
the engine hands on, a frame that waits and finds room, the end of the access in progress (but not of a verify read
that a save compares with a word of the flash). With none in hand a millisecond passes. The closure times under stuck
timing, the pattern phases, the millisecond count (to 999) and the carrier counter (by 16,000, to less than a period)
count up; the refill, scrub and escalation timers and, out of BYPASS, the line-loss timer run down by a millisecond;
nothing else changes. What falls due in it joins the queue, each command once, in one fixed order, that of its places:
the ends of the pattern parts; the samples of the buttons, the guards, the key, HOME and FAR at their levels as last
sampled; the ticks of the channels in motion; the FAULT samples of the others; hold, stuck and refill times; the
steps of outputs and pairs that fade or wait out a dead interval; escalations; a carrier period; the line-loss and the
scrub timer; the second. (That a closure time without stuck timing stands: log entry 17. The carrier counter within
a millisecond: log entry 20.) -/
def Obligations.EmptyQueueProceeds : Prop :=
  ∀ (s : State) (period : Nat) (place : Instr → Nat), s.pending = [] →
    period = (match s.effect.inForce with | .hz200 => 80000 | .khz1 => 16000 | .khz20 => 800) →
    place = (fun c => match c with
      | .waitingFrameJoin => 1
      | .prefetchRead => 2 | .putWordWrite => 2 | .peekWordRead => 2 | .saveWordRead => 2
      | .saveVerifyRead _ => 2 | .cueRead => 2 | .buttonSettingsRead => 2 | .channelSettingsRead => 2
      | .effectSettingsRead => 2 | .alertSettingsRead => 2 | .localPlayRead => 2 | .scrubAccess => 2
      | .lampPatternPhase .wait => 3 | .lampPatternPhase .fast => 4
      | .beaconPatternPhase .beacon => 5 | .beaconPatternPhase .sounder => 6
      | .inputSample (.button b) _ => 10 + b.val | .inputSample (.guard g) _ => 30 + g.val
      | .inputSample .key _ => 40
      | .inputSample (.home x) _ => 50 + 2 * x.val | .inputSample (.far x) _ => 51 + 2 * x.val
      | .channelTick x => 60 + x.val | .inputSample (.fault x) _ => 70 + x.val
      | .holdTimeReached b => 100 + 3 * b.val | .stuckTimeReached b => 101 + 3 * b.val
      | .refillExpiry b => 102 + 3 * b.val
      | .fadeStep o => 200 + o.val | .escalationExpiry i => 220 + i.val
      | .carrierPeriodStart => 240 | .lineLossExpiry => 241 | .scrubTimerExpiry => 242
      | .clockSecond => 243
      | _ => 0) →
    s.workDue.Pairwise (fun a b => place a < place b) ∧
    (∀ c, c ∈ s.workDue ↔
      (∃ t e acts n a, s.cue.dispatch = .performing t e acts n ∧ acts[n]? = some a ∧
        c = (match a with
          | .start x y => .start x y | .stop m => .stop m | .home m => .home m
          | .effect o l f => .effect o l f | .call k l => .call k l | .lock m => .lock m
          | .unlock m => .unlock m)) ∨
      (c = .waitingFrameJoin ∧ s.ring.bypass = false ∧ s.mgmt.waiting ≠ [] ∧
        s.ring.insertion.length < 8) ∨
      (∃ op i stale, s.mem.access = some ⟨op, i, stale⟩ ∧
        ¬(op = .verifyRead ∧ stale = false ∧ ∃ p w, s.mgmt.save = some p ∧ p.step = .verify w) ∧
        c = (match op with
          | .prefetch => .prefetchRead | .putWrite _ => .putWordWrite | .peekRead => .peekWordRead
          | .saveRead => .saveWordRead | .verifyRead => .saveVerifyRead 0 | .cueRead => .cueRead
          | .settings .button => .buttonSettingsRead | .settings .motion => .channelSettingsRead
          | .settings .effect => .effectSettingsRead | .settings .alert => .alertSettingsRead
          | .settings .mode => .localPlayRead | .scrub => .scrubAccess))) ∧
    (s.workDue ≠ [] → step s = .next { s with pending := s.workDue }) ∧
    (s.workDue = [] → ∃ t, step s = .next t ∧
      t.pending.Pairwise (fun a b => place a < place b) ∧
      (∀ c, c ∈ t.pending ↔ match c with
        | .lampPatternPhase .wait => s.button.waitCtr = 499 ∨ 999 ≤ s.button.waitCtr
        | .lampPatternPhase .fast => s.button.fastCtr = 124 ∨ 249 ≤ s.button.fastCtr
        | .beaconPatternPhase .beacon =>
          (s.alert.beacon = some .notice ∧
            (if s.alert.beaconOn then 100 else 1900) ≤ s.alert.beaconCtr + 1) ∨
          (s.alert.beacon = some .attend ∧ 250 ≤ s.alert.beaconCtr + 1)
        | .beaconPatternPhase .sounder => s.alert.beacon = some .urgent ∧
          (if s.alert.sounderOn then 1000 else 9000) ≤ s.alert.sounderCtr + 1
        | .inputSample (.button b) v => s.sampling = true ∧ v = (s.btn b).pin
        | .inputSample (.guard g) v => s.sampling = true ∧ v = (s.guardIn g).pin
        | .inputSample .key v => s.sampling = true ∧ v = s.alert.key.pin
        | .inputSample (.home x) v => s.sampling = true ∧ v = (s.chan x).homePin
        | .inputSample (.far x) v => s.sampling = true ∧ v = (s.chan x).farPin
        | .inputSample (.fault x) v => s.sampling = true ∧ v = (s.chan x).faultPin ∧
          (s.chan x).state ≠ .homing ∧ (s.chan x).state ≠ .moving ∧ (s.chan x).state ≠ .stopping
        | .channelTick x => (s.chan x).state = .homing ∨ (s.chan x).state = .moving ∨
          (s.chan x).state = .stopping
        | .holdTimeReached b => (s.btn b).phase = .timing ∧ (s.btn b).holdInForce * 100 ≤
          (if (s.btn b).stuckTiming then (s.btn b).closure + 1 else (s.btn b).closure)
        | .stuckTimeReached b => (s.btn b).stuckTiming = true ∧
          (s.btn b).stuckInForce * 1000 ≤ (s.btn b).closure + 1
        | .refillExpiry b => ∃ n, (s.btn b).refill = some n ∧ n ≤ 1
        | .fadeStep o => (s.joined o = false ∨ o.val % 2 = 0) ∧
          ((s.out o).running = true ∨ 0 < (s.out o).dead)
        | .escalationExpiry i => ∃ r n, s.slotAt i = some r ∧ r.timer = some n ∧ n ≤ 1
        | .carrierPeriodStart => s.effect.counting = true ∧ s.ring.bypass = false ∧
          period ≤ s.effect.counter + 16000
        | .lineLossExpiry => s.ring.bypass = false ∧ ∃ n, s.ring.lossTimer = some n ∧ n ≤ 1
        | .scrubTimerExpiry => ∃ n, s.mem.scrubTimer = some n ∧ n ≤ 1
        | .clockSecond => 999 ≤ s.mode.ms
        | _ => False) ∧
      (∀ b, t.btn b = { s.btn b with
        closure := if (s.btn b).stuckTiming then (s.btn b).closure + 1 else (s.btn b).closure
        refill := (s.btn b).refill.map fun n => n - 1 }) ∧
      (∀ i, t.slotAt i = (s.slotAt i).map fun r => { r with timer := r.timer.map fun n => n - 1 }) ∧
      t = { s with
        pending := t.pending, mode.ms := if s.mode.ms < 999 then s.mode.ms + 1 else s.mode.ms
        ring.lossTimer := if s.ring.bypass then s.ring.lossTimer
          else s.ring.lossTimer.map fun n => n - 1
        mem.scrubTimer := s.mem.scrubTimer.map fun n => n - 1
        effect.counter := if s.effect.counting = true ∧ s.ring.bypass = false ∧
            s.effect.counter + 16000 < period then s.effect.counter + 16000 else s.effect.counter
        button.buttons := t.button.buttons
        button.waitCtr := if s.button.waitCtr = 499 ∨ 999 ≤ s.button.waitCtr then s.button.waitCtr
          else s.button.waitCtr + 1
        button.fastCtr := if s.button.fastCtr = 124 ∨ 249 ≤ s.button.fastCtr then s.button.fastCtr
          else s.button.fastCtr + 1
        alert.slots := t.alert.slots, alert.beaconCtr := s.alert.beaconCtr + 1
        alert.sounderCtr := s.alert.sounderCtr + 1 })

/-- Every command is taken: it answers a next state and leaves the queue of waiting commands alone. (That a
command whose event cannot occur in a state still answers one is the model's choice: log entry 8.) -/
def Obligations.EveryCommandIsTaken : Prop :=
  ∀ (c : Instr) (s : State), ∃ t, exec c s = .next t ∧ t.pending = s.pending

/-- The relay buffer, the insertion queue and the trigger queue never hold more than 4, 8 and 16, and the
consecutive-relay count stays at 4 at most. -/
def Obligations.StepKeepsBounded : Prop :=
  ∀ s t : State, s.Bounded → step s = .next t → t.Bounded

/-- Table memory's words stay in canonical form (the model's own form of the word list: log entry 7). -/
def Obligations.StepKeepsCanonical : Prop :=
  ∀ s t : State, s.Canonical → step s = .next t → t.Canonical

/-- No enabled channel is in motion with a guard of its map OPEN. -/
def Obligations.StepKeepsGuardsRespected : Prop :=
  ∀ s t : State, s.GuardsRespected → step s = .next t → t.GuardsRespected

/-- CLOSING and DORMANT go with CLOSED, and a DORMANT node stays at rest: every channel RESTING, every effect
output at level 0. -/
def Obligations.StepKeepsRest : Prop :=
  ∀ s t : State, s.RestOk → step s = .next t → t.RestOk

/-- The four invariants hold right after reset. -/
def Obligations.ResetIsSafe : Prop :=
  State.reset.Bounded ∧ State.reset.Canonical ∧ State.reset.GuardsRespected ∧ State.reset.RestOk

/-! ## Chapter 1: the ring -/

/-- A character's 11 line levels are the start bit, data bits 0 to 7, the mark bit and the stop bit, and are received
as that character; with an unset stop bit they are a framing error. A frame's line levels are received as its
characters. And the characters of a good frame, received one after another by an assembler that is collecting
nothing, have exactly the effect of the frame: no byte is dropped or misplaced, and the CRC agrees. (That a frame
held as its fields and the characters it arrives as act alike is the model's form: log entries 9 and 11. That a data
bit or mark bit of 1 is sent at the mark level is the model's choice: log entry 38.) -/
def Obligations.CharactersSpellFrame : Prop :=
  (∀ (mark : Bool) (b : Byte),
    charBits mark b = [false] ++ (List.range 8).map (fun k => b.getLsbD k) ++ [mark, true] ∧
    charOfBits (charBits mark b) = some (if mark then .marked b else .unmarked b)) ∧
  (∀ bits : List Bool, bits.length = 11 → bits[0]? = some false → bits[10]? = some false →
    charOfBits bits = some .framingError) ∧
  (∀ f : Frame, (f.line.filterMap charOfBits).map Instr.characterReceived = f.received) ∧
  ∀ (f : Frame) (s : State), f.good = true → s.ring.bypass = false →
    s.ring.assembler.state ≠ .collecting →
      execAll f.received s = exec (.goodFrame f.kind ⟨f.dst, f.src, f.hop⟩ f.payload) s

/-- One character at the assembler (the table of R2), and the assembler after each kind of bad frame. In COLLECTING
an unmarked character joins the header, or as a length above 32 ends the frame as bad; after the length it joins
until the frame is complete. A complete frame with a right CRC, one of the eleven kinds and a source of at most 120
is the good frame that its characters spell; any other is bad. A bad frame is counted once, and but for the assembler
it leaves no other trace. (That the character which completes a frame acts within the event as the frame does: log
entry 9.) -/
def Obligations.AssemblerTakesCharacter : Prop :=
  crc16 [0x31, 0x32, 0x33, 0x34, 0x35, 0x36, 0x37, 0x38, 0x39] = 0x29B1#16 ∧
  ∀ (s : State) (b : Byte) (cause : BadFrameCause) (bad : Assembler → State) (cs : List Byte) (n : Nat),
    s.ring.bypass = false →
    bad = (fun a => { s with ring.assembler := a
                             ring.record.badFrames := min 65535 (s.ring.record.badFrames + 1) }) →
    cs = s.ring.assembler.chars ++ [b] → n = (cs.getD 4 0).toNat →
    exec (.badFrame cause) s = .next (bad (match cause with
      | .crc => ⟨.trailing, []⟩ | .kind => ⟨.trailing, []⟩ | .source => ⟨.trailing, []⟩
      | .length => ⟨.discarding, []⟩ | .stray => ⟨.discarding, []⟩ | .framing => ⟨.discarding, []⟩
      | .short c => ⟨.collecting, [c]⟩)) ∧
    exec (.characterReceived (.marked b)) s = .next
      (if s.ring.assembler.state = .collecting then bad ⟨.collecting, [b]⟩
      else { s with ring.assembler := ⟨.collecting, [b]⟩ }) ∧
    (s.ring.assembler.state ≠ .collecting →
      exec (.characterReceived (.unmarked b)) s = .next
        (if s.ring.assembler.state = .trailing then bad ⟨.discarding, []⟩ else s)) ∧
    exec (.characterReceived .framingError) s = .next
      (if s.ring.assembler.state = .trailing ∨ s.ring.assembler.state = .collecting then
        bad ⟨.discarding, []⟩
      else s) ∧
    (s.ring.assembler.state = .collecting →
      (cs.length < 5 ∨ (n ≤ 32 ∧ cs.length < 7 + n) →
        exec (.characterReceived (.unmarked b)) s = .next { s with ring.assembler := ⟨.collecting, cs⟩ }) ∧
      (5 ≤ cs.length → 32 < n →
        exec (.characterReceived (.unmarked b)) s = .next (bad ⟨.discarding, []⟩)) ∧
      (n ≤ 32 → cs.length = 7 + n → ∀ ok : Bool, ok = decide (crc16 (cs.take (5 + n)) =
          BitVec.ofNat 16 ((cs.getD (5 + n) 0).toNat * 256 + (cs.getD (6 + n) 0).toNat)) →
        (ok = false ∨ cs.getD 0 0 ∉ ([0x01, 0x02, 0x03, 0x04, 0x05, 0x06, 0x11, 0x12, 0x13, 0x14,
            0x15] : List Byte) ∨ 120 < (cs.getD 2 0).toNat →
          exec (.characterReceived (.unmarked b)) s = .next (bad ⟨.trailing, []⟩)) ∧
        (ok = true → cs.getD 0 0 ∈ ([0x01, 0x02, 0x03, 0x04, 0x05, 0x06, 0x11, 0x12, 0x13, 0x14,
            0x15] : List Byte) → (cs.getD 2 0).toNat ≤ 120 →
          exec (.characterReceived (.unmarked b)) s =
            exec (.goodFrame (cs.getD 0 0) ⟨cs.getD 1 0, cs.getD 2 0, cs.getD 3 0⟩
              ((cs.drop 5).take n)) s)))

/-- A good frame from the node's own address is stripped: nothing but the assembler changes. A CALL, ANSWER or
READY of another station, and a frame of another kind whose source, destination or payload length does not meet
its admission, is not acted on, and is passed on. A frame passed on is consumed at its destination; else, with hop
count 0, removed and counted as a hop expiry; else a copy with the hop count one less joins the relay buffer, or
at 4 frames is dropped and counted. The commands of the eight kinds that are acted on are good frames of their
kind. -/
def Obligations.GoodFrameIsHandled : Prop :=
  (∀ (env : Envelope) (p : List Byte) (s : State),
    exec (.pulse env p) s = exec (.goodFrame 0x01 env p) s ∧
    exec (.cue env p) s = exec (.goodFrame 0x02 env p) s ∧
    exec (.hush env p) s = exec (.goodFrame 0x03 env p) s ∧
    exec (.put env p) s = exec (.goodFrame 0x04 env p) s ∧
    exec (.peek env p) s = exec (.goodFrame 0x05 env p) s ∧
    exec (.restart env p) s = exec (.goodFrame 0x06 env p) s ∧
    exec (.tap env p) s = exec (.goodFrame 0x11 env p) s ∧
    exec (.done env p) s = exec (.goodFrame 0x12 env p) s) ∧
  ∀ (s : State) (f : Frame),
    (f.good = true → s.ring.bypass = false → f.src = s.address →
      exec (.goodFrame f.kind ⟨f.dst, f.src, f.hop⟩ f.payload) s = .next
        { s with ring.assembler := ⟨.trailing, []⟩ }) ∧
    (f.good = true → s.ring.bypass = false → f.src ≠ s.address →
      (f.kind = 0x13 ∨ f.kind = 0x14 ∨ f.kind = 0x15) ∨
      ((f.kind = 0x01 ∨ f.kind = 0x02 ∨ f.kind = 0x03 ∨ f.kind = 0x06) ∧
        (f.src ≠ 0 ∨ (f.dst ≠ 127 ∧ f.dst ≠ s.address) ∨
          f.payload.length ≠ (if f.kind = 0x01 then 4 else if f.kind = 0x06 then 0 else 1))) ∨
      ((f.kind = 0x04 ∨ f.kind = 0x05) ∧ (f.src ≠ 0 ∨ f.dst ≠ s.address)) ∨
      (f.kind = 0x11 ∧ (f.src = 0 ∨ f.payload.length ≠ 4)) ∨
      (f.kind = 0x12 ∧ (f.src = 0 ∨ f.payload.length ≠ 7)) →
      exec (.goodFrame f.kind ⟨f.dst, f.src, f.hop⟩ f.payload) s = .next
        (({ s with ring.assembler := ⟨.trailing, []⟩ }).passOn f)) ∧
    (f.dst = s.address → s.passOn f = s) ∧
    (f.dst ≠ s.address → f.hop = 0 →
      s.passOn f = { s with ring.record.hopExpiries := inc16 s.ring.record.hopExpiries }) ∧
    (f.dst ≠ s.address → f.hop ≠ 0 → s.ring.relay.length < 4 →
      s.passOn f = ({ s with ring.relay := s.ring.relay ++ [{ f with hop := f.hop - 1 }] }).pump) ∧
    (f.dst ≠ s.address → f.hop ≠ 0 → 4 ≤ s.ring.relay.length →
      s.passOn f = { s with ring.record.relayDrops := inc16 s.ring.record.relayDrops })

/-- When the last stop bit has been sent, the transmitter chooses: the head of the relay buffer, unless an own
frame waits and four relays went before; else a CALL if LINE-LOST is clear and a record is due; else the head
of the insertion queue; and with nothing to send it is idle. An idle transmitter chooses in the same way at
once; a sending one, and one of a node in bypass, is left alone. The record called is the due one of the highest
level, and among those the one of the lowest slot; its CALL carries slot, cause number, subject, level, state,
repeats, escalations and time of raise; the build clears report-due, takes a RAISED record to CALLED with its
escalation timer started, and frees a CLEARING one. -/
def Obligations.TransmitterChooses : Prop :=
  (∀ s : State, (s.ring.bypass = true ∨ s.ring.sending.isSome = true → s.pump = s) ∧
    (s.ring.bypass = false → s.ring.sending = none → ∀ f : Frame,
      exec .transmitterFree { s with ring.sending := some f } = .next s.pump) ∧
    (s.ring.bypass = false → s.ring.sending.isSome = true →
    (∀ f rest, s.ring.relay = f :: rest → s.ownWaiting = false ∨ s.ring.relayCount < 4 →
      exec .transmitterFree s = .next
        { s with ring.sending := some f, ring.relay := rest
                 ring.relayCount := satInc 4 s.ring.relayCount }) ∧
    (s.ring.relay = [] ∨ (s.ownWaiting = true ∧ 4 ≤ s.ring.relayCount) →
      (∀ i r, s.mode.lineLost = false → s.dueSlot = some i → s.slotAt i = some r →
        exec .transmitterFree s = .next
          (({ s with ring.sending := some (s.ownFrame 0x13 (callPayload i r))
                     ring.relayCount := 0 }).buildCall i r)) ∧
      (∀ f rest, s.callWaiting = false → s.ring.insertion = f :: rest →
        exec .transmitterFree s = .next
          { s with ring.sending := some f, ring.insertion := rest, ring.relayCount := 0 })) ∧
    (s.ring.relay = [] → s.ownWaiting = false →
      exec .transmitterFree s = .next { s with ring.sending := none }))) ∧
  ∀ (s : State) (i : Fin 16) (r : Record),
    (s.slotAt i = some r → r.due = true →
      (∀ j q, s.slotAt j = some q → q.due = true →
        levelCode q.level < levelCode r.level ∨ (q.level = r.level ∧ i ≤ j)) → s.dueSlot = some i) ∧
    ((∀ j q, s.slotAt j = some q → q.due = false) → s.dueSlot = none) ∧
    callPayload i r = [BitVec.ofNat 8 i.val, BitVec.ofNat 8 r.cause.code.val, BitVec.ofNat 8 r.subject,
      BitVec.ofNat 8 (levelCode r.level), BitVec.ofNat 8 r.state.code, BitVec.ofNat 8 r.repeats,
      BitVec.ofNat 8 r.escalations, BitVec.ofNat 8 (r.raisedAt / 65536), BitVec.ofNat 8 (r.raisedAt / 256),
      BitVec.ofNat 8 r.raisedAt] ∧
    (r.state = .raised → s.buildCall i r = (s.withSlot i (some { r with
      state := .called, due := false
      timer := if (s.causeSettings r.cause).esc = 0 then none
        else some ((s.causeSettings r.cause).esc * 10000) })).tellRecord r.cause r.subject) ∧
    (r.state = .called ∨ r.state = .acknowledged →
      s.buildCall i r = s.withSlot i (some { r with due := false })) ∧
    (r.state = .clearing → s.buildCall i r = (s.withSlot i none).tellRecord r.cause r.subject)

/-- A TAP or DONE is dropped and counted while BYPASS is asserted or at a full insertion queue, and else joins
its tail. An ANSWER joins, freeing the request slot, when there is room and no frame waits before it, and else
keeps the slot and waits. A READY or a SAVE ANSWER, which hold no slot, join or wait in the same way. The first of the
frames that wait joins when there is room; an ANSWER of the request slot frees the slot. (The model's reading: that a
new frame waits behind one that waits, even where there is room, and however many wait: log entry 12.) -/
def Obligations.InsertionQueueTakesFrames : Prop :=
  ∀ (s : State) (rest : List WaitingFrame) (f : Frame) (n m : Nat) (r : ResultCode) (ws : List Word),
    (f = ⟨0x14, 0, s.address, BitVec.ofNat 8 s.ring.hopLimit,
        [BitVec.ofNat 8 n] ++ bytesBE 2 m ++ [BitVec.ofNat 8 r.code] ++ ws.flatMap wordBytes⟩ →
      (s.ring.bypass = false → s.mgmt.waiting = [] → s.ring.insertion.length < 8 →
        s.answer n m r ws =
          ({ s with ring.insertion := s.ring.insertion ++ [f], mgmt.slot := .empty }).pump) ∧
      (s.ring.bypass = true ∨ s.mgmt.waiting ≠ [] ∨ 8 ≤ s.ring.insertion.length →
        s.answer n m r ws =
          { s with mgmt.slot := .answering f, mgmt.waiting := s.mgmt.waiting ++ [.slotAnswer] })) ∧
    (∀ w : WaitingFrame, w = .saveAnswer f ∨ w = .ready f →
      (s.ring.bypass = false → s.mgmt.waiting = [] → s.ring.insertion.length < 8 →
        s.offerWaiting w = ({ s with ring.insertion := s.ring.insertion ++ [f] }).pump) ∧
      (s.ring.bypass = true ∨ s.mgmt.waiting ≠ [] ∨ 8 ≤ s.ring.insertion.length →
        s.offerWaiting w = { s with mgmt.waiting := s.mgmt.waiting ++ [w] })) ∧
    (s.ring.bypass = true ∨ 8 ≤ s.ring.insertion.length →
      s.offerOwn f = { s with ring.record.insertionDrops := inc16 s.ring.record.insertionDrops }) ∧
    (s.ring.bypass = false → s.ring.insertion.length < 8 →
      s.offerOwn f = ({ s with ring.insertion := s.ring.insertion ++ [f] }).pump) ∧
    (s.ring.bypass = false → s.ring.insertion.length < 8 →
    (s.mgmt.waiting = .ready f :: rest ∨ s.mgmt.waiting = .saveAnswer f :: rest →
      exec .waitingFrameJoin s = .next
        ({ s with ring.insertion := s.ring.insertion ++ [f], mgmt.waiting := rest }).pump) ∧
    (s.mgmt.waiting = .slotAnswer :: rest → s.mgmt.slot = .answering f →
      exec .waitingFrameJoin s = .next
        ({ s with ring.insertion := s.ring.insertion ++ [f], mgmt.waiting := rest
                  mgmt.slot := .empty }).pump))

/-- A line-loss timer that is stopped, or has time left (an accepted PULSE having started or restarted it first), does
not expire, nor does one in BYPASS. The expiry of one that has run out stops it, sets LINE-LOST with local-play still
to be read, owes the read of its word, for which the block asks on the settings path unless it has a request there,
and leaves a LINE-LOST record or the overflow flag in the alert unit. Every enabled channel with no copy held aside
gives up its pending start and takes its loss action: STOP takes a MOVING channel to STOPPING and a HOMING one to
UNHOMED (or, where that brings a CLOSING node to rest, to RESTING from UNHOMED), FINISH sets the final pass of a
MOVING one, whose buffered segments and owed fetches of a later pass go, and leaves a HOMING one. In a node that is
not, and does not become, DORMANT every output takes the safe level of its entry, as by an EFFECT with fade time 0; a
DORMANT node takes none. The effective mode, the clock, the stored words, the management unit and the bad-frame count
stand. (The model's choices: that the sign of a pair is that of its fine level, however small, and that the target,
the step and the fade time remaining of every output stand where the node becomes DORMANT: log entry 16; that the
raise comes after the loss actions: log entry 18.) -/
def Obligations.LineLossIsDeclared : Prop :=
  (∀ s : State, s.ring.lossTimer ≠ some 0 ∨ s.ring.bypass = true → exec .lineLossExpiry s = .next s) ∧
  ∀ s : State, s.ring.bypass = false → s.ring.lossTimer = some 0 →
    ∃ t, exec .lineLossExpiry s = .next t ∧ t.ring.lossTimer = none ∧ t.mode.lineLost = true ∧
      t.mode.localPlay = none ∧ t.mode.mode = s.mode.mode ∧ t.mode.clock = s.mode.clock ∧
      t.mem.path = (({ s with mem.owed := s.mem.owed ++ [Job.mk .mode 0] }).ask).mem.path ∧
      t.mem.owed = (({ s with mem.owed := s.mem.owed ++ [Job.mk .mode 0] }).ask).mem.owed ∧
      ((t.findRecord .lineLost 0).isSome = true ∨ t.alert.overflow = true) ∧
      t.mem.words = s.mem.words ∧ t.mgmt = s.mgmt ∧ t.ring.record.badFrames = s.ring.record.badFrames ∧
      (∀ c, (s.chan c).enabled = true → (s.chan c).aside = none → (t.chan c).slot = none) ∧
      (∀ c k, (s.chan c).held = .copy k → k.enabled = true → (s.chan c).aside = none →
        ((s.chan c).state = .moving → k.lossFinish = false →
          (t.chan c).state = .stopping ∧ (t.chan c).ending = some .stopped ∧ (t.chan c).rem = 0 ∧
          (t.chan c).buffer = [] ∧ (t.chan c).v = (s.chan c).v ∧
          (t.chan c).position = (s.chan c).position ∧ (t.chan c).profile = (s.chan c).profile) ∧
        ((s.chan c).state = .moving → k.lossFinish = true →
          (t.chan c).state = .moving ∧ (t.chan c).finalPass = true ∧
          (t.chan c).current = (s.chan c).current ∧ (t.chan c).rem = (s.chan c).rem ∧
          (t.chan c).v = (s.chan c).v ∧ (t.chan c).position = (s.chan c).position ∧
          (t.chan c).profile = (s.chan c).profile ∧
          ((s.chan c).dir = none → (t.chan c).buffer = (s.chan c).buffer) ∧
          (∀ d last, (s.chan c).dir = some d → last = d.count * ((s.chan c).ord / d.count + 1) →
            (t.chan c).buffer = (s.chan c).buffer.filter (fun b => decide (b.ord < last)) ∧
            (∀ f o base, f ∈ t.motion.owed → f.chan = c → f.item = .segment o base →
              f.cancelled = true ∨ o < last) ∧
            (∀ f o base, f ∈ s.motion.owed → f.chan = c → f.item = .segment o base → o < last →
              f ∈ t.motion.owed))) ∧
        ((s.chan c).state = .homing → k.lossFinish = false →
          (t.chan c).v = 0 ∧ (t.mode.node ≠ .dormant ∨ s.mode.node = .dormant →
            (t.chan c).state = .unhomed) ∧
          (t.mode.node = .dormant → s.mode.node ≠ .dormant →
            (t.chan c).state = .resting ∧ (t.chan c).restState = some .unhomed)) ∧
        ((s.chan c).state = .homing → k.lossFinish = true →
          t.chan c = { s.chan c with slot := none })) ∧
      (s.mode.node ≠ .closing → t.mode.node = s.mode.node) ∧
      (s.mode.node = .dormant → t.effect = s.effect) ∧
      (t.mode.node = .dormant → s.mode.node ≠ .dormant → ∀ o : Fin 8,
        t.out o = { s.out o with fine := 0, running := false, dead := 0 }) ∧
      (t.mode.node ≠ .dormant → ∀ (o : Fin 8) (l : Int),
        (∃ k, (s.out o).held = .copy k ∧ l = k.safe) ∨ ((s.out o).held = .damaged ∧ l = 0) →
        (s.joined o = false → (t.out o).target = max 0 (min 255 l) ∧
          (t.out o).fine = max 0 (min 255 l) * 256 ∧ (t.out o).running = false) ∧
        (s.joined o = true → o.val % 2 = 0 → (t.out o).target = max (-255) (min 255 l) ∧
          ((s.out o).dead = 0 → 0 ≤ (s.out o).fine * (t.out o).target →
            (t.out o).fine = (t.out o).target * 256 ∧ (t.out o).running = false) ∧
          ((s.out o).dead = 0 → (s.out o).fine * (t.out o).target < 0 →
            (t.out o).fine = 0 ∧ (t.out o).dead = s.deadInterval (pairOf o) ∧
            (t.out o).running = true) ∧
          (0 < (s.out o).dead → (t.out o).target * 256 ≠ (s.out o).fine →
            t.out o = { s.out o with target := (t.out o).target, remaining := 0, running := true })))

/-! ## Chapter 2: mode, time and rest -/

/-- A PULSE that repeats the effective mode restarts the line-loss timer and sets the clock, and with LINE-LOST
clear changes nothing else but the assembler; with LINE-LOST set it clears it, the lamps are computed anew, and
the LINE-LOST condition ends, after which an idle transmitter chooses (that order is the model's choice: log
entry 18). A PULSE whose mode or time is out of range
has none of these effects. All are passed on. -/
def Obligations.RepeatedPulseSetsClock : Prop :=
  ∀ (env : Envelope) (p : List Byte) (s : State), s.ring.bypass = false → env.src = 0 →
    s.address ≠ 0 → env.dst = 127 ∨ env.dst = s.address → p.length = 4 →
    (modeOfCode (byteAt p 0).toNat = some s.mode.mode → numAt p 1 3 < 86400 → s.mode.lineLost = false →
      exec (.pulse env p) s = .next
        (({ s with ring.assembler := ⟨.trailing, []⟩, ring.lossTimer := some (s.ring.lossUnits * 10)
                   mode.clock := numAt p 1 3, mode.ms := 0 }).passOn (frameOf 0x01 env p))) ∧
    (modeOfCode (byteAt p 0).toNat = some s.mode.mode → numAt p 1 3 < 86400 → s.mode.lineLost = true →
      ∃ u : State, exec (.pulse env p) s = .next
          (((u.conditionEnd .lineLost 0).pump).passOn (frameOf 0x01 env p)) ∧
        (∀ b, u.btn b = { s.btn b with lamp := u.lampFor b }) ∧
        u = { s with
          ring.assembler := ⟨.trailing, []⟩, ring.lossTimer := some (s.ring.lossUnits * 10)
          mode.clock := numAt p 1 3, mode.ms := 0, mode.lineLost := false, mode.localPlay := none
          button.buttons := u.button.buttons }) ∧
    (modeOfCode (byteAt p 0).toNat = none ∨ 86400 ≤ numAt p 1 3 →
      exec (.pulse env p) s = .next
        (({ s with ring.assembler := ⟨.trailing, []⟩ }).passOn (frameOf 0x01 env p)))

/-- A PULSE with another mode sets the mode and the clock, clears LINE-LOST and restarts the line-loss timer; CLOSED
sends an ACTIVE node into CLOSING, from which the rest test may take it into DORMANT at once, and any other mode makes
the node ACTIVE. MODE-ENTRY is offered. At the entry into CLOSING a MOVING channel stops with its park profile, or
nothing, in the slot, and an IDLE one that is not gated, under closed guards, begins its park profile; any other IDLE
one stands. The ceilings of a STOPPING channel, and of a MOVING one that is not parked, are those of its segment under
the new mode. A copy held aside stays aside in all of these. (Of channels that hold a copy.) Where the node is DORMANT
at once (LINE-LOST having been clear), every channel is RESTING from the state it was in, and one with a copy held
aside takes it then. Every lamp is computed anew, and no button changes else. Table memory's words, the management
unit and the guards stand, and, unless the node comes to rest (or was CLOSING with LINE-LOST set), so do the effect
outputs. -/
def Obligations.PulseChangesMode : Prop :=
  ∀ (env : Envelope) (p : List Byte) (m : GalleryMode) (s : State), s.ring.bypass = false →
    env.src = 0 → s.address ≠ 0 → env.dst = 127 ∨ env.dst = s.address → p.length = 4 →
    modeOfCode (byteAt p 0).toNat = some m → numAt p 1 3 < 86400 → m ≠ s.mode.mode →
    s.mode.node ≠ .bypass →
    ∃ t, exec (.pulse env p) s = .next t ∧ t.mode.mode = m ∧ t.mode.clock = numAt p 1 3 ∧
      t.mode.ms = 0 ∧ t.mode.lineLost = false ∧ t.ring.lossTimer = some (s.ring.lossUnits * 10) ∧
      (m ≠ .closed → t.mode.node = .active) ∧
      (m = .closed → s.mode.node = .active → t.mode.node = .closing ∨ t.mode.node = .dormant) ∧
      (s.mode.node ≠ .closing ∨ s.mode.lineLost = false → t.mode.node ≠ .dormant →
        t.effect = s.effect) ∧ t.motion.guards = s.motion.guards ∧
      t.mem.words = s.mem.words ∧ t.mgmt = s.mgmt ∧ t.straps = s.straps ∧ t.sampling = s.sampling ∧
      (s.cue.dispatch ≠ .idle → s.cue.queue.length < 16 →
        t.cue.queue = s.cue.queue ++ [.modeEntry m] ∧ t.cue.dispatch = s.cue.dispatch) ∧
      (16 ≤ s.cue.queue.length → t.cue = s.cue ∧
        t.ring.record.triggerDrops = inc16 s.ring.record.triggerDrops) ∧
      (s.cue.dispatch = .idle → s.cue.queue = [] →
        t.cue.queue = [] ∧ t.cue.dispatch = .scanning (.modeEntry m) 0 []) ∧
      (∀ b, t.btn b = { s.btn b with lamp := t.lampFor b }) ∧
      (m = .closed → s.mode.node = .active → t.mode.node = .dormant → s.mode.lineLost = false →
        ∀ (c : Fin 4) (x : Channel),
          x = { s.chan c with restState := some (s.chan c).state, state := .resting, aside := none } →
          ((s.chan c).aside = none → t.chan c = x) ∧
          (∀ h, (s.chan c).aside = some h → t.chan c = x.replaceHeld h)) ∧
      ∀ (c : Fin 4) (k : ChannelSettings), (s.chan c).held = .copy k →
        (m = .closed → s.mode.node = .active →
          ((s.chan c).state = .moving → (t.chan c).state = .stopping ∧
            (t.chan c).ending = some .stopped ∧ (t.chan c).slot = k.park ∧
            (t.chan c).position = (s.chan c).position ∧ (t.chan c).held = .copy k ∧
            (t.chan c).aside = (s.chan c).aside) ∧
          (∀ q, (s.chan c).state = .idle → k.park = some q → s.gated c = false →
            s.guardsClosed k.guardMap = true → (t.chan c).state = .moving ∧
            (t.chan c).profile = some q ∧ (t.chan c).pass = 1 ∧ (t.chan c).current = none ∧
            (t.chan c).slot = (s.chan c).slot ∧ (t.chan c).position = (s.chan c).position ∧
            (t.chan c).aside = (s.chan c).aside) ∧
          ((s.chan c).state = .idle → t.mode.node ≠ .dormant →
            k.park = none ∨ s.gated c = true ∨ s.guardsClosed k.guardMap = false →
            t.chan c = s.chan c)) ∧
        (∀ (g : Segment) (vc : Nat), (s.chan c).current = some g →
          (s.chan c).state = .stopping ∨
            ((s.chan c).state = .moving ∧ ¬(m = .closed ∧ s.mode.node = .active)) →
          vc = (if m = .quiet then g.cruise * 65536 / 1000 * k.quietPercent / 100
            else g.cruise * 65536 / 1000) →
          t.chan c = { s.chan c with vc := vc, vs := min (k.startSpeed * 65536 / 1000) vc })

/-- A PULSE with OPEN, QUIET or SERVICE wakes a DORMANT node, whether LINE-LOST was set, which is then clear, or not.
Of the channels with a copy and none held aside, a channel that rested IDLE and holds its position without power
becomes IDLE where it stood, any other UNHOMED; then OPEN and QUIET home the enabled auto-home channels that are
UNHOMED, not gated and under closed guards, and a gated one or one under an open guard counts a refusal. -/
def Obligations.PulseWakesNode : Prop :=
  ∀ (env : Envelope) (p : List Byte) (m : GalleryMode) (s : State), s.ring.bypass = false →
    env.src = 0 → s.address ≠ 0 → env.dst = 127 ∨ env.dst = s.address → p.length = 4 →
    modeOfCode (byteAt p 0).toNat = some m → numAt p 1 3 < 86400 → m ≠ .closed →
    s.mode.node = .dormant → s.mode.mode = .closed →
    ∃ t, exec (.pulse env p) s = .next t ∧ t.mode.node = .active ∧ t.effect = s.effect ∧
      t.mode.mode = m ∧ t.mode.lineLost = false ∧ (s.mode.lineLost = true → t.mode.localPlay = none) ∧
      ∀ (c : Fin 4) (k : ChannelSettings), (s.chan c).held = .copy k → (s.chan c).aside = none →
        (s.chan c).state = .resting →
        ((s.chan c).restState = some .idle → k.holdsPosition = true →
          (t.chan c).state = .idle ∧ (t.chan c).position = (s.chan c).position) ∧
        (¬((s.chan c).restState = some .idle ∧ k.holdsPosition = true) →
          (m = .service ∨ k.autoHome = false ∨ k.enabled = false → (t.chan c).state = .unhomed) ∧
          (m ≠ .service → k.autoHome = true → k.enabled = true →
            (s.gated c = false → s.guardsClosed k.guardMap = true →
              (t.chan c).state = .homing ∧ (t.chan c).refused = (s.chan c).refused) ∧
            (s.gated c = true ∨ s.guardsClosed k.guardMap = false →
              (t.chan c).state = .unhomed ∧ (t.chan c).refused = inc16 (s.chan c).refused)))

/-! ## Chapter 3: cues -/

/-- An admitted CUE becomes a LINE-CUE trigger; a TAP or DONE of another node, where its fields are in range,
a PEER-TAP or PEER-DONE trigger, and else nothing. The frame is passed on all the same. -/
def Obligations.FramesBecomeTriggers : Prop :=
  ∀ (env : Envelope) (p : List Byte) (s : State), s.ring.bypass = false → env.src ≠ s.address →
    (env.src = 0 → env.dst = 127 ∨ env.dst = s.address → p.length = 1 →
      exec (.cue env p) s = .next
        ((({ s with ring.assembler := ⟨.trailing, []⟩ }).offerTrigger
          (.lineCue (byteAt p 0))).passOn (frameOf 0x02 env p))) ∧
    (1 ≤ env.src.toNat → env.src.toNat ≤ 120 → p.length = 4 →
      (∀ (b : Fin 16) (k : PressKind), (byteAt p 0).toNat = b.val → (byteAt p 1).toNat = k.code →
        exec (.tap env p) s = .next
          ((({ s with ring.assembler := ⟨.trailing, []⟩ }).offerTrigger
            (.peerTap env.src b k)).passOn (frameOf 0x11 env p))) ∧
      (16 ≤ (byteAt p 0).toNat ∨ 2 ≤ (byteAt p 1).toNat →
        exec (.tap env p) s = .next
          (({ s with ring.assembler := ⟨.trailing, []⟩ }).passOn (frameOf 0x11 env p)))) ∧
    (1 ≤ env.src.toNat → env.src.toNat ≤ 120 → p.length = 7 →
      (∀ (c : Fin 4) (x : Fin 32) (o : EndOutcome), (byteAt p 0).toNat = c.val →
        (byteAt p 1).toNat = x.val → (byteAt p 2).toNat = o.code →
        exec (.done env p) s = .next
          ((({ s with ring.assembler := ⟨.trailing, []⟩ }).offerTrigger
            (.peerDone env.src c o x)).passOn (frameOf 0x12 env p))) ∧
      (4 ≤ (byteAt p 0).toNat ∨ 32 ≤ (byteAt p 1).toNat ∨ 4 ≤ (byteAt p 2).toNat →
        exec (.done env p) s = .next
          (({ s with ring.assembler := ⟨.trailing, []⟩ }).passOn (frameOf 0x12 env p))))

/-- An offered trigger is discarded and counted at a full queue, joins the tail while a dispatch is in
progress, and at an idle engine is taken at once: discarded in HELD, scanned from entry 0 in any other mode.
-/
def Obligations.TriggerIsOffered : Prop :=
  ∀ (s : State) (t : Trigger),
    (16 ≤ s.cue.queue.length →
      s.offerTrigger t = { s with ring.record.triggerDrops := inc16 s.ring.record.triggerDrops }) ∧
    (s.cue.queue.length < 16 → s.cue.dispatch ≠ .idle →
      s.offerTrigger t = { s with cue.queue := s.cue.queue ++ [t] }) ∧
    (s.cue.queue = [] → s.cue.dispatch = .idle → s.mode.mode = .held → s.offerTrigger t = s) ∧
    (s.cue.queue = [] → s.cue.dispatch = .idle → s.mode.mode ≠ .held →
      s.offerTrigger t = ({ s with cue.dispatch := .scanning t 0 [] }).arbitrate)

/-- A delivered cue word: the first condition word is kept; with the second, the entry fires if it is enabled, matches
and is live, and is else skipped; the last action word of a firing entry starts its actions; a damaged word raises
TABLE-DAMAGE for region 5 and skips the entry. Past an entry before 63 the scan goes on, the waiting triggers
standing. Past entry 63 it ends: with none waiting the engine is idle; else the scan of the one at the head begins at
entry 0, or in HELD every one is discarded. What the condition and action words say (the first two words of an entry
being its condition, however many follow), and when one is damaged (an uncorrectable word or an invalid code); when an
entry matches a trigger record; and when it is live. A field is the bits of its place as a number. (That both
condition words are in hand before either is judged: log entry 14.) -/
def Obligations.ScanReadsEntry : Prop :=
  (∀ (w : Word) (lo n : Nat), field w lo n = w.toNat / 2 ^ lo % 2 ^ n) ∧
  (∀ (w0 w1 : Word) (t A B C n q : Nat), t = field w0 24 3 → A = field w0 16 8 → B = field w0 8 8 →
    C = field w0 0 8 → n = field w1 16 3 → q = field w1 8 8 →
    conditionOfWords [⟨w0, false⟩, ⟨w1, false⟩] =
      (if 6 ≤ t ∨ ((t = 1 ∨ t = 2) ∧ (A = 0 ∨ (120 < A ∧ A ≠ 255))) ∨ (t = 1 ∧ 16 ≤ B ∧ B ≠ 255) ∨
          (t = 3 ∧ 16 ≤ B) ∨ ((t = 2 ∨ t = 4) ∧ 4 ≤ B) ∨ ((t = 1 ∨ t = 3) ∧ 2 ≤ C) ∨
          ((t = 2 ∨ t = 4) ∧ 32 ≤ C ∧ C ≠ 255) ∨ (t = 5 ∧ (C = 0 ∨ 5 ≤ C)) ∨
          (4 ≤ q ∧ q ≠ 255) ∨ n = 0 ∨ 5 ≤ n then none
      else some ⟨w0.getLsbD 31, t, A, B, C, w1.setWidth 4,
        if q = 255 then none else some (Fin.ofNat 4 q), n⟩)) ∧
  (∀ (d0 d1 : Delivered) (ds : List Delivered),
    (d0.bad = true ∨ d1.bad = true → conditionOfWords [d0, d1] = none) ∧
    conditionOfWords (d0 :: d1 :: ds) = conditionOfWords [d0, d1]) ∧
  (∀ (w : Word) (f : Nat → Nat → Nat), f = field w →
    (7 ≤ f 28 4 → actionOfWord ⟨w, false⟩ = none) ∧
    (f 28 4 = 0 → actionOfWord ⟨w, false⟩ =
      some (.start (Fin.ofNat 4 (f 16 2)) (Fin.ofNat 32 (f 0 5)))) ∧
    (f 28 4 = 1 → actionOfWord ⟨w, false⟩ = some (.stop (w.setWidth 4))) ∧
    (f 28 4 = 2 → actionOfWord ⟨w, false⟩ = some (.home (w.setWidth 4))) ∧
    (∀ l : Int, l = (if f 16 9 < 256 then (f 16 9 : Int) else (f 16 9 : Int) - 512) → f 28 4 = 3 →
      actionOfWord ⟨w, false⟩ =
        some (.effect (Fin.ofNat 8 (f 25 3)) (max (-255) (min 255 l)) (w.setWidth 16))) ∧
    (f 28 4 = 4 → actionOfWord ⟨w, false⟩ = (if f 8 2 = 3 then none else
      some (.call (Fin.ofNat 16 (f 0 4))
        (if f 8 2 = 0 then .notice else if f 8 2 = 1 then .attend else .urgent)))) ∧
    (f 28 4 = 5 → actionOfWord ⟨w, false⟩ = some (.lock (w.setWidth 16))) ∧
    (f 28 4 = 6 → actionOfWord ⟨w, false⟩ = some (.unlock (w.setWidth 16)))) ∧
  (∀ (d : Delivered) (ds : List Delivered) (a : Action) (as : List Action),
    (d.bad = true → actionOfWord d = none) ∧ actionsOfWords [] = some [] ∧
    (actionOfWord d = none ∨ actionsOfWords ds = none → actionsOfWords (d :: ds) = none) ∧
    (actionOfWord d = some a → actionsOfWords ds = some as → actionsOfWords (d :: ds) = some (a :: as))) ∧
  (∀ (s : State) (k : Condition),
    (∀ n, matchesTrigger k (.lineCue n) = true ↔ k.kind = 0 ∧ k.opA = n.toNat) ∧
    (∀ n b p, matchesTrigger k (.peerTap n b p) = true ↔ k.kind = 1 ∧
      (k.opA = 255 ∨ k.opA = n.toNat) ∧ (k.opB = 255 ∨ k.opB = b.val) ∧
      k.opC = (match p with | .short => 0 | .hold => 1)) ∧
    (∀ n c o p, matchesTrigger k (.peerDone n c o p) = true ↔ k.kind = 2 ∧
      (k.opA = 255 ∨ k.opA = n.toNat) ∧ k.opB = c.val ∧ (k.opC = 255 ∨ k.opC = p.val) ∧
      o = .completed) ∧
    (∀ b p, matchesTrigger k (.localPress b p) = true ↔ k.kind = 3 ∧ k.opB = b.val ∧
      k.opC = (match p with | .short => 0 | .hold => 1)) ∧
    (∀ c o p, matchesTrigger k (.localDone c o p) = true ↔ k.kind = 4 ∧ k.opB = c.val ∧
      (k.opC = 255 ∨ k.opC = p.val) ∧ o = .completed) ∧
    (∀ m, matchesTrigger k (.modeEntry m) = true ↔ k.kind = 5 ∧
      k.opC = (match m with | .held => 0 | .opened => 1 | .quiet => 2 | .closed => 3 | .service => 4)) ∧
    (s.live k = true ↔ k.enabled = true ∧
      ((s.mode.mode = .opened ∧ k.modeSet.getLsbD 0 = true) ∨
        (s.mode.mode = .quiet ∧ k.modeSet.getLsbD 1 = true) ∨
        (s.mode.mode = .closed ∧ k.modeSet.getLsbD 2 = true) ∨
        (s.mode.mode = .service ∧ k.modeSet.getLsbD 3 = true)) ∧
      ∀ c, k.requireIdle = some c → (s.chan c).state = .idle)) ∧
  ∀ (s : State) (i e : Nat) (t : Trigger) (got : List Delivered) (next : CueEngine),
    s.mem.access = some ⟨.cueRead, i, false⟩ → s.cue.dispatch = .scanning t e got →
    (next = if e < 63 then { s.cue with dispatch := .scanning t (e + 1) [] } else
      match s.cue.queue with
      | [] => { s.cue with dispatch := .idle }
      | u :: rest => if s.mode.mode = .held then { s.cue with dispatch := .idle, queue := [] }
        else { s.cue with dispatch := .scanning u 0 [], queue := rest }) →
    (got = [] → exec .cueRead s = .next
      ({ s.readFor i .cue with cue.dispatch := .scanning t e [s.wordAt i] }).endAccess) ∧
    (∀ d0 k, got = [d0] → conditionOfWords [d0, s.wordAt i] = some k →
      exec .cueRead s = .next
        ({ s.readFor i .cue with
          cue := if k.enabled = true ∧ matchesTrigger k t = true ∧ s.live k = true then
            { s.cue with dispatch := .scanning t e [d0, s.wordAt i] } else next }).endAccess) ∧
    (∀ d0, got = [d0] → conditionOfWords [d0, s.wordAt i] = none →
      exec .cueRead s = .next
        ({ (s.readFor i .cue).raise .tableDamage 5 with cue := next }).endAccess) ∧
    (∀ d0 d1 ds k, got = d0 :: d1 :: ds → conditionOfWords got = some k → got.length + 1 < 2 + k.count →
      exec .cueRead s = .next
        ({ s.readFor i .cue with cue.dispatch := .scanning t e (got ++ [s.wordAt i]) }).endAccess) ∧
    (∀ d0 d1 ds k acts, got = d0 :: d1 :: ds → conditionOfWords got = some k →
      got.length + 1 = 2 + k.count → actionsOfWords (ds ++ [s.wordAt i]) = some acts →
      exec .cueRead s = .next
        ({ s.readFor i .cue with cue.dispatch := .performing t e acts 0 }).endAccess) ∧
    (∀ d0 d1 ds k, got = d0 :: d1 :: ds → conditionOfWords got = some k →
      got.length + 1 = 2 + k.count → actionsOfWords (ds ++ [s.wordAt i]) = none →
      exec .cueRead s = .next
        ({ (s.readFor i .cue).raise .tableDamage 5 with cue := next }).endAccess)

/-- Once a block has taken the action the engine hands on, the engine goes on to the next action of the entry,
to the next entry, or, after entry 63, to the scan of the next waiting trigger; with none waiting it is idle, and in
HELD every waiting one is discarded; no other action moves it. An action whose
dispatch a reset abandoned, or whose entry a PUT had read again (the one being handed on then, or one so recalled
before), is not performed when its command comes after that: nothing but the mark of it changes (the mark: log
entry 10). -/
def Obligations.ActionIsHandedOn : Prop :=
  ∀ (s : State) (a : Action) (t : Trigger) (i n : Nat) (acts : List Action),
    (s.nextAction ≠ some a → s.handOn a = s) ∧
    (s.cue.dispatch = .performing t i acts n → s.nextAction = acts[n]?) ∧
    (s.cue.dispatch = .performing t i acts n → acts[n]? = some a →
      (n + 1 < acts.length →
        s.handOn a = ({ s with cue.dispatch := .performing t i acts (n + 1) }).arbitrate) ∧
      (n + 1 = acts.length → i < 63 →
        s.handOn a = ({ s with cue.dispatch := .scanning t (i + 1) [] }).arbitrate) ∧
      (n + 1 = acts.length → 63 ≤ i →
        (s.cue.queue = [] → s.handOn a = ({ s with cue.dispatch := .idle }).arbitrate) ∧
        (s.mode.mode = .held →
          s.handOn a = ({ s with cue.dispatch := .idle, cue.queue := [] }).arbitrate) ∧
        (∀ u rest, s.mode.mode ≠ .held → s.cue.queue = u :: rest → s.handOn a =
          ({ s with cue.dispatch := .scanning u 0 [], cue.queue := rest }).arbitrate))) ∧
    (s.recalls a = true ↔ s.cue.recalled = some a ∧ s.nextAction ≠ some a) ∧
    (s.nextAction = some a → s.recalledBy = some a) ∧
    (s.nextAction = none → s.recalledBy = s.cue.recalled) ∧
    (s.recalls a = true → ∀ c : Instr,
      (∃ x y, c = .start x y ∧ a = .start x y) ∨ (∃ x, c = .stop x ∧ a = .stop x) ∨
        (∃ x, c = .home x ∧ a = .home x) ∨ (∃ x y z, c = .effect x y z ∧ a = .effect x y z) ∨
        (∃ x y, c = .call x y ∧ a = .call x y) ∨ (∃ x, c = .lock x ∧ a = .lock x) ∨
        (∃ x, c = .unlock x ∧ a = .unlock x) →
      exec c s = .next { s with cue.recalled := none })

/-- LOCK locks the PLAIN buttons of its mask (a button without a copy, or with a DAMAGED one, being taken as PLAIN:
log entry 17) and UNLOCK unlocks the buttons of its mask; their lamps are computed anew, and nothing else of any
button, and nothing of another unit but the dispatch, changes. (An action that no reset and no PUT recalled:
`ActionIsHandedOn` says what a recalled one does, and what the dispatch becomes.) The lamp called for: OFF for a
button that is not enabled; for a HELP button with a record that waits to be seen HELP-FAST, with another HELP-STEADY;
else OFF for one that is locked or whose presses are ignored; else READY where a press would be dispatched and the
lamp channel, if there is one, is IDLE and not gated; else WAIT. -/
def Obligations.LocksFollowMask : Prop :=
  (∀ (mask : BitVec 16) (lock : Bool) (s : State),
    s.recalls (if lock then .lock mask else .unlock mask) = false →
    ∃ t, exec (if lock then .lock mask else .unlock mask) s = .next t ∧
      (∀ b, t.btn b = { s.btn b with
        lock := if mask.getLsbD b.val = true ∧ ((s.btn b).help = false ∨ lock = false) then lock
          else (s.btn b).lock
        lamp := if mask.getLsbD b.val = true ∧ ((s.btn b).help = false ∨ lock = false) then t.lampFor b
          else (s.btn b).lamp }) ∧
      t = { s with button.buttons := t.button.buttons, cue := t.cue, mem := t.mem } ∧
      t = ({ s with button.buttons := t.button.buttons }).handOn
        (if lock then .lock mask else .unlock mask) ∧
      t.mem.words = s.mem.words) ∧
  ∀ (s : State) (b : Fin 16), s.lampUpdate b = s.withBtn b { s.btn b with lamp := s.lampFor b } ∧
    ((s.btn b).held = .absent ∨ (s.btn b).held = .damaged → s.lampFor b = .off) ∧
    ∀ k, (s.btn b).held = .copy k →
      (k.enabled = false → s.lampFor b = .off) ∧
      (∀ i r, k.enabled = true → k.help = true → s.findRecord .help b.val = some i →
        s.slotAt i = some r →
          s.lampFor b = if r.state = .raised ∨ r.state = .called then .helpFast else .helpSteady) ∧
      (k.enabled = true → k.help = false ∨ s.findRecord .help b.val = none →
        ((s.btn b).lock = true ∨ s.pressAnswer k.help = .ignored → s.lampFor b = .off) ∧
        ((s.btn b).lock = false → s.pressAnswer k.help = .reported → s.lampFor b = .wait) ∧
        ((s.btn b).lock = false → s.pressAnswer k.help = .dispatched →
          ((s.btn b).phase ≠ .stuck → (s.btn b).allowance ≠ some 0 →
            (∀ c, k.lampChannel = some c → (s.chan c).state = .idle ∧ s.gated c = false) →
            s.lampFor b = .ready) ∧
          ((s.btn b).phase = .stuck ∨ (s.btn b).allowance = some 0 ∨
            (∃ c, k.lampChannel = some c ∧ ((s.chan c).state ≠ .idle ∨ s.gated c = true)) →
            s.lampFor b = .wait)))

/-! ## Chapter 4: buttons -/

/-- The debounced closing of a button: with an enabled copy the closure is timed, and the press is taken at
once where the hold time is 0; with none the closure settles, without stuck timing. (That the closure time, and the
hold and stuck times in force, of a closure that is not timed keep their values is the model's choice: log
entry 17.) -/
def Obligations.ClosureIsAccepted : Prop :=
  ∀ (b : Fin 16) (s : State), s.sampling = true → (s.btn b).primed = true → (s.btn b).closed = false →
    (∀ k, (s.btn b).held = .copy k → k.enabled = true → k.hold ≠ 0 →
      exec (.acceptedClosure b) s = .next (s.withBtn b { s.btn b with
        closed := true, pin := true, count := 0, phase := .timing, closure := 0
        holdInForce := k.hold, stuckInForce := k.stuck, stuckTiming := true })) ∧
    (∀ k, (s.btn b).held = .copy k → k.enabled = true → k.hold = 0 →
      exec (.acceptedClosure b) s = .next ((s.withBtn b { s.btn b with
        closed := true, pin := true, count := 0, phase := .settled, closure := 0
        holdInForce := 0, stuckInForce := k.stuck, stuckTiming := true }).takePress b .short 0)) ∧
    ((s.btn b).enabled = false →
      exec (.acceptedClosure b) s = .next (s.withBtn b { s.btn b with
        closed := true, pin := true, count := 0, phase := .settled, stuckTiming := false }))

/-- The debounced opening of a button: in TIMING a SHORT press with the closure time in 10 ms units, at
least 1; in SETTLED nothing more; in STUCK the BUTTON-STUCK condition ends. (That the hold time and the stuck time in
force then stand, to which R62 to R64 give no value, is the model's choice: log entry 17. The closure time that the
button then holds is left open here: `ClosureTimesOut` says it.) -/
def Obligations.ReleaseIsAccepted : Prop :=
  ∀ (b : Fin 16) (s : State), s.sampling = true → (s.btn b).primed = true →
    (s.btn b).closed = true → ∃ left : Nat, ∀ u, u = s.withBtn b { s.btn b with
      closed := false, pin := false, count := 0, phase := .released, stuckTiming := false
      closure := left } →
    ((s.btn b).phase = .timing → exec (.acceptedRelease b) s = .next
      (u.takePress b .short (min 65535 (max 1 ((s.btn b).closure / 10))))) ∧
    ((s.btn b).phase = .settled → exec (.acceptedRelease b) s = .next u) ∧
    ((s.btn b).phase = .stuck → exec (.acceptedRelease b) s = .next
      ((u.conditionEnd .buttonStuck b.val).lampUpdate b))

/-- The hold time in TIMING makes a HOLD press of its own length in 10 ms units; the stuck time makes the
closure STUCK, taking a HOLD press first where the closure is still in TIMING (that it does so for unequal times
too is log entry 17). (The model's choices: that the closure time is raised to the hold or the stuck time where the
command comes before it: log entry 8; that a release leaves the closure time, and the hold and stuck time in force, as
they stand: log entry 17.) -/
def Obligations.ClosureTimesOut : Prop :=
  ∀ (b : Fin 16) (s : State),
    (s.sampling = true → (s.btn b).primed = true → (s.btn b).closed = true →
      ∃ t, exec (.acceptedRelease b) s = .next t ∧ (t.btn b).closed = false ∧
        (t.btn b).phase = .released ∧ (t.btn b).closure = (s.btn b).closure ∧
        (t.btn b).holdInForce = (s.btn b).holdInForce ∧
        (t.btn b).stuckInForce = (s.btn b).stuckInForce) ∧
    ((s.btn b).phase = .timing → exec (.holdTimeReached b) s = .next
      ((s.withBtn b { s.btn b with
        phase := .settled, closure := max (s.btn b).closure ((s.btn b).holdInForce * 100) }).takePress
          b .hold (10 * (s.btn b).holdInForce))) ∧
    ((s.btn b).stuckTiming = true → (s.btn b).phase = .settled →
      exec (.stuckTimeReached b) s = .next
        (((s.withBtn b { s.btn b with
          phase := .stuck, stuckTiming := false
          closure := max (s.btn b).closure ((s.btn b).stuckInForce * 1000) }).raise
            .buttonStuck b.val).lampUpdate b)) ∧
    ((s.btn b).stuckTiming = true → (s.btn b).phase = .timing →
      ∃ t u, exec (.holdTimeReached b) s = .next t ∧ exec (.stuckTimeReached b) s = .next u ∧
        u = ((t.withBtn b { t.btn b with
          phase := .stuck, stuckTiming := false
          closure := max (t.btn b).closure ((t.btn b).stuckInForce * 1000) }).raise
            .buttonStuck b.val).lampUpdate b)

/-- A press of an enabled PLAIN button: without effect where the button is locked or the mode ignores it; a TAP alone
where the mode reports it; where the mode dispatches it, the allowance test. A press of an enabled HELP button raises
HELP first, in every mode, and then meets mode and allowance. A press of a button that is not enabled has no effect.
The allowance test: a unit is consumed, the TAP sent and a LOCAL-PRESS trigger offered, or, with the allowance
exhausted, the press is spent. A TAP, of a button that reports its presses, carries button, kind and duration, and is
offered to the insertion queue. The mode's answer: in HELD every press is ignored; a HELP press is reported in SERVICE
and else dispatched; a PLAIN one is ignored in CLOSED, and, while the line is lost without local-play, in every mode;
else it is dispatched in OPEN and QUIET and reported in SERVICE. (This states R65. The mode's answer, the TAP and the
allowance test, to which R65 refers, are those of R26, R27, R66, R68 and R69, stated here as far as a press meets
them.) -/
def Obligations.PressIsTaken : Prop :=
  (∀ (s : State) (help : Bool),
    (s.mode.mode = .held → s.pressAnswer help = .ignored) ∧
    (s.mode.mode = .opened ∨ s.mode.mode = .quiet ∨ s.mode.mode = .closed →
      s.pressAnswer true = .dispatched) ∧
    (s.mode.mode = .service → s.pressAnswer true = .reported) ∧
    (s.mode.mode = .closed ∨ (s.mode.lineLost = true ∧ s.mode.localPlay ≠ some true) →
      s.pressAnswer false = .ignored) ∧
    (s.mode.lineLost = false ∨ s.mode.localPlay = some true →
      (s.mode.mode = .opened ∨ s.mode.mode = .quiet → s.pressAnswer false = .dispatched) ∧
      (s.mode.mode = .service → s.pressAnswer false = .reported))) ∧
  (∀ (s : State) (b : Fin 16) (k : ButtonSettings) (kind : PressKind) (n : Nat),
    s.sendTap b k kind n = (if k.reportTap then
      s.offerOwn ⟨0x11, 0, s.address, BitVec.ofNat 8 s.ring.hopLimit, [BitVec.ofNat 8 b.val,
        (match kind with | .short => 0 | .hold => 1), BitVec.ofNat 8 (n / 256), BitVec.ofNat 8 n]⟩
      else s) ∧
    ((s.btn b).allowance = none → s.allowanceTest b k kind n =
      (s.sendTap b k kind n).offerTrigger (.localPress b kind)) ∧
    (∀ m, (s.btn b).allowance = some (m + 1) → s.allowanceTest b k kind n =
      ((s.withBtn b { s.btn b with
        allowance := some m, spentRun := 0
        refill := if m + 1 = k.allowance then some (k.refill * 100) else (s.btn b).refill }).sendTap
          b k kind n).offerTrigger (.localPress b kind)) ∧
    ((s.btn b).allowance = some 0 → s.allowanceTest b k kind n =
      (if k.rough ≠ 0 ∧ k.rough ≤ inc8 (s.btn b).spentRun then
        (s.withBtn b { s.btn b with spentRun := inc8 (s.btn b).spentRun, rough := true }).raise
          .roughHandling b.val
      else s.withBtn b { s.btn b with spentRun := inc8 (s.btn b).spentRun }))) ∧
  ∀ (s : State) (b : Fin 16) (k : ButtonSettings) (kind : PressKind) (n : Nat),
    (s.btn b).held = .copy k → (k.enabled = false → s.takePress b kind n = s) ∧
    (k.enabled = true → k.help = true → s.mode.mode = .held →
      s.takePress b kind n = (s.raise .help b.val).lampUpdate b) ∧
    (k.enabled = true → k.help = true → s.mode.mode = .service →
      s.takePress b kind n = ((s.raise .help b.val).sendTap b k kind n).lampUpdate b) ∧
    (k.enabled = true → k.help = true →
      s.mode.mode = .opened ∨ s.mode.mode = .quiet ∨ s.mode.mode = .closed →
      s.takePress b kind n = ((s.raise .help b.val).allowanceTest b k kind n).lampUpdate b) ∧
    (k.enabled = true → k.help = false →
      ((s.btn b).lock = true ∨ s.pressAnswer false = .ignored →
        s.takePress b kind n = s.lampUpdate b) ∧
      ((s.btn b).lock = false → s.pressAnswer false = .reported →
        s.takePress b kind n = (s.sendTap b k kind n).lampUpdate b) ∧
      ((s.btn b).lock = false → s.pressAnswer false = .dispatched →
        s.takePress b kind n = (s.allowanceTest b k kind n).lampUpdate b))

/-- The expiry of a refill timer that has run out restores one unit, and the timer goes on; with the last unit it
stops, and a rough button's ROUGH-HANDLING condition ends. A timer that is stopped, or has time left, does not expire.
-/
def Obligations.RefillRestoresUnit : Prop :=
  (∀ (b : Fin 16) (s : State), (s.btn b).refill ≠ some 0 → exec (.refillExpiry b) s = .next s) ∧
  ∀ (b : Fin 16) (s : State) (k : ButtonSettings) (n : Nat), (s.btn b).held = .copy k →
    (s.btn b).allowance = some n → (s.btn b).refill = some 0 →
    (n + 1 < k.allowance → exec (.refillExpiry b) s = .next
      ((s.withBtn b { s.btn b with
        allowance := some (n + 1), refill := some (k.refill * 100) }).lampUpdate b)) ∧
    (k.allowance ≤ n + 1 → (s.btn b).rough = false → exec (.refillExpiry b) s = .next
      ((s.withBtn b { s.btn b with allowance := some k.allowance, refill := none }).lampUpdate b)) ∧
    (k.allowance ≤ n + 1 → (s.btn b).rough = true → exec (.refillExpiry b) s = .next
      (((s.withBtn b { s.btn b with
        allowance := some k.allowance, refill := none, rough := false }).conditionEnd
          .roughHandling b.val).lampUpdate b))

/-- What the words of a button entry say, and when it is damaged. A word of it before the last is kept. The last: the
held copy is replaced, a damaged entry raising TABLE-DAMAGE, and the block asks for the next entry it owes. Enabled
from set to clear, or becoming DAMAGED: the press is abandoned, the stuck and rough conditions end, the allowance is
full, spent run and refill are dropped. Enabled from clear to set, or a first enabled copy: stuck timing counts from
this moment on a closed button under the new stuck time; the allowance is full, the refill stopped; a max then changed
acts as well. A changed kind abandons a press in TIMING, and HELP unlocks. A changed allowance max drops the count,
starts it full, or lessens it, filling the timer below the new max; kind and max may change together. A copy with
these three fields unchanged keeps the rest of the button, whose lamp is computed anew in every case. (The model's
choices: the count after becoming DAMAGED is full of the old max; where enabled and the max change together the
enabling or disabling decides the count and the refill timer; at a disabling, and at a changed kind, the closure time
and the hold and stuck times in force stand: log entry 17. At an enabling the hold time in force stands, and with the
button open the closure time and the stuck time in force: log entry 21. The ends and the raise come in one order: log
entry 18. A first copy that is not enabled gives the count, full: log entry 28. The damaged entry is raised at its
last word: log entry 15.) -/
def Obligations.ButtonEntryIsTaken : Prop :=
  (∀ (w0 w1 w2 w3 : Word) (lamp : Nat), lamp = field w0 8 8 →
    buttonOfWords [⟨w0, false⟩, ⟨w1, false⟩, ⟨w2, false⟩, ⟨w3, false⟩] =
      (if 4 ≤ lamp ∧ lamp ≠ 255 then .damaged else .copy
        { enabled := w0.getLsbD 0, help := w0.getLsbD 1, reportTap := w0.getLsbD 2
          lampChannel := if lamp = 255 then none else some (Fin.ofNat 4 lamp)
          debounce := max 1 (min 50 (field w1 0 8))
          hold := if field w1 8 8 = 0 then 0 else max 5 (min 100 (field w1 8 8))
          stuck := max 10 (min 120 (field w1 16 8)), allowance := min 15 (field w2 0 8)
          rough := min 15 (field w2 8 8), refill := max 1 (min 255 (field w2 16 8)) })) ∧
  (∀ d0 d1 d2 d3 : Delivered, d0.bad = true ∨ d1.bad = true ∨ d2.bad = true ∨ d3.bad = true →
    buttonOfWords [d0, d1, d2, d3] = .damaged) ∧
  ∀ (s : State) (i : Nat) (b : Fin 16) (x : Button) (got : List Delivered) (rest : List Ask)
    (h : Held ButtonSettings),
    s.mem.access = some ⟨.settings .button, i, false⟩ →
    s.mem.path = ⟨⟨.button, b.val⟩, got⟩ :: rest → x = s.btn b →
    h = buttonOfWords (got ++ [s.wordAt i]) →
    (got.length < 3 → exec .buttonSettingsRead s = .next
      ({ s.readFor i .button with
        mem.path := ⟨⟨.button, b.val⟩, got ++ [s.wordAt i]⟩ :: rest }).endAccess) ∧
    (got.length = 3 →
    ∃ t, exec .buttonSettingsRead s = .next t ∧ (t.btn b).held = h ∧
      t.mem.path = (({ s with mem.path := rest }).ask).mem.path ∧
      t.mem.owed = (({ s with mem.path := rest }).ask).mem.owed ∧
      (∀ y, y ≠ b → (t.btn y).held = (s.btn y).held ∧ (t.btn y).phase = (s.btn y).phase ∧
        (t.btn y).lock = (s.btn y).lock ∧ (t.btn y).allowance = (s.btn y).allowance) ∧
      (h = .damaged → (t.findRecord .tableDamage 4).isSome = true ∨ t.alert.overflow = true) ∧
      (∀ j, x.held = .copy j → h = .damaged → t.btn b = { x with
        held := h, phase := if x.closed then .settled else .released, stuckTiming := false
        rough := false, spentRun := 0, refill := none
        allowance := if j.allowance = 0 then none else some j.allowance, lamp := t.lampFor b } ∧
        (∀ m r, (m = .buttonStuck ∧ x.phase = .stuck) ∨ (m = .roughHandling ∧ x.rough = true) →
          s.findRecord m b.val = some r →
            t.slotAt r = none ∨ ∃ y, t.slotAt r = some y ∧ (y.state = .clearing ∨ y.cause = .tableDamage))) ∧
      (∀ k, h = .copy k → k.enabled = true → ∀ (old : Nat) (changed : Bool),
        (changed = false ∧ (x.held = .absent ∨ x.held = .damaged)) ∨
          (∃ j, x.held = .copy j ∧ j.enabled = false ∧ old = j.allowance ∧
            changed = decide (old ≠ k.allowance)) →
        t.btn b = { x with
          held := h, phase := if x.closed then .settled else .released, stuckTiming := x.closed
          closure := if x.closed then 0 else x.closure
          stuckInForce := if x.closed then k.stuck else x.stuckInForce
          lock := x.lock && !k.help, refill := none
          allowance := if k.allowance = 0 then none else some k.allowance
          spentRun := if changed = true ∧ k.allowance = 0 then 0 else x.spentRun
          rough := x.rough && !(changed && decide (k.allowance ≤ x.allowance.getD 0))
          lamp := t.lampFor b }) ∧
      (∀ k, h = .copy k → k.enabled = false → x.held = .absent ∨ x.held = .damaged →
        t.btn b = { x with
          held := h, lock := x.lock && !k.help
          allowance := if k.allowance = 0 then none else some k.allowance, lamp := t.lampFor b }) ∧
      (∀ j k, x.held = .copy j → h = .copy k →
        (j.enabled = true → k.enabled = false →
          t.btn b = { x with
            held := h, phase := if x.closed then .settled else .released, stuckTiming := false
            rough := false, spentRun := 0, refill := none, lock := x.lock && !k.help
            allowance := if k.allowance = 0 then none else some k.allowance, lamp := t.lampFor b } ∧
          (∀ m r, (m = .buttonStuck ∧ x.phase = .stuck) ∨ (m = .roughHandling ∧ x.rough = true) →
            s.findRecord m b.val = some r →
              t.slotAt r = none ∨ ∃ y, t.slotAt r = some y ∧ y.state = .clearing)) ∧
        (j.enabled = k.enabled → j.allowance = k.allowance →
          (j.help = k.help → t.btn b = { x with held := h, lamp := t.lampFor b }) ∧
          (j.help ≠ k.help → t.btn b = { x with
            held := h, phase := if x.phase = .timing then .settled else x.phase
            lock := x.lock && !k.help, lamp := t.lampFor b })) ∧
        (∀ z : Button, z = (if j.help = k.help then x else { x with
            phase := if x.phase = .timing then .settled else x.phase, lock := x.lock && !k.help }) →
          j.enabled = k.enabled → j.allowance ≠ k.allowance →
          (k.allowance = 0 → t.btn b = { z with
            held := h, allowance := none, spentRun := 0, refill := none, rough := false
            lamp := t.lampFor b }) ∧
          (k.allowance ≠ 0 → x.allowance = none → t.btn b = { z with
            held := h, allowance := some k.allowance, lamp := t.lampFor b }) ∧
          (∀ n, k.allowance ≠ 0 → x.allowance = some n →
            (k.allowance ≤ n → t.btn b = { z with
              held := h, allowance := some k.allowance, refill := none, rough := false
              lamp := t.lampFor b }) ∧
            (n < k.allowance → t.btn b = { z with
              held := h, refill := some (x.refill.getD (k.refill * 100)), lamp := t.lampFor b })))) ∧
      t.mem.words = s.mem.words ∧ t.motion.guards = s.motion.guards ∧ t.cue = s.cue)

/-- At a millisecond count of 999 the clock advances one second, from 86399 to 0, with the count back at 0; below it,
as after a PULSE that came first, the advance does not happen. A blinking pattern
passes from its on half to its off half and back; a beacon or sounder pattern switches
its output at the end of a part, and a steady or unlit output has no parts. A lamp output is off in OFF, on in READY
and in HELP steady, and in WAIT and HELP fast on through the first half of its pattern, which all lamps share. -/
def Obligations.ClockAndPatternsAdvance : Prop :=
  ∀ s : State,
    (999 ≤ s.mode.ms → exec .clockSecond s = .next
      { s with mode.ms := 0
               mode.clock := if s.mode.clock = 86399 then 0 else (s.mode.clock + 1) % 86400 }) ∧
    (s.mode.ms < 999 → exec .clockSecond s = .next s) ∧
    exec (.lampPatternPhase .wait) s = .next
      { s with button.waitCtr := if s.button.waitCtr < 500 then 500 else 0 } ∧
    exec (.lampPatternPhase .fast) s = .next
      { s with button.fastCtr := if s.button.fastCtr < 125 then 125 else 0 } ∧
    (s.alert.beacon = some .notice ∨ s.alert.beacon = some .attend →
      exec (.beaconPatternPhase .beacon) s = .next
        { s with alert.beaconOn := !s.alert.beaconOn, alert.beaconCtr := 0 }) ∧
    (s.alert.beacon = none ∨ s.alert.beacon = some .urgent →
      exec (.beaconPatternPhase .beacon) s = .next s) ∧
    (s.alert.beacon = some .urgent → exec (.beaconPatternPhase .sounder) s = .next
      { s with alert.sounderOn := !s.alert.sounderOn, alert.sounderCtr := 0 }) ∧
    (s.alert.beacon ≠ some .urgent → exec (.beaconPatternPhase .sounder) s = .next s) ∧
    ∀ b, ((s.btn b).lamp = .off → s.lampPin b = false) ∧ ((s.btn b).lamp = .ready → s.lampPin b = true) ∧
      ((s.btn b).lamp = .wait → (s.lampPin b = true ↔ s.button.waitCtr < 500)) ∧
      ((s.btn b).lamp = .helpFast → (s.lampPin b = true ↔ s.button.fastCtr < 125)) ∧
      ((s.btn b).lamp = .helpSteady → s.lampPin b = true)

/-! ## Chapter 8: alerts -/

/-- A raise: a new matter takes the lowest empty slot at the handed or the start level, RAISED, report due; a matter
in the table is raised again: its report falls due again, an ACKNOWLEDGED or CLEARING record returns to RAISED with
its escalation timer stopped, and a RAISED or CALLED one keeps its state and timer; at a full table the overflow flag
is set. Every other slot stands, unless an idle transmitter finds its report due and calls it. A latched raise fills
an empty snapshot. An idle transmitter may call the record at once, and does where LINE-LOST is clear, no relay frame
goes first, and no other due record is of a higher level, or of the same in a lower slot: its CALL goes out, and it is
CALLED with its escalation timer started and its report no longer due. No other unit's state but that of the channels
and lamps it concerns, and of the frames in the ring port, changes. A CALL action raises CUED-CALL for its code, at
its level in place of the start level, unless a reset recalled it (`ActionIsHandedOn`). -/
def Obligations.RaiseIsRecorded : Prop :=
  (∀ (code : Fin 16) (level : Level) (s : State), s.recalls (.call code level) = false →
    exec (.call code level) s = .next ((s.raiseWith .cuedCall code.val (some level) none).handOn (.call code level))) ∧
  ∀ (s t : State) (c : Cause) (n : Nat) (lvl : Option Level) (info : Option ChanInfo),
    t = s.raiseWith c n lvl info →
    (∀ i, s.findRecord c n = none → s.emptySlot = some i →
      ∃ r, t.slotAt i = some r ∧ r.cause = c ∧ r.subject = n ∧
        r.level = lvl.getD (s.causeSettings c).level ∧
        ((r.state = .raised ∧ r.due = true ∧ r.timer = none) ∨
          (s.ring.bypass = false ∧ s.ring.sending = none ∧ s.mode.lineLost = false ∧
            r.state = .called ∧ r.due = false ∧
            r.timer = (if (s.causeSettings c).esc = 0 then none
              else some ((s.causeSettings c).esc * 10000)) ∧
            t.ring.sending = some ⟨0x13, 0, s.address, BitVec.ofNat 8 s.ring.hopLimit,
              [BitVec.ofNat 8 i.val, BitVec.ofNat 8 c.code.val, BitVec.ofNat 8 n,
                BitVec.ofNat 8 (levelCode r.level), 0, 0, 0] ++ bytesBE 3 s.mode.clock⟩)) ∧
        (s.ring.bypass = false → s.ring.sending = none → s.mode.lineLost = false →
          s.ring.relay = [] ∨ 4 ≤ s.ring.relayCount →
          (∀ j q, s.slotAt j = some q → q.due = true → levelCode q.level < levelCode r.level ∨
            (q.level = r.level ∧ i < j)) → r.state = .called) ∧
        r.condition = !c.momentary ∧ r.repeats = 0 ∧ r.escalations = 0 ∧
        r.raisedAt = s.mode.clock) ∧
    (∀ i r0, s.findRecord c n = some i → s.slotAt i = some r0 →
      ∃ r, t.slotAt i = some r ∧ r.cause = c ∧ r.repeats = inc8 r0.repeats ∧
        r.condition = !c.momentary ∧ r.escalations = r0.escalations ∧ r.raisedAt = r0.raisedAt ∧
        ((r.due = true ∧
            ((r0.state = .raised ∧ r.state = .raised ∧ r.timer = r0.timer) ∨
              (r0.state = .called ∧ r.state = .called ∧ r.timer = r0.timer) ∨
              ((r0.state = .acknowledged ∨ r0.state = .clearing) ∧ r.state = .raised ∧ r.timer = none))) ∨
          (s.ring.bypass = false ∧ s.ring.sending = none ∧ s.mode.lineLost = false ∧
            r.state = .called ∧ r.due = false)) ∧
        r.level = (match lvl with | some l => levelMax r0.level l | none => r0.level)) ∧
    (∀ i j, s.findRecord c n = some i ∨ (s.findRecord c n = none ∧ s.emptySlot = some i) → j ≠ i →
      t.slotAt j = s.slotAt j ∨
        (s.ring.bypass = false ∧ s.ring.sending = none ∧ s.mode.lineLost = false ∧
          ∃ q, s.slotAt j = some q ∧ q.due = true ∧
            ((q.state = .raised ∧ t.slotAt j = some { q with
                state := .called, due := false
                timer := if (s.causeSettings q.cause).esc = 0 then none
                  else some ((s.causeSettings q.cause).esc * 10000) }) ∨
              ((q.state = .called ∨ q.state = .acknowledged) ∧ t.slotAt j = some { q with due := false }) ∨
              (q.state = .clearing ∧ t.slotAt j = none)))) ∧
    (s.findRecord c n = none → s.emptySlot = none →
      t.alert.overflow = true ∧ t.alert.slots = s.alert.slots ∧ t.ring = s.ring) ∧
    (t.alert.snapshot = if c.latched = true ∧ s.alert.snapshot = none then
        (match s.findRecord c n with
          | some i => some ⟨c, n, s.mode.clock, some i, info⟩
          | none => some ⟨c, n, s.mode.clock, s.emptySlot, info⟩)
      else s.alert.snapshot) ∧
    t.mode = s.mode ∧ t.effect = s.effect ∧ t.cue = s.cue ∧ t.mem = s.mem ∧ t.mgmt = s.mgmt ∧
    t.motion.guards = s.motion.guards ∧ t.alert.held = s.alert.held ∧ t.alert.key = s.alert.key

/-- The end of a condition: nothing where there is no record, or a CLEARING one; a latched record that waits
to be seen keeps its state with the condition clear; any other enters CLEARING, or is freed while BYPASS is
asserted. A created, changed or freed record is told to the beacon and to the rest test, HELP to its button's
lamp, and a motion cause to the channels it concerns, whose lamps are computed anew and which are tested for
release. The rest test passes in CLOSING with every channel UNHOMED, IDLE, HALTED or FAULT and no record that
waits to be seen: the node is DORMANT, every channel RESTING with its state recorded, every output at level 0
with its fade idle and dead timer 0, and the lamps computed anew. A change of channel state makes the rest test
and then the lamps that name the channel. (The model's choices: that an output at rest keeps its target, step and
fade time remaining: log entry 16; that the beacon, the rest test and the release tests follow in this order, the
channels ascending: log entry 18.) -/
def Obligations.ConditionEndIsRecorded : Prop :=
  (∀ (s : State) (c : Cause) (n : Nat),
    (s.findRecord c n = none → s.conditionEnd c n = s) ∧
    (∀ i r, s.findRecord c n = some i → s.slotAt i = some r →
      (r.state = .clearing → s.conditionEnd c n = s) ∧
      (c.latched = true → r.state = .raised ∨ r.state = .called →
        s.conditionEnd c n = s.withSlot i (some { r with condition := false })) ∧
      (r.state = .acknowledged ∨ (c.latched = false ∧ r.state ≠ .clearing) →
        s.conditionEnd c n = ((s.withSlot i (if s.ring.bypass then none else some { r with
          condition := false, state := .clearing, timer := none, due := true })).tellRecord c n).pump))) ∧
  (∀ (s u : State) (c : Fin 4) (b g : Nat), u = s.beaconUpdate.restTest →
    (b < 16 → s.tellRecord .help b = u.lampUpdate (Fin.ofNat 16 b)) ∧
    s.tellRecord .driverFault c.val = (u.channelLamps c).releaseTest c ∧
    s.tellRecord .limitHit c.val = (u.channelLamps c).releaseTest c ∧
    s.tellRecord .homeFailed c.val = (u.channelLamps c).releaseTest c ∧
    s.tellRecord .guardOpen g = four.foldl (fun a d =>
      if (u.chan d).guardMap.getLsbD g then (a.channelLamps d).releaseTest d else a) u ∧
    (∀ k, k = .buttonStuck ∨ k = .roughHandling ∨ k = .tableDamage ∨ k = .lineLost ∨ k = .cuedCall ∨
      k = .imageFailed ∨ k = .saveFailed → s.tellRecord k b = u)) ∧
  ∀ (s : State) (c : Fin 4), s.tellChannel c = s.restTest.channelLamps c ∧
    (∀ b, (∃ k, (s.btn b).held = .copy k ∧ k.lampChannel = some c) →
      (s.channelLamps c).btn b = { s.btn b with lamp := s.lampFor b }) ∧
    (∀ b, (∀ k, (s.btn b).held = .copy k → k.lampChannel ≠ some c) →
      (s.channelLamps c).btn b = s.btn b) ∧
    s.channelLamps c = { s with button.buttons := (s.channelLamps c).button.buttons } ∧
    (s.mode.node ≠ .closing ∨ (∃ d, (s.chan d).state = .homing ∨ (s.chan d).state = .moving ∨
        (s.chan d).state = .stopping ∨ (s.chan d).state = .resting) ∨
      (∃ i r, s.slotAt i = some r ∧ (r.state = .raised ∨ r.state = .called)) → s.restTest = s) ∧
    (s.mode.node = .closing → (∀ d, (s.chan d).state = .unhomed ∨ (s.chan d).state = .idle ∨
        (s.chan d).state = .halted ∨ (s.chan d).state = .fault) →
      (∀ i r, s.slotAt i = some r → r.state = .acknowledged ∨ r.state = .clearing) →
      ∃ t, s.restTest = t ∧ t.mode = { s.mode with node := .dormant } ∧
        (∀ d, (s.chan d).aside = none →
          t.chan d = { s.chan d with restState := some (s.chan d).state, state := .resting }) ∧
        (∀ o, t.out o = { s.out o with fine := 0, running := false, dead := 0 }) ∧
        (∀ b, t.btn b = { s.btn b with lamp := t.lampFor b }) ∧
        t = { s with
          mode := t.mode, motion.channels := t.motion.channels, effect.outputs := t.effect.outputs
          button.buttons := t.button.buttons })

/-- The attendant key acknowledges every record that waits to be seen and clears the overflow flag; a HUSH
does the same for its slot, or with slot 255 for all, and with any other number does nothing. A record so
acknowledged becomes ACKNOWLEDGED while its condition is present, and else CLEARING, or is freed while
BYPASS is asserted; its timer stops and its report is due; every other record stands, and where no record
waits to be seen nothing changes (with the transmitter sending, or in bypass, so that no CALL changes the
table at once). Clearing the overflow flag leaves it clear and the beacon computed anew. (That the changed records
are told in ascending order of slot: log entry 18.) -/
def Obligations.KeyAndHushAcknowledge : Prop :=
  (∀ (s : State) (l : List (Fin 16)) (i : Fin 16), l.Nodup →
    s.ring.bypass = true ∨ s.ring.sending.isSome = true →
    (s.acknowledge l).slotAt i =
      (match s.slotAt i with
        | some r =>
          if i ∈ l ∧ (r.state = .raised ∨ r.state = .called) then
            (if r.condition then some { r with state := .acknowledged, timer := none, due := true }
            else if s.ring.bypass then none
            else some { r with state := .clearing, timer := none, due := true })
          else some r
        | none => none)) ∧
  (∀ (s : State) (l : List (Fin 16)), s.ring.bypass = true ∨ s.ring.sending.isSome = true →
    (∀ i r, i ∈ l → s.slotAt i = some r → r.state = .acknowledged ∨ r.state = .clearing) →
    s.acknowledge l = s) ∧
  ∀ s : State,
    s.clearOverflow = ({ s with alert.overflow := false }).beaconUpdate ∧
    s.clearOverflow.alert.overflow = false ∧ s.clearOverflow.alert.slots = s.alert.slots ∧
    ((∀ i r, s.slotAt i = some r → r.state = .acknowledged ∨ r.state = .clearing) →
      s.clearOverflow.alert.beacon = none) ∧
    (∀ i r, s.slotAt i = some r → r.state = .raised ∨ r.state = .called →
      (∀ j q, s.slotAt j = some q → q.state = .raised ∨ q.state = .called →
        levelCode q.level ≤ levelCode r.level) → s.clearOverflow.alert.beacon = some r.level) ∧
    (s.sampling = true → s.alert.key.primed = true → s.alert.key.closed = false →
      exec .keyClosure s = .next
        ((({ s with alert.key.closed := true, alert.key.pin := true, alert.key.count := 0 }).acknowledge
          sixteen).clearOverflow)) ∧
    (∀ (env : Envelope) (b : Byte), s.ring.bypass = false → env.src = 0 → s.address ≠ 0 →
      env.dst = 127 ∨ env.dst = s.address →
      (∀ i : Fin 16, b.toNat = i.val → exec (.hush env [b]) s = .next
        ((({ s with ring.assembler := ⟨.trailing, []⟩ }).acknowledge [i]).passOn
          (frameOf 0x03 env [b]))) ∧
      (b = 255 → exec (.hush env [b]) s = .next
        (((({ s with ring.assembler := ⟨.trailing, []⟩ }).acknowledge sixteen).clearOverflow).passOn
          (frameOf 0x03 env [b]))) ∧
      (16 ≤ b.toNat → b ≠ 255 → exec (.hush env [b]) s = .next
        (({ s with ring.assembler := ⟨.trailing, []⟩ }).passOn (frameOf 0x03 env [b]))))

/-- The escalation of a CALLED record whose timer has run out lifts it one level, counts, makes its report due and
starts the timer again; a timer that is stopped (or of a record that is not CALLED), or has time left, does not
expire. The beacon level is URGENT while the overflow flag is set, else the highest level of a record that waits to be
seen, else none; a level that changes starts its pattern at its on part, URGENT alone with the sounder on. -/
def Obligations.EscalationLiftsLevel : Prop :=
  (∀ (i : Fin 16) (s : State), (∀ r, s.slotAt i = some r → r.state ≠ .called ∨ r.timer ≠ some 0) →
    exec (.escalationExpiry i) s = .next s) ∧
  (∀ (i : Fin 16) (s : State) (r : Record), s.slotAt i = some r → r.state = .called →
    r.timer = some 0 →
    exec (.escalationExpiry i) s = .next
      (((s.withSlot i (some { r with
        level := (match r.level with | .notice => .attend | .attend => .urgent | .urgent => .urgent)
        escalations := inc8 r.escalations, due := true
        timer := if (s.causeSettings r.cause).esc = 0 then none
          else some ((s.causeSettings r.cause).esc * 10000) })).beaconUpdate).pump)) ∧
  ∀ s : State, (s.alert.overflow = true → s.beaconLevel = some .urgent) ∧
    (s.alert.overflow = false →
      ((∀ i r, s.slotAt i = some r → r.state = .acknowledged ∨ r.state = .clearing) →
        s.beaconLevel = none) ∧
      (∀ i r, s.slotAt i = some r → r.state = .raised ∨ r.state = .called →
        (∀ j q, s.slotAt j = some q → q.state = .raised ∨ q.state = .called →
          levelCode q.level ≤ levelCode r.level) → s.beaconLevel = some r.level)) ∧
    (s.beaconLevel = s.alert.beacon → s.beaconUpdate = s) ∧
    (∀ l, s.beaconLevel = l → s.alert.beacon ≠ l → s.beaconUpdate = { s with
      alert.beacon := l, alert.beaconOn := decide (l ≠ none), alert.beaconCtr := 0
      alert.sounderOn := decide (l = some .urgent), alert.sounderCtr := 0 })

/-! ## Chapters 5 and 6: motion -/

/-- A START refused by the mode, by gating, by a disabled channel, by the channel's state, by an open guard
or by the busy policy adds one to the refused count and changes nothing else. One that the policy lets wait
takes the pending-start slot; under PREEMPT a MOVING channel stops for it. One for an IDLE channel under
closed guards begins the profile at its first segment and pass and owes its directory entry and first three
segments. The mode lets a START proceed in OPEN, QUIET and SERVICE, unless the line is lost without local-play. A
channel whose copy asks for the attendant is gated while a record of one of its guards, or of its own fault,
limit or failed homing, waits to be seen. In every case the engine then goes on. (An action that no reset
recalled.) -/
def Obligations.StartIsTaken : Prop :=
  (∀ (s : State) (c : Fin 4) (m : BitVec 4),
    (s.startAllowed = true ↔
      (s.mode.mode = .opened ∨ s.mode.mode = .quiet ∨ s.mode.mode = .service) ∧
        (s.mode.lineLost = false ∨ s.mode.localPlay = some true)) ∧
    (s.gated c = true ↔ ∃ k i r, (s.chan c).held = .copy k ∧ k.attend = true ∧ s.slotAt i = some r ∧
      (r.state = .raised ∨ r.state = .called) ∧
      ((r.cause = .guardOpen ∧ k.guardMap.getLsbD r.subject = true) ∨
        ((r.cause = .driverFault ∨ r.cause = .limitHit ∨ r.cause = .homeFailed) ∧
          r.subject = c.val))) ∧
    (s.guardsClosed m = true ↔
      ∀ g : Fin 4, m.getLsbD g.val = true → (s.guardIn g).isOpen = false)) ∧
  ∀ (c : Fin 4) (p : Fin 32) (s : State), s.recalls (.start c p) = false →
    (s.startAllowed = false ∨ s.gated c = true ∨ (s.chan c).enabled = false ∨
      (s.chan c).state = .unhomed ∨ (s.chan c).state = .halted ∨ (s.chan c).state = .fault ∨
      (s.chan c).state = .resting ∨
      ((s.chan c).state = .idle ∧ s.guardsClosed (s.chan c).guardMap = false) ∨
      (∃ k, (s.chan c).held = .copy k ∧ k.policy = .refuse ∧ (s.chan c).state ≠ .idle) →
      exec (.start c p) s = .next
        ((s.withChan c { s.chan c with refused := inc16 (s.chan c).refused }).handOn (.start c p))) ∧
    (∀ k, s.startAllowed = true → s.gated c = false → (s.chan c).held = .copy k → k.enabled = true →
      (((s.chan c).state = .stopping ∨ (s.chan c).state = .homing) ∧ k.policy ≠ .refuse ∨
        (s.chan c).state = .moving ∧ k.policy = .queue →
        exec (.start c p) s = .next
          ((s.withChan c { s.chan c with slot := some p }).handOn (.start c p))) ∧
      ((s.chan c).state = .moving → k.policy = .preempt →
        ∃ t, exec (.start c p) s = .next t ∧ (t.chan c).state = .stopping ∧
          (t.chan c).ending = some .stopped ∧ (t.chan c).slot = some p ∧
          (t.chan c).profile = (s.chan c).profile ∧ (t.chan c).position = (s.chan c).position ∧
          (∀ d, d ≠ c → t.chan d = s.chan d) ∧
          t = { s with motion := t.motion, button := t.button, cue := t.cue, mem := t.mem } ∧
          t = ({ s with motion := t.motion, button := t.button }).handOn (.start c p) ∧
          t.mem.words = s.mem.words) ∧
      ((s.chan c).state = .idle → s.guardsClosed k.guardMap = true →
        ∃ t, exec (.start c p) s = .next t ∧ (t.chan c).state = .moving ∧
          (t.chan c).profile = some p ∧ (t.chan c).pass = 1 ∧ (t.chan c).ord = 0 ∧
          (t.chan c).current = none ∧ (t.chan c).buffer = [] ∧ (t.chan c).clamped = false ∧
          (t.chan c).position = (s.chan c).position ∧ (t.chan c).slot = (s.chan c).slot ∧
          t.motion.owed = s.motion.owed ++ [⟨c, .directory p, false⟩, ⟨c, .segment 0 0, false⟩,
            ⟨c, .segment 1 0, false⟩, ⟨c, .segment 2 0, false⟩] ∧
          (∀ d, d ≠ c → t.chan d = s.chan d) ∧
          t = { s with motion := t.motion, button := t.button, cue := t.cue, mem := t.mem } ∧
          t = (({ s with motion := t.motion, button := t.button }).arbitrate).handOn (.start c p) ∧
          t.mem.words = s.mem.words))

/-- STOP: a MOVING channel of the mask enters STOPPING and keeps its slot, a HOMING one gives up its search and
empties it, and every other channel stands; where that leaves every channel of a CLOSING node at rest, with no record
that waits to be seen, the node becomes DORMANT and the channel RESTING from UNHOMED. HOME: an enabled UNHOMED or IDLE
channel of the mask that nothing refuses enters HOMING, a HOMING one stands, every other counts a refusal; the mode
refuses a HOME in CLOSED alone. At an entry into HOMING the velocity is the
home velocity and the phase 0, and the DIR output takes the level of the search's direction: high
for OUTWARD and low for INWARD, swapped by direction invert. Only motion, lamps, the dispatch and the arbiter change,
and at an entry into DORMANT the mode unit and the outputs. (Of an action that no reset and no PUT recalled.) -/
def Obligations.StopAndHomeFollowMask : Prop :=
  (∀ s : State, s.homeAllowed = true ↔ s.mode.mode ≠ .closed) ∧
  ∀ (mask : BitVec 4) (s : State),
    (s.recalls (.stop mask) = false → ∃ t, exec (.stop mask) s = .next t ∧
      (t.mode.node ≠ s.mode.node ↔ s.mode.node = .closing ∧
        (∃ c : Fin 4, mask.getLsbD c.val = true ∧ (s.chan c).state = .homing) ∧
        (∀ c : Fin 4, (s.chan c).state = .unhomed ∨ (s.chan c).state = .idle ∨
          (s.chan c).state = .halted ∨ (s.chan c).state = .fault ∨
          (mask.getLsbD c.val = true ∧ (s.chan c).state = .homing)) ∧
        ∀ i r, s.slotAt i = some r → r.state = .acknowledged ∨ r.state = .clearing) ∧
      (∀ c : Fin 4,
        (mask.getLsbD c.val = false ∨ ((s.chan c).state ≠ .moving ∧ (s.chan c).state ≠ .homing) →
          t.mode.node = s.mode.node → t.chan c = s.chan c) ∧
        (mask.getLsbD c.val = true → (s.chan c).state = .moving →
          (t.chan c).state = .stopping ∧ (t.chan c).ending = some .stopped ∧
          (t.chan c).slot = (s.chan c).slot ∧ (t.chan c).rem = 0 ∧ (t.chan c).v = (s.chan c).v ∧
          (t.chan c).position = (s.chan c).position) ∧
        (mask.getLsbD c.val = true → (s.chan c).state = .homing →
          (t.chan c).slot = none ∧ (t.chan c).v = 0 ∧
          (t.mode.node = s.mode.node → (t.chan c).state = .unhomed) ∧
          (t.mode.node ≠ s.mode.node →
            (t.chan c).state = .resting ∧ (t.chan c).restState = some .unhomed))) ∧
      (t.mode.node = s.mode.node → t.mode = s.mode ∧ t.effect = s.effect) ∧
      (t.mode.node ≠ s.mode.node → t.mode = { s.mode with node := .dormant }) ∧
      t = { s with
        motion := t.motion, button := t.button, cue := t.cue, mem := t.mem, mode := t.mode
        effect := t.effect } ∧
      t = ({ s with motion := t.motion, button := t.button, mode := t.mode, effect := t.effect }).handOn
        (.stop mask) ∧
      t.mem.words = s.mem.words) ∧
    (s.recalls (.home mask) = false → ∃ t, exec (.home mask) s = .next t ∧
      (∀ c : Fin 4,
        (mask.getLsbD c.val = false → t.chan c = s.chan c) ∧
        (mask.getLsbD c.val = true →
          s.homeAllowed = false ∨ s.gated c = true ∨ (s.chan c).enabled = false ∨
            (s.chan c).state = .moving ∨ (s.chan c).state = .stopping ∨ (s.chan c).state = .halted ∨
            (s.chan c).state = .fault ∨ (s.chan c).state = .resting ∨
            ((s.chan c).state ≠ .homing ∧ s.guardsClosed (s.chan c).guardMap = false) →
          t.chan c = { s.chan c with refused := inc16 (s.chan c).refused }) ∧
        (mask.getLsbD c.val = true → s.homeAllowed = true → s.gated c = false →
          ∀ k, (s.chan c).held = .copy k → k.enabled = true →
            ((s.chan c).state = .homing → t.chan c = s.chan c) ∧
            ((s.chan c).state = .unhomed ∨ (s.chan c).state = .idle → s.guardsClosed k.guardMap = true →
              (t.chan c).state = .homing ∧ (t.chan c).position = 0 ∧
              (t.chan c).rem = k.searchLimit ∧ (t.chan c).vh = k.homeSpeed * 65536 / 1000 ∧
              (t.chan c).v = k.homeSpeed * 65536 / 1000 ∧ (t.chan c).phi = 0 ∧
              (t.chan c).outward = (k.rotary && k.homeOutward) ∧
              (t.chan c).dirPin = ((k.rotary && k.homeOutward) != k.invert) ∧
              (t.chan c).slot = (s.chan c).slot))) ∧
      t = { s with motion := t.motion, button := t.button, cue := t.cue, mem := t.mem } ∧
      t = ({ s with motion := t.motion, button := t.button }).handOn (.home mask) ∧
      t.mem.words = s.mem.words)

/-- The tick of a channel, in the order of its steps. A guard of its map that stands open halts it. In HOMING home
closed is home found, and R at 0 the search exhausted; in outward LINEAR motion an asserted FAR, and in all three
states an asserted FAULT, act as their commands do. Then the stages. MOVING: a channel without a segment waits; a
dwell runs down and ends; R at 0 is the arrival; else braking once v² ÷ (131072 × D) reaches what is left, else toward
the ceiling; the steps are the whole parts of φ + v, at most R, which they use up. STOPPING: at V_s the stop is
complete; above it down by D, at least to V_s, and on a LINEAR channel steps that would pass the bound of travel are
cut to it and complete the stop at once. HOMING: the search at V_h, the position staying. A channel in no motion has
no tick. FAR is read on an enabled LINEAR channel going OUTWARD, in MOVING under way in a segment with R above 0 and
in STOPPING with v above V_s; FAULT acts on an enabled channel that is energised: BYPASS released, and neither FAULT
nor RESTING. (That the tick carries these events out within itself: log entry 9. The model's choice: that a stop whose
steps reach the bound exactly, and do not pass it, runs on in that tick, where the worked case of section 6.11
completes it: log entry 35.) -/
def Obligations.TickMakesSteps : Prop :=
  ∀ (c : Fin 4) (s : State) (ch : Channel) (n : Nat) (v : Nat) (brake : Bool), ch = s.chan c →
    (ch.state.inMotion = false → exec (.channelTick c) s = .next s) ∧
    (ch.farRead = true ↔ (∃ k, ch.held = .copy k ∧ k.enabled = true ∧ k.rotary = false) ∧ ch.outward = true ∧
      ((ch.state = .moving ∧ ch.current.isSome = true ∧ ch.arrived = false ∧ 0 < ch.rem) ∨
        (ch.state = .stopping ∧ ch.vs < ch.v))) ∧
    (s.energised c = true ↔ s.ring.bypass = false ∧ ch.state ≠ .fault ∧ ch.state ≠ .resting) ∧
    (∀ g : Fin 4, ch.enabled = true → ch.state.inMotion = true → ch.guardMap.getLsbD g.val = true →
      (s.guardIn g).pin = true → (s.guardIn g).isOpen = false → s.mode.node ≠ .closing →
      ∃ t, exec (.channelTick c) s = .next t ∧ (t.guardIn g).isOpen = true ∧
        (t.chan c).state = .halted ∧ (t.chan c).position = ch.position ∧ (t.chan c).v = 0 ∧
        (t.chan c).stepPulses = 0 ∧ (t.chan c).slot = none ∧ (t.chan c).profile = none) ∧
    ((∀ g : Fin 4, ch.guardMap.getLsbD g.val = true → (s.guardIn g).pin = true →
        (s.guardIn g).isOpen = true) →
      (ch.state = .homing → ch.homePin = true → exec (.channelTick c) s = exec (.homeFound c) s) ∧
      (ch.state = .homing → ch.homePin = false → ch.rem = 0 →
        exec (.channelTick c) s = exec (.searchExhausted c) s) ∧
      (s.sampling = true → ch.state = .moving ∨ ch.state = .stopping → ch.farRead = true →
        ch.farPin = true → exec (.channelTick c) s = exec (.farLimit c) s) ∧
      (s.sampling = true → ch.enabled = true → s.energised c = true → ch.faultPin = true →
        ((ch.state = .moving ∨ ch.state = .stopping) ∧ (ch.farRead = false ∨ ch.farPin = false)) ∨
          (ch.state = .homing ∧ ch.homePin = false ∧ 0 < ch.rem) →
        exec (.channelTick c) s = exec (.driverFault c) s) ∧
      (ch.farRead = false ∨ ch.farPin = false →
        ch.enabled = false ∨ s.energised c = false ∨ ch.faultPin = false →
        (ch.state = .moving → ch.current = none →
          exec (.channelTick c) s = .next (s.withChan c { ch with stepPulses := 0 })) ∧
        (ch.state = .moving → ch.current.isSome = true → ch.arrived = true →
          (1 < ch.dwell → exec (.channelTick c) s = .next
            (s.withChan c { ch with dwell := ch.dwell - 1, stepPulses := 0 })) ∧
          (ch.dwell ≤ 1 → exec (.channelTick c) s = exec (.dwellEnd c) s)) ∧
        (ch.state = .moving → ch.current.isSome = true → ch.arrived = false → ch.rem = 0 →
          exec (.channelTick c) s = exec (.arrival c) s) ∧
        (ch.state = .moving → ch.current.isSome = true →
          ch.arrived = false → 0 < ch.rem → 0 < ch.accel →
          brake = (ch.braking || decide (ch.rem ≤ ch.v * ch.v / (131072 * ch.accel))) →
          v = (if brake then max (ch.v - ch.accel) ch.vs
            else if ch.v < ch.vc then min (ch.v + ch.accel) ch.vc
            else max (ch.v - ch.accel) ch.vc) →
          n = min ch.rem ((ch.phi + v) / 65536) →
          exec (.channelTick c) s = .next (s.withChan c { ch with
            v := v, braking := brake, rem := ch.rem - n, stepPulses := n, position := ch.moved n
            phi := if ch.rem < (ch.phi + v) / 65536 then 0 else (ch.phi + v) % 65536 })) ∧
        (ch.state = .stopping → ch.v ≤ ch.vs →
          exec (.channelTick c) s = exec (.stopComplete c) s) ∧
        (ch.state = .stopping → ch.vs < ch.v →
          v = max (ch.v - ch.accel) ch.vs → n = (ch.phi + v) / 65536 →
          (ch.rotary = true ∨ (∀ k, ch.held ≠ .copy k) ∨
            (∃ k, ch.held = .copy k ∧ n ≤ if ch.outward then k.travel - ch.position else ch.position) →
            exec (.channelTick c) s = .next (s.withChan c { ch with
              v := v, phi := (ch.phi + v) % 65536, position := ch.moved n, stepPulses := n })) ∧
          (∀ k room, ch.held = .copy k → k.rotary = false →
            room = (if ch.outward then k.travel - ch.position else ch.position) → room < n →
            s.mode.node ≠ .closing → ch.aside = none → ch.slot = none →
            ∃ t, exec (.channelTick c) s = .next t ∧ (t.chan c).state = .idle ∧
              (t.chan c).position = (if ch.outward then ch.position + room else ch.position - room) ∧
              (t.chan c).stepPulses = room ∧ (t.chan c).v = 0 ∧ (t.chan c).profile = none))) ∧
      (ch.homePin = false → ch.enabled = false ∨ s.energised c = false ∨ ch.faultPin = false →
        ch.state = .homing → 0 < ch.rem → n = min ch.rem ((ch.phi + ch.vh) / 65536) →
        exec (.channelTick c) s = .next (s.withChan c { ch with
          v := ch.vh, rem := ch.rem - n, stepPulses := n
          phi := if ch.rem < (ch.phi + ch.vh) / 65536 then 0 else (ch.phi + ch.vh) % 65536 }))) ∧
    (∀ k, ch.held = .copy k → k.rotary = false →
      ch.moved n = if ch.outward then ch.position + n else ch.position - n) ∧
    (∀ k, ch.held = .copy k → k.rotary = true → 0 < k.travel → ch.moved n < k.travel ∧ ∃ turns : Int,
      (ch.moved n : Int) =
        (if ch.outward then (ch.position : Int) + n else (ch.position : Int) - n) + turns * k.travel)

/-- The next segment of the running order, once in the buffer, becomes current: its distance, direction, ceiling,
acceleration and dwell are set, it starts at the start velocity, and the DIR output takes the level of its direction,
high for OUTWARD, swapped by direction invert, or stands at a distance of 0; the segment two beyond it is then owed,
unless it is buffered or owed or the running order does not reach it. Its distance: on a LINEAR channel to its target
clamped to the travel, marked where that changed it; on a ROTARY one for a GOTO the steps outward to the target modulo
the wrap length, for a distance those steps; for a DWELL 0. At its arrival a segment dwells, or with dwell 0 is
finished; at the end of its dwell it is finished. A finished segment gives way to the next of the pass, to the first
of a new pass, or, at the end of the last pass (with no pending start, no copy held aside, and not CLOSING), completes
the profile: the channel becomes IDLE, the completed count rises, a DONE is sent if the copy asks for it (with the
transmitter sending and room in the insertion queue), and LOCAL-DONE is offered. (That the current-segment number
stays while the channel waits between two segments: log entry 32.) -/
def Obligations.SegmentsEnd : Prop :=
  (∀ (rotary : Bool) (travel p : Nat) (g : Segment),
    (g.kind = .dwell → segmentDistance rotary travel p g = (0, false)) ∧
    (g.kind = .byDistance → segmentDistance true travel p g = (g.target, false) ∧
      segmentDistance false travel p g = (max 0 (min (travel : Int) (p + g.target)) - p,
        decide ((p : Int) + g.target < 0 ∨ (travel : Int) < p + g.target))) ∧
    (g.kind = .goto → segmentDistance false travel p g = (max 0 (min (travel : Int) g.target) - p,
        decide (g.target < 0 ∨ (travel : Int) < g.target)) ∧
      (0 < travel → ∃ (n : Nat) (q : Int), segmentDistance true travel p g = ((n : Int), false) ∧
        n < travel ∧ (p : Int) + n + q * travel = g.target))) ∧
  (∀ (c : Fin 4) (s : State) (d : Directory) (k : ChannelSettings) (b : Buffered) (bs : List Buffered)
    (x : Int × Bool), (s.chan c).state = .moving → (s.chan c).current = none → (s.chan c).dir = some d →
    (s.chan c).held = .copy k → (s.chan c).buffer = b :: bs → b.ord = (s.chan c).ord →
    x = segmentDistance k.rotary k.travel (s.chan c).position b.seg →
    ∃ ch, (s.tryCurrent c).chan c = ch ∧ ch.current = some b.seg ∧ ch.arrived = false ∧ ch.buffer = bs ∧
      ch.segment = (d.first + b.ord % d.count) % 512 ∧ ch.dwell = b.seg.dwell ∧ ch.phi = 0 ∧
      ch.braking = false ∧ ch.accel = b.seg.accel * 65536 / 1000000 ∧
      ch.vc = (if s.mode.mode = .quiet then b.seg.cruise * 65536 / 1000 * k.quietPercent / 100
        else b.seg.cruise * 65536 / 1000) ∧
      ch.vs = min (k.startSpeed * 65536 / 1000) ch.vc ∧ ch.v = ch.vs ∧ ch.rem = x.1.natAbs ∧
      ch.outward = (if x.1 = 0 then (s.chan c).outward else decide (0 < x.1)) ∧
      ch.dirPin = (if x.1 = 0 then (s.chan c).dirPin else (decide (0 < x.1) != k.invert)) ∧
      ch.clamped = ((s.chan c).clamped || x.2) ∧ ch.position = (s.chan c).position ∧
      ∀ n, n = b.ord + 2 →
        ((((s.chan c).finalPass = false ∨ n < d.count * (b.ord / d.count + 1)) ∧
            (d.repeats = 0 ∨ n < d.count * d.repeats)) ∧ (∀ y, y ∈ bs → y.ord ≠ n) ∧
          (∀ f base, f ∈ s.motion.owed → f.chan = c → f.cancelled = false → f.item ≠ .segment n base) →
          (s.tryCurrent c).motion.owed = s.motion.owed ++
            [⟨c, .segment n (592 + 3 * ((d.first + n % d.count) % 512)), false⟩]) ∧
        (¬(((s.chan c).finalPass = false ∨ n < d.count * (b.ord / d.count + 1)) ∧
            (d.repeats = 0 ∨ n < d.count * d.repeats)) ∨ (∃ y, y ∈ bs ∧ y.ord = n) ∨
          (∃ f base, f ∈ s.motion.owed ∧ f.chan = c ∧ f.cancelled = false ∧
            f.item = .segment n base) →
          (s.tryCurrent c).motion.owed = s.motion.owed)) ∧
  ∀ (c : Fin 4) (s : State) (d : Directory) (cmd : Instr) (ch : Channel),
    (s.chan c).state = .moving → (s.chan c).current.isSome = true → (s.chan c).dir = some d →
    (cmd = .arrival c ∧ (s.chan c).arrived = false ∧ (s.chan c).rem = 0 ∨
      cmd = .dwellEnd c ∧ (s.chan c).arrived = true) →
    ch = (if cmd = .dwellEnd c then { s.chan c with dwell := 0, stepPulses := 0, v := 0, phi := 0 }
      else { s.chan c with v := 0, phi := 0, braking := false, stepPulses := 0 }) →
    (cmd = .arrival c → (s.chan c).dwell ≠ 0 →
      exec cmd s = .next (s.withChan c { ch with arrived := true })) ∧
    (ch.dwell = 0 →
      ((ch.ord + 1) % d.count ≠ 0 → exec cmd s = .next
        ((s.withChan c { ch with current := none, arrived := false, ord := ch.ord + 1 }).tryCurrent
          c)) ∧
      ((ch.ord + 1) % d.count = 0 → ch.finalPass = false → d.repeats = 0 ∨ ch.pass ≠ d.repeats →
        exec cmd s = .next ((s.withChan c { ch with
          current := none, arrived := false, ord := ch.ord + 1, pass := inc8 ch.pass }).tryCurrent
            c)) ∧
      ((ch.ord + 1) % d.count = 0 → ch.finalPass = true ∨ (d.repeats ≠ 0 ∧ ch.pass = d.repeats) →
        s.mode.node ≠ .closing → ch.slot = none → ch.aside = none →
        ∃ t, exec cmd s = .next t ∧ (t.chan c).state = .idle ∧ (t.chan c).profile = none ∧
          (t.chan c).completed = inc16 ch.completed ∧ (t.chan c).position = ch.position ∧
          (t.chan c).buffer = [] ∧ (t.chan c).held = ch.held ∧
          (∀ x, x ≠ c → t.chan x = s.chan x ∨ s.ring.sending = none) ∧
          (∀ q, ch.profile = some q → s.cue.dispatch ≠ .idle → s.cue.queue.length < 16 →
            t.cue.queue = s.cue.queue ++ [.localDone c .completed q]) ∧
          (∀ k q, ch.held = .copy k → ch.profile = some q → s.ring.bypass = false →
            s.ring.sending.isSome = true → s.ring.insertion.length < 8 →
            t.ring.insertion = s.ring.insertion ++ (if k.reportDone then
              [⟨0x12, 0, s.address, BitVec.ofNat 8 s.ring.hopLimit,
                [BitVec.ofNat 8 c.val, BitVec.ofNat 8 q.val, 0, if ch.clamped then 1 else 0]
                  ++ bytesBE 3 ch.position⟩] else [])) ∧
          t.effect = s.effect ∧ t.mem.words = s.mem.words ∧ t.mgmt = s.mgmt))

/-- A stop that is complete offers LOCAL-DONE with outcome FAULTED, if it ends so, or STOPPED, and sends a DONE
if the copy asks for it (with the transmitter sending and room in the insertion queue). The channel becomes IDLE;
but after STOPPED a pending start that is neither gated nor under an open guard begins instead, and one that is
counts a refusal and is discarded. Home found makes it IDLE at position 0, with the same rule for the pending
start, and nothing is reported. A search that is exhausted makes it UNHOMED and raises HOME-FAILED with its
position and home velocity. Where it is the last channel of a CLOSING node to come to rest, and no record waits to
be seen, the node becomes DORMANT, and the channel is RESTING from IDLE or UNHOMED. (What the channel becomes: with
no copy held aside, or where it begins its pending start. The model's choice: that a pending start which begins in
this event is tested and run under the old copy, one held aside staying aside: log entry 36.) -/
def Obligations.MotionEnds : Prop :=
  ∀ (c : Fin 4) (s : State) (rests : Bool),
    (rests = true ↔ s.mode.node = .closing ∧
      (∀ d, d ≠ c → (s.chan d).state = .unhomed ∨ (s.chan d).state = .idle ∨
        (s.chan d).state = .halted ∨ (s.chan d).state = .fault) ∧
      ∀ i r, s.slotAt i = some r → r.state = .acknowledged ∨ r.state = .clearing) →
    (∀ o : EndOutcome, (s.chan c).state = .stopping → (s.chan c).v ≤ (s.chan c).vs →
      o = (if (s.chan c).ending = some .faulted then .faulted else .stopped) →
      ∃ t, exec (.stopComplete c) s = .next t ∧ t.mem.words = s.mem.words ∧ t.mgmt = s.mgmt ∧
        ((s.chan c).profile = none → t.cue = s.cue) ∧
        (∀ q, (s.chan c).profile = some q → s.cue.dispatch ≠ .idle → s.cue.queue.length < 16 →
          t.cue.queue = s.cue.queue ++ [.localDone c o q]) ∧
        (∀ p, (s.chan c).slot = some p → (s.chan c).ending ≠ some .faulted → s.gated c = false →
          s.guardsClosed (s.chan c).guardMap = true →
          (t.chan c).state = .moving ∧ (t.chan c).profile = some p ∧ (t.chan c).slot = none ∧
          (t.chan c).refused = (s.chan c).refused ∧ t.mode = s.mode ∧ t.effect = s.effect ∧
          (t.chan c).position = (s.chan c).position) ∧
        ((s.chan c).aside = none →
          (t.chan c).position = (s.chan c).position ∧ (t.chan c).slot = none ∧
          (∀ k q, (s.chan c).held = .copy k → (s.chan c).profile = some q → s.ring.bypass = false →
            s.ring.sending.isSome = true → s.ring.insertion.length < 8 →
            t.ring.insertion = s.ring.insertion ++ (if k.reportDone then
              [⟨0x12, 0, s.address, BitVec.ofNat 8 s.ring.hopLimit,
                [BitVec.ofNat 8 c.val, BitVec.ofNat 8 q.val, if o = .faulted then 3 else 1,
                  if (s.chan c).clamped then 1 else 0] ++ bytesBE 3 (s.chan c).position⟩] else [])) ∧
          ∀ blocked : Bool,
            (blocked = false ∧ ((s.chan c).slot = none ∨ (s.chan c).ending = some .faulted)) ∨
            (blocked = true ∧ (s.chan c).slot.isSome = true ∧ (s.chan c).ending ≠ some .faulted ∧
              (s.gated c = true ∨ s.guardsClosed (s.chan c).guardMap = false)) →
            (t.chan c).state = (if rests then .resting else .idle) ∧ (t.chan c).profile = none ∧
            (t.chan c).refused = (if blocked then inc16 (s.chan c).refused else (s.chan c).refused) ∧
            (rests = true → (t.chan c).restState = some .idle ∧ t.mode.node = .dormant) ∧
            (rests = false → t.mode = s.mode ∧ t.effect = s.effect))) ∧
    ((s.chan c).state = .homing → ∃ t, exec (.homeFound c) s = .next t ∧
      t.mem.words = s.mem.words ∧ t.mgmt = s.mgmt ∧ t.cue = s.cue ∧ t.ring = s.ring ∧
      t.alert = s.alert ∧
      (∀ p, (s.chan c).slot = some p → s.gated c = false →
        s.guardsClosed (s.chan c).guardMap = true →
        (t.chan c).state = .moving ∧ (t.chan c).profile = some p ∧ (t.chan c).position = 0 ∧
        (t.chan c).slot = none ∧ (t.chan c).positionLost = false ∧
        (t.chan c).refused = (s.chan c).refused ∧ (∀ x, x ≠ c → t.chan x = s.chan x) ∧
        t = { s with motion := t.motion, button := t.button, mem := t.mem }) ∧
      ((s.chan c).aside = none → ∀ blocked : Bool,
        (blocked = false ∧ (s.chan c).slot = none) ∨ (blocked = true ∧ (s.chan c).slot.isSome = true ∧
          (s.gated c = true ∨ s.guardsClosed (s.chan c).guardMap = false)) →
        (t.chan c).state = (if rests then .resting else .idle) ∧ (t.chan c).position = 0 ∧
        (t.chan c).positionLost = false ∧ (t.chan c).v = 0 ∧ (t.chan c).slot = none ∧
        (t.chan c).refused = (if blocked then inc16 (s.chan c).refused else (s.chan c).refused) ∧
        (rests = true → (t.chan c).restState = some .idle ∧ t.mode.node = .dormant) ∧
        (rests = false → (∀ x, x ≠ c → t.chan x = s.chan x) ∧
          t = { s with motion := t.motion, button := t.button, mem := t.mem }))) ∧
    ((s.chan c).state = .homing → (s.chan c).rem = 0 → ∃ t u : State,
      exec (.searchExhausted c) s = .next t ∧
      t = u.raiseWith .homeFailed c.val none (some ⟨.unhomed, (s.chan c).position, (s.chan c).vh⟩) ∧
      ((t.findRecord .homeFailed c.val).isSome = true ∨ t.alert.overflow = true) ∧
      t.mem.words = s.mem.words ∧ t.mgmt = s.mgmt ∧ t.cue = s.cue ∧
      ((s.chan c).aside = none →
        (u.chan c).state = (if rests then .resting else .unhomed) ∧ (u.chan c).slot = none ∧
        (u.chan c).v = 0 ∧ (u.chan c).position = (s.chan c).position ∧
        (t.chan c).state = (u.chan c).state ∧ (t.chan c).slot = none ∧ t.mode = u.mode ∧
        (rests = true → (u.chan c).restState = some .unhomed ∧ u.mode.node = .dormant) ∧
        (rests = false → (∀ x, x ≠ c → u.chan x = s.chan x) ∧
          u = { s with motion := u.motion, button := u.button } ∧ t.effect = s.effect)))

/-- A guard that opens is OPEN at once, raises GUARD-OPEN, and halts every enabled channel in motion that it
protects, where it stands; a channel not in motion, or not protected, stands. Each channel that is halted in a
profile reports it, in ascending order, by LOCAL-DONE with outcome HALTED, and by a DONE if its copy asks for it
(with the transmitter sending and room in the queues); one halted in HOMING has no profile and reports nothing.
Where the halts leave every channel of a CLOSING node at rest, and no record waits to be seen, the node becomes
DORMANT before the raise, and the channels are RESTING from HALTED. (A HALTED or FAULT channel may be released when
another record is freed.) -/
def Obligations.GuardOpeningHalts : Prop :=
  ∀ (g : Fin 4) (s : State) (hit : Fin 4 → Bool) (frame : Fin 4 → Fin 32 → Frame),
    s.sampling = true → (s.guardIn g).isOpen = false →
    (∀ c, hit c = true ↔ (s.chan c).enabled = true ∧ (s.chan c).guardMap.getLsbD g.val = true ∧
      ((s.chan c).state = .homing ∨ (s.chan c).state = .moving ∨ (s.chan c).state = .stopping)) →
    (∀ c q, frame c q = ⟨0x12, 0, s.address, BitVec.ofNat 8 s.ring.hopLimit,
      [BitVec.ofNat 8 c.val, BitVec.ofNat 8 q.val, 2, if (s.chan c).clamped then 1 else 0]
        ++ bytesBE 3 (s.chan c).position⟩) →
    ∃ t, exec (.guardOpening g) s = .next t ∧ (t.guardIn g).isOpen = true ∧
      (∀ h, h ≠ g → t.guardIn h = s.guardIn h) ∧
      ((t.findRecord .guardOpen g.val).isSome = true ∨ t.alert.overflow = true) ∧
      t.mgmt = s.mgmt ∧ t.mem.words = s.mem.words ∧
      (t.mode.node ≠ s.mode.node ↔ s.mode.node = .closing ∧ (∃ c, hit c = true) ∧
        (∀ c, hit c = true ∨ (s.chan c).state = .unhomed ∨ (s.chan c).state = .idle ∨
          (s.chan c).state = .halted ∨ (s.chan c).state = .fault) ∧
        ∀ i r, s.slotAt i = some r → r.state = .acknowledged ∨ r.state = .clearing) ∧
      (t.mode.node = s.mode.node → t.effect = s.effect ∧ t.mode = s.mode ∧ ∀ c : Fin 4,
        (hit c = true →
          (t.chan c).state = .halted ∧ (t.chan c).v = 0 ∧ (t.chan c).slot = none ∧
          (t.chan c).profile = none ∧ (t.chan c).position = (s.chan c).position ∧
          (t.chan c).positionLost = ((s.chan c).positionLost || decide ((s.chan c).vs < (s.chan c).v) ||
            decide ((s.chan c).state = .homing))) ∧
        (hit c = false → (s.chan c).state ≠ .halted → (s.chan c).state ≠ .fault →
          t.chan c = s.chan c)) ∧
      (t.mode.node ≠ s.mode.node → t.mode = { s.mode with node := .dormant } ∧ ∀ c, hit c = true →
        (t.chan c).state = .resting ∧ (t.chan c).v = 0 ∧ (t.chan c).slot = none ∧
        (t.chan c).profile = none ∧ ((s.chan c).aside = none →
          (t.chan c).restState = some .halted ∧ (t.chan c).position = (s.chan c).position)) ∧
      ((∀ c, hit c = true → (s.chan c).profile = none) → t.cue = s.cue) ∧
      (s.cue.dispatch ≠ .idle → s.cue.queue.length + 4 ≤ 16 →
        t.cue.queue = s.cue.queue ++ ([0, 1, 2, 3] : List (Fin 4)).filterMap (fun c =>
          if hit c then (s.chan c).profile.map (Trigger.localDone c .halted) else none)) ∧
      (s.ring.bypass = false → s.ring.sending.isSome = true → s.ring.insertion.length + 4 ≤ 8 →
        (∀ c, hit c = true → (s.chan c).aside = none) →
        t.ring.insertion = s.ring.insertion ++ ([0, 1, 2, 3] : List (Fin 4)).filterMap (fun c =>
          match (s.chan c).held, (s.chan c).profile with
          | .copy k, some q => if hit c = true ∧ k.reportDone = true then some (frame c q) else none
          | .copy _, none => none
          | .absent, _ => none
          | .damaged, _ => none))

/-- A guard that closes is CLOSED, the condition of its GUARD-OPEN record ends, and each channel of its map is
tested for release. The test: a HALTED channel is released once every guard of its map is CLOSED and, where its
copy asks for the attendant, no GUARD-OPEN record of its map waits to be seen: UNHOMED if its position was lost,
else IDLE; a FAULT channel becomes UNHOMED once no record of its fault waits to be seen and, after a driver
fault, its FAULT input is clear; any other channel stands. A release is told as a change of channel state, which
makes the rest test of a CLOSING node. (What a released channel becomes: with no copy held aside; of the whole
event, in a node that is not CLOSING. The channels are tested in ascending order: log entry 18.) -/
def Obligations.GuardClosingReleases : Prop :=
  (∀ (c : Fin 4) (s : State),
    ((s.chan c).state ≠ .halted → (s.chan c).state ≠ .fault → s.releaseTest c = s) ∧
    ((s.chan c).state = .halted →
      s.guardsClosed (s.chan c).guardMap = false ∨ ((s.chan c).attend = true ∧
        ∃ i r, s.slotAt i = some r ∧ r.cause = .guardOpen ∧
          (s.chan c).guardMap.getLsbD r.subject = true ∧ (r.state = .raised ∨ r.state = .called)) →
      s.releaseTest c = s) ∧
    ((s.chan c).state = .fault →
      ((s.chan c).faultReason = some .driver ∧ ((s.chan c).faultPin = true ∨
        ∃ i r, s.slotAt i = some r ∧ r.cause = .driverFault ∧ r.subject = c.val ∧
          (r.state = .raised ∨ r.state = .called))) ∨
      ((s.chan c).faultReason = some .limit ∧
        ∃ i r, s.slotAt i = some r ∧ r.cause = .limitHit ∧ r.subject = c.val ∧
          (r.state = .raised ∨ r.state = .called)) → s.releaseTest c = s) ∧
    ((s.chan c).aside = none →
      ((s.chan c).state = .halted → s.guardsClosed (s.chan c).guardMap = true →
        (s.chan c).attend = false ∨ (∀ i r, s.slotAt i = some r → r.cause = .guardOpen →
          (s.chan c).guardMap.getLsbD r.subject = true →
            r.state = .acknowledged ∨ r.state = .clearing) →
        s.releaseTest c = (s.withChan c { s.chan c with
          state := if (s.chan c).positionLost then .unhomed else .idle }).tellChannel c) ∧
      ((s.chan c).state = .fault →
        ((s.chan c).faultReason = some .driver ∧ (s.chan c).faultPin = false ∧
          ∀ i r, s.slotAt i = some r → r.cause = .driverFault → r.subject = c.val →
            r.state = .acknowledged ∨ r.state = .clearing) ∨
        ((s.chan c).faultReason = some .limit ∧
          ∀ i r, s.slotAt i = some r → r.cause = .limitHit → r.subject = c.val →
            r.state = .acknowledged ∨ r.state = .clearing) →
        s.releaseTest c = (s.withChan c { s.chan c with
          state := .unhomed, faultReason := none }).tellChannel c))) ∧
  ∀ (g : Fin 4) (s : State), s.sampling = true → (s.guardIn g).isOpen = true →
    ∃ u t, exec (.guardClosing g) s = .next t ∧
      u = (s.withGuard g ⟨false, 0, false⟩).conditionEnd .guardOpen g.val ∧
      t = four.foldl (fun a c => if (u.chan c).guardMap.getLsbD g.val then a.releaseTest c else a) u ∧
      t.guardIn g = ⟨false, 0, false⟩ ∧ (∀ h, h ≠ g → t.guardIn h = s.guardIn h) ∧
      (∀ i r, s.findRecord .guardOpen g.val = some i → s.slotAt i = some r →
        (r.state = .raised ∨ r.state = .called → t.slotAt i = some { r with condition := false }) ∧
        (r.state = .acknowledged → s.ring.bypass = true → t.slotAt i = none) ∧
        (r.state = .acknowledged → s.ring.bypass = false → s.ring.sending.isSome = true →
          t.slotAt i = some { r with
            condition := false, state := .clearing, timer := none, due := true })) ∧
      t.mgmt = s.mgmt ∧ t.mem.words = s.mem.words ∧ t.cue = s.cue ∧
      (s.mode.node ≠ .closing → t.effect = s.effect ∧ t.mode = s.mode ∧ ∀ c : Fin 4,
        ((s.chan c).state ≠ .halted → (s.chan c).state ≠ .fault → t.chan c = s.chan c) ∧
        ((s.chan c).state = .halted → (s.chan c).aside = none →
          (s.chan c).guardMap.getLsbD g.val = true →
          ((∃ h : Fin 4, h ≠ g ∧ (s.chan c).guardMap.getLsbD h.val = true ∧
              (s.guardIn h).isOpen = true) ∨
            ((s.chan c).attend = true ∧ ∃ i r, s.slotAt i = some r ∧ r.cause = .guardOpen ∧
              (s.chan c).guardMap.getLsbD r.subject = true ∧
              (r.state = .raised ∨ r.state = .called)) → t.chan c = s.chan c) ∧
          ((∀ h : Fin 4, h ≠ g → (s.chan c).guardMap.getLsbD h.val = true →
              (s.guardIn h).isOpen = false) →
            (s.chan c).attend = false ∨ (∀ i r, s.slotAt i = some r → r.cause = .guardOpen →
              (s.chan c).guardMap.getLsbD r.subject = true →
                r.state = .acknowledged ∨ r.state = .clearing) →
            t.chan c = { s.chan c with
              state := if (s.chan c).positionLost then .unhomed else .idle })))

/-- An asserted FAULT input takes an enabled, energised channel into FAULT with reason DRIVER; an asserted FAR
input one in outward LINEAR motion with reason LIMIT. Each is raised, the channel stops where it stands, its
slot is emptied, and a profile ends: LOCAL-DONE with outcome FAULTED is offered, and a DONE sent if the copy asks
for it (with the transmitter sending and room in the insertion queue). Where the alert table is full and holds
no LIMIT-HIT record of the channel, the overflow flag is set and the channel is released at once, UNHOMED. Where it
is the last channel of a CLOSING node to come to rest, and no record waits to be seen, the node becomes DORMANT
before the raise, and the channel is RESTING from FAULT with its reason kept. A channel that does not read the input
only takes its level. The clear levels end the condition, and FAULT clear tests the channel for release. Each input
reads as it was last sampled, asserted or clear; which channels read it: `TickMakesSteps`. -/
def Obligations.InputsFaultChannels : Prop :=
  ∀ (c : Fin 4) (s : State) (rests : Bool), s.sampling = true →
    (rests = true ↔ s.mode.node = .closing ∧
      (∀ d, d ≠ c → (s.chan d).state = .unhomed ∨ (s.chan d).state = .idle ∨
        (s.chan d).state = .halted ∨ (s.chan d).state = .fault) ∧
      ∀ i r, s.slotAt i = some r → r.state = .acknowledged ∨ r.state = .clearing) →
    (∀ cmd cause, (cmd = .driverFault c ∧ cause = .driverFault ∧ (s.chan c).enabled = true ∧
        s.energised c = true) ∨
      (cmd = .farLimit c ∧ cause = .limitHit ∧ (s.chan c).farRead = true) →
      ∃ t, exec cmd s = .next t ∧ (t.chan c).v = 0 ∧ (t.chan c).slot = none ∧
        (t.chan c).profile = none ∧
        ((t.findRecord cause c.val).isSome = true ∨ t.alert.overflow = true) ∧
        t.mem.words = s.mem.words ∧ t.mgmt = s.mgmt ∧
        ((s.chan c).profile = none → t.cue = s.cue) ∧
        (∀ q, (s.chan c).profile = some q → s.cue.dispatch ≠ .idle → s.cue.queue.length < 16 →
          t.cue.queue = s.cue.queue ++ [.localDone c .faulted q]) ∧
        (cmd = .driverFault c → (t.chan c).faultPin = true ∧
          (t.chan c).faultReason = some .driver) ∧
        (rests = true → (t.chan c).state = .resting ∧
          (t.chan c).faultReason = (if cmd = .driverFault c then some .driver else some .limit) ∧
          t.mode = { s.mode with node := .dormant } ∧ ((s.chan c).aside = none →
            (t.chan c).restState = some .fault ∧ (t.chan c).position = (s.chan c).position)) ∧
        (rests = false → t.effect = s.effect ∧ t.mode = s.mode ∧
          (t.chan c).position = (s.chan c).position ∧
          (cmd = .driverFault c → (t.chan c).state = .fault) ∧
          (cmd = .farLimit c →
            (s.emptySlot.isSome = true ∨ (s.findRecord .limitHit c.val).isSome = true →
              (t.chan c).state = .fault ∧ (t.chan c).faultReason = some .limit ∧
              (t.findRecord .limitHit c.val).isSome = true) ∧
            (s.emptySlot = none → s.findRecord .limitHit c.val = none →
              (t.chan c).state = .unhomed ∧ (t.chan c).faultReason = none ∧
              t.alert.overflow = true))) ∧
        (rests = true ∨ (t.chan c).state = .fault → (s.chan c).aside = none →
          ∀ k q, (s.chan c).held = .copy k → (s.chan c).profile = some q → s.ring.bypass = false →
            s.ring.sending.isSome = true → s.ring.insertion.length < 8 →
            t.ring.insertion = s.ring.insertion ++ (if k.reportDone then
              [⟨0x12, 0, s.address, BitVec.ofNat 8 s.ring.hopLimit,
                [BitVec.ofNat 8 c.val, BitVec.ofNat 8 q.val, 3,
                  if (s.chan c).clamped then 1 else 0] ++ bytesBE 3 (s.chan c).position⟩]
              else []))) ∧
    (∀ v, (∃ t, exec (.inputSample (.far c) v) s = .next t ∧ (t.chan c).farPin = v) ∧
      ∃ t, exec (.inputSample (.fault c) v) s = .next t ∧ (t.chan c).faultPin = v) ∧
    ((s.chan c).enabled = false ∨ s.energised c = false →
      exec (.driverFault c) s = .next (s.withChan c { s.chan c with faultPin := true })) ∧
    ((s.chan c).farRead = false →
      exec (.farLimit c) s = .next (s.withChan c { s.chan c with farPin := true })) ∧
    exec (.faultInputCleared c) s = .next
      (((s.withChan c { s.chan c with faultPin := false }).conditionEnd .driverFault c.val).releaseTest
        c) ∧
    exec (.farCleared c) s = .next
      ((s.withChan c { s.chan c with farPin := false }).conditionEnd .limitHit c.val)

/-- What the words of a channel entry say, and when it is damaged. A word before the last is kept, and the first
damaged word of an entry raises TABLE-DAMAGE. The last word: the block asks for the next entry it owes, and an
UNHOMED, IDLE or RESTING channel takes the copy, any other holds it aside (a HALTED or FAULT one may be released, and
then takes it, where a damaged last word lets an idle transmitter free another record). A copy that disables, one that
changes kind, wrap length, home direction or direction invert, and a LINEAR one whose travel is below the position,
make an IDLE channel UNHOMED at position 0; a RESTING one has its recorded state made UNHOMED (the second only if it
was IDLE), and its position 0 in the third case; becoming DAMAGED acts as the first. With none of them, and after no
copy or a DAMAGED one, the channel stands. No other channel changes. Where an IDLE channel becomes UNHOMED in a
CLOSING node, the rest test may take the node into DORMANT, and the channel is then RESTING from UNHOMED. (That the
first damaged word raises as it is read: log entry 15.) -/
def Obligations.ChannelEntryIsTaken : Prop :=
  (∀ (w0 w1 w2 w3 w4 w5 w6 w7 : Word) (policy park : Nat), policy = field w0 9 2 → park = field w0 16 8 →
    channelOfWords [⟨w0, false⟩, ⟨w1, false⟩, ⟨w2, false⟩, ⟨w3, false⟩, ⟨w4, false⟩, ⟨w5, false⟩,
        ⟨w6, false⟩, ⟨w7, false⟩] =
      (if policy = 3 ∨ (32 ≤ park ∧ park ≠ 255) then .damaged else .copy
        { enabled := w0.getLsbD 0, rotary := w0.getLsbD 1, homeOutward := w0.getLsbD 2
          attend := w0.getLsbD 3, holdsPosition := w0.getLsbD 4, autoHome := w0.getLsbD 5
          reportDone := w0.getLsbD 6, invert := w0.getLsbD 7, lossFinish := w0.getLsbD 8
          policy := if policy = 0 then .refuse else if policy = 1 then .queue else .preempt
          guardMap := BitVec.ofNat 4 (field w0 12 4)
          park := if park = 255 then none else some (Fin.ofNat 32 park)
          quietPercent := max 10 (min 100 (field w0 24 8))
          travel := max (if w0.getLsbD 1 then 2 else 1) (min 1000000 (field w1 0 20))
          startSpeed := max 10 (min 5000 (field w2 0 13))
          homeSpeed := max 10 (min 5000 (field w2 16 13))
          searchLimit := max 1 (min 2000000 (field w3 0 21)) })) ∧
  (∀ ds : List Delivered, ds.length = 8 → (∃ d, d ∈ ds ∧ d.bad = true) → channelOfWords ds = .damaged) ∧
  ∀ (s : State) (i : Nat) (c : Fin 4) (x : Channel) (got : List Delivered) (rest : List Ask)
    (h : Held ChannelSettings),
    s.mem.access = some ⟨.settings .motion, i, false⟩ →
    s.mem.path = ⟨⟨.motion, c.val⟩, got⟩ :: rest → x = s.chan c →
    (channelWordDamaged got.length (s.wordAt i) = true → anyChannelDamage 0 got = false →
      ∃ t, exec .channelSettingsRead s = .next t ∧
        ((t.findRecord .tableDamage 2).isSome = true ∨ t.alert.overflow = true)) ∧
    (got.length < 7 → ∀ u : State,
      u = (if channelWordDamaged got.length (s.wordAt i) = true ∧ anyChannelDamage 0 got = false then
        (s.readFor i .motion).raise .tableDamage 2 else s.readFor i .motion) →
      exec .channelSettingsRead s = .next ({ u with
        mem.path := ⟨⟨.motion, c.val⟩, got ++ [s.wordAt i]⟩ :: rest }).endAccess) ∧
    (got.length = 7 → h = channelOfWords (got ++ [s.wordAt i]) →
      ∃ t, exec .channelSettingsRead s = .next t ∧ t.mem.words = s.mem.words ∧ t.mgmt = s.mgmt ∧
        t.mem.path = (({ s with mem.path := rest }).ask).mem.path ∧
        t.mem.owed = (({ s with mem.path := rest }).ask).mem.owed ∧
        (x.state.replaceable = true → (t.chan c).held = h ∧ (t.chan c).aside = none) ∧
        (x.state.replaceable = false →
          (t.chan c).aside = some h ∨ ((t.chan c).held = h ∧ (t.chan c).aside = none)) ∧
        (x.state = .homing ∨ x.state = .moving ∨ x.state = .stopping ∨ (x.state.replaceable = false ∧
            (s.ring.bypass = true ∨ s.ring.sending.isSome = true)) →
          t.chan c = { x with aside := some h }) ∧
        (s.mode.node ≠ .closing → t.mode.node = s.mode.node) ∧
        ((s.wordAt i).bad = false → t.alert = s.alert ∧ t.cue = s.cue ∧ t.ring = s.ring ∧
          (x.state.replaceable = false → t.chan c = { x with aside := some h }) ∧
          (t.mode.node = s.mode.node → t.effect = s.effect ∧ ∀ d, d ≠ c → t.chan d = s.chan d)) ∧
        ∀ y : Channel,
          (x.state.replaceable = true ∧ (x.held = .absent ∨ x.held = .damaged) ∧
            y = { x with held := h, aside := none }) ∨
          (∃ j, x.held = .copy j ∧ h = .damaged ∧
            (x.state = .unhomed ∧ y = { x with held := h, aside := none } ∨
            x.state = .idle ∧ y =
              { x with held := h, aside := none, state := .unhomed, position := 0 } ∨
            x.state = .resting ∧ y =
              { x with held := h, aside := none, restState := some .unhomed })) ∨
          (∃ (j k : ChannelSettings) (gone moves short : Bool), x.held = .copy j ∧ h = .copy k ∧
            gone = (j.enabled && !k.enabled) ∧
            moves = (j.rotary != k.rotary || (k.rotary && j.travel != k.travel)
              || j.homeOutward != k.homeOutward || j.invert != k.invert) ∧
            short = (!k.rotary && j.travel != k.travel && decide (k.travel < x.position)) ∧
            (x.state = .unhomed ∧ y = { x with held := h, aside := none } ∨
            x.state = .idle ∧ y = (if gone || moves || short then
              { x with held := h, aside := none, state := .unhomed, position := 0 }
              else { x with held := h, aside := none }) ∨
            x.state = .resting ∧ y = { x with
              held := h, aside := none, position := if short then 0 else x.position
              restState := if gone || short || (moves && decide (x.restState = some .idle)) then
                some .unhomed else x.restState })) →
          ({ x with aside := none }).replaceHeld h = y ∧ (t.mode.node = s.mode.node → t.chan c = y) ∧
          (t.mode.node ≠ s.mode.node → t.mode = { s.mode with node := .dormant } ∧
            t.chan c = { y with state := .resting, restState := some .unhomed }) ∧
          ((s.wordAt i).bad = false → (t.mode.node ≠ s.mode.node ↔ s.mode.node = .closing ∧
            x.state = .idle ∧ y.state = .unhomed ∧
            (∀ d, d ≠ c → (s.chan d).state = .unhomed ∨ (s.chan d).state = .idle ∨
              (s.chan d).state = .halted ∨ (s.chan d).state = .fault) ∧
            ∀ i r, s.slotAt i = some r → r.state = .acknowledged ∨ r.state = .clearing)))

/-- What the words of a segment and of a directory entry say, and when they are damaged. The prefetch: a word of an
owed fetch is kept; a complete directory entry is held by its channel, whose owed segment fetches take their words of
it, those the running order does not reach going, and every other owed fetch stands; a complete segment joins the
channel's buffer, and becomes current where the channel waits for it; the fetch of a channel that has left MOVING
ends; a damaged segment word raises TABLE-DAMAGE and stops the channel with outcome FAULTED; a damaged directory word
raises TABLE-DAMAGE and, like an entry without segments, ends the profile at once, FAULTED (with no pending start, no
copy held aside, and not CLOSING: the channel becomes IDLE where it stands and LOCAL-DONE is offered). -/
def Obligations.PrefetchIsDelivered : Prop :=
  (∀ (w0 w1 w2 : Word) (n : Nat), n = field w0 0 23 →
    segmentOfWords [⟨w0, false⟩, ⟨w1, false⟩, ⟨w2, false⟩] =
      (if field w0 30 2 = 3 then none else some
        { kind := if field w0 30 2 = 0 then .goto else if field w0 30 2 = 1 then .byDistance else .dwell
          target := if w0.getLsbD 23 then -(n : Int) else n
          cruise := max 1 (min 20000 (field w1 0 15)), dwell := field w1 16 16
          accel := max 100 (min 200000 (field w2 0 18)) }) ∧
    directoryOfWords [⟨w0, false⟩, ⟨w1, false⟩] =
      some ⟨field w0 0 9, min 32 (field w0 16 6), field w0 24 8⟩) ∧
  (∀ d0 d1 d2 : Delivered,
    (d0.bad = true ∨ d1.bad = true ∨ d2.bad = true → segmentOfWords [d0, d1, d2] = none) ∧
    (d0.bad = true ∨ d1.bad = true → directoryOfWords [d0, d1] = none)) ∧
  (∀ (d : Delivered) (p : Fin 32) (o base n : Nat), n < 3 →
    ((FetchItem.segment o base).wordDamaged n d = true ↔
      d.bad = true ∨ (n = 0 ∧ field d.data 30 2 = 3)) ∧
    ((FetchItem.directory p).wordDamaged n d = true ↔ d.bad = true)) ∧
  ∀ (s : State) (i : Nat) (f : Fetch) (fs : List Fetch),
    s.mem.access = some ⟨.prefetch, i, false⟩ → s.motion.owed = f :: fs →
    (f.cancelled = true ∨ (s.chan f.chan).state ≠ .moving → exec .prefetchRead s = .next
      ({ s.readFor i .prefetch with motion.owed := fs, motion.fetchWords := [] }).endAccess) ∧
    (f.cancelled = false → (s.chan f.chan).state = .moving →
      (f.item.wordDamaged s.motion.fetchWords.length (s.wordAt i) = false →
        s.motion.fetchWords.length + 1 < f.item.len → exec .prefetchRead s = .next
        ({ s.readFor i .prefetch with
          motion.fetchWords := s.motion.fetchWords ++ [s.wordAt i] }).endAccess) ∧
      (∀ p d0 d, f.item = .directory p → s.motion.fetchWords = [d0] → (s.wordAt i).bad = false →
        directoryOfWords [d0, s.wordAt i] = some d → d.count ≠ 0 →
        ∃ t, exec .prefetchRead s = .next t ∧ t.chan f.chan = { s.chan f.chan with dir := some d } ∧
          (∀ x, x ≠ f.chan → t.chan x = s.chan x) ∧ t.motion.fetchWords = [] ∧ t.alert = s.alert ∧
          t.mem.words = s.mem.words ∧
          t.motion.owed = fs.filterMap (fun y => match y.item with
            | .directory _ => some y
            | .segment o _ =>
              if y.chan = f.chan ∧ y.cancelled = false then
                (if ((s.chan f.chan).finalPass = false ∨
                      o < d.count * ((s.chan f.chan).ord / d.count + 1)) ∧
                    (d.repeats = 0 ∨ o < d.count * d.repeats) then
                  some ⟨f.chan, .segment o (592 + 3 * ((d.first + o % d.count) % 512)), false⟩
                else none)
              else some y)) ∧
      (∀ p (damaged : Bool), f.item = .directory p →
        (damaged = true ∧
          f.item.wordDamaged s.motion.fetchWords.length (s.wordAt i) = true) ∨
        (damaged = false ∧ ∃ d0 d, s.motion.fetchWords = [d0] ∧ (s.wordAt i).bad = false ∧
          directoryOfWords [d0, s.wordAt i] = some d ∧ d.count = 0) →
        ∃ t, exec .prefetchRead s = .next t ∧ t.motion.fetchWords = [] ∧
          t.mem.words = s.mem.words ∧
          (damaged = true → (t.findRecord .tableDamage 6).isSome = true ∨ t.alert.overflow = true) ∧
          (s.mode.node ≠ .closing → (s.chan f.chan).slot = none → (s.chan f.chan).aside = none →
            (t.chan f.chan).state = .idle ∧ (t.chan f.chan).profile = none ∧
            (t.chan f.chan).position = (s.chan f.chan).position ∧ (t.chan f.chan).buffer = [] ∧
            (t.chan f.chan).completed = (s.chan f.chan).completed ∧
            (∀ q, (s.chan f.chan).profile = some q → s.cue.dispatch ≠ .idle →
              s.cue.queue.length < 16 →
              t.cue.queue = s.cue.queue ++ [.localDone f.chan .faulted q]))) ∧
      (∀ o base d0 d1 g, f.item = .segment o base → s.motion.fetchWords = [d0, d1] →
        (s.wordAt i).bad = false → segmentOfWords [d0, d1, s.wordAt i] = some g →
        ∀ u v : State, u = (s.readFor i .prefetch).withChan f.chan { s.chan f.chan with
          buffer := (s.chan f.chan).buffer ++ [Buffered.mk o g] } →
        ((s.chan f.chan).current.isSome = true → exec .prefetchRead s = .next
          ({ u with motion.owed := fs, motion.fetchWords := [] }).endAccess) ∧
        (v = u.tryCurrent f.chan → exec .prefetchRead s = .next
          ({ v with motion.owed := v.motion.owed.tail, motion.fetchWords := [] }).endAccess)) ∧
      (∀ o base, f.item = .segment o base →
        f.item.wordDamaged s.motion.fetchWords.length (s.wordAt i) = true →
        ∃ t, exec .prefetchRead s = .next t ∧ (t.chan f.chan).state = .stopping ∧
          (t.chan f.chan).ending = some .faulted ∧ (t.chan f.chan).slot = none ∧
          ((t.findRecord .tableDamage 7).isSome = true ∨ t.alert.overflow = true) ∧
          t.mem.words = s.mem.words))

/-! ## Chapter 7: effects -/

/-- An EFFECT on an unpaired output, its target clamped to 0 to 255: at the target already, nothing but the
target is set; with fade time 0 the level is at the target at once; else the fade runs at the distance
divided by the time, rounded up. On a joined pair, clamped to −255 to 255: a running dead timer is waited
for; with fade time 0 a target of the other sign goes to 0 first and loads the dead timer, and any other is at
the level at once, loading it where that is 0. In DORMANT it is ignored. (That the fade is idle and its step
stands where the distance is 0, that a fade time of 0 leaves no time remaining, and that the sign of a pair is
that of its fine level, however small, are the model's choices: log entry 16. An action that no reset
recalled.) -/
def Obligations.EffectBegins : Prop :=
  ∀ (o : Fin 8) (target t : Int) (fade : BitVec 16) (s : State) (e x : Effect) (after : State),
    s.recalls (.effect o target fade) = false →
    after = ((s.withOut (s.base o) x).handOn (.effect o target fade)) → e = s.out (s.base o) →
    t = (if s.joined o then max (-255) (min 255 target) else max 0 (min 255 target)) →
    (s.mode.node = .dormant →
      exec (.effect o target fade) s = .next (s.handOn (.effect o target fade))) ∧
    (s.mode.node ≠ .dormant →
      (t * 256 = e.fine → x = { e with target := t, running := false } →
        exec (.effect o target fade) s = .next after) ∧
      (t * 256 ≠ e.fine → s.joined o = true → 0 < e.dead →
        x = { e with target := t, remaining := fade.toNat, running := true } →
        exec (.effect o target fade) s = .next after) ∧
      (t * 256 ≠ e.fine → s.joined o = false ∨ e.dead = 0 → fade ≠ 0 →
        x = { e with target := t, remaining := fade.toNat, running := true
                     delta := ((t * 256 - e.fine).natAbs + fade.toNat - 1) / fade.toNat } →
        exec (.effect o target fade) s = .next after) ∧
      (t * 256 ≠ e.fine → s.joined o = false → fade = 0 →
        x = { e with target := t, fine := t * 256, remaining := 0, running := false } →
        exec (.effect o target fade) s = .next after) ∧
      (s.joined o = true → e.dead = 0 → fade = 0 → e.fine * t < 0 →
        x = { e with target := t, fine := 0, dead := s.deadInterval (pairOf o), remaining := 0
                     running := true } →
        exec (.effect o target fade) s = .next after) ∧
      (t * 256 ≠ e.fine → s.joined o = true → e.dead = 0 → fade = 0 → 0 ≤ e.fine * t →
        x = { e with target := t, fine := t * 256, remaining := 0, running := false
                     dead := if t = 0 then s.deadInterval (pairOf o) else 0 } →
        exec (.effect o target fade) s = .next after))

/-- The tick of an output that fades: Δ nearer the target and not past it, idle once there. A pair's dead timer runs
down first; a pair's step onto or across 0 stops at 0 and loads the dead timer; from 0 the fade goes on with a new Δ,
or, without time left, at the target at once. An idle output, and an idle pair whose dead timer is 0, stand. The
expiry of a dead timer that has run out lets the pair's fade that waits at 0 go on; one with time left (loaded anew by
an event that came first: log entry 8), one of a pair without such a fade, and one of a pair that is not joined,
change nothing. A step named for the odd output of a pair is the pair's, which its even output holds. (That a pair at
0 with no dead time left computes its step anew at each tick that finds it there: log entry 16.) -/
def Obligations.FadeTakesStep : Prop :=
  ∀ (o : Fin 8) (s : State) (e : Effect) (f : Int), e = s.out o →
    (s.joined o = true → ∀ p : Fin 8, p.val / 2 = o.val / 2 → p.val % 2 = 0 →
      exec (.fadeStep o) s = exec (.fadeStep p) s) ∧
    (e.running = false → s.joined o = false ∨ (o.val % 2 = 0 ∧ e.dead = 0) →
      exec (.fadeStep o) s = .next s) ∧
    (s.joined o = false → e.running = true →
      f = (if e.fine ≤ e.target * 256 then min (e.fine + e.delta) (e.target * 256)
        else max (e.fine - e.delta) (e.target * 256)) →
      exec (.fadeStep o) s = .next (s.withOut o { e with
        fine := f, remaining := e.remaining - 1, running := decide (f ≠ e.target * 256) })) ∧
    (s.joined o = true → o.val % 2 = 0 → 0 < e.dead →
      exec (.fadeStep o) s = .next (s.withOut o { e with dead := e.dead - 1 })) ∧
    (s.joined o = true → o.val % 2 = 0 → e.dead = 0 → e.running = true → e.fine ≠ 0 →
      f = (if e.fine ≤ e.target * 256 then min (e.fine + e.delta) (e.target * 256)
        else max (e.fine - e.delta) (e.target * 256)) →
      (0 < f * e.fine → exec (.fadeStep o) s = .next (s.withOut o { e with
        fine := f, remaining := e.remaining - 1, running := decide (f ≠ e.target * 256) })) ∧
      (f * e.fine ≤ 0 → exec (.fadeStep o) s = .next (s.withOut o { e with
        fine := 0, dead := s.deadInterval (pairOf o), remaining := e.remaining - 1
        running := decide (e.target ≠ 0) }))) ∧
    (s.joined o = true → o.val % 2 = 0 → e.dead = 0 → e.running = true → e.fine = 0 →
      exec (.fadeStep o) s = exec (.deadTimerExpiry (pairOf o)) s) ∧
    (s.joined o = false ∨ (o.val % 2 = 0 ∧ (0 < e.dead ∨ e.running = false ∨ e.fine ≠ 0)) →
      exec (.deadTimerExpiry (pairOf o)) s = .next s) ∧
    (s.joined o = true → o.val % 2 = 0 → e.dead = 0 → e.fine = 0 → e.running = true →
      (e.remaining = 0 → exec (.deadTimerExpiry (pairOf o)) s = .next (s.withOut o { e with
        fine := e.target * 256, running := false })) ∧
      ∀ step : Nat, 0 < e.remaining →
        step = ((e.target * 256).natAbs + e.remaining - 1) / e.remaining →
        f = (if 0 < e.target then min (step : Int) (e.target * 256)
          else max (-(step : Int)) (e.target * 256)) →
        exec (.deadTimerExpiry (pairOf o)) s = .next (s.withOut o { e with
          delta := step, fine := f, remaining := e.remaining - 1
          running := decide (f ≠ e.target * 256) }))

/-- At the start of a carrier period the counter is 0, the working copy of the carrier is in force, and every
output takes the high time of its drive level; an output is high while the counter is below its high time. The
drive level of an unpaired output is its level, which is the fine level over 256, rounded down; of a joined pair
the even output drives a level above 0 and the odd output one below 0, each its magnitude rounded down, and the
other output 0. -/
def Obligations.CarrierPeriodTakesLevels : Prop :=
  (∀ (s : State) (k : Carrier) (n : Nat), s.effect.carrier = some k → s.effect.counting = true →
    s.ring.bypass = false → n = (match k with | .hz200 => 80000 | .khz1 => 16000 | .khz20 => 800) →
    ∃ t, exec .carrierPeriodStart s = .next t ∧ t.effect.counter = 0 ∧ t.effect.inForce = k ∧
      (∀ o, t.out o = { s.out o with highTime := s.driveLevel o * n / 255 }) ∧
      t = { s with effect := { s.effect with
        counter := 0, inForce := k, outputs := t.effect.outputs } }) ∧
  (∀ (s : State) (o : Fin 8), (s.joined o = true ↔ s.effect.pairing.getLsbD (o.val / 2) = true) ∧
    (s.joined o = false →
      s.driveLevel o = if 0 < (s.out o).fine then (s.out o).fine.natAbs / 256 else 0) ∧
    (s.effectPin o = true ↔ s.ring.bypass = false ∧ s.effect.counting = true ∧
      s.effect.counter < (s.out o).highTime)) ∧
  ∀ (s : State) (j : Fin 4) (e : Effect), s.effect.pairing.getLsbD j.val = true → e = s.out (evenOf j) →
    (evenOf j).val = 2 * j.val ∧ (oddOf j).val = 2 * j.val + 1 ∧
    s.driveLevel (evenOf j) = (if 0 < e.fine then e.fine.natAbs / 256 else 0) ∧
    s.driveLevel (oddOf j) = (if e.fine < 0 then e.fine.natAbs / 256 else 0) ∧
    (s.driveLevel (evenOf j) = 0 ∨ s.driveLevel (oddOf j) = 0)

/-- What the words of an effect entry, a cause and the carrier and pairing say, and when one is damaged. The first
word of an effect entry is kept. The last replaces the output's held entry; the node settings word, the working copies
of carrier and pairing, both outputs of a pair whose pairing changes going to level 0; a cause word, the cause's held
settings; the local-play word is held while LINE-LOST is set, a damaged one as clear. A DAMAGED effect entry has a
dead interval of 255 ms; a DAMAGED cause is URGENT without escalation, and an unread one has its blank values. The
first taking of the node settings word starts the carrier counter; a damaged one raises TABLE-DAMAGE and keeps the
working copies, or, as the first, starts 1 kHz with no pair. After each the block asks for the next entry it owes. No
other unit changes, but that a damaged word raises TABLE-DAMAGE. (The model's choices: that the first taking changes
no pairing, and that a change of pairing makes the target 0: log entry 16; that the first taking starts the first
period, in which every output takes its high time at once: log entry 20; that the lamps are computed anew at the
local-play delivery, that the word is dropped once LINE-LOST is clear, and that it serves the present LINE-LOST as the
read finds it, also where a PUT wrote it since LINE-LOST was set: log entry 22; that an invalid start level makes the
cause CUED-CALL DAMAGED too: log entry 14.) -/
def Obligations.EffectAlertAndLocalPlayWordsAreTaken : Prop :=
  (∀ (w0 w1 : Word) (l : Int), l = (if field w0 0 16 < 32768 then (field w0 0 16 : Int)
      else (field w0 0 16 : Int) - 65536) →
    effectOfWords [⟨w0, false⟩, ⟨w1, false⟩] = .copy ⟨max (-255) (min 255 l), field w1 0 8⟩ ∧
    causeOfWord ⟨w0, false⟩ = (if field w0 0 2 = 3 then .damaged else .copy
      ⟨if field w0 0 2 = 0 then .notice else if field w0 0 2 = 1 then .attend else .urgent,
        field w0 8 8⟩) ∧
    carrierOfWord ⟨w0, false⟩ = (if field w0 0 2 = 3 then none else some
      (if field w0 0 2 = 0 then .hz200 else if field w0 0 2 = 1 then .khz1 else .khz20,
        BitVec.ofNat 4 (field w0 8 4)))) ∧
  (∀ d0 d1 : Delivered, (d0.bad = true ∨ d1.bad = true → effectOfWords [d0, d1] = .damaged) ∧
    (d0.bad = true → causeOfWord d0 = .damaged ∧ carrierOfWord d0 = none)) ∧
  (∀ (s : State) (k : Fin 4),
    (∀ e, (s.out (evenOf k)).held = .copy e → s.deadInterval k = e.dead) ∧
    ((s.out (evenOf k)).held = .damaged → s.deadInterval k = 255) ∧
    ((s.out (evenOf k)).held = .absent → s.deadInterval k ≤ 255)) ∧
  (∀ (s : State) (c : Cause),
    (∀ j, s.alert.held[c.code] = .copy j → s.causeSettings c = j) ∧
    (s.alert.held[c.code] = .damaged → s.causeSettings c = ⟨.urgent, 0⟩) ∧
    (s.alert.held[c.code] = .absent → s.causeSettings c = match c with
      | .guardOpen => ⟨.attend, 6⟩ | .driverFault => ⟨.urgent, 0⟩ | .limitHit => ⟨.urgent, 0⟩
      | .homeFailed => ⟨.attend, 30⟩ | .help => ⟨.attend, 6⟩ | .buttonStuck => ⟨.notice, 30⟩
      | .roughHandling => ⟨.notice, 0⟩ | .tableDamage => ⟨.attend, 0⟩ | .lineLost => ⟨.attend, 60⟩
      | .cuedCall => ⟨.attend, 12⟩ | .imageFailed => ⟨.urgent, 0⟩ | .saveFailed => ⟨.attend, 0⟩)) ∧
  ∀ (s next : State) (i : Nat) (rest : List Ask) (got : List Delivered),
    next = ({ s with mem.path := rest }).ask →
    (∀ o : Fin 8, s.mem.access = some ⟨.settings .effect, i, false⟩ →
      s.mem.path = ⟨⟨.effect, o.val⟩, []⟩ :: rest → exec .effectSettingsRead s = .next
        ({ s.readFor i .effect with
          mem.path := ⟨⟨.effect, o.val⟩, [s.wordAt i]⟩ :: rest }).endAccess) ∧
    (∀ o : Fin 8, s.mem.access = some ⟨.settings .effect, i, false⟩ →
      s.mem.path = ⟨⟨.effect, o.val⟩, got⟩ :: rest → got.length = 1 →
      ∃ t, exec .effectSettingsRead s = .next t ∧ t.mem.path = next.mem.path ∧
        t.mem.owed = next.mem.owed ∧
        t.out o = { s.out o with held := effectOfWords (got ++ [s.wordAt i]) } ∧
        (∀ p, p ≠ o → t.out p = s.out p) ∧ t.mem.words = s.mem.words ∧ t.cue = s.cue ∧
        t.mgmt = s.mgmt ∧ t.mode = s.mode ∧
        (effectOfWords (got ++ [s.wordAt i]) = .damaged →
          (t.findRecord .tableDamage 3).isSome = true ∨ t.alert.overflow = true) ∧
        (effectOfWords (got ++ [s.wordAt i]) ≠ .damaged →
          t = { s with effect := t.effect, mem := t.mem })) ∧
    (∀ k p, s.mem.access = some ⟨.settings .effect, i, false⟩ →
      s.mem.path = ⟨⟨.effect, 8⟩, []⟩ :: rest → carrierOfWord (s.wordAt i) = some (k, p) →
      ∃ t, exec .effectSettingsRead s = .next t ∧ t.mem.path = next.mem.path ∧
        t.mem.owed = next.mem.owed ∧ t.effect.carrier = some k ∧ t.effect.pairing = p ∧
        t = { s with effect := t.effect, mem := t.mem } ∧ t.mem.words = s.mem.words ∧
        (s.effect.carrier = none → t.effect.counter = 0 ∧ t.effect.inForce = k ∧
          t.effect.counting = true ∧ ∀ o, t.out o = { s.out o with
            highTime := t.driveLevel o
              * (match k with | .hz200 => 80000 | .khz1 => 16000 | .khz20 => 800) / 255 }) ∧
        (s.effect.carrier ≠ none → t.effect.inForce = s.effect.inForce ∧ ∀ o : Fin 8, t.out o =
          (if p.getLsbD (o.val / 2) = s.effect.pairing.getLsbD (o.val / 2) then s.out o
          else { s.out o with
            fine := 0, target := 0, running := false
            dead := if p.getLsbD (o.val / 2) = true ∧ o.val % 2 = 0 then s.deadInterval (pairOf o)
              else 0 }))) ∧
    (s.mem.access = some ⟨.settings .effect, i, false⟩ → s.mem.path = ⟨⟨.effect, 8⟩, []⟩ :: rest →
      carrierOfWord (s.wordAt i) = none →
      ∃ t, exec .effectSettingsRead s = .next t ∧ t.mem.path = next.mem.path ∧
        t.mem.owed = next.mem.owed ∧ t.mem.words = s.mem.words ∧ t.cue = s.cue ∧
        t.mgmt = s.mgmt ∧ ((t.findRecord .tableDamage 0).isSome = true ∨ t.alert.overflow = true) ∧
        (s.effect.carrier ≠ none → s.mode.node ≠ .closing → t.effect = s.effect) ∧
        (s.effect.carrier = none → t.effect.carrier = some .khz1 ∧ t.effect.inForce = .khz1 ∧
          t.effect.pairing = 0 ∧ t.effect.counter = 0 ∧ t.effect.counting = true)) ∧
    (∀ j : Fin 12, s.mem.access = some ⟨.settings .alert, i, false⟩ →
      s.mem.path = ⟨⟨.alert, j.val⟩, []⟩ :: rest →
      ∃ t, exec .alertSettingsRead s = .next t ∧ t.mem.path = next.mem.path ∧
        t.mem.owed = next.mem.owed ∧
        t.alert.held = s.alert.held.set j (causeOfWord (s.wordAt i)) ∧
        t.effect = s.effect ∧ t.mode = s.mode ∧ t.cue = s.cue ∧ t.mgmt = s.mgmt ∧
        t.mem.words = s.mem.words ∧
        (causeOfWord (s.wordAt i) = .damaged →
          (t.findRecord .tableDamage 1).isSome = true ∨ t.alert.overflow = true) ∧
        (causeOfWord (s.wordAt i) ≠ .damaged → t = { s with
          alert.held := t.alert.held, mem := t.mem })) ∧
    (s.mem.access = some ⟨.settings .mode, i, false⟩ → s.mem.path = ⟨⟨.mode, 0⟩, []⟩ :: rest →
      ∃ t, exec .localPlayRead s = .next t ∧ t.mem.path = next.mem.path ∧
        t.mem.owed = next.mem.owed ∧
        t.mode = { s.mode with
          localPlay := if s.mode.lineLost then some (!(s.wordAt i).bad && (s.wordAt i).data.getLsbD 0)
            else s.mode.localPlay } ∧
        (s.mode.lineLost = true → ∀ b, t.btn b = { s.btn b with lamp := t.lampFor b }) ∧
        (s.mode.lineLost = false → t.button = s.button) ∧
        t.motion = s.motion ∧ t.effect = s.effect ∧ t.alert = s.alert ∧ t.ring = s.ring ∧
        t.cue = s.cue ∧ t.mgmt = s.mgmt ∧ t.mem.words = s.mem.words)

/-! ## Chapter 9: table memory -/

/-- A word stored with its check bits reads clean; with any one of the 39 bits upset it reads corrected, with
the right data; with any two upset it reads uncorrectable. The data bits stand in bits 0 to 31 and the check bits
above them; check bit j is the exclusive-or of the data bits whose syndrome has bit j set; the syndrome is the
exclusive-or of the stored and the fresh check bits. A syndrome of 0 reads clean, one of the table the data with that
bit inverted, one of a check bit the data as stored, each corrected, and any other the data as stored,
uncorrectable. -/
def Obligations.StoredWordSurvivesUpset : Prop :=
  (∀ syn : Nat → BitVec 7, syn = (fun i => BitVec.ofNat 7 (([7, 11, 13, 14, 19, 21, 22, 25, 26, 28, 35, 37, 38, 41,
        42, 44, 49, 50, 52, 56, 67, 69, 70, 73, 74, 76, 81, 82, 84, 88, 97, 98] : List Nat).getD i 0)) →
    (∀ w : Word, (encodeWord w).setWidth 32 = w ∧
      (∀ j, j < 7 → (encodeWord w).getLsbD (32 + j) =
        (List.range 32).foldl (fun a i => a ^^ (w.getLsbD i && (syn i).getLsbD j)) false) ∧
      (∀ i, i < 32 → syndromeOf (encodeWord w ^^^ (1#39 <<< i)) = syn i) ∧
      ∀ j, j < 7 → syndromeOf (encodeWord w ^^^ (1#39 <<< (32 + j))) = 1#7 <<< j) ∧
    ∀ (k : Codeword) (d : Word) (y : BitVec 7), d = k.setWidth 32 → y = syndromeOf k →
      y = ((encodeWord d ^^^ k) >>> 32).setWidth 7 ∧ (y = 0 → classify k = (.clean, d)) ∧
      (∀ i, i < 32 → y = syn i → classify k = (.corrected, d ^^^ (1#32 <<< i))) ∧
      (∀ j, j < 7 → y = 1#7 <<< j → classify k = (.corrected, d)) ∧
      (y ≠ 0 → (∀ i, i < 32 → y ≠ syn i) → (∀ j, j < 7 → y ≠ 1#7 <<< j) →
        classify k = (.uncorrectable, d))) ∧
  ∀ w : Word, classify (encodeWord w) = (.clean, w) ∧
    (∀ i, i < 39 → classify (encodeWord w ^^^ (1#39 <<< i)) = (.corrected, w)) ∧
    (∀ i j, i < j → j < 39 →
      (classify (encodeWord w ^^^ (1#39 <<< i) ^^^ (1#39 <<< j))).1 = .uncorrectable)

/-- When the memory is free and open, the highest rank that has been passed over 16 times, else the highest
rank that waits, is granted one access: its own count falls to 0, every other waiter's rises by one to 16 at
most, and that of a rank without a request is 0. With no request, with an access in progress, or before the
load has ended, nothing is granted. When an access ends, the memory is free and the choice is made again. The ranks
from the highest: the prefetch, for the next word of the fetch at the head of its list; management, for a PEEK's or
PUT's next word, else a save's; the cue engine, for the entry it reads; the settings path, for the entry at its
head; the scrubber, for the word at its pointer. A block without a request on the settings path asks for the first
entry it owes, the blocks in the order button, motion, effect, alert, mode. A read that a RESTART found granted is
counted and logged, and delivered to nobody. (The model's choices: that a scrub request names the word at the pointer
as it stands at the grant, and that a PEEK's word takes the place of a save's read that waits: log entry 33; that with
no command pending the step runs a cancelled access to its end as a further command, a verify read with word 0: log
entry 1.) -/
def Obligations.ArbiterGrantsOne : Prop :=
  (∀ s : State,
    (s.mem.access.isSome = true ∨ s.arbiterOpen = false ∨ (∀ r, s.waits r = false) →
      s.arbitrate = s) ∧
    (s.arbiterOpen = true ↔ s.mgmt.image ≠ .empty ∧ s.mgmt.image ≠ .loading) ∧
    (∀ (r : Fin 5) (op : AccessOp) (i : Nat), s.mem.access = none → s.arbiterOpen = true →
      s.need r = some (op, i) →
      ((s.mem.passOver[r] = 16 ∧ ∀ q, q < r → s.waits q = true → s.mem.passOver[q] ≠ 16) ∨
        ((∀ q, s.waits q = true → s.mem.passOver[q] ≠ 16) ∧ ∀ q, q < r → s.waits q = false)) →
      ∃ t, s.arbitrate = t ∧ t.mem.access = some ⟨op, i, false⟩ ∧
        (∀ q : Fin 5, t.mem.passOver[q] =
          if q = r then 0 else if s.waits q then min 16 (s.mem.passOver[q] + 1) else 0) ∧
        (t.mem.scrubWaiting = true ↔ s.mem.scrubWaiting = true ∧ r ≠ 4) ∧
        t = { s with mem := { s.mem with
          access := t.mem.access, passOver := t.mem.passOver, scrubWaiting := t.mem.scrubWaiting } }) ∧
    s.endAccess = ({ s with mem.access := none }).arbitrate) ∧
  (∀ (s : State) (r : Fin 5), (s.waits r = true ↔ s.need r ≠ none) ∧
    ([0, 1, 2, 3, 4, 5, 6, 7].map regionFirst) = [0, 16, 32, 64, 80, 144, 528, 592] ∧
    (s.motion.owed = [] → s.need 0 = none) ∧
    (∀ f fs n, s.motion.owed = f :: fs → n = s.motion.fetchWords.length →
      (∀ p, f.item = .directory p → s.need 0 = some (.prefetch, 528 + 2 * p.val + n)) ∧
      (∀ o base, f.item = .segment o base → s.need 0 = some (.prefetch, base + n))) ∧
    (∀ t first n got, s.mgmt.slot = .working (.peek t first n got) → got.length < n →
      s.need 1 = some (.peekRead, regionFirst t + first + got.length)) ∧
    (∀ t first ws hit n w, s.mgmt.slot = .working (.put t first ws hit n) → ws[n]? = some w →
      s.need 1 = some (.putWrite w, regionFirst t + first + n)) ∧
    (s.mgmt.slot = .empty ∨ (∃ f, s.mgmt.slot = .answering f) →
      (s.mgmt.save = none → s.need 1 = none) ∧ ∀ p, s.mgmt.save = some p →
        (∀ k, p.step = .erase k → s.need 1 = none) ∧ (p.step = .header → s.need 1 = none) ∧
        (∀ u, p.step = .program u → s.need 1 = if p.buffer.length < unitWords u then
          some (.saveRead, unitFirst u + p.buffer.length) else none) ∧
        (∀ i, p.step = .verify i → s.need 1 = some (.verifyRead, i))) ∧
    (∀ t e got, s.cue.dispatch = .scanning t e got →
      s.need 2 = some (.cueRead, 144 + 6 * e + got.length)) ∧
    ((∀ t e got, s.cue.dispatch ≠ .scanning t e got) → s.need 2 = none) ∧
    (s.mem.path = [] → s.need 3 = none) ∧
    (∀ e got rest n, n = got.length →
      (s.mem.path = ⟨⟨.button, e⟩, got⟩ :: rest →
        s.need 3 = some (.settings .button, 80 + 4 * e + n)) ∧
      (s.mem.path = ⟨⟨.motion, e⟩, got⟩ :: rest →
        s.need 3 = some (.settings .motion, 32 + 8 * e + n)) ∧
      (s.mem.path = ⟨⟨.effect, e⟩, got⟩ :: rest →
        s.need 3 = some (.settings .effect, (if e = 8 then 2 else 64 + 2 * e) + n)) ∧
      (s.mem.path = ⟨⟨.alert, e⟩, got⟩ :: rest → s.need 3 = some (.settings .alert, 16 + e + n)) ∧
      (s.mem.path = ⟨⟨.mode, e⟩, got⟩ :: rest → s.need 3 = some (.settings .mode, 3 + n))) ∧
    s.need 4 = (if s.mem.scrubWaiting then some (.scrub, s.mem.scrubPtr) else none)) ∧
  (∀ (s : State) (b : Block), s.ask =
      ((((s.askFor .button).askFor .motion).askFor .effect).askFor .alert).askFor .mode ∧
    ((∃ a, a ∈ s.mem.path ∧ a.job.block = b) ∨ (∀ j, j ∈ s.mem.owed → j.block ≠ b) →
      s.askFor b = s) ∧
    (∀ j before after, (∀ a, a ∈ s.mem.path → a.job.block ≠ b) → j.block = b →
      (∀ k, k ∈ before → k.block ≠ b) → s.mem.owed = before ++ j :: after →
      s.askFor b = { s with
        mem.path := s.mem.path ++ [⟨j, []⟩], mem.owed := before ++ after })) ∧
  ∀ (s : State) (i : Nat) (op : AccessOp) (who : Requester) (cmd : Instr) (w : Word),
    s.mem.access = some ⟨op, i, true⟩ →
    (op = .prefetch ∧ who = .prefetch ∧ cmd = .prefetchRead) ∨
    (op = .cueRead ∧ who = .cue ∧ cmd = .cueRead) ∨
    (op = .peekRead ∧ who = .management ∧ cmd = .peekWordRead) ∨
    (op = .saveRead ∧ who = .management ∧ cmd = .saveWordRead) ∨
    (op = .verifyRead ∧ who = .management ∧ cmd = .saveVerifyRead w) →
    exec cmd s = .next ((s.readFor i who).endAccess) ∧
    (s.pending = [] → s.nextAction = none → s.mgmt.waiting = [] →
      step s = .next { s with pending := [if op = .verifyRead then .saveVerifyRead 0 else cmd] })

/-- A read by any requester: a clean word is delivered and neither counted nor logged; one with a corrected error is
delivered corrected, an uncorrectable one as damaged, and each is counted, and logged with its index, kind, syndrome
and requester where the log is empty; the stored word stands. A scrub timer that has run out runs on for an interval
and asks for an access, unless a request waits already; one with time left, or stopped, does not expire. The access
reads one word so; a corrected one is rewritten with its corrected data, an uncorrectable one is left as it stands and
raised as TABLE-DAMAGE for its region, no other unit being told; then the pointer goes on, and after the last word a
pass is counted. (The model's choice: after a RESTART that fell during the access the pointer and the count of passes
stand, even at word 2127: log entry 21.) -/
def Obligations.ScrubberRepairs : Prop :=
  (∀ (s : State) (i : Nat) (who : Requester) (k : Codeword), k = Memory.read s.mem.words i →
    (s.wordAt i).data = (classify k).2 ∧ ((s.wordAt i).bad = true ↔ (classify k).1 = .uncorrectable) ∧
    (i < 2128 → regionFirst (regionOf i) ≤ i ∧ i < regionFirst (regionOf i) + regionWords (regionOf i)) ∧
    ((classify k).1 = .clean → s.readFor i who = s) ∧
    ((classify k).1 = .corrected → s.readFor i who = { s with
      mem.corrected := min 65535 (s.mem.corrected + 1)
      mem.log := match s.mem.log with
        | none => some ⟨i, .corrected, syndromeOf k, who⟩
        | some l => some l }) ∧
    ((classify k).1 = .uncorrectable → s.readFor i who = { s with
      mem.uncorrectable := min 65535 (s.mem.uncorrectable + 1)
      mem.log := match s.mem.log with
        | none => some ⟨i, .uncorrectable, syndromeOf k, who⟩
        | some l => some l })) ∧
  ∀ (s : State) (i ptr passes : Nat) (k : Codeword), k = Memory.read s.mem.words i →
    ptr = (if i < 2127 then i + 1 else 0) →
    passes = (if i < 2127 then s.mem.passes else inc16 s.mem.passes) →
    (s.mem.scrubTimer ≠ some 0 → exec .scrubTimerExpiry s = .next s) ∧
    (s.mem.scrubTimer = some 0 → exec .scrubTimerExpiry s = .next
      ({ s with mem.scrubTimer := some s.mem.scrubInterval, mem.scrubWaiting := true }).arbitrate) ∧
    (s.mem.access = some ⟨.scrub, i, false⟩ → s.mem.scrubPtr = i →
      ((classify k).1 = .clean → exec .scrubAccess s = .next
        ({ s with mem.scrubPtr := ptr, mem.passes := passes }).endAccess) ∧
      ((classify k).1 = .corrected → exec .scrubAccess s = .next
        ({ s with
          mem.words := Memory.write s.mem.words i (encodeWord (classify k).2)
          mem.corrected := inc16 s.mem.corrected, mem.scrubPtr := ptr, mem.passes := passes
          mem.log := s.mem.log <|> some (ErrorLog.mk i .corrected (syndromeOf k) .scrubber)
          }).endAccess) ∧
      ((classify k).1 = .uncorrectable → exec .scrubAccess s = .next
        ({ ({ s with
            mem.uncorrectable := inc16 s.mem.uncorrectable
            mem.log := s.mem.log <|> some (ErrorLog.mk i .uncorrectable (syndromeOf k) .scrubber)
            }).raise .tableDamage (regionOf i) with
          mem.scrubPtr := ptr, mem.passes := passes }).endAccess)) ∧
    (s.mem.access = some ⟨.scrub, i, true⟩ →
      ((classify k).1 = .clean → exec .scrubAccess s = .next s.endAccess) ∧
      ((classify k).1 = .corrected → exec .scrubAccess s = .next
        ({ s.readFor i .scrubber with
          mem.words := Memory.write s.mem.words i (encodeWord (classify k).2) }).endAccess) ∧
      ((classify k).1 = .uncorrectable → exec .scrubAccess s = .next
        ((s.readFor i .scrubber).raise .tableDamage (regionOf i)).endAccess))

/-! ## Chapter 10: management -/

/-- A PUT at an occupied request slot is dropped and counted. At an empty slot it is examined in the order of
R167, the first failed test giving the result of its ANSWER; a PUT of a table that passes every test occupies
the slot with the words to store. A word is in use if it lies in the entry of a channel in HOMING, MOVING,
STOPPING, HALTED or FAULT, in the directory entry of a profile begun, or in a segment of it. The range test goes
word by word: a word with an invalid code fails it, and any other is stored with its numbers clamped and every bit
of no field 0; the ANSWER is CLAMPED where a clamp changed a number. The travel of a channel is at least 1, and 2
if its entry is ROTARY as it stands after the PUT. (The model's choices: that before the directory entry of a
profile begun is read no segment is in use for it: log entry 37; that the kind stored is read as a read would
correct it, bit 1 of word 0 as stored where it reads uncorrectable, and neither counted nor logged: log entry 24; that
an operand its trigger type does not use, and the start level of CUED-CALL, are stored or tested as the table of
section 11.3 lays the word out: log entry 14.) -/
def Obligations.PutIsExamined : Prop :=
  (∀ (s : State) (t i : Nat), s.wordInUse t i = true ↔
    (t = 2 ∧ ∃ c : Fin 4, i / 8 = c.val ∧ ((s.chan c).state = .homing ∨ (s.chan c).state = .moving ∨
      (s.chan c).state = .stopping ∨ (s.chan c).state = .halted ∨ (s.chan c).state = .fault)) ∨
    (t = 6 ∧ ∃ (c : Fin 4) (p : Fin 32), (s.chan c).profile = some p ∧ i / 2 = p.val) ∨
    (t = 7 ∧ ∃ (c : Fin 4) (p : Fin 32) (d : Directory) (k : Nat), (s.chan c).profile = some p ∧
      (s.chan c).dir = some d ∧ k < d.count ∧ i / 3 = (d.first + k) % 512)) ∧
  (∀ (s : State) (t first i : Nat) (all ws : List Word) (w : Word) (rules : List FieldRule),
    s.storedFrom t first all i [] = some [] ∧ s.clampedFrom t first all i [] = false ∧
    (rules = wordRules t (i % entryWords t) i (s.rotaryAfter first all i) w →
      (applyRules rules w = none ∨ s.storedFrom t first all (i + 1) ws = none →
        s.storedFrom t first all i (w :: ws) = none) ∧
      (∀ x xs, applyRules rules w = some x → s.storedFrom t first all (i + 1) ws = some xs →
        s.storedFrom t first all i (w :: ws) = some (x :: xs)) ∧
      (s.clampedFrom t first all i (w :: ws) = true ↔
        (∃ r, r ∈ rules ∧ r.fix (field w r.lo r.len) ≠ field w r.lo r.len) ∨
          s.clampedFrom t first all (i + 1) ws = true)) ∧
    (∀ k, i / 8 * 8 = first + k → k < all.length →
      s.rotaryAfter first all i = (all.getD k 0).getLsbD 1) ∧
    (i / 8 * 8 < first ∨ first + all.length ≤ i / 8 * 8 →
      s.rotaryAfter first all i = (s.wordAt (32 + i / 8 * 8)).data.getLsbD 1)) ∧
  (∀ (w : Word) (i : Nat) (r : Bool) (f : Nat → Nat → Nat) (g : Nat → Nat → Word),
    f = (fun lo len => w.toNat / 2 ^ lo % 2 ^ len) →
    g = (fun lo len => BitVec.ofNat 32 (f lo len * 2 ^ lo)) →
    applyRules (wordRules 0 0 i r w) w = some (BitVec.ofNat 32 (max 2 (min 127 (f 0 7)))
      ||| BitVec.ofNat 32 (max 10 (min 500 (f 16 9)) * 2 ^ 16)) ∧
    applyRules (wordRules 0 1 i r w) w = some (BitVec.ofNat 32 (max 1 (min 255 (f 0 8)))) ∧
    applyRules (wordRules 0 2 i r w) w = (if f 0 2 = 3 then none else some (g 0 2 ||| g 8 4)) ∧
    applyRules (wordRules 0 3 i r w) w = some (g 0 1) ∧
    (i < 12 → applyRules (wordRules 1 0 i r w) w =
      (if f 0 2 = 3 then none else some (g 0 2 ||| g 8 8))) ∧
    applyRules (wordRules 2 0 i r w) w =
      (if f 9 2 = 3 ∨ (32 ≤ f 16 8 ∧ f 16 8 ≠ 255) then none
      else some (g 0 9 ||| g 9 2 ||| g 12 4 ||| g 16 8
        ||| BitVec.ofNat 32 (max 10 (min 100 (f 24 8)) * 2 ^ 24))) ∧
    applyRules (wordRules 2 1 i r w) w = some (BitVec.ofNat 32
      (max (if r then 2 else 1) (min 1000000 (f 0 20)))) ∧
    applyRules (wordRules 2 2 i r w) w = some (BitVec.ofNat 32 (max 10 (min 5000 (f 0 13)))
      ||| BitVec.ofNat 32 (max 10 (min 5000 (f 16 13)) * 2 ^ 16)) ∧
    applyRules (wordRules 2 3 i r w) w = some (BitVec.ofNat 32 (max 1 (min 2000000 (f 0 21)))) ∧
    (∀ l : Int, l = max (-255) (min 255 (if f 0 16 < 2 ^ 15 then (f 0 16 : Int) else f 0 16 - 2 ^ 16)) →
      applyRules (wordRules 3 0 i r w) w = some (BitVec.ofNat 32 (l % 2 ^ 16).toNat)) ∧
    applyRules (wordRules 3 1 i r w) w = some (g 0 8) ∧
    applyRules (wordRules 4 0 i r w) w =
      (if 4 ≤ f 8 8 ∧ f 8 8 ≠ 255 then none else some (g 0 3 ||| g 8 8)) ∧
    applyRules (wordRules 4 1 i r w) w = some (BitVec.ofNat 32 (max 1 (min 50 (f 0 8)))
      ||| BitVec.ofNat 32 ((if f 8 8 = 0 then 0 else max 5 (min 100 (f 8 8))) * 2 ^ 8)
      ||| BitVec.ofNat 32 (max 10 (min 120 (f 16 8)) * 2 ^ 16)) ∧
    applyRules (wordRules 4 2 i r w) w = some (BitVec.ofNat 32 (min 15 (f 0 8))
      ||| BitVec.ofNat 32 (min 15 (f 8 8) * 2 ^ 8)
      ||| BitVec.ofNat 32 (max 1 (min 255 (f 16 8)) * 2 ^ 16)) ∧
    (∀ t A B C : Nat, t = f 24 3 → A = f 16 8 → B = f 8 8 → C = f 0 8 →
      applyRules (wordRules 5 0 i r w) w =
        (if 6 ≤ t ∨ ((t = 1 ∨ t = 2) ∧ (A = 0 ∨ (120 < A ∧ A ≠ 255))) ∨ (t = 1 ∧ 16 ≤ B ∧ B ≠ 255) ∨
            (t = 3 ∧ 16 ≤ B) ∨ ((t = 2 ∨ t = 4) ∧ 4 ≤ B) ∨ ((t = 1 ∨ t = 3) ∧ 2 ≤ C) ∨
            ((t = 2 ∨ t = 4) ∧ 32 ≤ C ∧ C ≠ 255) ∨ (t = 5 ∧ (C = 0 ∨ 5 ≤ C)) then none
        else some (g 0 8 ||| g 8 8 ||| g 16 8 ||| g 24 3 ||| g 31 1))) ∧
    applyRules (wordRules 5 1 i r w) w =
      (if (4 ≤ f 8 8 ∧ f 8 8 ≠ 255) ∨ f 16 3 = 0 ∨ 5 ≤ f 16 3 then none
      else some (g 0 4 ||| g 8 8 ||| g 16 3)) ∧
    (∀ o : Nat, 2 ≤ o →
      (7 ≤ f 28 4 → applyRules (wordRules 5 o i r w) w = none) ∧
      (f 28 4 = 0 → applyRules (wordRules 5 o i r w) w = some (g 28 4 ||| g 16 2 ||| g 0 5)) ∧
      (f 28 4 = 1 ∨ f 28 4 = 2 → applyRules (wordRules 5 o i r w) w = some (g 28 4 ||| g 0 4)) ∧
      (∀ l : Int, f 28 4 = 3 →
        l = max (-255) (min 255 (if f 16 9 < 2 ^ 8 then (f 16 9 : Int) else f 16 9 - 2 ^ 9)) →
        applyRules (wordRules 5 o i r w) w = some (g 28 4 ||| g 25 3
          ||| BitVec.ofNat 32 ((l % 2 ^ 9).toNat * 2 ^ 16) ||| g 0 16)) ∧
      (f 28 4 = 4 → applyRules (wordRules 5 o i r w) w =
        (if f 8 2 = 3 then none else some (g 28 4 ||| g 0 4 ||| g 8 2))) ∧
      (f 28 4 = 5 ∨ f 28 4 = 6 → applyRules (wordRules 5 o i r w) w = some (g 28 4 ||| g 0 16))) ∧
    applyRules (wordRules 6 0 i r w) w = some (g 0 9
      ||| BitVec.ofNat 32 (min 32 (f 16 6) * 2 ^ 16) ||| g 24 8) ∧
    applyRules (wordRules 7 0 i r w) w = (if f 30 2 = 3 then none else some (g 0 24 ||| g 30 2)) ∧
    applyRules (wordRules 7 1 i r w) w = some (BitVec.ofNat 32 (max 1 (min 20000 (f 0 15)))
      ||| g 16 16) ∧
    applyRules (wordRules 7 2 i r w) w = some (BitVec.ofNat 32 (max 100 (min 200000 (f 0 18)))) ∧
    (∀ t o : Nat, (t = 0 ∧ 4 ≤ o) ∨ (t = 1 ∧ 12 ≤ i) ∨ (t = 2 ∧ 4 ≤ o) ∨ (t = 4 ∧ 3 ≤ o) ∨
      (t = 6 ∧ 1 ≤ o) → applyRules (wordRules t o i r w) w = some 0)) ∧
  ∀ (env : Envelope) (p : List Byte) (s u : State) (t first n : Nat), s.ring.bypass = false →
    env.src = 0 → s.address ≠ 0 → env.dst = s.address → p.length ≤ 32 →
    u = { s with ring.assembler := ⟨.trailing, []⟩ } → t = (byteAt p 0).toNat →
    first = numAt p 1 2 → n = (byteAt p 3).toNat →
    (s.mgmt.slot ≠ .empty → exec (.put env p) s = .next
      { u with ring.record.managementDrops := inc16 s.ring.record.managementDrops }) ∧
    (s.mgmt.slot = .empty →
      (16 ≤ t → t ≤ 23 → exec (.put env p) s = .next (u.answer t first .readOnly [])) ∧
      ((8 ≤ t ∧ t ≤ 15) ∨ (24 ≤ t ∧ t ≠ 31) →
        exec (.put env p) s = .next (u.answer t first .noTable [])) ∧
      (t ≤ 7 → n = 0 ∨ 7 < n ∨ p.length ≠ 4 + 4 * n ∨ regionWords t < first + n →
        exec (.put env p) s = .next (u.answer t first .length [])) ∧
      (t = 31 → n ≠ 1 ∨ p.length ≠ 8 → exec (.put env p) s = .next (u.answer t first .length [])) ∧
      (t = 31 → n = 1 → p.length = 8 → s.mgmt.image = .saving → first = 0 →
        exec (.put env p) s = .next (u.answer t first .busy [])) ∧
      (t = 31 → n = 1 → p.length = 8 → 3 < first →
        exec (.put env p) s = .next (u.answer t first .range [])) ∧
      (t ≤ 7 → 1 ≤ n → n ≤ 7 → p.length = 4 + 4 * n → first + n ≤ regionWords t →
        (s.mgmt.image = .saving → exec (.put env p) s = .next (u.answer t first .busy [])) ∧
        (s.mgmt.image ≠ .saving → (∃ k, k < n ∧ s.wordInUse t (first + k) = true) →
          exec (.put env p) s = .next (u.answer t first .inUse [])) ∧
        (s.mgmt.image ≠ .saving → (∀ k, k < n → s.wordInUse t (first + k) = false) →
          (s.storedFrom t first (reqWords p) first (reqWords p) = none →
            exec (.put env p) s = .next (u.answer t first .range [])) ∧
          (∀ ws, s.storedFrom t first (reqWords p) first (reqWords p) = some ws →
            exec (.put env p) s = .next
              ({ u with
                mgmt.slot := .working (.put t first ws
                  (s.clampedFrom t first (reqWords p) first (reqWords p)) 0) }).arbitrate))))

/-- A word written for a PUT reads back with its check bits, and no other word changes; the copy holder of a node
settings word takes it, and the reader of a table entry owes a re-read from its first word. A cue entry being read, or
whose first action has not been handed on, is read again from its first word, that action being recalled (the mark of
it: log entry 10; that a waiting request names the first word at once: log entry 33); an entry with an action handed
on, and any other, goes on as it was. The ANSWER after the last word is CLAMPED where a number was clamped, else OK,
carries the words stored, and has the ring hop limit as this word leaves it. Where a RESTART fell during the write,
the word and its notices stand and the request slot, by then empty or another request's, is left alone. -/
def Obligations.PutWordIsWritten : Prop :=
  ∀ (s : State) (w : Word) (i : Nat) (stale : Bool), s.Canonical →
    s.mem.access = some ⟨.putWrite w, i, stale⟩ →
    ∃ u, exec .putWordWrite s = .next u ∧
      (∀ j, Memory.read u.mem.words j = if j = i then encodeWord w else Memory.read s.mem.words j) ∧
      (stale = true → u.mgmt = s.mgmt ∧ u.ring.insertion = s.ring.insertion) ∧
      (∀ t first ws hit n, stale = false → s.mgmt.slot = .working (.put t first ws hit n) →
        (n + 1 < ws.length → u.mgmt.slot = .working (.put t first ws hit (n + 1)) ∧
          u.ring.insertion = s.ring.insertion) ∧
        (ws.length ≤ n + 1 → s.ring.bypass = false → s.mgmt.waiting = [] → s.ring.insertion.length < 8 →
          s.ring.sending.isSome = true → u.mgmt.slot = .empty ∧
          u.ring.insertion = s.ring.insertion ++ [⟨0x14, 0, s.address,
            BitVec.ofNat 8 (if i = 0 then w.toNat % 128 else s.ring.hopLimit),
            [BitVec.ofNat 8 t] ++ bytesBE 2 first ++ [if hit then 1 else 0] ++ ws.flatMap wordBytes⟩])) ∧
      (i = 0 → u.ring.hopLimit = w.toNat % 128 ∧ u.ring.lossUnits = w.toNat / 65536 % 512) ∧
      (i = 1 → u.mem.scrubInterval = w.toNat % 256) ∧
      (∀ j : Job, (i = 2 ∧ j = ⟨.effect, 8⟩) ∨ (16 ≤ i ∧ i < 28 ∧ j = ⟨.alert, i - 16⟩) ∨
        (32 ≤ i ∧ i < 64 ∧ j = ⟨.motion, (i - 32) / 8⟩) ∨
        (64 ≤ i ∧ i < 80 ∧ j = ⟨.effect, (i - 64) / 2⟩) ∨
        (80 ≤ i ∧ i < 144 ∧ j = ⟨.button, (i - 80) / 4⟩) →
        ⟨j, []⟩ ∈ u.mem.path ∨ j ∈ u.mem.owed) ∧
      (∀ tr e, 144 ≤ i → i < 528 → e = (i - 144) / 6 →
        (∀ got, s.cue.dispatch = .scanning tr e got →
          u.cue = { s.cue with dispatch := .scanning tr e [] }) ∧
        (∀ acts, s.cue.dispatch = .performing tr e acts 0 →
          u.cue = { s.cue with dispatch := .scanning tr e [], recalled := s.recalledBy })) ∧
      (i < 144 ∨ 528 ≤ i ∨ s.cue.dispatch = .idle ∨
        (∃ tr e got, s.cue.dispatch = .scanning tr e got ∧ e ≠ (i - 144) / 6) ∨
        (∃ tr e acts n, s.cue.dispatch = .performing tr e acts n ∧ (n ≠ 0 ∨ e ≠ (i - 144) / 6)) →
        u.cue = s.cue) ∧
      (s.ring.sending.isSome = true → u.mode = s.mode ∧ u.effect = s.effect)

/-- A PEEK at an occupied request slot is dropped and counted; at an empty one a wrong table id or range is
answered, a view is read as one event and answered, and a table occupies the slot. A word read for the PEEK is
kept, a damaged one raising TABLE-DAMAGE for its region; after the last the ANSWER carries the words, with the
result DAMAGED if one of them was. Each word of the views 16 to 23 is packed from the live state of its owner, an
empty alert slot, snapshot or log reading 0 (what the pack clause's triples mean: lowest bit, width, value). The code
of each enumeration and of each save step, the words of each view, and 255 or 15 for what is absent. (The
model's choices: that position and velocity of a snapshot without channel data read 0: log entry 30; the step index
at the header step: log entry 23; that at a damaged last word TABLE-DAMAGE is raised before the ANSWER is offered, so
that an idle transmitter takes the CALL first: log entry 18.) -/
def Obligations.PeekIsAnswered : Prop :=
  ((∀ p : SaveProgress, saveStepCode none = (0, 0) ∧
      (∀ k, p.step = .erase k → saveStepCode (some p) = (1, k)) ∧
      (∀ u, p.step = .program u → saveStepCode (some p) = (2, u)) ∧
      (∀ i, p.step = .verify i → saveStepCode (some p) = (3, i)) ∧
      (p.step = .header → saveStepCode (some p) = (4, 34))) ∧
    ([.held, .opened, .quiet, .closed, .service] : List GalleryMode).map GalleryMode.code = [0, 1, 2, 3, 4] ∧
    ([.bypass, .active, .closing, .dormant] : List NodeState).map NodeState.code = [0, 1, 2, 3] ∧
    ([.empty, .loading, .loaded, .loadFailed, .saving] : List ImageState).map ImageState.code =
      [0, 1, 2, 3, 4] ∧
    ([.powerUp, .pin, .restart] : List ResetCause).map ResetCause.code = [0, 1, 2] ∧
    ([.unhomed, .homing, .idle, .moving, .stopping, .halted, .fault, .resting] : List ChanState).map
      ChanState.code = [0, 1, 2, 3, 4, 5, 6, 7] ∧
    ([.released, .timing, .settled, .stuck] : List Phase).map Phase.code = [0, 1, 2, 3] ∧
    ([.off, .ready, .wait, .helpFast, .helpSteady] : List Lamp).map Lamp.code = [0, 1, 2, 3, 4] ∧
    ([.notice, .attend, .urgent] : List Level).map levelCode = [0, 1, 2] ∧
    ([none, some .notice, some .attend, some .urgent] : List (Option Level)).map beaconCode = [0, 1, 2, 3] ∧
    ([.raised, .called, .acknowledged, .clearing] : List RecState).map RecState.code = [0, 1, 2, 3] ∧
    ([.guardOpen, .driverFault, .limitHit, .homeFailed, .help, .buttonStuck, .roughHandling, .tableDamage,
      .lineLost, .cuedCall, .imageFailed, .saveFailed] : List Cause) = causes ∧
    causes.map (fun c => c.code.val) = [0, 1, 2, 3, 4, 5, 6, 7, 8, 9, 10, 11] ∧
    ([.prefetch, .management, .cue, .button, .motion, .effect, .alert, .mode, .scrubber] :
      List Requester).map Requester.code = [0, 1, 2, 3, 4, 5, 6, 7, 8] ∧
    ([.hz200, .khz1, .khz20] : List Carrier).map Carrier.code = [0, 1, 2] ∧
    ([none, some .driver, some .limit] : List (Option FaultReason)).map faultCode = [0, 1, 2] ∧
    ([none, some .stopped, some .faulted] : List (Option Ending)).map endingCode = [0, 1, 2] ∧
    restCode none = 15 ∧ (∀ x : ChanState, restCode (some x) = x.code) ∧
    snapState none = 15 ∧ (∀ x : ChanInfo, snapState (some x) = x.state.code) ∧
    (∀ n, optCode (none : Option (Fin n)) = 255 ∧ ∀ i : Fin n, optCode (some i) = i.val) ∧
    bit false = 0 ∧ bit true = 1 ∧
    ([16, 17, 18, 19, 20, 21, 22, 23].map viewWords) = [4, 48, 64, 49, 4, 4, 3, 25] ∧
    ([0, 1, 2, 3, 4, 5, 6, 7].map regionWords) = [16, 16, 32, 16, 64, 384, 64, 1536]) ∧
  (pack [] = 0 ∧ ∀ lo len x fs,
    pack ((lo, len, x) :: fs) = BitVec.ofNat 32 (x % 2 ^ len * 2 ^ lo) + pack fs) ∧
  (∀ s : State,
    s.viewWord 16 0 = pack [(16, 16, 416), (8, 8, 1), (0, 8, s.straps.address.toNat)] ∧
    s.viewWord 16 1 = pack [(24, 8, s.mode.mode.code), (16, 8, s.mode.node.code),
      (8, 8, s.mgmt.image.code), (0, 1, bit s.mode.lineLost)] ∧
    s.viewWord 16 2 = pack [(0, 17, s.mode.clock), (22, 10, s.mode.ms)] ∧
    s.viewWord 16 3 = pack [(24, 8, (saveStepCode s.mgmt.save).1), (16, 8, s.resetCause.code),
      (0, 16, (saveStepCode s.mgmt.save).2)] ∧
    (∀ (c : Fin 4) (x : Channel) (v : Nat → Word), x = s.chan c →
      v = (fun n => s.viewWord 17 (12 * c.val + n)) →
      v 0 = pack [(28, 4, x.state.code), (24, 4, restCode x.restState), (22, 2, faultCode x.faultReason),
        (20, 2, endingCode x.ending), (19, 1, bit (s.energised c)),
        (18, 1, bit (decide (x.held = .damaged))), (17, 1, bit (s.gated c)), (16, 1, bit x.finalPass),
        (15, 1, bit x.clamped), (14, 1, bit x.positionLost), (13, 1, bit x.outward),
        (12, 1, bit x.braking)] ∧
      v 1 = pack [(24, 8, optCode x.profile), (16, 8, optCode x.slot), (8, 8, x.pass)] ∧
      v 2 = pack [(16, 9, x.segment), (0, 16, x.dwell)] ∧ v 3 = pack [(0, 20, x.position)] ∧
      v 4 = pack [(0, 21, x.v)] ∧ v 5 = pack [(16, 14, x.accel), (0, 16, x.phi)] ∧
      v 6 = pack [(0, 23, x.rem)] ∧ v 7 = pack [(0, 32, x.vc)] ∧ v 8 = pack [(0, 32, x.vs)] ∧
      v 9 = pack [(0, 32, x.vh)] ∧ v 10 = pack [(16, 16, x.completed), (0, 16, x.refused)] ∧
      v 11 = pack [(0, 2, x.buffer.length), (4, 3, (s.motion.owed.filter fun f =>
        decide (f.chan = c) && !f.cancelled).length)]) ∧
    (∀ (b : Fin 16) (x : Button) (v : Nat → Word), x = s.btn b →
      v = (fun n => s.viewWord 18 (4 * b.val + n)) →
      v 0 = pack [(31, 1, bit x.closed), (28, 2, x.phase.code), (27, 1, bit x.lock),
        (26, 1, bit x.rough), (25, 1, bit (decide (x.held = .damaged))), (24, 1, bit x.enabled),
        (20, 3, x.lamp.code), (8, 8, x.count), (0, 8, x.allowance.getD 255)] ∧
      v 1 = pack [(0, 17, x.closure)] ∧ v 2 = pack [(16, 8, x.spentRun), (0, 16, x.refill.getD 0)] ∧
      v 3 = pack [(0, 8, x.holdInForce), (8, 8, x.stuckInForce)]) ∧
    (∀ (i : Fin 16) (v : Nat → Word), v = (fun n => s.viewWord 19 (3 * i.val + n)) →
      (s.slotAt i = none → ∀ n, n < 3 → v n = 0) ∧
      (∀ r, s.slotAt i = some r →
        v 0 = pack [(31, 1, 1), (30, 1, bit r.condition), (29, 1, bit r.due), (26, 2, levelCode r.level),
          (24, 2, r.state.code), (20, 4, r.cause.code.val), (16, 4, r.subject), (8, 8, r.repeats),
          (0, 8, r.escalations)] ∧
        v 1 = pack [(0, 17, r.raisedAt)] ∧ v 2 = pack [(0, 22, r.timer.getD 0)])) ∧
    s.viewWord 19 48 = pack ([(0, 2, beaconCode s.alert.beacon), (8, 1, bit s.alert.overflow)] ++
      causes.map fun c => (16 + c.code.val, 1, bit (decide (s.alert.held[c.code] = .damaged)))) ∧
    s.viewWord 20 0 = pack [(16, 16, s.ring.record.badFrames), (0, 16, s.ring.record.relayDrops)] ∧
    s.viewWord 20 1 = pack [(16, 16, s.ring.record.hopExpiries), (0, 16, s.ring.record.insertionDrops)] ∧
    s.viewWord 20 2 = pack [(16, 16, s.ring.record.triggerDrops),
      (0, 16, s.ring.record.managementDrops)] ∧
    s.viewWord 20 3 = pack [(24, 8, s.ring.relay.length), (16, 8, s.ring.insertion.length),
      (8, 8, s.cue.queue.length), (0, 8, s.ring.relayCount)] ∧
    (s.alert.snapshot = none → ∀ n, s.viewWord 21 n = 0) ∧
    (∀ x, s.alert.snapshot = some x →
      s.viewWord 21 0 = pack [(31, 1, 1), (24, 4, x.cause.code.val), (16, 4, x.subject),
        (8, 8, optCode x.slot), (0, 4, snapState x.chan)] ∧ s.viewWord 21 1 = pack [(0, 17, x.time)] ∧
      s.viewWord 21 2 = pack [(0, 20, (x.chan.map fun y => y.position).getD 0)] ∧
      s.viewWord 21 3 = pack [(0, 21, (x.chan.map fun y => y.velocity).getD 0)]) ∧
    (s.mem.log = none → s.viewWord 22 0 = 0) ∧
    (∀ l, s.mem.log = some l → s.viewWord 22 0 = pack [(31, 1, 1),
      (30, 1, bit (decide (l.kind = .uncorrectable))), (16, 7, l.syndrome.toNat),
      (12, 4, l.requester.code), (0, 12, l.index)]) ∧
    s.viewWord 22 1 = pack [(16, 16, s.mem.corrected), (0, 16, s.mem.uncorrectable)] ∧
    s.viewWord 22 2 = pack [(16, 16, s.mem.passes), (0, 12, s.mem.scrubPtr)] ∧
    (∀ (o : Fin 8) (e : Effect) (v : Nat → Word), e = s.out o →
      v = (fun n => s.viewWord 23 (3 * o.val + n)) →
      (s.joined o = false ∨ o.val % 2 = 0 →
        v 0 = pack [(31, 1, bit e.running), (30, 1, bit (decide (e.held = .damaged))),
          (22, 8, s.driveLevel o), (0, 18, (e.fine % 2 ^ 18).toNat)] ∧
        v 1 = pack [(16, 9, (e.target % 2 ^ 9).toNat), (0, 16, e.remaining)] ∧
        v 2 = pack [(24, 8, e.dead), (0, 18, e.delta)]) ∧
      (s.joined o = true → o.val % 2 = 1 → v 0 = pack [(22, 8, s.driveLevel o)] ∧ v 1 = 0 ∧
        v 2 = 0)) ∧
    (∀ k, s.effect.carrier = some k → s.viewWord 23 24 = pack [(24, 2, k.code),
      (20, 4, s.effect.pairing.toNat), (0, 17, s.effect.counter)])) ∧
  (∀ (env : Envelope) (p : List Byte) (s u : State) (t first n : Nat), s.ring.bypass = false →
    env.src = 0 → s.address ≠ 0 → env.dst = s.address → p.length ≤ 32 →
    u = { s with ring.assembler := ⟨.trailing, []⟩ } → t = (byteAt p 0).toNat →
    first = numAt p 1 2 → n = (byteAt p 3).toNat →
    (s.mgmt.slot ≠ .empty → exec (.peek env p) s = .next
      { u with ring.record.managementDrops := inc16 s.ring.record.managementDrops }) ∧
    (s.mgmt.slot = .empty →
      ((8 ≤ t ∧ t ≤ 15) ∨ 24 ≤ t → exec (.peek env p) s = .next (u.answer t first .noTable [])) ∧
      (t ≤ 7 ∨ (16 ≤ t ∧ t ≤ 23) → n = 0 ∨ 7 < n ∨ p.length ≠ 4 ∨
        (t ≤ 7 ∧ regionWords t < first + n) ∨ (16 ≤ t ∧ viewWords t < first + n) →
        exec (.peek env p) s = .next (u.answer t first .length [])) ∧
      (1 ≤ n → n ≤ 7 → p.length = 4 →
        (16 ≤ t → t ≤ 23 → first + n ≤ viewWords t → exec (.peek env p) s = .next
          (u.answer t first .ok ((List.range n).map fun k => s.viewWord t (first + k)))) ∧
        (t ≤ 7 → first + n ≤ regionWords t → exec (.peek env p) s = .next
          ({ u with mgmt.slot := .working (.peek t first n []) }).arbitrate)))) ∧
  ∀ (s u : State) (i t first n : Nat) (got : List Delivered),
    s.mem.access = some ⟨.peekRead, i, false⟩ → s.mgmt.slot = .working (.peek t first n got) →
    u = (if (s.wordAt i).bad then (s.readFor i .management).raise .tableDamage t
      else s.readFor i .management) →
    (got.length + 1 < n → exec .peekWordRead s = .next
      ({ u with mgmt.slot := .working (.peek t first n (got ++ [s.wordAt i])) }).endAccess) ∧
    (n ≤ got.length + 1 → exec .peekWordRead s = .next
      (u.answer t first (if ∃ d, d ∈ got ++ [s.wordAt i] ∧ d.bad = true then .damaged else .ok)
        ((got ++ [s.wordAt i]).map fun d => d.data)).endAccess)

/-- The four commands at an empty request slot. SAVE: the image state becomes SAVING and sector 0 is erased,
once the flash device is ready; the slot stays empty. The clears set the line record, the first-fault
snapshot, or the memory error log and its counts, to nothing, and answer OK. (The model's choice: where the once-more
erase of a failed header step still waits for the device, the first erase of a new SAVE takes its place: log entry
26.) -/
def Obligations.CommandsAreObeyed : Prop :=
  ∀ (env : Envelope) (w : Word) (s u : State), s.ring.bypass = false → env.src = 0 → s.address ≠ 0 →
    env.dst = s.address → s.mgmt.slot = .empty → u = { s with ring.assembler := ⟨.trailing, []⟩ } →
    (s.mgmt.image ≠ .saving →
      (s.mgmt.flashBusy = none → exec (.save env w) s = .next { u with
        mgmt.image := .saving, mgmt.flashBusy := some (.erase 0)
        mgmt.save := some ⟨.erase 0, 0xFFFFFFFF#32, [], s.mgmt.image, true⟩ }) ∧
      (s.mgmt.flashBusy.isSome = true → exec (.save env w) s = .next { u with
        mgmt.image := .saving, mgmt.flashNext := some (.erase 0)
        mgmt.save := some ⟨.erase 0, 0xFFFFFFFF#32, [], s.mgmt.image, false⟩ })) ∧
    (s.mgmt.image = .saving → exec (.save env w) s = .next (u.answer 31 0 .busy [])) ∧
    exec (.clearLineRecord env w) s = .next
      (({ u with ring.record := ⟨0, 0, 0, 0, 0, 0⟩ }).answer 31 1 .ok []) ∧
    exec (.clearFirstFault env w) s = .next (({ u with alert.snapshot := none }).answer 31 2 .ok []) ∧
    exec (.clearMemoryLog env w) s = .next
      (({ u with mem.log := none, mem.corrected := 0, mem.uncorrectable := 0
                 mem.passes := 0 }).answer 31 3 .ok [])

/-- A SAVE goes on: sectors 0 to 2 are erased in turn; the words of a program unit are read, joining the CRC-32, and a
full unit is programmed, 34 of them; every word is read back and compared with table memory; and the header is
programmed last, its bytes standing ready to be read back. Word i stands at byte 32 + 4i of the flash, most
significant byte first: a unit is programmed from its first word's byte on, the header at byte 0, and sector k begins
at byte 4096k. The header's 32 bytes: signature, version 1, the eight entry counts, word count, CRC-32. (That the
comparison of the header waits for its own command: log entry 26.) -/
def Obligations.SaveGoesOn : Prop :=
  (∀ (w : Word) (ws : List Word) (bs : List Byte) (u k : Nat), flashByte k = 32 + 4 * k ∧
    wordOfBytes (wordBytes w) = w ∧ (wordBytes w).length = 4 ∧
    (FlashOp.program u ws).place = (flashByte (unitFirst u), ws.flatMap wordBytes) ∧
    (∀ crc : BitVec 32, headerBytes crc =
      [0x50, 0x5A, 0x54, 0x42, 1, 0, 0, 1, 0, 16, 0, 4, 0, 8, 0, 16, 0, 64, 0, 32, 2, 0, 0x08, 0x50] ++
        wordBytes crc ++ [0, 0, 0, 0]) ∧
    (FlashOp.programHeader bs).place = (0, bs) ∧ (FlashOp.erase k).place = (4096 * k, []) ∧
    unitFirst 0 = 0 ∧ (u < 33 → unitFirst (u + 1) = unitFirst u + unitWords u) ∧
    (0 < u → flashByte (unitFirst u) = 256 * u) ∧ unitFirst 33 + unitWords 33 = 2128) ∧
  ∀ (s : State) (p : SaveProgress) (i : Nat), s.mgmt.save = some p →
    (∀ k, p.step = .erase k → s.mgmt.flashBusy = some (.erase k) → s.mgmt.flashNext = none →
      (k < 2 → exec (.saveEraseDone false) s = .next { s with
        mgmt.save := some { p with step := .erase (k + 1), buffer := [] }
        mgmt.flashBusy := some (.erase (k + 1)) }) ∧
      (2 ≤ k → exec (.saveEraseDone false) s = .next ({ s with
        mgmt.save := some { p with step := .program 0, buffer := [] }
        mgmt.flashBusy := none }).arbitrate)) ∧
    (∀ u q, p.step = .program u → s.mem.access = some ⟨.saveRead, i, false⟩ →
      (s.wordAt i).bad = false →
      q = { p with buffer := p.buffer ++ [(s.wordAt i).data]
                   crc := crc32Add p.crc (wordBytes (s.wordAt i).data) } →
      (p.buffer.length + 1 < unitWords u → exec .saveWordRead s = .next
        ({ s.readFor i .management with mgmt.save := some q }).endAccess) ∧
      (unitWords u ≤ p.buffer.length + 1 → s.mgmt.flashBusy = none → exec .saveWordRead s = .next
        ({ s.readFor i .management with
          mgmt.save := some q, mgmt.flashBusy := some (.program u q.buffer) }).endAccess)) ∧
    (∀ u ws, p.step = .program u → s.mgmt.flashBusy = some (.program u ws) →
      s.mgmt.flashNext = none → exec (.saveProgramDone false) s = .next ({ s with
        mgmt.save := some { p with
          step := if u < 33 then .program (u + 1) else .verify 0, buffer := [] }
        mgmt.flashBusy := none }).arbitrate) ∧
    (∀ bs, p.step = .header → s.mgmt.flashBusy = some (.programHeader bs) → s.mgmt.flashNext = none →
      exec (.saveProgramDone false) s = .next { s with mgmt.flashBusy := none }) ∧
    (p.step = .verify i → s.mem.access = some ⟨.verifyRead, i, false⟩ → (s.wordAt i).bad = false →
      (i < 2127 → exec (.saveVerifyRead (s.wordAt i).data) s = .next
        ({ s.readFor i .management with
          mgmt.save := some { p with step := .verify (i + 1), buffer := [] } }).endAccess) ∧
      (2127 ≤ i → s.mgmt.flashBusy = none → exec (.saveVerifyRead (s.wordAt i).data) s = .next
        ({ s.readFor i .management with
          mgmt.save := some { p with step := .header, buffer := [] }
          mgmt.flashBusy := some
            (.programHeader (headerBytes (p.crc ^^^ 0xFFFFFFFF#32))) }).endAccess))

/-- A SAVE ends. A header that reads back equal: LOADED, the IMAGE-FAILED and SAVE-FAILED conditions end, and the SAVE
ANSWER is offered. A failed erase or program, a flash word that differs, or a time limit passed: LOAD-FAILED and
SAVE-FAILED raised; from the header step on, a failed program of the header among it, sector 0 is erased once more,
and how that erase ends is not reported further. An uncorrectable word in the program or the verify reading fails the
save likewise, and then raises TABLE-DAMAGE for the word's region. A time limit without a save gives up the erase that
waits, and with nothing issued there is none. A device that reports ready, or failed, while an operation waits takes
that one up. (This last, and that a time limit leaves the device busy until it reports: log entry 26. The model's
choices: that LOAD-FAILED and SAVE-FAILED come with the issue of the once-more erase: log entry 26; that the
IMAGE-FAILED condition ends before the SAVE-FAILED one, and that SAVE-FAILED is raised before TABLE-DAMAGE: log entry
18.) -/
def Obligations.SaveEnds : Prop :=
  ∀ (s failed : State) (p : SaveProgress),
    failed = ({ s with mgmt.save := none, mgmt.image := .loadFailed, mgmt.flashBusy := none }).raise
      .saveFailed 0 →
    (s.mgmt.save = some p →
      (∀ b, p.step = .header → b = headerBytes (p.crc ^^^ 0xFFFFFFFF#32) →
        exec (.saveHeaderDone b) s = .next
          (((({ s with mgmt.save := none, mgmt.image := .loaded, mgmt.flashBusy := none }).conditionEnd
            .imageFailed 0).conditionEnd .saveFailed 0).offerWaiting
              (.saveAnswer (s.ownFrame 0x14 [31, 0, 0, 0])))) ∧
      (∀ b, p.step = .header → b ≠ headerBytes (p.crc ^^^ 0xFFFFFFFF#32) →
        exec (.saveHeaderDone b) s = .next
          (({ s with mgmt.save := none, mgmt.image := .loadFailed
                     mgmt.flashBusy := some (.erase 0) }).raise .saveFailed 0)) ∧
      (∀ k, p.step = .erase k → s.mgmt.flashBusy = some (.erase k) → s.mgmt.flashNext = none →
        exec (.saveEraseDone true) s = .next failed) ∧
      (∀ u ws, p.step = .program u → s.mgmt.flashBusy = some (.program u ws) →
        s.mgmt.flashNext = none → exec (.saveProgramDone true) s = .next failed) ∧
      (∀ bs, p.step = .header → s.mgmt.flashBusy = some (.programHeader bs) → s.mgmt.flashNext = none →
        exec (.saveProgramDone true) s = .next
          (({ s with mgmt.save := none, mgmt.image := .loadFailed
                     mgmt.flashBusy := some (.erase 0) }).raise .saveFailed 0)) ∧
      (∀ i w, p.step = .verify i → s.mem.access = some ⟨.verifyRead, i, false⟩ →
        (s.wordAt i).bad = false → w ≠ (s.wordAt i).data → s.mgmt.flashNext = none →
        exec (.saveVerifyRead w) s = .next
          (({ s.readFor i .management with mgmt.save := none, mgmt.image := .loadFailed }).raise
            .saveFailed 0).endAccess) ∧
      (∀ i u, p.step = .program u → s.mem.access = some ⟨.saveRead, i, false⟩ →
        i = unitFirst u + p.buffer.length → (s.wordAt i).bad = true → exec .saveWordRead s = .next
          ((({ s.readFor i .management with
              mgmt.save := none, mgmt.image := .loadFailed, mgmt.flashNext := none }).raise
            .saveFailed 0).raise .tableDamage (regionOf i)).endAccess) ∧
      (∀ i w, p.step = .verify i → s.mem.access = some ⟨.verifyRead, i, false⟩ →
        (s.wordAt i).bad = true → exec (.saveVerifyRead w) s = .next
          ((({ s.readFor i .management with
              mgmt.save := none, mgmt.image := .loadFailed, mgmt.flashNext := none }).raise
            .saveFailed 0).raise .tableDamage (regionOf i)).endAccess) ∧
      (s.mgmt.flashBusy.isSome = true → p.step ≠ .header → exec .flashTimeout s = .next
        (({ s with mgmt.save := none, mgmt.image := .loadFailed, mgmt.flashNext := none }).raise
          .saveFailed 0)) ∧
      (s.mgmt.flashBusy.isSome = true → p.step = .header → exec .flashTimeout s = .next
        (({ s with mgmt.save := none, mgmt.image := .loadFailed
                   mgmt.flashNext := some (.erase 0) }).raise .saveFailed 0))) ∧
    (∀ (bad : Bool) (op : FlashOp) (c : Instr), s.mgmt.flashBusy = some op →
      c = (match op with | .erase _ => .saveEraseDone bad | _ => .saveProgramDone bad) →
      (s.mgmt.save = none → s.mgmt.flashNext = none →
        exec c s = .next { s with mgmt.flashBusy := none }) ∧
      ∀ next, s.mgmt.flashNext = some next → exec c s = .next { s with
        mgmt.flashBusy := some next, mgmt.flashNext := none
        mgmt.save := s.mgmt.save.map fun q => { q with begun := true } }) ∧
    (s.mgmt.save = none → s.mgmt.flashBusy.isSome = true →
      exec .flashTimeout s = .next { s with mgmt.flashNext := none }) ∧
    (s.mgmt.flashBusy = none → exec .flashTimeout s = .next s)

/-! ## Resets and the load -/

/-- POWER-UP and PIN reset leave the state below as the units' tables give; a PIN reset keeps the line record, the
first-fault snapshot, the memory error log and its counts. (That the words of table memory stand until the load writes
them, that the flash device goes on, and that a word access under way is dropped, with no change of the counts and the
log, is the model's choice at a PIN reset: log entry 25; and that an operation which still waited for the device is
dropped: log entry 26; and so are the level of a guard before its first sample, closed: log entry 29, and the mark of
an action recalled, which the cue engine keeps beside its empty queue and idle dispatch: log entry 10.) -/
def Obligations.ResetsLeaveTheirValues : Prop :=
  ∀ (x : Straps) (s : State), ∃ t u, exec (.powerUp x) s = .next t ∧ exec (.pinReset x) s = .next u ∧
    t.resetCause = .powerUp ∧ u.resetCause = .pin ∧
    t.ring.record = ⟨0, 0, 0, 0, 0, 0⟩ ∧ u.ring.record = s.ring.record ∧
    t.alert.snapshot = none ∧ u.alert.snapshot = s.alert.snapshot ∧
    t.mem.log = none ∧ t.mem.corrected = 0 ∧ t.mem.uncorrectable = 0 ∧ t.mem.passes = 0 ∧
    u.mem.log = s.mem.log ∧ u.mem.corrected = s.mem.corrected ∧
    u.mem.uncorrectable = s.mem.uncorrectable ∧ u.mem.passes = s.mem.passes ∧
    u.mem.words = s.mem.words ∧ t.mgmt.flashBusy = none ∧ u.mgmt.flashBusy = s.mgmt.flashBusy ∧
    t.mgmt.flashNext = none ∧ u.mgmt.flashNext = none ∧
    ∀ r, r = t ∨ r = u → r.straps = x ∧ r.sampling = false ∧ r.pending = s.pending ∧
      r.ring.bypass = true ∧ r.ring.relay = [] ∧ r.ring.insertion = [] ∧ r.ring.sending = none ∧
      r.ring.relayCount = 0 ∧ r.ring.lossTimer = none ∧
      r.mode = ⟨.held, .bypass, 0, 0, false, none⟩ ∧ r.cue = ⟨[], .idle, s.recalledBy⟩ ∧
      (∀ b : Fin 16, (r.btn b).held = .absent ∧ (r.btn b).phase = .released ∧
        (r.btn b).lock = false ∧ (r.btn b).spentRun = 0 ∧ (r.btn b).rough = false ∧
        (r.btn b).refill = none ∧ (r.btn b).lamp = .off ∧ (r.btn b).primed = false) ∧
      (∀ c : Fin 4, (r.chan c).held = .absent ∧ (r.chan c).state = .unhomed ∧
        (r.chan c).position = 0 ∧ (r.chan c).v = 0 ∧ (r.chan c).slot = none ∧
        (r.chan c).profile = none ∧ (r.chan c).faultReason = none ∧ (r.chan c).restState = none ∧
        (r.chan c).positionLost = false ∧ (r.chan c).completed = 0 ∧ (r.chan c).refused = 0 ∧
        r.guardIn c = ⟨false, 0, false⟩) ∧
      r.motion.owed = [] ∧
      (∀ o : Fin 8, (r.out o).held = .absent ∧ (r.out o).fine = 0 ∧ (r.out o).running = false ∧
        (r.out o).dead = 0 ∧ r.effectPin o = false) ∧
      (∀ i, r.slotAt i = none) ∧ r.alert.overflow = false ∧ r.alert.beacon = none ∧
      r.mem.access = none ∧ (∀ q : Fin 5, r.mem.passOver[q] = 0) ∧ r.mem.scrubPtr = 0 ∧
      r.mem.scrubTimer = none ∧ r.mgmt.slot = .empty ∧ r.mgmt.image = .empty ∧ r.mgmt.save = none ∧
      r.mgmt.waiting = []

/-- A RESTART for the node, or for all: the buffers, the trigger queue, the alert table and the request slot are
emptied, every channel is UNHOMED at position 0, every effect output at level 0 and every guard CLOSED; the line
record, the first-fault snapshot, the memory with its log and counts, the held settings and the image state of a node
that is not saving are kept; an access granted goes on, its requester's part in it cancelled unless it is a settings
re-read; the pass-over counts are 0 and a running scrub timer starts afresh. A button's level, phase and stuck timing
are those of its level as last sampled, and its allowance is full. A READY is offered, and a broadcast is relayed
after the emptying. (With a frame in transmission, so that both wait; with an idle transmitter the READY is sent at
once.) A RESTART during a SAVE abandons it: one that had issued its first erase leaves LOAD-FAILED and raises
SAVE-FAILED, whose CALL an idle transmitter sends, the READY then waiting; one that had not leaves the image state of
before. A RESTART with a payload is not admitted. (The model's choices: the order of emptying, SAVE-FAILED, READY and
relay, and that the hold time in force stands, and, where no stuck timing begins, the closure time and the stuck time
in force: log entry 21; the mark of an action recalled, which the cue engine keeps beside its empty queue and idle
dispatch: log entry 10.) -/
def Obligations.RestartResetsNode : Prop :=
  ∀ (env : Envelope) (b : Byte) (bs : List Byte) (s : State), s.ring.bypass = false → env.src = 0 →
    s.address ≠ 0 → env.dst = 127 ∨ env.dst = s.address → bs.length < 32 →
    exec (.restart env (b :: bs)) s = .next
      (({ s with ring.assembler := ⟨.trailing, []⟩ }).passOn (frameOf 0x06 env (b :: bs))) ∧
    (s.ring.sending.isSome = true → s.mgmt.save = none →
      ∃ t, exec (.restart env []) s = .next t ∧ t.resetCause = .restart ∧ t.straps = s.straps ∧
        t.sampling = s.sampling ∧ t.ring.sending = s.ring.sending ∧ t.ring.bypass = false ∧
        (env.dst = s.address → t.ring.relay = []) ∧
        (env.dst ≠ s.address → env.hop ≠ 0 → t.ring.relay = [⟨0x06, env.dst, env.src, env.hop - 1, []⟩]) ∧
        t.ring.insertion = [⟨0x15, 0, s.address, BitVec.ofNat 8 s.ring.hopLimit,
          [2, BitVec.ofNat 8 s.mgmt.image.code, 1, 160, 1]⟩] ∧
        t.ring.relayCount = 0 ∧ t.ring.lossTimer = none ∧
        (env.dst = s.address ∨ env.hop ≠ 0 → t.ring.record = s.ring.record) ∧
        t.ring.hopLimit = s.ring.hopLimit ∧ t.ring.lossUnits = s.ring.lossUnits ∧
        t.mode = ⟨.held, .active, 0, 0, false, none⟩ ∧ t.cue = ⟨[], .idle, s.recalledBy⟩ ∧
        (∀ (b : Fin 16) (x : Button) (timed : Bool), x = s.btn b → timed = (x.pin && x.enabled) →
          (∀ k, x.held = .copy k → t.btn b = { x with
            closed := x.pin, count := 0, phase := if x.pin then .settled else .released, lock := false
            closure := if timed then 0 else x.closure, stuckTiming := timed
            stuckInForce := if timed then k.stuck else x.stuckInForce, refill := none, spentRun := 0
            rough := false, allowance := if k.allowance = 0 then none else some k.allowance
            lamp := t.lampFor b }) ∧
          (x.held = .absent ∨ x.held = .damaged → t.btn b = { x with
            closed := x.pin, count := 0, phase := if x.pin then .settled else .released, lock := false
            stuckTiming := false, refill := none, spentRun := 0, rough := false
            lamp := t.lampFor b })) ∧
        t.button.waitCtr = 0 ∧ t.button.fastCtr = 0 ∧
        t.mem.scrubTimer = s.mem.scrubTimer.map (fun _ => s.mem.scrubInterval) ∧
        t.mem.scrubInterval = s.mem.scrubInterval ∧ (∀ q : Fin 5, t.mem.passOver[q] = 0) ∧
        (∀ c : Fin 4, (t.chan c).state = .unhomed ∧ (t.chan c).position = 0 ∧ (t.chan c).v = 0 ∧
          (t.chan c).slot = none ∧ (t.chan c).profile = none ∧ (t.chan c).faultReason = none ∧
          (t.chan c).completed = (s.chan c).completed ∧ (t.chan c).refused = (s.chan c).refused ∧
          ((s.chan c).aside = none → (t.chan c).held = (s.chan c).held) ∧
          (t.guardIn c).isOpen = false) ∧ t.motion.owed = [] ∧
        (∀ o : Fin 8, (t.out o).held = (s.out o).held ∧ (t.out o).fine = 0 ∧
          (t.out o).running = false ∧ (t.out o).dead = 0) ∧
        t.effect.carrier = s.effect.carrier ∧ t.effect.pairing = s.effect.pairing ∧
        (∀ i, t.slotAt i = none) ∧ t.alert.overflow = false ∧ t.alert.snapshot = s.alert.snapshot ∧
        t.alert.held = s.alert.held ∧ t.mem.words = s.mem.words ∧ t.mem.log = s.mem.log ∧
        t.mem.corrected = s.mem.corrected ∧ t.mem.uncorrectable = s.mem.uncorrectable ∧
        t.mem.passes = s.mem.passes ∧ t.mem.scrubPtr = 0 ∧ t.mem.path = s.mem.path ∧
        t.mem.owed = s.mem.owed ∧ (s.mem.access = none → t.mem.access = none) ∧
        (∀ op i stale, s.mem.access = some ⟨op, i, stale⟩ → t.mem.access = some ⟨op, i,
          match op with | .settings _ => stale | _ => true⟩) ∧
        t.mgmt.slot = .empty ∧ t.mgmt.image = s.mgmt.image ∧ t.mgmt.waiting = []) ∧
    (∀ p, s.ring.sending.isSome = true → s.mgmt.save = some p →
      ∃ t, exec (.restart env []) s = .next t ∧ t.mgmt.save = none ∧ t.mgmt.flashNext = none ∧
        t.mgmt.flashBusy = s.mgmt.flashBusy ∧ t.mgmt.slot = .empty ∧ t.mgmt.waiting = [] ∧
        t.mgmt.image = (if p.begun then .loadFailed else p.before) ∧
        (p.begun = true → (t.findRecord .saveFailed 0).isSome = true) ∧
        (p.begun = false → ∀ i, t.slotAt i = none) ∧
        t.ring.insertion = [⟨0x15, 0, s.address, BitVec.ofNat 8 s.ring.hopLimit,
          [2, BitVec.ofNat 8 t.mgmt.image.code, 1, 160, 1]⟩] ∧
        t.mem.words = s.mem.words) ∧
    (s.ring.sending = none → s.mgmt.save = none →
      ∃ t, exec (.restart env []) s = .next t ∧ t.ring.insertion = [] ∧
        t.ring.sending = some ⟨0x15, 0, s.address, BitVec.ofNat 8 s.ring.hopLimit,
          [2, BitVec.ofNat 8 s.mgmt.image.code, 1, 160, 1]⟩ ∧
        (env.dst = s.address ∨ env.hop = 0 → t.ring.relay = []) ∧
        (env.dst ≠ s.address → env.hop ≠ 0 → t.ring.relay = [⟨0x06, env.dst, env.src, env.hop - 1, []⟩]) ∧
        (∀ i, t.slotAt i = none) ∧ t.mem.words = s.mem.words) ∧
    (∀ (p : SaveProgress) (ready : Frame), s.ring.sending = none → s.mgmt.save = some p →
      ready = ⟨0x15, 0, s.address, BitVec.ofNat 8 s.ring.hopLimit,
        [2, BitVec.ofNat 8 (if p.begun then ImageState.loadFailed else p.before).code, 1, 160, 1]⟩ →
      ∃ t, exec (.restart env []) s = .next t ∧ t.mgmt.save = none ∧ t.mgmt.flashNext = none ∧
        t.mgmt.flashBusy = s.mgmt.flashBusy ∧ t.mgmt.slot = .empty ∧ t.mgmt.waiting = [] ∧
        t.mgmt.image = (if p.begun then .loadFailed else p.before) ∧
        (env.dst = s.address ∨ env.hop = 0 → t.ring.relay = []) ∧
        (env.dst ≠ s.address → env.hop ≠ 0 → t.ring.relay = [⟨0x06, env.dst, env.src, env.hop - 1, []⟩]) ∧
        (p.begun = false → t.ring.sending = some ready ∧ t.ring.insertion = [] ∧
          ∀ i, t.slotAt i = none) ∧
        (∀ k, p.begun = true → k = s.causeSettings .saveFailed →
          t.ring.sending = some ⟨0x13, 0, s.address, BitVec.ofNat 8 s.ring.hopLimit,
            [0, 11, 0, BitVec.ofNat 8 (levelCode k.level), 0, 0, 0, 0, 0, 0]⟩ ∧
          t.ring.insertion = [ready] ∧
          t.slotAt 0 = some
            { cause := .saveFailed, subject := 0, level := k.level, state := .called, condition := true
              due := false, repeats := 0, escalations := 0, raisedAt := 0
              timer := if k.esc = 0 then none else some (k.esc * 10000) } ∧
          ∀ i, i ≠ 0 → t.slotAt i = none) ∧
        t.mem.words = s.mem.words)

/-- The load: at the release of the reset the header is read; a header that compares sets the CRC-32 to come, and any
other fails the load; each image word is written, its bits of no field as 0, with fresh check bits; after the last, an
equal CRC-32 gives LOADED, another fails the load. A failed load fills in the blank content, gives LOAD-FAILED and
raises IMAGE-FAILED. At the end sampling begins, the working copies of the ring hop limit, the line-loss time and the
scrub interval are taken from words 0 and 1 as they then stand, clamped, the scrub timer runs, each block owes the
read of every entry of its table (the buttons, the channels, the effect unit's node settings word and then its
outputs, the causes) and asks for the first, and BYPASS is released if the straps give an address; then the
transmitter begins choosing, and a READY with the reset cause and the image state is offered: after a good load of a
node with nothing else to send it is sent at once, and after a failed one the CALL of IMAGE-FAILED goes first. Without
an address no READY is offered. A header is accepted by its signature, version, entry counts and word count alone. The
CRC-32 of 0x04C11DB7, reflected, byte by byte, and that of the nine bytes 0x31 to 0x39. The blank content, region by
region. (That the transmitter chooses before the READY is offered: log entry 27. That the CRC-32 takes each word as
read, and which bits an action word of an invalid kind keeps: log entry 34.) -/
def Obligations.LoadProceedsAndEnds : Prop :=
  (∀ h : List Byte, headerOk h = true ↔ numAt h 0 4 = 0x505A5442 ∧ byteAt h 4 = 1 ∧
    (numAt h 6 2 = 1 ∧ numAt h 8 2 = 16 ∧ numAt h 10 2 = 4 ∧ numAt h 12 2 = 8 ∧ numAt h 14 2 = 16 ∧
      numAt h 16 2 = 64 ∧ numAt h 18 2 = 32 ∧ numAt h 20 2 = 512) ∧ numAt h 22 2 = 2128) ∧
  (∀ (c : BitVec 32) (b : Byte) (bs : List Byte) (x : Nat → BitVec 32), crc32Add c [] = c ∧
    crc32Add c (b :: bs) = crc32Add (crc32Add c [b]) bs ∧
    (x 0 = c ^^^ b.setWidth 32 →
      (∀ k, x (k + 1) = if (x k).getLsbD 0 then (x k >>> 1) ^^^ 0xEDB88320#32 else x k >>> 1) →
      crc32Add c [b] = x 8)) ∧
  crc32Add 0xFFFFFFFF#32 [0x31, 0x32, 0x33, 0x34, 0x35, 0x36, 0x37, 0x38, 0x39] ^^^ 0xFFFFFFFF#32 =
    0xCBF43926#32 ∧
  (blankWord 0 = BitVec.ofNat 32 (50 * 2 ^ 16 + 127) ∧ blankWord 1 = 10 ∧ blankWord 2 = 1 ∧
    (∀ j, 3 ≤ j → j < 16 → blankWord j = 0) ∧
    (∀ j level time, ([(1, 6), (2, 0), (2, 0), (1, 30), (1, 6), (0, 30), (0, 0), (1, 0), (1, 60), (1, 12),
        (2, 0), (1, 0), (0, 0), (0, 0), (0, 0), (0, 0)] : List (Nat × Nat))[j]? = some (level, time) →
      blankWord (16 + j) = BitVec.ofNat 32 (time * 2 ^ 8 + level)) ∧
    (∀ c, c < 4 → blankWord (32 + 8 * c) = BitVec.ofNat 32 (10 * 2 ^ 24 + 255 * 2 ^ 16) ∧
      blankWord (33 + 8 * c) = 1 ∧ blankWord (34 + 8 * c) = BitVec.ofNat 32 (10 * 2 ^ 16 + 10) ∧
      blankWord (35 + 8 * c) = 1 ∧ ∀ n, 4 ≤ n → n < 8 → blankWord (32 + 8 * c + n) = 0) ∧
    (∀ o, o < 8 → blankWord (64 + 2 * o) = 0 ∧ blankWord (65 + 2 * o) = 20) ∧
    (∀ b, b < 16 → blankWord (80 + 4 * b) = BitVec.ofNat 32 (255 * 2 ^ 8) ∧
      blankWord (81 + 4 * b) = BitVec.ofNat 32 (10 * 2 ^ 16 + 1) ∧
      blankWord (82 + 4 * b) = BitVec.ofNat 32 (2 ^ 16) ∧ blankWord (83 + 4 * b) = 0) ∧
    (∀ e, e < 64 → blankWord (144 + 6 * e) = 0 ∧
      blankWord (145 + 6 * e) = BitVec.ofNat 32 (2 ^ 16 + 255 * 2 ^ 8) ∧
      ∀ n, 2 ≤ n → n < 6 → blankWord (144 + 6 * e + n) = 0) ∧
    (∀ j, 528 ≤ j → j < 592 → blankWord j = 0) ∧
    (∀ n, n < 512 → blankWord (592 + 3 * n) = 0 ∧ blankWord (593 + 3 * n) = 1 ∧
      blankWord (594 + 3 * n) = 100)) ∧
  (∀ w : Word, imageWord 0 w = w &&& 0x01FF007F#32 ∧ imageWord 1 w = w &&& 0xFF#32 ∧
    imageWord 2 w = w &&& 0x0F03#32 ∧ imageWord 3 w = w &&& 1#32 ∧
    (∀ j, 4 ≤ j → j < 16 → imageWord j w = 0) ∧
    (∀ j, 16 ≤ j → j < 28 → imageWord j w = w &&& 0xFF03#32) ∧
    (∀ j, 28 ≤ j → j < 32 → imageWord j w = 0) ∧
    (∀ c, c < 4 → imageWord (32 + 8 * c) w = w &&& 0xFFFFF7FF#32 ∧
      imageWord (33 + 8 * c) w = w &&& 0xFFFFF#32 ∧ imageWord (34 + 8 * c) w = w &&& 0x1FFF1FFF#32 ∧
      imageWord (35 + 8 * c) w = w &&& 0x1FFFFF#32 ∧
      ∀ n, 4 ≤ n → n < 8 → imageWord (32 + 8 * c + n) w = 0) ∧
    (∀ o, o < 8 → imageWord (64 + 2 * o) w = w &&& 0xFFFF#32 ∧ imageWord (65 + 2 * o) w = w &&& 0xFF#32) ∧
    (∀ b, b < 16 → imageWord (80 + 4 * b) w = w &&& 0xFF07#32 ∧
      imageWord (81 + 4 * b) w = w &&& 0xFFFFFF#32 ∧ imageWord (82 + 4 * b) w = w &&& 0xFFFFFF#32 ∧
      imageWord (83 + 4 * b) w = 0) ∧
    (∀ e, e < 64 → imageWord (144 + 6 * e) w = w &&& 0x87FFFFFF#32 ∧
      imageWord (145 + 6 * e) w = w &&& 0x7FF0F#32 ∧
      ∀ n kind, 2 ≤ n → n < 6 → kind = field w 28 4 → imageWord (144 + 6 * e + n) w = w &&&
        (if kind = 0 then 0xF003001F#32 else if kind = 1 ∨ kind = 2 then 0xF000000F#32
          else if kind = 3 then 0xFFFFFFFF#32 else if kind = 4 then 0xF000030F#32
          else if kind = 5 ∨ kind = 6 then 0xF000FFFF#32 else 0xF0000000#32)) ∧
    (∀ d, d < 32 → imageWord (528 + 2 * d) w = w &&& 0xFF3F01FF#32 ∧ imageWord (529 + 2 * d) w = 0) ∧
    (∀ g, g < 512 → imageWord (592 + 3 * g) w = w &&& 0xC0FFFFFF#32 ∧
      imageWord (593 + 3 * g) w = w &&& 0xFFFF7FFF#32 ∧ imageWord (594 + 3 * g) w = w &&& 0x3FFFF#32)) ∧
  ∀ (s : State) (h : List Byte) (w : Word) (i : Nat) (crc want : BitVec 32) (ok : Bool) (c : Instr),
    (s.mgmt.image = .empty → exec .resetRelease s = .next
      { s with mgmt.image := .loading, mgmt.load := .header }) ∧
    (s.mgmt.load = .header → headerOk h = true → exec (.loadHeaderRead h) s = .next
      { s with mgmt.load := .words 0 0xFFFFFFFF#32 (BitVec.ofNat 32 (numAt h 24 4)) }) ∧
    (s.mgmt.load = .words i crc want → i < 2127 → exec (.loadWordRead w) s = .next
      { s with mem.words := Memory.write s.mem.words i (encodeWord (imageWord i w))
               mgmt.load := .words (i + 1) (crc32Add crc (wordBytes w)) want }) ∧
    ((c = .loadHeaderRead h ∧ s.mgmt.load = .header ∧ headerOk h = false ∧ ok = false) ∨
      (c = .loadWordRead w ∧ s.mgmt.load = .words 2127 crc want ∧
        ok = decide (crc32Add crc (wordBytes w) ^^^ 0xFFFFFFFF#32 = want)) →
      ∃ t, exec c s = .next t ∧ t.mgmt.load = .none ∧ t.sampling = true ∧
        t.ring.bypass = (if s.addressed then false else s.ring.bypass) ∧
        (s.addressed = true → t.mode.node = .active ∧ t.ring.assembler = ⟨.joining, []⟩) ∧
        t.mode.mode = s.mode.mode ∧ t.mem.scrubTimer = some t.mem.scrubInterval ∧
        (∀ w0 w1 : Word, w0 = (Memory.read t.mem.words 0).setWidth 32 →
          w1 = (Memory.read t.mem.words 1).setWidth 32 →
          t.ring.hopLimit = max 2 (min 127 (field w0 0 7)) ∧
          t.ring.lossUnits = max 10 (min 500 (field w0 16 9)) ∧
          t.mem.scrubInterval = max 1 (min 255 (field w1 0 8))) ∧
        (∀ (jobs : List Job) (v : State), jobs = (List.range 16).map (Job.mk .button)
            ++ (List.range 4).map (Job.mk .motion) ++ [Job.mk .effect 8]
            ++ (List.range 8).map (Job.mk .effect) ++ (List.range 12).map (Job.mk .alert) →
          v = ({ s with mem.owed := s.mem.owed ++ jobs }).ask →
          t.mem.path = v.mem.path ∧ t.mem.owed = v.mem.owed) ∧
        (ok = true → t.mgmt.image = .loaded ∧
          t.mem.words = Memory.write s.mem.words 2127 (encodeWord (imageWord 2127 w))) ∧
        (ok = false → t.mgmt.image = .loadFailed ∧
          (∀ j, j < 2128 → Memory.read t.mem.words j = encodeWord (blankWord j)) ∧
          ((t.findRecord .imageFailed 0).isSome = true ∨ t.alert.overflow = true) ∧
          t.ring.hopLimit = 127 ∧ t.ring.lossUnits = 50 ∧ t.mem.scrubInterval = 10) ∧
        (s.addressed = false → s.ring.bypass = true →
          t.ring.insertion = s.ring.insertion ∧ t.ring.sending = s.ring.sending ∧
          t.mgmt.waiting = s.mgmt.waiting) ∧
        (∀ ready : Frame, ready = ⟨0x15, 0, s.address, BitVec.ofNat 8 t.ring.hopLimit,
            [BitVec.ofNat 8 s.resetCause.code, if ok then 2 else 3, 1, 160, 1]⟩ →
          s.addressed = true → s.mgmt.waiting = [] →
          (s.ring.sending.isSome = true → s.ring.insertion.length < 8 →
            t.ring.insertion = s.ring.insertion ++ [ready]) ∧
          (s.ring.bypass = true → s.ring.sending = none → s.ring.relay = [] → s.ring.insertion = [] →
            s.mode.lineLost = false → (∀ j, s.slotAt j = none) →
            (ok = true → t.ring.sending = some ready ∧ t.ring.insertion = []) ∧
            (ok = false → t.ring.insertion = [ready] ∧
              ∃ f, t.ring.sending = some f ∧ f.kind = 0x13))))

/-- A sample of an input. A button's first sample after a reset is its level; later a level is taken after it has
been sampled for the debounce time, and an equal sample returns the count to 0. The attendant key likewise, with 20
samples. A guard opens at one open sample and closes at the tenth closed one. HOME, an asserted FAR, and FAULT
asserted on a channel in motion are levels that the tick reads; FAULT asserted on any other channel, a clear FAULT
and a clear FAR act at once. Before the end of the load nothing is sampled. (That the sample carries these events out
within itself, and which FAULT samples the tick reads: log entry 9.) -/
def Obligations.InputsAreSampled : Prop :=
  ∀ (s : State) (x : Input) (v : Bool), (s.sampling = false → exec (.inputSample x v) s = .next s) ∧
    (s.sampling = true →
      (∀ b, x = .button b →
        ((s.btn b).primed = false → ∃ t, exec (.inputSample x v) s = .next t ∧
          (t.btn b).closed = v ∧ (t.btn b).primed = true ∧ (t.btn b).count = 0 ∧
          (t.btn b).phase = (if v then .settled else .released) ∧ t = s.withBtn b (t.btn b)) ∧
        ((s.btn b).primed = true → v = (s.btn b).closed → exec (.inputSample x v) s = .next
          (s.withBtn b { s.btn b with pin := v, count := 0 })) ∧
        ((s.btn b).primed = true → v ≠ (s.btn b).closed →
          ((s.btn b).count + 1 < (s.btn b).debounce → exec (.inputSample x v) s = .next
            (s.withBtn b { s.btn b with pin := v, count := (s.btn b).count + 1 })) ∧
          ((s.btn b).debounce ≤ (s.btn b).count + 1 → exec (.inputSample x v) s =
            exec (if v then .acceptedClosure b else .acceptedRelease b) s))) ∧
      (x = .key →
        (s.alert.key.primed = false → exec (.inputSample x v) s = .next
          { s with alert.key := ⟨v, true, v, 0⟩ }) ∧
        (s.alert.key.primed = true → v = s.alert.key.closed → exec (.inputSample x v) s = .next
          { s with alert.key.pin := v, alert.key.count := 0 }) ∧
        (s.alert.key.primed = true → v ≠ s.alert.key.closed →
          (s.alert.key.count + 1 < 20 → exec (.inputSample x v) s = .next
            { s with alert.key.pin := v, alert.key.count := s.alert.key.count + 1 }) ∧
          (20 ≤ s.alert.key.count + 1 → v = true →
            exec (.inputSample x v) s = exec .keyClosure s) ∧
          (20 ≤ s.alert.key.count + 1 → v = false → exec (.inputSample x v) s = .next
            { s with alert.key.pin := v, alert.key.closed := v, alert.key.count := 0 }))) ∧
      (∀ g, x = .guard g →
        ((s.guardIn g).isOpen = false → v = true →
          exec (.inputSample x v) s = exec (.guardOpening g) s) ∧
        ((s.guardIn g).isOpen = false → v = false → exec (.inputSample x v) s = .next
          (s.withGuard g { s.guardIn g with pin := false })) ∧
        ((s.guardIn g).isOpen = true → v = true → exec (.inputSample x v) s = .next
          (s.withGuard g { s.guardIn g with pin := true, count := 0 })) ∧
        ((s.guardIn g).isOpen = true → v = false → (s.guardIn g).count + 1 < 10 →
          exec (.inputSample x v) s = .next
            (s.withGuard g { s.guardIn g with pin := false, count := (s.guardIn g).count + 1 })) ∧
        ((s.guardIn g).isOpen = true → v = false → 10 ≤ (s.guardIn g).count + 1 →
          exec (.inputSample x v) s = exec (.guardClosing g) s)) ∧
      (∀ c, (x = .home c → exec (.inputSample x v) s = .next
          (s.withChan c { s.chan c with homePin := v })) ∧
        (x = .far c → v = true → exec (.inputSample x v) s = .next
          (s.withChan c { s.chan c with farPin := true })) ∧
        (x = .far c → v = false → exec (.inputSample x v) s = exec (.farCleared c) s) ∧
        (x = .fault c → v = true → (s.chan c).state = .homing ∨ (s.chan c).state = .moving ∨
            (s.chan c).state = .stopping → exec (.inputSample x v) s = .next
          (s.withChan c { s.chan c with faultPin := true })) ∧
        (x = .fault c → v = true → (s.chan c).state ≠ .homing → (s.chan c).state ≠ .moving →
          (s.chan c).state ≠ .stopping → exec (.inputSample x v) s = exec (.driverFault c) s) ∧
        (x = .fault c → v = false → exec (.inputSample x v) s = exec (.faultInputCleared c) s)))
end

