-- ==== Sys2Proof/Laws/State.lean ====
section
/-! SUPPORT. Reading one channel, guard, button, output or alert slot after writing one: a lemma for each
field and each update, so that no later proof unfolds a record update. -/
namespace Sys2Proof.Machine

variable (s : State) (c d : Fin 4) (b e : Fin 16) (o p : Fin 8)

/-! ## The written record reads back, and the others are as before -/

@[simp] theorem chan_withChan (x : Channel) :
    (s.withChan c x).chan d = if d = c then x else s.chan d := by
  simp only [State.chan, State.withChan, Fin.getElem_fin, Vector.getElem_set, Fin.ext_iff, eq_comm]

@[simp] theorem guardIn_withGuard (x : GuardInput) :
    (s.withGuard c x).guardIn d = if d = c then x else s.guardIn d := by
  simp only [State.guardIn, State.withGuard, Fin.getElem_fin, Vector.getElem_set, Fin.ext_iff, eq_comm]

@[simp] theorem btn_withBtn (x : Button) :
    (s.withBtn b x).btn e = if e = b then x else s.btn e := by
  simp only [State.btn, State.withBtn, Fin.getElem_fin, Vector.getElem_set, Fin.ext_iff, eq_comm]

@[simp] theorem out_withOut (x : Effect) :
    (s.withOut o x).out p = if p = o then x else s.out p := by
  simp only [State.out, State.withOut, Fin.getElem_fin, Vector.getElem_set, Fin.ext_iff, eq_comm]

@[simp] theorem slotAt_withSlot (x : Option Record) :
    (s.withSlot b x).slotAt e = if e = b then x else s.slotAt e := by
  simp only [State.slotAt, State.withSlot, Fin.getElem_fin, Vector.getElem_set, Fin.ext_iff, eq_comm]

@[simp] theorem chan_mapChans (f : Channel → Channel) : (s.mapChans f).chan c = f (s.chan c) := by
  simp [State.chan, State.mapChans]

/-! ## Writing what is there changes nothing -/

@[simp] theorem withChan_self : s.withChan c (s.chan c) = s := by simp [State.withChan, State.chan]
@[simp] theorem withGuard_self : s.withGuard c (s.guardIn c) = s := by simp [State.withGuard, State.guardIn]
@[simp] theorem withBtn_self : s.withBtn b (s.btn b) = s := by simp [State.withBtn, State.btn]
@[simp] theorem withOut_self : s.withOut o (s.out o) = s := by simp [State.withOut, State.out]

/-! ## Replacing one part leaves the other parts alone -/

section withChan
variable (x : Channel)
@[simp] theorem withChan_straps : (s.withChan c x).straps = s.straps := rfl
@[simp] theorem withChan_resetCause : (s.withChan c x).resetCause = s.resetCause := rfl
@[simp] theorem withChan_sampling : (s.withChan c x).sampling = s.sampling := rfl
@[simp] theorem withChan_ring : (s.withChan c x).ring = s.ring := rfl
@[simp] theorem withChan_mode : (s.withChan c x).mode = s.mode := rfl
@[simp] theorem withChan_cue : (s.withChan c x).cue = s.cue := rfl
@[simp] theorem withChan_button : (s.withChan c x).button = s.button := rfl
@[simp] theorem withChan_effect : (s.withChan c x).effect = s.effect := rfl
@[simp] theorem withChan_alert : (s.withChan c x).alert = s.alert := rfl
@[simp] theorem withChan_mem : (s.withChan c x).mem = s.mem := rfl
@[simp] theorem withChan_mgmt : (s.withChan c x).mgmt = s.mgmt := rfl
@[simp] theorem withChan_pending : (s.withChan c x).pending = s.pending := rfl
@[simp] theorem withChan_guards : (s.withChan c x).motion.guards = s.motion.guards := rfl
@[simp] theorem withChan_owed : (s.withChan c x).motion.owed = s.motion.owed := rfl
@[simp] theorem withChan_fetchWords : (s.withChan c x).motion.fetchWords = s.motion.fetchWords := rfl
@[simp] theorem withChan_guardIn : (s.withChan c x).guardIn d = s.guardIn d := rfl
@[simp] theorem withChan_btn : (s.withChan c x).btn b = s.btn b := rfl
@[simp] theorem withChan_out : (s.withChan c x).out o = s.out o := rfl
@[simp] theorem withChan_slotAt : (s.withChan c x).slotAt b = s.slotAt b := rfl
end withChan

section mapChans
variable (f : Channel → Channel)
@[simp] theorem mapChans_straps : (s.mapChans f).straps = s.straps := rfl
@[simp] theorem mapChans_resetCause : (s.mapChans f).resetCause = s.resetCause := rfl
@[simp] theorem mapChans_sampling : (s.mapChans f).sampling = s.sampling := rfl
@[simp] theorem mapChans_ring : (s.mapChans f).ring = s.ring := rfl
@[simp] theorem mapChans_mode : (s.mapChans f).mode = s.mode := rfl
@[simp] theorem mapChans_cue : (s.mapChans f).cue = s.cue := rfl
@[simp] theorem mapChans_button : (s.mapChans f).button = s.button := rfl
@[simp] theorem mapChans_effect : (s.mapChans f).effect = s.effect := rfl
@[simp] theorem mapChans_alert : (s.mapChans f).alert = s.alert := rfl
@[simp] theorem mapChans_mem : (s.mapChans f).mem = s.mem := rfl
@[simp] theorem mapChans_mgmt : (s.mapChans f).mgmt = s.mgmt := rfl
@[simp] theorem mapChans_pending : (s.mapChans f).pending = s.pending := rfl
@[simp] theorem mapChans_guards : (s.mapChans f).motion.guards = s.motion.guards := rfl
@[simp] theorem mapChans_guardIn : (s.mapChans f).guardIn d = s.guardIn d := rfl
@[simp] theorem mapChans_btn : (s.mapChans f).btn b = s.btn b := rfl
@[simp] theorem mapChans_out : (s.mapChans f).out o = s.out o := rfl
@[simp] theorem mapChans_slotAt : (s.mapChans f).slotAt b = s.slotAt b := rfl
end mapChans

section withGuard
variable (x : GuardInput)
@[simp] theorem withGuard_straps : (s.withGuard c x).straps = s.straps := rfl
@[simp] theorem withGuard_ring : (s.withGuard c x).ring = s.ring := rfl
@[simp] theorem withGuard_mode : (s.withGuard c x).mode = s.mode := rfl
@[simp] theorem withGuard_cue : (s.withGuard c x).cue = s.cue := rfl
@[simp] theorem withGuard_button : (s.withGuard c x).button = s.button := rfl
@[simp] theorem withGuard_effect : (s.withGuard c x).effect = s.effect := rfl
@[simp] theorem withGuard_alert : (s.withGuard c x).alert = s.alert := rfl
@[simp] theorem withGuard_mem : (s.withGuard c x).mem = s.mem := rfl
@[simp] theorem withGuard_mgmt : (s.withGuard c x).mgmt = s.mgmt := rfl
@[simp] theorem withGuard_pending : (s.withGuard c x).pending = s.pending := rfl
@[simp] theorem withGuard_channels : (s.withGuard c x).motion.channels = s.motion.channels := rfl
@[simp] theorem withGuard_chan : (s.withGuard c x).chan d = s.chan d := rfl
@[simp] theorem withGuard_btn : (s.withGuard c x).btn b = s.btn b := rfl
@[simp] theorem withGuard_out : (s.withGuard c x).out o = s.out o := rfl
@[simp] theorem withGuard_slotAt : (s.withGuard c x).slotAt b = s.slotAt b := rfl
end withGuard

section withBtn
variable (x : Button)
@[simp] theorem withBtn_straps : (s.withBtn b x).straps = s.straps := rfl
@[simp] theorem withBtn_ring : (s.withBtn b x).ring = s.ring := rfl
@[simp] theorem withBtn_mode : (s.withBtn b x).mode = s.mode := rfl
@[simp] theorem withBtn_cue : (s.withBtn b x).cue = s.cue := rfl
@[simp] theorem withBtn_motion : (s.withBtn b x).motion = s.motion := rfl
@[simp] theorem withBtn_effect : (s.withBtn b x).effect = s.effect := rfl
@[simp] theorem withBtn_alert : (s.withBtn b x).alert = s.alert := rfl
@[simp] theorem withBtn_mem : (s.withBtn b x).mem = s.mem := rfl
@[simp] theorem withBtn_mgmt : (s.withBtn b x).mgmt = s.mgmt := rfl
@[simp] theorem withBtn_pending : (s.withBtn b x).pending = s.pending := rfl
@[simp] theorem withBtn_chan : (s.withBtn b x).chan c = s.chan c := rfl
@[simp] theorem withBtn_out : (s.withBtn b x).out o = s.out o := rfl
@[simp] theorem withBtn_slotAt : (s.withBtn b x).slotAt e = s.slotAt e := rfl
end withBtn

section withOut
variable (x : Effect)
@[simp] theorem withOut_straps : (s.withOut o x).straps = s.straps := rfl
@[simp] theorem withOut_ring : (s.withOut o x).ring = s.ring := rfl
@[simp] theorem withOut_mode : (s.withOut o x).mode = s.mode := rfl
@[simp] theorem withOut_cue : (s.withOut o x).cue = s.cue := rfl
@[simp] theorem withOut_motion : (s.withOut o x).motion = s.motion := rfl
@[simp] theorem withOut_button : (s.withOut o x).button = s.button := rfl
@[simp] theorem withOut_alert : (s.withOut o x).alert = s.alert := rfl
@[simp] theorem withOut_mem : (s.withOut o x).mem = s.mem := rfl
@[simp] theorem withOut_mgmt : (s.withOut o x).mgmt = s.mgmt := rfl
@[simp] theorem withOut_pending : (s.withOut o x).pending = s.pending := rfl
@[simp] theorem withOut_chan : (s.withOut o x).chan c = s.chan c := rfl
@[simp] theorem withOut_btn : (s.withOut o x).btn b = s.btn b := rfl
end withOut

section withSlot
variable (x : Option Record)
@[simp] theorem withSlot_straps : (s.withSlot b x).straps = s.straps := rfl
@[simp] theorem withSlot_ring : (s.withSlot b x).ring = s.ring := rfl
@[simp] theorem withSlot_mode : (s.withSlot b x).mode = s.mode := rfl
@[simp] theorem withSlot_cue : (s.withSlot b x).cue = s.cue := rfl
@[simp] theorem withSlot_motion : (s.withSlot b x).motion = s.motion := rfl
@[simp] theorem withSlot_effect : (s.withSlot b x).effect = s.effect := rfl
@[simp] theorem withSlot_button : (s.withSlot b x).button = s.button := rfl
@[simp] theorem withSlot_mem : (s.withSlot b x).mem = s.mem := rfl
@[simp] theorem withSlot_mgmt : (s.withSlot b x).mgmt = s.mgmt := rfl
@[simp] theorem withSlot_pending : (s.withSlot b x).pending = s.pending := rfl
@[simp] theorem withSlot_chan : (s.withSlot b x).chan c = s.chan c := rfl
@[simp] theorem withSlot_out : (s.withSlot b x).out o = s.out o := rfl
@[simp] theorem withSlot_snapshot : (s.withSlot b x).alert.snapshot = s.alert.snapshot := rfl
end withSlot

section takeLevels
variable (k : Carrier)
@[simp] theorem takeLevels_out : (s.takeLevels k).out o =
    { s.out o with highTime := s.driveLevel o * k.period / 255 } := by
  simp [State.takeLevels, State.out]
@[simp] theorem takeLevels_straps : (s.takeLevels k).straps = s.straps := rfl
@[simp] theorem takeLevels_ring : (s.takeLevels k).ring = s.ring := rfl
@[simp] theorem takeLevels_mode : (s.takeLevels k).mode = s.mode := rfl
@[simp] theorem takeLevels_cue : (s.takeLevels k).cue = s.cue := rfl
@[simp] theorem takeLevels_button : (s.takeLevels k).button = s.button := rfl
@[simp] theorem takeLevels_motion : (s.takeLevels k).motion = s.motion := rfl
@[simp] theorem takeLevels_alert : (s.takeLevels k).alert = s.alert := rfl
@[simp] theorem takeLevels_mem : (s.takeLevels k).mem = s.mem := rfl
@[simp] theorem takeLevels_mgmt : (s.takeLevels k).mgmt = s.mgmt := rfl
@[simp] theorem takeLevels_carrier : (s.takeLevels k).effect.carrier = s.effect.carrier := rfl
@[simp] theorem takeLevels_pairing : (s.takeLevels k).effect.pairing = s.effect.pairing := rfl
end takeLevels

end Sys2Proof.Machine
end

