-- ==== Sys2Proof/Laws/Calm.lean ====
section
/-! SUPPORT. What the shared operations can do, said once for each: `Calm s t` holds of an operation that
takes `s` to `t` when it leaves alone every part in `Inner`, keeps the queues within their capacities,
starts no motion but under closed guards, and keeps a resting node at rest. It composes. -/
namespace Sys2Proof.Machine

/-- The parts of the state that only a few commands write. -/
structure Inner where
  straps     : Straps
  resetCause : ResetCause
  sampling   : Bool
  pending    : List Instr
  words      : Memory
  guards     : Vector GuardInput 4
  mode       : GalleryMode
  clock      : Nat
  ms         : Nat
  lineLost   : Bool
  localPlay  : Option Bool
  bypass     : Bool
  assembler  : Assembler
  hopLimit   : Nat
  lossUnits  : Nat
  lossTimer  : Option Nat
  image      : ImageState
  load       : LoadStep
  save       : Option SaveProgress
  flashBusy  : Option FlashOp
  flashNext  : Option FlashOp

/-- Those parts of a state. -/
def State.inner (s : State) : Inner :=
  { straps := s.straps, resetCause := s.resetCause, sampling := s.sampling, pending := s.pending
    words := s.mem.words, guards := s.motion.guards, mode := s.mode.mode, clock := s.mode.clock
    ms := s.mode.ms, lineLost := s.mode.lineLost, localPlay := s.mode.localPlay
    bypass := s.ring.bypass, assembler := s.ring.assembler, hopLimit := s.ring.hopLimit
    lossUnits := s.ring.lossUnits, lossTimer := s.ring.lossTimer, image := s.mgmt.image
    load := s.mgmt.load, save := s.mgmt.save, flashBusy := s.mgmt.flashBusy
    flashNext := s.mgmt.flashNext }

/-- An operation that takes `s` to `t` is calm. -/
structure Calm (s t : State) : Prop where
  inner      : t.inner = s.inner
  relay      : s.ring.relay.length ≤ Config.relayCapacity →
    t.ring.relay.length ≤ Config.relayCapacity
  insertion  : s.ring.insertion.length ≤ Config.insertionCapacity →
    t.ring.insertion.length ≤ Config.insertionCapacity
  triggers   : s.cue.queue.length ≤ Config.triggerCapacity →
    t.cue.queue.length ≤ Config.triggerCapacity
  relayCount : s.ring.relayCount ≤ Config.relayCountMax → t.ring.relayCount ≤ Config.relayCountMax
  motion     : ∀ c : Fin 4, (t.chan c).state.inMotion = true →
    ((s.chan c).state.inMotion = true ∧ (t.chan c).held = (s.chan c).held)
      ∨ s.guardsClosed (t.chan c).guardMap = true
  rest       : s.RestOk → t.RestOk
  active     : s.mode.node = .active → t.mode.node = .active

namespace Calm
variable {s t u : State}

theorem guards (h : Calm s t) : t.motion.guards = s.motion.guards := congrArg Inner.guards h.inner
theorem mode (h : Calm s t) : t.mode.mode = s.mode.mode := congrArg Inner.mode h.inner
theorem words (h : Calm s t) : t.mem.words = s.mem.words := congrArg Inner.words h.inner
theorem pending (h : Calm s t) : t.pending = s.pending := congrArg Inner.pending h.inner
theorem bypass (h : Calm s t) : t.ring.bypass = s.ring.bypass := congrArg Inner.bypass h.inner
theorem clock (h : Calm s t) : t.mode.clock = s.mode.clock := congrArg Inner.clock h.inner
theorem straps (h : Calm s t) : t.straps = s.straps := congrArg Inner.straps h.inner

theorem refl (s : State) : Calm s s :=
  ⟨rfl, id, id, id, id, fun _ h => .inl ⟨h, rfl⟩, id, id⟩

end Calm

/-- Whether guards read closed depends on the guard readings alone. -/
theorem guardsClosed_congr {s t : State} (h : t.motion.guards = s.motion.guards) (m : BitVec 4) :
    t.guardsClosed m = s.guardsClosed m := by
  simp [State.guardsClosed, State.guardIn, h]

theorem guardMap_congr {x y : Channel} (h : x.held = y.held) : x.guardMap = y.guardMap := by
  simp [Channel.guardMap, h]

namespace Calm
variable {s t u : State}

theorem trans (h : Calm s t) (k : Calm t u) : Calm s u where
  inner := k.inner.trans h.inner
  relay := k.relay ∘ h.relay
  insertion := k.insertion ∘ h.insertion
  triggers := k.triggers ∘ h.triggers
  relayCount := k.relayCount ∘ h.relayCount
  motion c hu := by
    rcases k.motion c hu with ⟨ht, e⟩ | hg
    · rcases h.motion c ht with ⟨hs, e'⟩ | hg
      · exact .inl ⟨hs, e.trans e'⟩
      · exact .inr (guardMap_congr e ▸ hg)
    · exact .inr (guardsClosed_congr h.guards _ ▸ hg)
  rest := k.rest ∘ h.rest
  active := k.active ∘ h.active

/-- Folding calm operations is calm. -/
theorem foldl {α : Type} (f : State → α → State) (hf : ∀ a x, Calm a (f a x)) (l : List α) (s : State) :
    Calm s (l.foldl f s) := by
  induction l generalizing s with
  | nil => exact .refl s
  | cons x l ih => exact (hf s x).trans (ih (f s x))

/-- A choice between calm operations is calm. -/
theorem ite {p : Prop} [Decidable p] (ht : p → Calm s t) (hu : ¬p → Calm s u) :
    Calm s (if p then t else u) := by
  split
  · exact ht ‹_›
  · exact hu ‹_›

/-- An operation that leaves the inner parts, the transmit queues, the channels, the outputs and the node
state alone is calm. -/
theorem of_eq (hi : t.inner = s.inner) (hr : t.ring.relay = s.ring.relay)
    (hn : t.ring.insertion = s.ring.insertion) (hc : t.ring.relayCount = s.ring.relayCount)
    (hq : t.cue.queue = s.cue.queue) (hch : t.motion.channels = s.motion.channels)
    (ho : t.effect.outputs = s.effect.outputs) (hnode : t.mode.node = s.mode.node) : Calm s t where
  inner := hi
  relay := by rw [hr]; exact id
  insertion := by rw [hn]; exact id
  triggers := by rw [hq]; exact id
  relayCount := by rw [hc]; exact id
  motion c h := by
    have e : t.chan c = s.chan c := by simp only [State.chan, hch]
    exact .inl ⟨e ▸ h, by rw [e]⟩
  rest h := by
    have hm : t.mode.mode = s.mode.mode := congrArg Inner.mode hi
    refine ⟨fun hd => hm.trans (h.closed (hnode ▸ hd)), fun hd c => ?_, fun hd o => ?_⟩
    · have e : t.chan c = s.chan c := by simp only [State.chan, hch]
      rw [e]
      exact h.channels (hnode ▸ hd) c
    · have e : t.out o = s.out o := by simp only [State.out, ho]
      rw [e]
      exact h.outputs (hnode ▸ hd) o
  active h := hnode.trans h

/-- Replacing channel `c` by `x` is calm when it starts no motion but under closed guards and leaves a
resting channel resting. -/
theorem withChan {c : Fin 4} {x : Channel}
    (hm : x.state.inMotion = true →
      ((s.chan c).state.inMotion = true ∧ x.held = (s.chan c).held)
        ∨ s.guardsClosed x.guardMap = true)
    (hr : (s.chan c).state = .resting → x.state = .resting) : Calm s (s.withChan c x) where
  inner := rfl
  relay := id
  insertion := id
  triggers := id
  relayCount := id
  motion d := by
    rw [chan_withChan]
    split
    · rename_i e
      subst e
      exact hm
    · exact fun h => .inl ⟨h, rfl⟩
  rest h := ⟨h.closed, fun hd d => by
    rw [chan_withChan]
    split
    · rename_i e
      subst e
      exact hr (h.channels hd d)
    · exact h.channels hd d, h.outputs⟩
  active := id

/-- Replacing channel `c` by a record with the same state and settings is calm. -/
theorem withChan_same {c : Fin 4} {x : Channel} (hs : x.state = (s.chan c).state)
    (hh : x.held = (s.chan c).held) : Calm s (s.withChan c x) :=
  withChan (fun h => .inl ⟨hs ▸ h, hh⟩) (fun h => hs.trans h)

/-- Replacing channel `c` by one at rest is calm unless it was RESTING. -/
theorem withChan_rest {c : Fin 4} {x : Channel} (hs : x.state.inMotion = false)
    (hr : (s.chan c).state ≠ .resting) : Calm s (s.withChan c x) :=
  withChan (fun h => absurd (hs ▸ h) (by simp)) (fun h => absurd h hr)

/-- Replacing output `o` is calm when it leaves an output at rest at rest. -/
theorem withOut {o : Fin 8} {x : Effect}
    (hx : s.mode.node = .dormant → (s.out o).fine = 0 → (s.out o).running = false →
      x.fine = 0 ∧ x.running = false) : Calm s (s.withOut o x) where
  inner := rfl
  relay := id
  insertion := id
  triggers := id
  relayCount := id
  motion c h := .inl ⟨h, rfl⟩
  rest h := ⟨h.closed, h.channels, fun hd p => by
    rw [out_withOut]
    split
    · rename_i e
      subst e
      exact hx hd (h.outputs hd p).1 (h.outputs hd p).2
    · exact h.outputs hd p⟩
  active := id

theorem withBtn (b : Fin 16) (x : Button) : Calm s (s.withBtn b x) :=
  .of_eq rfl rfl rfl rfl rfl rfl rfl rfl

theorem withSlot (i : Fin 16) (r : Option Record) : Calm s (s.withSlot i r) :=
  .of_eq rfl rfl rfl rfl rfl rfl rfl rfl

end Calm

/-! ## Lamps, beacon, rest (Notices.lean) -/

section Notices
variable (s : State)

theorem calm_lampUpdate (b : Fin 16) : Calm s (s.lampUpdate b) := .withBtn _ _

theorem calm_allLamps : Calm s s.allLamps :=
  .of_eq rfl rfl rfl rfl rfl rfl rfl rfl

theorem calm_channelLamps (c : Fin 4) : Calm s (s.channelLamps c) :=
  .of_eq rfl rfl rfl rfl rfl rfl rfl rfl

theorem calm_beaconUpdate : Calm s s.beaconUpdate := by
  simp only [State.beaconUpdate]
  split
  · exact .refl s
  · exact .of_eq rfl rfl rfl rfl rfl rfl rfl rfl

/-- Replacing the held copy of a channel at rest leaves it at rest, and a RESTING one RESTING. -/
theorem replaceHeld_state (ch : Channel) (h : Held ChannelSettings)
    (hr : ch.state.replaceable = true) :
    (ch.replaceHeld h).state.inMotion = false ∧
      (ch.state = .resting → (ch.replaceHeld h).state = .resting) := by
  have hd : ∀ x : Channel, (x.state = ch.state ∨ (ch.state = .idle ∧ x.state = .unhomed)) →
      (x.disableEffect.state = ch.state ∨ (ch.state = .idle ∧ x.disableEffect.state = .unhomed)) := by
    intro x hx
    cases e : ch.state <;> cases e' : x.state <;> simp_all [Channel.disableEffect]
  have hl : ∀ x : Channel, (x.state = ch.state ∨ (ch.state = .idle ∧ x.state = .unhomed)) →
      (x.losePosition.state = ch.state ∨ (ch.state = .idle ∧ x.losePosition.state = .unhomed)) := by
    intro x hx
    cases e : ch.state <;> cases e' : x.state <;> simp_all [Channel.losePosition]
    split <;> simp_all
  have ht : ∀ x : Channel, (x.state = ch.state ∨ (ch.state = .idle ∧ x.state = .unhomed)) →
      (x.travelEffect.state = ch.state ∨ (ch.state = .idle ∧ x.travelEffect.state = .unhomed)) := by
    intro x hx
    cases e : ch.state <;> cases e' : x.state <;> simp_all [Channel.travelEffect]
  have hs : ∀ x : Channel, (x.state = ch.state ∨ (ch.state = .idle ∧ x.state = .unhomed)) →
      x.state.inMotion = false ∧ (ch.state = .resting → x.state = .resting) := by
    intro x hx
    cases e : ch.state <;> cases e' : x.state <;>
      simp_all [ChanState.replaceable, ChanState.inMotion]
  have key : ∀ (f : Channel → Channel) (y : Channel) (q : Prop) [Decidable q],
      (∀ x : Channel, (x.state = ch.state ∨ (ch.state = .idle ∧ x.state = .unhomed)) →
        ((f x).state = ch.state ∨ (ch.state = .idle ∧ (f x).state = .unhomed))) →
      (y.state = ch.state ∨ (ch.state = .idle ∧ y.state = .unhomed)) →
      ((if q then f y else y).state = ch.state ∨
        (ch.state = .idle ∧ (if q then f y else y).state = .unhomed)) := by
    intro f y q _ hf hy
    split
    · exact hf _ hy
    · exact hy
  refine hs _ ?_
  unfold Channel.replaceHeld
  dsimp only
  split
  · exact key _ _ _ ht (key _ _ _ hl (key _ _ _ hd (.inl rfl)))
  · exact hd _ (.inl rfl)
  · exact hd _ (.inl rfl)
  · exact .inl rfl
  · exact .inl rfl

/-- Taking a copy held aside: nothing changes in motion, and a RESTING channel stays RESTING. -/
theorem takeAside_state (ch : Channel) :
    (ch.takeAside.state.inMotion = true → ch.takeAside = ch) ∧
      (ch.state = .resting → ch.takeAside.state = .resting) := by
  unfold Channel.takeAside
  split
  · split
    · rename_i h _ hr
      have := replaceHeld_state { ch with aside := none } h hr
      exact ⟨fun hm => absurd (this.1 ▸ hm) (by simp), this.2⟩
    · exact ⟨fun _ => rfl, id⟩
  · exact ⟨fun _ => rfl, id⟩

theorem enterResting_state (ch : Channel) : ch.enterResting.state = .resting :=
  (takeAside_state { ch with restState := some ch.state, state := .resting }).2 rfl

/-- Entering DORMANT from a node in CLOSED. -/
theorem calm_enterDormant (h : s.mode.node = .closing) : Calm s s.enterDormant where
  inner := rfl
  relay := id
  insertion := id
  triggers := id
  relayCount := id
  motion c hm := by
    have : (s.enterDormant.chan c).state = .resting := by
      show ((({ s with mode.node := .dormant }).mapChans Channel.enterResting).chan c).state = _
      rw [chan_mapChans]
      exact enterResting_state _
    rw [this] at hm
    exact absurd hm (by simp [ChanState.inMotion])
  rest hr := by
    refine ⟨fun _ => hr.closed (.inl h), fun _ c => ?_, fun _ o => ?_⟩
    · show ((({ s with mode.node := .dormant }).mapChans Channel.enterResting).chan c).state = _
      rw [chan_mapChans]
      exact enterResting_state _
    · show ((({ s with mode.node := .dormant }).mapChans Channel.enterResting).restOutputs.out o).fine
        = 0 ∧ _
      simp [State.restOutputs, State.out, Effect.rested, State.enterDormant, State.allLamps]
  active ha := absurd (ha.symm.trans h) (by simp)

theorem calm_restTest : Calm s s.restTest := by
  unfold State.restTest
  split
  · rename_i h
    exact calm_enterDormant s h.1
  · exact .refl s

theorem calm_tellChannel (c : Fin 4) : Calm s (s.tellChannel c) :=
  (calm_restTest s).trans (calm_channelLamps _ c)

/-- A change of channel state that starts no motion but under closed guards, of a channel that was not
RESTING or stays so. -/
theorem calm_changeChan (c : Fin 4) (x : Channel)
    (hm : x.state.inMotion = true →
      ((s.chan c).state.inMotion = true ∧ x.held = (s.chan c).held)
        ∨ s.guardsClosed x.guardMap = true)
    (hr : (s.chan c).state = .resting → x.state = .resting) : Calm s (s.changeChan c x) := by
  refine Calm.trans (.withChan (fun h => ?_) (fun h => (takeAside_state x).2 (hr h)))
    (calm_tellChannel _ c)
  have e := (takeAside_state x).1 h
  rw [e] at h ⊢
  exact hm h

theorem calm_releaseTest (c : Fin 4) : Calm s (s.releaseTest c) := by
  unfold State.releaseTest
  dsimp only
  split
  · rename_i hst
    split
    · refine calm_changeChan s c _ (fun h => absurd h ?_) (fun h => absurd (hst ▸ h) (by simp))
      dsimp only
      split <;> simp [ChanState.inMotion]
    · exact .refl s
  · rename_i hst
    split
    · exact calm_changeChan s c _ (fun h => absurd h (by simp [ChanState.inMotion]))
        (fun h => absurd (hst ▸ h) (by simp))
    · exact .refl s
  · exact .refl s

theorem calm_gatingNotice (c : Fin 4) : Calm s (s.gatingNotice c) :=
  (calm_channelLamps s c).trans (calm_releaseTest _ c)

theorem calm_tellRecord (c : Cause) (subject : Nat) : Calm s (s.tellRecord c subject) := by
  have h := ((calm_beaconUpdate s).trans (calm_restTest _)).trans
    (Calm.foldl State.gatingNotice calm_gatingNotice
      (s.beaconUpdate.restTest.concerned c subject) s.beaconUpdate.restTest)
  unfold State.tellRecord
  dsimp only
  split
  · exact h.trans (calm_lampUpdate _ _)
  · exact h

end Notices

end Sys2Proof.Machine
end

