-- ==== Sys2Proof/Laws/CalmAlerts.lean ====
section
/-! SUPPORT. The transmitter, the alert unit, the arbiter and the cue engine are calm (Laws/Calm.lean). -/
namespace Sys2Proof.Machine

/-! ## Records and the transmitter (Alerts.lean) -/

section Alerts
variable (s : State)

theorem calm_buildCall (i : Fin 16) (r : Record) : Calm s (s.buildCall i r) := by
  have h : Calm s (s.withSlot i (s.recordAfterCall r)) := .withSlot _ _
  unfold State.buildCall
  dsimp only
  split
  · exact h.trans (calm_tellRecord _ _ _)
  · exact h.trans (calm_tellRecord _ _ _)
  · exact h
  · exact h

/-- The transmitter takes an own frame: the count returns to 0, and the insertion queue loses at most its
head. -/
theorem calm_takeOwn : Calm s s.takeOwn := by
  unfold State.takeOwn
  split
  · split
    · split
      · refine Calm.trans (t := { s with ring.sending := _, ring.relayCount := 0 }) ?_
          (calm_buildCall _ _ _)
        exact ⟨rfl, id, id, id, fun _ => Nat.zero_le _, fun c h => .inl ⟨h, rfl⟩,
          fun h => ⟨h.1, h.2, h.3⟩, id⟩
      · exact .refl s
    · exact .refl s
  · split
    · rename_i e
      refine ⟨rfl, id, fun h => ?_, id, fun _ => Nat.zero_le _, fun c h => .inl ⟨h, rfl⟩,
          fun h => ⟨h.1, h.2, h.3⟩, id⟩
      rw [e] at h
      exact Nat.le_of_succ_le h
    · exact .refl s

theorem calm_choose : Calm s s.choose := by
  unfold State.choose
  split
  · rename_i e
    split
    · refine ⟨rfl, fun h => ?_, id, id, fun h => ?_, fun c h => .inl ⟨h, rfl⟩,
          fun h => ⟨h.1, h.2, h.3⟩, id⟩
      · rw [e] at h
        exact Nat.le_of_succ_le h
      · show satInc _ _ ≤ _
        unfold satInc
        split <;> omega
    · exact calm_takeOwn s
  · exact .ite (fun _ => calm_takeOwn s) (fun _ => .refl s)

theorem calm_pump : Calm s s.pump := .ite (fun _ => calm_choose s) (fun _ => .refl s)

/-- A frame that joins the relay buffer finds room there. -/
theorem calm_offerRelay (f : Frame) : Calm s (s.offerRelay f) := by
  unfold State.offerRelay
  split
  · rename_i h
    refine Calm.trans (t := { s with ring.relay := s.ring.relay ++ [f] }) ?_ (calm_pump _)
    refine ⟨rfl, fun _ => ?_, id, id, id, fun c h => .inl ⟨h, rfl⟩, fun h => ⟨h.1, h.2, h.3⟩, id⟩
    simpa using h
  · exact .of_eq rfl rfl rfl rfl rfl rfl rfl rfl

/-- A frame joins the insertion queue where there is room. -/
theorem calm_insert (f : Frame) (h : s.ring.insertion.length < Config.insertionCapacity) :
    Calm s { s with ring.insertion := s.ring.insertion ++ [f] } := by
  refine ⟨rfl, id, fun _ => ?_, id, id, fun c h => .inl ⟨h, rfl⟩, fun h => ⟨h.1, h.2, h.3⟩, id⟩
  simpa using h

theorem calm_offerOwn (f : Frame) : Calm s (s.offerOwn f) := by
  unfold State.offerOwn
  split
  · rename_i h
    exact (calm_insert s f h.2).trans (calm_pump _)
  · exact .of_eq rfl rfl rfl rfl rfl rfl rfl rfl

/-- A waiting frame joins the insertion queue where there is room. -/
theorem calm_joinWaiting (w : WaitingFrame)
    (h : s.ring.insertion.length < Config.insertionCapacity) : Calm s (s.joinWaiting w) := by
  unfold State.joinWaiting
  split
  · split
    · refine Calm.trans (t := { s with
        ring.insertion := s.ring.insertion ++ [_], mgmt.slot := .empty }) ?_ (calm_pump _)
      exact (calm_insert s _ h).trans (.of_eq rfl rfl rfl rfl rfl rfl rfl rfl)
    · exact .refl s
  · exact (calm_insert s _ h).trans (calm_pump _)
  · exact (calm_insert s _ h).trans (calm_pump _)

theorem calm_offerWaiting (w : WaitingFrame) : Calm s (s.offerWaiting w) := by
  unfold State.offerWaiting
  split
  · rename_i h
    exact calm_joinWaiting s w h.2.2
  · exact .of_eq rfl rfl rfl rfl rfl rfl rfl rfl

theorem calm_fillSnapshot (c : Cause) (n : Nat) (i : Option (Fin 16)) (x : Option ChanInfo) :
    Calm s (s.fillSnapshot c n i x) := by
  unfold State.fillSnapshot
  split
  · exact .of_eq rfl rfl rfl rfl rfl rfl rfl rfl
  · exact .refl s

theorem calm_raiseWith (c : Cause) (n : Nat) (l : Option Level) (x : Option ChanInfo) :
    Calm s (s.raiseWith c n l x) := by
  unfold State.raiseWith
  split
  · split
    · have h : ∀ r i, Calm s ((s.withSlot i (some (r : Record))).fillSnapshot c n (some i) x) :=
        fun r i => (Calm.withSlot i _).trans (calm_fillSnapshot _ _ _ _ _)
      dsimp only
      split
      · exact ((h _ _).trans (calm_beaconUpdate _)).trans (calm_pump _)
      · exact ((h _ _).trans (calm_tellRecord _ _ _)).trans (calm_pump _)
    · exact .refl s
  · split
    · exact (((Calm.withSlot _ _).trans (calm_fillSnapshot _ _ _ _ _)).trans
        (calm_tellRecord _ _ _)).trans (calm_pump _)
    · refine (Calm.trans (t := { s with alert.overflow := true }) ?_
        (calm_fillSnapshot _ _ _ _ _)).trans (calm_beaconUpdate _)
      exact .of_eq rfl rfl rfl rfl rfl rfl rfl rfl

theorem calm_raise (c : Cause) (n : Nat) : Calm s (s.raise c n) := calm_raiseWith s c n none none

theorem calm_conditionEnd (c : Cause) (n : Nat) : Calm s (s.conditionEnd c n) := by
  unfold State.conditionEnd
  split
  · exact .refl s
  · split
    · exact .refl s
    · rename_i i _ _ r _
      have h : ∀ x, Calm s ((s.withSlot i x).tellRecord c n).pump := fun x =>
        ((Calm.withSlot i x).trans (calm_tellRecord _ _ _)).trans (calm_pump _)
      dsimp only
      split
      · exact .refl s
      · exact h _
      · exact .ite (fun _ => .withSlot _ _) (fun _ => h _)
      · exact .ite (fun _ => .withSlot _ _) (fun _ => h _)

theorem calm_acknowledge (l : List (Fin 16)) : Calm s (s.acknowledge l) := by
  unfold State.acknowledge
  dsimp only
  refine Calm.trans ?_ (calm_pump _)
  refine Calm.trans ?_ (Calm.foldl (fun a (e : Fin 16 × Record) => a.tellRecord e.2.cause e.2.subject)
    (fun a e => calm_tellRecord a _ _) _ _)
  exact Calm.foldl (fun a (e : Fin 16 × Record) => a.withSlot e.1 (s.acknowledged e.2))
    (fun a e => .withSlot _ _) _ _

theorem calm_clearOverflow : Calm s s.clearOverflow :=
  Calm.trans (t := { s with alert.overflow := false }) (.of_eq rfl rfl rfl rfl rfl rfl rfl rfl)
    (calm_beaconUpdate _)

theorem calm_keyClosed : Calm s s.keyClosed :=
  (calm_acknowledge s sixteen).trans (calm_clearOverflow _)

theorem calm_sampleKey (x : Bool) : Calm s (s.sampleKey x) := by
  have h : ∀ k : KeyInput, Calm s { s with alert.key := k } := fun k =>
    .of_eq rfl rfl rfl rfl rfl rfl rfl rfl
  unfold State.sampleKey
  dsimp only
  split
  · exact h _
  · split
    · exact h _
    · split
      · exact h _
      · split
        · exact (h _).trans (calm_keyClosed _)
        · exact h _

theorem calm_beaconPhase : Calm s s.beaconPhase := by
  unfold State.beaconPhase
  split <;> first | exact .refl s | exact .of_eq rfl rfl rfl rfl rfl rfl rfl rfl

theorem calm_sounderPhase : Calm s s.sounderPhase := by
  unfold State.sounderPhase
  split <;> first | exact .refl s | exact .of_eq rfl rfl rfl rfl rfl rfl rfl rfl

end Alerts

/-! ## The arbiter (Arbiter.lean) -/

section Arbiter
variable (s : State)

theorem calm_arbitrate : Calm s s.arbitrate := by
  unfold State.arbitrate State.grant
  repeat' split
  all_goals first | exact .refl s | exact .of_eq rfl rfl rfl rfl rfl rfl rfl rfl

theorem calm_endAccess : Calm s s.endAccess :=
  Calm.trans (t := { s with mem.access := none }) (.of_eq rfl rfl rfl rfl rfl rfl rfl rfl)
    (calm_arbitrate _)

theorem calm_readFor (i : Nat) (w : Requester) : Calm s (s.readFor i w) := by
  unfold State.readFor State.countRead
  split <;> first | exact .refl s | exact .of_eq rfl rfl rfl rfl rfl rfl rfl rfl

/-- A delivered word: calm if what its reader makes of it is. -/
theorem calm_deliver (op : AccessOp) (w : Requester) (f : Delivered → State → State)
    (hf : ∀ d a, Calm a (f d a)) : Calm s (s.deliver op w f) := by
  unfold State.deliver
  split
  · split
    · dsimp only
      refine Calm.trans ?_ (calm_endAccess _)
      exact .ite (fun _ => calm_readFor _ _ _) (fun _ => (calm_readFor _ _ _).trans (hf _ _))
    · exact .refl s
  · exact .refl s

theorem calm_askFor (b : Block) : Calm s (s.askFor b) := by
  unfold State.askFor
  repeat' split
  all_goals first | exact .refl s | exact .of_eq rfl rfl rfl rfl rfl rfl rfl rfl

theorem calm_ask : Calm s s.ask := Calm.foldl State.askFor calm_askFor _ _

theorem calm_notice (j : Job) : Calm s (s.notice j) := by
  unfold State.notice
  split
  · exact .of_eq rfl rfl rfl rfl rfl rfl rfl rfl
  · split
    · exact .refl s
    · exact Calm.trans (t := { s with mem.owed := s.mem.owed ++ [j] })
        (.of_eq rfl rfl rfl rfl rfl rfl rfl rfl) (calm_ask _)

theorem calm_pathWord (d : Delivered) : Calm s (s.pathWord d) := by
  unfold State.pathWord
  split <;> first | exact .refl s | exact .of_eq rfl rfl rfl rfl rfl rfl rfl rfl

theorem calm_pathNext : Calm s s.pathNext :=
  Calm.trans (t := { s with mem.path := s.mem.path.tail }) (.of_eq rfl rfl rfl rfl rfl rfl rfl rfl)
    (calm_ask _)

/-- A settings word delivered: calm if taking the complete entry is. -/
theorem calm_settingsWord (d : Delivered) (f : Ask → State → State) (hf : ∀ e a, Calm a (f e a)) :
    Calm s (s.settingsWord d f) := by
  unfold State.settingsWord
  dsimp only
  split
  · exact ((calm_pathWord s d).trans (calm_pathNext _)).trans (hf _ _)
  · exact calm_pathWord s d

theorem calm_scrubAdvance : Calm s s.scrubAdvance := by
  unfold State.scrubAdvance
  split <;> exact .of_eq rfl rfl rfl rfl rfl rfl rfl rfl

end Arbiter

/-! ## The cue engine (Cue.lean) -/

section Cue
variable (s : State)

/-- The cue engine's state replaced by one whose queue is no longer. -/
theorem calm_cue (x : CueEngine) (h : x.queue.length ≤ s.cue.queue.length) :
    Calm s { s with cue := x } :=
  ⟨rfl, id, id, fun k => Nat.le_trans h k, id, fun _ h => .inl ⟨h, rfl⟩, fun h => ⟨h.1, h.2, h.3⟩, id⟩

theorem calm_dispatch (d : Dispatch) : Calm s { s with cue.dispatch := d } :=
  calm_cue s _ (Nat.le_refl _)

theorem calm_takeTrigger : Calm s s.takeTrigger := by
  unfold State.takeTrigger
  split
  · split
    · exact .refl s
    · rename_i e
      split
      · exact calm_cue s _ (Nat.zero_le _)
      · refine Calm.trans (calm_cue s _ ?_) (calm_arbitrate _)
        rw [e]
        exact Nat.le_succ _
  · exact .refl s
  · exact .refl s

/-- A trigger that joins the queue finds room there. -/
theorem calm_offerTrigger (t : Trigger) : Calm s (s.offerTrigger t) := by
  unfold State.offerTrigger
  split
  · rename_i h
    refine Calm.trans (t := { s with cue.queue := s.cue.queue ++ [t] }) ?_ (calm_takeTrigger _)
    refine ⟨rfl, id, id, fun _ => ?_, id, fun _ h => .inl ⟨h, rfl⟩, fun h => ⟨h.1, h.2, h.3⟩, id⟩
    simpa using h
  · exact .of_eq rfl rfl rfl rfl rfl rfl rfl rfl

theorem calm_nextEntry (t : Trigger) (i : Nat) : Calm s (s.nextEntry t i) := by
  unfold State.nextEntry
  split
  · exact calm_dispatch s _
  · exact (calm_dispatch s _).trans (calm_takeTrigger _)

theorem calm_entryDamaged (t : Trigger) (i : Nat) : Calm s (s.entryDamaged t i) :=
  (calm_raise s _ _).trans (calm_nextEntry _ _ _)

theorem calm_cueWord (d : Delivered) : Calm s (s.cueWord d) := by
  unfold State.cueWord
  split
  · dsimp only
    split
    · exact calm_dispatch s _
    · split
      · unfold State.judgeEntry
        split
        · exact calm_entryDamaged s _ _
        · exact .ite (fun _ => calm_dispatch s _) (fun _ => calm_nextEntry s _ _)
      · split
        · exact calm_dispatch s _
        · unfold State.judgeActions
          split
          · exact calm_entryDamaged s _ _
          · exact calm_dispatch s _
  · exact .refl s
  · exact .refl s

theorem calm_handOn (a : Action) : Calm s (s.handOn a) := by
  unfold State.handOn
  split
  · split
    · refine Calm.trans ?_ (calm_arbitrate _)
      exact .ite (fun _ => calm_dispatch s _) (fun _ => calm_nextEntry s _ _)
    · exact .refl s
  · exact .refl s
  · exact .refl s

/-- An action that comes to its block: what performing it keeps is kept. -/
theorem calm_takeAction (a : Action) {f : State → State} (h : Calm s (f s)) :
    Calm s (s.takeAction a f) :=
  .ite (fun _ => .of_eq rfl rfl rfl rfl rfl rfl rfl rfl) (fun _ => h.trans (calm_handOn _ a))

theorem calm_entryWritten (e : Nat) : Calm s (s.entryWritten e) := by
  unfold State.entryWritten
  repeat' split
  all_goals first | exact .refl s | exact calm_dispatch s _ | exact .of_eq rfl rfl rfl rfl rfl rfl rfl rfl

end Cue

end Sys2Proof.Machine
end

