-- ==== Sys2Proof/Laws/CalmMotion.lean ====
section
/-! SUPPORT. The motion unit and the step generator are calm (Laws/Calm.lean), and what is told to other
blocks leaves a channel in motion as it is. -/
namespace Sys2Proof.Machine

/-! ## Telling leaves a channel in motion alone -/

/-- Every channel in motion is as before. -/
def Still (s t : State) : Prop := ∀ c : Fin 4, (s.chan c).state.inMotion = true → t.chan c = s.chan c

namespace Still
variable {s t u : State}

theorem refl (s : State) : Still s s := fun _ _ => rfl

theorem trans (h : Still s t) (k : Still t u) : Still s u := fun c hc =>
  (k c (by rw [h c hc]; exact hc)).trans (h c hc)

theorem of_eq (h : t.motion.channels = s.motion.channels) : Still s t := fun c _ => by
  simp only [State.chan, h]

theorem foldl {α : Type} (f : State → α → State) (hf : ∀ a x, Still a (f a x)) (l : List α)
    (s : State) : Still s (l.foldl f s) := by
  induction l generalizing s with
  | nil => exact .refl s
  | cons x l ih => exact (hf s x).trans (ih (f s x))

theorem ite {p : Prop} [Decidable p] (ht : p → Still s t) (hu : ¬p → Still s u) :
    Still s (if p then t else u) := by
  split
  · exact ht ‹_›
  · exact hu ‹_›

end Still

section Still
variable (s : State)

/-- The rest test passes only when no channel is in motion. -/
theorem restPasses_still (h : s.restPasses = true) (c : Fin 4) :
    (s.chan c).state.inMotion = false := by
  simp only [State.restPasses, four, List.all_cons, List.all_nil, Bool.and_true, Bool.and_eq_true] at h
  have hx : (s.chan c).state.atRest = true := by
    fin_cases c
    exacts [h.1.1, h.1.2.1, h.1.2.2.1, h.1.2.2.2]
  cases e : (s.chan c).state <;> simp_all [ChanState.atRest, ChanState.inMotion]

theorem still_restTest : Still s s.restTest := by
  unfold State.restTest
  split
  · rename_i h
    intro c hc
    rw [restPasses_still s h.2 c] at hc
    simp at hc
  · exact .refl s

theorem still_tellChannel (c : Fin 4) : Still s (s.tellChannel c) :=
  (still_restTest s).trans (.of_eq rfl)

theorem still_changeChan (c : Fin 4) (x : Channel) (h : (s.chan c).state.inMotion = false) :
    Still s (s.changeChan c x) := by
  refine Still.trans (t := s.withChan c x.takeAside) (fun d hd => ?_) (still_tellChannel _ c)
  rw [chan_withChan]
  split
  · rename_i e
    subst e
    rw [h] at hd
    simp at hd
  · rfl

theorem still_releaseTest (c : Fin 4) : Still s (s.releaseTest c) := by
  unfold State.releaseTest
  dsimp only
  split
  · rename_i h
    exact .ite (fun _ => still_changeChan s c _ (by rw [h]; rfl)) (fun _ => .refl s)
  · rename_i h
    exact .ite (fun _ => still_changeChan s c _ (by rw [h]; rfl)) (fun _ => .refl s)
  · exact .refl s

theorem still_gatingNotice (c : Fin 4) : Still s (s.gatingNotice c) :=
  Still.trans (t := s.channelLamps c) (.of_eq rfl) (still_releaseTest _ c)

theorem still_beaconUpdate : Still s s.beaconUpdate :=
  .ite (fun _ => .refl s) (fun _ => .of_eq rfl)

theorem still_tellRecord (c : Cause) (n : Nat) : Still s (s.tellRecord c n) := by
  have h := ((still_beaconUpdate s).trans (still_restTest _)).trans
    (Still.foldl State.gatingNotice still_gatingNotice
      (s.beaconUpdate.restTest.concerned c n) s.beaconUpdate.restTest)
  unfold State.tellRecord
  dsimp only
  split
  · exact h.trans (.of_eq rfl)
  · exact h

theorem still_buildCall (i : Fin 16) (r : Record) : Still s (s.buildCall i r) := by
  have h : Still s (s.withSlot i (s.recordAfterCall r)) := .of_eq rfl
  unfold State.buildCall
  dsimp only
  split
  · exact h.trans (still_tellRecord _ _ _)
  · exact h.trans (still_tellRecord _ _ _)
  · exact h
  · exact h

theorem still_takeOwn : Still s s.takeOwn := by
  unfold State.takeOwn
  split
  · split
    · split
      · exact Still.trans (t := { s with ring.sending := _, ring.relayCount := 0 }) (.of_eq rfl)
          (still_buildCall _ _ _)
      · exact .refl s
    · exact .refl s
  · split
    · exact .of_eq rfl
    · exact .refl s

theorem still_pump : Still s s.pump := by
  unfold State.pump
  split
  · unfold State.choose
    split
    · exact .ite (fun _ => .of_eq rfl) (fun _ => still_takeOwn s)
    · exact .ite (fun _ => still_takeOwn s) (fun _ => .refl s)
  · exact .refl s

theorem still_offerOwn (f : Frame) : Still s (s.offerOwn f) := by
  unfold State.offerOwn
  split
  · exact Still.trans (t := { s with ring.insertion := s.ring.insertion ++ [f] }) (.of_eq rfl)
      (still_pump _)
  · exact .of_eq rfl

theorem still_fillSnapshot (c : Cause) (n : Nat) (i : Option (Fin 16)) (x : Option ChanInfo) :
    Still s (s.fillSnapshot c n i x) := by
  unfold State.fillSnapshot
  split
  · exact .of_eq rfl
  · exact .refl s

theorem still_raise (c : Cause) (n : Nat) : Still s (s.raise c n) := by
  have h : ∀ r i, Still s ((s.withSlot i (some (r : Record))).fillSnapshot c n (some i) none) :=
    fun r i => Still.trans (t := s.withSlot i (some r)) (.of_eq rfl) (still_fillSnapshot _ _ _ _ _)
  unfold State.raise State.raiseWith
  split
  · split
    · dsimp only
      split
      · exact ((h _ _).trans (still_beaconUpdate _)).trans (still_pump _)
      · exact ((h _ _).trans (still_tellRecord _ _ _)).trans (still_pump _)
    · exact .refl s
  · split
    · exact ((h _ _).trans (still_tellRecord _ _ _)).trans (still_pump _)
    · refine Still.trans (Still.trans ?_ (still_fillSnapshot _ _ _ _ _)) (still_beaconUpdate _)
      exact .of_eq rfl

theorem still_arbitrate : Still s s.arbitrate := by
  unfold State.arbitrate State.grant
  repeat' split
  all_goals exact .of_eq rfl

theorem still_takeTrigger : Still s s.takeTrigger := by
  unfold State.takeTrigger
  split
  · split
    · exact .refl s
    · split
      · exact .of_eq rfl
      · refine Still.trans ?_ (still_arbitrate _)
        exact .of_eq rfl
  · exact .refl s
  · exact .refl s

theorem still_offerTrigger (t : Trigger) : Still s (s.offerTrigger t) := by
  unfold State.offerTrigger
  split
  · exact Still.trans (t := { s with cue.queue := s.cue.queue ++ [t] }) (.of_eq rfl)
      (still_takeTrigger _)
  · exact .of_eq rfl

end Still

/-! ## Motion.lean -/

section Motion
variable (s : State) (c : Fin 4)

theorem calm_cancelOwed : Calm s (s.cancelOwed c) := .of_eq rfl rfl rfl rfl rfl rfl rfl rfl

theorem calm_oweSegment (n : Nat) : Calm s (s.oweSegment c n) := by
  unfold State.oweSegment
  repeat' split
  all_goals first | exact .refl s | exact .of_eq rfl rfl rfl rfl rfl rfl rfl rfl

theorem calm_tryCurrent : Calm s (s.tryCurrent c) := by
  unfold State.tryCurrent
  dsimp only
  split
  · split
    · refine Calm.trans (Calm.trans ?_ (calm_oweSegment _ _ _)) (calm_arbitrate _)
      exact .withChan_same rfl rfl
    · exact .refl s
  · exact .refl s

/-- A profile begins on a channel that is not RESTING and whose guards are closed. -/
theorem calm_beginProfile (p : Fin 32) (hg : s.guardsClosed (s.chan c).guardMap = true)
    (hr : (s.chan c).state ≠ .resting) : Calm s (s.beginProfile c p) := by
  refine Calm.trans (t := s.withChan c ((s.chan c).begin p)) ?_ (Calm.trans ?_ (calm_arbitrate _))
  · exact .withChan (fun _ => .inr hg) (fun h => absurd h hr)
  · refine Calm.trans ?_ (calm_tellChannel _ c)
    exact .of_eq rfl rfl rfl rfl rfl rfl rfl rfl

theorem calm_report (ch : Channel) (o : EndOutcome) : Calm s (s.report c ch o) := by
  unfold State.report
  split
  · exact .refl s
  · dsimp only
    refine Calm.trans ?_ (Calm.withChan_same (by rfl) (by rfl))
    refine Calm.trans ?_ (calm_offerTrigger _ _)
    exact .ite (fun _ => calm_offerOwn _ _) (fun _ => .refl s)

/-- Reporting keeps the state and settings of a channel in motion. -/
theorem report_chan (ch : Channel) (o : EndOutcome) (h : (s.chan c).state.inMotion = true) :
    ((s.report c ch o).chan c).state = (s.chan c).state ∧
      ((s.report c ch o).chan c).held = (s.chan c).held := by
  unfold State.report
  split
  · exact ⟨rfl, rfl⟩
  · dsimp only
    have k : ∀ t, Still s t → t.chan c = s.chan c := fun t ht => ht c h
    rw [chan_withChan, if_pos rfl]
    dsimp only
    rw [k _ (Still.trans (.ite (fun _ => still_offerOwn _ _) (fun _ => .refl s))
      (still_offerTrigger _ _))]
    exact ⟨rfl, rfl⟩

/-- A channel in motion comes to rest, or passes to its pending start. -/
theorem calm_comeToRest (ch : Channel) (o : Option EndOutcome) (hs : ch.state = (s.chan c).state)
    (hh : ch.held = (s.chan c).held) (hm : (s.chan c).state.inMotion = true) :
    Calm s (s.comeToRest c ch o) := by
  have hne : (s.chan c).state ≠ .resting := fun h => by
    rw [h] at hm
    exact absurd hm (by decide)
  have hidle : ∀ x : Channel, x.state = .idle →
      Calm (s.cancelOwed c) ((s.cancelOwed c).changeChan c x) := fun x hx =>
    calm_changeChan _ c x (fun h => absurd (hx ▸ h) (by decide)) (fun h => absurd h hne)
  have hrep : ∀ a : State, Calm a (match o with
      | some x => a.report c ch x
      | none => a) := fun a => by
    split
    · exact calm_report a c ch _
    · exact .refl a
  unfold State.comeToRest
  dsimp only
  refine (calm_cancelOwed s c).trans ?_
  split
  · split
    · rename_i p _ hg
      refine Calm.trans (t := (s.cancelOwed c).withChan c { ch with slot := none })
        (.withChan_same hs hh) ((hrep _).trans ?_)
      have key : ∀ t : State, Calm ((s.cancelOwed c).withChan c { ch with slot := none }) t →
          (t.chan c).state = ch.state → (t.chan c).held = ch.held →
          Calm t (t.beginProfile c p) := fun t ht h1 h2 => by
        refine calm_beginProfile t c p ?_ (by rw [h1, hs]; exact hne)
        rw [guardsClosed_congr ht.guards, guardMap_congr h2]
        exact hg.2
      have hc : ((s.cancelOwed c).withChan c { ch with slot := none }).chan c
          = { ch with slot := none } := by simp
      refine key _ (hrep _) ?_ ?_
      · split
        · rw [(report_chan _ c ch _ (by rw [hc]; exact hs ▸ hm)).1, hc]
        · rw [hc]
      · split
        · rw [(report_chan _ c ch _ (by rw [hc]; exact hs ▸ hm)).2, hc]
        · rw [hc]
    · exact (hidle _ rfl).trans (hrep _)
  · exact (hidle _ rfl).trans (hrep _)

theorem calm_complete (hm : (s.chan c).state.inMotion = true) : Calm s (s.complete c) := by
  refine Calm.trans ?_ (calm_arbitrate _)
  exact calm_comeToRest s c _ _ rfl rfl hm

theorem calm_failProfile (hm : (s.chan c).state.inMotion = true) : Calm s (s.failProfile c) := by
  refine Calm.trans ?_ (calm_arbitrate _)
  exact calm_comeToRest s c _ _ rfl rfl hm

theorem calm_stopDone (hm : (s.chan c).state.inMotion = true) : Calm s (s.stopDone c) := by
  unfold State.stopDone
  dsimp only
  split
  all_goals
    refine Calm.trans ?_ (calm_arbitrate _)
    exact calm_comeToRest s c _ _ rfl rfl hm

theorem calm_enterStopping (e : Ending) : Calm s (s.enterStopping c e) := by
  unfold State.enterStopping
  split
  · rename_i h
    refine (calm_cancelOwed s c).trans (calm_changeChan _ c _ (fun _ => .inl ⟨?_, rfl⟩)
      (fun k => absurd (h ▸ k) (by simp)))
    show (s.chan c).state.inMotion = true
    rw [h]
    rfl
  · exact .refl s

theorem calm_abandonSearch : Calm s (s.abandonSearch c) := by
  unfold State.abandonSearch
  split
  · rename_i h
    exact calm_changeChan _ c _ (by intro k; exact absurd k Bool.false_ne_true) (fun k => absurd (h ▸ k) (by simp))
  · exact .refl s

theorem calm_haltChannel (hm : (s.chan c).state.inMotion = true) : Calm s (s.haltChannel c) := by
  refine ((calm_cancelOwed s c).trans (calm_changeChan _ c _ (by intro k; exact absurd k Bool.false_ne_true)
    (fun k => ?_))).trans (calm_report _ _ _ _)
  change (s.chan c).state = .resting at k
  rw [k] at hm
  exact absurd hm (by decide)

theorem calm_faultChannel (w : FaultReason) (hr : (s.chan c).state ≠ .resting) :
    Calm s (s.faultChannel c w) :=
  ((((calm_cancelOwed s c).trans (calm_changeChan _ c _ (by intro k; exact absurd k Bool.false_ne_true)
    (fun k => absurd k hr))).trans (calm_raiseWith _ _ _ _ _)).trans (calm_releaseTest _ _)).trans
      (calm_report _ _ _ _)

theorem calm_refuse : Calm s (s.refuse c) := .withChan_same rfl rfl

theorem calm_takeHome : Calm s (s.takeHome c) := by
  have hgo : ∀ k : ChannelSettings, (s.chan c).held = .copy k → (s.chan c).state ≠ .resting →
      Calm s (if s.guardsClosed k.guardMap = true then s.changeChan c ((s.chan c).startSearch k)
        else s.refuse c) := fun k hk hr => by
    refine .ite (fun hg => ?_) (fun _ => calm_refuse s c)
    refine calm_changeChan s c _ (fun _ => .inr ?_) (fun h => absurd h hr)
    have : ((s.chan c).startSearch k).guardMap = k.guardMap := by
      simp [Channel.guardMap, Channel.startSearch, Channel.halt, hk]
    rw [this]
    exact hg
  unfold State.takeHome
  dsimp only
  split
  · exact calm_refuse s c
  · split
    · rename_i k hk
      split
      · exact calm_refuse s c
      · split
        all_goals first
          | exact hgo k hk (by rename_i h; rw [h]; decide)
          | exact .refl s
          | exact calm_refuse s c
    · exact calm_refuse s c
    · exact calm_refuse s c

theorem calm_foundHome (hm : (s.chan c).state.inMotion = true) : Calm s (s.foundHome c) := by
  refine Calm.trans ?_ (calm_arbitrate _)
  exact calm_comeToRest s c _ _ rfl rfl hm

theorem calm_searchFailed (hr : (s.chan c).state ≠ .resting) : Calm s (s.searchFailed c) :=
  (calm_changeChan s c _ (by intro k; exact absurd k Bool.false_ne_true) (fun k => absurd k hr)).trans
    (calm_raiseWith _ _ _ _ _)

theorem calm_toSlot (p : Fin 32) : Calm s (s.toSlot c p) := .withChan_same rfl rfl

theorem calm_takeStart (p : Fin 32) : Calm s (s.takeStart c p) := by
  unfold State.takeStart
  split
  · exact calm_refuse s c
  · split
    · rename_i k hk
      split
      · exact calm_refuse s c
      · unfold State.startByState
        split
        · rename_i h
          refine .ite (fun hg => ?_) (fun _ => calm_refuse s c)
          refine calm_beginProfile s c p ?_ (by rw [h]; decide)
          simpa [Channel.guardMap, hk] using hg
        all_goals first
          | exact calm_refuse s c
          | (split
             · exact calm_refuse s c
             · exact calm_toSlot s c p
             · first
               | exact calm_toSlot s c p
               | exact (calm_enterStopping s c _).trans (calm_toSlot _ c p))
    · exact calm_refuse s c
    · exact calm_refuse s c

theorem calm_takeStop : Calm s (s.takeStop c) :=
  (calm_enterStopping s c _).trans (calm_abandonSearch _ c)

/-! ### Ticks -/

theorem calm_segmentDone (hm : (s.chan c).state.inMotion = true) : Calm s (s.segmentDone c) := by
  unfold State.segmentDone
  dsimp only
  split
  · exact .refl s
  · split
    · split
      · exact calm_complete s c hm
      · refine Calm.trans ?_ (calm_tryCurrent _ _)
        exact .withChan_same rfl rfl
    · refine Calm.trans ?_ (calm_tryCurrent _ _)
      exact .withChan_same rfl rfl

/-- A record of channel `c` with its state kept, then the end of its segment. -/
theorem calm_thenSegmentDone (x : Channel) (hs : x.state = (s.chan c).state)
    (hh : x.held = (s.chan c).held) (hm : (s.chan c).state.inMotion = true) :
    Calm s ((s.withChan c x).segmentDone c) :=
  (Calm.withChan_same hs hh).trans (calm_segmentDone _ c (by simp [hs, hm]))

theorem calm_arrive (hm : (s.chan c).state.inMotion = true) : Calm s (s.arrive c) := by
  unfold State.arrive
  dsimp only
  split
  · exact calm_thenSegmentDone s c _ rfl rfl hm
  · exact .withChan_same rfl rfl

theorem calm_dwellTick (hm : (s.chan c).state.inMotion = true) : Calm s (s.dwellTick c) := by
  unfold State.dwellTick
  dsimp only
  split
  · exact calm_thenSegmentDone s c _ rfl rfl hm
  · exact .withChan_same rfl rfl

theorem calm_movingTick (hm : (s.chan c).state.inMotion = true) : Calm s (s.movingTick c) := by
  unfold State.movingTick
  dsimp only
  split
  · exact .withChan_same rfl rfl
  · split
    · exact calm_dwellTick s c hm
    · exact .ite (fun _ => .withChan_same rfl rfl) (fun _ => calm_arrive s c hm)

theorem stopTick_chan (ch : Channel) :
    ch.stopTick.1.state = ch.state ∧ ch.stopTick.1.held = ch.held := by
  unfold Channel.stopTick
  dsimp only
  split
  · split <;> exact ⟨rfl, rfl⟩
  · exact ⟨rfl, rfl⟩

theorem calm_stoppingTick (hm : (s.chan c).state.inMotion = true) : Calm s (s.stoppingTick c) := by
  have go : ∀ x : Channel, x.state = (s.chan c).state → x.held = (s.chan c).held →
      Calm s ((s.withChan c x).stopDone c) := fun x h1 h2 =>
    (Calm.withChan_same h1 h2).trans (calm_stopDone _ c (by simp [h1, hm]))
  have h := stopTick_chan (s.chan c)
  unfold State.stoppingTick
  dsimp only
  split
  · exact go _ rfl rfl
  · exact .ite (fun _ => go _ h.1 h.2) (fun _ => .withChan_same h.1 h.2)

theorem calm_drivenTick (hm : (s.chan c).state.inMotion = true) : Calm s (s.drivenTick c) := by
  have hr : (s.chan c).state ≠ .resting := fun h => by
    rw [h] at hm
    exact absurd hm (by decide)
  unfold State.drivenTick
  dsimp only
  split
  · exact calm_faultChannel s c _ hr
  · split
    · exact calm_faultChannel s c _ hr
    · split
      · exact calm_movingTick s c hm
      · exact calm_stoppingTick s c hm
      · exact .refl s

theorem calm_homingTick (hm : (s.chan c).state.inMotion = true) : Calm s (s.homingTick c) := by
  have hr : (s.chan c).state ≠ .resting := fun h => by
    rw [h] at hm
    exact absurd hm (by decide)
  unfold State.homingTick
  dsimp only
  split
  · exact calm_foundHome s c hm
  · split
    · exact calm_searchFailed s c hr
    · exact .ite (fun _ => calm_faultChannel s c _ hr) (fun _ => .withChan_same rfl rfl)

end Motion

/-! ## Channels.lean -/

section Channels
variable (s : State) (c : Fin 4)

theorem calm_forMask (mask : BitVec 4) (f : State → Fin 4 → State) (hf : ∀ a x, Calm a (f a x)) :
    Calm s (s.forMask mask f) :=
  Calm.foldl (fun a x => if mask.getLsbD x.val = true then f a x else a)
    (fun a x => .ite (fun _ => hf a x) (fun _ => .refl a)) _ _

theorem calm_channelWordRaise (d : Delivered) : Calm s (s.channelWordRaise d) := by
  unfold State.channelWordRaise
  split
  · exact .ite (fun _ => calm_raise s _ _) (fun _ => .refl s)
  · exact .refl s

theorem calm_channelCopy (h : Held ChannelSettings) : Calm s (s.channelCopy c h) := by
  unfold State.channelCopy
  dsimp only
  split
  · rename_i hr
    have k := replaceHeld_state { s.chan c with aside := none } h hr
    split
    · refine Calm.trans ?_ (calm_channelLamps _ c)
      exact .withChan (fun hm => absurd (k.1 ▸ hm) (by simp)) k.2
    · exact calm_changeChan s c _ (fun hm => absurd (k.1 ▸ hm) (by simp)) k.2
  · exact .withChan_same rfl rfl

theorem calm_dropFetch : Calm s s.dropFetch := .of_eq rfl rfl rfl rfl rfl rfl rfl rfl

theorem calm_fetchDamaged (f : FetchItem) (hm : (s.chan c).state.inMotion = true) :
    Calm s (s.fetchDamaged c f) := by
  unfold State.fetchDamaged
  split
  · refine (calm_raise s _ _).trans (calm_failProfile _ c ?_)
    rw [still_raise s _ _ c hm]
    exact hm
  · refine Calm.trans ?_ (calm_enterStopping _ _ _)
    refine (calm_raise s .tableDamage 7).trans ?_
    exact .withChan_same rfl rfl

theorem calm_directoryRead (d : Directory) (hm : (s.chan c).state.inMotion = true) :
    Calm s (s.directoryRead c d) := by
  unfold State.directoryRead
  split
  · exact calm_failProfile s c hm
  · refine Calm.trans (t := s.withChan c { s.chan c with dir := some d }) (.withChan_same rfl rfl) ?_
    exact .of_eq rfl rfl rfl rfl rfl rfl rfl rfl

theorem calm_fetchComplete (f : FetchItem) (ws : List Delivered)
    (hm : (s.chan c).state.inMotion = true) : Calm s (s.fetchComplete c f ws) := by
  unfold State.fetchComplete
  split
  · split
    · exact calm_directoryRead s c _ hm
    · exact calm_fetchDamaged s c _ hm
  · split
    · refine Calm.trans ?_ (calm_tryCurrent _ c)
      exact .withChan_same rfl rfl
    · exact calm_fetchDamaged s c _ hm

theorem calm_prefetchWord (d : Delivered) : Calm s (s.prefetchWord d) := by
  unfold State.prefetchWord
  split
  · exact .refl s
  · dsimp only
    split
    · exact calm_dropFetch s
    · rename_i f _ _ h
      have hm : (s.chan f.chan).state.inMotion = true := by
        rw [not_or, not_not] at h
        rw [h.2]
        rfl
      split
      · exact (calm_fetchDamaged s _ _ hm).trans (calm_dropFetch _)
      · split
        · exact .of_eq rfl rfl rfl rfl rfl rfl rfl rfl
        · exact (calm_fetchComplete s _ _ _ hm).trans (calm_dropFetch _)

theorem calm_guardHalt (g : Fin 4) : Calm s (s.guardHalt g c) := by
  unfold State.guardHalt
  dsimp only
  exact .ite (fun h => calm_haltChannel s c h.2.2) (fun _ => .refl s)

theorem calm_faultAsserted : Calm s (s.faultAsserted c) := by
  unfold State.faultAsserted
  dsimp only
  refine Calm.trans (t := s.withChan c { s.chan c with faultPin := true })
    (.withChan_same rfl rfl) (.ite (fun h => calm_faultChannel _ c _ ?_) (fun _ => .refl _))
  intro e
  have := h.2
  simp only [State.energised, e, Bool.and_false] at this
  exact absurd this (by simp)

theorem calm_faultClear : Calm s (s.faultClear c) := by
  refine Calm.trans (Calm.trans ?_ (calm_conditionEnd _ _ _)) (calm_releaseTest _ _)
  exact .withChan_same rfl rfl

theorem calm_farClear : Calm s (s.farClear c) := by
  refine Calm.trans ?_ (calm_conditionEnd _ _ _)
  exact .withChan_same rfl rfl

end Channels

end Sys2Proof.Machine
end

