-- ==== Sys2Proof/Laws/CalmButtons.lean ====
section
/-! SUPPORT. The button unit and the effect unit are calm (Laws/Calm.lean). -/
namespace Sys2Proof.Machine

/-! ## Buttons.lean -/

section Buttons
variable (s : State) (b : Fin 16)

theorem calm_sendTap (set : ButtonSettings) (k : PressKind) (n : Nat) :
    Calm s (s.sendTap b set k n) := .ite (fun _ => calm_offerOwn s _) (fun _ => .refl s)

theorem calm_dispatchPress (set : ButtonSettings) (k : PressKind) (n : Nat) :
    Calm s (s.dispatchPress b set k n) := (calm_sendTap s b set k n).trans (calm_offerTrigger _ _)

theorem calm_spendPress (set : ButtonSettings) : Calm s (s.spendPress b set) := by
  unfold State.spendPress
  dsimp only
  split
  · exact (Calm.withBtn b _).trans (calm_raise _ _ _)
  · exact .withBtn b _

theorem calm_allowanceTest (set : ButtonSettings) (k : PressKind) (n : Nat) :
    Calm s (s.allowanceTest b set k n) := by
  unfold State.allowanceTest
  split
  · exact calm_dispatchPress s b set k n
  · exact calm_spendPress s b set
  · exact (Calm.withBtn b _).trans (calm_dispatchPress _ b set k n)

theorem calm_pressTests (set : ButtonSettings) (k : PressKind) (n : Nat) :
    Calm s (s.pressTests b set k n) := by
  unfold State.pressTests
  split
  · exact .refl s
  · split
    · exact .refl s
    · exact calm_sendTap s b set k n
    · exact calm_allowanceTest s b set k n

theorem calm_takePress (k : PressKind) (n : Nat) : Calm s (s.takePress b k n) := by
  unfold State.takePress
  split
  · split
    · dsimp only
      refine Calm.trans (Calm.trans ?_ (calm_pressTests _ b _ k n)) (calm_lampUpdate _ b)
      exact .ite (fun _ => calm_raise s _ _) (fun _ => .refl s)
    · exact .refl s
  · exact .refl s
  · exact .refl s

theorem calm_closureAccepted : Calm s (s.closureAccepted b) := by
  unfold State.closureAccepted
  dsimp only
  repeat' split
  all_goals first
    | exact .withBtn b _
    | exact (Calm.withBtn b _).trans (calm_takePress _ b _ _)

theorem calm_releaseAccepted : Calm s (s.releaseAccepted b) := by
  unfold State.releaseAccepted
  dsimp only
  split
  · exact (Calm.withBtn b _).trans (calm_takePress _ b _ _)
  · exact ((Calm.withBtn b _).trans (calm_conditionEnd _ _ _)).trans (calm_lampUpdate _ b)
  · exact .withBtn b _
  · exact .withBtn b _

theorem calm_holdReached : Calm s (s.holdReached b) :=
  (Calm.withBtn b _).trans (calm_takePress _ b _ _)

theorem calm_stuckReached : Calm s (s.stuckReached b) :=
  ((Calm.withBtn b _).trans (calm_raise _ _ _)).trans (calm_lampUpdate _ b)

theorem calm_sampleButton (x : Bool) : Calm s (s.sampleButton b x) := by
  unfold State.sampleButton
  dsimp only
  repeat' split
  all_goals first
    | exact .withBtn b _
    | exact calm_closureAccepted s b
    | exact calm_releaseAccepted s b

theorem calm_buttonCopy (h : Held ButtonSettings) : Calm s (s.buttonCopy b h) := by
  unfold State.buttonCopy
  dsimp only
  refine Calm.trans ?_ (calm_lampUpdate _ b)
  have h1 : ∀ (p : Prop) [Decidable p] (a : State) (k : Cause) (n : Nat),
      Calm a (if p then a.conditionEnd k n else a) := fun p _ a k n =>
    .ite (fun _ => calm_conditionEnd a k n) (fun _ => .refl a)
  have h2 : ∀ a : State, Calm a (match h with
      | .damaged => a.raise .tableDamage 4
      | .absent => a
      | .copy _ => a) := fun a => by
    split
    · exact calm_raise a _ _
    · exact .refl a
    · exact .refl a
  refine Calm.trans ?_ (h2 _)
  refine Calm.trans ?_ (h1 _ _ _ _)
  refine Calm.trans ?_ (h1 _ _ _ _)
  exact .withBtn b _

theorem calm_setLocks (mask : BitVec 16) (lock : Bool) : Calm s (s.setLocks mask lock) := by
  refine Calm.foldl _ (fun a b => ?_) _ _
  exact .ite (fun _ => (Calm.withBtn b _).trans (calm_lampUpdate _ b)) (fun _ => .refl a)

end Buttons

/-! ## Effects.lean -/

section Effects
variable (s : State) (o : Fin 8)

theorem calm_beginEffect (t : Int) (f : Nat) (h : s.mode.node ≠ .dormant) :
    Calm s (s.beginEffect o t f) := .withOut fun hd => absurd hd h

/-- The tick of an output at rest leaves it at rest. -/
theorem tick_rest (e : Effect) (pair : Bool) (n : Nat) (h0 : e.fine = 0) (hr : e.running = false) :
    (e.tick pair n).fine = 0 ∧ (e.tick pair n).running = false := by
  unfold Effect.tick
  split
  · exact ⟨h0, hr⟩
  · simp_all

theorem calm_takeSafe (h : s.mode.node ≠ .dormant) : Calm s (s.takeSafe o) :=
  .ite (fun _ => calm_beginEffect s o _ _ h) (fun _ => .refl s)

theorem takeSafe_node : (s.takeSafe o).mode.node = s.mode.node := by
  unfold State.takeSafe
  split <;> rfl

theorem calm_safeLevels : Calm s s.safeLevels := by
  unfold State.safeLevels
  split
  · exact .refl s
  · rename_i h
    have go : ∀ (l : List (Fin 8)) (a : State), a.mode.node ≠ .dormant →
        Calm a (l.foldl State.takeSafe a) := by
      intro l
      induction l with
      | nil => exact fun a _ => .refl a
      | cons o l ih =>
        exact fun a ha => (calm_takeSafe a o ha).trans (ih _ (by rw [takeSafe_node]; exact ha))
    exact go _ s h

/-- New outputs that leave an output at rest at rest are calm. -/
theorem calm_outputs (x : EffectUnit)
    (h : ∀ o : Fin 8, s.mode.node = .dormant → (s.out o).fine = 0 → (s.out o).running = false →
      x.outputs[o].fine = 0 ∧ x.outputs[o].running = false) : Calm s { s with effect := x } where
  inner := rfl
  relay := id
  insertion := id
  triggers := id
  relayCount := id
  motion _ h := .inl ⟨h, rfl⟩
  rest hr := ⟨hr.closed, hr.channels, fun hd o =>
    h o hd (hr.outputs hd o).1 (hr.outputs hd o).2⟩
  active := id

theorem calm_changePairing (p : BitVec 4) : Calm s (s.changePairing p) := by
  refine calm_outputs s _ (fun o _ h0 hr => ?_)
  simp only [Fin.getElem_fin, Vector.getElem_ofFn]
  split
  · exact ⟨h0, hr⟩
  · exact ⟨rfl, rfl⟩

theorem calm_takeLevels (k : Carrier) : Calm s (s.takeLevels k) :=
  calm_outputs s _ fun o _ h0 hr => by
    simp only [Fin.getElem_fin, Vector.getElem_ofFn]
    exact ⟨h0, hr⟩

theorem calm_carrierCopy (d : Delivered) : Calm s (s.carrierCopy d) := by
  have first : ∀ a k p, Calm a (State.firstCarrier a k p) := fun a k p =>
    Calm.trans (t := { a with
      effect.carrier := some k, effect.inForce := k, effect.pairing := p, effect.counter := 0
      effect.counting := true }) (.of_eq rfl rfl rfl rfl rfl rfl rfl rfl) (calm_takeLevels _ k)
  unfold State.carrierCopy
  split
  · refine Calm.trans ?_ (calm_changePairing _ _)
    exact .of_eq rfl rfl rfl rfl rfl rfl rfl rfl
  · exact first _ _ _
  · exact calm_raise s _ _
  · exact (calm_raise s _ _).trans (first _ _ _)

theorem calm_effectCopy (e : Ask) : Calm s (s.effectCopy e) := by
  unfold State.effectCopy
  split
  · exact calm_carrierCopy s _
  · dsimp only
    have h : ∀ o h, Calm s (s.withOut o { s.out o with held := h }) := fun o h =>
      .withOut fun _ h0 hr => ⟨h0, hr⟩
    split
    · exact (h _ _).trans (calm_raise _ _ _)
    · exact h _ _
    · exact h _ _

theorem calm_causeCopy (i : Fin 12) (h : Held CauseSettings) : Calm s (s.causeCopy i h) := by
  unfold State.causeCopy
  dsimp only
  have k : Calm s { s with alert.held := s.alert.held.set i h } :=
    .of_eq rfl rfl rfl rfl rfl rfl rfl rfl
  split
  · exact k.trans (calm_raise _ _ _)
  · exact k
  · exact k

end Effects

end Sys2Proof.Machine
end

