-- ==== Sys2Proof/Laws/Memory.lean ====
section
/-! SUPPORT. Table memory: a write keeps the canonical form, a read after a write, and the blank content in
canonical form. -/
namespace Sys2Proof.Machine

/-- Every listed index lies above `i`. -/
def Memory.above (i : Nat) (m : Memory) : Prop := ∀ e ∈ m, i < e.1

theorem Memory.wf_cons (i : Nat) (k : Codeword) (m : Memory) :
    Memory.wf ((i, k) :: m) = true ↔
      k ≠ Memory.unlisted ∧ Memory.above i m ∧ Memory.wf m = true := by
  simp [Memory.wf, Memory.above, and_assoc]

@[simp] theorem Memory.wf_nil : Memory.wf [] = true := rfl

theorem Memory.write_above {m : Memory} {i j : Nat} (x : Codeword) (h : Memory.above j m)
    (hij : j < i) : Memory.above j (Memory.write m i x) := by
  induction m with
  | nil =>
    simp only [Memory.write]
    split <;> simp [Memory.above, hij]
  | cons e m ih =>
    obtain ⟨a, k⟩ := e
    have ha : j < a := h (a, k) (by simp)
    have hm : Memory.above j m := fun e he => h e (List.mem_cons_of_mem _ he)
    have ih' := ih hm
    have cons : ∀ {b : Nat} {y : Codeword} {n : Memory}, j < b → Memory.above j n →
        Memory.above j ((b, y) :: n) := fun hb hn e he =>
      (List.mem_cons.1 he).elim (fun q => q ▸ hb) (hn e)
    simp only [Memory.write]
    repeat' split
    exacts [h, cons hij h, hm, cons hij hm, cons ha ih']

/-- A write keeps the canonical form. -/
theorem Memory.write_wf {m : Memory} (i : Nat) (x : Codeword) (h : Memory.wf m = true) :
    Memory.wf (Memory.write m i x) = true := by
  induction m with
  | nil =>
    simp only [Memory.write]
    split
    · rfl
    · rename_i hx
      simp [Memory.wf, hx]
  | cons e m ih =>
    obtain ⟨a, k⟩ := e
    obtain ⟨hk, ha, hm⟩ := (Memory.wf_cons a k m).1 h
    simp only [Memory.write]
    split
    · rename_i hia
      split
      · exact h
      · rename_i hx
        refine (Memory.wf_cons ..).2 ⟨hx, ?_, h⟩
        intro e he
        rcases List.mem_cons.1 he with rfl | he
        · exact hia
        · exact Nat.lt_trans hia (ha e he)
    · split
      · rename_i hia
        split
        · exact hm
        · rename_i hx
          exact (Memory.wf_cons ..).2 ⟨hx, hia ▸ ha, hm⟩
      · exact (Memory.wf_cons ..).2 ⟨hk, Memory.write_above x ha (by omega), ih hm⟩

theorem Memory.read_above {m : Memory} {i : Nat} (h : Memory.above i m) :
    Memory.read m i = Memory.unlisted := by
  induction m with
  | nil => rfl
  | cons e m ih =>
    obtain ⟨a, k⟩ := e
    have ha : i < a := h (a, k) (by simp)
    simp only [Memory.read]
    rw [if_neg (by omega)]
    exact ih fun e he => h e (List.mem_cons_of_mem _ he)

/-- A read after a write to the same index gives the value written. -/
theorem Memory.read_write_same {m : Memory} (i : Nat) (x : Codeword) (h : Memory.wf m = true) :
    Memory.read (Memory.write m i x) i = x := by
  induction m with
  | nil => simp only [Memory.write]; split <;> simp_all [Memory.read]
  | cons e m ih =>
    obtain ⟨a, k⟩ := e
    obtain ⟨-, ha, hm⟩ := (Memory.wf_cons a k m).1 h
    simp only [Memory.write]
    split
    · rename_i hia
      split
      · rename_i hx
        rw [hx]
        refine Memory.read_above fun e he => ?_
        rcases List.mem_cons.1 he with rfl | he
        · exact hia
        · exact Nat.lt_trans hia (ha e he)
      · simp [Memory.read]
    · split
      · rename_i hia
        split
        · rename_i hx
          rw [hx, hia]
          exact Memory.read_above ha
        · simp [Memory.read]
      · rename_i hia
        simp only [Memory.read, if_neg hia]
        exact ih hm

/-- A write leaves every other index alone. -/
theorem Memory.read_write_other {m : Memory} {i j : Nat} (x : Codeword) (hij : j ≠ i) :
    Memory.read (Memory.write m i x) j = Memory.read m j := by
  induction m with
  | nil => simp only [Memory.write]; split <;> simp_all [Memory.read]
  | cons e m ih =>
    obtain ⟨a, k⟩ := e
    simp only [Memory.write]
    split
    · split <;> simp_all [Memory.read]
    · split
      · rename_i hia
        split <;> simp_all [Memory.read]
      · simp only [Memory.read, ih]

/-- A list of entries made from rising indices is in canonical form. -/
theorem Memory.wf_filterMap (f : Nat → Codeword) (l : List Nat) (h : l.Pairwise (· < ·)) :
    Memory.wf (l.filterMap fun i => if f i = Memory.unlisted then none else some (i, f i)) = true := by
  induction l with
  | nil => rfl
  | cons a l ih =>
    obtain ⟨ha, hl⟩ := List.pairwise_cons.1 h
    simp only [List.filterMap_cons]
    split
    · exact ih hl
    · rename_i e he
      split at he
      · simp at he
      · rename_i hx
        simp only [Option.some.injEq] at he
        subst he
        refine (Memory.wf_cons ..).2 ⟨hx, ?_, ih hl⟩
        intro e he
        simp only [List.mem_filterMap] at he
        obtain ⟨j, hj, he⟩ := he
        split at he
        · simp at he
        · simp only [Option.some.injEq] at he
          subst he
          exact ha j hj

/-- The blank content is in canonical form. -/
theorem blankMemory_wf : Memory.wf blankMemory = true :=
  Memory.wf_filterMap (fun i => encodeWord (blankWord i)) _ List.pairwise_lt_range

/-- The memory after reset is in canonical form. -/
theorem reset_words_wf : Memory.wf State.reset.mem.words = true := rfl

end Sys2Proof.Machine
end

