-- ==== Sys2Proof/Laws/Tame.lean ====
section
/-! SUPPORT. `Tame s t`: an operation that keeps the queue of commands, the guard readings, the canonical
form of table memory, the capacities of the queues, motion under closed guards and a node's rest. Every calm
operation is tame, and so are those of the mode unit, the management unit, the load and the ring port. -/
namespace Sys2Proof.Machine

/-- An operation that takes `s` to `t` is tame. -/
structure Tame (s t : State) : Prop where
  pending    : t.pending = s.pending
  guards     : t.motion.guards = s.motion.guards
  words      : s.Canonical → t.Canonical
  relay      : s.ring.relay.length ≤ Config.relayCapacity →
    t.ring.relay.length ≤ Config.relayCapacity
  insertion  : s.ring.insertion.length ≤ Config.insertionCapacity →
    t.ring.insertion.length ≤ Config.insertionCapacity
  triggers   : s.cue.queue.length ≤ Config.triggerCapacity →
    t.cue.queue.length ≤ Config.triggerCapacity
  relayCount : s.ring.relayCount ≤ Config.relayCountMax → t.ring.relayCount ≤ Config.relayCountMax
  motion     : ∀ c : Fin 4, (t.chan c).state.inMotion = true →
    ((s.chan c).state.inMotion = true ∧ (t.chan c).held = (s.chan c).held)
      ∨ s.guardsClosed (t.chan c).guardMap = true
  rest       : s.RestOk → t.RestOk

theorem Calm.tame {s t : State} (h : Calm s t) : Tame s t :=
  ⟨h.pending, h.guards, fun k => by unfold State.Canonical; rw [h.words]; exact k, h.relay, h.insertion,
    h.triggers, h.relayCount, h.motion, h.rest⟩

namespace Tame
variable {s t u : State}

theorem refl (s : State) : Tame s s := (Calm.refl s).tame

theorem trans (h : Tame s t) (k : Tame t u) : Tame s u where
  pending := k.pending.trans h.pending
  guards := k.guards.trans h.guards
  words := k.words ∘ h.words
  relay := k.relay ∘ h.relay
  insertion := k.insertion ∘ h.insertion
  triggers := k.triggers ∘ h.triggers
  relayCount := k.relayCount ∘ h.relayCount
  motion c hu := by
    rcases k.motion c hu with ⟨ht, e⟩ | hg
    · rcases h.motion c ht with ⟨hs, e'⟩ | hg
      · exact .inl ⟨hs, e.trans e'⟩
      · exact .inr (guardMap_congr e ▸ hg)
    · exact .inr (guardsClosed_congr h.guards _ ▸ hg)
  rest := k.rest ∘ h.rest

/-- An operation that leaves the queues, the channels, the outputs, the mode and node state, the guards, the
words and the commands that wait alone is tame. -/
theorem of_eq (hp : t.pending = s.pending) (hw : t.mem.words = s.mem.words)
    (hr : t.ring.relay = s.ring.relay) (hn : t.ring.insertion = s.ring.insertion)
    (hc : t.ring.relayCount = s.ring.relayCount) (hq : t.cue.queue = s.cue.queue)
    (hm : t.motion = s.motion) (ho : t.effect.outputs = s.effect.outputs)
    (hnode : t.mode.node = s.mode.node) (hmode : t.mode.mode = s.mode.mode) : Tame s t where
  pending := hp
  guards := by rw [hm]
  words h := by unfold State.Canonical; rw [hw]; exact h
  relay := by rw [hr]; exact id
  insertion := by rw [hn]; exact id
  triggers := by rw [hq]; exact id
  relayCount := by rw [hc]; exact id
  motion c h := by
    have e : t.chan c = s.chan c := by simp only [State.chan, hm]
    exact .inl ⟨e ▸ h, by rw [e]⟩
  rest h := by
    refine ⟨fun hd => hmode.trans (h.closed (hnode ▸ hd)), fun hd c => ?_, fun hd o => ?_⟩
    · have e : t.chan c = s.chan c := by simp only [State.chan, hm]
      rw [e]
      exact h.channels (hnode ▸ hd) c
    · have e : t.out o = s.out o := by simp only [State.out, ho]
      rw [e]
      exact h.outputs (hnode ▸ hd) o

theorem ite {p : Prop} [Decidable p] (ht : p → Tame s t) (hu : ¬p → Tame s u) :
    Tame s (if p then t else u) := by
  split
  · exact ht ‹_›
  · exact hu ‹_›

/-- A tame operation keeps the capacities. -/
theorem bounded (h : Tame s t) (b : s.Bounded) : t.Bounded :=
  ⟨h.relay b.relay, h.insertion b.insertion, h.triggers b.triggers, h.relayCount b.relayCount⟩

/-- A tame operation keeps guards respected. -/
theorem guardsRespected (h : Tame s t) (g : s.GuardsRespected) : t.GuardsRespected := by
  intro c he hm
  rcases h.motion c hm with ⟨hs, e⟩ | hg
  · rw [guardsClosed_congr h.guards, guardMap_congr e]
    refine g c ?_ hs
    simpa only [Channel.enabled, e] using he
  · rw [guardsClosed_congr h.guards]
    exact hg

end Tame

/-! ## Mode.lean -/

section Mode
variable (s : State) (c : Fin 4)

theorem newCeiling_chan (ch : Channel) (m : GalleryMode) :
    (ch.newCeiling m).state = ch.state ∧ (ch.newCeiling m).held = ch.held := by
  unfold Channel.newCeiling
  repeat' split
  all_goals exact ⟨rfl, rfl⟩

theorem calm_newCeilings (m : GalleryMode) : Calm s (s.mapChans fun ch => ch.newCeiling m) where
  inner := rfl
  relay := id
  insertion := id
  triggers := id
  relayCount := id
  motion c h := by
    rw [chan_mapChans] at h ⊢
    rw [(newCeiling_chan _ m).1] at h
    exact .inl ⟨h, (newCeiling_chan _ m).2⟩
  rest h := ⟨h.closed, fun hd c => by
    rw [chan_mapChans, (newCeiling_chan _ m).1]
    exact h.channels hd c, h.outputs⟩
  active := id

theorem calm_parkChannel : Calm s (s.parkChannel c) := by
  unfold State.parkChannel
  split
  · refine Calm.trans (calm_enterStopping s c .stopped) ?_
    exact .withChan_same rfl rfl
  · rename_i h _
    split
    · rename_i hg
      exact calm_beginProfile s c _ hg.2 (by rw [h]; simp)
    · exact .refl s
  · exact .refl s

/-- A channel that wakes is at rest. -/
theorem wake_state (ch : Channel) : ch.wake.state.inMotion = false := by
  have h : ∀ p : Prop, [Decidable p] →
      (if p then ChanState.idle else ChanState.unhomed).inMotion = false := by
    intro p _
    split <;> rfl
  exact h _

/-- Replacing a channel by one at rest in an ACTIVE node. -/
theorem calm_wakeChannel (ha : s.mode.node = .active) : Calm s (s.wakeChannel c) := by
  unfold State.wakeChannel
  split
  · have hx := wake_state (s.chan c)
    refine Calm.trans (t := s.withChan c ((s.chan c).wake).takeAside) ?_ (calm_tellChannel _ c)
    have hy : ((s.chan c).wake).takeAside.state.inMotion = false := by
      by_contra hne
      rw [Bool.not_eq_false] at hne
      have e := (takeAside_state (s.chan c).wake).1 hne
      rw [e, hx] at hne
      simp at hne
    refine ⟨rfl, id, id, id, id, fun d hd => ?_, fun h => ⟨h.closed, fun hd => ?_, h.outputs⟩, id⟩
    · rw [chan_withChan] at hd ⊢
      split at hd
      · rw [hy] at hd
        simp at hd
      · rename_i hne
        rw [if_neg hne]
        exact .inl ⟨hd, rfl⟩
    · rw [withChan_mode, ha] at hd
      simp at hd
  · exact .refl s

theorem calm_autoHomeChannel : Calm s (s.autoHomeChannel c) := by
  unfold State.autoHomeChannel
  dsimp only
  exact .ite (fun _ => calm_takeHome s c) (fun _ => .refl s)

theorem calm_tellMotionMode (n : NodeState) : Calm s (s.tellMotionMode n) := by
  unfold State.tellMotionMode
  dsimp only
  split
  · exact (calm_newCeilings s _).trans (Calm.foldl State.parkChannel calm_parkChannel _ _)
  · rename_i ha
    have go : ∀ (l : List (Fin 4)) (a : State), a.mode.node = .active →
        Calm a (l.foldl State.wakeChannel a) := by
      intro l
      induction l with
      | nil => exact fun a _ => .refl a
      | cons c l ih =>
        exact fun a h => (calm_wakeChannel a c h).trans (ih _ ((calm_wakeChannel a c h).active h))
    exact (calm_newCeilings s _).trans (go _ _ ha)
  · exact calm_newCeilings s _

/-- The node state after a mode goes with the mode. -/
theorem nodeAfter_closed (n : NodeState) (m : GalleryMode)
    (h : nodeAfter n m = .closing ∨ nodeAfter n m = .dormant) : m = .closed := by
  cases n <;> cases m <;> simp_all [nodeAfter]

theorem tame_changeMode (m : GalleryMode) : Tame s (s.changeMode m) := by
  unfold State.changeMode
  dsimp only
  refine Tame.trans (t := { s with mode.mode := m, mode.node := nodeAfter s.mode.node m }) ?_
    (Calm.tame ?_)
  · refine ⟨rfl, rfl, id, id, id, id, id, fun _ h => .inl ⟨h, rfl⟩, fun h => ⟨?_, ?_, ?_⟩⟩
    · exact nodeAfter_closed _ _
    · intro hd
      refine h.channels ?_
      change nodeAfter s.mode.node m = .dormant at hd
      cases hn : s.mode.node <;> cases m <;> simp_all [nodeAfter]
    · intro hd
      refine h.outputs ?_
      change nodeAfter s.mode.node m = .dormant at hd
      cases hn : s.mode.node <;> cases m <;> simp_all [nodeAfter]
  · have tail : ∀ a : State, Calm a
        (if s.mode.node = .active ∧ m = .closed then a.restTest else a) := fun a =>
      .ite (fun _ => calm_restTest a) (fun _ => .refl a)
    refine Calm.trans ?_ (tail _)
    refine Calm.trans ?_ (calm_offerTrigger _ _)
    have home : ∀ a : State, Calm a
        (if autoHomeApplies s.mode.mode m = true then four.foldl State.autoHomeChannel a else a) :=
      fun a => .ite (fun _ => Calm.foldl _ calm_autoHomeChannel _ _) (fun _ => .refl a)
    refine Calm.trans ?_ (home _)
    exact (calm_tellMotionMode _ _).trans (calm_allLamps _)

theorem tame_clearLineLost : Tame s s.clearLineLost := by
  unfold State.clearLineLost
  split
  · refine Tame.trans (t := { s with mode.lineLost := false, mode.localPlay := none }) ?_ (Calm.tame ?_)
    · exact .of_eq rfl rfl rfl rfl rfl rfl rfl rfl rfl rfl
    · exact ((calm_allLamps _).trans (calm_conditionEnd _ _ _)).trans (calm_pump _)
  · exact .refl s

theorem tame_takePulse (m : GalleryMode) (t : Nat) : Tame s (s.takePulse m t) := by
  unfold State.takePulse
  dsimp only
  have h : Tame s ({ s with
      ring.lossTimer := some (s.ring.lossUnits * 10), mode.clock := t, mode.ms := 0 }).clearLineLost := by
    refine Tame.trans ?_ (tame_clearLineLost _)
    exact .of_eq rfl rfl rfl rfl rfl rfl rfl rfl rfl rfl
  exact .ite (fun _ => h) (fun _ => h.trans (tame_changeMode _ m))

theorem calm_enterFinalPass : Calm s (s.enterFinalPass c) := by
  unfold State.enterFinalPass
  dsimp only
  split
  · exact .withChan_same rfl rfl
  · rename_i d _
    refine Calm.trans (t := s.withChan c { s.chan c with
      finalPass := true, buffer := (s.chan c).buffer.filter fun b => inFinalPass d (s.chan c).ord b.ord })
      (.withChan_same rfl rfl) ?_
    exact .of_eq rfl rfl rfl rfl rfl rfl rfl rfl

theorem calm_lossChannel : Calm s (s.lossChannel c) := by
  unfold State.lossChannel
  split
  · split
    · refine Calm.trans (t := s.withChan c { s.chan c with slot := none }) (.withChan_same rfl rfl) ?_
      unfold State.lossAct
      split
      · exact .ite (fun _ => calm_enterFinalPass _ c) (fun _ => calm_enterStopping _ c _)
      · exact .ite (fun _ => .refl _) (fun _ => calm_abandonSearch _ c)
      · exact .refl _
    · exact .refl s
  · exact .refl s
  · exact .refl s

theorem calm_askLocalPlay : Calm s s.askLocalPlay := by
  unfold State.askLocalPlay
  refine Calm.trans (Calm.trans ?_ (calm_ask _)) (calm_arbitrate _)
  exact .of_eq rfl rfl rfl rfl rfl rfl rfl rfl

theorem tame_setLineLost : Tame s s.setLineLost := by
  unfold State.setLineLost
  dsimp only
  refine Tame.trans (t := { s with
    ring.lossTimer := none, mode.lineLost := true, mode.localPlay := none }) ?_ (Calm.tame ?_)
  · exact .of_eq rfl rfl rfl rfl rfl rfl rfl rfl rfl rfl
  · refine Calm.trans (Calm.trans (Calm.trans (Calm.trans ?_ (calm_arbitrate _)) (calm_safeLevels _))
      (calm_allLamps _)) (calm_raise _ _ _)
    exact (calm_askLocalPlay _).trans (Calm.foldl _ calm_lossChannel _ _)

theorem tame_takeLocalPlay (d : Delivered) : Tame s (s.takeLocalPlay d) := by
  unfold State.takeLocalPlay
  split
  · refine Tame.trans ?_ (calm_allLamps _).tame
    exact .of_eq rfl rfl rfl rfl rfl rfl rfl rfl rfl rfl
  · exact .refl s

end Mode

/-! ## Arbiter: delivering to a tame reader, and writing -/

section Arbiter
variable (s : State)

theorem tame_deliver (op : AccessOp) (w : Requester) (f : Delivered → State → State)
    (hf : ∀ d a, Tame a (f d a)) : Tame s (s.deliver op w f) := by
  unfold State.deliver
  split
  · split
    · dsimp only
      refine Tame.trans ?_ (calm_endAccess _).tame
      exact .ite (fun _ => (calm_readFor _ _ _).tame)
        (fun _ => (calm_readFor _ _ _).tame.trans (hf _ _))
    · exact .refl s
  · exact .refl s

theorem tame_settingsWord (d : Delivered) (f : Ask → State → State) (hf : ∀ e a, Tame a (f e a)) :
    Tame s (s.settingsWord d f) := by
  unfold State.settingsWord
  dsimp only
  split
  · exact ((calm_pathWord s d).trans (calm_pathNext _)).tame.trans (hf _ _)
  · exact (calm_pathWord s d).tame

/-- Writing a word keeps the canonical form. -/
theorem tame_writeWord (i : Nat) (w : Word) : Tame s (s.writeWord i w) :=
  ⟨rfl, rfl, fun h => Memory.write_wf _ _ h, id, id, id, id, fun _ h => .inl ⟨h, rfl⟩,
    fun h => ⟨h.1, h.2, h.3⟩⟩

theorem tame_scrubWord (i : Nat) : Tame s (s.scrubWord i) := by
  unfold State.scrubWord
  dsimp only
  split
  · exact .refl s
  · exact tame_writeWord s i _
  · exact (calm_raise s _ _).tame

end Arbiter

/-! ## Management.lean -/

section Management
variable (s : State)

theorem calm_answer (t n : Nat) (r : ResultCode) (ws : List Word) : Calm s (s.answer t n r ws) := by
  unfold State.answer
  refine Calm.trans ?_ (calm_offerWaiting _ _)
  exact .of_eq rfl rfl rfl rfl rfl rfl rfl rfl

theorem tame_issueFlash (op : FlashOp) : Tame s (s.issueFlash op) := by
  unfold State.issueFlash
  split <;> exact .of_eq rfl rfl rfl rfl rfl rfl rfl rfl rfl rfl

theorem tame_flashReady : Tame s s.flashReady.1 := by
  unfold State.flashReady
  split <;> exact .of_eq rfl rfl rfl rfl rfl rfl rfl rfl rfl rfl

theorem tame_beginSave : Tame s s.beginSave := by
  unfold State.beginSave
  refine Tame.trans ?_ (tame_issueFlash _ _)
  exact .of_eq rfl rfl rfl rfl rfl rfl rfl rfl rfl rfl

theorem calm_clearCommand (n : Nat) : Calm s (s.clearCommand n) := by
  unfold State.clearCommand
  split <;> first | exact .refl s | exact .of_eq rfl rfl rfl rfl rfl rfl rfl rfl

theorem tame_runPut (p : List Byte) : Tame s (s.runPut p) := by
  unfold State.runPut
  dsimp only
  split
  · exact .ite (fun _ => tame_beginSave s)
      (fun _ => ((calm_clearCommand s _).trans (calm_answer _ _ _ _ _)).tame)
  · split
    · refine Calm.tame (Calm.trans ?_ (calm_arbitrate _))
      exact .of_eq rfl rfl rfl rfl rfl rfl rfl rfl
    · exact (calm_answer s _ _ _ _).tame

theorem tame_takePut (p : List Byte) : Tame s (s.takePut p) := by
  unfold State.takePut
  split
  · exact .of_eq rfl rfl rfl rfl rfl rfl rfl rfl rfl rfl
  · split
    · exact (calm_answer s _ _ _ _).tame
    · exact tame_runPut s p

theorem calm_takePeek (p : List Byte) : Calm s (s.takePeek p) := by
  unfold State.takePeek
  dsimp only
  split
  · exact .of_eq rfl rfl rfl rfl rfl rfl rfl rfl
  · split
    · exact calm_answer s _ _ _ _
    · split
      · refine Calm.trans ?_ (calm_arbitrate _)
        exact .of_eq rfl rfl rfl rfl rfl rfl rfl rfl
      · exact calm_answer s _ _ _ _

theorem tame_writeNotice (i : Nat) (w : Word) : Tame s (s.writeNotice i w) := by
  unfold State.writeNotice
  repeat' split
  all_goals first
    | exact .refl s
    | exact (calm_notice s _).tame
    | exact (calm_entryWritten s _).tame
    | exact .of_eq rfl rfl rfl rfl rfl rfl rfl rfl rfl rfl

theorem calm_putProgress : Calm s s.putProgress := by
  unfold State.putProgress
  split
  · split
    · exact .of_eq rfl rfl rfl rfl rfl rfl rfl rfl
    · exact calm_answer s _ _ _ _
  · exact .refl s
  · exact .refl s
  · exact .refl s

theorem calm_peekWord (d : Delivered) : Calm s (s.peekWord d) := by
  unfold State.peekWord
  split
  · rename_i t _ _ _ _
    dsimp only
    have h : ∀ t, Calm s (if d.bad = true then s.raise .tableDamage t else s) := fun t =>
      .ite (fun _ => calm_raise s _ _) (fun _ => .refl s)
    split
    · refine Calm.trans (h t) ?_
      exact .of_eq rfl rfl rfl rfl rfl rfl rfl rfl
    · exact Calm.trans (h t) (calm_answer _ _ _ _ _)
  · exact .refl s
  · exact .refl s
  · exact .refl s

theorem tame_saveFail (d : Option Nat) : Tame s (s.saveFail d) := by
  have h1 : Tame s (match s.mgmt.save with
      | some p => match p.step with
        | .header => s.issueFlash (.erase 0)
        | .erase _ => { s with mgmt.flashNext := none }
        | .program _ => { s with mgmt.flashNext := none }
        | .verify _ => { s with mgmt.flashNext := none }
      | none => s) := by
    repeat' split
    all_goals first
      | exact tame_issueFlash s _
      | exact .refl s
      | exact .of_eq rfl rfl rfl rfl rfl rfl rfl rfl rfl rfl
  have h2 : ∀ a : State, Tame a ({ a with mgmt.save := none, mgmt.image := .loadFailed }.raise
      .saveFailed 0) := fun a => by
    refine Tame.trans ?_ (calm_raise _ _ _).tame
    exact .of_eq rfl rfl rfl rfl rfl rfl rfl rfl rfl rfl
  unfold State.saveFail
  dsimp only
  split
  · exact (h1.trans (h2 _)).trans (calm_raise _ _ _).tame
  · exact h1.trans (h2 _)

theorem tame_saveSucceed : Tame s s.saveSucceed := by
  unfold State.saveSucceed
  dsimp only
  refine Tame.trans ?_ (((calm_conditionEnd _ .imageFailed 0).trans
    (calm_conditionEnd _ .saveFailed 0)).trans (calm_offerWaiting _ _)).tame
  exact .of_eq rfl rfl rfl rfl rfl rfl rfl rfl rfl rfl

theorem tame_saveStep (p : SaveProgress) (x : SaveStep) : Tame s (s.saveStep p x) :=
  .of_eq rfl rfl rfl rfl rfl rfl rfl rfl rfl rfl

theorem tame_afterErase (p : SaveProgress) (k : Nat) : Tame s (s.afterErase p k) :=
  .ite (fun _ => (tame_saveStep s p _).trans (tame_issueFlash _ _))
    (fun _ => (tame_saveStep s p _).trans (calm_arbitrate _).tame)

theorem tame_afterProgram (p : SaveProgress) (u : Nat) : Tame s (s.afterProgram p u) := by
  unfold State.afterProgram
  refine Tame.trans ?_ (calm_arbitrate _).tame
  exact .ite (fun _ => tame_saveStep s p _) (fun _ => tame_saveStep s p _)

theorem tame_saveWord (d : Delivered) : Tame s (s.saveWord d) := by
  unfold State.saveWord
  dsimp only
  split
  · split
    · split
      · exact tame_saveFail s _
      · split
        · exact .of_eq rfl rfl rfl rfl rfl rfl rfl rfl rfl rfl
        · refine Tame.trans ?_ (tame_issueFlash _ _)
          exact .of_eq rfl rfl rfl rfl rfl rfl rfl rfl rfl rfl
    all_goals exact .refl s
  · exact .refl s

theorem tame_verifyWord (w : Word) (d : Delivered) : Tame s (s.verifyWord w d) := by
  unfold State.verifyWord
  repeat' split
  all_goals first
    | exact .refl s
    | exact tame_saveFail s _
    | exact tame_saveStep s _ _
    | exact (tame_saveStep s _ _).trans (tame_issueFlash _ _)

end Management

/-! ## Reset.lean -/

section Reset
variable (s : State)

theorem calm_sendReady : Calm s s.sendReady := calm_offerWaiting s _

theorem tame_releaseBypass : Tame s s.releaseBypass := by
  unfold State.releaseBypass
  refine Tame.trans (t := { s with
    ring.bypass := false, ring.assembler := ⟨.joining, []⟩, mode.node := .active }) ?_
    ((calm_pump _).trans (calm_sendReady _)).tame
  exact ⟨rfl, rfl, id, id, id, id, id, fun _ h => .inl ⟨h, rfl⟩,
    fun h => ⟨fun k => absurd k (by simp), fun k => absurd k (by simp), fun k => absurd k (by simp)⟩⟩

theorem tame_endLoad : Tame s s.endLoad := by
  unfold State.endLoad
  dsimp only
  have h : Tame s (({ s with
      mgmt.load := .none, sampling := true
      ring.hopLimit := field (s.nodeWord 0) 0 7, ring.lossUnits := field (s.nodeWord 0) 16 9
      mem.scrubInterval := field (s.nodeWord 1) 0 8
      mem.scrubTimer := some (field (s.nodeWord 1) 0 8)
      mem.owed := s.mem.owed ++ loadJobs }).ask).arbitrate := by
    refine Tame.trans ?_ ((calm_ask _).trans (calm_arbitrate _)).tame
    exact .of_eq rfl rfl rfl rfl rfl rfl rfl rfl rfl rfl
  exact .ite (fun _ => h.trans (tame_releaseBypass _)) (fun _ => h)

/-- Filling table memory with words in canonical form. -/
theorem tame_fill (m : Memory) (i : ImageState) (h : Memory.wf m = true) :
    Tame s { s with mem.words := m, mgmt.image := i } :=
  ⟨rfl, rfl, fun _ => h, id, id, id, id, fun _ h => .inl ⟨h, rfl⟩, fun h => ⟨h.1, h.2, h.3⟩⟩

theorem tame_failLoad : Tame s s.failLoad :=
  (tame_fill s _ _ blankMemory_wf).trans ((calm_raise _ _ _).tame.trans (tame_endLoad _))

/-- A channel after a RESTART is at rest. -/
theorem restart_chan (ch : Channel) : ch.restart.state.inMotion = false := by
  unfold Channel.restart
  by_contra h
  rw [Bool.not_eq_false] at h
  have e := (takeAside_state { Channel.reset with
    held := ch.held, aside := ch.aside, completed := ch.completed, refused := ch.refused
    homePin := ch.homePin, farPin := ch.farPin, faultPin := ch.faultPin, dirPin := ch.dirPin }).1 h
  rw [e] at h
  exact absurd h Bool.false_ne_true

theorem restartBlocks_chan (c : Fin 4) : (s.restartBlocks.chan c) = (s.chan c).restart := by
  simp [State.restartBlocks, State.chan, State.allLamps]

/-- After a RESTART the capacities hold whatever held before. -/
theorem restartBlocks_bounded : s.restartBlocks.Bounded :=
  ⟨Nat.zero_le _, Nat.zero_le _, Nat.zero_le _, Nat.zero_le _⟩

theorem restartBlocks_canonical (h : s.Canonical) : s.restartBlocks.Canonical := h

theorem restartBlocks_guards : s.restartBlocks.GuardsRespected := fun c _ h => by
  rw [restartBlocks_chan, restart_chan] at h
  simp at h

theorem restartBlocks_restOk : s.restartBlocks.RestOk :=
  ⟨fun h => absurd h (by simp [State.restartBlocks, State.allLamps]),
    fun h => absurd h (by simp [State.restartBlocks, State.allLamps]),
    fun h => absurd h (by simp [State.restartBlocks, State.allLamps])⟩

/-- What follows the reset of the blocks in a RESTART is calm. -/
theorem calm_restart : Calm s.restartBlocks s.restart := by
  unfold State.restart
  dsimp only
  refine Calm.trans ?_ (calm_sendReady _)
  exact .ite (fun _ => calm_raise _ _ _) (fun _ => .refl _)

end Reset

/-! ## Frames.lean -/

section Frames
variable (s : State)

theorem tame_actPulse (p : List Byte) : Tame s (s.actPulse p) := by
  unfold State.actPulse
  split
  · exact .ite (fun _ => tame_takePulse s _ _) (fun _ => .refl s)
  · exact .refl s

theorem calm_actTap (n : Byte) (p : List Byte) : Calm s (s.actTap n p) := by
  unfold State.actTap
  split
  · exact .ite (fun _ => calm_offerTrigger s _) (fun _ => .refl s)
  · exact .refl s

theorem calm_actDone (n : Byte) (p : List Byte) : Calm s (s.actDone n p) := by
  unfold State.actDone
  split
  · exact .ite (fun _ => calm_offerTrigger s _) (fun _ => .refl s)
  · exact .refl s

theorem calm_actHush (n : Nat) : Calm s (s.actHush n) := by
  unfold State.actHush
  split
  · exact (calm_acknowledge s _).trans (calm_clearOverflow _)
  · exact .ite (fun _ => calm_acknowledge s _) (fun _ => .refl s)

/-- Acting on any frame but a RESTART is tame. -/
theorem tame_act (f : Frame) (h : f.kind ≠ 0x06) : Tame s (s.act f) := by
  unfold State.act
  repeat' split
  all_goals first
    | exact tame_actPulse s _
    | exact (calm_offerTrigger s _).tame
    | exact (calm_actHush s _).tame
    | exact tame_takePut s _
    | exact (calm_takePeek s _).tame
    | exact absurd ‹_› h
    | exact (calm_actTap s _ _).tame
    | exact (calm_actDone s _ _).tame
    | exact .refl s

end Frames

end Sys2Proof.Machine
end

