-- ==== Sys2Proof/Laws/Exec.lean ====
section
/-! SUPPORT. What a command can do, said once for each: it answers a next state, and its operation is tame.
The commands that change guard readings or reset the node have no such lemma. -/
namespace Sys2Proof.Machine

/-- A command that answers a next state to which its operation is tame. -/
def TameNext (s : State) (o : Host.Outcome State Fault Refusal) : Prop :=
  ∃ t, o = .next t ∧ Tame s t

theorem TameNext.intro {s t : State} (h : Tame s t) : TameNext s (.next t) := ⟨t, rfl, h⟩

theorem TameNext.calm {s t : State} (h : Calm s t) : TameNext s (.next t) := .intro h.tame

section Exec
variable (s : State)

theorem exec_loadHeaderRead (h : List Byte) : TameNext s (execLoadHeaderRead h s) := by
  unfold execLoadHeaderRead
  refine .intro ?_
  split
  · split
    · exact .of_eq rfl rfl rfl rfl rfl rfl rfl rfl rfl rfl
    · exact tame_failLoad s
  · exact .refl s
  · exact .refl s

theorem exec_loadWordRead (d : Word) : TameNext s (execLoadWordRead d s) := by
  unfold execLoadWordRead
  refine .intro ?_
  split
  · rename_i i _ _ _
    dsimp only
    split
    · refine (tame_writeWord s i (imageWord i d)).trans ?_
      exact .of_eq rfl rfl rfl rfl rfl rfl rfl rfl rfl rfl
    · split
      · refine (tame_writeWord s i (imageWord i d)).trans ?_
        refine Tame.trans ?_ (tame_endLoad _)
        exact .of_eq rfl rfl rfl rfl rfl rfl rfl rfl rfl rfl
      · exact (tame_writeWord s i (imageWord i d)).trans (tame_failLoad _)
  · exact .refl s
  · exact .refl s

theorem tame_passOn (f : Frame) : Tame s (s.passOn f) := by
  unfold State.passOn
  refine .ite (fun _ => .refl s) (fun _ => .ite (fun _ => ?_) fun _ => (calm_offerRelay s _).tame)
  exact .of_eq rfl rfl rfl rfl rfl rfl rfl rfl rfl rfl

theorem tame_goodFrame (f : Frame) (h : f.kind ≠ 0x06) : Tame s (s.goodFrame f) := by
  have ha : Tame s (s.actIfAdmitted f) := .ite (fun _ => tame_act s f h) (fun _ => .refl s)
  exact .ite (fun _ => .refl s) (fun _ => ha.trans (tame_passOn _ f))

theorem tame_trailing : Tame s s.trailing :=
  .of_eq rfl rfl rfl rfl rfl rfl rfl rfl rfl rfl

theorem tame_countBadFrame : Tame s s.countBadFrame :=
  .of_eq rfl rfl rfl rfl rfl rfl rfl rfl rfl rfl

theorem tame_receive (f : Frame) (h : f.kind ≠ 0x06) : Tame s (s.receive f) := by
  unfold State.receive
  exact .ite (fun _ => .refl s) fun _ => .ite
    (fun _ => (tame_trailing s).trans (tame_goodFrame _ f h))
    (fun _ => (tame_trailing s).trans (tame_countBadFrame _))

theorem exec_goodFrame (k : Byte) (e : Envelope) (p : List Byte) (h : k ≠ 0x06) :
    TameNext s (execGoodFrame k e p s) := .intro (tame_receive s _ h)

theorem exec_pulse (e : Envelope) (p : List Byte) : TameNext s (execPulse e p s) :=
  .intro (tame_receive s _ (by simp [frameOf]))

theorem exec_cue (e : Envelope) (p : List Byte) : TameNext s (execCue e p s) :=
  .intro (tame_receive s _ (by simp [frameOf]))

theorem exec_hush (e : Envelope) (p : List Byte) : TameNext s (execHush e p s) :=
  .intro (tame_receive s _ (by simp [frameOf]))

theorem exec_put (e : Envelope) (p : List Byte) : TameNext s (execPut e p s) :=
  .intro (tame_receive s _ (by simp [frameOf]))

theorem exec_peek (e : Envelope) (p : List Byte) : TameNext s (execPeek e p s) :=
  .intro (tame_receive s _ (by simp [frameOf]))

theorem exec_tap (e : Envelope) (p : List Byte) : TameNext s (execTap e p s) :=
  .intro (tame_receive s _ (by simp [frameOf]))

theorem exec_done (e : Envelope) (p : List Byte) : TameNext s (execDone e p s) :=
  .intro (tame_receive s _ (by simp [frameOf]))

theorem exec_save (e : Envelope) (w : Word) : TameNext s (execSave e w s) :=
  .intro (tame_receive s _ (by simp [frameOf]))

theorem exec_clearLineRecord (e : Envelope) (w : Word) : TameNext s (execClearLineRecord e w s) :=
  .intro (tame_receive s _ (by simp [frameOf]))

theorem exec_clearFirstFault (e : Envelope) (w : Word) : TameNext s (execClearFirstFault e w s) :=
  .intro (tame_receive s _ (by simp [frameOf]))

theorem exec_clearMemoryLog (e : Envelope) (w : Word) : TameNext s (execClearMemoryLog e w s) :=
  .intro (tame_receive s _ (by simp [frameOf]))

theorem exec_badFrame (c : BadFrameCause) : TameNext s (execBadFrame c s) :=
  .intro (.ite (fun _ => .refl s) (fun _ =>
    .of_eq rfl rfl rfl rfl rfl rfl rfl rfl rfl rfl))

theorem exec_putWordWrite : TameNext s (execPutWordWrite s) := by
  unfold execPutWordWrite
  refine .intro ?_
  split
  · rename_i a _
    split
    · rename_i w _
      dsimp only
      refine Tame.trans ?_ (calm_endAccess _).tame
      have h := (tame_writeWord s a.index w).trans (tame_writeNotice _ a.index w)
      exact .ite (fun _ => h) (fun _ => h.trans (calm_putProgress _).tame)
    · exact .refl s
  · exact .refl s

theorem exec_peekWordRead : TameNext s (execPeekWordRead s) :=
  .calm (calm_deliver s _ _ _ fun d a => calm_peekWord a d)

theorem exec_saveEraseDone (failed : Bool) : TameNext s (execSaveEraseDone failed s) := by
  unfold execSaveEraseDone
  refine .intro ?_
  have h := tame_flashReady s
  dsimp only
  repeat' split
  all_goals first
    | exact .refl s
    | exact h
    | exact h.trans (tame_saveFail _ _)
    | exact h.trans (tame_afterErase _ _ _)

theorem exec_saveWordRead : TameNext s (execSaveWordRead s) :=
  .intro (tame_deliver s _ _ _ fun d a => tame_saveWord a d)

theorem exec_saveProgramDone (failed : Bool) : TameNext s (execSaveProgramDone failed s) := by
  unfold execSaveProgramDone
  refine .intro ?_
  have h := tame_flashReady s
  dsimp only
  repeat' split
  all_goals first
    | exact .refl s
    | exact h
    | exact h.trans (tame_saveFail _ _)
    | exact h.trans (tame_afterProgram _ _ _)

theorem exec_saveVerifyRead (w : Word) : TameNext s (execSaveVerifyRead w s) :=
  .intro (tame_deliver s _ _ _ fun d a => tame_verifyWord a w d)

theorem exec_saveHeaderDone (b : List Byte) : TameNext s (execSaveHeaderDone b s) := by
  unfold execSaveHeaderDone
  refine .intro ?_
  have h : Tame s { s with mgmt.flashBusy := none } :=
    .of_eq rfl rfl rfl rfl rfl rfl rfl rfl rfl rfl
  dsimp only
  split
  · split
    · exact .ite (fun _ => h.trans (tame_saveSucceed _)) (fun _ => h.trans (tame_saveFail _ _))
    all_goals exact .refl s
  · exact .refl s

theorem exec_flashTimeout : TameNext s (execFlashTimeout s) := by
  unfold execFlashTimeout
  refine .intro ?_
  split
  · split
    · exact tame_saveFail s _
    · exact .of_eq rfl rfl rfl rfl rfl rfl rfl rfl rfl rfl
  · exact .refl s

theorem exec_transmitterFree : TameNext s (execTransmitterFree s) :=
  .calm (.ite (fun _ => Calm.trans (t := { s with ring.sending := none })
    (.of_eq rfl rfl rfl rfl rfl rfl rfl rfl) (calm_choose _)) (fun _ => .refl s))

theorem exec_waitingFrameJoin : TameNext s (execWaitingFrameJoin s) := by
  unfold execWaitingFrameJoin
  refine .calm ?_
  split
  · rename_i w rest _
    exact .ite (fun h => Calm.trans (t := { s with mgmt.waiting := rest })
      (.of_eq rfl rfl rfl rfl rfl rfl rfl rfl) (calm_joinWaiting _ w h.2)) (fun _ => .refl s)
  · exact .refl s

theorem exec_lineLossExpiry : TameNext s (execLineLossExpiry s) :=
  .intro (.ite (fun _ => tame_setLineLost s) (fun _ => .refl s))

theorem exec_clockSecond : TameNext s (execClockSecond s) :=
  .intro (.ite (fun _ => .of_eq rfl rfl rfl rfl rfl rfl rfl rfl rfl rfl) (fun _ => .refl s))

theorem exec_cueRead : TameNext s (execCueRead s) :=
  .calm (calm_deliver s _ _ _ fun d a => calm_cueWord a d)

theorem exec_start (c : Fin 4) (p : Fin 32) : TameNext s (execStart c p s) :=
  .calm (calm_takeAction s _ (calm_takeStart s c p))

theorem exec_stop (m : BitVec 4) : TameNext s (execStop m s) :=
  .calm (calm_takeAction s _ (calm_forMask s m _ calm_takeStop))

theorem exec_home (m : BitVec 4) : TameNext s (execHome m s) :=
  .calm (calm_takeAction s _ (calm_forMask s m _ calm_takeHome))

theorem exec_effect (o : Fin 8) (t : Int) (f : BitVec 16) : TameNext s (execEffect o t f s) :=
  .calm (calm_takeAction s _ (.ite (fun h => calm_beginEffect s o t _ (by
    simpa [State.effectAllowed] using h)) (fun _ => .refl s)))

theorem exec_call (k : Fin 16) (l : Level) : TameNext s (execCall k l s) :=
  .calm (calm_takeAction s _ (calm_raiseWith s _ _ _ _))

theorem exec_lock (m : BitVec 16) : TameNext s (execLock m s) :=
  .calm (calm_takeAction s _ (calm_setLocks s m true))

theorem exec_unlock (m : BitVec 16) : TameNext s (execUnlock m s) :=
  .calm (calm_takeAction s _ (calm_setLocks s m false))

theorem exec_buttonSettingsRead : TameNext s (execButtonSettingsRead s) :=
  .calm (calm_deliver s _ _ _ fun d a => calm_settingsWord a d _ fun _ z => calm_buttonCopy z _ _)

theorem exec_channelSettingsRead : TameNext s (execChannelSettingsRead s) :=
  .calm (calm_deliver s _ _ _ fun d a => (calm_channelWordRaise a d).trans
    (calm_settingsWord _ d _ fun _ z => calm_channelCopy z _ _))

theorem exec_effectSettingsRead : TameNext s (execEffectSettingsRead s) :=
  .calm (calm_deliver s _ _ _ fun d a => calm_settingsWord a d _ fun e z => calm_effectCopy z e)

theorem exec_alertSettingsRead : TameNext s (execAlertSettingsRead s) :=
  .calm (calm_deliver s _ _ _ fun d a => calm_settingsWord a d _ fun _ z => calm_causeCopy z _ _)

theorem exec_localPlayRead : TameNext s (execLocalPlayRead s) :=
  .intro (tame_deliver s _ _ _ fun d a => tame_settingsWord a d _ fun _ z => tame_takeLocalPlay z _)

theorem exec_prefetchRead : TameNext s (execPrefetchRead s) :=
  .calm (calm_deliver s _ _ _ fun d a => calm_prefetchWord a d)

theorem exec_scrubTimerExpiry : TameNext s (execScrubTimerExpiry s) :=
  .calm (.ite (fun _ => Calm.trans (t := { s with
      mem.scrubTimer := some s.mem.scrubInterval, mem.scrubWaiting := true })
    (.of_eq rfl rfl rfl rfl rfl rfl rfl rfl) (calm_arbitrate _)) (fun _ => .refl s))

theorem exec_scrubAccess : TameNext s (execScrubAccess s) := by
  unfold execScrubAccess
  refine .intro ?_
  split
  · rename_i a _
    split
    · dsimp only
      refine Tame.trans ?_ (calm_endAccess _).tame
      have h := (calm_readFor s a.index .scrubber).tame.trans (tame_scrubWord _ a.index)
      exact .ite (fun _ => h) (fun _ => h.trans (calm_scrubAdvance _).tame)
    · exact .refl s
  · exact .refl s

/-- Steps 2 to 5 of a tick. -/
theorem calm_tickStages (c : Fin 4) : Calm s (s.tickStages c) := by
  unfold State.tickStages
  have h : ∀ x : ChanState, x.inMotion = true → (s.chan c).state = x →
      (s.chan c).state.inMotion = true := fun x hx e => by rw [e]; exact hx
  split
  · rename_i e
    exact calm_homingTick s c (h _ rfl e)
  · rename_i e
    exact calm_drivenTick s c (h _ rfl e)
  · rename_i e
    exact calm_drivenTick s c (h _ rfl e)
  all_goals exact .refl s

theorem exec_arrival (c : Fin 4) : TameNext s (execArrival c s) :=
  .calm (.ite (fun h => calm_arrive s c (by rw [h.1]; rfl)) (fun _ => .refl s))

theorem exec_dwellEnd (c : Fin 4) : TameNext s (execDwellEnd c s) :=
  .calm (.ite (fun h => calm_thenSegmentDone s c _ rfl rfl (by rw [h.1]; rfl)) (fun _ => .refl s))

theorem inMotion_withChan_same {c : Fin 4} {x : Channel} (hx : x.state.inMotion = true) :
    ((s.withChan c x).chan c).state.inMotion = true := by
  rw [chan_withChan, if_pos rfl]
  exact hx

theorem exec_stopComplete (c : Fin 4) : TameNext s (execStopComplete c s) :=
  .calm (.ite (fun h => Calm.trans (t := s.withChan c { s.chan c with stepPulses := 0 })
    (.withChan_same rfl rfl) (calm_stopDone _ c (inMotion_withChan_same s (by rw [h.1]; rfl))))
    (fun _ => .refl s))

theorem exec_homeFound (c : Fin 4) : TameNext s (execHomeFound c s) :=
  .calm (.ite (fun h => Calm.trans (t := s.withChan c { s.chan c with homePin := true })
    (.withChan_same rfl rfl) (calm_foundHome _ c (inMotion_withChan_same s (by rw [h]; rfl))))
    (fun _ => .refl s))

theorem exec_searchExhausted (c : Fin 4) : TameNext s (execSearchExhausted c s) :=
  .calm (.ite (fun h => Calm.trans (t := s.withChan c { s.chan c with homePin := false })
    (.withChan_same rfl rfl) (calm_searchFailed _ c (by
      rw [chan_withChan, if_pos rfl, h.1]
      simp))) (fun _ => .refl s))

theorem exec_driverFault (c : Fin 4) : TameNext s (execDriverFault c s) :=
  .calm (.ite (fun _ => calm_faultAsserted s c) (fun _ => .refl s))

theorem exec_faultInputCleared (c : Fin 4) : TameNext s (execFaultInputCleared c s) :=
  .calm (.ite (fun _ => calm_faultClear s c) (fun _ => .refl s))

theorem exec_farLimit (c : Fin 4) : TameNext s (execFarLimit c s) := by
  unfold execFarLimit
  refine .calm (.ite (fun _ => ?_) (fun _ => .refl s))
  dsimp only
  refine Calm.trans (t := s.withChan c { s.chan c with farPin := true }) (.withChan_same rfl rfl)
    (.ite (fun h => calm_faultChannel _ c _ fun e => ?_) (fun _ => .refl _))
  simp only [Channel.farRead, Channel.motionToMake, e, Bool.and_false] at h
  exact absurd h Bool.false_ne_true

theorem exec_farCleared (c : Fin 4) : TameNext s (execFarCleared c s) :=
  .calm (.ite (fun _ => calm_farClear s c) (fun _ => .refl s))

theorem exec_acceptedClosure (b : Fin 16) : TameNext s (execAcceptedClosure b s) :=
  .calm (.ite (fun _ => calm_closureAccepted s b) (fun _ => .refl s))

theorem exec_acceptedRelease (b : Fin 16) : TameNext s (execAcceptedRelease b s) :=
  .calm (.ite (fun _ => calm_releaseAccepted s b) (fun _ => .refl s))

theorem exec_holdTimeReached (b : Fin 16) : TameNext s (execHoldTimeReached b s) :=
  .calm (.ite (fun _ => calm_holdReached s b) (fun _ => .refl s))

theorem exec_stuckTimeReached (b : Fin 16) : TameNext s (execStuckTimeReached b s) :=
  .calm (.ite (fun _ => (calm_holdReached s b).trans (calm_stuckReached _ b))
    (fun _ => .ite (fun _ => calm_stuckReached s b) (fun _ => .refl s)))

theorem exec_refillExpiry (b : Fin 16) : TameNext s (execRefillExpiry b s) := by
  unfold execRefillExpiry
  refine .calm ?_
  dsimp only
  split
  · split
    · exact (Calm.withBtn b _).trans (calm_lampUpdate _ b)
    · refine Calm.trans ?_ (calm_lampUpdate _ b)
      exact .ite (fun _ => (Calm.withBtn b _).trans (calm_conditionEnd _ _ _))
        (fun _ => Calm.withBtn b _)
  · exact .refl s

theorem exec_fadeStep (o : Fin 8) : TameNext s (execFadeStep o s) :=
  .calm (.withOut fun _ h0 hr => tick_rest _ _ _ h0 hr)

theorem exec_deadTimerExpiry (k : Fin 4) : TameNext s (execDeadTimerExpiry k s) := by
  unfold execDeadTimerExpiry
  refine .calm ?_
  refine .ite (fun h => .withOut fun _ _ hr => ?_) fun _ => .refl s
  exact absurd (hr.symm.trans h.2.2.1) Bool.false_ne_true

theorem exec_carrierPeriodStart : TameNext s (execCarrierPeriodStart s) := by
  unfold execCarrierPeriodStart
  refine .calm ?_
  split
  · refine .ite (fun _ => calm_outputs s _ fun o _ h0 hr => ?_) (fun _ => .refl s)
    simpa [State.out] using ⟨h0, hr⟩
  · exact .refl s

theorem exec_escalationExpiry (i : Fin 16) : TameNext s (execEscalationExpiry i s) := by
  unfold execEscalationExpiry
  refine .calm ?_
  split
  · exact .ite (fun _ => ((Calm.withSlot i _).trans (calm_beaconUpdate _)).trans (calm_pump _))
      (fun _ => .refl s)
  · exact .refl s

theorem exec_keyClosure : TameNext s (execKeyClosure s) :=
  .calm (.ite (fun _ => Calm.trans (t := { s with
      alert.key.closed := true, alert.key.pin := true, alert.key.count := 0 })
    (.of_eq rfl rfl rfl rfl rfl rfl rfl rfl) (calm_keyClosed _)) (fun _ => .refl s))

theorem exec_resetRelease : TameNext s (execResetRelease s) :=
  .intro (.ite (fun _ => .of_eq rfl rfl rfl rfl rfl rfl rfl rfl rfl rfl) (fun _ => .refl s))

theorem exec_lampPatternPhase (p : LampPattern) : TameNext s (execLampPatternPhase p s) := by
  cases p <;> exact .calm (.of_eq rfl rfl rfl rfl rfl rfl rfl rfl)

theorem exec_beaconPatternPhase (o : AlertOutput) : TameNext s (execBeaconPatternPhase o s) := by
  cases o
  · exact .calm (calm_beaconPhase s)
  · exact .calm (calm_sounderPhase s)

end Exec

end Sys2Proof.Machine
end

