-- ==== Sys2Proof/Laws/Kept.lean ====
section
/-! SUPPORT. `Kept s t`: what holds of every safe state holds after an operation that takes `s` to `t`. Every
tame operation is such, and so are the changes of guard readings, a RESTART and the frames that may carry
one, and what the node does on an empty queue. -/
namespace Sys2Proof.Machine

/-- The four parts of safety are kept from `s` to `t`. -/
structure Kept (s t : State) : Prop where
  bounded   : s.Bounded → t.Bounded
  canonical : s.Canonical → t.Canonical
  guards    : s.GuardsRespected → t.GuardsRespected
  rest      : s.RestOk → t.RestOk

theorem Tame.kept {s t : State} (h : Tame s t) : Kept s t :=
  ⟨h.bounded, h.words, h.guardsRespected, h.rest⟩

theorem Calm.kept {s t : State} (h : Calm s t) : Kept s t := h.tame.kept

namespace Kept
variable {s t u : State}

theorem refl (s : State) : Kept s s := ⟨id, id, id, id⟩

theorem trans (h : Kept s t) (k : Kept t u) : Kept s u :=
  ⟨k.bounded ∘ h.bounded, k.canonical ∘ h.canonical, k.guards ∘ h.guards, k.rest ∘ h.rest⟩

theorem ite {p : Prop} [Decidable p] (ht : p → Kept s t) (hu : ¬p → Kept s u) :
    Kept s (if p then t else u) := by
  split
  · exact ht ‹_›
  · exact hu ‹_›

end Kept

section Guards
variable (s : State)

/-- Closing guards keeps maps closed. -/
theorem guardsClosed_mono {s t : State} (m : BitVec 4)
    (h : ∀ g : Fin 4, (t.guardIn g).isOpen = true → (s.guardIn g).isOpen = true)
    (hs : s.guardsClosed m = true) : t.guardsClosed m = true := by
  simp only [State.guardsClosed, List.all_eq_true, Bool.not_eq_true', Bool.and_eq_false_iff] at hs ⊢
  intro g hg
  rcases hs g hg with h1 | h1
  · exact .inl h1
  · refine .inr ?_
    by_contra hc
    rw [Bool.not_eq_false] at hc
    rw [h g hc] at h1
    exact absurd h1 (by simp)

/-- A guard that does not go from CLOSED to OPEN. -/
theorem kept_withGuard (g : Fin 4) (x : GuardInput)
    (hx : x.isOpen = true → (s.guardIn g).isOpen = true) : Kept s (s.withGuard g x) := by
  refine ⟨fun b => ⟨b.1, b.2, b.3, b.4⟩, id, fun h c he hm => ?_, fun h => ⟨h.1, h.2, h.3⟩⟩
  refine guardsClosed_mono _ (fun k hk => ?_) (h c he hm)
  rw [guardIn_withGuard] at hk
  split at hk
  · rename_i e
    rw [e]
    exact hx hk
  · exact hk

theorem kept_guardClosing (g : Fin 4) : Kept s (s.guardClosing g) := by
  unfold State.guardClosing
  dsimp only
  refine Kept.trans (t := s.withGuard g { isOpen := false, count := 0, pin := false })
    (kept_withGuard s g _ (fun h => absurd h (by simp))) (Calm.kept ?_)
  exact (calm_conditionEnd _ _ _).trans (Calm.foldl _ calm_releaseTest _ _)

/-- Channel `c`, if enabled and in motion, has the guards of its map CLOSED, or, where `g` is given, is
protected by it. -/
def GoodChan (g : Option (Fin 4)) (c : Fin 4) (a : State) : Prop :=
  (a.chan c).enabled = true → (a.chan c).state.inMotion = true →
    (∀ x ∈ g, (a.chan c).guardMap.getLsbD x.val = false) →
      a.guardsClosed (a.chan c).guardMap = true

theorem Calm.goodChan {a b : State} (h : Calm a b) (g : Option (Fin 4)) (c : Fin 4)
    (k : GoodChan g c a) : GoodChan g c b := by
  intro he hm hx
  rcases h.motion c hm with ⟨hs, e⟩ | hg
  · rw [guardsClosed_congr h.guards, guardMap_congr e]
    refine k ?_ hs ?_
    · simpa only [Channel.enabled, e] using he
    · rwa [guardMap_congr e] at hx
  · rw [guardsClosed_congr h.guards]
    exact hg

/-- A channel that is halted is in no motion under an open guard. -/
theorem halted_good (a : State) (c : Fin 4) (x : Channel) (hx : x.state = .halted) :
    GoodChan none c (a.changeChan c x) := by
  refine (calm_tellChannel (a.withChan c x.takeAside) c).goodChan none c ?_
  intro _ hm
  rw [chan_withChan, if_pos rfl] at hm
  rw [(takeAside_state x).1 hm, hx] at hm
  exact absurd hm Bool.false_ne_true

theorem guardHalt_good (a : State) (g c : Fin 4) (k : GoodChan (some g) c a) :
    GoodChan none c (a.guardHalt g c) := by
  unfold State.guardHalt
  dsimp only
  split
  · exact (calm_report _ c _ _).goodChan none c (halted_good _ _ _ rfl)
  · rename_i hn
    intro he hm _
    refine k he hm fun x hx => ?_
    obtain rfl : g = x := by simpa using hx
    by_contra hb
    rw [Bool.not_eq_false] at hb
    exact hn ⟨he, hb, hm⟩

theorem kept_guardOpened (g : Fin 4) : Kept s (s.guardOpened g) := by
  have h0 : ∀ x : GuardInput, s.GuardsRespected → ∀ c, GoodChan (some g) c (s.withGuard g x) := by
    intro x hs c he hm hx
    have h := hs c he hm
    simp only [State.guardsClosed, List.all_eq_true] at h ⊢
    intro k hk
    rw [guardIn_withGuard]
    split
    · rename_i e
      have hb : (s.chan c).guardMap.getLsbD g.val = false := hx g (by simp)
      subst e
      simpa using Or.inl hb
    · exact h k hk
  have hc : ∀ a : State, Calm a (four.foldl (fun b c => b.guardHalt g c) a) := fun a =>
    Calm.foldl _ (fun b c => calm_guardHalt b c g) _ _
  unfold State.guardOpened
  refine ⟨fun b => ?_, fun b => ?_, fun b => ?_, fun b => ?_⟩
  · exact (calm_raise _ _ _).kept.bounded ((hc _).kept.bounded ⟨b.1, b.2, b.3, b.4⟩)
  · exact (calm_raise _ _ _).kept.canonical ((hc _).kept.canonical b)
  · refine (calm_raise _ _ _).kept.guards fun c he hm => ?_
    have go : ∀ (l : List (Fin 4)) (a : State), (∀ d, GoodChan (some g) d a) →
        (∀ d, d ∉ l → GoodChan none d a) →
        ∀ d, GoodChan none d (l.foldl (fun b c => b.guardHalt g c) a) := by
      intro l
      induction l with
      | nil => exact fun a _ h d => h d (by simp)
      | cons c l ih =>
        refine fun a h k => ih _ (fun d => (calm_guardHalt a c g).goodChan _ d (h d)) fun d hd => ?_
        by_cases e : d = c
        · rw [e]
          exact guardHalt_good a g c (h c)
        · exact (calm_guardHalt a c g).goodChan _ d (k d (by simp [e, hd]))
    refine go four _ (h0 _ b) (fun d hd => absurd ?_ hd) c he hm (by simp)
    fin_cases d <;> simp [four]
  · exact (calm_raise _ _ _).kept.rest ((hc _).kept.rest ⟨b.1, b.2, b.3⟩)

/-- Step 1 of a tick. -/
theorem kept_tickGuards (c : Fin 4) : Kept s (s.tickGuards c) := by
  have go : ∀ (l : List (Fin 4)) (a : State),
      Kept a (l.foldl (fun a g => if a.guardStandsOpen c g then a.guardOpened g else a) a) := by
    intro l
    induction l with
    | nil => exact .refl
    | cons g l ih => exact fun a => Kept.trans (.ite (fun _ => kept_guardOpened a g) fun _ => .refl a) (ih _)
  exact go four s

theorem kept_tick (c : Fin 4) :
    Kept s (if (s.chan c).state.inMotion then (s.tickGuards c).tickStages c else s) :=
  .ite (fun _ => (kept_tickGuards s c).trans (calm_tickStages _ c).kept) fun _ => .refl s

theorem kept_sampleGuard (g : Fin 4) (x : Bool) : Kept s (s.sampleGuard g x) := by
  unfold State.sampleGuard
  dsimp only
  split
  · rename_i h
    refine .ite (fun _ => kept_withGuard s g _ fun _ => h) fun _ =>
      .ite (fun _ => kept_withGuard s g _ fun _ => h) fun _ => kept_guardClosing s g
  · rename_i h
    exact .ite (fun _ => kept_guardOpened s g) fun _ => kept_withGuard s g _ fun k => absurd k h

theorem kept_sample (i : Input) (x : Bool) : Kept s (s.sample i x) := by
  cases i with
  | button b => exact (calm_sampleButton s b x).kept
  | guard g => exact kept_sampleGuard s g x
  | key => exact (calm_sampleKey s x).kept
  | home c =>
    exact Calm.kept (.withChan_same (x := { s.chan c with homePin := x }) rfl rfl)
  | far c =>
    exact .ite (fun _ => Calm.kept (.withChan_same (x := { s.chan c with farPin := true }) rfl rfl))
      (fun _ => (calm_farClear s c).kept)
  | fault c =>
    exact .ite
      (fun _ => Calm.kept (.withChan_same (x := { s.chan c with faultPin := true }) rfl rfl))
      (fun _ => .ite (fun _ => (calm_faultAsserted s c).kept) (fun _ => (calm_faultClear s c).kept))

end Guards

section Frames
variable (s : State)

theorem kept_restart : Kept s s.restart :=
  ⟨fun _ => (calm_restart s).kept.bounded (restartBlocks_bounded s),
    fun h => (calm_restart s).kept.canonical (restartBlocks_canonical s h),
    fun _ => (calm_restart s).kept.guards (restartBlocks_guards s),
    fun _ => (calm_restart s).kept.rest (restartBlocks_restOk s)⟩

theorem kept_act (f : Frame) : Kept s (s.act f) := by
  by_cases h : f.kind = 0x06
  · have e : s.act f = s.restart := by simp [State.act, h]
    rw [e]
    exact kept_restart s
  · exact (tame_act s f h).kept

theorem kept_receive (f : Frame) : Kept s (s.receive f) := by
  have ha : ∀ a : State, Kept a (a.actIfAdmitted f) := fun a =>
    .ite (fun _ => kept_act a f) (fun _ => .refl a)
  unfold State.receive State.goodFrame
  refine .ite (fun _ => .refl s) fun _ => .ite (fun _ => (tame_trailing s).kept.trans ?_)
    (fun _ => ((tame_trailing s).trans (tame_countBadFrame _)).kept)
  exact .ite (fun _ => .refl _) fun _ => (ha _).trans (tame_passOn _ f).kept

theorem kept_collect (b : Byte) : Kept s (s.collect b) := by
  have h : ∀ a : Assembler, Kept s { s with ring.assembler := a } := fun a =>
    Tame.kept (.of_eq rfl rfl rfl rfl rfl rfl rfl rfl rfl rfl)
  unfold State.collect
  dsimp only
  refine .ite (fun _ => h _) fun _ => .ite (fun _ => (h _).trans (tame_countBadFrame _).kept)
    fun _ => .ite (fun _ => h _) fun _ => ?_
  exact .ite (fun _ => kept_receive s _)
    (fun _ => ((tame_trailing s).trans (tame_countBadFrame _)).kept)

theorem kept_character (ch : LineChar) : Kept s (s.character ch) := by
  have h : ∀ a : Assembler, Kept s { s with ring.assembler := a } := fun a =>
    Tame.kept (.of_eq rfl rfl rfl rfl rfl rfl rfl rfl rfl rfl)
  unfold State.character
  split
  all_goals first
    | exact .refl s
    | exact h _
    | exact (h _).trans (tame_countBadFrame _).kept
    | exact kept_collect s _

/-- What the node does on an empty queue. -/
theorem kept_proceed : Kept s s.proceed := by
  unfold State.proceed
  split
  · exact ⟨fun h => ⟨h.1, h.2, h.3, h.4⟩, id, id, fun h => ⟨h.1, h.2, h.3⟩⟩
  · exact ⟨fun h => ⟨h.1, h.2, h.3, h.4⟩, id, id, fun h => ⟨h.1, h.2, h.3⟩⟩

end Frames
end Sys2Proof.Machine
end

