-- ==== Sys2Proof/Laws/Mild.lean ====
section
/-! SUPPORT. What a changed alert record or a frame taken by the transmitter can do while the node cannot come to
rest: `Mild s t` says that `t` differs from `s` in lamps, in the alert table, the beacon and the snapshot, in the
frames of the ring port, and in channels that were HALTED or in FAULT, and in nothing else. -/
namespace Sys2Proof.Machine

/-- The parts that no mild operation writes, as a state with the others blanked. -/
def State.fixed (s : State) : State :=
  { s with
    button := .reset
    motion.channels := Vector.replicate 4 .reset
    alert := { AlertUnit.reset with held := s.alert.held, key := s.alert.key }
    ring := { Ring.reset with
      bypass := s.ring.bypass, assembler := s.ring.assembler, hopLimit := s.ring.hopLimit
      lossUnits := s.ring.lossUnits, lossTimer := s.ring.lossTimer } }

/-- An operation that takes `s` to `t` is mild. -/
structure Mild (s t : State) : Prop where
  fixed : t.fixed = s.fixed
  chans : ∀ c : Fin 4, (s.chan c).state ≠ .halted → (s.chan c).state ≠ .fault → t.chan c = s.chan c

namespace Mild
variable {s t u : State}

theorem refl (s : State) : Mild s s := ⟨rfl, fun _ _ _ => rfl⟩

theorem trans (h : Mild s t) (k : Mild t u) : Mild s u where
  fixed := k.fixed.trans h.fixed
  chans c h1 h2 := by
    have e := h.chans c h1 h2
    rw [← e] at h1 h2
    exact (k.chans c h1 h2).trans e

theorem of_eq (hf : t.fixed = s.fixed) (hc : t.motion.channels = s.motion.channels) : Mild s t :=
  ⟨hf, fun c _ _ => by simp [State.chan, hc]⟩

theorem mode (h : Mild s t) : t.mode = s.mode := by
  have := congrArg State.mode h.fixed; exact this
theorem effect (h : Mild s t) : t.effect = s.effect := by
  have := congrArg State.effect h.fixed; exact this
theorem mem (h : Mild s t) : t.mem = s.mem := by
  have := congrArg State.mem h.fixed; exact this
theorem mgmt (h : Mild s t) : t.mgmt = s.mgmt := by
  have := congrArg State.mgmt h.fixed; exact this
theorem cue (h : Mild s t) : t.cue = s.cue := by
  have := congrArg State.cue h.fixed; exact this
theorem straps (h : Mild s t) : t.straps = s.straps := by
  have := congrArg State.straps h.fixed; exact this
theorem sampling (h : Mild s t) : t.sampling = s.sampling := by
  have := congrArg State.sampling h.fixed; exact this
theorem guards (h : Mild s t) : t.motion.guards = s.motion.guards := by
  have := congrArg (fun x : State => x.motion.guards) h.fixed; exact this
theorem owed (h : Mild s t) : t.motion.owed = s.motion.owed := by
  have := congrArg (fun x : State => x.motion.owed) h.fixed; exact this
theorem fetchWords (h : Mild s t) : t.motion.fetchWords = s.motion.fetchWords := by
  have := congrArg (fun x : State => x.motion.fetchWords) h.fixed; exact this
theorem held (h : Mild s t) : t.alert.held = s.alert.held := by
  have := congrArg (fun x : State => x.alert.held) h.fixed; exact this
theorem key (h : Mild s t) : t.alert.key = s.alert.key := by
  have := congrArg (fun x : State => x.alert.key) h.fixed; exact this
theorem bypass (h : Mild s t) : t.ring.bypass = s.ring.bypass := by
  have := congrArg (fun x : State => x.ring.bypass) h.fixed; exact this
theorem hopLimit (h : Mild s t) : t.ring.hopLimit = s.ring.hopLimit := by
  have := congrArg (fun x : State => x.ring.hopLimit) h.fixed; exact this
theorem lossTimer (h : Mild s t) : t.ring.lossTimer = s.ring.lossTimer := by
  have := congrArg (fun x : State => x.ring.lossTimer) h.fixed; exact this

end Mild

/-- The node cannot come to rest: it is not CLOSING, or a record waits to be seen (R31). -/
def State.Restless (s : State) : Prop := s.mode.node ≠ .closing ∨ s.anyRecord Record.unseen = true

variable {s t : State}

theorem restTest_restless (h : s.Restless) : s.restTest = s := by
  unfold State.restTest
  rw [if_neg]
  rintro ⟨hn, hp⟩
  rcases h with h | h
  · exact h hn
  · simp [State.restPasses, h] at hp

theorem anyRecord_congr (p : Record → Bool) (h : ∀ i, t.slotAt i = s.slotAt i) :
    t.anyRecord p = s.anyRecord p := by
  simp only [State.anyRecord, h]

theorem restless_congr (hm : t.mode = s.mode) (hs : ∀ i, t.slotAt i = s.slotAt i) (h : s.Restless) :
    t.Restless := by
  unfold State.Restless at *
  rwa [hm, anyRecord_congr _ hs]

theorem tellChannel_restless (c : Fin 4) (h : s.Restless) : s.tellChannel c = s.channelLamps c := by
  unfold State.tellChannel
  rw [restTest_restless h]

/-- A change of one channel while the node cannot come to rest: the channel, and the lamps that name it. -/
theorem changeChan_restless (c : Fin 4) (x : Channel) (h : s.Restless) :
    s.changeChan c x = (s.withChan c x.takeAside).channelLamps c :=
  tellChannel_restless c (restless_congr (s := s) rfl (fun _ => rfl) h)

theorem changeChan_chan (c d : Fin 4) (x : Channel) (h : s.Restless) :
    (s.changeChan c x).chan d = if d = c then x.takeAside else s.chan d := by
  rw [changeChan_restless c x h]
  exact chan_withChan _ _ _ _

theorem changeChan_slotAt (c : Fin 4) (x : Channel) (i : Fin 16) :
    (s.changeChan c x).slotAt i = s.slotAt i := by
  unfold State.changeChan State.tellChannel State.channelLamps State.restTest
  split <;> rfl

theorem fixed_withChan (c : Fin 4) (x : Channel) : (s.withChan c x).fixed = s.fixed := rfl

theorem mild_channelLamps (c : Fin 4) : Mild s (s.channelLamps c) := .of_eq rfl rfl

theorem mild_beaconUpdate : Mild s s.beaconUpdate := by
  unfold State.beaconUpdate
  dsimp only
  split
  · exact .refl s
  · exact .of_eq rfl rfl

theorem beaconUpdate_slotAt (i : Fin 16) : s.beaconUpdate.slotAt i = s.slotAt i := by
  unfold State.beaconUpdate
  dsimp only
  split <;> rfl

theorem mild_releaseTest (c : Fin 4) (h : s.Restless) : Mild s (s.releaseTest c) := by
  unfold State.releaseTest
  dsimp only
  have key : ∀ x, (s.chan c).state = .halted ∨ (s.chan c).state = .fault → Mild s (s.changeChan c x) := by
    intro x hx
    refine ⟨?_, fun d h1 h2 => ?_⟩
    · rw [changeChan_restless c x h, (mild_channelLamps c).fixed, fixed_withChan]
    · rw [changeChan_chan c d x h, if_neg]
      rintro rfl
      rcases hx with hx | hx
      · exact h1 hx
      · exact h2 hx
  split
  · rename_i e
    split
    · exact key _ (.inl e)
    · exact .refl s
  · rename_i e
    split
    · exact key _ (.inr e)
    · exact .refl s
  · exact .refl s

theorem releaseTest_slotAt (c : Fin 4) (i : Fin 16) : (s.releaseTest c).slotAt i = s.slotAt i := by
  unfold State.releaseTest
  dsimp only
  split
  · split
    · exact changeChan_slotAt _ _ _
    · rfl
  · split
    · exact changeChan_slotAt _ _ _
    · rfl
  · rfl

theorem mild_gatingNotice (c : Fin 4) (h : s.Restless) : Mild s (s.gatingNotice c) :=
  (mild_channelLamps c).trans (mild_releaseTest c (restless_congr (s := s) rfl (fun _ => rfl) h))

theorem gatingNotice_slotAt (c : Fin 4) (i : Fin 16) : (s.gatingNotice c).slotAt i = s.slotAt i :=
  releaseTest_slotAt c i

theorem mild_gatingNotices (l : List (Fin 4)) (h : s.Restless) :
    Mild s (l.foldl State.gatingNotice s) ∧ ∀ i, (l.foldl State.gatingNotice s).slotAt i = s.slotAt i := by
  induction l generalizing s with
  | nil => exact ⟨.refl s, fun _ => rfl⟩
  | cons c l ih =>
    have m := mild_gatingNotice c h
    have k := ih (restless_congr m.mode (gatingNotice_slotAt c) h)
    exact ⟨m.trans k.1, fun i => (k.2 i).trans (gatingNotice_slotAt c i)⟩

theorem mild_tellRecord (c : Cause) (n : Nat) (h : s.Restless) :
    Mild s (s.tellRecord c n) ∧ ∀ i, (s.tellRecord c n).slotAt i = s.slotAt i := by
  have hb : s.beaconUpdate.Restless := restless_congr mild_beaconUpdate.mode beaconUpdate_slotAt h
  have k := mild_gatingNotices (s.beaconUpdate.concerned c n) hb
  unfold State.tellRecord
  rw [restTest_restless hb]
  dsimp only
  split
  · exact ⟨(mild_beaconUpdate.trans k.1).trans (.of_eq rfl rfl), fun i =>
      (k.2 i).trans (beaconUpdate_slotAt i)⟩
  · exact ⟨mild_beaconUpdate.trans k.1, fun i => (k.2 i).trans (beaconUpdate_slotAt i)⟩

theorem mem_sixteen : ∀ i : Fin 16, i ∈ sixteen := by decide

theorem unseen_slot {i : Fin 16} {r : Record} (h : s.slotAt i = some r) (hu : r.unseen = true) :
    s.Restless := by
  refine .inr ?_
  simp only [State.anyRecord, List.any_eq_true]
  exact ⟨i, mem_sixteen i, by rw [h]; exact hu⟩

/-- A record that waits to be seen stays so when another slot's record, or its own by a CALL, changes. -/
theorem restless_withSlot {i : Fin 16} {r : Option Record} (h : s.Restless)
    (hr : ∀ r0, s.slotAt i = some r0 → r0.unseen = true → ∃ r1, r = some r1 ∧ r1.unseen = true) :
    (s.withSlot i r).Restless := by
  rcases h with h | h
  · exact .inl h
  · simp only [State.anyRecord, List.any_eq_true] at h
    obtain ⟨j, -, hj⟩ := h
    cases e : s.slotAt j with
    | none => rw [e] at hj; simp at hj
    | some r0 =>
      rw [e] at hj
      by_cases hij : j = i
      · subst hij
        obtain ⟨r1, e1, hu⟩ := hr r0 e hj
        exact unseen_slot (i := j) (r := r1) (by simp [e1]) hu
      · exact unseen_slot (i := j) (r := r0) (by simp [hij, e]) hj

theorem mild_buildCall {i : Fin 16} {r : Record} (hr : s.slotAt i = some r) (h : s.Restless) :
    Mild s (s.buildCall i r) ∧
      ∀ j, (s.buildCall i r).slotAt j = if j = i then s.recordAfterCall r else s.slotAt j := by
  have h1 : (s.withSlot i (s.recordAfterCall r)).Restless := by
    refine restless_withSlot h fun r0 e hu => ?_
    rw [hr] at e
    cases e
    unfold State.recordAfterCall
    unfold Record.unseen at hu
    cases hs : r.state <;> simp [hs] at hu ⊢ <;> simp [Record.unseen]
  have m : Mild s (s.withSlot i (s.recordAfterCall r)) := .of_eq rfl rfl
  have sl : ∀ j, (s.withSlot i (s.recordAfterCall r)).slotAt j
      = if j = i then s.recordAfterCall r else s.slotAt j := fun j => slotAt_withSlot _ _ _ _
  have k := mild_tellRecord r.cause r.subject h1
  unfold State.buildCall
  dsimp only
  split
  · exact ⟨m.trans k.1, fun j => (k.2 j).trans (sl j)⟩
  · exact ⟨m.trans k.1, fun j => (k.2 j).trans (sl j)⟩
  · exact ⟨m, sl⟩
  · exact ⟨m, sl⟩

theorem mild_takeOwn (h : s.Restless) :
    Mild s s.takeOwn ∧ ∀ j, s.takeOwn.slotAt j = s.slotAt j ∨
      ∃ r, s.slotAt j = some r ∧ r.due = true ∧ s.takeOwn.slotAt j = s.recordAfterCall r := by
  unfold State.takeOwn
  split
  · split
    · rename_i i hi
      split
      · rename_i r hr
        have k := mild_buildCall (s := { s with
          ring.sending := some (s.ownFrame 0x13 (callPayload i r)), ring.relayCount := 0 }) (i := i)
          (r := r) hr (restless_congr (s := s) rfl (fun _ => rfl) h)
        refine ⟨Mild.trans ?_ k.1, fun j => ?_⟩
        · exact .of_eq rfl rfl
        rw [k.2 j]
        by_cases hj : j = i
        · subst hj
          refine .inr ⟨r, hr, ?_, if_pos rfl⟩
          have : s.dueLevel j ≠ none := by
            unfold State.dueSlot at hi
            split at hi
            · rename_i e; cases hi; have := List.find?_some e; intro e'; simp [e'] at this
            · split at hi
              · rename_i e; cases hi; have := List.find?_some e; intro e'; simp [e'] at this
              · have := List.find?_some hi; intro e'; simp [e'] at this
          unfold State.dueLevel at this
          rw [hr] at this
          simpa using this
        · exact .inl (if_neg hj)
      · exact ⟨.refl s, fun _ => .inl rfl⟩
    · exact ⟨.refl s, fun _ => .inl rfl⟩
  · split
    · exact ⟨.of_eq rfl rfl, fun _ => .inl rfl⟩
    · exact ⟨.refl s, fun _ => .inl rfl⟩

/-- The transmitter's choice is mild, and of the alert table it changes at most a due record, as its CALL
does. -/
theorem mild_pump (h : s.Restless) :
    Mild s s.pump ∧ ∀ j, s.pump.slotAt j = s.slotAt j ∨
      ∃ r, s.slotAt j = some r ∧ r.due = true ∧ s.pump.slotAt j = s.recordAfterCall r := by
  unfold State.pump
  split
  · unfold State.choose
    split
    · split
      · exact ⟨.of_eq rfl rfl, fun _ => .inl rfl⟩
      · exact mild_takeOwn h
    · split
      · exact mild_takeOwn h
      · exact ⟨.refl s, fun _ => .inl rfl⟩
  · exact ⟨.refl s, fun _ => .inl rfl⟩

/-- A record that waits to be seen waits still after the transmitter's choice. -/
theorem restless_pump (h : s.Restless) : s.pump.Restless := by
  have m := mild_pump h
  rcases h with h | h
  · exact .inl (by rw [m.1.mode]; exact h)
  · simp only [State.anyRecord, List.any_eq_true] at h
    obtain ⟨j, -, hj⟩ := h
    cases e : s.slotAt j with
    | none => rw [e] at hj; simp at hj
    | some r =>
      rw [e] at hj
      rcases m.2 j with k | ⟨r0, e0, -, k⟩
      · exact unseen_slot (i := j) (r := r) (k.trans e) hj
      · rw [e] at e0
        cases e0
        unfold State.recordAfterCall at k
        simp only [Record.unseen] at hj
        cases hs : r.state <;> simp [hs] at hj k <;> exact unseen_slot k (by simp [Record.unseen])

theorem mild_offerOwn (f : Frame) (h : s.Restless) : Mild s (s.offerOwn f) ∧ (s.offerOwn f).Restless := by
  unfold State.offerOwn
  split
  · have h1 : State.Restless { s with ring.insertion := s.ring.insertion ++ [f] } :=
      restless_congr (s := s) rfl (fun _ => rfl) h
    refine ⟨Mild.trans ?_ (mild_pump h1).1, restless_pump h1⟩
    exact .of_eq rfl rfl
  · exact ⟨.of_eq rfl rfl, restless_congr (s := s) rfl (fun _ => rfl) h⟩

theorem fillSnapshot_slotAt (c : Cause) (n : Nat) (i : Option (Fin 16)) (x : Option ChanInfo) (j : Fin 16) :
    (s.fillSnapshot c n i x).slotAt j = s.slotAt j := by
  unfold State.fillSnapshot
  split <;> rfl

theorem mild_fillSnapshot (c : Cause) (n : Nat) (i : Option (Fin 16)) (x : Option ChanInfo) :
    Mild s (s.fillSnapshot c n i x) := by
  unfold State.fillSnapshot
  split
  · exact .of_eq rfl rfl
  · exact .refl s

/-- A raise is mild in every state: the record raised keeps the node from coming to rest. -/
theorem mild_raiseWith (c : Cause) (n : Nat) (l : Option Level) (x : Option ChanInfo) :
    Mild s (s.raiseWith c n l x) := by
  have key : ∀ (i : Fin 16) (r : Record), r.unseen = true →
      Mild s ((s.withSlot i (some r)).fillSnapshot c n (some i) x) ∧
        ((s.withSlot i (some r)).fillSnapshot c n (some i) x).Restless := fun i r hu =>
    ⟨Mild.trans (t := s.withSlot i (some r)) (.of_eq rfl rfl) (mild_fillSnapshot _ _ _ _),
      unseen_slot (i := i) (r := r) (by rw [fillSnapshot_slotAt]; simp) hu⟩
  have hnew : ∀ lv, (s.newRecord c n lv).unseen = true := fun _ => rfl
  have hagain : ∀ (r : Record), (r.raisedAgain l).unseen = true := by
    intro r
    unfold Record.raisedAgain Record.unseen
    cases hs : r.state <;> simp
  unfold State.raiseWith
  split
  · split
    · rename_i i r e
      have k := key ‹_› _ (hagain r)
      dsimp only
      split
      · have hb := restless_congr mild_beaconUpdate.mode beaconUpdate_slotAt k.2
        exact (k.1.trans mild_beaconUpdate).trans (mild_pump hb).1
      · have m := mild_tellRecord c n k.2
        exact (k.1.trans m.1).trans (mild_pump (restless_congr m.1.mode m.2 k.2)).1
    · exact .refl s
  · split
    · rename_i i hi
      have one : ∀ lv, Mild s
          (((s.withSlot i (some (s.newRecord c n lv))).fillSnapshot c n (some i) x).tellRecord c n).pump := by
        intro lv
        have k := key i _ (hnew lv)
        have m := mild_tellRecord c n k.2
        exact (k.1.trans m.1).trans (mild_pump (restless_congr m.1.mode m.2 k.2)).1
      cases l <;> exact one _
    · refine Mild.trans (Mild.trans (t := { s with alert.overflow := true }) ?_
        (mild_fillSnapshot _ _ _ _)) mild_beaconUpdate
      exact .of_eq rfl rfl

theorem mild_raise (c : Cause) (n : Nat) : Mild s (s.raise c n) := mild_raiseWith c n none none

/-- The end of a condition is mild at a node that is not CLOSING. -/
theorem mild_conditionEnd (c : Cause) (n : Nat) (h : s.mode.node ≠ .closing) :
    Mild s (s.conditionEnd c n) := by
  have key : ∀ (i : Fin 16) (r : Option Record),
      Mild s ((s.withSlot i r).tellRecord c n).pump := by
    intro i r
    have h1 : (s.withSlot i r).Restless := .inl h
    have m := mild_tellRecord c n h1
    refine (Mild.trans (t := s.withSlot i r) ?_ m.1).trans
      (mild_pump (restless_congr m.1.mode m.2 h1)).1
    exact .of_eq rfl rfl
  unfold State.conditionEnd
  split
  · exact .refl s
  · split
    · exact .refl s
    · dsimp only
      split
      · exact .refl s
      · exact key _ _
      · split
        · exact .of_eq rfl rfl
        · exact key _ _
      · split
        · exact .of_eq rfl rfl
        · exact key _ _

end Sys2Proof.Machine
end

