-- ==== Sys2Proof/Laws/Operations.lean ====
section
/-! SUPPORT. Shared operations, each with one lemma that says what it can change: the arbiter, the trigger queue, a
frame that waits, DIR, a read, an action, a PUT to a cue entry, a FAULT sample, an enabled button, the access due, a
raise, the report of an ended profile, the guards at a tick, a frame received from the gallery head. -/
namespace Sys2Proof.Machine
variable {s : State}

/-! ## Arbiter, reads, triggers -/

/-- A grant changes the access, the pass-over counts and the scrubber's request alone. -/
theorem arbitrate_eq (s : State) : ∃ a p w, s.arbitrate =
    { s with mem := { s.mem with access := a, passOver := p, scrubWaiting := w } } := by
  unfold State.arbitrate
  split
  · split
    · unfold State.grant
      split
      · exact ⟨_, _, _, rfl⟩
      · exact ⟨_, _, _, rfl⟩
    · exact ⟨_, _, _, rfl⟩
  · exact ⟨_, _, _, rfl⟩

theorem endAccess_eq (s : State) : ∃ a p w, s.endAccess =
    { s with mem := { s.mem with access := a, passOver := p, scrubWaiting := w } } :=
  arbitrate_eq { s with mem.access := none }

/-- A read changes the counts and the log alone. -/
theorem readFor_eq (s : State) (i : Nat) (w : Requester) : ∃ l a b, s.readFor i w =
    { s with mem := { s.mem with log := l, corrected := a, uncorrectable := b } } := by
  unfold State.readFor State.countRead
  split <;> exact ⟨_, _, _, rfl⟩

/-- A clean word is neither counted nor logged. -/
theorem readFor_clean {i : Nat} {w : Requester}
    (h : (classify (Memory.read s.mem.words i)).1 = .clean) : s.readFor i w = s := by
  unfold State.readFor State.countRead
  rw [h]

/-- With an access in progress nothing is granted. -/
theorem arbitrate_busy {a : Access} (h : s.mem.access = some a) : s.arbitrate = s := by
  simp [State.arbitrate, h]

/-- An idle engine with nothing waiting stays idle. -/
theorem takeTrigger_nil (d : s.cue.dispatch = .idle) (q : s.cue.queue = []) : s.takeTrigger = s := by
  simp [State.takeTrigger, d, q]

/-- In HELD an idle engine discards every waiting trigger (R39). -/
theorem takeTrigger_held (d : s.cue.dispatch = .idle) (m : s.mode.mode = .held) :
    s.takeTrigger = { s with cue := { s.cue with queue := [] } } := by
  unfold State.takeTrigger
  rw [d]
  cases q : s.cue.queue with
  | nil => simp [← q]
  | cons t rest => simp [m]

/-- In any other mode an idle engine begins the scan of the trigger at the head (R39). -/
theorem takeTrigger_cons {t : Trigger} {rest : List Trigger} (d : s.cue.dispatch = .idle)
    (m : s.mode.mode ≠ .held) (q : s.cue.queue = t :: rest) : s.takeTrigger =
      ({ s with cue.queue := rest, cue.dispatch := .scanning t 0 [] }).arbitrate := by
  simp [State.takeTrigger, d, q, m]

/-- Past an entry before the last the scan goes on (R44). -/
theorem nextEntry_next {t : Trigger} {e : Nat} (h : e < 63) :
    s.nextEntry t e = { s with cue.dispatch := .scanning t (e + 1) [] } := by
  simp [State.nextEntry, Config.cueEntries, h]

/-- Past entry 63 the scan ends and the engine takes the next trigger (R44). -/
theorem nextEntry_last {t : Trigger} {e : Nat} (h : 63 ≤ e) :
    s.nextEntry t e = ({ s with cue.dispatch := .idle }).takeTrigger := by
  simp [State.nextEntry, Config.cueEntries]
  omega

theorem takeTrigger_eq (s : State) : ∃ q a p w, s.takeTrigger =
    { s with cue := q, mem := { s.mem with access := a, passOver := p, scrubWaiting := w } } := by
  unfold State.takeTrigger
  split
  · split
    · exact ⟨_, _, _, _, rfl⟩
    · split
      · exact ⟨_, _, _, _, rfl⟩
      · obtain ⟨a, p, w, h⟩ := arbitrate_eq
          { s with cue.queue := by assumption, cue.dispatch := .scanning (by assumption) 0 [] }
        exact ⟨_, a, p, w, h⟩
  · exact ⟨_, _, _, _, rfl⟩
  · exact ⟨_, _, _, _, rfl⟩

/-- An offered trigger changes the cue engine, the drop count and the arbiter alone. -/
theorem offerTrigger_eq (s : State) (t : Trigger) : ∃ q d a p w, s.offerTrigger t =
    { s with
      cue := q, ring.record.triggerDrops := d
      mem := { s.mem with access := a, passOver := p, scrubWaiting := w } } := by
  unfold State.offerTrigger
  split
  · obtain ⟨q, a, p, w, h⟩ := takeTrigger_eq { s with cue.queue := s.cue.queue ++ [t] }
    exact ⟨q, s.ring.record.triggerDrops, a, p, w, h⟩
  · exact ⟨_, _, _, _, _, rfl⟩

/-! ## Frames that wait, DIR -/

/-- A frame that holds no slot joins the insertion queue when it may (R14, R177). -/
theorem offerWaiting_joins {w : WaitingFrame} {f : Frame} (hw : w = .saveAnswer f ∨ w = .ready f)
    (b : s.ring.bypass = false) (e : s.mgmt.waiting = []) (l : s.ring.insertion.length < 8) :
    s.offerWaiting w = ({ s with ring.insertion := s.ring.insertion ++ [f] }).pump := by
  rcases hw with rfl | rfl <;> simp [State.offerWaiting, State.joinWaiting, Config.insertionCapacity, b, e, l]

/-- A frame that may not join waits behind those that wait (R177). -/
theorem offerWaiting_waits {w : WaitingFrame}
    (h : s.ring.bypass = true ∨ s.mgmt.waiting ≠ [] ∨ 8 ≤ s.ring.insertion.length) :
    s.offerWaiting w = { s with mgmt.waiting := s.mgmt.waiting ++ [w] } := by
  unfold State.offerWaiting
  rw [if_neg]
  rintro ⟨b, e, l⟩
  rcases h with h | h | h
  · simp [b] at h
  · exact h e
  · exact Nat.not_lt.mpr h l

/-- DIR is high for OUTWARD, swapped by direction invert (R80). -/
theorem dirLevel_copy {ch : Channel} {k : ChannelSettings} (o : Bool) (h : ch.held = .copy k) :
    ch.dirLevel o = (o != k.invert) := by
  cases hk : k.invert <;> cases o <;> simp [Channel.dirLevel, h, hk]

/-! ## Actions -/

/-- An action that neither a reset nor a PUT recalled is performed, and the engine goes on. -/
theorem takeAction_performed {a : Action} (f : State → State) (h : s.recalls a = false) :
    s.takeAction a f = (f s).handOn a := by simp [State.takeAction, h]

/-- A recalled action leaves nothing but that its mark is gone. -/
theorem takeAction_recalled {a : Action} (f : State → State) (h : s.recalls a = true) :
    s.takeAction a f = { s with cue.recalled := none } := by simp [State.takeAction, h]

/-- An action is recalled where a reset or a PUT marked it and no present dispatch hands it on. -/
theorem recalls_iff (a : Action) : s.recalls a = true ↔ s.cue.recalled = some a ∧ s.nextAction ≠ some a := by
  simp [State.recalls]

/-- An action whose dispatch is in progress is not recalled. -/
theorem recalls_next {a : Action} (h : s.nextAction = some a) : s.recalls a = false := by
  simp [State.recalls, h]

/-- A PUT to an entry of which nothing has been handed on: the entry is read again, its action recalled (R47). -/
theorem entryWritten_performing {t : Trigger} {e : Nat} {acts : List Action}
    (h : s.cue.dispatch = .performing t e acts 0) : s.entryWritten e =
      { s with cue.dispatch := .scanning t e [], cue.recalled := s.recalledBy } := by
  simp [State.entryWritten, h]

/-- A PUT to an entry an action of which has been handed on leaves the engine alone (R47). -/
theorem entryWritten_begun {t : Trigger} {e n : Nat} {acts : List Action}
    (h : s.cue.dispatch = .performing t e acts (n + 1)) : s.entryWritten e = s := by
  simp [State.entryWritten, h]

/-- A PUT to an entry changes the dispatch and the recall mark, and nothing else. -/
theorem entryWritten_eq (s : State) (e : Nat) :
    ∃ d r, s.entryWritten e = { s with cue := { s.cue with dispatch := d, recalled := r } } := by
  unfold State.entryWritten
  split
  · split
    · exact ⟨_, s.cue.recalled, rfl⟩
    · exact ⟨_, _, rfl⟩
  · split
    · exact ⟨_, _, rfl⟩
    · exact ⟨_, _, rfl⟩
  · exact ⟨_, _, rfl⟩

/-! ## Inputs and buttons -/

/-- FAULT asserted on a channel in motion is a level that its tick reads (R110). -/
theorem sampleFault_inMotion {c : Fin 4} (h : (s.chan c).state.inMotion = true) :
    s.sampleFault c true = s.withChan c { s.chan c with faultPin := true } := by
  simp [State.sampleFault, h]

/-- FAULT asserted on any other channel acts at once (R96). -/
theorem sampleFault_still {c : Fin 4} (h : (s.chan c).state.inMotion = false) :
    s.sampleFault c true = s.faultAsserted c := by simp [State.sampleFault, h]

/-- An enabled button is full, its refill timer stopped (R59, R67). -/
theorem enable_refill (x : Button) (k : ButtonSettings) :
    (x.enable k).refill = none ∧ (x.enable k).allowance = fullAllowance k := by
  unfold Button.enable Button.timeStuck
  constructor <;> split <;> rfl

/-- An open button that is enabled keeps its closure time and the stuck time in force (log entry 21). -/
theorem enable_open {x : Button} (k : ButtonSettings) (h : x.closed = false) :
    (x.enable k).closure = x.closure ∧ (x.enable k).stuckInForce = x.stuckInForce := by
  simp [Button.enable, h]

/-! ## Work in hand -/

/-- An access whose requester's part a RESTART cancelled runs to its end of itself (R165). -/
theorem accessDue_stale {op : AccessOp} {i : Nat} (h : s.mem.access = some ⟨op, i, true⟩) :
    s.accessDue = [accessCommand op] := by
  simp [State.accessDue, State.awaitsFlash, dueIf, h]

/-- Taking an action may move the engine and its arbiter; all else is the action's own effect. -/
theorem handOn_eq (s : State) (a : Action) : ∃ q x p w, s.handOn a =
    { s with cue := q, mem := { s.mem with access := x, passOver := p, scrubWaiting := w } } := by
  have next : ∀ t i, ∃ q x p w, (s.nextEntry t i).arbitrate =
      { s with cue := q, mem := { s.mem with access := x, passOver := p, scrubWaiting := w } } := by
    intro t i
    obtain ⟨q, x, p, w, h⟩ : ∃ q x p w, s.nextEntry t i =
        { s with cue := q, mem := { s.mem with access := x, passOver := p, scrubWaiting := w } } := by
      unfold State.nextEntry
      split
      · exact ⟨_, _, _, _, rfl⟩
      · obtain ⟨q, x, p, w, h⟩ := takeTrigger_eq { s with cue.dispatch := .idle }
        exact ⟨q, x, p, w, h⟩
    obtain ⟨x', p', w', h'⟩ := arbitrate_eq (s.nextEntry t i)
    exact ⟨q, x', p', w', by rw [h', h]⟩
  unfold State.handOn
  split
  · split
    · split
      · obtain ⟨x, p, w, h⟩ := arbitrate_eq { s with cue.dispatch := .performing _ _ _ _ }
        exact ⟨_, x, p, w, h⟩
      · exact next _ _
    · exact ⟨_, _, _, _, rfl⟩
  · exact ⟨_, _, _, _, rfl⟩
  · exact ⟨_, _, _, _, rfl⟩

/-! ## Records -/

theorem findRecord_some {c : Cause} {n : Nat} {i : Fin 16} (h : s.findRecord c n = some i) :
    ∃ r, s.slotAt i = some r ∧ r.cause = c ∧ r.subject = n := by
  have := List.find?_some h
  cases e : s.slotAt i with
  | none => simp [e] at this
  | some r =>
    simp [e] at this
    exact ⟨r, rfl, this.1, this.2⟩

theorem emptySlot_some {i : Fin 16} (h : s.emptySlot = some i) : s.slotAt i = none := by
  have := List.find?_some h
  simpa using this

theorem findRecord_of_slot {i : Fin 16} {r : Record} (h : s.slotAt i = some r) :
    (s.findRecord r.cause r.subject).isSome = true := by
  unfold State.findRecord
  rw [List.find?_isSome]
  exact ⟨i, mem_sixteen i, by simp [h]⟩

/-- The transmitter's choice keeps a record that waits to be seen. -/
theorem pump_unseen (h : s.Restless) {i : Fin 16} {r : Record} (e : s.slotAt i = some r)
    (hu : r.unseen = true) :
    ∃ x, s.pump.slotAt i = some x ∧ x.cause = r.cause ∧ x.subject = r.subject ∧ x.unseen = true := by
  rcases (mild_pump h).2 i with k | ⟨r0, e0, -, k⟩
  · exact ⟨r, k.trans e, rfl, rfl, hu⟩
  · rw [e] at e0
    cases e0
    have hst : r.state = .raised ∨ r.state = .called := by simpa [Record.unseen] using hu
    rcases hst with h | h <;> simp only [State.recordAfterCall, h] at k <;>
      exact ⟨_, k, rfl, rfl, by simp [Record.unseen]⟩

theorem raisedAgain_unseen (r : Record) (l : Option Level) : (r.raisedAgain l).unseen = true := by
  unfold Record.raisedAgain Record.unseen
  cases hs : r.state <;> simp

/-- After a raise a record of the matter waits to be seen, or the table is full and the overflow flag set. -/
theorem raise_recorded (s : State) (c : Cause) (n : Nat) (l : Option Level) (x : Option ChanInfo) :
    (∃ i r, (s.raiseWith c n l x).slotAt i = some r ∧ r.cause = c ∧ r.subject = n ∧ r.unseen = true) ∨
      ((s.raiseWith c n l x).alert.overflow = true ∧ s.emptySlot = none ∧ s.findRecord c n = none) := by
  have told : ∀ (i : Fin 16) (r : Record), r.unseen = true →
      ∃ y, (((s.withSlot i (some r)).fillSnapshot c n (some i) x).tellRecord c n).pump.slotAt i = some y ∧
        y.cause = r.cause ∧ y.subject = r.subject ∧ y.unseen = true := by
    intro i r hu
    have hr : ((s.withSlot i (some r)).fillSnapshot c n (some i) x).slotAt i = some r := by
      rw [fillSnapshot_slotAt]
      simp
    have m := mild_tellRecord c n (unseen_slot hr hu)
    exact pump_unseen (restless_congr m.1.mode m.2 (unseen_slot hr hu)) ((m.2 i).trans hr) hu
  unfold State.raiseWith
  cases hf : s.findRecord c n with
  | some i =>
    obtain ⟨r, hr, hc, hn⟩ := findRecord_some hf
    have hm : (r.raisedAgain l).cause = c ∧ (r.raisedAgain l).subject = n := by
      rw [← hc, ← hn]
      unfold Record.raisedAgain
      cases r.state <;> exact ⟨rfl, rfl⟩
    have hu := raisedAgain_unseen r l
    simp only [hr]
    left
    split
    · have hr : ((s.withSlot i (some (r.raisedAgain l))).fillSnapshot c n (some i) x).slotAt i
          = some (r.raisedAgain l) := by
        rw [fillSnapshot_slotAt]
        simp
      obtain ⟨y, h1, h2, h3, h4⟩ := pump_unseen
        (restless_congr mild_beaconUpdate.mode beaconUpdate_slotAt (unseen_slot hr hu))
        ((beaconUpdate_slotAt i).trans hr) hu
      exact ⟨i, y, h1, h2.trans hm.1, h3.trans hm.2, h4⟩
    · obtain ⟨y, h1, h2, h3, h4⟩ := told i _ hu
      exact ⟨i, y, h1, h2.trans hm.1, h3.trans hm.2, h4⟩
  | none =>
    simp only []
    cases he : s.emptySlot with
    | some i =>
      left
      have one := fun lv => told i (s.newRecord c n lv) rfl
      cases l
      · exact ⟨i, one _⟩
      · exact ⟨i, one _⟩
    | none =>
      refine .inr ⟨?_, rfl, trivial⟩
      unfold State.beaconUpdate State.fillSnapshot
      dsimp only
      split <;> split <;> rfl

theorem raise_findRecord (s : State) (c : Cause) (n : Nat) (l : Option Level) (x : Option ChanInfo) :
    ((s.raiseWith c n l x).findRecord c n).isSome = true ∨ (s.raiseWith c n l x).alert.overflow = true := by
  rcases raise_recorded s c n l x with ⟨i, r, h, rfl, rfl, _⟩ | h
  · exact .inl (findRecord_of_slot h)
  · exact .inr h.1

/-! ## Channels -/

/-- No copy is taken in a state that does not allow it, nor where none is held aside. -/
theorem takeAside_id (x : Channel) (h : x.state.replaceable = false ∨ x.aside = none) : x.takeAside = x := by
  unfold Channel.takeAside
  split
  · rename_i e
    rcases h with h | h
    · rw [h]
      rfl
    · rw [h] at e
      cases e
  · rfl

theorem restless_changeChan (c : Fin 4) (x : Channel) (h : s.Restless) : (s.changeChan c x).Restless := by
  refine restless_congr (s := s) ?_ (fun i => changeChan_slotAt c x i) h
  rw [changeChan_restless c x h]
  rfl

/-- What the report of an ended profile leaves alone, and what it does to the channel. -/
theorem report_spec (c : Fin 4) (ch : Channel) (o : EndOutcome) (h : s.Restless) :
    (s.report c ch o).Restless ∧ (s.report c ch o).mode = s.mode ∧ (s.report c ch o).effect = s.effect ∧
      (s.report c ch o).mgmt = s.mgmt ∧ (s.report c ch o).mem.words = s.mem.words ∧
      (s.report c ch o).motion.guards = s.motion.guards ∧ (s.report c ch o).motion.owed = s.motion.owed ∧
      (∀ d, d ≠ c → (s.chan d).state ≠ .halted → (s.chan d).state ≠ .fault →
        (s.report c ch o).chan d = s.chan d) ∧
      ∃ x : State, Mild s x ∧ (s.report c ch o).chan c =
        if ch.profile = none then s.chan c
        else { x.chan c with profile := none, clamped := false } := by
  unfold State.report
  cases hp : ch.profile with
  | none => exact ⟨h, rfl, rfl, rfl, rfl, rfl, rfl, fun _ _ _ _ => rfl, s, .refl s, by simp⟩
  | some p =>
    dsimp only
    have key : ∀ a : State, Mild s a ∧ a.Restless → ∀ b, b = a.offerTrigger (.localDone c o p) →
        ∀ t, t = b.withChan c { b.chan c with profile := none, clamped := false } →
        t.Restless ∧ t.mode = s.mode ∧ t.effect = s.effect ∧ t.mgmt = s.mgmt ∧
          t.mem.words = s.mem.words ∧ t.motion.guards = s.motion.guards ∧ t.motion.owed = s.motion.owed ∧
          (∀ d, d ≠ c → (s.chan d).state ≠ .halted → (s.chan d).state ≠ .fault →
            t.chan d = s.chan d) ∧
          ∃ x : State, Mild s x ∧ t.chan c =
            if some p = none then s.chan c
            else { x.chan c with profile := none, clamped := false } := by
      intro a ha b hb t ht
      obtain ⟨q, d, ac, po, w, e⟩ := offerTrigger_eq a (.localDone c o p)
      rw [e] at hb
      subst hb
      subst ht
      have m := ha.1
      refine ⟨restless_congr (s := a) rfl (fun _ => rfl) ha.2, m.mode, m.effect, m.mgmt, ?_, m.guards,
        m.owed, ?_, a, m, ?_⟩
      · show a.mem.words = _
        rw [m.mem]
      · intro d hd h1 h2
        rw [chan_withChan, if_neg hd]
        exact m.chans d h1 h2
      · rw [chan_withChan, if_pos rfl, if_neg (by simp)]
        rfl
    have mo := mild_offerOwn (s := s)
      (s.ownFrame 0x12 (donePayload c p o ch.clamped ch.position)) h
    have pick : ∀ b : Bool, (fun a : State => Mild s a ∧ a.Restless)
        (if b = true then s.offerOwn (s.ownFrame 0x12 (donePayload c p o ch.clamped ch.position)) else s) := by
      intro b
      cases b
      · exact ⟨.refl s, h⟩
      · exact mo
    exact key _ (pick _) _ rfl _ rfl

/-- At a tick under no guard that stands open while it reads CLOSED, no guard opens. -/
theorem tickGuards_closed {c : Fin 4} (h : ∀ g : Fin 4, (s.chan c).guardMap.getLsbD g.val = true →
    (s.guardIn g).pin = true → (s.guardIn g).isOpen = true) : s.tickGuards c = s := by
  have k : ∀ g, s.guardStandsOpen c g = false := by
    intro g
    have := h g
    unfold State.guardStandsOpen
    cases h1 : (s.chan c).guardMap.getLsbD g.val <;> cases h2 : (s.guardIn g).pin <;> simp_all
  simp [State.tickGuards, four, k]

/-! ## Frames from the gallery head -/

theorem answer_straps (t n : Nat) (r : ResultCode) (ws : List Word) : (s.answer t n r ws).straps = s.straps :=
  (calm_answer (s := s) t n r ws).straps

theorem takePut_straps (p : List Byte) : (s.takePut p).straps = s.straps := by
  unfold State.takePut
  split
  · rfl
  · split
    · exact answer_straps _ _ _ _
    · unfold State.runPut
      dsimp only
      split
      · split
        · unfold State.beginSave State.issueFlash
          split <;> rfl
        · rw [answer_straps]
          exact (calm_clearCommand (s := s) _).straps
      · split
        · exact (calm_arbitrate _).straps
        · exact answer_straps _ _ _ _

/-- A good frame of the gallery head is acted on where it is admitted, and passed on. -/
theorem receive_head {k : Byte} {env : Envelope} {p : List Byte} (hk : frameKinds.contains k = true)
    (hb : s.ring.bypass = false) (hs : env.src = 0) (ha : s.address ≠ 0) (hp : p.length ≤ 32) :
    s.receive (frameOf k env p) = (s.trailing.actIfAdmitted (frameOf k env p)).passOn (frameOf k env p) := by
  have hg : (frameOf k env p).good = true := by
    simp only [Frame.good, frameOf, hk, hs]
    simp
    exact hp
  have h0 : ¬ (frameOf k env p).src = s.trailing.address := fun h => ha (h.symm.trans hs)
  unfold State.receive
  rw [if_neg (by simp [hb]), if_pos hg]
  unfold State.goodFrame
  rw [if_neg h0]

/-- A PUT or PEEK to the node is taken by the management unit and consumed. -/
theorem receive_request {k : Byte} {env : Envelope} {p : List Byte} (hk : k = 0x04 ∨ k = 0x05)
    (hb : s.ring.bypass = false) (hs : env.src = 0) (ha : s.address ≠ 0) (hp : p.length ≤ 32)
    (hd : env.dst = s.address) :
    s.receive (frameOf k env p) = if k = 0x04 then s.trailing.takePut p else s.trailing.takePeek p := by
  rw [receive_head (by rcases hk with rfl | rfl <;> rfl) hb hs ha hp]
  have hd' : s.trailing.address = s.address := rfl
  have e : s.trailing.actIfAdmitted (frameOf k env p)
      = if k = 0x04 then s.trailing.takePut p else s.trailing.takePeek p := by
    rcases hk with rfl | rfl <;>
      simp [State.actIfAdmitted, State.admits, frameOf, hs, hd, State.act, hd']
  rw [e]
  unfold State.passOn
  rw [if_pos]
  have key : ∀ t : State, t.straps = s.straps → (frameOf k env p).dst = t.address := by
    intro t h
    simp [frameOf, State.address, h, hd]
  apply key
  rcases hk with rfl | rfl
  · exact takePut_straps p
  · exact (calm_takePeek s.trailing p).straps

/-! ## Image words -/

/-- A word within a region lies in it (R153). -/
theorem regionOf_of_bounds {i t : Nat} (ht : t < 8) (h0 : regionFirst t ≤ i)
    (h1 : i < regionFirst t + regionWords t) : regionOf i = t := by
  unfold regionOf
  interval_cases t <;> simp only [regionFirst, regionWords] at h0 h1 <;> split_ifs <;> omega

/-- What a load stores of a word of region `t`: its field bits by the rules of its place (R179). -/
theorem imageWord_of_bounds {i t : Nat} (w : Word) (ht : t < 8) (h0 : regionFirst t ≤ i)
    (h1 : i < regionFirst t + regionWords t) :
    imageWord i w = w &&& fieldBits
      (wordRules t ((i - regionFirst t) % entryWords t) (i - regionFirst t) false w) := by
  simp only [imageWord, regionOf_of_bounds ht h0 h1]

end Sys2Proof.Machine
end

