-- ==== Sys2Proof/Laws/PerInstr.lean ====
section
/-! SUPPORT. One lemma per command about its operands: a command that stands for a frame of the line is
well formed exactly when the ring port finds that frame good (R4, R10). -/
namespace Sys2Proof.Laws

/-- The frame a command stands for, where it stands for one (section 11.2; R172 for the four commands). -/
def Shape.frame : Instr → Option Machine.Frame
  | .goodFrame k e p => some (Machine.frameOf k e p)
  | .restart e p => some (Machine.frameOf 0x06 e p)
  | .pulse e p => some (Machine.frameOf 0x01 e p)
  | .cue e p => some (Machine.frameOf 0x02 e p)
  | .tap e p => some (Machine.frameOf 0x11 e p)
  | .done e p => some (Machine.frameOf 0x12 e p)
  | .hush e p => some (Machine.frameOf 0x03 e p)
  | .put e p => some (Machine.frameOf 0x04 e p)
  | .peek e p => some (Machine.frameOf 0x05 e p)
  | .save e w => some (Machine.frameOf 0x04 e (Machine.commandPayload 0 w))
  | .clearLineRecord e w => some (Machine.frameOf 0x04 e (Machine.commandPayload 1 w))
  | .clearFirstFault e w => some (Machine.frameOf 0x04 e (Machine.commandPayload 2 w))
  | .clearMemoryLog e w => some (Machine.frameOf 0x04 e (Machine.commandPayload 3 w))
  | _ => none

/-- A command that stands for a frame is well formed exactly when that frame is good. -/
def Shape.Statement (i : Instr) : Prop := ∀ f, Shape.frame i = some f → i.wellFormed = f.good

/-- A command that stands for no frame. -/
theorem Shape.of_none {i : Instr} (h : Shape.frame i = none) : Shape.Statement i := by
  intro f hf; rw [h] at hf; cases hf

/-- A command that stands for a frame. -/
theorem Shape.of_some {i : Instr} {f : Machine.Frame} (h : Shape.frame i = some f)
    (w : i.wellFormed = f.good) : Shape.Statement i := by
  intro g hg; rw [h] at hg; cases hg; exact w

/-- A frame of one of the kinds is good exactly when its source and length are in range. -/
theorem Shape.frameOf_good (k : Byte) (e : Envelope) (p : List Byte) :
    (Machine.frameOf k e p).good = (frameKinds.contains k && goodOperands e p) :=
  Bool.and_assoc _ _ _

/-- A frame of a kind that exists is good exactly when its source and length are in range. -/
theorem Shape.kind_good {k : Byte} (h : frameKinds.contains k = true) (e : Envelope) (p : List Byte) :
    (Machine.frameOf k e p).good = goodOperands e p := by
  rw [Shape.frameOf_good, h]; rfl

/-- The PUT of a command is good exactly when its source is in range. -/
theorem Shape.command_good (n : Nat) (e : Envelope) (w : Word) :
    (Machine.frameOf 0x04 e (Machine.commandPayload n w)).good = decide (e.src.toNat ≤ 120) := by
  simp [Machine.frameOf, Machine.Frame.good, frameKinds, Machine.commandPayload, Machine.wordBytes,
    Machine.bytesBE, Config.payloadMax]

theorem Shape.powerUp (straps : Straps) : Shape.Statement (.powerUp straps) := Shape.of_none rfl
theorem Shape.pinReset (straps : Straps) : Shape.Statement (.pinReset straps) := Shape.of_none rfl
theorem Shape.loadHeaderRead (header : List Byte) : Shape.Statement (.loadHeaderRead header) :=
    Shape.of_none rfl
theorem Shape.loadWordRead (data : Word) : Shape.Statement (.loadWordRead data) := Shape.of_none rfl
theorem Shape.restart (env : Envelope) (payload : List Byte) :
    Shape.Statement (.restart env payload) :=
    Shape.of_some rfl (Shape.kind_good (by decide) _ _).symm
theorem Shape.badFrame (cause : BadFrameCause) : Shape.Statement (.badFrame cause) :=
    Shape.of_none rfl
theorem Shape.goodFrame (kind : Byte) (env : Envelope) (payload : List Byte) :
    Shape.Statement (.goodFrame kind env payload) :=
    Shape.of_some rfl (Shape.frameOf_good _ _ _).symm
theorem Shape.pulse (env : Envelope) (payload : List Byte) : Shape.Statement (.pulse env payload) :=
    Shape.of_some rfl (Shape.kind_good (by decide) _ _).symm
theorem Shape.cue (env : Envelope) (payload : List Byte) : Shape.Statement (.cue env payload) :=
    Shape.of_some rfl (Shape.kind_good (by decide) _ _).symm
theorem Shape.tap (env : Envelope) (payload : List Byte) : Shape.Statement (.tap env payload) :=
    Shape.of_some rfl (Shape.kind_good (by decide) _ _).symm
theorem Shape.done (env : Envelope) (payload : List Byte) : Shape.Statement (.done env payload) :=
    Shape.of_some rfl (Shape.kind_good (by decide) _ _).symm
theorem Shape.hush (env : Envelope) (payload : List Byte) : Shape.Statement (.hush env payload) :=
    Shape.of_some rfl (Shape.kind_good (by decide) _ _).symm
theorem Shape.put (env : Envelope) (payload : List Byte) : Shape.Statement (.put env payload) :=
    Shape.of_some rfl (Shape.kind_good (by decide) _ _).symm
theorem Shape.putWordWrite : Shape.Statement (.putWordWrite) := Shape.of_none rfl
theorem Shape.peek (env : Envelope) (payload : List Byte) : Shape.Statement (.peek env payload) :=
    Shape.of_some rfl (Shape.kind_good (by decide) _ _).symm
theorem Shape.peekWordRead : Shape.Statement (.peekWordRead) := Shape.of_none rfl
theorem Shape.save (env : Envelope) (data : Word) : Shape.Statement (.save env data) :=
    Shape.of_some rfl (Shape.command_good _ _ _).symm
theorem Shape.clearLineRecord (env : Envelope) (data : Word) :
    Shape.Statement (.clearLineRecord env data) :=
    Shape.of_some rfl (Shape.command_good _ _ _).symm
theorem Shape.clearFirstFault (env : Envelope) (data : Word) :
    Shape.Statement (.clearFirstFault env data) :=
    Shape.of_some rfl (Shape.command_good _ _ _).symm
theorem Shape.clearMemoryLog (env : Envelope) (data : Word) :
    Shape.Statement (.clearMemoryLog env data) :=
    Shape.of_some rfl (Shape.command_good _ _ _).symm
theorem Shape.saveEraseDone (failed : Bool) : Shape.Statement (.saveEraseDone failed) :=
    Shape.of_none rfl
theorem Shape.saveWordRead : Shape.Statement (.saveWordRead) := Shape.of_none rfl
theorem Shape.saveProgramDone (failed : Bool) : Shape.Statement (.saveProgramDone failed) :=
    Shape.of_none rfl
theorem Shape.saveVerifyRead (flashWord : Word) : Shape.Statement (.saveVerifyRead flashWord) :=
    Shape.of_none rfl
theorem Shape.saveHeaderDone (readBack : List Byte) : Shape.Statement (.saveHeaderDone readBack) :=
    Shape.of_none rfl
theorem Shape.flashTimeout : Shape.Statement (.flashTimeout) := Shape.of_none rfl
theorem Shape.transmitterFree : Shape.Statement (.transmitterFree) := Shape.of_none rfl
theorem Shape.waitingFrameJoin : Shape.Statement (.waitingFrameJoin) := Shape.of_none rfl
theorem Shape.lineLossExpiry : Shape.Statement (.lineLossExpiry) := Shape.of_none rfl
theorem Shape.clockSecond : Shape.Statement (.clockSecond) := Shape.of_none rfl
theorem Shape.cueRead : Shape.Statement (.cueRead) := Shape.of_none rfl
theorem Shape.start (c : Fin 4) (p : Fin 32) : Shape.Statement (.start c p) := Shape.of_none rfl
theorem Shape.stop (mask : BitVec 4) : Shape.Statement (.stop mask) := Shape.of_none rfl
theorem Shape.home (mask : BitVec 4) : Shape.Statement (.home mask) := Shape.of_none rfl
theorem Shape.effect (o : Fin 8) (target : Int) (fade : BitVec 16) :
    Shape.Statement (.effect o target fade) :=
    Shape.of_none rfl
theorem Shape.call (code : Fin 16) (level : Level) : Shape.Statement (.call code level) :=
    Shape.of_none rfl
theorem Shape.lock (mask : BitVec 16) : Shape.Statement (.lock mask) := Shape.of_none rfl
theorem Shape.unlock (mask : BitVec 16) : Shape.Statement (.unlock mask) := Shape.of_none rfl
theorem Shape.buttonSettingsRead : Shape.Statement (.buttonSettingsRead) := Shape.of_none rfl
theorem Shape.channelSettingsRead : Shape.Statement (.channelSettingsRead) := Shape.of_none rfl
theorem Shape.effectSettingsRead : Shape.Statement (.effectSettingsRead) := Shape.of_none rfl
theorem Shape.alertSettingsRead : Shape.Statement (.alertSettingsRead) := Shape.of_none rfl
theorem Shape.localPlayRead : Shape.Statement (.localPlayRead) := Shape.of_none rfl
theorem Shape.prefetchRead : Shape.Statement (.prefetchRead) := Shape.of_none rfl
theorem Shape.scrubTimerExpiry : Shape.Statement (.scrubTimerExpiry) := Shape.of_none rfl
theorem Shape.scrubAccess : Shape.Statement (.scrubAccess) := Shape.of_none rfl
theorem Shape.channelTick (c : Fin 4) : Shape.Statement (.channelTick c) := Shape.of_none rfl
theorem Shape.arrival (c : Fin 4) : Shape.Statement (.arrival c) := Shape.of_none rfl
theorem Shape.dwellEnd (c : Fin 4) : Shape.Statement (.dwellEnd c) := Shape.of_none rfl
theorem Shape.stopComplete (c : Fin 4) : Shape.Statement (.stopComplete c) := Shape.of_none rfl
theorem Shape.homeFound (c : Fin 4) : Shape.Statement (.homeFound c) := Shape.of_none rfl
theorem Shape.searchExhausted (c : Fin 4) : Shape.Statement (.searchExhausted c) :=
    Shape.of_none rfl
theorem Shape.guardOpening (g : Fin 4) : Shape.Statement (.guardOpening g) := Shape.of_none rfl
theorem Shape.guardClosing (g : Fin 4) : Shape.Statement (.guardClosing g) := Shape.of_none rfl
theorem Shape.driverFault (c : Fin 4) : Shape.Statement (.driverFault c) := Shape.of_none rfl
theorem Shape.faultInputCleared (c : Fin 4) : Shape.Statement (.faultInputCleared c) :=
    Shape.of_none rfl
theorem Shape.farLimit (c : Fin 4) : Shape.Statement (.farLimit c) := Shape.of_none rfl
theorem Shape.farCleared (c : Fin 4) : Shape.Statement (.farCleared c) := Shape.of_none rfl
theorem Shape.acceptedClosure (b : Fin 16) : Shape.Statement (.acceptedClosure b) :=
    Shape.of_none rfl
theorem Shape.acceptedRelease (b : Fin 16) : Shape.Statement (.acceptedRelease b) :=
    Shape.of_none rfl
theorem Shape.holdTimeReached (b : Fin 16) : Shape.Statement (.holdTimeReached b) :=
    Shape.of_none rfl
theorem Shape.stuckTimeReached (b : Fin 16) : Shape.Statement (.stuckTimeReached b) :=
    Shape.of_none rfl
theorem Shape.refillExpiry (b : Fin 16) : Shape.Statement (.refillExpiry b) := Shape.of_none rfl
theorem Shape.fadeStep (o : Fin 8) : Shape.Statement (.fadeStep o) := Shape.of_none rfl
theorem Shape.deadTimerExpiry (k : Fin 4) : Shape.Statement (.deadTimerExpiry k) :=
    Shape.of_none rfl
theorem Shape.carrierPeriodStart : Shape.Statement (.carrierPeriodStart) := Shape.of_none rfl
theorem Shape.escalationExpiry (slot : Fin 16) : Shape.Statement (.escalationExpiry slot) :=
    Shape.of_none rfl
theorem Shape.keyClosure : Shape.Statement (.keyClosure) := Shape.of_none rfl
theorem Shape.characterReceived (ch : LineChar) : Shape.Statement (.characterReceived ch) :=
    Shape.of_none rfl
theorem Shape.inputSample (input : Input) (active : Bool) :
    Shape.Statement (.inputSample input active) :=
    Shape.of_none rfl
theorem Shape.resetRelease : Shape.Statement (.resetRelease) := Shape.of_none rfl
theorem Shape.lampPatternPhase (pattern : LampPattern) :
    Shape.Statement (.lampPatternPhase pattern) :=
    Shape.of_none rfl
theorem Shape.beaconPatternPhase (output : AlertOutput) :
    Shape.Statement (.beaconPatternPhase output) :=
    Shape.of_none rfl

end Sys2Proof.Laws
end

