-- ==== Sys2Proof/Tests/Slice0.lean ====
section
/-! SUPPORT. Tests of the model: the operand checks, values that the manual's worked examples and tables give, one
or two steps of each command, and for each statement with hypotheses a state and operands that meet them. -/
namespace Sys2Proof.Tests
open Sys2Proof Sys2Proof.Machine

/-! ## Operand checks: a term that each check refuses -/

/-- The envelope of a frame from the head to node 1. -/
def toOne : Envelope := ⟨1, 0, 5⟩

/-- The envelope of a broadcast from the head. -/
def toAll : Envelope := ⟨127, 0, 5⟩

/-- The envelope of a frame from a source above 120. -/
def fromNowhere : Envelope := ⟨1, 121, 5⟩

theorem test_ill_formed_header_lengths :
    (Instr.loadHeaderRead []).wellFormed = false ∧ (Instr.saveHeaderDone []).wellFormed = false := by
  decide

theorem test_ill_formed_good_frames :
    (Instr.goodFrame 0x07 toOne []).wellFormed = false ∧
    (Instr.goodFrame 0x13 fromNowhere []).wellFormed = false ∧
    (Instr.goodFrame 0x13 toOne (List.replicate 33 0)).wellFormed = false := by decide

theorem test_ill_formed_sources :
    (Instr.restart fromNowhere []).wellFormed = false ∧
    (Instr.pulse fromNowhere []).wellFormed = false ∧
    (Instr.cue fromNowhere []).wellFormed = false ∧ (Instr.tap fromNowhere []).wellFormed = false ∧
    (Instr.done fromNowhere []).wellFormed = false ∧ (Instr.hush fromNowhere []).wellFormed = false ∧
    (Instr.put fromNowhere []).wellFormed = false ∧ (Instr.peek fromNowhere []).wellFormed = false ∧
    (Instr.save fromNowhere 0).wellFormed = false ∧
    (Instr.clearLineRecord fromNowhere 0).wellFormed = false ∧
    (Instr.clearFirstFault fromNowhere 0).wellFormed = false ∧
    (Instr.clearMemoryLog fromNowhere 0).wellFormed = false := by decide

/-- A payload one byte too long. -/
def longPayload : List Byte := List.replicate 33 0

theorem test_ill_formed_payloads :
    (Instr.restart toOne longPayload).wellFormed = false ∧
    (Instr.pulse toOne longPayload).wellFormed = false ∧
    (Instr.cue toOne longPayload).wellFormed = false ∧ (Instr.tap toOne longPayload).wellFormed = false ∧
    (Instr.done toOne longPayload).wellFormed = false ∧
    (Instr.hush toOne longPayload).wellFormed = false ∧
    (Instr.put toOne longPayload).wellFormed = false ∧
    (Instr.peek toOne longPayload).wellFormed = false := by decide

theorem test_ill_formed_effect_targets :
    (Instr.effect 0 256 0).wellFormed = false ∧ (Instr.effect 0 (-256) 0).wellFormed = false ∧
    (Instr.effect 0 (-255) 0).wellFormed = true := by decide

/-! ## Small states -/

/-- The state a command leaves. -/
def after (c : Instr) (s : State) : State :=
  match exec c s with
  | .next t => t
  | .fault _ => s
  | .refused _ => s

/-- A frame in transmission, so that the transmitter chooses nothing. -/
def note : Frame := ⟨0x15, 0, 1, 127, []⟩

/-- A loaded node at address 1 in the ring, ACTIVE in OPEN, with a frame in transmission. -/
def live : State :=
  { State.reset with
    sampling := true, ring.bypass := false, ring.assembler := ⟨.trailing, []⟩
    ring.sending := some note, mode.mode := .opened, mode.node := .active, mgmt.image := .loaded }

/-- The channel of sections 5.13 and 6.9: LINEAR, travel limit 12,000, start speed 125 steps/s. -/
def linear : ChannelSettings :=
  { enabled := true, rotary := false, homeOutward := false, attend := true, holdsPosition := true
    autoHome := true, reportDone := true, invert := false, lossFinish := true, policy := .queue
    guardMap := 4, park := none, quietPercent := 50, travel := 12000, startSpeed := 125
    homeSpeed := 250, searchLimit := 3 }

/-- The segment of section 6.9. -/
def shortMove : Segment := { kind := .byDistance, target := 200, cruise := 1000, dwell := 0, accel := 15625 }

/-- A channel with the settings above, IDLE at 4,000. -/
def idleChan : Channel := { Channel.reset with held := .copy linear, state := .idle, position := 4000 }

/-- The channel of section 6.9 with its segment current, before tick 1. -/
def movingChan : Channel :=
  { idleChan with
    state := .moving, profile := some 3, dir := some ⟨10, 1, 1⟩, current := some shortMove
    vc := 65536, accel := 1024, vs := 8192, v := 8192, rem := 200, outward := true }

/-- Channel 1 holds a record. -/
def withOne (ch : Channel) : State := live.withChan 1 ch

/-- The button of section 4.8. -/
def plain : ButtonSettings :=
  { enabled := true, help := false, reportTap := true, lampChannel := none, debounce := 20, hold := 0
    stuck := 10, allowance := 3, rough := 2, refill := 20 }

/-- Button 7 in a state. -/
def withSeven (x : Button) : State := live.withBtn 7 x

/-- The button of section 4.8 with a count of presses left. -/
def pressed (n : Nat) : Button :=
  { Button.reset with held := .copy plain, primed := true, allowance := some n }

/-- A record in slot 0. -/
def record (c : Cause) (st : RecState) (present : Bool) : Record :=
  { cause := c, subject := 2, level := .attend, state := st, condition := present, due := true
    repeats := 0, escalations := 0, raisedAt := 0, timer := none }

/-- The node with a record in slot 0. -/
def withRecord (r : Record) : State := live.withSlot 0 (some r)

/-! ## Values of the manual -/

/-- The published check value of the CRC of section 1.2, over the characters 1 to 9. -/
theorem test_crc16_check : crc16 [49, 50, 51, 52, 53, 54, 55, 56, 57] = 0x29B1#16 := by decide +kernel

/-- The published check value of the CRC-32 of section 10.5, over the characters 1 to 9. -/
theorem test_crc32_check :
    crc32Final (crc32Add crc32Init [49, 50, 51, 52, 53, 54, 55, 56, 57]) = 0xCBF43926#32 := by
  decide +kernel

/-- R157: data bit 0 has syndrome 7, data bit 31 has 98. -/
theorem test_check_bits : checkBits 1 = 7 ∧ checkBits 0x80000000 = 98 := by decide

/-- R157: one upset data bit and one upset check bit read corrected, two upset bits uncorrectable. -/
theorem test_classify :
    classify (encodeWord 5 ^^^ 1#39 <<< 31) = (.corrected, 5) ∧
    classify (encodeWord 5 ^^^ 1#39 <<< 38) = (.corrected, 5) ∧
    (classify (encodeWord 5 ^^^ 3#39)).1 = .uncorrectable := by decide

/-- Section 6.9: the conversions of R107. -/
theorem test_conversions :
    convCruise .opened 50 1000 = 65536 ∧ convAccel 15625 = 1024 ∧ convSpeed 125 = 8192 := by decide

/-- Section 6.10: the ceiling in QUIET. -/
theorem test_quiet_ceiling : convCruise .quiet 50 1000 = 32768 := by decide

/-- Section 5.14: targets on a ROTARY channel of wrap length 3,200: distance and clamping. -/
theorem test_rotary_targets :
    segmentDistance true 3200 3000 { shortMove with kind := .goto, target := 200 } = (400, false) ∧
    segmentDistance true 3200 200 { shortMove with kind := .goto, target := -100 } = (2900, false) ∧
    segmentDistance true 3200 3100 { shortMove with target := -500 } = (-500, false) := by decide

/-- Section 5.14: targets on a LINEAR channel of travel limit 12,000. -/
theorem test_linear_targets :
    segmentDistance false 12000 11800 { shortMove with target := 800 } = (200, true) ∧
    segmentDistance false 12000 12000 { shortMove with kind := .goto, target := -40 } =
      (-12000, true) := by decide

/-! ## One step of each command -/

/-- R22, R178: what POWER_UP and PIN_RESET leave; the line record survives a PIN reset alone. -/
theorem test_power_up : (after (.powerUp ⟨7, 1⟩) live).straps = ⟨7, 1⟩ ∧
    (after (.powerUp ⟨7, 1⟩) live).ring.bypass = true := by decide

theorem test_pin_reset :
    (after (.pinReset ⟨7, 1⟩) live.countBadFrame).ring.record.badFrames = 1 ∧
    (after (.powerUp ⟨7, 1⟩) live.countBadFrame).ring.record.badFrames = 0 := by decide

/-- R173: the load begins at the release of the reset. -/
theorem test_reset_release : (after .resetRelease State.reset).mgmt.image = .loading := by decide

/-- R182: a header whose version differs fails the load; the blank ring hop limit is 127. -/
theorem test_load_header : headerOk (headerBytes 0) = true ∧
    headerOk ((headerBytes 0).set 4 2) = false := by decide

/-- R173, R179: an image word is written with its check bits, its bits of no field as 0 (local-play is bit 0). -/
theorem test_load_word :
    (after (.loadWordRead 0x80000003) { State.reset with
      mgmt.image := .loading, mgmt.load := .words 3 0 0 }).mem.words = [(3, encodeWord 1)] := by decide

/-- Section 11.3: an action word keeps the operands of its kind (a STOP with mask 5). -/
theorem test_image_action_word : imageWord 146 0x1FFFFFF5 = 0x10000005 := by decide

/-- R23: a RESTART sends a READY with reset cause 2 (RESTART), image state 2, part code 416, revision 1. -/
theorem test_restart :
    ((after (.restart toOne []) live).ring.insertion.map fun f => f.payload) = [[2, 2, 1, 160, 1]] := by
  decide

/-- R5: a bad frame is counted. -/
theorem test_bad_frame :
    (after (.badFrame .crc) live).ring.record.badFrames = 1 ∧
    (after (.badFrame (.short 9)) live).ring.assembler = ⟨.collecting, [9]⟩ := by decide

/-- R6 to R8: stripped, expired, relayed with the hop count one less. -/
theorem test_good_frame :
    (after (.goodFrame 0x13 ⟨0, 1, 5⟩ []) live).ring.relay = [] ∧
    (after (.goodFrame 0x13 ⟨0, 2, 5⟩ []) live).ring.relay = [⟨0x13, 0, 2, 4, []⟩] ∧
    (after (.goodFrame 0x13 ⟨0, 2, 0⟩ []) live).ring.record.hopExpiries = 1 := by decide

/-- R2: a marked character begins a frame. -/
theorem test_character :
    (after (.characterReceived (.marked 1)) live).ring.assembler = ⟨.collecting, [1]⟩ := by decide

/-- R24, R28: mode 2 (QUIET) and time 36,000. -/
theorem test_pulse :
    (after (.pulse toAll [2, 0, 140, 160]) live).mode.mode = .quiet ∧
    (after (.pulse toAll [2, 0, 140, 160]) live).mode.clock = 36000 := by decide

/-- R37, R39: a CUE, a TAP and a DONE begin a dispatch. -/
theorem test_cue :
    (after (.cue toAll [9]) live).cue.dispatch = .scanning (.lineCue 9) 0 [] := by decide

theorem test_tap :
    (after (.tap ⟨0, 2, 5⟩ [3, 1, 0, 9]) live).cue.dispatch = .scanning (.peerTap 2 3 .hold) 0 [] ∧
    (after (.tap ⟨0, 2, 5⟩ [16, 1, 0, 9]) live).cue.dispatch = .idle := by decide

theorem test_done :
    (after (.done ⟨0, 2, 5⟩ [3, 31, 0, 0, 0, 0, 0]) live).cue.dispatch =
      .scanning (.peerDone 2 3 .completed 31) 0 [] := by decide

/-- R145: a HUSH acknowledges its slot. -/
theorem test_hush :
    ((after (.hush toOne [0]) (withRecord (record .guardOpen .called true))).slotAt 0).map
      (fun r => r.state) = some .acknowledged := by decide

/-- R167: a PUT to view 16 is READ-ONLY (6), a PEEK of table 31 NO-TABLE (7). -/
theorem test_put :
    ((after (.put toOne [16, 0, 0, 1, 0, 0, 0, 0]) live).ring.insertion.map fun f => f.payload) =
      [[16, 0, 0, 6]] := by decide

theorem test_peek :
    ((after (.peek toOne [31, 0, 0, 1]) live).ring.insertion.map fun f => f.payload) =
      [[31, 0, 0, 7]] := by decide

/-- R169, R171: a ring hop limit of 1 is stored as 2, and the ANSWER is CLAMPED (1). -/
theorem test_put_word_write :
    ((after .putWordWrite (after (.put toOne [0, 0, 0, 1, 0, 50, 0, 1]) live)).ring.insertion.map
      fun f => f.payload) = [[0, 0, 0, 1, 0, 50, 0, 2]] := by decide

/-- R168: the words read for a PEEK. -/
theorem test_peek_word_read :
    ((after .peekWordRead (after (.peek toOne [1, 0, 4, 1]) live)).ring.insertion.map
      fun f => f.payload) = [[1, 0, 4, 0, 0, 0, 0, 0]] := by decide

/-- R172, R175: SAVE and the three clears. -/
theorem test_save : (after (.save toOne 0) live).mgmt.image = .saving ∧
    (after (.save toOne 0) live).mgmt.flashBusy = some (.erase 0) := by decide

theorem test_clears :
    (after (.clearLineRecord toOne 0) live.countBadFrame).ring.record = .zero ∧
    (after (.clearFirstFault toOne 0) { live with
      alert.snapshot := some ⟨.help, 2, 0, none, none⟩ }).alert.snapshot = none ∧
    (after (.clearMemoryLog toOne 0) { live with mem.passes := 3 }).mem.passes = 0 := by decide

/-- The node with a save at a step. -/
def saving (st : SaveStep) (op : Option FlashOp) : State :=
  { live with
    mgmt.image := .saving, mgmt.flashBusy := op
    mgmt.save := some ⟨st, 0xFFFFFFFF#32, [], .loaded, true⟩ }

/-- R175: the next sector is erased, the next unit read. -/
theorem test_save_erase_done :
    (after (.saveEraseDone false) (saving (.erase 0) (some (.erase 0)))).mgmt.flashBusy =
      some (.erase 1) := by decide

/-- R176: a failed erase. -/
theorem test_save_erase_failed :
    (after (.saveEraseDone true) (saving (.erase 0) (some (.erase 0)))).mgmt.image = .loadFailed := by
  decide

theorem test_save_program_done :
    (after (.saveProgramDone false) (saving (.program 3) (some (.program 3 [])))).mem.access =
      some ⟨.saveRead, 56 + 64 * 3, false⟩ := by decide

theorem test_save_word_read :
    ((after .saveWordRead { saving (.program 0) none with
      mem.access := some ⟨.saveRead, 0, false⟩ }).mgmt.save.map fun p => p.buffer) = some [0] := by
  decide

theorem test_save_verify_read :
    (after (.saveVerifyRead 1) { saving (.verify 0) none with
      mem.access := some ⟨.verifyRead, 0, false⟩ }).mgmt.image = .loadFailed := by decide

theorem test_save_header_done :
    (after (.saveHeaderDone (headerBytes 0)) (saving .header
      (some (.programHeader (headerBytes 0))))).mgmt.image = .loaded := by decide

theorem test_flash_timeout :
    (after .flashTimeout (saving .header (some (.programHeader [])))).mgmt.flashNext =
      some (.erase 0) := by decide

/-- R17: the head of the relay buffer goes first. -/
theorem test_transmitter_free :
    (after .transmitterFree { live with ring.relay := [note] }).ring.relayCount = 1 := by decide

theorem test_waiting_frame_join :
    (after .waitingFrameJoin { live with mgmt.waiting := [.ready note] }).ring.insertion = [note] := by
  decide

/-- R28: the clock passes from 86399 to 0. -/
theorem test_clock_second : (after .clockSecond { live with
    mode.clock := 86399, mode.ms := 999 }).mode.clock = 0 := by
  decide

/-- R42: the first condition word is kept. -/
theorem test_cue_read :
    (after .cueRead (after (.cue toAll [9]) live)).cue.dispatch =
      .scanning (.lineCue 9) 0 [⟨0, false⟩] := by decide

/-- R49: a START for an IDLE channel, and for a MOVING one under QUEUE. -/
theorem test_start :
    ((after (.start 1 3) (withOne idleChan)).chan 1).state = .moving ∧
    ((after (.start 1 5) (withOne movingChan)).chan 1).slot = some 5 := by decide

/-- Section 6.11: a STOP at cruise. -/
theorem test_stop :
    ((after (.stop 2) (withOne { movingChan with v := 65536, phi := 61440 })).chan 1).state = .stopping :=
  by decide

/-- Section 6.12: the home velocity of 250 steps/s. -/
theorem test_home :
    ((after (.home 2) (withOne idleChan)).chan 1).vh = 16384 ∧
    ((after (.home 2) (withOne idleChan)).chan 1).rem = 3 := by decide

/-- Section 7.3: a lamp brought up to 200 over 1000 ms. -/
theorem test_effect :
    ((after (.effect 5 200 1000) live).out 5).delta = 52 ∧
    ((after (.fadeStep 5) (after (.effect 5 200 1000) live)).out 5).fine = 52 := by decide

/-- R54: a CALL raises CUED-CALL at its level. -/
theorem test_call :
    ((after (.call 2 .notice) live).slotAt 0).map (fun r => (r.cause, r.subject, r.level)) =
      some (.cuedCall, 2, .notice) := by decide

theorem test_lock :
    ((after (.lock 0x80) (withSeven (pressed 3))).btn 7).lock = true ∧
    ((after (.unlock 0x80) (withSeven { pressed 3 with lock := true })).btn 7).lock = false := by decide

/-- The node with a settings read of its last word in progress. -/
def reading (b : Block) (entry words index : Nat) : State :=
  { live with
    mem.path := [⟨⟨b, entry⟩, List.replicate words ⟨0, false⟩⟩]
    mem.access := some ⟨.settings b, index, false⟩ }

/-- R58, R78, R123, R134, R27: the last word of an entry is taken. -/
theorem test_button_settings_read :
    ((after .buttonSettingsRead (reading .button 7 3 111)).btn 7).enabled = false ∧
    (after .buttonSettingsRead (reading .button 7 3 111)).mem.path = [] := by decide

theorem test_channel_settings_read :
    (after .channelSettingsRead (reading .motion 1 7 47)).mem.path = [] := by decide

theorem test_effect_settings_read :
    ((after .effectSettingsRead (reading .effect 5 1 75)).out 5).held = .copy ⟨0, 0⟩ := by decide

theorem test_alert_settings_read :
    (after .alertSettingsRead (reading .alert 4 0 20)).alert.held[4] = .copy ⟨.notice, 0⟩ := by decide

theorem test_local_play_read :
    (after .localPlayRead { reading .mode 0 0 3 with mode.lineLost := true }).mode.localPlay =
      some false := by decide

/-- R115: a directory word is kept. -/
theorem test_prefetch_read :
    (after .prefetchRead (after (.start 1 3) (withOne idleChan))).motion.fetchWords =
      [⟨0, false⟩] := by decide

/-- R161, R162: the scrubber's request, and a corrected word rewritten. -/
theorem test_scrub_timer :
    (after .scrubTimerExpiry { live with mem.scrubTimer := some 0 }).mem.access =
      some ⟨.scrub, 0, false⟩ := by decide

theorem test_scrub_access :
    (after .scrubAccess { live with
      mem.words := [(0, encodeWord 5 ^^^ 1)], mem.access := some ⟨.scrub, 0, false⟩ }).mem.words =
      [(0, encodeWord 5)] := by decide

/-- Section 6.9, ticks 1, 56 and 194. -/
theorem test_channel_tick :
    ((after (.channelTick 1) (withOne movingChan)).chan 1).v = 9216 ∧
    ((after (.channelTick 1) (withOne { movingChan with
      v := 64512, phi := 61440, rem := 170, position := 4030 })).chan 1).position = 4031 ∧
    ((after (.channelTick 1) (withOne { movingChan with
      v := 65536, phi := 61440, rem := 32, position := 4168 })).chan 1).braking = true := by decide

/-- Section 6.9, tick 250: the arrival completes the profile. -/
theorem test_arrival :
    ((after (.arrival 1) (withOne { movingChan with rem := 0, position := 4200 })).chan 1).state = .idle ∧
    ((after (.arrival 1) (withOne { movingChan with rem := 0, position := 4200 })).chan 1).completed = 1 :=
  by decide

theorem test_dwell_end :
    ((after (.dwellEnd 1) (withOne { movingChan with rem := 0, arrived := true, dwell := 1 })).chan
      1).state = .idle := by decide

/-- Section 6.11, tick 156. -/
theorem test_stop_complete :
    ((after (.stopComplete 1) (withOne { movingChan with
      state := .stopping, v := 8192, position := 4106 })).chan 1).position = 4106 := by decide

/-- Section 6.12. -/
theorem test_home_found :
    ((after (.homeFound 1) (withOne { idleChan with state := .homing })).chan 1).position = 0 := by decide

theorem test_search_exhausted :
    ((after (.searchExhausted 1) (withOne { idleChan with state := .homing })).chan 1).state =
      .unhomed := by decide

/-- Section 5.13: guard 2 opens under a channel at cruise. -/
theorem test_guard_opening :
    ((after (.guardOpening 2) (withOne { movingChan with v := 65536 })).chan 1).state = .halted ∧
    ((after (.guardOpening 2) (withOne { movingChan with v := 65536 })).chan 1).positionLost = true := by
  decide

theorem test_guard_closing :
    ((after (.guardClosing 2) (live.withGuard 2 ⟨true, 9, true⟩)).guardIn 2).isOpen = false := by decide

theorem test_driver_fault :
    ((after (.driverFault 1) (withOne movingChan)).chan 1).state = .fault := by decide

theorem test_fault_input_cleared :
    ((after (.faultInputCleared 1) (withOne { idleChan with
      state := .fault, faultReason := some .driver, faultPin := true })).chan 1).state = .unhomed := by
  decide

theorem test_far_limit :
    ((after (.farLimit 1) (withOne movingChan)).chan 1).faultReason = some .limit ∧
    ((after (.farLimit 1) (withOne idleChan)).chan 1).state = .idle := by decide

theorem test_far_cleared :
    ((after (.farCleared 1) (withOne { idleChan with farPin := true })).chan 1).farPin = false := by decide

/-- Section 4.8: a dispatched press and a spent one. -/
theorem test_accepted_closure :
    ((after (.acceptedClosure 7) (withSeven (pressed 3))).btn 7).allowance = some 2 ∧
    ((after (.acceptedClosure 7) (withSeven (pressed 0))).btn 7).spentRun = 1 := by decide

/-- Section 4.9: a release after 430 ms is a SHORT press of duration 43. -/
theorem test_accepted_release :
    ((after (.acceptedRelease 7) (withSeven { pressed 3 with
      closed := true, phase := .timing, closure := 430 })).ring.insertion.map fun f => f.payload) =
      [[7, 0, 0, 43]] := by decide

/-- Section 4.9: a hold time of 15 makes a HOLD press of duration 150. -/
theorem test_hold_time_reached :
    ((after (.holdTimeReached 7) (withSeven { pressed 3 with
      closed := true, phase := .timing, holdInForce := 15 })).ring.insertion.map fun f => f.payload) =
      [[7, 1, 0, 150]] := by decide

theorem test_stuck_time_reached :
    ((after (.stuckTimeReached 7) (withSeven { pressed 3 with
      closed := true, phase := .settled, stuckTiming := true })).btn 7).phase = .stuck := by decide

/-- Section 4.8, at 8000: the last unit. -/
theorem test_refill_expiry :
    ((after (.refillExpiry 7) (withSeven { pressed 2 with refill := some 0 })).btn 7).refill = none ∧
    ((after (.refillExpiry 7) (withSeven { pressed 1 with refill := some 0 })).btn 7).refill =
      some 2000 := by decide

/-- Section 7.4, tick 281: the pair goes on from 0 with a step of 128; R128: not before the interval has run. -/
theorem test_dead_timer_expiry :
    ((after (.deadTimerExpiry 1) ({ live with effect.pairing := 2 }.withOut 2 { Effect.reset with
      target := -80, remaining := 160, running := true })).out 2).fine = -128 ∧
    ((after (.deadTimerExpiry 1) ({ live with effect.pairing := 2 }.withOut 2 { Effect.reset with
      target := -80, remaining := 160, running := true, dead := 1 })).out 2).dead = 1 := by decide

/-- R124: drive level 101 at 1 kHz is high for 6,337 periods. -/
theorem test_carrier_period_start :
    ((after .carrierPeriodStart ({ live with
      effect.carrier := some .khz1, effect.counting := true }.withOut 5 { Effect.reset with
        fine := 26000 })).out 5).highTime = 6337 := by decide

/-- Section 8.5: an escalation from ATTEND to URGENT. -/
theorem test_escalation_expiry :
    ((after (.escalationExpiry 0) (withRecord { record .guardOpen .called true with
      timer := some 0 })).slotAt 0).map (fun r => (r.level, r.escalations)) = some (.urgent, 1) := by
  decide

/-- Section 8.5: the key acknowledges. -/
theorem test_key_closure :
    ((after .keyClosure { withRecord (record .guardOpen .called true) with
      alert.key.primed := true }).slotAt 0).map (fun r => r.state) = some .acknowledged := by decide

/-- R81: a guard closes at its tenth closed sample. -/
theorem test_input_sample :
    ((after (.inputSample (.guard 2) false) (live.withGuard 2 ⟨true, 8, true⟩)).guardIn 2).count = 9 ∧
    ((after (.inputSample (.guard 2) false) (live.withGuard 2 ⟨true, 9, true⟩)).guardIn 2).isOpen =
      false := by decide

theorem test_patterns :
    (after (.lampPatternPhase .wait) live).button.waitCtr = 500 ∧
    (after (.beaconPatternPhase .beacon) { live with
      alert.beacon := some .attend, alert.beaconOn := true }).alert.beaconOn = false := by decide

/-- R27: LINE-LOST is set and the timer stops. -/
theorem test_line_loss :
    (match exec .lineLossExpiry { live with ring.lossTimer := some 0 } with
      | .next t => t.mode.lineLost && t.ring.lossTimer.isNone
      | .fault _ => false
      | .refused _ => false) = true := by decide

/-- R21, R28: a PULSE first, and neither the expiry nor the second advance that fell together with it happens. -/
theorem test_pulse_before_expiry :
    (let t := after (.pulse toAll [1, 0, 0, 7]) { live with ring.lossTimer := some 0, mode.ms := 999 }
     (after .clockSecond (after .lineLossExpiry t)).mode.lineLost = false ∧
     (after .clockSecond (after .lineLossExpiry t)).mode.clock = 7 ∧
     (after .lineLossExpiry t).ring.lossTimer = t.ring.lossTimer) := by decide

/-! ## Witnesses: for each statement with hypotheses, states and operands that meet those of each clause -/

theorem witness_StepRunsFront :
    ({ live with pending := [.clockSecond, .cueRead] } : State).pending = .clockSecond :: [.cueRead] := by
  decide

theorem witness_EmptyQueueProceeds :
    live.pending = [] ∧ live.workDue = [] ∧
    ({ live with mem.access := some ⟨.cueRead, 144, false⟩ } : State).workDue ≠ [] := by decide

/-- Every queue full and the consecutive-relay count at its greatest. -/
def crowded : State :=
  { live with
    ring.relay := List.replicate 4 note, ring.insertion := List.replicate 8 note, ring.relayCount := 4
    cue.queue := List.replicate 16 (.lineCue 0), cue.dispatch := .scanning (.lineCue 0) 0 [] }

theorem witness_StepKeepsBounded : crowded.Bounded ∧ step crowded = .next crowded.proceed :=
  ⟨⟨by decide, by decide, by decide, by decide⟩, rfl⟩

theorem witness_StepKeepsCanonical :
    ({ live with mem.words := [(0, 1), (2127, 1)] } : State).Canonical ∧
    step { live with mem.words := [(0, 1), (2127, 1)] } =
      .next ({ live with mem.words := [(0, 1), (2127, 1)] } : State).proceed :=
  ⟨by unfold State.Canonical; decide, rfl⟩

theorem witness_StepKeepsGuardsRespected :
    (withOne movingChan).GuardsRespected ∧ ((withOne movingChan).chan 1).enabled = true ∧
    ((withOne movingChan).chan 1).state.inMotion = true ∧
    step (withOne movingChan) = .next (withOne movingChan).proceed :=
  ⟨by unfold State.GuardsRespected; decide, by decide, by decide, rfl⟩

/-- A DORMANT node. -/
def asleep : State :=
  { live.mapChans (fun _ => { idleChan with state := .resting, restState := some .idle }) with
    mode.mode := .closed, mode.node := .dormant }

theorem witness_StepKeepsRest : asleep.RestOk ∧ step asleep = .next asleep.proceed :=
  ⟨⟨by decide, by decide, by decide⟩, rfl⟩

/-- A CALL of node 2 with the longest payload. -/
def longFrame : Frame := ⟨0x13, 0, 120, 127, List.replicate 32 7⟩

theorem witness_CharactersSpellFrame :
    longFrame.good = true ∧ note.good = true ∧ live.ring.bypass = false ∧
    live.ring.assembler.state ≠ .collecting := by decide

/-- The assembler in a state. -/
def assembling (st : AsmState) (cs : List Byte) : State := { live with ring.assembler := ⟨st, cs⟩ }

theorem witness_AssemblerTakesCharacter :
    (assembling .joining []).ring.bypass = false ∧
    (assembling .joining []).ring.assembler.state ≠ .collecting ∧
    (assembling .collecting [1, 2, 3]).ring.assembler.state = .collecting ∧
    (assembling .collecting [1, 2, 3]).ring.assembler.chars.length < 4 ∧
    (assembling .collecting [1, 2, 3, 4]).ring.assembler.chars.length = 4 ∧
    32 < (33 : Byte).toNat := by decide

theorem witness_GoodFrameIsHandled :
    (⟨0x13, 0, 1, 0, []⟩ : Frame).good = true ∧ (⟨0x13, 0, 1, 0, []⟩ : Frame).src = live.address ∧
    longFrame.good = true ∧ longFrame.src ≠ live.address ∧ longFrame.kind = 0x13 ∧
    (⟨0x15, 1, 2, 0, []⟩ : Frame).dst = live.address ∧
    (⟨0x15, 0, 2, 0, []⟩ : Frame).dst ≠ live.address ∧ (⟨0x15, 0, 2, 0, []⟩ : Frame).hop = 0 ∧
    longFrame.dst ≠ live.address ∧ longFrame.hop ≠ 0 ∧
    ({ live with ring.relay := [note, note, note] } : State).ring.relay.length < 4 ∧
    4 ≤ crowded.ring.relay.length ∧ live.ring.bypass = false := by decide

/-- The node with a relay buffer, an insertion queue and a consecutive-relay count. -/
def sendingNode (relay own : List Frame) (n : Nat) : State :=
  { live with ring.relay := relay, ring.insertion := own, ring.relayCount := n }

theorem witness_TransmitterChooses :
    State.reset.ring.bypass = true ∧ live.ring.sending.isSome = true ∧ live.ring.bypass = false ∧
    ({ live with ring.sending := none } : State).ring.sending = none ∧
    (sendingNode [note] [] 4).ownWaiting = false ∧ (sendingNode [note] [note] 3).ring.relayCount < 4 ∧
    (sendingNode [note] [note] 4).ownWaiting = true ∧ 4 ≤ (sendingNode [note] [note] 4).ring.relayCount ∧
    (sendingNode [note] [note] 4).callWaiting = false ∧ (sendingNode [] [] 0).ring.relay = [] ∧
    (sendingNode [] [] 0).ownWaiting = false ∧
    (withRecord (record .help .raised false)).mode.lineLost = false ∧
    (withRecord (record .help .raised false)).dueSlot = some 0 ∧
    (withRecord (record .help .raised false)).slotAt 0 = some (record .help .raised false) := by decide

/-- The node with frames that wait. -/
def waitingNode (own : Nat) (ws : List WaitingFrame) (sl : Slot) : State :=
  { live with
    ring.insertion := List.replicate own note, mgmt.waiting := ws, mgmt.slot := sl }

theorem witness_InsertionQueueTakesFrames :
    (waitingNode 7 [] .empty).ring.bypass = false ∧ (waitingNode 7 [] .empty).mgmt.waiting = [] ∧
    (waitingNode 7 [] .empty).ring.insertion.length < 8 ∧
    8 ≤ (waitingNode 8 [] .empty).ring.insertion.length ∧ State.reset.ring.bypass = true ∧
    (waitingNode 0 [.ready note] .empty).mgmt.waiting ≠ [] ∧
    (waitingNode 7 [.saveAnswer note] .empty).mgmt.waiting = .saveAnswer note :: [] ∧
    (waitingNode 7 [.slotAnswer] (.answering note)).mgmt.waiting = .slotAnswer :: [] ∧
    (waitingNode 7 [.slotAnswer] (.answering note)).mgmt.slot = .answering note := by decide

theorem witness_LineLossIsDeclared :
    ({ withOne movingChan with ring.lossTimer := some 0 } : State).ring.bypass = false ∧
    ({ withOne movingChan with ring.lossTimer := some 0 } : State).ring.lossTimer = some 0 ∧
    ({ live with ring.lossTimer := some 1 } : State).ring.lossTimer ≠ some 0 ∧ State.reset.ring.bypass = true ∧
    ((withOne movingChan).chan 1).enabled = true ∧ ((withOne movingChan).chan 1).aside = none := by
  decide

theorem witness_RepeatedPulseSetsClock :
    live.ring.bypass = false ∧ toAll.src = 0 ∧ live.address ≠ 0 ∧ toAll.dst = 127 ∧
    toOne.dst = live.address ∧
    modeOfCode (byteAt [1, 1, 81, 127] 0).toNat = some live.mode.mode ∧
    numAt [1, 1, 81, 127] 1 3 = 86399 ∧ live.mode.lineLost = false ∧
    modeOfCode (byteAt [0, 0, 0, 0] 0).toNat = none ∧ modeOfCode (byteAt [5, 0, 0, 0] 0).toNat = none ∧
    numAt [1, 1, 81, 128] 1 3 = 86400 := by decide

theorem witness_PulseChangesMode :
    modeOfCode (byteAt [3, 1, 81, 127] 0).toNat = some .closed ∧ GalleryMode.closed ≠ live.mode.mode ∧
    modeOfCode (byteAt [4, 0, 0, 0] 0).toNat = some .service ∧ GalleryMode.service ≠ live.mode.mode ∧
    live.mode.node = .active ∧ toAll.dst = 127 ∧ live.ring.bypass = false := by decide

theorem witness_PulseWakesNode :
    asleep.ring.bypass = false ∧ asleep.address ≠ 0 ∧ asleep.mode.lineLost = false ∧
    asleep.mode.node = .dormant ∧ asleep.mode.mode = .closed ∧
    modeOfCode (byteAt [4, 0, 0, 0] 0).toNat = some .service ∧
    modeOfCode (byteAt [1, 0, 0, 0] 0).toNat = some .opened ∧
    (asleep.chan 1).held = .copy linear ∧ (asleep.chan 1).aside = none ∧
    (asleep.chan 1).state = .resting ∧ (asleep.chan 1).restState = some .idle ∧
    linear.holdsPosition = true := by decide

/-- The same, with channel 1 resting UNHOMED. -/
theorem witness_PulseWakesNode_unhomed :
    ((asleep.withChan 1 { idleChan with state := .resting, restState := some .unhomed }).chan 1).restState =
      some .unhomed ∧ linear.autoHome = true ∧ linear.enabled = true ∧
    (asleep.withChan 1 { idleChan with state := .resting, restState := some .unhomed }).gated 1 = false ∧
    asleep.guardsClosed linear.guardMap = true := by decide

theorem witness_FramesBecomeTriggers :
    live.ring.bypass = false ∧ toAll.src ≠ live.address ∧ toAll.src = 0 ∧
    (⟨0, 120, 0⟩ : Envelope).src.toNat = 120 ∧ (⟨0, 120, 0⟩ : Envelope).src ≠ live.address ∧
    (byteAt [15, 1, 0, 0] 0).toNat = (15 : Fin 16).val ∧
    (byteAt [15, 1, 0, 0] 1).toNat = PressKind.hold.code ∧
    16 ≤ (byteAt [16, 1, 0, 0] 0).toNat ∧ 2 ≤ (byteAt [15, 2, 0, 0] 1).toNat ∧
    (byteAt [3, 31, 3, 0, 0, 0, 0] 0).toNat = (3 : Fin 4).val ∧
    (byteAt [3, 31, 3, 0, 0, 0, 0] 1).toNat = (31 : Fin 32).val ∧
    (byteAt [3, 31, 3, 0, 0, 0, 0] 2).toNat = EndOutcome.faulted.code ∧
    4 ≤ (byteAt [4, 31, 3, 0, 0, 0, 0] 0).toNat ∧ 32 ≤ (byteAt [3, 32, 3, 0, 0, 0, 0] 1).toNat ∧
    4 ≤ (byteAt [3, 31, 4, 0, 0, 0, 0] 2).toNat := by decide

/-- The node with a trigger queue and a dispatch. -/
def cueNode (n : Nat) (d : Dispatch) : State :=
  { live with cue := ⟨List.replicate n (.lineCue 1), d, none⟩ }

theorem witness_TriggerIsOffered :
    16 ≤ (cueNode 16 (.scanning (.lineCue 9) 0 [])).cue.queue.length ∧
    (cueNode 15 (.scanning (.lineCue 9) 0 [])).cue.queue.length < 16 ∧
    (cueNode 15 (.scanning (.lineCue 9) 0 [])).cue.dispatch ≠ .idle ∧
    (cueNode 0 .idle).cue.queue = [] ∧ (cueNode 0 .idle).mode.mode ≠ .held ∧
    State.reset.cue.queue = [] ∧ State.reset.cue.dispatch = .idle ∧ State.reset.mode.mode = .held := by
  decide

/-- The first condition word of an enabled entry for LINE-CUE 9, and its second: live in OPEN, one action. -/
def cond0 : Delivered := ⟨0x80090000, false⟩
/-- The second condition word with an action count. -/
def cond1 (n : Nat) : Delivered := ⟨BitVec.ofNat 32 (1 + 255 * 256 + n * 65536), false⟩

/-- The node while entry `e` is read. -/
def scanNode (e : Nat) (got : List Delivered) (word : Codeword) : State :=
  { cueNode 0 (.scanning (.lineCue 9) e got) with
    mem.access := some ⟨.cueRead, 144 + 6 * e + got.length, false⟩
    mem.words := if word = 0 then [] else [(144 + 6 * e + got.length, word)] }

theorem witness_ScanReadsEntry :
    (scanNode 63 [] 0).mem.access = some ⟨.cueRead, 522, false⟩ ∧
    (scanNode 63 [] 0).cue.dispatch = .scanning (.lineCue 9) 63 [] ∧ (scanNode 63 [] 0).cue.queue = [] ∧
    (conditionOfWords [cond0, (scanNode 63 [cond0] (encodeWord (cond1 1).data)).wordAt 523]).isSome = true ∧
    conditionOfWords [cond0, (scanNode 63 [cond0] 3).wordAt 523] = none := by decide

theorem witness_ScanReadsEntry_actions :
    (conditionOfWords [cond0, cond1 2]).map (fun k => k.count) = some 2 ∧
    ([cond0, cond1 2] : List Delivered).length + 1 < 2 + 2 ∧
    (conditionOfWords [cond0, cond1 1]).map (fun k => k.count) = some 1 ∧
    ([cond0, cond1 1] : List Delivered).length + 1 = 2 + 1 ∧
    actionsOfWords [(scanNode 63 [cond0, cond1 1] 0).wordAt 524] = some [.start 0 0] ∧
    actionsOfWords [(scanNode 63 [cond0, cond1 1] 3).wordAt 524] = none := by decide

theorem witness_ActionIsHandedOn :
    (cueNode 0 (.performing (.lineCue 9) 63 [.stop 1, .lock 1] 1)).nextAction = some (.lock 1) ∧
    (cueNode 0 (.performing (.lineCue 9) 63 [.stop 1, .lock 1] 1)).nextAction ≠ some (.stop 1) ∧
    ([.stop 1, .lock 1] : List Action)[0]? = some (.stop 1) ∧
    0 + 1 < ([.stop 1, .lock 1] : List Action).length ∧
    1 + 1 = ([.stop 1, .lock 1] : List Action).length ∧
    (cueNode 0 (.performing (.lineCue 9) 63 [.stop 1, .lock 1] 1)).cue.queue = [] := by decide

/-- A button that is timing its closure, or not pressed. -/
def seven (closed : Bool) (ph : Phase) : State :=
  withSeven { pressed 3 with closed := closed, phase := ph, stuckTiming := closed }

theorem witness_ClosureIsAccepted :
    (seven false .released).sampling = true ∧ ((seven false .released).btn 7).primed = true ∧
    ((seven false .released).btn 7).closed = false ∧
    ((seven false .released).btn 7).held = .copy plain ∧ plain.enabled = true ∧ plain.hold = 0 ∧
    ((withSeven { pressed 3 with held := .copy { plain with hold := 5 } }).btn 7).held =
      .copy { plain with hold := 5 } ∧
    ((withSeven { pressed 3 with held := .damaged }).btn 7).enabled = false := by decide

theorem witness_ReleaseIsAccepted :
    (seven true .timing).sampling = true ∧ ((seven true .timing).btn 7).primed = true ∧
    ((seven true .timing).btn 7).closed = true ∧ ((seven true .timing).btn 7).phase = .timing ∧
    ((seven true .settled).btn 7).phase = .settled ∧ ((seven true .stuck).btn 7).phase = .stuck := by
  decide

theorem witness_ClosureTimesOut :
    ((seven true .timing).btn 7).phase = .timing ∧ ((seven true .timing).btn 7).stuckTiming = true ∧
    ((seven true .settled).btn 7).phase = .settled ∧ ((seven true .settled).btn 7).stuckTiming = true :=
  by decide

/-- Button 7 as a HELP button in a mode. -/
def helpIn (m : GalleryMode) : State :=
  { withSeven { pressed 3 with held := .copy { plain with help := true } } with mode.mode := m }

theorem witness_PressIsTaken :
    ((helpIn .held).btn 7).held = .copy { plain with help := true } ∧ (helpIn .held).mode.mode = .held ∧
    (helpIn .service).mode.mode = .service ∧ (helpIn .closed).mode.mode = .closed ∧
    ((withSeven { pressed 3 with held := .copy { plain with enabled := false } }).btn 7).held =
      .copy { plain with enabled := false } ∧
    ((withSeven { pressed 3 with lock := true }).btn 7).lock = true ∧
    ({ withSeven (pressed 3) with mode.mode := .closed } : State).pressAnswer false = .ignored ∧
    ({ withSeven (pressed 3) with mode.mode := .service } : State).pressAnswer false = .reported ∧
    (withSeven (pressed 3)).pressAnswer false = .dispatched ∧
    ((withSeven { pressed 3 with allowance := none }).btn 7).allowance = none ∧
    ((withSeven (pressed 3)).btn 7).allowance = some (2 + 1) ∧
    ((withSeven (pressed 0)).btn 7).allowance = some 0 := by decide

theorem witness_RefillRestoresUnit :
    ((withSeven { pressed 1 with refill := some 0 }).btn 7).held = .copy plain ∧
    ((withSeven { pressed 1 with refill := some 0 }).btn 7).refill = some 0 ∧ 1 + 1 < plain.allowance ∧
    plain.allowance ≤ 2 + 1 ∧
    ((withSeven { pressed 1 with refill := some 1 }).btn 7).refill ≠ some 0 ∧
    ((withSeven { pressed 2 with refill := some 0, rough := true }).btn 7).rough = true := by decide

theorem witness_ButtonEntryIsTaken :
    (reading .button 15 3 143).mem.access = some ⟨.settings .button, 143, false⟩ ∧
    (reading .button 15 3 143).mem.path =
      ⟨⟨.button, (15 : Fin 16).val⟩, List.replicate 3 ⟨0, false⟩⟩ :: [] := by decide

/-- The words of an enabled PLAIN entry with allowance max 3. -/
def plainWords : List Delivered := [⟨0xFF05, false⟩, ⟨0x0A0014, false⟩, ⟨0x140203, false⟩, ⟨0, false⟩]

theorem witness_ButtonEntryIsTaken_same : buttonOfWords plainWords = .copy plain := by decide

theorem witness_ClockAndPatternsAdvance :
    ({ live with alert.beacon := some .notice } : State).alert.beacon = some .notice ∧
    live.alert.beacon = none ∧
    ({ live with alert.beacon := some .urgent } : State).alert.beacon = some .urgent ∧
    999 ≤ ({ live with mode.ms := 999 } : State).mode.ms ∧
    ({ live with mode.ms := 998 } : State).mode.ms < 999 := by decide

/-- The node with all 16 slots taken. -/
def fullTable : State :=
  { live with alert.slots := Vector.ofFn fun i => some { record .cuedCall .acknowledged false with
      subject := i.val } }

theorem witness_RaiseIsRecorded :
    live.findRecord .guardOpen 2 = none ∧ live.emptySlot = some 0 ∧
    (withRecord (record .guardOpen .clearing true)).findRecord .guardOpen 2 = some 0 ∧
    (withRecord (record .guardOpen .clearing true)).slotAt 0 = some (record .guardOpen .clearing true) ∧
    fullTable.findRecord .guardOpen 2 = none ∧ fullTable.emptySlot = none := by decide

theorem witness_ConditionEndIsRecorded :
    live.findRecord .guardOpen 2 = none ∧
    (withRecord (record .guardOpen .clearing false)).findRecord .guardOpen 2 = some 0 ∧
    (record .guardOpen .clearing false).state = .clearing ∧
    (withRecord (record .guardOpen .called true)).findRecord .guardOpen 2 = some 0 ∧
    Cause.guardOpen.latched = true ∧ (record .guardOpen .called true).state = .called ∧
    (withRecord (record .buttonStuck .called true)).findRecord .buttonStuck 2 = some 0 ∧
    Cause.buttonStuck.latched = false ∧ (record .buttonStuck .called true).state ≠ .clearing ∧
    (withRecord (record .guardOpen .acknowledged true)).findRecord .guardOpen 2 = some 0 := by decide

theorem witness_KeyAndHushAcknowledge :
    sixteen.Nodup ∧ live.ring.sending.isSome = true ∧ State.reset.ring.bypass = true ∧
    (record .guardOpen .acknowledged true).state = .acknowledged ∧
    ({ live with alert.key.primed := true } : State).sampling = true ∧
    ({ live with alert.key.primed := true } : State).alert.key.closed = false ∧
    live.address ≠ 0 ∧ (15 : Byte).toNat = (15 : Fin 16).val ∧ 16 ≤ (254 : Byte).toNat ∧
    (254 : Byte) ≠ 255 := by decide

theorem witness_EscalationLiftsLevel :
    (withRecord { record .guardOpen .called true with timer := some 0 }).slotAt 0 =
      some { record .guardOpen .called true with timer := some 0 } ∧
    live.slotAt 0 = none ∧ (record .guardOpen .acknowledged true).state ≠ .called ∧
    ({ record .guardOpen .called true with timer := some 1 } : Record).timer ≠ some 0 := by decide

/-- Channel 1 in a state, MOVING with its segment under way. -/
def inState (st : ChanState) : State := withOne { movingChan with state := st }

/-- Channel 1 MOVING under a busy policy. -/
def underPolicy (p : BusyPolicy) : State := withOne { movingChan with held := .copy { linear with policy := p } }

theorem witness_StartIsTaken_refused :
    ({ live with mode.mode := .closed } : State).startAllowed = false ∧
    ((withOne idleChan).withSlot 0 (some (record .guardOpen .called true))).gated 1 = true ∧
    (live.chan 1).enabled = false ∧ ((inState .unhomed).chan 1).state = .unhomed ∧
    ((withOne idleChan).withGuard 2 ⟨true, 0, true⟩).guardsClosed linear.guardMap = false ∧
    ((underPolicy .refuse).chan 1).held = .copy { linear with policy := .refuse } ∧
    ((underPolicy .refuse).chan 1).state ≠ .idle := by decide

theorem witness_StartIsTaken :
    (inState .stopping).startAllowed = true ∧ (inState .stopping).gated 1 = false ∧
    ((inState .stopping).chan 1).held = .copy linear ∧ linear.enabled = true ∧
    ((inState .stopping).chan 1).state = .stopping ∧ linear.policy ≠ .refuse ∧
    ((inState .moving).chan 1).state = .moving ∧ linear.policy = .queue ∧
    ((underPolicy .preempt).chan 1).held = .copy { linear with policy := .preempt } ∧
    ((underPolicy .preempt).chan 1).state = .moving ∧ (withOne idleChan).startAllowed = true ∧
    ((withOne idleChan).chan 1).state = .idle ∧ (withOne idleChan).gated 1 = false ∧
    (withOne idleChan).guardsClosed linear.guardMap = true := by decide

theorem witness_StopAndHomeFollowMask :
    (inState .homing).mode.node ≠ .closing ∧ (2 : BitVec 4).getLsbD (1 : Fin 4).val = true ∧
    (2 : BitVec 4).getLsbD (0 : Fin 4).val = false ∧ ((inState .moving).chan 1).state = .moving ∧
    ((inState .homing).chan 1).state = .homing ∧ ((inState .halted).chan 1).state = .halted ∧
    ({ live with mode.mode := .closed } : State).homeAllowed = false ∧ (inState .unhomed).homeAllowed = true ∧
    (inState .unhomed).gated 1 = false ∧ ((inState .unhomed).chan 1).held = .copy linear ∧
    ((inState .unhomed).chan 1).state = .unhomed ∧
    (inState .unhomed).guardsClosed linear.guardMap = true := by decide

theorem witness_TickMakesSteps :
    idleChan.state.inMotion = false ∧ movingChan.farPin = false ∧ movingChan.faultPin = false ∧
    movingChan.state = .moving ∧ movingChan.current.isSome = true ∧ movingChan.arrived = false ∧
    0 < movingChan.rem ∧ 0 < movingChan.accel ∧
    (withOne { movingChan with state := .homing }).chan 1 = { movingChan with state := .homing } ∧
    movingChan.homePin = false ∧ movingChan.held = .copy linear ∧ linear.rotary = false := by decide

/-- A ROTARY channel that is STOPPING from cruise. -/
def turning : Channel :=
  { movingChan with
    held := .copy { linear with rotary := true, travel := 3200 }, state := .stopping, v := 65536
    position := 3199 }

theorem witness_TickMakesSteps_rotary :
    turning.state = .stopping ∧ turning.vs < turning.v ∧ turning.rotary = true ∧
    turning.held = .copy { linear with rotary := true, travel := 3200 } ∧ 0 < 3200 ∧
    turning.position < 3200 ∧ turning.moved 1 = 0 := by decide

/-- The awaited segment in hand. -/
def awaiting : Channel := { movingChan with current := none, buffer := [⟨0, shortMove⟩] }

theorem witness_SegmentsEnd_current :
    ((withOne awaiting).chan 1).state = .moving ∧ ((withOne awaiting).chan 1).current = none ∧
    ((withOne awaiting).chan 1).dir = some ⟨10, 1, 1⟩ ∧ ((withOne awaiting).chan 1).held = .copy linear ∧
    ((withOne awaiting).chan 1).buffer = ⟨0, shortMove⟩ :: [] ∧ awaiting.ord = 0 := by decide

/-- Channel 1 arrived at a place of a directory entry's order. -/
def arriving (d : Directory) (dwell : Nat) : Channel :=
  { movingChan with rem := 0, dir := some d, dwell := dwell }

theorem witness_SegmentsEnd :
    ((withOne (arriving ⟨10, 1, 1⟩ 0)).chan 1).state = .moving ∧
    ((withOne (arriving ⟨10, 1, 1⟩ 0)).chan 1).rem = 0 ∧ (arriving ⟨10, 1, 1⟩ 0).arrived = false ∧
    (arriving ⟨10, 1, 1⟩ 5).dwell ≠ 0 ∧ ((0 : Nat) + 1) % 2 ≠ 0 ∧
    (arriving ⟨10, 2, 1⟩ 0).dir = some ⟨10, 2, 1⟩ ∧
    (arriving ⟨10, 1, 0⟩ 0).dir = some ⟨10, 1, 0⟩ ∧ (arriving ⟨10, 1, 0⟩ 0).finalPass = false ∧
    (arriving ⟨10, 1, 1⟩ 0).pass = 1 ∧ (arriving ⟨10, 1, 1⟩ 0).slot = none ∧
    (arriving ⟨10, 1, 1⟩ 0).aside = none ∧ (withOne (arriving ⟨10, 1, 1⟩ 0)).mode.node ≠ .closing ∧
    ({ arriving ⟨10, 1, 1⟩ 3 with arrived := true } : Channel).arrived = true ∧
    (arriving ⟨10, 1, 1⟩ 0).profile = some 3 ∧
    (cueNode 15 (.scanning (.lineCue 9) 0 [])).cue.queue.length < 16 := by decide

theorem witness_MotionEnds :
    (inState .stopping).mode.node ≠ .closing ∧ ((inState .stopping).chan 1).aside = none ∧
    ((inState .stopping).chan 1).v ≤ ((inState .stopping).chan 1).vs ∧
    ((inState .stopping).chan 1).slot = none ∧
    ((withOne { movingChan with
      state := .stopping, slot := some 5, ending := some .stopped }).chan 1).slot = some 5 ∧
    (inState .stopping).gated 1 = false ∧
    (inState .stopping).guardsClosed ((inState .stopping).chan 1).guardMap = true ∧
    ((inState .homing).chan 1).state = .homing ∧ ((inState .homing).chan 1).slot = none ∧
    ((withOne { movingChan with state := .homing, slot := some 5 }).chan 1).slot = some 5 ∧
    ((withOne { movingChan with state := .homing, rem := 0 }).chan 1).rem = 0 := by decide

theorem witness_GuardOpeningHalts :
    (inState .moving).sampling = true ∧ ((inState .moving).guardIn 2).isOpen = false ∧
    (inState .moving).mode.node ≠ .closing ∧ ((inState .moving).chan 1).enabled = true ∧
    ((inState .moving).chan 1).guardMap.getLsbD (2 : Fin 4).val = true ∧
    ((inState .moving).chan 1).state.inMotion = true ∧ (live.chan 0).enabled = false := by decide

/-- Guard 2 OPEN over a HALTED channel 1 that needs no attendant. -/
def freed (lost : Bool) : State :=
  (withOne { idleChan with
    state := .halted, held := .copy { linear with attend := false }, positionLost := lost }).withGuard 2
      ⟨true, 9, true⟩

theorem witness_GuardClosingReleases :
    (freed true).sampling = true ∧ ((freed true).guardIn 2).isOpen = true ∧
    (freed true).mode.node ≠ .closing ∧ ((freed true).chan 1).state = .halted ∧
    ((freed true).chan 1).attend = false ∧ ((freed true).chan 1).aside = none ∧
    ((freed true).chan 1).guardMap.getLsbD (2 : Fin 4).val = true ∧
    (∀ h : Fin 4, h ≠ 2 → ((freed true).guardIn h).isOpen = false) := by decide

theorem witness_InputsFaultChannels :
    (inState .moving).sampling = true ∧ (inState .moving).mode.node ≠ .closing ∧
    ((inState .moving).chan 1).enabled = true ∧ (inState .moving).energised 1 = true ∧
    (inState .resting).energised 1 = false ∧ ((inState .moving).chan 1).farRead = true ∧
    (inState .moving).emptySlot.isSome = true ∧ ((inState .idle).chan 1).farRead = false := by decide

/-- The words of an enabled LINEAR channel entry. -/
def channelWords : List Delivered :=
  [⟨0x32FF0001, false⟩, ⟨12000, false⟩, ⟨0xFA007D, false⟩, ⟨3, false⟩] ++ List.replicate 3 ⟨0, false⟩

/-- The node while the last word of channel 3's entry is read, the channel in a state. -/
def chanReading (st : ChanState) : State :=
  { live.withChan 3 { idleChan with state := st } with
    mem.path := [⟨⟨.motion, 3⟩, channelWords⟩], mem.access := some ⟨.settings .motion, 63, false⟩ }

theorem witness_ChannelEntryIsTaken :
    (chanReading .idle).mem.path = ⟨⟨.motion, (3 : Fin 4).val⟩, channelWords⟩ :: [] ∧
    channelWords.length = 7 ∧
    channelOfWords (channelWords ++ [(chanReading .idle).wordAt 63]) =
      .copy { linear with
        attend := false, holdsPosition := false, autoHome := false, reportDone := false
        lossFinish := false, policy := .refuse, guardMap := 0 } ∧
    ((chanReading .idle).wordAt 63).bad = false ∧
    ((chanReading .idle).chan 3).state.replaceable = true ∧
    ((chanReading .moving).chan 3).state.replaceable = false := by decide

/-- The node while word `n` of a fetch of channel 1 is read. -/
def fetching (item : FetchItem) (cancelled : Bool) (got : List Delivered) (index : Nat) (w : Codeword) :
    State :=
  { inState .moving with
    motion.owed := [⟨1, item, cancelled⟩], motion.fetchWords := got
    mem.access := some ⟨.prefetch, index, false⟩, mem.words := if w = 0 then [] else [(index, w)] }

theorem witness_PrefetchIsDelivered :
    (fetching (.directory 31) true [] 590 0).mem.access = some ⟨.prefetch, 590, false⟩ ∧
    (fetching (.directory 31) true [] 590 0).motion.owed = ⟨1, .directory 31, true⟩ :: [] ∧
    ((fetching (.directory 31) false [] 590 0).chan 1).state = .moving ∧
    (FetchItem.directory 31).wordDamaged 0 ((fetching (.directory 31) false [] 590 0).wordAt 590) = false ∧
    (0 : Nat) + 1 < (FetchItem.directory 31).len ∧
    directoryOfWords [⟨0x0002000A, false⟩, (fetching (.directory 31) false [⟨0x0002000A, false⟩] 591
      0).wordAt 591] = some ⟨10, 2, 0⟩ := by decide

theorem witness_PrefetchIsDelivered_segment :
    (FetchItem.segment 2 592).wordDamaged 2 ((fetching (.segment 2 592) false [⟨200, false⟩, ⟨1000, false⟩]
      594 (encodeWord 15625)).wordAt 594) = false ∧
    (segmentOfWords [⟨200, false⟩, ⟨1000, false⟩, (fetching (.segment 2 592) false
      [⟨200, false⟩, ⟨1000, false⟩] 594 (encodeWord 15625)).wordAt 594]).isSome = true ∧
    ((fetching (.segment 2 592) false [] 592 0).chan 1).current.isSome = true ∧
    (FetchItem.segment 2 592).wordDamaged 0 ((fetching (.segment 2 592) false [] 592 3).wordAt 592) =
      true := by decide

/-- Pair 1 joined, its even output in a state. -/
def pairNode (e : Effect) : State := { live with effect.pairing := 2 }.withOut 2 e

theorem witness_EffectBegins :
    asleep.mode.node = .dormant ∧ live.mode.node ≠ .dormant ∧
    max (0 : Int) (min 255 256) * 256 = (({ live with mode.clock := 0 }.withOut 5 { Effect.reset with
      fine := 65280 }).out (live.base 5)).fine ∧
    (pairNode { Effect.reset with fine := 30720, dead := 1 }).joined 2 = true ∧
    ((pairNode { Effect.reset with fine := 30720, dead := 1 }).out 2).dead = 1 ∧
    (-80 * 256 : Int) ≠ 30720 ∧ live.joined 5 = false ∧ (200 * 256 : Int) ≠ (live.out 5).fine ∧
    ((pairNode { Effect.reset with fine := 30720 }).out 2).fine * (-80) < 0 ∧
    (pairNode { Effect.reset with fine := 30720 }).base 3 = 2 := by decide

theorem witness_FadeTakesStep :
    live.joined 5 = false ∧ (live.out 5).running = false ∧
    ((live.withOut 5 { Effect.reset with running := true }).out 5).running = true ∧
    (pairNode { Effect.reset with dead := 1 }).joined 2 = true ∧ (2 : Fin 8).val % 2 = 0 ∧
    0 < ((pairNode { Effect.reset with dead := 1 }).out 2).dead ∧
    ((pairNode { Effect.reset with fine := 30720, running := true, delta := 128 }).out 2).fine ≠ 0 ∧
    (0 : Int) < max (30720 - 128) (0 * 256) * 30720 ∧ max ((128 : Int) - 128) (-80 * 256) * 128 ≤ 0 ∧
    ((pairNode { Effect.reset with running := true, target := 80 }).out 2).remaining = 0 ∧
    0 < ((pairNode { Effect.reset with running := true, target := 80, remaining := 1 }).out 2).remaining ∧
    ((pairNode Effect.reset).out 2).running = false := by decide

theorem witness_CarrierPeriodTakesLevels :
    ({ live with effect.carrier := some .khz20, effect.counting := true } : State).effect.carrier =
      some .khz20 ∧
    ({ live with effect.carrier := some .khz20, effect.counting := true } : State).effect.counting = true ∧
    live.ring.bypass = false ∧ (pairNode Effect.reset).effect.pairing.getLsbD (1 : Fin 4).val = true := by
  decide

theorem witness_EffectAlertAndLocalPlayWordsAreTaken :
    (reading .effect 7 1 79).mem.access = some ⟨.settings .effect, 79, false⟩ ∧
    (reading .effect 7 1 79).mem.path = ⟨⟨.effect, (7 : Fin 8).val⟩, [⟨0, false⟩]⟩ :: [] ∧
    effectOfWords ([⟨0, false⟩] ++ [(reading .effect 7 1 79).wordAt 79]) ≠ .damaged ∧
    effectOfWords ([⟨0, true⟩] ++ [(reading .effect 7 1 79).wordAt 79]) = .damaged ∧
    (reading .effect 8 0 2).mem.path = ⟨⟨.effect, 8⟩, []⟩ :: [] ∧
    carrierOfWord ((reading .effect 8 0 2).wordAt 2) = some (.hz200, 0) ∧
    (reading .alert 11 0 27).mem.path = ⟨⟨.alert, (11 : Fin 12).val⟩, []⟩ :: [] ∧
    causeOfWord ((reading .alert 11 0 27).wordAt 27) ≠ .damaged ∧ causeOfWord ⟨3, false⟩ = .damaged ∧
    (reading .mode 0 0 3).mem.access = some ⟨.settings .mode, 3, false⟩ ∧
    (reading .mode 0 0 3).mem.path = ⟨⟨.mode, 0⟩, []⟩ :: [] := by decide

theorem witness_StoredWordSurvivesUpset : 0 < 38 ∧ 38 < 39 := by decide

/-- Section 9.6: the cue engine and the scrubber wait, the pass-over counts as given. -/
def busyArbiter (counts : Vector Nat 5) : State :=
  { cueNode 0 (.scanning (.lineCue 9) 0 []) with mem.scrubWaiting := true, mem.passOver := counts }

theorem witness_ArbiterGrantsOne :
    ({ live with mem.access := some ⟨.scrub, 0, false⟩ } : State).mem.access.isSome = true ∧
    State.reset.arbiterOpen = false ∧ (∀ r, live.waits r = false) ∧
    (busyArbiter #v[0, 0, 15, 0, 16]).mem.access = none ∧
    (busyArbiter #v[0, 0, 15, 0, 16]).arbiterOpen = true ∧
    (busyArbiter #v[0, 0, 15, 0, 16]).need 4 = some (.scrub, 0) ∧
    (busyArbiter #v[0, 0, 15, 0, 16]).mem.passOver[(4 : Fin 5)] = 16 ∧
    (∀ q : Fin 5, q < 4 → (busyArbiter #v[0, 0, 15, 0, 16]).waits q = true →
      (busyArbiter #v[0, 0, 15, 0, 16]).mem.passOver[q] ≠ 16) ∧
    (busyArbiter #v[0, 0, 15, 0, 15]).need 2 = some (.cueRead, 144) ∧
    (∀ q : Fin 5, (busyArbiter #v[0, 0, 15, 0, 15]).waits q = true →
      (busyArbiter #v[0, 0, 15, 0, 15]).mem.passOver[q] ≠ 16) ∧
    (∀ q : Fin 5, q < 2 → (busyArbiter #v[0, 0, 15, 0, 15]).waits q = false) := by decide

/-- The scrubber at the last word. -/
def scrubNode (w : Codeword) : State :=
  { live with
    mem.words := if w = 0 then [] else [(2127, w)], mem.access := some ⟨.scrub, 2127, false⟩
    mem.scrubPtr := 2127, mem.scrubTimer := some 0 }

theorem witness_ScrubberRepairs :
    (scrubNode 0).mem.scrubTimer = some 0 ∧ live.mem.scrubTimer ≠ some 0 ∧
    (scrubNode 0).mem.access = some ⟨.scrub, 2127, false⟩ ∧ (scrubNode 0).mem.scrubPtr = 2127 ∧
    (classify (Memory.read (scrubNode 0).mem.words 2127)).1 = .clean ∧
    (classify (Memory.read (scrubNode 1).mem.words 2127)).1 = .corrected ∧
    (classify (Memory.read (scrubNode 3).mem.words 2127)).1 = .uncorrectable := by decide

/-- A PUT payload: table, first word, count, and as many data words of a value. -/
def putBytes (t first n : Nat) (w : Word) : List Byte :=
  [BitVec.ofNat 8 t] ++ bytesBE 2 first ++ [BitVec.ofNat 8 n]
    ++ (List.replicate n w).flatMap wordBytes

theorem witness_PutIsExamined :
    toOne.dst = live.address ∧ (putBytes 7 1529 7 0).length = 32 ∧
    (waitingNode 0 [] (.answering note)).mgmt.slot ≠ .empty ∧ live.mgmt.slot = .empty ∧
    (byteAt (putBytes 23 0 1 0) 0).toNat = 23 ∧ (byteAt (putBytes 15 0 1 0) 0).toNat = 15 ∧
    (byteAt (putBytes 24 0 1 0) 0).toNat = 24 ∧
    regionWords 7 < numAt (putBytes 7 1530 7 0) 1 2 + 7 ∧ (byteAt (putBytes 31 0 2 0) 3).toNat ≠ 1 ∧
    (saving (.erase 0) none).mgmt.image = .saving ∧ numAt (putBytes 31 0 1 0) 1 2 = 0 ∧
    (putBytes 31 4 1 0).length = 8 ∧ 3 < numAt (putBytes 31 4 1 0) 1 2 := by decide

theorem witness_PutIsExamined_tables :
    numAt (putBytes 7 1529 7 0) 1 2 + 7 ≤ regionWords 7 ∧ live.mgmt.image ≠ .saving ∧
    (inState .moving).wordInUse 2 (15 + 0) = true ∧
    (∀ k, k < 1 → live.wordInUse 1 (0 + k) = false) ∧
    live.storedFrom 1 0 (reqWords (putBytes 1 0 1 3)) 0 (reqWords (putBytes 1 0 1 3)) = none ∧
    live.storedFrom 1 0 (reqWords (putBytes 1 0 1 2)) 0 (reqWords (putBytes 1 0 1 2)) = some [2] := by
  decide

/-- The node at the last, or the last but one, write of a PUT of cause words 10 and 11. -/
def putNode (n : Nat) : State :=
  { live with
    mgmt.slot := .working (.put 1 10 [1, 2] false n)
    mem.access := some ⟨.putWrite 2, 26 + n, false⟩ }

theorem witness_PutWordIsWritten :
    Memory.wf (putNode 1).mem.words = true ∧
    (putNode 1).mem.access = some ⟨.putWrite 2, 27, false⟩ ∧
    (putNode 1).mgmt.slot = .working (.put 1 10 [1, 2] false 1) ∧ ([1, 2] : List Word).length ≤ 1 + 1 ∧
    (putNode 1).ring.bypass = false ∧ (putNode 1).mgmt.waiting = [] ∧
    (putNode 1).ring.insertion.length < 8 ∧ (putNode 1).ring.sending.isSome = true ∧
    (putNode 0).mem.access = some ⟨.putWrite 2, 26, false⟩ ∧ 0 + 1 < ([1, 2] : List Word).length ∧
    ({ cueNode 0 (.scanning (.lineCue 9) 63 [cond0]) with
      mem.access := some ⟨.putWrite 2, 527, false⟩
      mgmt.slot := .working (.put 5 383 [2] false 0) } : State).cue.dispatch =
      .scanning (.lineCue 9) ((527 - 144) / 6) [cond0] := by decide

theorem witness_PeekIsAnswered :
    toOne.dst = live.address ∧ (waitingNode 0 [] (.answering note)).mgmt.slot ≠ .empty ∧
    live.mgmt.slot = .empty ∧ (byteAt [15, 0, 0, 1] 0).toNat = 15 ∧ (byteAt [24, 0, 0, 1] 0).toNat = 24 ∧
    (byteAt [7, 0, 0, 8] 3).toNat = 8 ∧ regionWords 0 < numAt [0, 0, 10, 7] 1 2 + 7 ∧
    viewWords 16 < numAt [16, 255, 255, 1] 1 2 + 1 ∧ numAt [0, 0, 9, 7] 1 2 + 7 ≤ regionWords 0 ∧
    numAt [16, 0, 0, 1] 1 2 + 1 ≤ viewWords 16 := by decide

/-- The node while a word is read for a PEEK of two words. -/
def peekNode (got : List Delivered) (w : Codeword) : State :=
  { live with
    mgmt.slot := .working (.peek 7 1534 2 got), mem.access := some ⟨.peekRead, 2126 + got.length, false⟩
    mem.words := if w = 0 then [] else [(2126 + got.length, w)] }

theorem witness_PeekIsAnswered_words :
    (peekNode [] 0).mem.access = some ⟨.peekRead, 2126, false⟩ ∧
    (peekNode [] 0).mgmt.slot = .working (.peek 7 1534 2 []) ∧
    ([] : List Delivered).length + 1 < 2 ∧ 2 ≤ [cond0].length + 1 ∧
    ((peekNode [cond0] 3).wordAt 2127).bad = true := by decide

theorem witness_CommandsAreObeyed :
    live.ring.bypass = false ∧ toOne.src = 0 ∧ live.address ≠ 0 ∧ toOne.dst = live.address ∧
    live.mgmt.slot = .empty ∧ live.mgmt.image ≠ .saving ∧ live.mgmt.flashBusy = none ∧
    ({ live with mgmt.flashBusy := some (.erase 0) } : State).mgmt.flashBusy.isSome = true ∧
    (saving (.erase 0) none).mgmt.image = .saving ∧ (saving (.erase 0) none).mgmt.slot = .empty := by
  decide

/-- A save with words gathered, an access under way. -/
def savingWords (st : SaveStep) (n : Nat) (op : AccessOp) (i : Nat) : State :=
  { live with
    mgmt.image := .saving, mgmt.save := some ⟨st, 0, List.replicate n 0, .loaded, true⟩
    mem.access := some ⟨op, i, false⟩ }

theorem witness_SaveGoesOn :
    ((saving (.erase 1) (some (.erase 1))).mgmt.save.map fun p => p.step) = some (.erase 1) ∧
    (saving (.erase 2) (some (.erase 2))).mgmt.flashBusy = some (.erase 2) ∧
    (saving (.erase 2) (some (.erase 2))).mgmt.flashNext = none ∧
    (savingWords (.program 0) 54 .saveRead 54).mem.access = some ⟨.saveRead, 54, false⟩ ∧
    ((savingWords (.program 0) 54 .saveRead 54).wordAt 54).bad = false ∧ 54 + 1 < unitWords 0 ∧
    unitWords 33 ≤ 23 + 1 ∧ (savingWords (.program 33) 23 .saveRead 2127).mgmt.flashBusy = none ∧
    (saving (.program 33) (some (.program 33 []))).mgmt.flashBusy = some (.program 33 []) ∧
    (savingWords (.verify 2126) 0 .verifyRead 2126).mem.access = some ⟨.verifyRead, 2126, false⟩ ∧
    2126 < 2127 ∧ (savingWords (.verify 2127) 0 .verifyRead 2127).mgmt.flashBusy = none := by decide

theorem witness_SaveEnds :
    ((saving .header none).mgmt.save.map fun p => p.step) = some .header ∧ headerBytes 1 ≠ headerBytes 0 ∧
    (saving (.erase 0) (some (.erase 0))).mgmt.flashBusy = some (.erase 0) ∧
    (saving (.erase 0) (some (.erase 0))).mgmt.flashNext = none ∧
    (saving (.program 0) (some (.program 0 []))).mgmt.flashBusy = some (.program 0 []) ∧
    (savingWords (.verify 0) 0 .verifyRead 0).mem.access = some ⟨.verifyRead, 0, false⟩ ∧
    (1 : Word) ≠ ((savingWords (.verify 0) 0 .verifyRead 0).wordAt 0).data ∧
    (saving .header (some (.programHeader []))).mgmt.flashBusy.isSome = true ∧ live.mgmt.save = none ∧
    ({ live with mgmt.flashBusy := some (.erase 0) } : State).mgmt.flashBusy.isSome = true ∧
    live.mgmt.flashBusy = none := by decide

theorem witness_RestartResetsNode :
    live.ring.bypass = false ∧ toAll.src = 0 ∧ live.address ≠ 0 ∧ toAll.dst = 127 ∧
    toOne.dst = live.address ∧ toAll.dst ≠ live.address ∧ toAll.hop ≠ 0 ∧
    (List.replicate 31 (0 : Byte)).length < 32 ∧ live.ring.sending.isSome = true ∧
    live.mgmt.save = none := by decide

/-- The load at a step. -/
def loadingAt (st : LoadStep) : State := { State.reset with mgmt.image := .loading, mgmt.load := st }

theorem witness_LoadProceedsAndEnds :
    State.reset.mgmt.image = .empty ∧ (loadingAt .header).mgmt.load = .header ∧
    headerOk (headerBytes 9) = true ∧ headerOk [] = false ∧
    (loadingAt (.words 2126 0 0)).mgmt.load = .words 2126 0 0 ∧ 2126 < 2127 ∧
    (loadingAt (.words 2127 0 5)).mgmt.load = .words 2127 0 5 ∧ (loadingAt .header).addressed = true := by
  decide

/-- Button 7 and the key sampled n times at the other level. -/
def sampled (n : Nat) : State :=
  { withSeven { pressed 3 with count := n } with alert.key := ⟨false, true, false, n⟩ }

theorem witness_InputsAreSampled :
    State.reset.sampling = false ∧ live.sampling = true ∧ (live.btn 7).primed = false ∧
    ((sampled 0).btn 7).primed = true ∧ ((sampled 0).btn 7).closed = false ∧
    ((sampled 18).btn 7).count + 1 < ((sampled 18).btn 7).debounce ∧
    ((sampled 19).btn 7).debounce ≤ ((sampled 19).btn 7).count + 1 ∧ live.alert.key.primed = false ∧
    (sampled 0).alert.key.primed = true ∧ (sampled 18).alert.key.count + 1 < 20 ∧
    20 ≤ (sampled 19).alert.key.count + 1 ∧
    ({ sampled 19 with alert.key := ⟨true, true, true, 19⟩ } : State).alert.key.closed = true ∧
    (live.guardIn 2).isOpen = false ∧ ((live.withGuard 2 ⟨true, 8, true⟩).guardIn 2).isOpen = true ∧
    ((live.withGuard 2 ⟨true, 8, true⟩).guardIn 2).count + 1 < 10 ∧
    10 ≤ ((live.withGuard 2 ⟨true, 9, true⟩).guardIn 2).count + 1 := by decide

/-! ### Further clauses: a boundary value for each -/

theorem witness_CharactersSpellFrame_framing :
    (List.replicate 11 false).length = 11 ∧ (List.replicate 11 false)[0]? = some false ∧
    (List.replicate 11 false)[10]? = some false := by decide

/-- A reset abandoned the dispatch while its START of channel 1 was being handed on. -/
def recalling : State := { withOne idleChan with cue.recalled := some (.start 1 3) }

theorem witness_ActionIsHandedOn_recalled :
    recalling.recalls (.start 1 3) = true ∧ recalling.nextAction = none ∧
    (cueNode 0 (.performing (.lineCue 9) 0 [.lock 1] 0)).nextAction = some (.lock 1) := by decide

/-- No action is recalled in a node that no reset has met in a dispatch. -/
theorem witness_no_action_recalled :
    live.recalls (.lock 0x80) = false ∧ live.recalls (.unlock 0x80) = false ∧
    (withOne idleChan).recalls (.start 1 3) = false ∧ live.recalls (.stop 2) = false ∧
    live.recalls (.home 2) = false ∧ live.recalls (.effect 5 200 0) = false ∧
    live.recalls (.call 15 .notice) = false := by decide

/-- Button 7 as a HELP button with a HELP record in a state. -/
def helpRecord (st : RecState) : State :=
  (helpIn .opened).withSlot 0 (some { record .help st false with subject := 7 })

theorem witness_LocksFollowMask_lamps :
    (live.btn 7).held = .absent ∧ ((withSeven { pressed 3 with held := .damaged }).btn 7).held = .damaged ∧
    ((withSeven { pressed 3 with held := .copy { plain with enabled := false } }).btn 7).held =
      .copy { plain with enabled := false } ∧
    (helpRecord .called).findRecord .help 7 = some 0 ∧
    ((helpRecord .called).slotAt 0).map (fun r => r.state) = some .called ∧
    (helpRecord .acknowledged).findRecord .help 7 = some 0 ∧
    (helpIn .opened).findRecord .help 7 = none ∧ ((withSeven { pressed 3 with lock := true }).btn 7).lock = true ∧
    (helpIn .held).pressAnswer true = .ignored ∧ (helpIn .service).pressAnswer true = .reported ∧
    (withSeven (pressed 1)).pressAnswer false = .dispatched ∧
    ((withSeven (pressed 1)).btn 7).allowance ≠ some 0 ∧ ((withSeven (pressed 0)).btn 7).allowance = some 0 ∧
    ((seven true .stuck).btn 7).phase = .stuck ∧ plain.lampChannel = none ∧
    ((withOne idleChan).chan 1).state = .idle ∧ (withOne idleChan).gated 1 = false ∧
    ((inState .moving).chan 1).state ≠ .idle := by decide

/-- Due records of one level in slots 1 and 2, one of a lower level in slot 0. -/
def twoDue : State :=
  ((live.withSlot 0 (some { record .help .called false with level := .notice })).withSlot 1
    (some (record .guardOpen .raised true))).withSlot 2 (some (record .driverFault .clearing false))

theorem witness_TransmitterChooses_due :
    twoDue.slotAt 1 = some (record .guardOpen .raised true) ∧ (record .guardOpen .raised true).due = true ∧
    (∀ j ∈ sixteen, ∀ q ∈ twoDue.slotAt j, q.due = true →
      levelCode q.level < levelCode Level.attend ∨ (q.level = .attend ∧ 1 ≤ j)) ∧
    (∀ j, live.slotAt j = none) ∧ (record .guardOpen .raised true).state = .raised ∧
    (record .guardOpen .acknowledged true).state = .acknowledged ∧
    (record .driverFault .clearing false).state = .clearing := by decide

/-- The node when its line-loss timer runs out, channel 1 with a loss action in a state, output 5 with a safe
level. -/
def losing (st : ChanState) (finish : Bool) : State :=
  { (inState st).withChan 1 { movingChan with
      state := st, held := .copy { linear with lossFinish := finish }, slot := some 5 } with
    ring.lossTimer := some 0 }

theorem witness_LineLossIsDeclared_actions :
    (losing .moving false).ring.bypass = false ∧ (losing .moving false).ring.lossTimer = some 0 ∧
    ((losing .moving false).chan 1).state = .moving ∧ ((losing .moving true).chan 1).state = .moving ∧
    ((losing .homing false).chan 1).state = .homing ∧ ((losing .homing true).chan 1).state = .homing ∧
    ((losing .moving false).chan 1).held = .copy { linear with lossFinish := false } ∧
    ((losing .moving true).chan 1).held = .copy { linear with lossFinish := true } ∧
    ((losing .moving true).chan 1).aside = none ∧ linear.enabled = true ∧
    (losing .homing false).mode.node ≠ .closing ∧ asleep.mode.node = .dormant := by decide

/-- Outputs 2 (the joined pair 1) and 5 with entries, the pair's fine level and dead timer as given. -/
def safeNode (f : Int) (d : Nat) : State :=
  (({ live with effect.pairing := 2, ring.lossTimer := some 0 } : State).withOut 2
    { Effect.reset with held := .copy ⟨-255, 160⟩, fine := f, dead := d }).withOut 5
      { Effect.reset with held := .damaged }

theorem witness_LineLossIsDeclared_levels :
    ((safeNode 0 0).out 5).held = .damaged ∧ (safeNode 0 0).joined 5 = false ∧
    ((safeNode 0 0).out 2).held = .copy ⟨-255, 160⟩ ∧ (safeNode 0 0).joined 2 = true ∧
    (0 : Int) ≤ ((safeNode 0 0).out 2).fine * -255 ∧ ((safeNode 256 0).out 2).fine * -255 < 0 ∧
    0 < ((safeNode 256 1).out 2).dead ∧ (-255 * 256 : Int) ≠ ((safeNode 256 1).out 2).fine ∧
    (safeNode 0 0).mode.node ≠ .dormant ∧ (safeNode 0 0).mode.node ≠ .closing := by decide

theorem witness_RepeatedPulseSetsClock_lost :
    modeOfCode (byteAt [1, 0, 0, 0] 0).toNat = some ({ live with mode.lineLost := true } : State).mode.mode ∧
    numAt [1, 0, 0, 0] 1 3 < 86400 ∧ ({ live with mode.lineLost := true } : State).mode.lineLost = true ∧
    ({ live with mode.lineLost := true } : State).ring.bypass = false := by decide

/-- Channel 1 IDLE with park profile 31, its guard CLOSED. -/
def parking : State := withOne { idleChan with held := .copy { linear with park := some 31 } }

theorem witness_PulseChangesMode_channels :
    (parking.chan 1).held = .copy { linear with park := some 31 } ∧ (parking.chan 1).aside = none ∧
    (parking.chan 1).state = .idle ∧ parking.gated 1 = false ∧
    parking.guardsClosed linear.guardMap = true ∧ ((withOne idleChan).chan 1).held = .copy linear ∧
    linear.park = none ∧ ((withOne movingChan).chan 1).state = .moving ∧
    ((withOne movingChan).chan 1).current = some shortMove ∧ ((inState .stopping).chan 1).state = .stopping ∧
    ((inState .stopping).chan 1).current = some shortMove ∧ live.mode.node = .active := by decide

theorem witness_PulseChangesMode_triggers :
    (cueNode 15 (.scanning (.lineCue 9) 0 [])).cue.dispatch ≠ .idle ∧
    (cueNode 15 (.scanning (.lineCue 9) 0 [])).cue.queue.length < 16 ∧
    16 ≤ (cueNode 16 (.scanning (.lineCue 9) 0 [])).cue.queue.length ∧ live.cue.dispatch = .idle ∧
    live.cue.queue = [] := by decide

/-- Button 7 while the last word of its entry, with a first and a third word, is read. -/
def entering (x : Button) (w0 w2 : Word) : State :=
  { withSeven x with
    mem.path := [⟨⟨.button, 7⟩, [⟨w0, false⟩, ⟨0x0A0014, false⟩, ⟨w2, false⟩]⟩]
    mem.access := some ⟨.settings .button, 111, false⟩ }

/-- The copy those words make. -/
def entered (w0 w2 : Word) : Held ButtonSettings :=
  buttonOfWords ([⟨w0, false⟩, ⟨0x0A0014, false⟩, ⟨w2, false⟩] ++ [(entering Button.reset w0 w2).wordAt 111])

theorem witness_ButtonEntryIsTaken_fields :
    (entering (pressed 3) 0xFF05 0x140203).mem.access = some ⟨.settings .button, 111, false⟩ ∧
    (entering (pressed 3) 0xFF05 0x140203).mem.path.head?.map (fun a => a.job) =
      some ⟨.button, (7 : Fin 16).val⟩ ∧
    entered 0xFF05 0x140203 = .copy plain ∧ entered 0x0405 0x140203 = .damaged ∧
    entered 0xFF04 0x140203 = .copy { plain with enabled := false } ∧
    entered 0xFF07 0x140203 = .copy { plain with help := true } ∧
    entered 0xFF05 0x140200 = .copy { plain with allowance := 0 } ∧
    entered 0xFF05 0x140205 = .copy { plain with allowance := 5 } ∧
    entered 0xFF07 0x140205 = .copy { plain with help := true, allowance := 5 } ∧
    (pressed 3).held = .copy plain ∧ Button.reset.held = .absent ∧ plain.enabled = true ∧
    (pressed 3).allowance = some 3 ∧ 5 ≤ 5 ∧ 3 < 5 ∧ ({ pressed 3 with allowance := none } : Button).allowance = none := by
  decide

/-- Button 7 stuck and rough, with the records of both. -/
def troubled : State :=
  ((entering { pressed 0 with closed := true, phase := .stuck, rough := true } 0xFF04 0x140203).withSlot 0
    (some { record .buttonStuck .called true with subject := 7 })).withSlot 1
      (some { record .roughHandling .acknowledged true with subject := 7 })

theorem witness_ButtonEntryIsTaken_records :
    (troubled.btn 7).phase = .stuck ∧ (troubled.btn 7).rough = true ∧
    troubled.findRecord .buttonStuck 7 = some 0 ∧ troubled.findRecord .roughHandling 7 = some 1 := by decide

/-- A CLOSING node. -/
def closingNode : State :=
  { withOne idleChan with mode.mode := .closed, mode.node := .closing }

theorem witness_ConditionEndIsRecorded_rest :
    closingNode.mode.node = .closing ∧
    (∀ d, (closingNode.chan d).state = .unhomed ∨ (closingNode.chan d).state = .idle) ∧
    (∀ i, closingNode.slotAt i = none) ∧ (closingNode.chan 1).aside = none ∧ live.mode.node ≠ .closing ∧
    ((inState .moving).chan 1).state = .moving ∧
    ((withRecord (record .guardOpen .raised true)).slotAt 0).map (fun r => r.state) = some .raised ∧
    ((withSeven { pressed 3 with held := .copy { plain with lampChannel := some 1 } }).btn 7).held =
      .copy { plain with lampChannel := some 1 } ∧ plain.lampChannel ≠ some 1 := by decide

theorem witness_EscalationLiftsLevel_beacon :
    ({ live with alert.overflow := true } : State).alert.overflow = true ∧ live.alert.overflow = false ∧
    (∀ i, live.slotAt i = none) ∧ twoDue.alert.overflow = false ∧
    (record .guardOpen .raised true).state = .raised ∧
    (∀ j ∈ sixteen, ∀ q ∈ twoDue.slotAt j, q.state = .raised ∨ q.state = .called →
      levelCode q.level ≤ levelCode Level.attend) ∧
    live.beaconLevel = live.alert.beacon ∧ twoDue.alert.beacon ≠ twoDue.beaconLevel := by decide

/-- Channel 1 in motion, guard 2 standing open with its opening not yet taken. -/
def standing : State := (withOne movingChan).withGuard 2 ⟨false, 0, true⟩

theorem witness_TickMakesSteps_guards :
    (standing.chan 1).enabled = true ∧ (standing.chan 1).state.inMotion = true ∧
    (standing.chan 1).guardMap.getLsbD (2 : Fin 4).val = true ∧ (standing.guardIn 2).pin = true ∧
    (standing.guardIn 2).isOpen = false ∧ standing.mode.node ≠ .closing ∧
    (∀ g : Fin 4, ((withOne movingChan).guardIn g).pin = false) := by decide

theorem witness_TickMakesSteps_inputs :
    ((withOne { movingChan with state := .homing, homePin := true }).chan 1).homePin = true ∧
    ((withOne { movingChan with state := .homing, rem := 0 }).chan 1).rem = 0 ∧
    (withOne movingChan).sampling = true ∧ movingChan.farRead = true ∧
    ({ movingChan with farPin := true } : Channel).farPin = true ∧
    ({ movingChan with faultPin := true } : Channel).faultPin = true ∧ movingChan.enabled = true ∧
    (withOne { movingChan with faultPin := true }).energised 1 = true := by decide

/-- A STOPPING channel near the end of its travel, with room for one step. -/
def nearEnd (v : Nat) : Channel :=
  { movingChan with state := .stopping, v := v, position := 11999 }

theorem witness_TickMakesSteps_stages :
    ({ movingChan with current := none } : Channel).current = none ∧
    ({ movingChan with arrived := true, dwell := 2 } : Channel).dwell = 2 ∧
    ({ movingChan with arrived := true, dwell := 1 } : Channel).dwell ≤ 1 ∧
    ({ movingChan with rem := 0 } : Channel).rem = 0 ∧ (nearEnd 8192).v ≤ (nearEnd 8192).vs ∧
    (nearEnd 132096).vs < (nearEnd 132096).v ∧ (nearEnd 132096).held = .copy linear ∧
    ((nearEnd 132096).phi + max ((nearEnd 132096).v - (nearEnd 132096).accel) (nearEnd 132096).vs) / 65536 = 2 ∧
    linear.travel - (nearEnd 132096).position = 1 ∧ (nearEnd 132096).outward = true ∧
    ((nearEnd 66560).phi + max ((nearEnd 66560).v - (nearEnd 66560).accel) (nearEnd 66560).vs) / 65536 = 1 ∧
    (nearEnd 132096).aside = none ∧ (nearEnd 132096).slot = none := by decide

theorem witness_SegmentsEnd_distances :
    shortMove.kind = .byDistance ∧ ({ shortMove with kind := .goto } : Segment).kind = .goto ∧
    ({ shortMove with kind := .dwell } : Segment).kind = .dwell ∧ 0 < 3200 := by decide

theorem witness_SegmentsEnd_done :
    (withOne (arriving ⟨10, 1, 1⟩ 0)).ring.sending.isSome = true ∧
    (withOne (arriving ⟨10, 1, 1⟩ 0)).ring.bypass = false ∧
    (withOne (arriving ⟨10, 1, 1⟩ 0)).ring.insertion.length < 8 ∧ linear.reportDone = true ∧
    (arriving ⟨10, 1, 1⟩ 0).held = .copy linear := by decide

/-- A channel whose stop, with an outcome, is complete, a START waiting; guard 2 open or closed. -/
def stopped (e : Ending) (isOpen : Bool) : State :=
  (withOne { movingChan with state := .stopping, slot := some 5, ending := some e }).withGuard 2
    ⟨isOpen, 0, isOpen⟩

theorem witness_MotionEnds_reports :
    ((stopped .faulted false).chan 1).ending = some .faulted ∧ ((stopped .stopped false).chan 1).slot = some 5 ∧
    ((stopped .stopped false).chan 1).ending ≠ some .faulted ∧ (stopped .stopped false).gated 1 = false ∧
    (stopped .stopped false).guardsClosed ((stopped .stopped false).chan 1).guardMap = true ∧
    (stopped .stopped true).guardsClosed ((stopped .stopped true).chan 1).guardMap = false ∧
    ((stopped .stopped true).chan 1).profile = some 3 ∧ (stopped .stopped true).ring.sending.isSome = true ∧
    (stopped .stopped true).ring.insertion.length < 8 ∧
    ({ withOne { movingChan with state := .stopping } with
      cue := ⟨List.replicate 15 (.lineCue 1), .scanning (.lineCue 9) 0 [], none⟩ } : State).cue.queue.length <
        16 := by decide

/-- Guard 2 OPEN over a HALTED channel 1 that needs the attendant, with a GUARD-OPEN record in a state. -/
def attended (st : RecState) : State :=
  ((withOne { idleChan with state := .halted }).withGuard 2 ⟨true, 9, true⟩).withSlot 0
    (some (record .guardOpen st true))

theorem witness_GuardClosingReleases_records :
    (attended .called).findRecord .guardOpen 2 = some 0 ∧ (attended .called).sampling = true ∧
    ((attended .called).chan 1).attend = true ∧ ((attended .called).chan 1).state = .halted ∧
    ((attended .called).slotAt 0).map (fun r => r.state) = some .called ∧
    ((attended .acknowledged).slotAt 0).map (fun r => r.state) = some .acknowledged ∧
    (attended .acknowledged).ring.sending.isSome = true ∧
    (((attended .called).withGuard 1 ⟨true, 0, true⟩).withChan 1 { idleChan with
      state := .halted, held := .copy { linear with guardMap := 6 } }).guardIn 1 = ⟨true, 0, true⟩ ∧
    (6 : BitVec 4).getLsbD (1 : Fin 4).val = true := by decide

theorem witness_GuardClosingReleases_test :
    (attended .called).guardsClosed linear.guardMap = false ∧
    ((attended .called).withGuard 2 ⟨false, 0, false⟩).guardsClosed linear.guardMap = true ∧
    ((attended .called).withGuard 2 ⟨false, 0, false⟩).mode.node ≠ .closing ∧
    ((inState .fault).chan 1).state = .fault ∧
    ((withOne { movingChan with state := .fault, faultReason := some .driver, faultPin := true }).chan
      1).faultPin = true ∧
    ((withOne { movingChan with state := .fault, faultReason := some .driver }).chan 1).faultReason =
      some .driver ∧
    ((withOne { movingChan with state := .fault, faultReason := some .limit }).chan 1).faultReason =
      some .limit ∧ (∀ i, (inState .fault).slotAt i = none) ∧ ((inState .idle).chan 1).state = .idle := by
  decide

/-- Every alert slot taken, channel 1 moving outward. -/
def crowdedTable : State := fullTable.withChan 1 movingChan

theorem witness_InputsFaultChannels_full :
    crowdedTable.emptySlot = none ∧ crowdedTable.findRecord .limitHit 1 = none ∧
    (crowdedTable.chan 1).farRead = true ∧ (crowdedTable.chan 1).profile = some 3 ∧
    crowdedTable.mode.node ≠ .closing ∧ crowdedTable.ring.sending.isSome = true ∧
    crowdedTable.ring.insertion.length < 8 ∧ ({ inState .moving with mode.node := .closing } : State).mode.node = .closing := by
  decide

/-- The words of a channel entry with flags and travel as given, less the last. -/
def chanWords (flags travel : Word) : List Delivered :=
  [⟨flags, false⟩, ⟨travel, false⟩, ⟨0xFA007D, false⟩, ⟨3, false⟩] ++ List.replicate 3 ⟨0, false⟩

/-- The copy those words make. -/
def chanEntered (flags travel : Word) : Held ChannelSettings :=
  channelOfWords (chanWords flags travel ++ [⟨0, false⟩])

/-- The field of an entered copy, where it is a copy. -/
def ofCopy {α : Type} (f : ChannelSettings → α) (h : Held ChannelSettings) : Option α := h.get?.map f

theorem witness_ChannelEntryIsTaken_fields :
    ofCopy (fun k => k.enabled) (chanEntered 0x32FF0000 12000) = some false ∧
    ofCopy (fun k => k.rotary) (chanEntered 0x32FF0003 12000) = some true ∧
    ofCopy (fun k => k.travel) (chanEntered 0x32FF0001 3999) = some 3999 ∧ 3999 < idleChan.position ∧
    ofCopy (fun k => k.travel) (chanEntered 0x32FF0001 4000) = some 4000 ∧
    chanEntered 0x321F0001 12000 ≠ .damaged ∧ idleChan.held = .copy linear ∧
    ((chanReading .idle).withChan 3 { idleChan with held := .absent }).chan 3 =
      { idleChan with held := .absent } ∧
    channelWordDamaged 0 ⟨0, true⟩ = true ∧ anyChannelDamage 0 [] = false ∧
    channelOfWords (⟨0, true⟩ :: (chanWords 0 0).tail ++ [⟨0, false⟩]) = .damaged ∧
    ({ idleChan with state := .resting, restState := some .idle } : Channel).restState = some .idle := by
  decide

theorem witness_PrefetchIsDelivered_directory :
    (FetchItem.directory 31).wordDamaged 1 ((fetching (.directory 31) false [⟨0x0002000A, false⟩] 591
      3).wordAt 591) = true ∧
    directoryOfWords [⟨0x0000000A, false⟩, (fetching (.directory 31) false [⟨0x0000000A, false⟩] 591
      0).wordAt 591] = some ⟨10, 0, 0⟩ ∧
    ((fetching (.directory 31) false [] 590 3).chan 1).slot = none ∧
    ((fetching (.directory 31) false [] 590 3).chan 1).aside = none ∧
    ((fetching (.directory 31) false [] 590 3).chan 1).profile = some 3 ∧
    (fetching (.directory 31) false [] 590 3).mode.node ≠ .closing := by decide

theorem witness_EffectBegins_joined :
    (pairNode { Effect.reset with fine := 30720 }).joined 2 = true ∧
    ((pairNode { Effect.reset with fine := 30720 }).out 2).dead = 0 ∧
    (0 : Int) ≤ ((pairNode { Effect.reset with fine := 30720 }).out 2).fine * 0 ∧ (0 * 256 : Int) ≠ 30720 ∧
    (0 : Int) ≤ ((pairNode { Effect.reset with fine := 30720 }).out 2).fine * 255 ∧
    (max (-255) (min 255 255) * 256 : Int) ≠ 30720 := by decide

theorem witness_EffectAlertAndLocalPlayWordsAreTaken_settings :
    carrierOfWord ⟨3, false⟩ = none ∧ carrierOfWord ⟨0, true⟩ = none ∧ live.effect.carrier = none ∧
    ({ reading .effect 8 0 2 with effect.carrier := some .khz1 } : State).effect.carrier ≠ none ∧
    ({ reading .mode 0 0 3 with mode.lineLost := true } : State).mode.lineLost = true ∧
    (reading .mode 0 0 3).mode.lineLost = false := by decide

theorem witness_PutIsExamined_words :
    (7 : Nat) / 8 * 8 = 0 + 0 ∧ 0 < ([5] : List Word).length ∧ (15 : Nat) / 8 * 8 < 9 ∧
    0 + ([5] : List Word).length ≤ (8 : Nat) / 8 * 8 ∧ 11 < 12 ∧
    applyRules (wordRules 1 0 0 false 3) 3 = none ∧
    live.storedFrom 0 1 [0] 1 [0] = some [1] ∧ live.clampedFrom 0 1 [0] 1 [0] = true := by decide

theorem witness_SaveGoesOn_units : (32 : Nat) < 33 ∧ 0 < (33 : Nat) := by decide

theorem witness_RestartResetsNode_saving :
    (saving (.erase 0) (some (.erase 0))).ring.sending.isSome = true ∧
    ((saving (.erase 0) (some (.erase 0))).mgmt.save.map fun p => p.begun) = some true ∧
    ({ live with mgmt.save := some ⟨.erase 0, 0, [], .loadFailed, false⟩ } : State).mgmt.save =
      some ⟨.erase 0, 0, [], .loadFailed, false⟩ ∧
    ({ live with ring.sending := none } : State).ring.sending = none ∧
    ({ live with ring.sending := none } : State).mgmt.save = none := by decide

theorem witness_LoadProceedsAndEnds_ready :
    (loadingAt .header).mgmt.waiting = [] ∧ (loadingAt .header).ring.bypass = true ∧
    (loadingAt .header).ring.sending = none ∧ (loadingAt .header).ring.relay = [] ∧
    (loadingAt .header).ring.insertion = [] ∧ (loadingAt .header).mode.lineLost = false ∧
    (∀ j, (loadingAt .header).slotAt j = none) ∧
    ({ loadingAt .header with straps := ⟨0, 0⟩ } : State).addressed = false ∧
    ({ loadingAt .header with ring.sending := some note } : State).ring.sending.isSome = true := by decide

/-! ### Clauses of whole frames, cue entries and presses -/

/-- The assembler with all of a frame's characters but the last. -/
def almost (f : Frame) : State := assembling .collecting f.chars.dropLast

theorem witness_AssemblerTakesCharacter_completion :
    (almost note).ring.assembler.state = .collecting ∧ note.chars.length = 7 + 0 ∧
    longFrame.chars.length = 7 + 32 ∧ (almost longFrame).ring.assembler.chars.length = 38 ∧
    longFrame.chars[4]? = some 32 ∧
    crc16 (note.chars.take 5) = BitVec.ofNat 16
      ((note.chars.getD 5 0).toNat * 256 + (note.chars.getD 6 0).toNat) ∧
    crc16 (note.chars.take 5) ≠ BitVec.ofNat 16 ((note.chars.getD 5 0).toNat * 256 + (0 : Byte).toNat) ∧
    note.chars.getD 0 0 ∈ ([0x01, 0x02, 0x03, 0x04, 0x05, 0x06, 0x11, 0x12, 0x13, 0x14, 0x15] : List Byte) ∧
    (0x16 : Byte) ∉ ([0x01, 0x02, 0x03, 0x04, 0x05, 0x06, 0x11, 0x12, 0x13, 0x14, 0x15] : List Byte) ∧
    (longFrame.chars.getD 2 0).toNat = 120 ∧ 120 < (121 : Byte).toNat := by decide +kernel

theorem witness_GoodFrameIsHandled_not_admitted :
    (⟨0x01, 127, 2, 5, [1, 0, 0, 0]⟩ : Frame).good = true ∧ (⟨0x02, 2, 0, 5, [1]⟩ : Frame).good = true ∧
    (2 : Byte) ≠ live.address ∧ (⟨0x03, 127, 0, 5, []⟩ : Frame).good = true ∧
    (⟨0x06, 1, 0, 5, [0]⟩ : Frame).good = true ∧ (⟨0x04, 127, 0, 5, []⟩ : Frame).good = true ∧
    (127 : Byte) ≠ live.address ∧ (⟨0x05, 1, 2, 5, []⟩ : Frame).good = true ∧
    (⟨0x11, 0, 0, 5, [1, 2, 3, 4]⟩ : Frame).good = true ∧ (⟨0x11, 0, 2, 5, [1, 2, 3]⟩ : Frame).good = true ∧
    (⟨0x12, 0, 2, 5, [1, 2, 3, 4, 5, 6]⟩ : Frame).good = true ∧ live.ring.bypass = false ∧
    (0 : Byte) ≠ live.address := by decide

theorem witness_ScanReadsEntry_decoders :
    conditionOfWords [⟨0x85000004, false⟩, ⟨0x4030F, false⟩] =
      some ⟨true, 5, 0, 0, 4, 15, some 3, 4⟩ ∧
    conditionOfWords [⟨0x85000005, false⟩, ⟨0x4030F, false⟩] = none ∧
    conditionOfWords [⟨0x85000004, false⟩, ⟨0x4040F, false⟩] = none ∧
    conditionOfWords [⟨0x85000004, false⟩, ⟨0x5030F, false⟩] = none ∧
    field (0x70000000 : Word) 28 4 = 7 ∧ field (0x00030002 : Word) 28 4 = 0 ∧
    field (0x10000001 : Word) 28 4 = 1 ∧ field (0x20000001 : Word) 28 4 = 2 ∧
    field (0x30FF0000 : Word) 28 4 = 3 ∧ field (0x31000000 : Word) 16 9 = 256 ∧
    field (0x40000300 : Word) 28 4 = 4 ∧ field (0x50000001 : Word) 28 4 = 5 ∧
    field (0x60000001 : Word) 28 4 = 6 ∧ (⟨0, true⟩ : Delivered).bad = true ∧
    actionOfWord ⟨0x70000000, false⟩ = none ∧ actionOfWord ⟨0x50000001, false⟩ = some (.lock 1) ∧
    actionsOfWords [⟨0x50000001, false⟩] = some [.lock 1] := by decide

theorem witness_KeyAndHushAcknowledge_overflow :
    (∀ i, live.slotAt i = none) ∧ twoDue.slotAt 1 = some (record .guardOpen .raised true) ∧
    (record .guardOpen .raised true).state = .raised ∧
    (∀ j ∈ sixteen, ∀ q ∈ twoDue.slotAt j, q.state = .raised ∨ q.state = .called →
      levelCode q.level ≤ levelCode (record .guardOpen .raised true).level) := by decide

theorem witness_ButtonEntryIsTaken_enabled :
    (entering { pressed 3 with held := .copy { plain with enabled := false }, closed := true } 0xFF05
      0x140203).btn 7 = { pressed 3 with held := .copy { plain with enabled := false }, closed := true } ∧
    entered 0xFF05 0x140200 = .copy { plain with allowance := 0 } ∧ (3 : Nat) ≠ 0 ∧
    (entering Button.reset 0xFF04 0x140203).btn 7 = Button.reset ∧ Button.reset.held = .absent ∧
    ({ plain with enabled := false } : ButtonSettings).enabled = false ∧
    ([] : List Delivered).length < 3 ∧ (⟨0, true⟩ : Delivered).bad = true ∧
    (reading .button 15 0 140).mem.path = ⟨⟨.button, (15 : Fin 16).val⟩, []⟩ :: [] := by decide

/-! ### Clauses of a CLOSING node -/

/-- A CLOSING node whose channel 1 alone is not at rest. -/
def closingWith (ch : Channel) : State :=
  { withOne ch with mode.mode := .closed, mode.node := .closing }

theorem witness_last_channel_of_closing_node :
    (closingWith { movingChan with state := .homing }).mode.node = .closing ∧
    (∀ d : Fin 4, d ≠ 1 → ((closingWith movingChan).chan d).state = .unhomed) ∧
    (∀ i, (closingWith movingChan).slotAt i = none) ∧
    ((closingWith { movingChan with state := .homing }).chan 1).state = .homing ∧
    ((closingWith { movingChan with state := .homing, rem := 0 }).chan 1).rem = 0 ∧
    ((closingWith { movingChan with state := .stopping }).chan 1).v ≤
      ((closingWith { movingChan with state := .stopping }).chan 1).vs ∧
    (closingWith movingChan).sampling = true ∧ (closingWith movingChan).energised 1 = true ∧
    ((closingWith movingChan).chan 1).enabled = true ∧ ((closingWith movingChan).chan 1).farRead = true ∧
    ((closingWith movingChan).chan 1).aside = none ∧
    ((closingWith movingChan).guardIn 2).isOpen = false ∧
    ((closingWith movingChan).chan 1).guardMap.getLsbD (2 : Fin 4).val = true := by decide

theorem witness_MotionEnds_blocked :
    ((stopped .stopped true).chan 1).slot.isSome = true ∧
    ((stopped .stopped true).chan 1).ending ≠ some .faulted ∧
    (stopped .stopped true).guardsClosed ((stopped .stopped true).chan 1).guardMap = false ∧
    ((stopped .stopped true).chan 1).aside = none ∧
    ((closingWith { movingChan with state := .homing, slot := some 5 }).withGuard 2
      ⟨true, 0, true⟩).guardsClosed linear.guardMap = false := by decide

theorem witness_LineLossIsDeclared_closing :
    (after .lineLossExpiry ({ closingWith { movingChan with
        state := .homing, held := .copy { linear with lossFinish := false } } with
      ring.lossTimer := some 0 } : State)).mode.node = .dormant ∧
    (closingWith movingChan).mode.node ≠ .dormant := by decide

/-- Channel 1 in the first of two segments, more of its profile in hand and owed. -/
def inPass : State :=
  { withOne { movingChan with dir := some ⟨10, 2, 0⟩, buffer := [⟨1, shortMove⟩, ⟨2, shortMove⟩] } with
    ring.lossTimer := some 0
    motion.owed := [⟨1, .segment 1 625, false⟩, ⟨1, .segment 2 622, false⟩] }

theorem witness_LineLossIsDeclared_finish :
    (inPass.chan 1).dir = some ⟨10, 2, 0⟩ ∧ 2 = 2 * ((inPass.chan 1).ord / 2 + 1) ∧
    (inPass.chan 1).held = .copy linear ∧ linear.lossFinish = true ∧ (inPass.chan 1).aside = none ∧
    (⟨1, .segment 1 625, false⟩ : Fetch) ∈ inPass.motion.owed ∧
    (⟨1, .segment 2 622, false⟩ : Fetch) ∈ inPass.motion.owed ∧ 1 < 2 := by decide

theorem witness_GuardOpeningHalts_reports :
    (withOne movingChan).ring.sending.isSome = true ∧ (withOne movingChan).ring.bypass = false ∧
    (withOne movingChan).ring.insertion.length + 4 ≤ 8 ∧ linear.reportDone = true ∧
    (∀ c, ((withOne movingChan).chan c).aside = none) ∧ ((withOne movingChan).chan 1).profile = some 3 ∧
    (cueNode 12 (.scanning (.lineCue 9) 0 [])).cue.dispatch ≠ .idle ∧
    (cueNode 12 (.scanning (.lineCue 9) 0 [])).cue.queue.length + 4 ≤ 16 ∧
    (∀ c, (live.chan c).profile = none) := by decide

theorem witness_ChannelEntryIsTaken_closing :
    ({ chanReading .idle with mode.mode := .closed, mode.node := .closing } : State).mode.node = .closing ∧
    ((chanReading .idle).chan 3).held = .copy linear ∧ linear.rotary ≠ true ∧
    channelOfWords (chanWords 0x32FF0003 12000 ++ [⟨0, false⟩]) ≠ .damaged ∧
    (List.replicate 7 (⟨0, false⟩ : Delivered) ++ [(⟨0, true⟩ : Delivered)]).length = 8 ∧
    (⟨0, true⟩ : Delivered) ∈ List.replicate 7 (⟨0, false⟩ : Delivered) ++ [(⟨0, true⟩ : Delivered)] := by decide

/-! ### Clauses of motion -/

theorem witness_PulseWakesNode_blocked :
    ((asleep.withChan 1 { idleChan with state := .resting, restState := some .unhomed }).withSlot 0
      (some (record .guardOpen .raised true))).gated 1 = true ∧
    (asleep.withGuard 2 ⟨true, 0, true⟩).guardsClosed linear.guardMap = false := by decide

theorem witness_SegmentsEnd_fetch :
    ({ awaiting with dir := some ⟨10, 3, 0⟩ } : Channel).finalPass = false ∧
    (∀ y, y ∈ ([] : List Buffered) → y.ord ≠ 0 + 2) ∧ (withOne awaiting).motion.owed = [] ∧
    ¬(((withOne awaiting).chan 1).finalPass = false ∧ (1 = 0 ∨ 0 + 2 < 1 * 1)) ∧
    (⟨2, shortMove⟩ : Buffered).ord = 2 ∧ ((0 : Nat) + 2 < 3 * (0 / 3 + 1)) := by decide

theorem witness_PrefetchIsDelivered_waiting :
    ((({ fetching (.segment 0 622) false [⟨200, false⟩, ⟨1000, false⟩] 624 (encodeWord 15625) with
      mode.clock := 0 } : State).withChan 1 { movingChan with current := none }).chan 1).current = none ∧
    ((fetching (.segment 0 622) false [⟨200, false⟩, ⟨1000, false⟩] 624 (encodeWord 15625)).wordAt 624).bad =
      false ∧ (⟨0, true⟩ : Delivered).bad = true ∧ 2 < 3 ∧
    segmentOfWords [⟨0xC0000000, false⟩, ⟨1000, false⟩, ⟨15625, false⟩] = none := by decide

theorem witness_FadeTakesStep_pair :
    (pairNode Effect.reset).joined 3 = true ∧ (2 : Fin 8).val / 2 = (3 : Fin 8).val / 2 ∧
    (2 : Fin 8).val % 2 = 0 ∧ ((pairNode Effect.reset).out 2).dead = 0 ∧
    ((pairNode Effect.reset).out 2).running = false ∧
    ((pairNode { Effect.reset with running := true, target := 80 }).out 2).fine = 0 := by decide

theorem witness_CarrierPeriodTakesLevels_levels :
    live.joined 5 = false ∧ (pairNode Effect.reset).effect.pairing.getLsbD (1 : Fin 4).val = true ∧
    (pairNode { Effect.reset with fine := -256 }).driveLevel 2 = 0 ∧
    (pairNode { Effect.reset with fine := -511 }).driveLevel 3 = 1 := by decide

theorem witness_EffectAlertAndLocalPlayWordsAreTaken_held :
    (live.out (evenOf 1)).held = .absent ∧
    ((live.withOut 2 { Effect.reset with held := .damaged }).out (evenOf 1)).held = .damaged ∧
    ((live.withOut 2 { Effect.reset with held := .copy ⟨0, 7⟩ }).out (evenOf 1)).held = .copy ⟨0, 7⟩ ∧
    live.alert.held[Cause.help.code] = .absent ∧ (⟨0, true⟩ : Delivered).bad = true := by decide

/-! ### Clauses of table memory and management -/

/-- The node with a settings path and entries owed. -/
def pathNode (path : List Ask) (owed : List Job) : State := { live with mem.path := path, mem.owed := owed }

theorem witness_ArbiterGrantsOne_needs :
    live.motion.owed = [] ∧ (fetching (.directory 31) false [] 590 0).motion.owed ≠ [] ∧
    (fetching (.segment 2 592) false [] 592 0).motion.fetchWords.length = 0 ∧
    (peekNode [] 0).mgmt.slot = .working (.peek 7 1534 2 []) ∧ ([] : List Delivered).length < 2 ∧
    (putNode 1).mgmt.slot = .working (.put 1 10 [1, 2] false 1) ∧ ([1, 2] : List Word)[1]? = some 2 ∧
    live.mgmt.slot = .empty ∧ live.mgmt.save = none ∧
    ((saving (.erase 2) none).mgmt.save.map fun p => p.step) = some (.erase 2) ∧
    ((saving .header none).mgmt.save.map fun p => p.step) = some .header ∧
    ((savingWords (.program 33) 23 .saveRead 2127).mgmt.save.map fun p => p.step) = some (.program 33) ∧
    ((savingWords (.verify 2127) 0 .verifyRead 2127).mgmt.save.map fun p => p.step) = some (.verify 2127) ∧
    (scanNode 63 [] 0).cue.dispatch = .scanning (.lineCue 9) 63 [] ∧ live.cue.dispatch = .idle ∧
    live.mem.path = [] ∧ (reading .button 15 3 143).mem.path ≠ [] ∧
    (reading .motion 3 0 56).mem.path ≠ [] ∧ (reading .effect 8 0 2).mem.path ≠ [] ∧
    (reading .alert 11 0 27).mem.path ≠ [] ∧ (reading .mode 0 0 3).mem.path ≠ [] := by decide

theorem witness_ArbiterGrantsOne_asks :
    (⟨⟨.alert, 3⟩, []⟩ : Ask) ∈ (pathNode [⟨⟨.alert, 3⟩, []⟩] []).mem.path ∧
    (∀ j, j ∈ (pathNode [] [⟨.button, 2⟩]).mem.owed → j.block ≠ Block.alert) ∧
    (∀ a, a ∈ (pathNode [] [⟨.button, 2⟩, ⟨.alert, 1⟩, ⟨.alert, 4⟩]).mem.path → a.job.block ≠ .alert) ∧
    (∀ k, k ∈ ([⟨.button, 2⟩] : List Job) → k.block ≠ .alert) ∧
    (pathNode [] [⟨.button, 2⟩, ⟨.alert, 1⟩, ⟨.alert, 4⟩]).mem.owed =
      ([⟨.button, 2⟩] : List Job) ++ (⟨.alert, 1⟩ : Job) :: [⟨.alert, 4⟩] := by decide

/-- The node with an access whose requester's part a RESTART cancelled. -/
def staleNode (op : AccessOp) (i : Nat) : State := { live with mem.access := some ⟨op, i, true⟩ }

theorem witness_stale_accesses :
    (staleNode .prefetch 590).mem.access = some ⟨.prefetch, 590, true⟩ ∧
    (staleNode .verifyRead 2127).mem.access = some ⟨.verifyRead, 2127, true⟩ ∧
    (staleNode .scrub 2127).mem.access = some ⟨.scrub, 2127, true⟩ ∧
    (staleNode (.putWrite 5) 27).mem.access = some ⟨.putWrite 5, 27, true⟩ ∧
    Memory.wf (staleNode (.putWrite 5) 27).mem.words = true ∧
    (staleNode .cueRead 144).pending = [] ∧ (staleNode .cueRead 144).nextAction = none ∧
    (staleNode .cueRead 144).mgmt.waiting = [] := by decide

theorem witness_RestartResetsNode_access :
    live.mem.access = none ∧ (putNode 1).mem.access = some ⟨.putWrite 2, 27, false⟩ ∧
    (reading .mode 0 0 3).mem.access = some ⟨.settings .mode, 3, false⟩ ∧
    (putNode 1).ring.sending.isSome = true ∧ (putNode 1).mgmt.save = none := by decide

theorem witness_PutIsExamined_fields :
    (7 : Nat) ≤ (0x70000000 : Word).toNat / 2 ^ 28 % 2 ^ 4 ∧ (0x00030000 : Word).toNat / 2 ^ 28 % 2 ^ 4 = 0 ∧
    (0x20000000 : Word).toNat / 2 ^ 28 % 2 ^ 4 = 2 ∧ (0x30000000 : Word).toNat / 2 ^ 28 % 2 ^ 4 = 3 ∧
    (0x40000000 : Word).toNat / 2 ^ 28 % 2 ^ 4 = 4 ∧ (0x60000000 : Word).toNat / 2 ^ 28 % 2 ^ 4 = 6 ∧
    applyRules (wordRules 5 0 0 false 0x81780F01) 0x81780F01 = some 0x81780F01 ∧
    applyRules (wordRules 5 0 0 false 0x81790F01) 0x81790F01 = none ∧
    applyRules (wordRules 5 0 0 false 0xFF000000) 0xFF000000 = none ∧
    applyRules (wordRules 2 0 0 false 0x05000001) 0x05000001 = some 0x0A000001 ∧
    applyRules (wordRules 5 2 2 false 0x31010000) 0x31010000 = some 0x31010000 ∧
    applyRules (wordRules 5 2 2 false 0x31000000) 0x31000000 = some 0x31010000 ∧
    applyRules (wordRules 0 4 4 false 5) 5 = some 0 ∧ applyRules (wordRules 1 0 12 false 5) 5 = some 0 ∧
    applyRules (wordRules 6 1 1 false 5) 5 = some 0 := by decide

theorem witness_PutWordIsWritten_recalls :
    ({ cueNode 0 (.performing (.lineCue 9) 63 [.start 1 3] 0) with
      mem.access := some ⟨.putWrite 2, 527, false⟩ } : State).cue.dispatch =
      .performing (.lineCue 9) ((527 - 144) / 6) [.start 1 3] 0 ∧
    (cueNode 0 (.performing (.lineCue 9) 63 [.stop 1, .lock 1] 1)).cue.dispatch =
      .performing (.lineCue 9) 63 [.stop 1, .lock 1] 1 ∧ (1 : Nat) ≠ 0 ∧ (62 : Nat) ≠ (527 - 144) / 6 := by
  decide

/-- A save whose word in hand reads uncorrectable. -/
def badWord (st : SaveStep) (n : Nat) (op : AccessOp) (i : Nat) : State :=
  { savingWords st n op i with mem.words := [(i, 3)] }

theorem witness_SaveEnds_damaged :
    (badWord (.program 33) 23 .saveRead 2127).mem.access = some ⟨.saveRead, 2127, false⟩ ∧
    2127 = unitFirst 33 + (List.replicate 23 (0 : Word)).length ∧
    ((badWord (.program 33) 23 .saveRead 2127).wordAt 2127).bad = true ∧
    (badWord (.verify 0) 0 .verifyRead 0).mem.access = some ⟨.verifyRead, 0, false⟩ ∧
    ((badWord (.verify 0) 0 .verifyRead 0).wordAt 0).bad = true := by decide

theorem witness_SaveEnds_header :
    ((saving .header (some (.programHeader []))).mgmt.save.map fun p => p.step) = some .header ∧
    (saving .header (some (.programHeader []))).mgmt.flashBusy = some (.programHeader []) ∧
    (saving .header (some (.programHeader []))).mgmt.flashNext = none ∧ live.mgmt.save = none ∧
    ({ live with mgmt.flashBusy := some (.erase 0) } : State).mgmt.flashBusy = some (.erase 0) ∧
    ({ live with mgmt.flashBusy := some (.erase 0) } : State).mgmt.flashNext = none ∧
    ({ live with mgmt.flashBusy := some (.program 33 []), mgmt.flashNext := some (.erase 0) } : State).mgmt.flashNext
      = some (.erase 0) := by decide

/-- A node at entry 63 with a waiting trigger, in mode `m`. -/
def scanQueued (m : GalleryMode) : State :=
  { scanNode 63 [cond0] 3 with cue.queue := [.lineCue 3, .lineCue 4], mode.mode := m }

theorem witness_ScanReadsEntry_queue :
    (scanQueued .held).mem.access = some ⟨.cueRead, 523, false⟩ ∧
    (scanQueued .held).cue.dispatch = .scanning (.lineCue 9) 63 [cond0] ∧ (scanQueued .held).mode.mode = .held ∧
    (scanQueued .opened).mode.mode ≠ .held ∧ ¬(63 : Nat) < 63 ∧
    (scanQueued .opened).cue.queue = [.lineCue 3, .lineCue 4] ∧
    conditionOfWords [cond0, (scanQueued .opened).wordAt 523] = none := by decide

/-- The last action of entry 63 with a waiting trigger, in mode `m`. -/
def actQueued (m : GalleryMode) : State :=
  { cueNode 0 (.performing (.lineCue 9) 63 [.stop 1] 0) with
    cue.queue := [.lineCue 3, .lineCue 4], mode.mode := m }

theorem witness_ActionIsHandedOn_queue :
    (actQueued .held).cue.dispatch = .performing (.lineCue 9) 63 [.stop 1] 0 ∧
    ([.stop 1] : List Action)[0]? = some (.stop 1) ∧ 0 + 1 = ([.stop 1] : List Action).length ∧
    (actQueued .held).mode.mode = .held ∧ (actQueued .opened).mode.mode ≠ .held ∧
    (actQueued .opened).cue.queue = [.lineCue 3, .lineCue 4] := by decide

/-- R39, R44: the scan of the next waiting trigger begins where a scan ends; HELD discards them all. -/
theorem test_next_trigger :
    (after .cueRead (scanQueued .opened)).cue.dispatch = .scanning (.lineCue 3) 0 [] ∧
    (after .cueRead (scanQueued .opened)).cue.queue = [.lineCue 4] ∧
    (after .cueRead (scanQueued .held)).cue.queue = [] := by decide

theorem witness_RaiseIsRecorded_again :
    twoDue.findRecord .guardOpen 3 = none ∧ twoDue.emptySlot.isSome = true ∧
    (withRecord (record .guardOpen .called false)).findRecord .guardOpen 2 = some 0 ∧
    (withRecord (record .guardOpen .acknowledged true)).findRecord .guardOpen 2 = some 0 ∧
    (15 : Fin 16) ≠ 0 := by decide

theorem witness_StoredWordSurvivesUpset_syndromes :
    syndromeOf (encodeWord 0 ^^^ 1) = 7 ∧ syndromeOf (encodeWord 0 ^^^ (1#39 <<< 31)) = 98 ∧
    syndromeOf (encodeWord 0 ^^^ (1#39 <<< 32)) = 1 ∧ syndromeOf (encodeWord 0 ^^^ (1#39 <<< 38)) = 64 ∧
    syndromeOf (encodeWord 0 ^^^ 3) = 12 := by decide

theorem witness_SaveGoesOn_header :
    ((saving .header (some (.programHeader [1]))).mgmt.save.map fun p => p.step) = some .header ∧
    (saving .header (some (.programHeader [1]))).mgmt.flashBusy = some (.programHeader [1]) ∧
    (saving .header (some (.programHeader [1]))).mgmt.flashNext = none := by decide

theorem witness_PeekIsAnswered_steps :
    (⟨.erase 2, 0, [], .loaded, true⟩ : SaveProgress).step = .erase 2 ∧
    (⟨.program 33, 0, [], .loaded, true⟩ : SaveProgress).step = .program 33 ∧
    (⟨.verify 2127, 0, [], .loaded, true⟩ : SaveProgress).step = .verify 2127 ∧
    (⟨.header, 0, [], .loaded, true⟩ : SaveProgress).step = .header := by decide

theorem witness_LoadProceedsAndEnds_tables :
    (0x11 : BitVec 32) = 0x10 ^^^ (1 : Byte).setWidth 32 ∧
    ∃ x : Nat → BitVec 32, x 0 = 0x11 ∧
      ∀ k, x (k + 1) = if (x k).getLsbD 0 then (x k >>> 1) ^^^ 0xEDB88320#32 else x k >>> 1 :=
  ⟨by decide, fun n => Nat.rec 0x11 (fun _ y => if y.getLsbD 0 then (y >>> 1) ^^^ 0xEDB88320#32 else y >>> 1) n,
    rfl, fun _ => rfl⟩

theorem witness_InsertionQueueTakesFrames_unheld :
    ({ waitingNode 7 [] .empty with ring.sending := none } : State).mgmt.waiting = [] ∧
    (waitingNode 7 [.saveAnswer note] .empty).mgmt.waiting ≠ [] ∧
    (WaitingFrame.saveAnswer note) ≠ .ready note := by decide

theorem witness_ClosureTimesOut_release :
    (seven true .stuck).sampling = true ∧ ((seven true .stuck).btn 7).primed = true ∧
    ((seven true .stuck).btn 7).closed = true := by decide

theorem witness_ClockAndPatternsAdvance_lamps :
    ∀ l ∈ ([.off, .ready, .wait, .helpFast, .helpSteady] : List Lamp),
      ((withSeven { pressed 3 with lamp := l }).btn 7).lamp = l := by decide

/-- R74: a WAIT lamp is dark in the second half of its pattern. -/
theorem test_wait_lamp :
    (after (.lampPatternPhase .wait) (withSeven { pressed 3 with lamp := .wait })).lampPin 7 = false := by
  decide

/-- R80: DIR at a search, with and without the invert. -/
theorem test_dir_at_search :
    ((after (.home 2) (inState .unhomed)).chan 1).dirPin = false ∧
    ((after (.home 2) (withOne { idleChan with held := .copy { linear with invert := true } })).chan 1).dirPin
      = true := by decide

theorem witness_InputsAreSampled_fault :
    ((inState .moving).chan 1).state = .moving ∧ ((inState .homing).chan 1).state = .homing ∧
    ((inState .stopping).chan 1).state = .stopping ∧ ((inState .halted).chan 1).state ≠ .homing ∧
    ((inState .halted).chan 1).state ≠ .moving ∧ ((inState .halted).chan 1).state ≠ .stopping := by decide

/-! ### Clauses of waiting work, rest and first words -/

theorem witness_EmptyQueueProceeds_due :
    (inState .moving).pending = [] ∧ (inState .moving).workDue = [] ∧
    ((inState .moving).chan 1).state = .moving ∧ (inState .moving).sampling = true ∧
    ({ live with ring.lossTimer := some 1 } : State).ring.lossTimer = some 1 ∧
    ({ live with ring.lossTimer := some 1 } : State).workDue = [] ∧
    ({ live with mode.ms := 999, effect.counting := true, effect.counter := 64000 } : State).workDue = [] ∧
    (actQueued .opened).pending = [] ∧ (actQueued .opened).workDue = [.stop 1] ∧
    (waitingNode 7 [.ready note] .empty).workDue = [.waitingFrameJoin] ∧
    (putNode 1).workDue = [.putWordWrite] := by decide

/-- What falls due in a millisecond, in the order of its places: the tick of channel 1, the step of output 5, and the
line-loss timer that runs out. -/
theorem witness_EmptyQueueProceeds_falls_due :
    (({ (inState .moving).withOut 5 { Effect.reset with running := true } with
      sampling := false, ring.lossTimer := some 1, mode.ms := 999 } : State).proceed).pending =
      [.channelTick 1, .fadeStep 5, .lineLossExpiry, .clockSecond] := by decide

/-- Channel 1 MOVING with a copy held aside. -/
def besideMoving : State := withOne { movingChan with aside := some .damaged }

theorem witness_PulseChangesMode_aside :
    (besideMoving.chan 1).held = .copy linear ∧ (besideMoving.chan 1).aside = some .damaged ∧
    (besideMoving.chan 1).state = .moving ∧ besideMoving.mode.node = .active ∧ besideMoving.mode.lineLost = false ∧
    ((withOne { idleChan with state := .halted, aside := some .damaged }).chan 1).aside = some .damaged ∧
    (after (.pulse toAll [3, 0, 0, 0]) (withOne { idleChan with
      state := .halted, aside := some .damaged })).mode.node = .dormant ∧
    (after (.pulse toAll [3, 0, 0, 0]) besideMoving).mode.node ≠ .dormant := by decide

theorem witness_PulseWakesNode_lost :
    ({ asleep with mode.lineLost := true } : State).mode.node = .dormant ∧
    ({ asleep with mode.lineLost := true } : State).mode.mode = .closed ∧
    ({ asleep with mode.lineLost := true } : State).mode.lineLost = true ∧
    ({ asleep with mode.lineLost := true } : State).ring.bypass = false := by decide

/-- A node with an idle transmitter. -/
def quietLine : State := { live with ring.sending := none }

theorem witness_RaiseIsRecorded_idle :
    quietLine.findRecord .guardOpen 2 = none ∧ quietLine.emptySlot = some 0 ∧ quietLine.ring.bypass = false ∧
    quietLine.ring.sending = none ∧ quietLine.mode.lineLost = false ∧ quietLine.ring.relay = [] ∧
    (∀ j, quietLine.slotAt j = none) := by decide

theorem witness_ChannelEntryIsTaken_words :
    ({ chanReading .idle with mem.path := [⟨⟨.motion, 3⟩, []⟩] } : State).mem.path =
      ⟨⟨.motion, (3 : Fin 4).val⟩, []⟩ :: [] ∧ ([] : List Delivered).length < 7 ∧
    (channelWords.take 6).length < 7 ∧ channelWordDamaged 6 ((chanReading .idle).wordAt 63) = false := by decide

theorem witness_ChannelEntryIsTaken_last :
    (({ chanReading .moving with mem.words := [(63, 3)] } : State).wordAt 63).bad = true ∧
    (({ chanReading .moving with mem.words := [(63, 3)] } : State).chan 3).state = .moving ∧
    (({ chanReading .halted with mem.words := [(63, 3)] } : State).chan 3).state.replaceable = false ∧
    ({ chanReading .halted with mem.words := [(63, 3)] } : State).ring.sending.isSome = true ∧
    anyChannelDamage 0 channelWords = false := by decide

/-- A complete directory entry of two segments in one pass, with fetches owed: channel 1's places 0 and 2, and one
of another channel. -/
def entryComplete : State :=
  { fetching (.directory 31) false [⟨0x010201FF, false⟩] 591 0 with
    motion.owed := [⟨1, .directory 31, false⟩, ⟨1, .segment 0 0, false⟩, ⟨2, .segment 2 0, false⟩,
      ⟨1, .segment 2 0, false⟩] }

theorem witness_PrefetchIsDelivered_owed :
    entryComplete.mem.access = some ⟨.prefetch, 591, false⟩ ∧ (entryComplete.chan 1).state = .moving ∧
    entryComplete.motion.fetchWords = [⟨0x010201FF, false⟩] ∧ (entryComplete.wordAt 591).bad = false ∧
    directoryOfWords [⟨0x010201FF, false⟩, entryComplete.wordAt 591] = some ⟨511, 2, 1⟩ ∧
    (after .prefetchRead entryComplete).motion.owed = [⟨1, .segment 0 2125, false⟩, ⟨2, .segment 2 0, false⟩] := by
  decide

theorem witness_FadeTakesStep_expiry :
    live.joined 4 = false ∧
    0 < ((pairNode { Effect.reset with running := true, target := -80, dead := 1 }).out 2).dead ∧
    ((pairNode Effect.reset).out 2).running = false ∧
    ((pairNode { Effect.reset with running := true, fine := 256 }).out 2).fine ≠ 0 ∧
    ((pairNode { Effect.reset with running := true, target := -80, remaining := 160 }).out 2).dead = 0 ∧
    ((pairNode { Effect.reset with running := true, target := -80, remaining := 160 }).out 2).running = true ∧
    0 < ((pairNode { Effect.reset with running := true, target := -80, remaining := 160 }).out 2).remaining ∧
    128 = ((-80 * 256 : Int).natAbs + 160 - 1) / 160 := by decide

theorem witness_EffectAlertAndLocalPlayWordsAreTaken_first :
    (reading .effect 7 0 78).mem.access = some ⟨.settings .effect, 78, false⟩ ∧
    (reading .effect 7 0 78).mem.path = ⟨⟨.effect, (7 : Fin 8).val⟩, []⟩ :: [] ∧
    (List.replicate 1 (⟨0, false⟩ : Delivered)).length = 1 := by decide

/-- A PUT of word 0 alone. -/
def putFirst : State :=
  { live with
    mgmt.slot := .working (.put 0 0 [0x0032007F] false 0), mem.access := some ⟨.putWrite 0x0032007F, 0, false⟩ }

theorem witness_PutWordIsWritten_one_word :
    putFirst.mem.access = some ⟨.putWrite 0x0032007F, 0, false⟩ ∧
    putFirst.mgmt.slot = .working (.put 0 0 [0x0032007F] false 0) ∧
    ([0x0032007F] : List Word).length ≤ 0 + 1 ∧ putFirst.ring.bypass = false ∧ putFirst.mgmt.waiting = [] ∧
    putFirst.ring.insertion.length < 8 ∧ putFirst.ring.sending.isSome = true := by decide

theorem witness_RestartResetsNode_idle :
    ({ saving (.erase 0) (some (.erase 0)) with ring.sending := none } : State).ring.sending = none ∧
    ({ saving (.erase 0) (some (.erase 0)) with ring.sending := none } : State).mgmt.save =
      some ⟨.erase 0, 0xFFFFFFFF#32, [], .loaded, true⟩ ∧
    ({ quietLine with mgmt.save := some ⟨.erase 0, 0, [], .loadFailed, false⟩ } : State).mgmt.save =
      some ⟨.erase 0, 0, [], .loadFailed, false⟩ ∧
    ((withSeven { pressed 1 with pin := true }).btn 7).held = .copy plain ∧
    ((withSeven { pressed 1 with pin := true }).btn 7).pin = true ∧ plain.enabled = true ∧
    (live.btn 7).held = .absent := by decide

theorem witness_LoadProceedsAndEnds_ends :
    (loadingAt (.words 2127 0 5)).mem.owed = [] ∧ (loadingAt .header).ring.bypass = true ∧
    (loadingAt .header).ring.sending = none ∧ (loadingAt .header).mgmt.waiting = [] := by decide

/-! ## The same rules run once -/

/-- R57: an action that a RESTART recalled is not performed. -/
theorem test_recalled_start : ((after (.start 1 3) recalling).chan 1).state = .idle ∧
    (after (.start 1 3) recalling).cue.recalled = none := by decide

/-- R124: the first period takes the levels as they stand. -/
theorem test_first_period :
    ((after .effectSettingsRead ((reading .effect 8 0 2).withOut 5 { Effect.reset with
      fine := 65280 })).out 5).highTime = 80000 := by decide

/-- R110: a guard that stands open halts the channel at its tick. -/
theorem test_tick_halts : ((after (.channelTick 1) standing).chan 1).state = .halted := by decide

/-- R110: FAR comes before FAULT, and home before both. -/
theorem test_tick_order :
    ((after (.channelTick 1) (withOne { movingChan with farPin := true, faultPin := true })).chan
      1).faultReason = some .limit ∧
    ((after (.channelTick 1) (withOne { movingChan with
      state := .homing, homePin := true, faultPin := true })).chan 1).state = .idle := by decide

/-- R179: a character on the line: start bit, data bits least significant first, mark bit, stop bit. -/
theorem test_character_bits :
    charBits true 0x53 =
      [false, true, true, false, false, true, false, true, false, true, true] := by decide

/-- R182: word 5 stands at byte 52 of the flash, most significant byte first. -/
theorem test_flash_place :
    (FlashOp.program 0 [0x01020304]).place = (32, [1, 2, 3, 4]) ∧ flashByte 5 = 52 := by decide

/-- R47: a PUT to an entry of which nothing has been handed on recalls the action that was about to be. -/
theorem test_put_recalls_action :
    ((after (.start 1 3) (after .putWordWrite { withOne idleChan with
      cue := ⟨[], .performing (.lineCue 9) 63 [.start 1 3] 0, none⟩
      mem.access := some ⟨.putWrite 2, 527, false⟩ })).chan 1).state = .idle := by decide

/-- R59, R67: enabling a button stops its refill timer. -/
theorem test_enable_stops_refill :
    ((after .buttonSettingsRead (entering { pressed 1 with
      held := .copy { plain with enabled := false }, refill := some 5 } 0xFF05 0x140203)).btn 7).refill =
      none := by decide

/-- R110: FAULT sampled on a moving channel waits for step 4 of its tick. -/
theorem test_fault_waits_for_tick :
    ((after (.inputSample (.fault 1) true) (withOne movingChan)).chan 1).state = .moving ∧
    ((after (.channelTick 1) (after (.inputSample (.fault 1) true) (withOne movingChan))).chan 1).state =
      .fault := by decide

/-- R165: a verify read that outlives its save runs to its end of itself. -/
theorem test_stale_verify_read :
    (staleNode .verifyRead 5).workDue = [.saveVerifyRead 0] ∧
    (savingWords (.verify 5) 0 .verifyRead 5).workDue = [] := by decide

end Sys2Proof.Tests
end

