-- ==== Sys2Proof/Proofs/Safety.lean ====
section
/-! PROOF. Every command answers a next state, leaves the waiting commands alone and keeps the four parts of
safety (`Steady`): told by the frame lemmas for a tame command, and here for the commands that change guard
readings or reset the node. -/
namespace Sys2Proof.Machine

/-- An operation that takes `s` to `t` leaves the commands that wait alone and keeps what is safe. -/
structure Steady (s t : State) : Prop where
  pending : t.pending = s.pending
  kept    : Kept s t

theorem Tame.steady {s t : State} (h : Tame s t) : Steady s t := ⟨h.pending, h.kept⟩

theorem Calm.steady {s t : State} (h : Calm s t) : Steady s t := h.tame.steady

namespace Steady
variable {s t u : State}

theorem refl (s : State) : Steady s s := (Calm.refl s).steady

theorem trans (h : Steady s t) (k : Steady t u) : Steady s u :=
  ⟨k.pending.trans h.pending, h.kept.trans k.kept⟩

theorem ite {p : Prop} [Decidable p] (ht : p → Steady s t) (hu : ¬p → Steady s u) :
    Steady s (if p then t else u) := by
  split
  · exact ht ‹_›
  · exact hu ‹_›

end Steady

section Guards
variable (s : State)

theorem guardClosing_steady (g : Fin 4) : Steady s (s.guardClosing g) :=
  ⟨((calm_conditionEnd _ _ _).trans (Calm.foldl _ calm_releaseTest _ _)).pending, kept_guardClosing s g⟩

theorem guardOpened_steady (g : Fin 4) : Steady s (s.guardOpened g) :=
  ⟨((Calm.foldl _ (fun a c => calm_guardHalt a c g) four _).trans (calm_raise _ _ _)).pending,
    kept_guardOpened s g⟩

/-- Step 1 of a tick: the guards that stand open, one after another. -/
theorem tickGuards_steady (c : Fin 4) : Steady s (s.tickGuards c) := by
  have fold : ∀ (l : List (Fin 4)) (a : State),
      Steady a (l.foldl (fun a g => if a.guardStandsOpen c g then a.guardOpened g else a) a) := by
    intro l
    induction l with
    | nil => exact .refl
    | cons g l ih =>
      exact fun a => Steady.trans (.ite (fun _ => guardOpened_steady a g) fun _ => .refl a) (ih _)
  exact fold four s

theorem sampleGuard_steady (g : Fin 4) (x : Bool) : Steady s (s.sampleGuard g x) := by
  refine ⟨?_, kept_sampleGuard s g x⟩
  unfold State.sampleGuard
  dsimp only
  split
  · split
    · rfl
    · split
      · rfl
      · exact (guardClosing_steady s g).pending
  · split
    · exact (guardOpened_steady s g).pending
    · rfl

/-- A sample: only that of a guard is not calm. -/
theorem sample_steady (i : Input) (x : Bool) : Steady s (s.sample i x) := by
  refine ⟨?_, kept_sample s i x⟩
  cases i with
  | button b => exact (calm_sampleButton s b x).pending
  | guard g => exact (sampleGuard_steady s g x).pending
  | key => exact (calm_sampleKey s x).pending
  | home c => rfl
  | far c =>
    cases x
    · exact (calm_farClear s c).pending
    · rfl
  | fault c =>
    show (State.sampleFault s c x).pending = _
    unfold State.sampleFault
    split
    · rfl
    · split
      · exact (calm_faultAsserted s c).pending
      · exact (calm_faultClear s c).pending

end Guards

section Frames
variable (s : State)

theorem restart_steady : Steady s s.restart := ⟨(calm_restart s).pending, kept_restart s⟩

/-- A good frame, a RESTART among them. -/
theorem receive_steady (f : Frame) : Steady s (s.receive f) := by
  refine ⟨?_, kept_receive s f⟩
  have act : ∀ a : State, (a.actIfAdmitted f).pending = a.pending := by
    intro a
    unfold State.actIfAdmitted
    split
    · by_cases h : f.kind = 0x06
      · rw [show a.act f = a.restart by simp [State.act, h]]
        exact (restart_steady a).pending
      · exact (tame_act a f h).pending
    · rfl
  unfold State.receive State.goodFrame
  split
  · rfl
  · split
    · split
      · rfl
      · exact (tame_passOn _ f).pending.trans (act _)
    · rfl

theorem collect_steady (b : Byte) : Steady s (s.collect b) := by
  refine ⟨?_, kept_collect s b⟩
  unfold State.collect State.completeFrame
  dsimp only
  repeat' split
  · rfl
  · rfl
  · rfl
  · exact (receive_steady s _).pending
  · rfl

theorem character_steady (ch : LineChar) : Steady s (s.character ch) := by
  refine ⟨?_, kept_character s ch⟩
  unfold State.character
  split
  case h_5 => exact (collect_steady s _).pending
  all_goals rfl

end Frames

/-- Straps, reset cause and what a reset keeps apart, the node after POWER-UP is safe. -/
theorem reset_bounded : State.reset.Bounded := ⟨by decide, by decide, by decide, by decide⟩

theorem reset_canonical : State.reset.Canonical := reset_words_wf

theorem reset_chan (c : Fin 4) : State.reset.chan c = Channel.reset := by
  simp [State.chan, State.reset, MotionUnit.reset]

theorem reset_guardsRespected : State.reset.GuardsRespected := by
  intro c _ hm
  rw [reset_chan] at hm
  exact absurd hm (by decide)

theorem reset_restOk : State.reset.RestOk :=
  ⟨by decide, fun h => absurd h (by decide), fun h => absurd h (by decide)⟩

theorem powerUp_steady (x : Straps) (s : State) : Steady s { State.reset with
    straps := x, pending := s.pending, cue.recalled := s.recalledBy } :=
  ⟨rfl, fun _ => ⟨reset_bounded.1, reset_bounded.2, reset_bounded.3, reset_bounded.4⟩,
    fun _ => reset_canonical, fun _ => reset_guardsRespected,
    fun _ => ⟨reset_restOk.1, reset_restOk.2, reset_restOk.3⟩⟩

/-- A PIN reset keeps the words of table memory, and with them their canonical form. -/
theorem pinReset_steady (x : Straps) (s : State) :
    ∃ t, execPinReset x s = .next t ∧ Steady s t :=
  ⟨_, rfl, rfl, fun _ => ⟨reset_bounded.1, reset_bounded.2, reset_bounded.3, reset_bounded.4⟩,
    fun h => h, fun _ => reset_guardsRespected, fun _ => ⟨reset_restOk.1, reset_restOk.2, reset_restOk.3⟩⟩

/-- A tame command. -/
theorem TameNext.steady {s : State} {o : Host.Outcome State Fault Refusal} (h : TameNext s o) :
    ∃ t, o = .next t ∧ Steady s t := by
  obtain ⟨t, e, k⟩ := h
  exact ⟨t, e, k.steady⟩

/-- Every command answers a next state, leaves the queue alone and keeps what is safe. -/
theorem exec_steady (c : Instr) (s : State) : ∃ t, exec c s = .next t ∧ Steady s t := by
  cases c with
  | powerUp x => exact ⟨_, rfl, powerUp_steady x s⟩
  | pinReset x => exact pinReset_steady x s
  | restart e p => exact ⟨_, rfl, receive_steady s _⟩
  | goodFrame k e p => exact ⟨_, rfl, receive_steady s _⟩
  | channelTick c =>
    refine ⟨_, rfl, .ite (fun _ => ?_) fun _ => .refl s⟩
    exact (tickGuards_steady s c).trans (calm_tickStages _ c).steady
  | guardOpening g => exact ⟨_, rfl, .ite (fun _ => guardOpened_steady s g) fun _ => .refl s⟩
  | guardClosing g => exact ⟨_, rfl, .ite (fun _ => guardClosing_steady s g) fun _ => .refl s⟩
  | characterReceived ch => exact ⟨_, rfl, .ite (fun _ => .refl s) fun _ => character_steady s ch⟩
  | inputSample i x => exact ⟨_, rfl, .ite (fun _ => sample_steady s i x) fun _ => .refl s⟩
  | loadHeaderRead h => exact (exec_loadHeaderRead s h).steady
  | loadWordRead w => exact (exec_loadWordRead s w).steady
  | badFrame x => exact (exec_badFrame s x).steady
  | pulse e p => exact (exec_pulse s e p).steady
  | cue e p => exact (exec_cue s e p).steady
  | tap e p => exact (exec_tap s e p).steady
  | done e p => exact (exec_done s e p).steady
  | hush e p => exact (exec_hush s e p).steady
  | put e p => exact (exec_put s e p).steady
  | putWordWrite => exact (exec_putWordWrite s).steady
  | peek e p => exact (exec_peek s e p).steady
  | peekWordRead => exact (exec_peekWordRead s).steady
  | save e w => exact (exec_save s e w).steady
  | clearLineRecord e w => exact (exec_clearLineRecord s e w).steady
  | clearFirstFault e w => exact (exec_clearFirstFault s e w).steady
  | clearMemoryLog e w => exact (exec_clearMemoryLog s e w).steady
  | saveEraseDone x => exact (exec_saveEraseDone s x).steady
  | saveWordRead => exact (exec_saveWordRead s).steady
  | saveProgramDone x => exact (exec_saveProgramDone s x).steady
  | saveVerifyRead w => exact (exec_saveVerifyRead s w).steady
  | saveHeaderDone b => exact (exec_saveHeaderDone s b).steady
  | flashTimeout => exact (exec_flashTimeout s).steady
  | transmitterFree => exact (exec_transmitterFree s).steady
  | waitingFrameJoin => exact (exec_waitingFrameJoin s).steady
  | lineLossExpiry => exact (exec_lineLossExpiry s).steady
  | clockSecond => exact (exec_clockSecond s).steady
  | cueRead => exact (exec_cueRead s).steady
  | start c p => exact (exec_start s c p).steady
  | stop m => exact (exec_stop s m).steady
  | home m => exact (exec_home s m).steady
  | effect o t f => exact (exec_effect s o t f).steady
  | call k l => exact (exec_call s k l).steady
  | lock m => exact (exec_lock s m).steady
  | unlock m => exact (exec_unlock s m).steady
  | buttonSettingsRead => exact (exec_buttonSettingsRead s).steady
  | channelSettingsRead => exact (exec_channelSettingsRead s).steady
  | effectSettingsRead => exact (exec_effectSettingsRead s).steady
  | alertSettingsRead => exact (exec_alertSettingsRead s).steady
  | localPlayRead => exact (exec_localPlayRead s).steady
  | prefetchRead => exact (exec_prefetchRead s).steady
  | scrubTimerExpiry => exact (exec_scrubTimerExpiry s).steady
  | scrubAccess => exact (exec_scrubAccess s).steady
  | arrival c => exact (exec_arrival s c).steady
  | dwellEnd c => exact (exec_dwellEnd s c).steady
  | stopComplete c => exact (exec_stopComplete s c).steady
  | homeFound c => exact (exec_homeFound s c).steady
  | searchExhausted c => exact (exec_searchExhausted s c).steady
  | driverFault c => exact (exec_driverFault s c).steady
  | faultInputCleared c => exact (exec_faultInputCleared s c).steady
  | farLimit c => exact (exec_farLimit s c).steady
  | farCleared c => exact (exec_farCleared s c).steady
  | acceptedClosure b => exact (exec_acceptedClosure s b).steady
  | acceptedRelease b => exact (exec_acceptedRelease s b).steady
  | holdTimeReached b => exact (exec_holdTimeReached s b).steady
  | stuckTimeReached b => exact (exec_stuckTimeReached s b).steady
  | refillExpiry b => exact (exec_refillExpiry s b).steady
  | fadeStep o => exact (exec_fadeStep s o).steady
  | deadTimerExpiry k => exact (exec_deadTimerExpiry s k).steady
  | carrierPeriodStart => exact (exec_carrierPeriodStart s).steady
  | escalationExpiry i => exact (exec_escalationExpiry s i).steady
  | keyClosure => exact (exec_keyClosure s).steady
  | resetRelease => exact (exec_resetRelease s).steady
  | lampPatternPhase p => exact (exec_lampPatternPhase s p).steady
  | beaconPatternPhase o => exact (exec_beaconPatternPhase s o).steady

/-- A step keeps what is safe: the command at the front, or what the node does by itself. -/
theorem step_kept {s t : State} (h : step s = .next t) : Kept s t := by
  cases hp : s.pending with
  | nil =>
    simp only [step, hp] at h
    cases h
    exact kept_proceed s
  | cons c rest =>
    simp only [step, hp] at h
    obtain ⟨u, e, k⟩ := exec_steady c { s with pending := rest }
    rw [e] at h
    cases h
    have dequeue : Kept s { s with pending := rest } :=
      ⟨fun b => ⟨b.1, b.2, b.3, b.4⟩, id, id, fun r => ⟨r.1, r.2, r.3⟩⟩
    exact dequeue.trans k.kept

/-- Settles O4: each command keeps the capacities, and so does what the node does on an empty queue. -/
theorem stepKeepsBounded : Obligations.StepKeepsBounded := fun _ _ hb hs => (step_kept hs).bounded hb

/-- Settles O3, from what every command is (`exec_steady`). -/
theorem everyCommandIsTaken : Obligations.EveryCommandIsTaken := by
  intro c s
  obtain ⟨t, e, k⟩ := exec_steady c s
  exact ⟨t, e, k.pending⟩

/-- Settles O8. -/
theorem resetIsSafe : Obligations.ResetIsSafe :=
  ⟨reset_bounded, reset_canonical, reset_guardsRespected, reset_restOk⟩

end Sys2Proof.Machine
end

