-- ==== Sys2Proof/Proofs/Resets.lean ====
section
/-! PROOF. What POWER-UP and PIN reset leave. -/
namespace Sys2Proof.Machine

/-- Settles O57: both resets leave the reset values but for the parts their commands name. -/
theorem resetsLeaveTheirValues : Obligations.ResetsLeaveTheirValues := by
  intro x s
  refine ⟨_, _, rfl, rfl, rfl, rfl, rfl, rfl, rfl, rfl, rfl, rfl, rfl, rfl, rfl, rfl, rfl, rfl, rfl, rfl, rfl,
    rfl, rfl, ?_⟩
  rintro r (rfl | rfl)
  all_goals
    refine ⟨rfl, rfl, rfl, rfl, rfl, rfl, rfl, rfl, rfl, rfl, rfl, fun b => ?_, fun c => ?_, rfl, fun o => ?_,
      fun i => ?_, rfl, rfl, rfl, fun q => ?_, rfl, rfl, rfl, rfl, rfl, rfl⟩
    · simp [State.btn, State.reset, ButtonUnit.reset, Button.reset]
    · simp [State.chan, State.guardIn, State.reset, MotionUnit.reset, Channel.reset, GuardInput.reset]
    · simp [State.out, State.effectPin, State.reset, EffectUnit.reset, Effect.reset]
    · simp [State.slotAt, State.reset, AlertUnit.reset]
    · simp [State.reset, TableMemory.reset]

end Sys2Proof.Machine
end

