-- ==== Sys2Proof/Proofs/Clock.lean ====
section
/-! PROOF. What the node does on an empty queue (log entry 1): the order and the members of the commands that join
it, list by list, and the state a millisecond later. -/
namespace Sys2Proof.Machine

/-! ## The order of the commands due -/

/-- The place of a command among those that the node itself puts into its queue. -/
def duePlace (c : Instr) : Nat :=
  match c with
  | .waitingFrameJoin => 1
  | .prefetchRead => 2 | .putWordWrite => 2 | .peekWordRead => 2 | .saveWordRead => 2
  | .saveVerifyRead _ => 2 | .cueRead => 2 | .buttonSettingsRead => 2 | .channelSettingsRead => 2
  | .effectSettingsRead => 2 | .alertSettingsRead => 2 | .localPlayRead => 2 | .scrubAccess => 2
  | .lampPatternPhase .wait => 3 | .lampPatternPhase .fast => 4
  | .beaconPatternPhase .beacon => 5 | .beaconPatternPhase .sounder => 6
  | .inputSample (.button b) _ => 10 + b.val | .inputSample (.guard g) _ => 30 + g.val
  | .inputSample .key _ => 40
  | .inputSample (.home x) _ => 50 + 2 * x.val | .inputSample (.far x) _ => 51 + 2 * x.val
  | .channelTick x => 60 + x.val | .inputSample (.fault x) _ => 70 + x.val
  | .holdTimeReached b => 100 + 3 * b.val | .stuckTimeReached b => 101 + 3 * b.val
  | .refillExpiry b => 102 + 3 * b.val
  | .fadeStep o => 200 + o.val | .escalationExpiry i => 220 + i.val
  | .carrierPeriodStart => 240 | .lineLossExpiry => 241 | .scrubTimerExpiry => 242
  | .clockSecond => 243
  | _ => 0

/-- The commands of `l` stand in the order of their places, which lie from `lo` to below `hi`. -/
def Placed (lo hi : Nat) (l : List Instr) : Prop :=
  l.Pairwise (fun a b => duePlace a < duePlace b) ∧ ∀ c ∈ l, lo ≤ duePlace c ∧ duePlace c < hi

namespace Placed
variable {lo mid hi lo' hi' : Nat} {l k : List Instr}

theorem nil : Placed lo hi [] := ⟨.nil, by simp⟩

theorem append (h : Placed lo mid l) (g : Placed mid hi k) (hm : lo ≤ mid ∧ mid ≤ hi) :
    Placed lo hi (l ++ k) := by
  refine ⟨List.pairwise_append.mpr ⟨h.1, g.1, fun a ha b hb => ?_⟩, fun c hc => ?_⟩
  · exact Nat.lt_of_lt_of_le (h.2 a ha).2 (g.2 b hb).1
  · rcases List.mem_append.mp hc with hc | hc
    · have := h.2 c hc; omega
    · have := g.2 c hc; omega

theorem single {c : Instr} {p : Nat} (e : duePlace c = p) (h : lo ≤ p ∧ p < hi) : Placed lo hi [c] :=
  ⟨by simp, by simpa [e] using h⟩

theorem dueIf {c : Instr} {p : Nat} (b : Bool) (e : duePlace c = p) (h : lo ≤ p ∧ p < hi) :
    Placed lo hi (dueIf b c) := by
  cases b
  · exact nil
  · exact single e h

/-- The lists of rising numbers, each in a stretch of `k` places of its own. -/
theorem flatMap {n : Nat} {l : List (Fin n)} (hl : l.Pairwise (· < ·)) (f : Fin n → List Instr)
    (base k : Nat) (hh : base + k * n ≤ hi)
    (h : ∀ i, Placed (base + k * i.val) (base + k * i.val + k) (f i)) : Placed base hi (l.flatMap f) := by
  refine ⟨List.pairwise_flatMap.mpr ⟨fun i _ => (h i).1, hl.imp fun {i j} hij x hx y hy => ?_⟩,
    fun c hc => ?_⟩
  · have hx := ((h i).2 x hx).2
    have hy := ((h j).2 y hy).1
    have : k * (i.val + 1) ≤ k * j.val := Nat.mul_le_mul_left k hij
    rw [Nat.mul_add] at this
    omega
  · obtain ⟨i, -, hc⟩ := List.mem_flatMap.mp hc
    have := (h i).2 c hc
    have : k * (i.val + 1) ≤ k * n := Nat.mul_le_mul_left k i.isLt
    rw [Nat.mul_add] at this
    omega

/-- One command for each of the rising numbers, a place each. -/
theorem map {n : Nat} {l : List (Fin n)} (hl : l.Pairwise (· < ·)) (f : Fin n → Instr) (base : Nat)
    (hh : base + n ≤ hi) (h : ∀ i, duePlace (f i) = base + i.val) : Placed base hi (l.map f) := by
  rw [List.map_eq_flatMap]
  exact flatMap hl _ base 1 (by omega) fun i => single (h i) (by omega)

end Placed

theorem four_rising : four.Pairwise (· < ·) := by decide
theorem eight_rising : eight.Pairwise (· < ·) := by decide
theorem sixteen_rising : sixteen.Pairwise (· < ·) := by decide

variable (s : State)

theorem workDue_placed : Placed 0 3 s.workDue := by
  have action : Placed 0 1 s.actionDue := by
    unfold State.actionDue
    cases s.nextAction with
    | none => exact .nil
    | some a => exact .single (p := 0) (by cases a <;> rfl) (by decide)
  have join : Placed 1 2 s.joinDue := by
    unfold State.joinDue
    split
    · exact .single rfl (by decide)
    · exact .nil
  have access : Placed 2 3 s.accessDue := by
    unfold State.accessDue
    cases s.mem.access with
    | none => exact .nil
    | some a =>
      have place : duePlace (accessCommand a.op) = 2 := by
        cases a.op with
        | settings b => cases b <;> rfl
        | _ => rfl
      exact .dueIf _ place (by decide)
  exact (action.append join (by decide)).append access (by decide)

theorem patternsDue_placed : Placed 3 7 s.patternsDue :=
  (((Placed.dueIf (hi := 4) _ rfl (by decide)).append (.dueIf (hi := 5) _ rfl (by decide))
    (by decide)).append (.dueIf (hi := 6) _ rfl (by decide)) (by decide)).append
      (.dueIf _ rfl (by decide)) (by decide)

theorem samplesDue_placed : Placed 10 60 s.samplesDue := by
  unfold State.samplesDue
  split
  · have buttons : Placed 10 30 (sixteen.map fun b => .inputSample (.button b) (s.btn b).pin) :=
      .map sixteen_rising _ 10 (by decide) fun _ => rfl
    have guards : Placed 30 40 (four.map fun g => .inputSample (.guard g) (s.guardIn g).pin) :=
      .map four_rising _ 30 (by decide) fun _ => rfl
    have key : Placed 40 50 [.inputSample .key s.alert.key.pin] := .single (p := 40) rfl (by decide)
    have homes : Placed 50 60 (four.flatMap fun c =>
        [.inputSample (.home c) (s.chan c).homePin, .inputSample (.far c) (s.chan c).farPin]) := by
      refine .flatMap four_rising _ 50 2 (by decide) fun c => ?_
      exact .append (l := [_]) (k := [_]) (mid := 51 + 2 * c.val)
        (.single (p := 50 + 2 * c.val) rfl (by omega)) (.single (p := 51 + 2 * c.val) rfl (by omega)) (by omega)
    exact ((buttons.append guards (by decide)).append key (by decide)).append homes (by decide)
  · exact .nil

theorem ticksDue_placed : Placed 60 70 s.ticksDue :=
  .flatMap four_rising _ 60 1 (by decide) fun c => .dueIf (p := 60 + c.val) _ rfl (by omega)

theorem faultsDue_placed : Placed 70 100 s.faultsDue :=
  .flatMap four_rising _ 70 1 (by decide) fun c => .dueIf (p := 70 + c.val) _ rfl (by omega)

theorem buttonsDue_placed : Placed 100 200 s.buttonsDue := by
  refine .flatMap sixteen_rising _ 100 3 (by decide) fun b => ?_
  exact .append (mid := 102 + 3 * b.val)
    (.append (mid := 101 + 3 * b.val) (.dueIf (p := 100 + 3 * b.val) _ rfl (by omega))
      (.dueIf (p := 101 + 3 * b.val) _ rfl (by omega)) (by omega))
    (.dueIf (p := 102 + 3 * b.val) _ rfl (by omega)) (by omega)

theorem fadesDue_placed : Placed 200 220 s.fadesDue :=
  .flatMap eight_rising _ 200 1 (by decide) fun o => .dueIf (p := 200 + o.val) _ rfl (by omega)

theorem escalationsDue_placed : Placed 220 240 s.escalationsDue :=
  .flatMap sixteen_rising _ 220 1 (by decide) fun i => .dueIf (p := 220 + i.val) _ rfl (by omega)

theorem tickDue_placed : Placed 3 244 s.tickDue := by
  have samples : Placed 7 60 s.samplesDue :=
    ⟨(samplesDue_placed s).1, fun c hc => by have := (samplesDue_placed s).2 c hc; omega⟩
  have lists := ((((((patternsDue_placed s).append samples (by decide)).append (ticksDue_placed s)
    (by decide)).append (faultsDue_placed s) (by decide)).append (buttonsDue_placed s)
    (by decide)).append (fadesDue_placed s) (by decide)).append (escalationsDue_placed s) (by decide)
  exact (((lists.append (.dueIf (hi := 241) _ rfl (by decide)) (by decide)).append
    (.dueIf (hi := 242) _ rfl (by decide)) (by decide)).append (.dueIf (hi := 243) _ rfl (by decide))
    (by decide)).append (.dueIf _ rfl (by decide)) (by decide)

/-! ## The members of the lists -/

@[simp] theorem mem_dueIf {b : Bool} {c d : Instr} : c ∈ dueIf b d ↔ b = true ∧ c = d := by
  cases b <;> simp [dueIf]

@[simp] theorem mem_four (c : Fin 4) : c ∈ four := by revert c; decide
@[simp] theorem mem_eight (o : Fin 8) : o ∈ eight := by revert o; decide

theorem nextAction_eq_some {a : Action} : s.nextAction = some a ↔
    ∃ t e acts n, s.cue.dispatch = .performing t e acts n ∧ acts[n]? = some a := by
  unfold State.nextAction
  cases h : s.cue.dispatch <;> simp

theorem mem_actionDue {c : Instr} : c ∈ s.actionDue ↔ ∃ a, s.nextAction = some a ∧ c = a.command := by
  simp [State.actionDue, eq_comm]

theorem mem_joinDue {c : Instr} : c ∈ s.joinDue ↔ c = .waitingFrameJoin ∧ s.ring.bypass = false ∧
    s.mgmt.waiting ≠ [] ∧ s.ring.insertion.length < 8 := by
  unfold State.joinDue
  split
  · rename_i h
    simpa using fun _ => h
  · rename_i h
    simp only [List.not_mem_nil, false_iff]
    exact fun k => h k.2

theorem awaitsFlash_iff (a : Access) : s.awaitsFlash a = true ↔ a.op = .verifyRead ∧ a.stale = false ∧
    ∃ p w, s.mgmt.save = some p ∧ p.step = .verify w := by
  have v : s.verifying = true ↔ ∃ p w, s.mgmt.save = some p ∧ p.step = .verify w := by
    unfold State.verifying
    cases s.mgmt.save with
    | none => simp
    | some p => cases h : p.step <;> simp [h]
  simp [State.awaitsFlash, v, and_assoc]

theorem mem_accessDue {c : Instr} : c ∈ s.accessDue ↔
    ∃ a, s.mem.access = some a ∧ s.awaitsFlash a ≠ true ∧ c = accessCommand a.op := by
  unfold State.accessDue
  cases s.mem.access <;> simp

theorem mem_samplesDue {c : Instr} : c ∈ s.samplesDue ↔ s.sampling = true ∧
    ((∃ b, c = .inputSample (.button b) (s.btn b).pin) ∨
      (∃ g, c = .inputSample (.guard g) (s.guardIn g).pin) ∨ c = .inputSample .key s.alert.key.pin ∨
      ∃ x, c = .inputSample (.home x) (s.chan x).homePin ∨ c = .inputSample (.far x) (s.chan x).farPin) := by
  unfold State.samplesDue
  split
  · rename_i h
    simp [h, mem_sixteen, @eq_comm _ c]
  · rename_i h
    simp [h]

theorem mem_ticksDue {c : Instr} : c ∈ s.ticksDue ↔
    ∃ x, (s.chan x).state.inMotion = true ∧ c = .channelTick x := by
  simp [State.ticksDue]

theorem mem_faultsDue {c : Instr} : c ∈ s.faultsDue ↔ ∃ x, (s.sampling = true ∧
    (s.chan x).state.inMotion = false) ∧ c = .inputSample (.fault x) (s.chan x).faultPin := by
  simp [State.faultsDue]

theorem timerDue_iff (t : Option Nat) : timerDue t = true ↔ ∃ n, t = some n ∧ n ≤ 1 := by
  cases t <;> simp [timerDue]

theorem mem_buttonsDue {c : Instr} : c ∈ s.buttonsDue ↔ ∃ b,
    (((s.btn b).phase = .timing ∧ (s.btn b).holdInForce * 100 ≤ (s.btn b).closureNext) ∧
      c = .holdTimeReached b) ∨
    (((s.btn b).stuckTiming = true ∧ (s.btn b).stuckInForce * 1000 ≤ (s.btn b).closureNext) ∧
      c = .stuckTimeReached b) ∨
    (∃ n, (s.btn b).refill = some n ∧ n ≤ 1) ∧ c = .refillExpiry b := by
  simp [State.buttonsDue, mem_sixteen, timerDue_iff]

/-- An output holds its own state unless it is the odd one of a joined pair. -/
theorem base_eq_iff (o : Fin 8) : s.base o = o ↔ s.joined o = false ∨ o.val % 2 = 0 := by
  unfold State.base
  cases s.joined o
  · simp
  · revert o
    decide

theorem mem_fadesDue {c : Instr} : c ∈ s.fadesDue ↔ ∃ o, ((s.joined o = false ∨ o.val % 2 = 0) ∧
    ((s.out o).running = true ∨ 0 < (s.out o).dead)) ∧ c = .fadeStep o := by
  simp [State.fadesDue, base_eq_iff]

theorem mem_escalationsDue {c : Instr} : c ∈ s.escalationsDue ↔ ∃ i,
    (∃ r n, s.slotAt i = some r ∧ r.timer = some n ∧ n ≤ 1) ∧ c = .escalationExpiry i := by
  have h : ∀ i, timerDue (s.escalationTimer i) = true ↔
      ∃ r n, s.slotAt i = some r ∧ r.timer = some n ∧ n ≤ 1 := by
    intro i
    unfold State.escalationTimer
    cases s.slotAt i <;> simp [timerDue_iff]
  simp [State.escalationsDue, mem_sixteen, h]

theorem beaconPart_due : partDue s.beaconPart s.alert.beaconCtr = true ↔
    (s.alert.beacon = some .notice ∧ (if s.alert.beaconOn then 100 else 1900) ≤ s.alert.beaconCtr + 1) ∨
      (s.alert.beacon = some .attend ∧ 250 ≤ s.alert.beaconCtr + 1) := by
  unfold State.beaconPart
  cases s.alert.beacon with
  | none => simp [partDue]
  | some l => cases l <;> simp [partDue]

theorem sounderPart_due : partDue s.sounderPart s.alert.sounderCtr = true ↔
    s.alert.beacon = some .urgent ∧
      (if s.alert.sounderOn then 1000 else 9000) ≤ s.alert.sounderCtr + 1 := by
  unfold State.sounderPart
  cases s.alert.beacon with
  | none => simp [partDue]
  | some l => cases l <;> simp [partDue]

theorem mem_patternsDue {c : Instr} : c ∈ s.patternsDue ↔
    ((s.button.waitCtr = 499 ∨ 999 ≤ s.button.waitCtr) ∧ c = .lampPatternPhase .wait) ∨
    ((s.button.fastCtr = 124 ∨ 249 ≤ s.button.fastCtr) ∧ c = .lampPatternPhase .fast) ∨
    (partDue s.beaconPart s.alert.beaconCtr = true ∧ c = .beaconPatternPhase .beacon) ∨
    (partDue s.sounderPart s.alert.sounderCtr = true ∧ c = .beaconPatternPhase .sounder) := by
  simp [State.patternsDue]

theorem mem_tickDue {c : Instr} : c ∈ s.tickDue ↔ c ∈ s.patternsDue ∨ c ∈ s.samplesDue ∨
    c ∈ s.ticksDue ∨ c ∈ s.faultsDue ∨ c ∈ s.buttonsDue ∨ c ∈ s.fadesDue ∨ c ∈ s.escalationsDue ∨
    (s.carrierDue = true ∧ c = .carrierPeriodStart) ∨
    ((s.ring.bypass = false ∧ ∃ n, s.ring.lossTimer = some n ∧ n ≤ 1) ∧ c = .lineLossExpiry) ∨
    ((∃ n, s.mem.scrubTimer = some n ∧ n ≤ 1) ∧ c = .scrubTimerExpiry) ∨
    (999 ≤ s.mode.ms ∧ c = .clockSecond) := by
  simp [State.tickDue, timerDue_iff]

theorem inMotion_iff (x : ChanState) :
    x.inMotion = true ↔ x = .homing ∨ x = .moving ∨ x = .stopping := by
  cases x <;> simp [ChanState.inMotion]

/-! ## The state a millisecond later -/

theorem tick_btn (b : Fin 16) : s.tick.btn b = { s.btn b with
    closure := if (s.btn b).stuckTiming then (s.btn b).closure + 1 else (s.btn b).closure
    refill := (s.btn b).refill.map fun n => n - 1 } := by
  simp only [State.tick, State.advance, State.btn, ButtonUnit.advance, Fin.getElem_fin, Vector.getElem_ofFn]
  rfl

theorem tick_slotAt (i : Fin 16) : s.tick.slotAt i =
    (s.slotAt i).map fun r => { r with timer := r.timer.map fun n => n - 1 } := by
  simp only [State.tick, State.advance, State.slotAt, AlertUnit.advance, Fin.getElem_fin, Vector.getElem_ofFn]
  rfl

theorem phaseNext_eq (half last ctr : Nat) (h : half = last + 1) : phaseNext half ctr =
    if ctr = last ∨ 2 * half - 1 ≤ ctr then ctr else ctr + 1 := by
  unfold phaseNext
  congr 1
  apply propext
  omega

/-- The counter of the carrier moves by a millisecond's 16,000 periods while it stays below a period. -/
theorem carrierCounter_eq :
    (if s.effect.counting = true ∧ s.ring.bypass = false then
        (if s.carrierDue then s.effect.counter else s.effect.counter + 16000)
      else s.effect.counter) =
    if s.effect.counting = true ∧ s.ring.bypass = false ∧ s.effect.counter + 16000 < s.effect.inForce.period
      then s.effect.counter + 16000 else s.effect.counter := by
  unfold State.carrierDue
  cases s.effect.counting <;> cases s.ring.bypass <;> simp
  split <;> split <;> omega

theorem tick_eq : s.tick = { s with
    pending := s.tick.pending, mode.ms := if s.mode.ms < 999 then s.mode.ms + 1 else s.mode.ms
    ring.lossTimer := if s.ring.bypass then s.ring.lossTimer
      else s.ring.lossTimer.map fun n => n - 1
    mem.scrubTimer := s.mem.scrubTimer.map fun n => n - 1
    effect.counter := if s.effect.counting = true ∧ s.ring.bypass = false ∧
        s.effect.counter + 16000 < s.effect.inForce.period then s.effect.counter + 16000 else s.effect.counter
    button.buttons := s.tick.button.buttons
    button.waitCtr := if s.button.waitCtr = 499 ∨ 999 ≤ s.button.waitCtr then s.button.waitCtr
      else s.button.waitCtr + 1
    button.fastCtr := if s.button.fastCtr = 124 ∨ 249 ≤ s.button.fastCtr then s.button.fastCtr
      else s.button.fastCtr + 1
    alert.slots := s.tick.alert.slots, alert.beaconCtr := s.alert.beaconCtr + 1
    alert.sounderCtr := s.alert.sounderCtr + 1 } := by
  have ms : (if s.mode.ms < 999 then s.mode.ms + 1 else s.mode.ms) =
      if 999 ≤ s.mode.ms then s.mode.ms else s.mode.ms + 1 := by
    split <;> split <;> omega
  rw [ms, ← carrierCounter_eq, ← phaseNext_eq 500 499 _ rfl, ← phaseNext_eq 125 124 _ rfl]
  rfl

/-- The event that a command names falls due in this millisecond. -/
def State.DueInTick (s : State) (c : Instr) : Prop :=
  match c with
  | .lampPatternPhase .wait => s.button.waitCtr = 499 ∨ 999 ≤ s.button.waitCtr
  | .lampPatternPhase .fast => s.button.fastCtr = 124 ∨ 249 ≤ s.button.fastCtr
  | .beaconPatternPhase .beacon =>
    (s.alert.beacon = some .notice ∧
      (if s.alert.beaconOn then 100 else 1900) ≤ s.alert.beaconCtr + 1) ∨
    (s.alert.beacon = some .attend ∧ 250 ≤ s.alert.beaconCtr + 1)
  | .beaconPatternPhase .sounder => s.alert.beacon = some .urgent ∧
    (if s.alert.sounderOn then 1000 else 9000) ≤ s.alert.sounderCtr + 1
  | .inputSample (.button b) v => s.sampling = true ∧ v = (s.btn b).pin
  | .inputSample (.guard g) v => s.sampling = true ∧ v = (s.guardIn g).pin
  | .inputSample .key v => s.sampling = true ∧ v = s.alert.key.pin
  | .inputSample (.home x) v => s.sampling = true ∧ v = (s.chan x).homePin
  | .inputSample (.far x) v => s.sampling = true ∧ v = (s.chan x).farPin
  | .inputSample (.fault x) v => s.sampling = true ∧ v = (s.chan x).faultPin ∧
    (s.chan x).state ≠ .homing ∧ (s.chan x).state ≠ .moving ∧ (s.chan x).state ≠ .stopping
  | .channelTick x => (s.chan x).state = .homing ∨ (s.chan x).state = .moving ∨
    (s.chan x).state = .stopping
  | .holdTimeReached b => (s.btn b).phase = .timing ∧ (s.btn b).holdInForce * 100 ≤
    (if (s.btn b).stuckTiming then (s.btn b).closure + 1 else (s.btn b).closure)
  | .stuckTimeReached b => (s.btn b).stuckTiming = true ∧
    (s.btn b).stuckInForce * 1000 ≤ (s.btn b).closure + 1
  | .refillExpiry b => ∃ n, (s.btn b).refill = some n ∧ n ≤ 1
  | .fadeStep o => (s.joined o = false ∨ o.val % 2 = 0) ∧
    ((s.out o).running = true ∨ 0 < (s.out o).dead)
  | .escalationExpiry i => ∃ r n, s.slotAt i = some r ∧ r.timer = some n ∧ n ≤ 1
  | .carrierPeriodStart => s.effect.counting = true ∧ s.ring.bypass = false ∧
    s.effect.inForce.period ≤ s.effect.counter + 16000
  | .lineLossExpiry => s.ring.bypass = false ∧ ∃ n, s.ring.lossTimer = some n ∧ n ≤ 1
  | .scrubTimerExpiry => ∃ n, s.mem.scrubTimer = some n ∧ n ≤ 1
  | .clockSecond => 999 ≤ s.mode.ms
  | _ => False

/-- The commands that join the queue in a millisecond. -/
theorem mem_tick_pending (c : Instr) : c ∈ s.tick.pending ↔ s.DueInTick c := by
  have all : c ∈ s.tick.pending ↔ _ := mem_tickDue s
  rw [all, mem_patternsDue, mem_samplesDue, mem_ticksDue, mem_faultsDue, mem_buttonsDue, mem_fadesDue,
    mem_escalationsDue]
  cases c with
  | lampPatternPhase p => cases p <;> simp [State.DueInTick]
  | beaconPatternPhase o => cases o <;> simp [State.DueInTick, beaconPart_due, sounderPart_due]
  | inputSample i v =>
    cases i with
    | fault x =>
      have still : (s.chan x).state.inMotion = false ↔ (s.chan x).state ≠ .homing ∧
          (s.chan x).state ≠ .moving ∧ (s.chan x).state ≠ .stopping := by
        rw [← Bool.not_eq_true, inMotion_iff]
        simp
      simp only [State.DueInTick, ← still]
      simp
      exact ⟨fun ⟨⟨a, b⟩, c⟩ => ⟨a, c, b⟩, fun ⟨a, c, b⟩ => ⟨⟨a, b⟩, c⟩⟩
    | _ => simp [State.DueInTick]
  | channelTick x => simp [State.DueInTick, inMotion_iff]
  | holdTimeReached b => simp [State.DueInTick, Button.closureNext]
  | stuckTimeReached b =>
    simp [State.DueInTick, Button.closureNext]
    intro h
    simp [h]
  | refillExpiry b => simp [State.DueInTick]
  | fadeStep o => simp [State.DueInTick]
  | escalationExpiry i => simp [State.DueInTick]
  | carrierPeriodStart => simp [State.DueInTick, State.carrierDue, and_assoc]
  | lineLossExpiry => simp [State.DueInTick]
  | scrubTimerExpiry => simp [State.DueInTick]
  | clockSecond => simp [State.DueInTick]
  | _ => exact iff_of_false (by simp) id

/-- The commands of the work in hand, by what gives them. -/
theorem mem_workDue (c : Instr) : c ∈ s.workDue ↔
    (∃ t e acts n a, s.cue.dispatch = .performing t e acts n ∧ acts[n]? = some a ∧ c = a.command) ∨
    (c = .waitingFrameJoin ∧ s.ring.bypass = false ∧ s.mgmt.waiting ≠ [] ∧ s.ring.insertion.length < 8) ∨
    (∃ op i stale, s.mem.access = some ⟨op, i, stale⟩ ∧
      ¬(op = .verifyRead ∧ stale = false ∧ ∃ p w, s.mgmt.save = some p ∧ p.step = .verify w) ∧
      c = accessCommand op) := by
  have action : c ∈ s.actionDue ↔
      ∃ t e acts n a, s.cue.dispatch = .performing t e acts n ∧ acts[n]? = some a ∧ c = a.command := by
    rw [mem_actionDue]
    constructor
    · rintro ⟨a, h, e⟩
      obtain ⟨t, i, acts, n, hd, hn⟩ := (nextAction_eq_some s).mp h
      exact ⟨t, i, acts, n, a, hd, hn, e⟩
    · rintro ⟨t, i, acts, n, a, hd, hn, e⟩
      exact ⟨a, (nextAction_eq_some s).mpr ⟨t, i, acts, n, hd, hn⟩, e⟩
  have access : c ∈ s.accessDue ↔ ∃ op i stale, s.mem.access = some ⟨op, i, stale⟩ ∧
      ¬(op = .verifyRead ∧ stale = false ∧ ∃ p w, s.mgmt.save = some p ∧ p.step = .verify w) ∧
      c = accessCommand op := by
    rw [mem_accessDue]
    simp only [ne_eq, awaitsFlash_iff]
    exact ⟨fun ⟨⟨op, i, stale⟩, h⟩ => ⟨op, i, stale, h⟩, fun ⟨op, i, stale, h⟩ => ⟨⟨op, i, stale⟩, h⟩⟩
  rw [State.workDue, List.mem_append, List.mem_append, action, mem_joinDue, access, or_assoc]

theorem step_empty {s : State} (h : s.pending = []) : step s = .next s.proceed := by
  simp [step, h]

/-- Settles O2: the order of both lists (`workDue_placed`, `tickDue_placed`), their members (`mem_workDue`,
`mem_tick_pending`) and the state a millisecond later (`tick_eq`). -/
theorem emptyQueueProceeds : Obligations.EmptyQueueProceeds := by
  intro s period place hp hperiod hplace
  have period_eq : period = s.effect.inForce.period := by
    rw [hperiod]
    cases s.effect.inForce <;> rfl
  have place_eq : place = duePlace := hplace
  subst period_eq place_eq
  refine ⟨(workDue_placed s).1, mem_workDue s, fun h => ?_, fun h => ?_⟩
  · rw [step_empty hp]
    unfold State.proceed
    split
    · exact absurd ‹_› h
    · rename_i e
      rw [← e]
  · refine ⟨s.tick, ?_, (tickDue_placed s).1, mem_tick_pending s, tick_btn s, tick_slotAt s, tick_eq s⟩
    rw [step_empty hp]
    simp [State.proceed, h]

end Sys2Proof.Machine
end

