-- ==== Sys2Proof/Proofs/Characters.lean ====
section
/-! PROOF. The receive assembler, character by character (R2 to R5), and the characters of a frame. -/
namespace Sys2Proof.Machine

/-! ## One character at the assembler -/

/-- The node with another assembler. -/
def State.assembling (s : State) (a : Assembler) : State := { s with ring.assembler := a }

@[simp] theorem assembling_assembler (s : State) (a : Assembler) : (s.assembling a).ring.assembler = a := rfl
@[simp] theorem assembling_bypass (s : State) (a : Assembler) :
    (s.assembling a).ring.bypass = s.ring.bypass := rfl
@[simp] theorem assembling_assembling (s : State) (a b : Assembler) :
    (s.assembling a).assembling b = s.assembling b := rfl
@[simp] theorem assembling_trailing (s : State) (a : Assembler) : (s.assembling a).trailing = s.trailing := rfl

/-- The state after a bad frame: the assembler as given, and one bad frame more (R5). -/
theorem countBadFrame_eq (s : State) (a : Assembler) :
    (s.assembling a).countBadFrame =
      { s with ring.assembler := a, ring.record.badFrames := min 65535 (s.ring.record.badFrames + 1) } := by
  have : inc16 s.ring.record.badFrames = min 65535 (s.ring.record.badFrames + 1) := by
    unfold inc16 satInc
    split <;> omega
  rw [← this]
  rfl

theorem exec_characterReceived {s : State} (ch : LineChar) (h : s.ring.bypass = false) :
    exec (.characterReceived ch) s = .next (s.character ch) := by
  simp [exec, execCharacterReceived, h]

theorem exec_characterReceived_assembling {s : State} (a : Assembler) (ch : LineChar)
    (h : s.ring.bypass = false) :
    exec (.characterReceived ch) (s.assembling a) = .next ((s.assembling a).character ch) :=
  exec_characterReceived ch h

theorem exec_badFrame_eq {s : State} (cause : BadFrameCause) (h : s.ring.bypass = false) :
    exec (.badFrame cause) s =
      .next (s.assembling (assemblerAfter cause)).countBadFrame := by
  simp [exec, execBadFrame, h, State.assembling]

theorem character_marked (s : State) (b : Byte) : s.character (.marked b) =
    if s.ring.assembler.state = .collecting then
      (s.assembling ⟨.collecting, [b]⟩).countBadFrame
    else s.assembling ⟨.collecting, [b]⟩ := by
  unfold State.character
  cases s.ring.assembler.state <;> rfl

theorem character_unmarked {s : State} (b : Byte) (h : s.ring.assembler.state ≠ .collecting) :
    s.character (.unmarked b) = if s.ring.assembler.state = .trailing then
      (s.assembling ⟨.discarding, []⟩).countBadFrame else s := by
  unfold State.character
  cases e : s.ring.assembler.state
  case collecting => exact absurd e h
  all_goals rfl

theorem character_framingError (s : State) : s.character .framingError =
    if s.ring.assembler.state = .trailing ∨ s.ring.assembler.state = .collecting then
      (s.assembling ⟨.discarding, []⟩).countBadFrame else s := by
  unfold State.character
  cases s.ring.assembler.state <;> rfl

theorem character_collects {s : State} (b : Byte) (h : s.ring.assembler.state = .collecting) :
    s.character (.unmarked b) = s.collect b := by
  unfold State.character
  rw [h]

section Collect
variable {s : State} {b : Byte} {cs : List Byte} {n : Nat}

theorem collect_eq (hcs : cs = s.ring.assembler.chars ++ [b]) (hn : n = (cs.getD 4 0).toNat) :
    s.collect b = if cs.length < 5 then s.assembling ⟨.collecting, cs⟩
      else if 32 < n then (s.assembling ⟨.discarding, []⟩).countBadFrame
      else if cs.length < 7 + n then s.assembling ⟨.collecting, cs⟩
      else s.completeFrame cs := by
  subst hn hcs
  rfl

/-- A character that does not complete the frame joins it. -/
theorem collect_joins (hcs : cs = s.ring.assembler.chars ++ [b]) (hn : n = (cs.getD 4 0).toNat)
    (h : cs.length < 5 ∨ (n ≤ 32 ∧ cs.length < 7 + n)) :
    s.collect b = s.assembling ⟨.collecting, cs⟩ := by
  rw [collect_eq hcs hn]
  by_cases h5 : cs.length < 5
  · rw [if_pos h5]
  · obtain ⟨h32, h7⟩ := h.resolve_left h5
    rw [if_neg h5, if_neg (Nat.not_lt.mpr h32), if_pos h7]

/-- A length above 32 ends the frame as bad. -/
theorem collect_tooLong (hcs : cs = s.ring.assembler.chars ++ [b]) (hn : n = (cs.getD 4 0).toNat)
    (h5 : 5 ≤ cs.length) (h : 32 < n) :
    s.collect b = (s.assembling ⟨.discarding, []⟩).countBadFrame := by
  rw [collect_eq hcs hn, if_neg (Nat.not_lt.mpr h5), if_pos h]

theorem collect_completes (hcs : cs = s.ring.assembler.chars ++ [b]) (hn : n = (cs.getD 4 0).toNat)
    (h32 : n ≤ 32) (h : cs.length = 7 + n) : s.collect b = s.completeFrame cs := by
  rw [collect_eq hcs hn, if_neg (by omega), if_neg (Nat.not_lt.mpr h32), if_neg (by omega)]

end Collect

/-! ## A complete frame (R4) -/

/-- Two bytes as a number, the high one first (R179). -/
theorem numAt_two (cs : List Byte) (i : Nat) :
    numAt cs i 2 = (cs.getD i 0).toNat * 256 + (cs.getD (i + 1) 0).toNat := by
  simp [numAt, natBE, byteAt, List.range_succ]

theorem crcOk_iff {cs : List Byte} {n : Nat} (hn : n = (cs.getD 4 0).toNat) : crcOk cs =
    decide (crc16 (cs.take (5 + n)) =
      BitVec.ofNat 16 ((cs.getD (5 + n) 0).toNat * 256 + (cs.getD (6 + n) 0).toNat)) := by
  have hi := (cs.getD (5 + n) 0).isLt
  have lo := (cs.getD (6 + n) 0).isLt
  have e : crcOk cs = ((crc16 (cs.take (5 + n))).toNat == numAt cs (5 + n) 2) := by
    subst hn
    rfl
  rw [e, numAt_two, show 5 + n + 1 = 6 + n by omega, Bool.eq_iff_iff, beq_iff_eq, decide_eq_true_iff,
    ← BitVec.toNat_inj, BitVec.toNat_ofNat, Nat.mod_eq_of_lt (by omega)]

/-- The frame that a complete frame's characters spell is good exactly by its kind and its source, its length
being in range. -/
theorem frameOfChars_good {cs : List Byte} {n : Nat} (hn : n = (cs.getD 4 0).toNat) (h32 : n ≤ 32) :
    (frameOfChars cs).good = (decide (cs.getD 0 0 ∈ frameKinds) && decide ((cs.getD 2 0).toNat ≤ 120)) := by
  have len : (frameOfChars cs).payload.length ≤ Config.payloadMax := by
    rw [frameOfChars, List.length_take]
    exact Nat.le_trans (Nat.min_le_left _ _) (hn ▸ h32)
  rw [Frame.good, List.contains_eq_mem, decide_eq_true len, Bool.and_true]
  rfl

theorem receive_good {s : State} {f : Frame} (hb : s.ring.bypass = false) (hg : f.good = true) :
    s.receive f = s.trailing.goodFrame f := by simp [State.receive, hb, hg]

/-- What was collected before a good frame leaves no trace in it. -/
theorem receive_assembling {s : State} {f : Frame} (a : Assembler) (hb : s.ring.bypass = false)
    (hg : f.good = true) : (s.assembling a).receive f = s.receive f :=
  (receive_good (s := s.assembling a) hb hg).trans (receive_good hb hg).symm

theorem receive_bad {s : State} {f : Frame} (hb : s.ring.bypass = false) (hg : f.good = false) :
    s.receive f = s.trailing.countBadFrame := by simp [State.receive, hb, hg]

/-- A complete frame with a wrong CRC, another kind or another source is a bad frame. -/
theorem completeFrame_bad {s : State} {cs : List Byte} (hb : s.ring.bypass = false)
    (h : crcOk cs = false ∨ (frameOfChars cs).good = false) :
    s.completeFrame cs = s.trailing.countBadFrame := by
  unfold State.completeFrame
  rcases h with h | h
  · simp [h]
  · split
    · exact receive_bad hb h
    · rfl

/-- Settles O10: each case of the assembler's table. -/
theorem assemblerTakesCharacter : Obligations.AssemblerTakesCharacter := by
  refine ⟨by decide +kernel, ?_⟩
  intro s b cause bad cs n hb hbad hcs hn
  have bad_eq : ∀ a, bad a = (s.assembling a).countBadFrame := fun a => by
    rw [hbad, countBadFrame_eq]
  refine ⟨?_, ?_, fun h => ?_, ?_, fun hcol => ?_⟩
  · rw [exec_badFrame_eq cause hb, bad_eq]
    cases cause <;> rfl
  · rw [exec_characterReceived _ hb, character_marked, bad_eq]
    rfl
  · rw [exec_characterReceived _ hb, character_unmarked b h, bad_eq]
  · rw [exec_characterReceived _ hb, character_framingError, bad_eq]
  rw [exec_characterReceived _ hb, character_collects b hcol, bad_eq, bad_eq]
  refine ⟨fun h => by rw [collect_joins hcs hn h]; rfl, fun h5 h => by rw [collect_tooLong hcs hn h5 h],
    fun h32 hlen ok hok => ?_⟩
  rw [collect_completes hcs hn h32 hlen]
  rw [← crcOk_iff hn] at hok
  have hgood := frameOfChars_good hn h32
  constructor
  · intro h
    rw [completeFrame_bad hb]
    · rfl
    · rcases h with h | h | h
      · exact .inl (hok ▸ h)
      · exact .inr (by rw [hgood, decide_eq_false (p := _ ∈ frameKinds) h, Bool.false_and])
      · exact .inr (by rw [hgood, decide_eq_false (Nat.not_le.mpr h), Bool.and_false])
  · intro h _ _
    subst hn
    rw [State.completeFrame, if_pos (hok ▸ h)]
    rfl

/-! ## The line levels of a character (R1) -/

/-- The data bits of a byte, each with its weight, add up to it. -/
theorem sum_bits (n : Nat) (h : n < 256) : (List.range 8).foldl (fun a i => a + (n.testBit i).toNat * 2 ^ i) 0
    = n := by
  simp only [Nat.toNat_testBit, List.range_succ, List.range_zero, List.nil_append, List.cons_append,
    List.foldl_cons, List.foldl_nil]
  omega

theorem charData_charBits (mark : Bool) (b : Byte) : charData (charBits mark b) = b := by
  have levels : ∀ i ∈ List.range 8, (charBits mark b).getD (i + 1) false = b.toNat.testBit i := by
    intro i hi
    have hi : i < 8 := List.mem_range.mp hi
    interval_cases i <;> rfl
  have sum : ∀ (l : List Nat) (a : Nat), (∀ i ∈ l, i ∈ List.range 8) →
      l.foldl (fun a i => a + ((charBits mark b).getD (i + 1) false).toNat * 2 ^ i) a =
        l.foldl (fun a i => a + (b.toNat.testBit i).toNat * 2 ^ i) a := by
    intro l
    induction l with
    | nil => exact fun _ _ => rfl
    | cons i l ih =>
      intro a h
      rw [List.foldl_cons, List.foldl_cons, levels i (h i (by simp))]
      exact ih _ fun j hj => h j (List.mem_cons_of_mem _ hj)
  rw [charData, sum _ _ fun _ h => h, sum_bits _ b.isLt]
  simp

theorem charOfBits_charBits (mark : Bool) (b : Byte) :
    charOfBits (charBits mark b) = some (if mark then .marked b else .unmarked b) := by
  have h := charData_charBits mark b
  cases mark <;> simp [charOfBits, charBits] <;> exact h

theorem charOfBits_framingError {bits : List Bool} (h : bits.length = 11) (h0 : bits[0]? = some false)
    (h10 : bits[10]? = some false) : charOfBits bits = some .framingError := by
  have start : bits.getD 0 true = false := by rw [List.getD_eq_getElem?_getD, h0, Option.getD_some]
  have stop : bits.getD 10 false = false := by rw [List.getD_eq_getElem?_getD, h10, Option.getD_some]
  rw [charOfBits, if_neg (by rw [start]; simp [h]), if_pos stop]

theorem line_received (f : Frame) : (f.line.filterMap charOfBits).map Instr.characterReceived = f.received := by
  unfold Frame.line Frame.received
  cases f.chars with
  | nil => rfl
  | cons b bs => simp [charOfBits_charBits, List.filterMap_map, Function.comp_def]

/-! ## The characters of a good frame -/

theorem bytesBE_two (x : Nat) : bytesBE 2 x = [BitVec.ofNat 8 (x / 256), BitVec.ofNat 8 x] := by
  simp [bytesBE]

theorem bytesBE_length (n x : Nat) : (bytesBE n x).length = n := by
  induction n generalizing x with
  | zero => rfl
  | succ n ih => simp [bytesBE, ih]

theorem covered_length (f : Frame) : f.covered.length = 5 + f.payload.length := by
  simp [Frame.covered]
  omega

theorem chars_length (f : Frame) : f.chars.length = 7 + f.payload.length := by
  rw [Frame.chars, List.length_append, covered_length, bytesBE_length]
  omega

/-- A frame's characters begin with its header. -/
theorem chars_eq (f : Frame) : f.chars = f.kind :: f.dst :: f.src :: f.hop ::
    BitVec.ofNat 8 f.payload.length :: (f.payload ++ bytesBE 2 (crc16 f.covered).toNat) := by
  simp [Frame.chars, Frame.covered]

theorem chars_four (f : Frame) (h : f.payload.length ≤ 32) :
    f.payload.length = (f.chars.getD 4 0).toNat := by
  rw [chars_eq]
  simp
  omega

theorem frameOfChars_chars (f : Frame) (h : f.payload.length ≤ 32) : frameOfChars f.chars = f := by
  have h4 : (byteAt f.chars 4).toNat = f.payload.length := (chars_four f h).symm
  unfold frameOfChars
  rw [h4, chars_eq]
  simp [byteAt]

/-- The sent CRC is the computed one. -/
theorem crcOk_chars (f : Frame) (h : f.payload.length ≤ 32) : crcOk f.chars = true := by
  have take : f.chars.take (5 + f.payload.length) = f.covered := by
    rw [← covered_length, Frame.chars, List.take_left]
  have crc : f.chars = f.covered ++ bytesBE 2 (crc16 f.covered).toNat := rfl
  have high : f.chars.getD (5 + f.payload.length) 0 = BitVec.ofNat 8 ((crc16 f.covered).toNat / 256) := by
    rw [crc, bytesBE_two, ← covered_length]
    simp
  have low : f.chars.getD (6 + f.payload.length) 0 = BitVec.ofNat 8 (crc16 f.covered).toNat := by
    rw [crc, bytesBE_two, show 6 + f.payload.length = f.covered.length + 1 by rw [covered_length]; omega]
    simp
  rw [crcOk_iff (chars_four f h), take, high, low, decide_eq_true_iff, ← BitVec.toNat_inj]
  have := (crc16 f.covered).isLt
  simp
  omega

theorem execAll_next {c : Instr} {s t : State} (cs : List Instr) (h : exec c s = .next t) :
    execAll (c :: cs) s = execAll cs t := by simp [execAll, h]

/-- The characters of a frame but for its last are collected, one after another. -/
theorem collects_prefix (f : Frame) (s : State) (hb : s.ring.bypass = false) (hp : f.payload.length ≤ 32) :
    ∀ (l cs : List Byte) (last : Byte), f.chars = cs ++ l ++ [last] →
      execAll (l.map fun x => .characterReceived (.unmarked x))
          (s.assembling ⟨.collecting, cs⟩) =
        .next (s.assembling ⟨.collecting, cs ++ l⟩) := by
  intro l
  induction l with
  | nil => simp [execAll]
  | cons b l ih =>
    intro cs last h
    have joined : (s.assembling ⟨.collecting, cs⟩).collect b =
        s.assembling ⟨.collecting, cs ++ [b]⟩ := by
      refine collect_joins (cs := cs ++ [b]) rfl rfl ?_
      have len := chars_length f
      rw [h] at len
      simp only [List.length_append, List.length_cons, List.length_nil] at len ⊢
      by_cases h5 : cs.length + 1 < 5
      · exact .inl h5
      · have four : (cs ++ [b]).getD 4 0 = f.chars.getD 4 0 := by
          have split : f.chars = (cs ++ [b]) ++ (l ++ [last]) := by simp [h]
          simp only [List.getD_eq_getElem?_getD]
          rw [split, List.getElem?_append_left (l₁ := cs ++ [b]) (by simp; omega)]
        rw [four, ← chars_four f hp]
        omega
    have one : exec (.characterReceived (.unmarked b)) (s.assembling ⟨.collecting, cs⟩) =
        .next (s.assembling ⟨.collecting, cs ++ [b]⟩) := by
      rw [exec_characterReceived_assembling _ _ hb, character_collects b rfl, joined]
    rw [List.map_cons, execAll_next _ one, ih (cs ++ [b]) last (by simpa using h)]
    simp

/-- The characters of a good frame have the effect of the frame. -/
theorem execAll_received {f : Frame} {s : State} (hg : f.good = true) (hb : s.ring.bypass = false)
    (hs : s.ring.assembler.state ≠ .collecting) : execAll f.received s = .next (s.receive f) := by
  have hp : f.payload.length ≤ 32 := by
    simp [Frame.good] at hg
    exact hg.2
  obtain ⟨mid, last, hlast⟩ : ∃ mid last, f.chars = f.kind :: mid ++ [last] := by
    have ne : f.chars ≠ [] := by simp [chars_eq]
    have hd : f.chars.head ne = f.kind := by simp [chars_eq]
    have two : f.chars.tail ≠ [] := by simp [chars_eq]
    refine ⟨f.chars.tail.dropLast, f.chars.tail.getLast two, ?_⟩
    rw [List.cons_append, List.dropLast_append_getLast, ← hd, List.cons_head_tail]
  have first : exec (.characterReceived (.marked f.kind)) s =
      .next (s.assembling ⟨.collecting, [f.kind]⟩) := by
    rw [exec_characterReceived _ hb, character_marked, if_neg hs]
  have final : execAll [.characterReceived (.unmarked last)]
      (s.assembling ⟨.collecting, [f.kind] ++ mid⟩) = .next (s.receive f) := by
    have hcs : f.chars = ([f.kind] ++ mid) ++ [last] := hlast
    rw [execAll_next [] (exec_characterReceived_assembling _ _ hb), character_collects _ rfl,
      collect_completes hcs (chars_four f hp) hp (chars_length f), State.completeFrame,
      if_pos (crcOk_chars f hp), frameOfChars_chars f hp, receive_assembling _ hb hg]
    rfl
  have append : ∀ (l k : List Instr) (a b : State), execAll l a = .next b → execAll (l ++ k) a = execAll k b := by
    intro l k
    induction l with
    | nil =>
      intro a b h
      cases h
      rfl
    | cons c l ih =>
      intro a b h
      simp only [execAll, List.cons_append] at h ⊢
      split at h
      · exact ih _ _ h
      · cases h
      · cases h
  have received : f.received = .characterReceived (.marked f.kind) ::
      ((mid.map fun x => .characterReceived (.unmarked x)) ++ [.characterReceived (.unmarked last)]) := by
    unfold Frame.received
    rw [hlast]
    simp
  rw [received, execAll_next _ first, append _ _ _ _ (collects_prefix f s hb hp mid [f.kind] last hlast), final]

/-- Settles O9: line levels to characters, and the characters of a frame to the frame (`execAll_received`). -/
theorem charactersSpellFrame : Obligations.CharactersSpellFrame :=
  ⟨fun mark b => ⟨rfl, charOfBits_charBits mark b⟩,
    fun _ h h0 h10 => charOfBits_framingError h h0 h10, line_received,
    fun _ _ hg hb hs => execAll_received hg hb hs⟩

end Sys2Proof.Machine
end

