-- ==== Sys2Proof/Proofs/Frames.lean ====
section
/-! PROOF. What becomes of a good frame (R6 to R12), the triggers that frames make (R37), the frames that join
the insertion queue (R14), and the four commands of the gallery head (R172). -/
namespace Sys2Proof.Machine
variable {s : State}

/-! ## Reception -/

theorem exec_goodFrame_eq (k : Byte) (e : Envelope) (p : List Byte) :
    exec (.goodFrame k e p) s = .next (s.receive (frameOf k e p)) := rfl

/-- A frame is made of its own operands. -/
theorem frameOf_fields (f : Frame) : frameOf f.kind ⟨f.dst, f.src, f.hop⟩ f.payload = f := rfl

/-- The node's own frame is stripped (R6). -/
theorem receive_own {f : Frame} (hg : f.good = true) (hb : s.ring.bypass = false)
    (h : f.src = s.address) : s.receive f = s.trailing := by
  rw [receive_good hb hg]
  exact if_pos h

/-- Another station's frame is acted on where it is admitted, and passed on (R6 to R8). -/
theorem receive_other {f : Frame} (hg : f.good = true) (hb : s.ring.bypass = false)
    (h : f.src ≠ s.address) : s.receive f = (s.trailing.actIfAdmitted f).passOn f := by
  rw [receive_good hb hg]
  exact if_neg h

theorem actIfAdmitted_admitted {f : Frame} (h : s.admits f = true) : s.actIfAdmitted f = s.act f :=
  if_pos h

theorem actIfAdmitted_refused {f : Frame} (h : s.admits f = false) : s.actIfAdmitted f = s :=
  if_neg (by simp [h])

/-- The admission of the frames of the gallery head that go to one node or to all (R10). -/
theorem admits_toNode {f : Frame} (h : f.kind = 0x01 ∨ f.kind = 0x02 ∨ f.kind = 0x03 ∨ f.kind = 0x06) :
    s.admits f = (decide (f.src = 0) && s.toNode f &&
      f.payload.length == if f.kind = 0x01 then 4 else if f.kind = 0x06 then 0 else 1) := by
  rcases h with k | k | k | k <;> simp [State.admits, k]

/-- The admission of a request to the management unit (R10). -/
theorem admits_request {f : Frame} (h : f.kind = 0x04 ∨ f.kind = 0x05) :
    s.admits f = (decide (f.src = 0) && decide (f.dst = s.address)) := by
  rcases h with k | k <;> simp [State.admits, k]

/-- The admission of the frames of other nodes (R10). -/
theorem admits_node {f : Frame} (h : f.kind = 0x11 ∨ f.kind = 0x12) :
    s.admits f = (decide (1 ≤ f.src.toNat) && decide (f.src.toNat ≤ 120) &&
      f.payload.length == if f.kind = 0x11 then 4 else 7) := by
  rcases h with k | k <;> simp [State.admits, k]

/-- Which frames are not admitted, kind by kind (R10). -/
theorem admits_false {f : Frame}
    (h : (f.kind = 0x13 ∨ f.kind = 0x14 ∨ f.kind = 0x15) ∨
      ((f.kind = 0x01 ∨ f.kind = 0x02 ∨ f.kind = 0x03 ∨ f.kind = 0x06) ∧
        (f.src ≠ 0 ∨ (f.dst ≠ 127 ∧ f.dst ≠ s.address) ∨
          f.payload.length ≠ (if f.kind = 0x01 then 4 else if f.kind = 0x06 then 0 else 1))) ∨
      ((f.kind = 0x04 ∨ f.kind = 0x05) ∧ (f.src ≠ 0 ∨ f.dst ≠ s.address)) ∨
      (f.kind = 0x11 ∧ (f.src = 0 ∨ f.payload.length ≠ 4)) ∨
      (f.kind = 0x12 ∧ (f.src = 0 ∨ f.payload.length ≠ 7))) : s.admits f = false := by
  have noSource : f.src = 0 → decide (1 ≤ f.src.toNat) = false := fun h => by rw [h]; rfl
  rcases h with k | ⟨k, h⟩ | ⟨k, h⟩ | ⟨k, h⟩ | ⟨k, h⟩
  · rcases k with k | k | k <;> simp [State.admits, k]
  · rw [admits_toNode k]
    rcases h with h | ⟨h, h'⟩ | h
    · rw [decide_eq_false h, Bool.false_and, Bool.false_and]
    · rw [State.toNode, decide_eq_false h, decide_eq_false h', Bool.false_or, Bool.and_false, Bool.false_and]
    · rw [beq_false_of_ne h, Bool.and_false]
  · rw [admits_request k]
    rcases h with h | h
    · rw [decide_eq_false h, Bool.false_and]
    · rw [decide_eq_false h, Bool.and_false]
  · rw [admits_node (.inl k), if_pos k]
    rcases h with h | h
    · rw [noSource h, Bool.false_and, Bool.false_and]
    · rw [beq_false_of_ne h, Bool.and_false]
  · rw [admits_node (.inr k), if_neg (by rw [k]; decide)]
    rcases h with h | h
    · rw [noSource h, Bool.false_and, Bool.false_and]
    · rw [beq_false_of_ne h, Bool.and_false]

/-! ## A frame passed on (R7, R8) -/

theorem passOn_consumed {f : Frame} (h : f.dst = s.address) : s.passOn f = s := if_pos h

theorem passOn_expired {f : Frame} (h : f.dst ≠ s.address) (h0 : f.hop = 0) :
    s.passOn f = s.countHopExpiry := by
  rw [State.passOn, if_neg h, if_pos h0]

theorem passOn_relayed {f : Frame} (h : f.dst ≠ s.address) (h0 : f.hop ≠ 0) :
    s.passOn f = s.offerRelay f.relayCopy := by
  rw [State.passOn, if_neg h, if_neg h0]

theorem offerRelay_room {f : Frame} (h : s.ring.relay.length < 4) :
    s.offerRelay f = ({ s with ring.relay := s.ring.relay ++ [f] }).pump := if_pos h

theorem offerRelay_full {f : Frame} (h : 4 ≤ s.ring.relay.length) : s.offerRelay f = s.countRelayDrop :=
  if_neg (Nat.not_lt.mpr h)

/-- Settles O11: stripping, admission, and what becomes of a frame passed on. -/
theorem goodFrameIsHandled : Obligations.GoodFrameIsHandled := by
  refine ⟨fun _ _ _ => ⟨rfl, rfl, rfl, rfl, rfl, rfl, rfl, rfl⟩, fun s f => ⟨fun hg hb h => ?_,
    fun hg hb h hk => ?_, passOn_consumed, passOn_expired, fun h h0 hr => ?_, fun h h0 hr => ?_⟩⟩
  · rw [exec_goodFrame_eq, frameOf_fields, receive_own hg hb h]
    rfl
  · rw [exec_goodFrame_eq, frameOf_fields, receive_other hg hb h,
      actIfAdmitted_refused (admits_false (s := s.trailing) hk)]
    rfl
  · rw [passOn_relayed h h0, offerRelay_room hr]
    rfl
  · rw [passOn_relayed h h0, offerRelay_full hr]
    rfl

/-! ## Frames that become triggers (R37) -/

section Triggers
variable {env : Envelope} {p : List Byte}

/-- A good frame by its operands. -/
theorem frameOf_good {k : Byte} (hk : frameKinds.contains k = true) (hs : env.src.toNat ≤ 120)
    (hp : p.length ≤ 32) : (frameOf k env p).good = true := by
  show (frameKinds.contains k && decide (env.src.toNat ≤ 120) && decide (p.length ≤ 32)) = true
  rw [hk, decide_eq_true hs, decide_eq_true hp]
  rfl

/-- An admitted CUE is a trigger. -/
theorem receive_cue (hb : s.ring.bypass = false) (ha : env.src ≠ s.address) (h0 : env.src = 0)
    (hd : env.dst = 127 ∨ env.dst = s.address) (hp : p.length = 1) :
    s.receive (frameOf 0x02 env p) =
      (s.trailing.offerTrigger (.lineCue (byteAt p 0))).passOn (frameOf 0x02 env p) := by
  have admitted : s.trailing.admits (frameOf 0x02 env p) = true := by
    rw [admits_toNode (.inr (.inl rfl))]
    show (decide (env.src = 0) && (decide (env.dst = 127) || decide (env.dst = s.address)) &&
      p.length == 1) = true
    rw [← Bool.decide_or, decide_eq_true h0, decide_eq_true hd, hp]
    rfl
  rw [receive_other (frameOf_good rfl (by simp [h0]) (by omega)) hb ha, actIfAdmitted_admitted admitted]
  rfl

/-- An admitted TAP is acted on. -/
theorem receive_tap (hb : s.ring.bypass = false) (ha : env.src ≠ s.address) (h1 : 1 ≤ env.src.toNat)
    (h120 : env.src.toNat ≤ 120) (hp : p.length = 4) :
    s.receive (frameOf 0x11 env p) = (s.trailing.actTap env.src p).passOn (frameOf 0x11 env p) := by
  have admitted : s.trailing.admits (frameOf 0x11 env p) = true := by
    rw [admits_node (.inl rfl)]
    show (decide (1 ≤ env.src.toNat) && decide (env.src.toNat ≤ 120) && p.length == 4) = true
    rw [decide_eq_true h1, decide_eq_true h120, hp]
    rfl
  rw [receive_other (frameOf_good rfl h120 (by omega)) hb ha, actIfAdmitted_admitted admitted]
  rfl

/-- An admitted DONE is acted on. -/
theorem receive_done (hb : s.ring.bypass = false) (ha : env.src ≠ s.address) (h1 : 1 ≤ env.src.toNat)
    (h120 : env.src.toNat ≤ 120) (hp : p.length = 7) :
    s.receive (frameOf 0x12 env p) = (s.trailing.actDone env.src p).passOn (frameOf 0x12 env p) := by
  have admitted : s.trailing.admits (frameOf 0x12 env p) = true := by
    rw [admits_node (.inr rfl)]
    show (decide (1 ≤ env.src.toNat) && decide (env.src.toNat ≤ 120) && p.length == 7) = true
    rw [decide_eq_true h1, decide_eq_true h120, hp]
    rfl
  rw [receive_other (frameOf_good rfl h120 (by omega)) hb ha, actIfAdmitted_admitted admitted]
  rfl

theorem pressOfCode_code (k : PressKind) : pressOfCode k.code = some k := by cases k <;> rfl

theorem outcomeOfCode_code (o : EndOutcome) : outcomeOfCode o.code = some o := by cases o <;> rfl

theorem pressOfCode_none {n : Nat} (h : 2 ≤ n) : pressOfCode n = none := by
  unfold pressOfCode
  split <;> first | omega | rfl

theorem outcomeOfCode_none {n : Nat} (h : 4 ≤ n) : outcomeOfCode n = none := by
  unfold outcomeOfCode
  split <;> first | omega | rfl

theorem actTap_trigger {src : Byte} {b : Fin 16} {k : PressKind} (hb : (byteAt p 0).toNat = b.val)
    (hk : (byteAt p 1).toNat = k.code) : s.actTap src p = s.offerTrigger (.peerTap src b k) := by
  unfold State.actTap
  rw [hk, pressOfCode_code, hb]
  simp

theorem actTap_none {src : Byte} (h : 16 ≤ (byteAt p 0).toNat ∨ 2 ≤ (byteAt p 1).toNat) :
    s.actTap src p = s := by
  unfold State.actTap
  rcases h with h | h
  · split
    · exact if_neg (Nat.not_lt.mpr h)
    · rfl
  · rw [pressOfCode_none h]

theorem actDone_trigger {src : Byte} {c : Fin 4} {x : Fin 32} {o : EndOutcome}
    (hc : (byteAt p 0).toNat = c.val) (hx : (byteAt p 1).toNat = x.val) (ho : (byteAt p 2).toNat = o.code) :
    s.actDone src p = s.offerTrigger (.peerDone src c o x) := by
  unfold State.actDone
  rw [ho, outcomeOfCode_code, hc, hx]
  simp

theorem actDone_none {src : Byte}
    (h : 4 ≤ (byteAt p 0).toNat ∨ 32 ≤ (byteAt p 1).toNat ∨ 4 ≤ (byteAt p 2).toNat) :
    s.actDone src p = s := by
  unfold State.actDone
  rcases h with h | h | h
  · split
    · exact if_neg fun k => Nat.not_lt.mpr h k.1
    · rfl
  · split
    · exact if_neg fun k => Nat.not_lt.mpr h k.2
    · rfl
  · rw [outcomeOfCode_none h]

/-- Settles O18: each frame is admitted, and its fields decide the trigger. -/
theorem framesBecomeTriggers : Obligations.FramesBecomeTriggers := by
  intro env p s hb ha
  refine ⟨fun h0 hd hp => congrArg _ (receive_cue hb ha h0 hd hp), fun h1 h120 hp => ⟨fun b k h0 hk => ?_,
    fun h => ?_⟩, fun h1 h120 hp => ⟨fun c x o hc hx ho => ?_, fun h => ?_⟩⟩
  · exact congrArg _ ((receive_tap hb ha h1 h120 hp).trans (by rw [actTap_trigger h0 hk]; rfl))
  · exact congrArg _ ((receive_tap hb ha h1 h120 hp).trans (by rw [actTap_none h]; rfl))
  · exact congrArg _ ((receive_done hb ha h1 h120 hp).trans (by rw [actDone_trigger hc hx ho]; rfl))
  · exact congrArg _ ((receive_done hb ha h1 h120 hp).trans (by rw [actDone_none h]; rfl))

end Triggers

/-! ## The insertion queue (R14, R166, R177) -/

theorem offerOwn_dropped {f : Frame} (h : s.ring.bypass = true ∨ 8 ≤ s.ring.insertion.length) :
    s.offerOwn f = s.countInsertionDrop := by
  refine if_neg fun k => ?_
  rcases h with h | h
  · exact absurd (k.1.symm.trans h) (by simp)
  · exact Nat.not_lt.mpr h k.2

theorem offerOwn_joins {f : Frame} (hb : s.ring.bypass = false) (h : s.ring.insertion.length < 8) :
    s.offerOwn f = ({ s with ring.insertion := s.ring.insertion ++ [f] }).pump := if_pos ⟨hb, h⟩

/-- The ANSWER built for a request. -/
def State.answerFrame (s : State) (n m : Nat) (r : ResultCode) (ws : List Word) : Frame :=
  s.ownFrame 0x14 (answerPayload n m r ws)

/-- An ANSWER that may join frees the request slot. -/
theorem answer_joins {n m : Nat} {r : ResultCode} {ws : List Word} (hb : s.ring.bypass = false)
    (hw : s.mgmt.waiting = []) (h : s.ring.insertion.length < 8) : s.answer n m r ws =
      ({ s with ring.insertion := s.ring.insertion ++ [s.answerFrame n m r ws]
                mgmt.slot := .empty }).pump := if_pos ⟨hb, hw, h⟩

/-- An ANSWER that may not join keeps the slot and waits. -/
theorem answer_waits {n m : Nat} {r : ResultCode} {ws : List Word}
    (h : s.ring.bypass = true ∨ s.mgmt.waiting ≠ [] ∨ 8 ≤ s.ring.insertion.length) : s.answer n m r ws =
      { s with mgmt.slot := .answering (s.answerFrame n m r ws)
               mgmt.waiting := s.mgmt.waiting ++ [.slotAnswer] } :=
  offerWaiting_waits (s := { s with mgmt.slot := .answering (s.answerFrame n m r ws) }) h

/-- The first frame that waits joins where there is room. -/
theorem exec_waitingFrameJoin_cons {w : WaitingFrame} {rest : List WaitingFrame}
    (hb : s.ring.bypass = false) (h : s.ring.insertion.length < 8) (hw : s.mgmt.waiting = w :: rest) :
    exec .waitingFrameJoin s = .next (({ s with mgmt.waiting := rest }).joinWaiting w) := by
  show execWaitingFrameJoin s = _
  unfold execWaitingFrameJoin
  rw [hw]
  exact congrArg _ (if_pos ⟨hb, h⟩)

/-- Settles O13: which frames join, which wait, and which are dropped. -/
theorem insertionQueueTakesFrames : Obligations.InsertionQueueTakesFrames := by
  intro s rest f n m r ws
  refine ⟨fun hf => ?_, fun w hw => ⟨offerWaiting_joins hw, offerWaiting_waits⟩, offerOwn_dropped,
    offerOwn_joins, fun hb h => ⟨fun hw => ?_, fun hw hslot => ?_⟩⟩
  · have frame : s.answerFrame n m r ws = f := hf.symm
    exact ⟨fun hb hw h => frame ▸ answer_joins hb hw h, fun h => frame ▸ answer_waits h⟩
  · rcases hw with hw | hw <;> exact exec_waitingFrameJoin_cons hb h hw
  · rw [exec_waitingFrameJoin_cons hb h hw]
    unfold State.joinWaiting
    dsimp only
    rw [hslot]

/-! ## The commands of the gallery head (R172) -/

section Commands
variable {env : Envelope}

/-- A command is the PUT of one word to table 31, at the word of its number. -/
theorem command_request {n : Nat} (hn : n < 4) (w : Word) :
    reqTable (commandPayload n w) = 31 ∧ reqFirst (commandPayload n w) = n ∧
      reqCount (commandPayload n w) = 1 ∧ (commandPayload n w).length = 8 := by
  refine ⟨by simp [reqTable, commandPayload, byteAt], ?_, ?_, ?_⟩
  · interval_cases n <;> simp [reqFirst, numAt_two, commandPayload, bytesBE]
  · simp [reqCount, commandPayload, byteAt, bytesBE]
  · simp [commandPayload, wordBytes, bytesBE]

/-- A command received at an empty slot is examined and, if it passes, obeyed. -/
theorem receive_command {n : Nat} (hn : n < 4) (w : Word) (hb : s.ring.bypass = false) (h0 : env.src = 0)
    (ha : s.address ≠ 0) (hd : env.dst = s.address) (hs : s.mgmt.slot = .empty) :
    s.receive (frameOf 0x04 env (commandPayload n w)) =
      if s.mgmt.image = .saving ∧ n = 0 then s.trailing.answer 31 n .busy []
      else s.trailing.runPut (commandPayload n w) := by
  obtain ⟨ht, hf, hc, hl⟩ := command_request hn w
  have fails : s.trailing.putFails (commandPayload n w) =
      if s.mgmt.image = .saving ∧ n = 0 then some .busy else none := by
    unfold State.putFails
    simp only [ht, hf, hc, hl]
    simp [State.wordInUse, List.range_succ]
    rw [if_neg (Nat.not_lt.mpr (Nat.le_of_lt_succ hn))]
    rfl
  rw [receive_request (.inl rfl) hb h0 ha (by omega) hd, if_pos rfl]
  unfold State.takePut
  rw [if_neg (show ¬ s.trailing.mgmt.slot ≠ .empty from not_not.mpr hs), fails, ht, hf]
  by_cases k : s.mgmt.image = .saving ∧ n = 0
  · rw [if_pos k, if_pos k]
  · rw [if_neg k, if_neg k]

/-- A clear command is obeyed and answered. -/
theorem runPut_clear {n : Nat} (hn : n < 4) (h0 : n ≠ 0) (w : Word) :
    s.runPut (commandPayload n w) = (s.clearCommand n).answer 31 n .ok [] := by
  obtain ⟨ht, hf, -, -⟩ := command_request hn w
  unfold State.runPut
  simp only [ht, hf, if_true, if_neg h0]

theorem runPut_save (w : Word) : s.runPut (commandPayload 0 w) = s.beginSave := by
  obtain ⟨ht, hf, -, -⟩ := command_request (n := 0) (by decide) w
  unfold State.runPut
  simp only [ht, hf, if_true]

/-- Settles O54: each command passes its examination and is obeyed, but for a SAVE during a SAVE. -/
theorem commandsAreObeyed : Obligations.CommandsAreObeyed := by
  intro env w s u hb h0 ha hd hs hu
  have hu : u = s.trailing := hu
  have received := fun n (hn : n < 4) => receive_command hn w hb h0 ha hd hs
  have clear : ∀ n, n < 4 → n ≠ 0 → s.receive (frameOf 0x04 env (commandPayload n w)) =
      (u.clearCommand n).answer 31 n .ok [] := by
    intro n hn hn0
    rw [received n hn, if_neg fun k => hn0 k.2, runPut_clear hn hn0, hu]
  refine ⟨fun hi => ?_, fun hi => ?_, congrArg _ (clear 1 (by decide) (by decide)),
    congrArg _ (clear 2 (by decide) (by decide)), congrArg _ (clear 3 (by decide) (by decide))⟩
  · have save : exec (.save env w) s = .next s.trailing.beginSave :=
      congrArg _ ((received 0 (by decide)).trans (by rw [if_neg fun k => hi k.1, runPut_save]))
    have image : s.trailing.mgmt = s.mgmt := rfl
    constructor
    · intro hf
      rw [save, hu]
      simp only [State.beginSave, State.issueFlash, image, hf, hs]
      rfl
    · intro hf
      obtain ⟨op, hop⟩ := Option.isSome_iff_exists.mp hf
      rw [save, hu]
      simp only [State.beginSave, State.issueFlash, image, hop, hs]
      rfl
  · exact congrArg _ ((received 0 (by decide)).trans (by rw [if_pos ⟨hi, rfl⟩, hu]))

end Commands

end Sys2Proof.Machine
end

