-- ==== Sys2Proof/Proofs/Transmitter.lean ====
section
/-! PROOF. The transmitter's choice (R16 to R18), the CALL that it builds (R141), and raises (R135 to R137). -/
namespace Sys2Proof.Machine

/-! ## What telling of a change leaves alone -/

/-- What the telling of a change in a channel or a record does not write, as a state with the rest blanked. -/
def State.untold (s : State) : State :=
  { s with
    button.buttons := Vector.replicate 16 .reset
    motion.channels := Vector.replicate 4 .reset
    effect.outputs := Vector.replicate 8 .reset
    mode.node := .active
    alert := { s.alert with
      beacon := none, beaconOn := false, beaconCtr := 0, sounderOn := false, sounderCtr := 0 } }

/-- `t` differs from `s` in buttons, channels, outputs, the node state and the beacon alone. -/
def Told (s t : State) : Prop := t.untold = s.untold

namespace Told
variable {s t u : State}

theorem refl (s : State) : Told s s := rfl
theorem trans (h : Told s t) (k : Told t u) : Told s u := Eq.trans k h

theorem ite {p : Prop} [Decidable p] (ht : p → Told s t) (hu : ¬p → Told s u) :
    Told s (if p then t else u) := by
  split
  · exact ht ‹_›
  · exact hu ‹_›

theorem foldl {α : Type} (f : State → α → State) (hf : ∀ a x, Told a (f a x)) (l : List α) (s : State) :
    Told s (l.foldl f s) := by
  induction l generalizing s with
  | nil => exact refl s
  | cons x l ih => exact (hf s x).trans (ih (f s x))

theorem ring (h : Told s t) : t.ring = s.ring := by
  have := congrArg State.ring h; exact this
theorem straps (h : Told s t) : t.straps = s.straps := by
  have := congrArg State.straps h; exact this
theorem resetCause (h : Told s t) : t.resetCause = s.resetCause := by
  have := congrArg State.resetCause h; exact this
theorem sampling (h : Told s t) : t.sampling = s.sampling := by
  have := congrArg State.sampling h; exact this
theorem mem (h : Told s t) : t.mem = s.mem := by
  have := congrArg State.mem h; exact this
theorem mgmt (h : Told s t) : t.mgmt = s.mgmt := by
  have := congrArg State.mgmt h; exact this
theorem cue (h : Told s t) : t.cue = s.cue := by
  have := congrArg State.cue h; exact this
theorem guards (h : Told s t) : t.motion.guards = s.motion.guards := by
  have := congrArg (fun x : State => x.motion.guards) h; exact this
theorem owed (h : Told s t) : t.motion.owed = s.motion.owed := by
  have := congrArg (fun x : State => x.motion.owed) h; exact this
theorem slots (h : Told s t) : t.alert.slots = s.alert.slots := by
  have := congrArg (fun x : State => x.alert.slots) h; exact this
theorem held (h : Told s t) : t.alert.held = s.alert.held := by
  have := congrArg (fun x : State => x.alert.held) h; exact this
theorem overflow (h : Told s t) : t.alert.overflow = s.alert.overflow := by
  have := congrArg (fun x : State => x.alert.overflow) h; exact this
theorem snapshot (h : Told s t) : t.alert.snapshot = s.alert.snapshot := by
  have := congrArg (fun x : State => x.alert.snapshot) h; exact this
theorem mode (h : Told s t) : t.mode.mode = s.mode.mode := by
  have := congrArg (fun x : State => x.mode.mode) h; exact this
theorem clock (h : Told s t) : t.mode.clock = s.mode.clock := by
  have := congrArg (fun x : State => x.mode.clock) h; exact this
theorem lineLost (h : Told s t) : t.mode.lineLost = s.mode.lineLost := by
  have := congrArg (fun x : State => x.mode.lineLost) h; exact this
theorem localPlay (h : Told s t) : t.mode.localPlay = s.mode.localPlay := by
  have := congrArg (fun x : State => x.mode.localPlay) h; exact this
theorem pairing (h : Told s t) : t.effect.pairing = s.effect.pairing := by
  have := congrArg (fun x : State => x.effect.pairing) h; exact this
theorem slotAt (h : Told s t) (i : Fin 16) : t.slotAt i = s.slotAt i := by
  simp only [State.slotAt, h.slots]

end Told

section Telling
variable (s : State)

theorem told_lampUpdate (b : Fin 16) : Told s (s.lampUpdate b) := rfl
theorem told_allLamps : Told s s.allLamps := rfl
theorem told_channelLamps (c : Fin 4) : Told s (s.channelLamps c) := rfl
theorem told_withChan (c : Fin 4) (x : Channel) : Told s (s.withChan c x) := rfl
theorem told_beaconUpdate : Told s s.beaconUpdate := .ite (fun _ => .refl s) fun _ => rfl
theorem told_restTest : Told s s.restTest := .ite (fun _ => rfl) fun _ => .refl s

theorem told_changeChan (c : Fin 4) (x : Channel) : Told s (s.changeChan c x) :=
  (told_withChan s c _).trans ((told_restTest _).trans (told_channelLamps _ c))

theorem told_releaseTest (c : Fin 4) : Told s (s.releaseTest c) := by
  unfold State.releaseTest
  dsimp only
  split
  · exact .ite (fun _ => told_changeChan s c _) fun _ => .refl s
  · exact .ite (fun _ => told_changeChan s c _) fun _ => .refl s
  · exact .refl s

theorem told_gatingNotice (c : Fin 4) : Told s (s.gatingNotice c) :=
  (told_channelLamps s c).trans (told_releaseTest _ c)

theorem told_tellRecord (c : Cause) (n : Nat) : Told s (s.tellRecord c n) := by
  have h := ((told_beaconUpdate s).trans (told_restTest _)).trans
    (Told.foldl State.gatingNotice told_gatingNotice (s.beaconUpdate.restTest.concerned c n) _)
  unfold State.tellRecord
  dsimp only
  split
  · exact h.trans (told_lampUpdate _ _)
  · exact h

/-- The build of a CALL changes its record, and tells of it. -/
theorem told_buildCall (i : Fin 16) (r : Record) :
    Told (s.withSlot i (s.recordAfterCall r)) (s.buildCall i r) := by
  unfold State.buildCall
  dsimp only
  split
  · exact told_tellRecord _ _ _
  · exact told_tellRecord _ _ _
  · exact .refl _
  · exact .refl _

end Telling

/-! ## Lamps (R73) -/

/-- What a lamp state rests on: the button but for its lamp, and the mode, motion and alert units. -/
theorem lampFor_congr {s t : State} {b : Fin 16} {x : Lamp} (hb : t.btn b = { s.btn b with lamp := x })
    (hmode : t.mode = s.mode) (hmotion : t.motion = s.motion) (halert : t.alert = s.alert) :
    t.lampFor b = s.lampFor b := by
  have press : ∀ h, t.pressAnswer h = s.pressAnswer h := by
    intro h
    unfold State.pressAnswer State.lossRestricts State.localPlayOn
    rw [hmode]
  have ready : t.dispatchReady b = s.dispatchReady b := by
    unfold State.dispatchReady
    simp only [hb, press]
    rfl
  have chan : ∀ k, t.lampChannelReady k = s.lampChannelReady k := by
    intro k
    unfold State.lampChannelReady State.gated State.anyRecord State.slotAt State.chan
    rw [hmotion, halert]
  have help : t.helpRecord b = s.helpRecord b := by
    unfold State.helpRecord State.findRecord State.slotAt
    rw [halert]
  unfold State.lampFor
  simp only [hb, press, ready, chan, help]

theorem allLamps_btn (s : State) (b : Fin 16) :
    s.allLamps.btn b = { s.btn b with lamp := s.lampFor b } := by
  simp [State.btn, State.allLamps]

/-- Lamps computed anew are those that the rules call for after it as well. -/
theorem allLamps_lampFor (s : State) (b : Fin 16) : s.allLamps.lampFor b = s.lampFor b :=
  lampFor_congr (allLamps_btn s b) rfl rfl rfl

/-! ## The record called (R18) -/

/-- The first of the listed numbers with a property is the lowest with it. -/
theorem find?_rising {n : Nat} {l : List (Fin n)} (hl : l.Pairwise (· < ·)) {p : Fin n → Bool} {i : Fin n}
    (hi : i ∈ l) (hp : p i = true) (hlow : ∀ j, p j = true → i ≤ j) : l.find? p = some i := by
  obtain ⟨j, hj⟩ := Option.isSome_iff_exists.mp (List.find?_isSome.mpr ⟨i, hi, hp⟩)
  obtain ⟨hpj, as, bs, rfl, has⟩ := List.find?_eq_some_iff_append.mp hj
  rw [hj, Option.some_inj]
  refine le_antisymm ?_ (hlow j hpj)
  rcases List.mem_append.mp hi with h | h
  · exact absurd hp (by simpa using has i h)
  · rcases List.mem_cons.mp h with rfl | h
    · exact le_refl _
    · exact le_of_lt ((List.pairwise_cons.mp (List.pairwise_append.mp hl).2.1).1 i h)

theorem find?_sixteen {p : Fin 16 → Bool} {i : Fin 16} (hp : p i = true) (hlow : ∀ j, p j = true → i ≤ j) :
    sixteen.find? p = some i := find?_rising sixteen_rising (mem_sixteen i) hp hlow

section Due
variable {s : State}

theorem dueLevel_eq_some {i : Fin 16} {l : Level} :
    (s.dueLevel i == some l) = true ↔ ∃ r, s.slotAt i = some r ∧ r.due = true ∧ r.level = l := by
  unfold State.dueLevel
  cases s.slotAt i with
  | none => simp
  | some r => cases h : r.due <;> simp [h]

/-- The due record of the highest level, in the lowest slot, is the one called. -/
theorem dueSlot_eq {i : Fin 16} {r : Record} (hr : s.slotAt i = some r) (hd : r.due = true)
    (h : ∀ j q, s.slotAt j = some q → q.due = true →
      levelCode q.level < levelCode r.level ∨ (q.level = r.level ∧ i ≤ j)) : s.dueSlot = some i := by
  have found : sixteen.find? (fun j => s.dueLevel j == some r.level) = some i := by
    refine find?_sixteen (dueLevel_eq_some.mpr ⟨r, hr, hd, rfl⟩) fun j hj => ?_
    obtain ⟨q, hq, hqd, hl⟩ := dueLevel_eq_some.mp hj
    rcases h j q hq hqd with k | k
    · rw [hl] at k
      exact absurd k (Nat.lt_irrefl _)
    · exact k.2
  have above : ∀ l, levelCode r.level < levelCode l →
      sixteen.find? (fun j => s.dueLevel j == some l) = none := by
    intro l hl
    refine List.find?_eq_none.mpr fun j _ hj => ?_
    obtain ⟨q, hq, hqd, rfl⟩ := dueLevel_eq_some.mp hj
    rcases h j q hq hqd with k | k
    · exact absurd (Nat.lt_trans hl k) (Nat.lt_irrefl _)
    · rw [k.1] at hl
      exact absurd hl (Nat.lt_irrefl _)
  unfold State.dueSlot
  cases hl : r.level
  · rw [hl] at found above
    rw [above .urgent (by decide), above .attend (by decide), found]
  · rw [hl] at found above
    rw [above .urgent (by decide), found]
  · rw [hl] at found
    rw [found]

theorem dueSlot_none (h : ∀ j q, s.slotAt j = some q → q.due = false) : s.dueSlot = none := by
  have none_due : ∀ l, sixteen.find? (fun j => s.dueLevel j == some l) = none := by
    refine fun l => List.find?_eq_none.mpr fun j _ hj => ?_
    obtain ⟨q, hq, hqd, -⟩ := dueLevel_eq_some.mp hj
    exact absurd (hqd.symm.trans (h j q hq)) (by decide)
  unfold State.dueSlot
  rw [none_due, none_due, none_due]

/-- The slot called holds a due record. -/
theorem dueSlot_due {i : Fin 16} (h : s.dueSlot = some i) :
    ∃ r, s.slotAt i = some r ∧ r.due = true := by
  have pick : ∀ l, sixteen.find? (fun j => s.dueLevel j == some l) = some i →
      ∃ r, s.slotAt i = some r ∧ r.due = true := by
    intro l k
    have due : (s.dueLevel i == some l) = true := List.find?_some (p := fun j => s.dueLevel j == some l) k
    obtain ⟨r, hr, hd, -⟩ := dueLevel_eq_some.mp due
    exact ⟨r, hr, hd⟩
  unfold State.dueSlot at h
  split at h
  · cases h
    exact pick _ ‹_›
  · split at h
    · cases h
      exact pick _ ‹_›
    · exact pick _ h

end Due

/-! ## The choice (R17) -/

section Choice
variable {s : State}

theorem pump_left (h : s.ring.bypass = true ∨ s.ring.sending.isSome = true) : s.pump = s := by
  refine if_neg fun k => ?_
  rcases h with h | h
  · exact absurd (k.1.symm.trans h) (by decide)
  · rw [k.2] at h
    exact absurd h (by decide)

theorem pump_idle (hb : s.ring.bypass = false) (hs : s.ring.sending = none) : s.pump = s.choose :=
  if_pos ⟨hb, hs⟩

/-- A transmitter whose frame has been sent chooses. -/
theorem exec_transmitterFree_eq (hb : s.ring.bypass = false) (hs : s.ring.sending.isSome = true) :
    exec .transmitterFree s = .next ({ s with ring.sending := none }).choose :=
  congrArg _ (if_pos ⟨hb, hs⟩)

/-- The head of the relay buffer goes first, but for every fifth frame where an own one waits (R17). -/
theorem choose_relay {f : Frame} {rest : List Frame} (hr : s.ring.relay = f :: rest)
    (h : s.ownWaiting = false ∨ s.ring.relayCount < 4) : s.choose =
      { s with ring.sending := some f, ring.relay := rest
               ring.relayCount := satInc 4 s.ring.relayCount } := by
  unfold State.choose
  rw [hr]
  exact if_pos h

/-- An own frame's turn. -/
theorem choose_own (h : s.ring.relay = [] ∨ (s.ownWaiting = true ∧ 4 ≤ s.ring.relayCount))
    (ho : s.ownWaiting = true) : s.choose = s.takeOwn := by
  unfold State.choose
  split
  · rename_i e
    rcases h with h | h
    · rw [e] at h
      cases h
    · refine if_neg fun k => ?_
      rcases k with k | k
      · exact absurd (k.symm.trans ho) (by decide)
      · exact Nat.not_lt.mpr h.2 k
  · exact if_pos ho

theorem choose_nothing (hr : s.ring.relay = []) (ho : s.ownWaiting = false) : s.choose = s := by
  unfold State.choose
  rw [hr]
  exact if_neg (by simp [ho])

theorem callWaiting_iff : s.callWaiting = true ↔ s.mode.lineLost = false ∧ s.dueSlot.isSome = true := by
  simp [State.callWaiting]

theorem takeOwn_call {i : Fin 16} {r : Record} (hl : s.mode.lineLost = false) (hd : s.dueSlot = some i)
    (hr : s.slotAt i = some r) : s.takeOwn =
      ({ s with ring.sending := some (s.ownFrame 0x13 (callPayload i r))
                ring.relayCount := 0 }).buildCall i r := by
  have waiting : s.callWaiting = true := callWaiting_iff.mpr ⟨hl, by rw [hd]; rfl⟩
  unfold State.takeOwn
  rw [if_pos waiting, hd]
  dsimp only
  rw [hr]

theorem takeOwn_queue {f : Frame} {rest : List Frame} (hc : s.callWaiting = false)
    (hi : s.ring.insertion = f :: rest) : s.takeOwn =
      { s with ring.sending := some f, ring.insertion := rest, ring.relayCount := 0 } := by
  unfold State.takeOwn
  rw [if_neg (by simp [hc]), hi]

theorem ownWaiting_call (h : s.callWaiting = true) : s.ownWaiting = true := by
  simp [State.ownWaiting, h]

theorem ownWaiting_queue {f : Frame} {rest : List Frame} (h : s.ring.insertion = f :: rest) :
    s.ownWaiting = true := by simp [State.ownWaiting, h]

/-- Settles O12: the transmitter's cases (`choose_relay`, `choose_own`, `choose_nothing`) and the record called
(`dueSlot_eq`). -/
theorem transmitterChooses : Obligations.TransmitterChooses := by
  refine ⟨fun s => ⟨pump_left, fun hb hs f => ?_, fun hb hs => ?_⟩, fun s i r => ⟨dueSlot_eq, dueSlot_none, ?_,
    fun h => ?_, fun h => ?_, fun h => ?_⟩⟩
  · have same : ({ s with ring.sending := none } : State) = s := by rw [← hs]
    rw [exec_transmitterFree_eq (s := { s with ring.sending := some f }) hb rfl, pump_idle hb hs]
    exact congrArg (fun x : State => Host.Outcome.next x.choose) same
  · rw [exec_transmitterFree_eq hb hs]
    refine ⟨fun f rest hr h => ?_, fun h => ⟨fun i r hl hd hr => ?_, fun f rest hc hi => ?_⟩, fun hr ho => ?_⟩
    · exact congrArg _ (choose_relay (s := { s with ring.sending := none }) hr h)
    · have waiting : s.ownWaiting = true := ownWaiting_call (callWaiting_iff.mpr ⟨hl, by rw [hd]; rfl⟩)
      exact congrArg _ ((choose_own (s := { s with ring.sending := none }) h waiting).trans
        (takeOwn_call (s := { s with ring.sending := none }) hl hd hr))
    · exact congrArg _ ((choose_own (s := { s with ring.sending := none }) h (ownWaiting_queue hi)).trans
        (takeOwn_queue (s := { s with ring.sending := none }) hc hi))
    · exact congrArg _ (choose_nothing (s := { s with ring.sending := none }) hr ho)
  · simp [callPayload, bytesBE]
  · simp only [State.buildCall, State.recordAfterCall, h]
    rfl
  · rcases h with h | h <;> simp only [State.buildCall, State.recordAfterCall, h]
  · simp only [State.buildCall, State.recordAfterCall, h]

/-! ## An idle transmitter and the alert table -/

/-- An idle transmitter calls a due record: its CALL goes out, and the record is as after its CALL. -/
structure Calls (s t : State) (i : Fin 16) (r : Record) : Prop where
  bypass   : s.ring.bypass = false
  idle     : s.ring.sending = none
  lineLost : s.mode.lineLost = false
  slot     : s.slotAt i = some r
  due      : r.due = true
  slots    : ∀ j, t.slotAt j = if j = i then s.recordAfterCall r else s.slotAt j
  sending  : t.ring.sending = some (s.ownFrame 0x13 (callPayload i r))

theorem takeOwn_calls {i : Fin 16} {r : Record} (hb : s.ring.bypass = false) (hs : s.ring.sending = none)
    (hl : s.mode.lineLost = false) (hd : s.dueSlot = some i) (hr : s.slotAt i = some r) :
    Calls s s.takeOwn i r := by
  obtain ⟨q, hq, due⟩ := dueSlot_due hd
  cases hr.symm.trans hq
  have told := told_buildCall
    { s with ring.sending := some (s.ownFrame 0x13 (callPayload i r)), ring.relayCount := 0 } i r
  rw [← takeOwn_call hl hd hr] at told
  refine ⟨hb, hs, hl, hr, due, fun j => (told.slotAt j).trans (slotAt_withSlot _ _ _ _), ?_⟩
  rw [told.ring]
  rfl

/-- An idle transmitter that owes no relay frame its turn calls the record that is due. -/
theorem pump_calls {i : Fin 16} {r : Record} (hb : s.ring.bypass = false) (hs : s.ring.sending = none)
    (hl : s.mode.lineLost = false) (hq : s.ring.relay = [] ∨ 4 ≤ s.ring.relayCount)
    (hd : s.dueSlot = some i) (hr : s.slotAt i = some r) : Calls s s.pump i r := by
  have waiting : s.ownWaiting = true := ownWaiting_call (callWaiting_iff.mpr ⟨hl, by rw [hd]; rfl⟩)
  rw [pump_idle hb hs, choose_own (hq.imp id fun h => ⟨waiting, h⟩) waiting]
  exact takeOwn_calls hb hs hl hd hr

/-- The transmitter's choice leaves the alert table alone, or calls one record. -/
theorem pump_cases (s : State) : s.pump.alert = s.alert ∨ ∃ i r, Calls s s.pump i r := by
  by_cases idle : s.ring.bypass = false ∧ s.ring.sending = none
  · obtain ⟨hb, hs⟩ := idle
    have own : s.takeOwn.alert = s.alert ∨ ∃ i r, Calls s s.takeOwn i r := by
      cases hc : s.callWaiting
      · left
        unfold State.takeOwn
        rw [if_neg (by simp [hc])]
        split <;> rfl
      · obtain ⟨hl, hd⟩ := callWaiting_iff.mp hc
        obtain ⟨i, hi⟩ := Option.isSome_iff_exists.mp hd
        obtain ⟨r, hr, -⟩ := dueSlot_due hi
        exact .inr ⟨i, r, takeOwn_calls hb hs hl hi hr⟩
    rw [pump_idle hb hs]
    unfold State.choose
    split
    · split
      · exact .inl rfl
      · exact own
    · split
      · exact own
      · exact .inl rfl
  · exact .inl (congrArg State.alert (if_neg idle))

/-- The transmitter's choice keeps the overflow flag and the snapshot. -/
theorem pump_snapshot (s : State) : s.pump.alert.snapshot = s.alert.snapshot := by
  have own : s.takeOwn.alert.snapshot = s.alert.snapshot := by
    unfold State.takeOwn
    split
    · split
      · split
        · exact (told_buildCall _ _ _).snapshot
        · rfl
      · rfl
    · split <;> rfl
  unfold State.pump State.choose
  repeat' split
  all_goals first | rfl | exact own

end Choice

/-! ## Raises (R135 to R137, R149) -/

section Raises
variable {s : State} {c : Cause} {n : Nat} {lvl : Option Level} {info : Option ChanInfo}

theorem fillSnapshot_untouched (i : Option (Fin 16)) : (s.fillSnapshot c n i info).ring = s.ring ∧
    (s.fillSnapshot c n i info).mode = s.mode ∧ (s.fillSnapshot c n i info).straps = s.straps ∧
    (s.fillSnapshot c n i info).alert.held = s.alert.held := by
  unfold State.fillSnapshot
  split <;> exact ⟨rfl, rfl, rfl, rfl⟩

theorem fillSnapshot_snapshot (i : Option (Fin 16)) : (s.fillSnapshot c n i info).alert.snapshot =
    if c.latched = true ∧ s.alert.snapshot = none then some ⟨c, n, s.mode.clock, i, info⟩
    else s.alert.snapshot := by
  unfold State.fillSnapshot
  split <;> rfl

theorem causeSettings_congr {t : State} (h : t.alert.held = s.alert.held) (x : Cause) :
    t.causeSettings x = s.causeSettings x := by
  unfold State.causeSettings
  rw [h]

/-- What a raise leaves before the transmitter chooses: the record `r` in slot `i`, the other slots, and the ring
port, as they were; the snapshot filled. -/
structure Recorded (s u : State) (c : Cause) (n : Nat) (info : Option ChanInfo) (i : Fin 16) (r : Record) :
    Prop where
  slots    : ∀ j, u.slotAt j = if j = i then some r else s.slotAt j
  ring     : u.ring = s.ring
  straps   : u.straps = s.straps
  lineLost : u.mode.lineLost = s.mode.lineLost
  held     : u.alert.held = s.alert.held
  snapshot : u.alert.snapshot = (s.fillSnapshot c n (some i) info).alert.snapshot

theorem recorded_of_told {u : State} {i : Fin 16} {r : Record}
    (h : Told ((s.withSlot i (some r)).fillSnapshot c n (some i) info) u) : Recorded s u c n info i r := by
  obtain ⟨ring, mode, straps, held⟩ :=
    fillSnapshot_untouched (s := s.withSlot i (some r)) (c := c) (n := n) (info := info) (some i)
  refine ⟨fun j => ?_, h.ring.trans ring, h.straps.trans straps, ?_, h.held.trans held, ?_⟩
  · rw [h.slotAt, fillSnapshot_slotAt, slotAt_withSlot]
  · rw [h.lineLost, mode]
    rfl
  · rw [h.snapshot, fillSnapshot_snapshot, fillSnapshot_snapshot]
    rfl

/-- A raise of a new matter: a record in the lowest empty slot, then the transmitter's choice. -/
theorem raiseWith_new {i : Fin 16} (hf : s.findRecord c n = none) (he : s.emptySlot = some i) :
    ∃ u, s.raiseWith c n lvl info = u.pump ∧
      Recorded s u c n info i (s.newRecord c n (lvl.getD (s.causeSettings c).level)) := by
  refine ⟨_, ?_, recorded_of_told (told_tellRecord _ c n)⟩
  unfold State.raiseWith
  rw [hf]
  dsimp only
  rw [he]
  cases lvl <;> rfl

/-- A raise of a matter in the table: its record raised again, then the transmitter's choice. -/
theorem raiseWith_again {i : Fin 16} {r : Record} (hf : s.findRecord c n = some i) (hr : s.slotAt i = some r) :
    ∃ u, s.raiseWith c n lvl info = u.pump ∧ Recorded s u c n info i (r.raisedAgain lvl) := by
  refine ⟨_, ?_, recorded_of_told (u := if r.unseen then
    ((s.withSlot i (some (r.raisedAgain lvl))).fillSnapshot c n (some i) info).beaconUpdate
    else ((s.withSlot i (some (r.raisedAgain lvl))).fillSnapshot c n (some i) info).tellRecord c n)
    (.ite (fun _ => told_beaconUpdate _) fun _ => told_tellRecord _ c n)⟩
  unfold State.raiseWith
  rw [hf]
  dsimp only
  rw [hr]

/-- A raise at a full table sets the overflow flag. -/
theorem raiseWith_overflow (hf : s.findRecord c n = none) (he : s.emptySlot = none) :
    Told (({ s with alert.overflow := true }).fillSnapshot c n none info) (s.raiseWith c n lvl info) := by
  unfold State.raiseWith
  rw [hf]
  dsimp only
  rw [he]
  exact told_beaconUpdate _

/-- The record of a matter after its raise: as recorded, or as its CALL leaves it. -/
theorem Recorded.slot_cases {u : State} {i : Fin 16} {r : Record} (h : Recorded s u c n info i r) :
    u.pump.slotAt i = some r ∨
      (s.ring.bypass = false ∧ s.ring.sending = none ∧ s.mode.lineLost = false ∧
        u.pump.slotAt i = s.recordAfterCall r ∧
        u.pump.ring.sending = some (s.ownFrame 0x13 (callPayload i r))) := by
  have own : u.slotAt i = some r := (h.slots i).trans (if_pos rfl)
  rcases pump_cases u with same | ⟨k, q, calls⟩
  · left
    rw [State.slotAt, same]
    exact own
  · by_cases hk : i = k
    · subst hk
      obtain ⟨hb, hs, hl, hq, -, slots, sending⟩ := calls
      cases own.symm.trans hq
      rw [h.ring] at hb hs
      rw [h.lineLost] at hl
      refine .inr ⟨hb, hs, hl, ?_, ?_⟩
      · rw [slots, if_pos rfl]
        unfold State.recordAfterCall State.escalationTime
        rw [causeSettings_congr h.held]
      · rw [sending]
        unfold State.ownFrame State.address
        rw [h.straps, h.ring]
    · exact .inl ((calls.slots i).trans ((if_neg hk).trans own))

/-- Another slot after a raise: as it was, or as the CALL of its record leaves it. -/
theorem Recorded.other_cases {u : State} {i j : Fin 16} {r : Record} (h : Recorded s u c n info i r)
    (hj : j ≠ i) : u.pump.slotAt j = s.slotAt j ∨
      (s.ring.bypass = false ∧ s.ring.sending = none ∧ s.mode.lineLost = false ∧
        ∃ q, s.slotAt j = some q ∧ q.due = true ∧ u.pump.slotAt j = s.recordAfterCall q) := by
  have own : u.slotAt j = s.slotAt j := (h.slots j).trans (if_neg hj)
  rcases pump_cases u with same | ⟨k, q, calls⟩
  · left
    rw [State.slotAt, same]
    exact own
  · by_cases hk : j = k
    · subst hk
      obtain ⟨hb, hs, hl, hq, hd, slots, -⟩ := calls
      rw [h.ring] at hb hs
      rw [h.lineLost] at hl
      refine .inr ⟨hb, hs, hl, q, own.symm.trans hq, hd, ?_⟩
      rw [slots, if_pos rfl]
      unfold State.recordAfterCall State.escalationTime
      rw [causeSettings_congr h.held]
    · exact .inl ((calls.slots j).trans ((if_neg hk).trans own))

/-- A record raised is called at once where the line is not lost, no relay frame goes first and no other due
record stands before it. -/
theorem Recorded.called {u : State} {i : Fin 16} {r : Record} (h : Recorded s u c n info i r)
    (hd : r.due = true) (hb : s.ring.bypass = false) (hs : s.ring.sending = none)
    (hl : s.mode.lineLost = false) (hq : s.ring.relay = [] ∨ 4 ≤ s.ring.relayCount)
    (hi : ∀ j q, s.slotAt j = some q → q.due = true → levelCode q.level < levelCode r.level ∨
      (q.level = r.level ∧ i < j)) : u.pump.slotAt i = s.recordAfterCall r := by
  have own : u.slotAt i = some r := (h.slots i).trans (if_pos rfl)
  have slot : u.dueSlot = some i := by
    refine dueSlot_eq own hd fun j q hj hqd => ?_
    rw [h.slots] at hj
    by_cases e : j = i
    · subst e
      rw [if_pos rfl] at hj
      cases hj
      exact .inr ⟨rfl, le_refl _⟩
    · rw [if_neg e] at hj
      exact (hi j q hj hqd).imp id fun k => ⟨k.1, le_of_lt k.2⟩
  have calls := pump_calls (s := u) (by rw [h.ring]; exact hb) (by rw [h.ring]; exact hs)
    (by rw [h.lineLost]; exact hl) (by rw [h.ring]; exact hq) slot own
  rw [calls.slots, if_pos rfl]
  unfold State.recordAfterCall State.escalationTime
  rw [causeSettings_congr h.held]

theorem raisedAgain_eq (r : Record) (l : Option Level) :
    (r.raisedAgain l).cause = r.cause ∧ (r.raisedAgain l).subject = r.subject ∧
      (r.raisedAgain l).level = (match l with | some x => levelMax r.level x | none => r.level) ∧
      (r.raisedAgain l).repeats = inc8 r.repeats ∧ (r.raisedAgain l).condition = !r.cause.momentary ∧
      (r.raisedAgain l).escalations = r.escalations ∧ (r.raisedAgain l).raisedAt = r.raisedAt ∧
      (r.raisedAgain l).due = true ∧
      ((r.state = .raised ∧ (r.raisedAgain l).state = .raised ∧ (r.raisedAgain l).timer = r.timer) ∨
        (r.state = .called ∧ (r.raisedAgain l).state = .called ∧ (r.raisedAgain l).timer = r.timer) ∨
        ((r.state = .acknowledged ∨ r.state = .clearing) ∧ (r.raisedAgain l).state = .raised ∧
          (r.raisedAgain l).timer = none)) := by
  unfold Record.raisedAgain
  cases r.state
  · exact ⟨rfl, rfl, rfl, rfl, rfl, rfl, rfl, rfl, .inl ⟨rfl, rfl, rfl⟩⟩
  · exact ⟨rfl, rfl, rfl, rfl, rfl, rfl, rfl, rfl, .inr (.inl ⟨rfl, rfl, rfl⟩)⟩
  · exact ⟨rfl, rfl, rfl, rfl, rfl, rfl, rfl, rfl, .inr (.inr ⟨.inl rfl, rfl, rfl⟩)⟩
  · exact ⟨rfl, rfl, rfl, rfl, rfl, rfl, rfl, rfl, .inr (.inr ⟨.inr rfl, rfl, rfl⟩)⟩

/-- The CALL of a record that waits to be seen changes its state, its due flag and its timer alone. -/
theorem recordAfterCall_unseen {r : Record} (h : r.state = .raised ∨ r.state = .called) :
    ∃ x, s.recordAfterCall r = some x ∧ x.state = .called ∧ x.due = false ∧ x.cause = r.cause ∧
      x.subject = r.subject ∧ x.level = r.level ∧ x.repeats = r.repeats ∧ x.condition = r.condition ∧
      x.escalations = r.escalations ∧ x.raisedAt = r.raisedAt := by
  unfold State.recordAfterCall
  rcases h with h | h <;> simp only [h]
  · exact ⟨_, rfl, rfl, rfl, rfl, rfl, rfl, rfl, rfl, rfl, rfl⟩
  · exact ⟨_, rfl, rfl, rfl, rfl, rfl, rfl, rfl, rfl, rfl, rfl⟩

/-- A matter raised anew. -/
theorem raiseWith_new_slot {i : Fin 16} (hf : s.findRecord c n = none) (he : s.emptySlot = some i) :
    ∃ r, (s.raiseWith c n lvl info).slotAt i = some r ∧ r.cause = c ∧ r.subject = n ∧
      r.level = lvl.getD (s.causeSettings c).level ∧
      ((r.state = .raised ∧ r.due = true ∧ r.timer = none) ∨
        (s.ring.bypass = false ∧ s.ring.sending = none ∧ s.mode.lineLost = false ∧
          r.state = .called ∧ r.due = false ∧ r.timer = s.escalationTime c ∧
          (s.raiseWith c n lvl info).ring.sending = some ⟨0x13, 0, s.address, BitVec.ofNat 8 s.ring.hopLimit,
            [BitVec.ofNat 8 i.val, BitVec.ofNat 8 c.code.val, BitVec.ofNat 8 n,
              BitVec.ofNat 8 (levelCode r.level), 0, 0, 0] ++ bytesBE 3 s.mode.clock⟩)) ∧
      (s.ring.bypass = false → s.ring.sending = none → s.mode.lineLost = false →
        s.ring.relay = [] ∨ 4 ≤ s.ring.relayCount →
        (∀ j q, s.slotAt j = some q → q.due = true → levelCode q.level < levelCode r.level ∨
          (q.level = r.level ∧ i < j)) → r.state = .called) ∧
      r.condition = !c.momentary ∧ r.repeats = 0 ∧ r.escalations = 0 ∧ r.raisedAt = s.mode.clock := by
  obtain ⟨u, e, h⟩ := raiseWith_new (lvl := lvl) (info := info) hf he
  rw [e]
  rcases h.slot_cases with own | ⟨hb, hs, hl, own, sent⟩
  · refine ⟨_, own, rfl, rfl, rfl, .inl ⟨rfl, rfl, rfl⟩, fun hb hs hl hq hi => ?_, rfl, rfl, rfl, rfl⟩
    cases own.symm.trans (h.called rfl hb hs hl hq hi)
  · exact ⟨_, own, rfl, rfl, rfl, .inr ⟨hb, hs, hl, rfl, rfl, rfl, sent⟩, fun _ _ _ _ _ => rfl, rfl, rfl, rfl,
      rfl⟩

/-- A matter raised again. -/
theorem raiseWith_again_slot {i : Fin 16} {r0 : Record} (hf : s.findRecord c n = some i)
    (hr : s.slotAt i = some r0) :
    ∃ r, (s.raiseWith c n lvl info).slotAt i = some r ∧ r.cause = c ∧ r.repeats = inc8 r0.repeats ∧
      r.condition = !c.momentary ∧ r.escalations = r0.escalations ∧ r.raisedAt = r0.raisedAt ∧
      ((r.due = true ∧
          ((r0.state = .raised ∧ r.state = .raised ∧ r.timer = r0.timer) ∨
            (r0.state = .called ∧ r.state = .called ∧ r.timer = r0.timer) ∨
            ((r0.state = .acknowledged ∨ r0.state = .clearing) ∧ r.state = .raised ∧ r.timer = none))) ∨
        (s.ring.bypass = false ∧ s.ring.sending = none ∧ s.mode.lineLost = false ∧
          r.state = .called ∧ r.due = false)) ∧
      r.level = (match lvl with | some l => levelMax r0.level l | none => r0.level) := by
  obtain ⟨u, e, h⟩ := raiseWith_again (lvl := lvl) (info := info) hf hr
  obtain ⟨q, hq, hc, -⟩ := findRecord_some hf
  cases hr.symm.trans hq
  obtain ⟨cause, -, level, repeats, condition, escalations, raisedAt, due, state⟩ := raisedAgain_eq r0 lvl
  rw [hc] at cause condition
  rw [e]
  rcases h.slot_cases with own | ⟨hb, hs, hl, own, -⟩
  · exact ⟨_, own, cause, repeats, condition, escalations, raisedAt, .inl ⟨due, state⟩, level⟩
  · have unseen : (r0.raisedAgain lvl).state = .raised ∨ (r0.raisedAgain lvl).state = .called := by
      rcases state with ⟨-, k, -⟩ | ⟨-, k, -⟩ | ⟨-, k, -⟩
      · exact .inl k
      · exact .inr k
      · exact .inl k
    obtain ⟨x, hx, called, notDue, hxc, -, hxl, hxr, hxcond, hxe, hxa⟩ := recordAfterCall_unseen (s := s) unseen
    exact ⟨x, own.trans hx, hxc.trans cause, hxr.trans repeats, hxcond.trans condition, hxe.trans escalations,
      hxa.trans raisedAt, .inr ⟨hb, hs, hl, called, notDue⟩, hxl.trans level⟩

/-- The slot that a raise records in, if it finds one, and what the raise leaves before the transmitter chooses. -/
theorem raiseWith_recorded {i : Fin 16}
    (h : s.findRecord c n = some i ∨ (s.findRecord c n = none ∧ s.emptySlot = some i)) :
    ∃ u r, s.raiseWith c n lvl info = u.pump ∧ Recorded s u c n info i r := by
  rcases h with hf | ⟨hf, he⟩
  · obtain ⟨r, hr, -, -⟩ := findRecord_some hf
    obtain ⟨u, e, k⟩ := raiseWith_again (lvl := lvl) (info := info) hf hr
    exact ⟨u, _, e, k⟩
  · obtain ⟨u, e, k⟩ := raiseWith_new (lvl := lvl) (info := info) hf he
    exact ⟨u, _, e, k⟩

/-- Every slot but that of the matter raised. -/
theorem raiseWith_other_slot {i j : Fin 16}
    (h : s.findRecord c n = some i ∨ (s.findRecord c n = none ∧ s.emptySlot = some i)) (hj : j ≠ i) :
    (s.raiseWith c n lvl info).slotAt j = s.slotAt j ∨
      (s.ring.bypass = false ∧ s.ring.sending = none ∧ s.mode.lineLost = false ∧
        ∃ q, s.slotAt j = some q ∧ q.due = true ∧
          (s.raiseWith c n lvl info).slotAt j = s.recordAfterCall q) := by
  obtain ⟨u, r, e, k⟩ := raiseWith_recorded (lvl := lvl) (info := info) h
  rw [e]
  exact k.other_cases hj

/-- A record after its CALL, by its state (R141). -/
theorem recordAfterCall_cases (q : Record) {x : Option Record} (h : x = s.recordAfterCall q) :
    (q.state = .raised ∧ x = some { q with
        state := .called, due := false
        timer := if (s.causeSettings q.cause).esc = 0 then none
          else some ((s.causeSettings q.cause).esc * 10000) }) ∨
      ((q.state = .called ∨ q.state = .acknowledged) ∧ x = some { q with due := false }) ∨
      (q.state = .clearing ∧ x = none) := by
  subst h
  unfold State.recordAfterCall
  cases q.state
  · exact .inl ⟨rfl, rfl⟩
  · exact .inr (.inl ⟨.inl rfl, rfl⟩)
  · exact .inr (.inl ⟨.inr rfl, rfl⟩)
  · exact .inr (.inr ⟨rfl, rfl⟩)

/-- A latched raise fills an empty snapshot (R149). -/
theorem raiseWith_snapshot : (s.raiseWith c n lvl info).alert.snapshot =
    if c.latched = true ∧ s.alert.snapshot = none then
      (match s.findRecord c n with
        | some i => some ⟨c, n, s.mode.clock, some i, info⟩
        | none => some ⟨c, n, s.mode.clock, s.emptySlot, info⟩)
    else s.alert.snapshot := by
  have recorded : ∀ i, s.findRecord c n = some i ∨ (s.findRecord c n = none ∧ s.emptySlot = some i) →
      (s.raiseWith c n lvl info).alert.snapshot =
        if c.latched = true ∧ s.alert.snapshot = none then some ⟨c, n, s.mode.clock, some i, info⟩
        else s.alert.snapshot := by
    intro i h
    obtain ⟨u, r, e, k⟩ := raiseWith_recorded (lvl := lvl) (info := info) h
    rw [e, pump_snapshot, k.snapshot, fillSnapshot_snapshot]
  cases hf : s.findRecord c n with
  | some i => exact recorded i (.inl hf)
  | none =>
    cases he : s.emptySlot with
    | some i => exact recorded i (.inr ⟨hf, he⟩)
    | none =>
      rw [(raiseWith_overflow hf he).snapshot, fillSnapshot_snapshot]

/-- Settles O30: a raise by the slot it finds, the transmitter's part told by `pump_cases`. -/
theorem raiseIsRecorded : Obligations.RaiseIsRecorded := by
  refine ⟨fun code level s h => congrArg _ (takeAction_performed _ h), ?_⟩
  rintro s t c n lvl info rfl
  have mild := mild_raiseWith (s := s) c n lvl info
  refine ⟨fun i => raiseWith_new_slot, fun i r0 => raiseWith_again_slot, fun i j h hj => ?_, fun hf he => ?_,
    raiseWith_snapshot, mild.mode, mild.effect, mild.cue, mild.mem, mild.mgmt, mild.guards, mild.held, mild.key⟩
  · rcases raiseWith_other_slot h hj with k | ⟨hb, hs, hl, q, hq, hd, k⟩
    · exact .inl k
    · exact .inr ⟨hb, hs, hl, q, hq, hd, recordAfterCall_cases q k⟩
  · have told := raiseWith_overflow (lvl := lvl) (info := info) hf he
    have filled := fillSnapshot_untouched (s := { s with alert.overflow := true }) (c := c) (n := n)
      (info := info) none
    refine ⟨told.overflow.trans ?_, told.slots.trans ?_, told.ring.trans filled.1⟩ <;>
      · unfold State.fillSnapshot
        split <;> rfl

end Raises

/-! ## A repeated PULSE (R11, R21, R24) -/

section Pulse
variable {s : State} {env : Envelope} {p : List Byte}

/-- An admitted PULSE is acted on, and passed on. -/
theorem receive_pulse (hb : s.ring.bypass = false) (h0 : env.src = 0) (ha : s.address ≠ 0)
    (hd : env.dst = 127 ∨ env.dst = s.address) (hp : p.length = 4) :
    s.receive (frameOf 0x01 env p) = (s.trailing.actPulse p).passOn (frameOf 0x01 env p) := by
  have admitted : s.trailing.admits (frameOf 0x01 env p) = true := by
    rw [admits_toNode (.inl rfl)]
    show (decide (env.src = 0) && (decide (env.dst = 127) || decide (env.dst = s.address)) &&
      p.length == 4) = true
    rw [← Bool.decide_or, decide_eq_true h0, decide_eq_true hd, hp]
    rfl
  rw [receive_other (frameOf_good rfl (by simp [h0]) (by omega)) hb (fun h => ha (h.symm.trans h0)),
    actIfAdmitted_admitted admitted]
  rfl

theorem actPulse_accepted {m : GalleryMode} (hm : modeOfCode (byteAt p 0).toNat = some m)
    (ht : numAt p 1 3 < 86400) : s.actPulse p = s.takePulse m (numAt p 1 3) := by
  unfold State.actPulse
  rw [hm]
  exact if_pos ht

theorem actPulse_ignored (h : modeOfCode (byteAt p 0).toNat = none ∨ 86400 ≤ numAt p 1 3) :
    s.actPulse p = s := by
  unfold State.actPulse
  split
  · rename_i m hm
    rcases h with h | h
    · rw [hm] at h
      cases h
    · exact if_neg (Nat.not_lt.mpr h)
  · rfl

/-- The node after an accepted PULSE has set the timer and the clock. -/
def State.pulsed (s : State) (t : Nat) : State :=
  { s with ring.lossTimer := some (s.ring.lossUnits * 10), mode.clock := t, mode.ms := 0 }

/-- The node once LINE-LOST is clear and the lamps are computed anew, before its condition ends. -/
def State.unlost (s : State) : State := { s with mode.lineLost := false, mode.localPlay := none }.allLamps

theorem unlost_btn (b : Fin 16) : s.unlost.btn b = { s.btn b with lamp := s.unlost.lampFor b } := by
  rw [State.unlost, allLamps_lampFor]
  exact allLamps_btn _ b

theorem clearLineLost_clear (h : s.mode.lineLost = false) : s.clearLineLost = s := if_neg (by simp [h])

theorem clearLineLost_lost (h : s.mode.lineLost = true) :
    s.clearLineLost = (s.unlost.conditionEnd .lineLost 0).pump := if_pos h

/-- The clearing of LINE-LOST leaves the effective mode. -/
theorem clearLineLost_mode : s.clearLineLost.mode.mode = s.mode.mode := by
  unfold State.clearLineLost
  split
  · exact ((calm_conditionEnd _ _ _).trans (calm_pump _)).mode
  · rfl

/-- A PULSE that repeats the effective mode changes it not (R24). -/
theorem takePulse_repeated (t : Nat) : s.takePulse s.mode.mode t = (s.pulsed t).clearLineLost :=
  if_pos (clearLineLost_mode (s := s.pulsed t)).symm

/-- Settles O15: the mode repeated, LINE-LOST decides what else the PULSE does. -/
theorem repeatedPulseSetsClock : Obligations.RepeatedPulseSetsClock := by
  intro env p s hb h0 ha hd hp
  have received : exec (.pulse env p) s = .next ((s.trailing.actPulse p).passOn (frameOf 0x01 env p)) :=
    congrArg _ (receive_pulse hb h0 ha hd hp)
  rw [received]
  refine ⟨fun hm ht hl => ?_, fun hm ht hl => ?_, fun h => ?_⟩
  · have same : s.trailing.actPulse p = s.trailing.pulsed (numAt p 1 3) := by
      rw [actPulse_accepted hm ht]
      exact (takePulse_repeated (s := s.trailing) _).trans (clearLineLost_clear hl)
    rw [same]
    rfl
  · have cleared : s.trailing.actPulse p =
        (((s.trailing.pulsed (numAt p 1 3)).unlost).conditionEnd .lineLost 0).pump := by
      rw [actPulse_accepted hm ht]
      exact (takePulse_repeated (s := s.trailing) _).trans (clearLineLost_lost hl)
    rw [cleared]
    exact ⟨(s.trailing.pulsed (numAt p 1 3)).unlost, rfl, unlost_btn, rfl⟩
  · rw [actPulse_ignored h]
    rfl

end Pulse

end Sys2Proof.Machine
end

