-- ==== Sys2Proof/Proofs/Image.lean ====
section
/-! PROOF. What a load reads and writes: the header (R173, R182), the CRC-32, the blank content (R174) and the
bits of an image word that have a field (R179). -/
namespace Sys2Proof.Machine

/-! ## Numbers of a header (R179) -/

theorem natBE_snoc (bs : List Byte) (b : Byte) : natBE (bs ++ [b]) = natBE bs * 256 + b.toNat := by
  simp [natBE]

/-- Bytes of one length that spell one number are the same. -/
theorem natBE_inj {as bs : List Byte} (hl : as.length = bs.length) (h : natBE as = natBE bs) : as = bs := by
  induction as using List.reverseRecOn generalizing bs with
  | nil => exact (List.eq_nil_of_length_eq_zero hl.symm).symm
  | append_singleton as a ih =>
    rcases List.eq_nil_or_concat' bs with rfl | ⟨bs, b, rfl⟩
    · simp at hl
    · rw [natBE_snoc, natBE_snoc] at h
      have ha := a.isLt
      have hb := b.isLt
      rw [ih (by simpa using hl) (by omega : natBE as = natBE bs), BitVec.eq_of_toNat_eq (by omega : a.toNat = b.toNat)]

/-- The `n` bytes from byte `i` on, missing bytes being 0. -/
def bytesFrom (h : List Byte) (i n : Nat) : List Byte := (List.range n).map fun k => byteAt h (i + k)

theorem bytesFrom_length (h : List Byte) (i n : Nat) : (bytesFrom h i n).length = n := by simp [bytesFrom]

theorem take_drop_eq {h : List Byte} {i n : Nat} (hn : i + n ≤ h.length) :
    (h.drop i).take n = bytesFrom h i n := by
  refine List.ext_getElem (by simp [bytesFrom]; omega) fun k hk _ => ?_
  have : i + k < h.length := by simp at hk; omega
  simp [bytesFrom, byteAt, List.getD_eq_getElem?_getD, List.getElem?_eq_getElem this]

/-- A number stands in the header where its bytes do. -/
theorem numAt_eq_iff {h : List Byte} {i n : Nat} (bs : List Byte) (hb : bs.length = n) :
    numAt h i n = natBE bs ↔ bytesFrom h i n = bs :=
  ⟨fun e => natBE_inj (by rw [bytesFrom_length, hb]) e, fun e => congrArg natBE e⟩

/-- The header's bytes that a load compares, by place. -/
theorem headerOk_bytes (h : List Byte) : headerOk h = true ↔ 24 ≤ h.length ∧
    bytesFrom h 0 5 = [0x50, 0x5A, 0x54, 0x42, 1] ∧
    bytesFrom h 6 18 = [0, 1, 0, 16, 0, 4, 0, 8, 0, 16, 0, 64, 0, 32, 2, 0, 8, 80] := by
  have shape : headerOk h = true ↔ (h.drop 0).take 5 = [0x50, 0x5A, 0x54, 0x42, 1] ∧
      (h.drop 6).take 18 = [0, 1, 0, 16, 0, 4, 0, 8, 0, 16, 0, 64, 0, 32, 2, 0, 8, 80] := by
    have e1 : (headerBytes 0).take 5 = [0x50, 0x5A, 0x54, 0x42, 1] := by decide
    have e2 : ((headerBytes 0).drop 6).take 18 =
        [0, 1, 0, 16, 0, 4, 0, 8, 0, 16, 0, 64, 0, 32, 2, 0, 8, 80] := by decide
    rw [headerOk, e1, e2, Bool.and_eq_true, beq_iff_eq, beq_iff_eq, List.drop_zero]
  rw [shape]
  constructor
  · rintro ⟨h1, h2⟩
    have long : 24 ≤ h.length := by
      have := congrArg List.length h2
      simp at this
      omega
    rw [take_drop_eq (by omega)] at h1 h2
    exact ⟨long, h1, h2⟩
  · rintro ⟨long, h1, h2⟩
    rw [take_drop_eq (by omega), take_drop_eq (by omega)]
    exact ⟨h1, h2⟩

theorem numAt_two_iff (h : List Byte) (i : Nat) (a b : Byte) :
    numAt h i 2 = a.toNat * 256 + b.toNat ↔ byteAt h i = a ∧ byteAt h (i + 1) = b := by
  have := numAt_eq_iff (h := h) (i := i) [a, b] rfl
  simpa [natBE, bytesFrom, List.range_succ] using this

theorem numAt_four_iff (h : List Byte) (i : Nat) (a b c d : Byte) :
    numAt h i 4 = ((a.toNat * 256 + b.toNat) * 256 + c.toNat) * 256 + d.toNat ↔
      byteAt h i = a ∧ byteAt h (i + 1) = b ∧ byteAt h (i + 2) = c ∧ byteAt h (i + 3) = d := by
  have := numAt_eq_iff (h := h) (i := i) [a, b, c, d] rfl
  simpa [natBE, bytesFrom, List.range_succ] using this

/-- A header is accepted by its signature, version, entry counts and word count (R182). -/
theorem headerOk_iff (h : List Byte) : headerOk h = true ↔ numAt h 0 4 = 0x505A5442 ∧ byteAt h 4 = 1 ∧
    (numAt h 6 2 = 1 ∧ numAt h 8 2 = 16 ∧ numAt h 10 2 = 4 ∧ numAt h 12 2 = 8 ∧ numAt h 14 2 = 16 ∧
      numAt h 16 2 = 64 ∧ numAt h 18 2 = 32 ∧ numAt h 20 2 = 512) ∧ numAt h 22 2 = 2128 := by
  have sig := numAt_four_iff h 0 0x50 0x5A 0x54 0x42
  have last : numAt h 22 2 = 2128 → 24 ≤ h.length := by
    intro k
    have := ((numAt_two_iff h 22 8 80).mp k).2
    by_contra short
    simp [byteAt, List.getD_eq_getElem?_getD, List.getElem?_eq_none (show h.length ≤ 23 by omega)] at this
  have two := numAt_two_iff h
  have first5 : bytesFrom h 0 5 = [0x50, 0x5A, 0x54, 0x42, 1] ↔
      numAt h 0 4 = 0x505A5442 ∧ byteAt h 4 = 1 := by
    rw [show (0x505A5442 : Nat) = (((0x50 : Byte).toNat * 256 + (0x5A : Byte).toNat) * 256 +
      (0x54 : Byte).toNat) * 256 + (0x42 : Byte).toNat from rfl, sig]
    simp [bytesFrom, List.range_succ, and_assoc]
  have next18 : bytesFrom h 6 18 = [0, 1, 0, 16, 0, 4, 0, 8, 0, 16, 0, 64, 0, 32, 2, 0, 8, 80] ↔
      (numAt h 6 2 = 1 ∧ numAt h 8 2 = 16 ∧ numAt h 10 2 = 4 ∧ numAt h 12 2 = 8 ∧ numAt h 14 2 = 16 ∧
      numAt h 16 2 = 64 ∧ numAt h 18 2 = 32 ∧ numAt h 20 2 = 512) ∧ numAt h 22 2 = 2128 := by
    have e6 := two 6 0 1
    have e8 := two 8 0 16
    have e10 := two 10 0 4
    have e12 := two 12 0 8
    have e14 := two 14 0 16
    have e16 := two 16 0 64
    have e18 := two 18 0 32
    have e20 := two 20 2 0
    have e22 := two 22 8 80
    simp at e6 e8 e10 e12 e14 e16 e18 e20 e22
    simp [bytesFrom, List.range_succ, e6, e8, e10, e12, e14, e16, e18, e20, e22, and_assoc]
  rw [headerOk_bytes, first5, next18]
  constructor
  · rintro ⟨-, ⟨h1, h2⟩, h3⟩
    exact ⟨h1, h2, h3⟩
  · rintro ⟨h1, h2, h3⟩
    exact ⟨last h3.2, ⟨h1, h2⟩, h3⟩

/-! ## The CRC-32 -/

/-- One byte into the CRC-32, bit by bit. -/
theorem crc32Add_byte (c : BitVec 32) (b : Byte) (x : Nat → BitVec 32) (h0 : x 0 = c ^^^ b.setWidth 32)
    (hx : ∀ k, x (k + 1) = if (x k).getLsbD 0 then (x k >>> 1) ^^^ 0xEDB88320#32 else x k >>> 1) :
    crc32Add c [b] = x 8 := by
  have bit : ∀ k, crc32Bit (x k) = x (k + 1) := fun k => (hx k).symm
  have start : c ^^^ b.zeroExtend 32 = x 0 := h0.symm
  simp [crc32Add, crc32Byte, start, List.range_succ, bit]

/-- The CRC-32 of the digits 1 to 9. -/
theorem crc32_check :
    crc32Add 0xFFFFFFFF#32 [0x31, 0x32, 0x33, 0x34, 0x35, 0x36, 0x37, 0x38, 0x39] ^^^ 0xFFFFFFFF#32 =
      0xCBF43926#32 := by decide +kernel

/-! ## The blank content (R174) -/

theorem blankWord_of_bounds {t j : Nat} (ht : t < 8) (hj : j < regionWords t) :
    blankWord (regionFirst t + j) = blankTableWord t j := by
  rw [blankWord, regionOf_of_bounds ht (by omega) (by omega), Nat.add_sub_cancel_left]

/-- A word of an entry is filled in by its place in the entry. -/
theorem blankWord_entry (t e n : Nat) {x : Nat} (he : e < regionWords t / entryWords t)
    (hx : x = regionFirst t + n + entryWords t * e) (h2 : 2 ≤ t := by decide) (h8 : t < 8 := by decide)
    (hn : n < entryWords t := by decide) : blankWord x = blankTableWord t n := by
  have whole : entryWords t * e + n < regionWords t := by
    interval_cases t <;> simp only [entryWords, regionWords] at he hn ⊢ <;> omega
  rw [hx, Nat.add_assoc, Nat.add_comm n, blankWord_of_bounds h8 whole]
  interval_cases t <;> simp [blankTableWord, entryWords]

/-! ## Field bits of an image word (R179) -/

theorem imageWord_at {t j : Nat} (w : Word) (ht : t < 8) (hj : j < regionWords t) :
    imageWord (regionFirst t + j) w = w &&& fieldBits (wordRules t (j % entryWords t) j false w) := by
  rw [imageWord_of_bounds w ht (by omega) (by omega), Nat.add_sub_cancel_left]

/-- A word of an entry keeps the bits of the fields of its place in the entry. -/
theorem imageWord_entry (t e n : Nat) {x : Nat} (w : Word) (he : e < regionWords t / entryWords t)
    (hx : x = regionFirst t + n + entryWords t * e) (h2 : 2 ≤ t := by decide) (h8 : t < 8 := by decide)
    (hn : n < entryWords t := by decide) : imageWord x w = w &&& fieldBits (wordRules t n n false w) := by
  have whole : entryWords t * e + n < regionWords t := by
    interval_cases t <;> simp only [entryWords, regionWords] at he hn ⊢ <;> omega
  rw [hx, Nat.add_assoc, Nat.add_comm n, imageWord_at w h8 whole, Nat.mul_add_mod, Nat.mod_eq_of_lt hn]
  interval_cases t <;> rfl

/-- The fields of the first word of a cue entry, whatever its kind of trigger. -/
theorem fieldBits_cueTrigger (w : Word) : fieldBits (cueRules 0 w) = 0x87FFFFFF#32 := by
  unfold cueRules
  simp only [if_true]
  split_ifs <;> rfl

/-- The fields of an action word, by its own kind. -/
theorem fieldBits_cueAction {n : Nat} (hn : 2 ≤ n) (w : Word) : fieldBits (cueRules n w) =
    (if field w 28 4 = 0 then 0xF003001F#32 else if field w 28 4 = 1 ∨ field w 28 4 = 2 then 0xF000000F#32
      else if field w 28 4 = 3 then 0xFFFFFFFF#32 else if field w 28 4 = 4 then 0xF000030F#32
      else if field w 28 4 = 5 ∨ field w 28 4 = 6 then 0xF000FFFF#32 else 0xF0000000#32) := by
  unfold cueRules
  rw [if_neg (by omega), if_neg (by omega)]
  generalize field w 28 4 = kind
  match kind with
  | 0 => rfl
  | 1 => rfl
  | 2 => rfl
  | 3 => rfl
  | 4 => rfl
  | 5 => rfl
  | 6 => rfl
  | k + 7 => simp; rfl

/-- The blank content, region by region. -/
theorem blankWord_regions : blankWord 0 = BitVec.ofNat 32 (50 * 2 ^ 16 + 127) ∧ blankWord 1 = 10 ∧
    blankWord 2 = 1 ∧
    (∀ j, 3 ≤ j → j < 16 → blankWord j = 0) ∧
    (∀ j level time, ([(1, 6), (2, 0), (2, 0), (1, 30), (1, 6), (0, 30), (0, 0), (1, 0), (1, 60), (1, 12),
        (2, 0), (1, 0), (0, 0), (0, 0), (0, 0), (0, 0)] : List (Nat × Nat))[j]? = some (level, time) →
      blankWord (16 + j) = BitVec.ofNat 32 (time * 2 ^ 8 + level)) ∧
    (∀ c, c < 4 → blankWord (32 + 8 * c) = BitVec.ofNat 32 (10 * 2 ^ 24 + 255 * 2 ^ 16) ∧
      blankWord (33 + 8 * c) = 1 ∧ blankWord (34 + 8 * c) = BitVec.ofNat 32 (10 * 2 ^ 16 + 10) ∧
      blankWord (35 + 8 * c) = 1 ∧ ∀ n, 4 ≤ n → n < 8 → blankWord (32 + 8 * c + n) = 0) ∧
    (∀ o, o < 8 → blankWord (64 + 2 * o) = 0 ∧ blankWord (65 + 2 * o) = 20) ∧
    (∀ b, b < 16 → blankWord (80 + 4 * b) = BitVec.ofNat 32 (255 * 2 ^ 8) ∧
      blankWord (81 + 4 * b) = BitVec.ofNat 32 (10 * 2 ^ 16 + 1) ∧
      blankWord (82 + 4 * b) = BitVec.ofNat 32 (2 ^ 16) ∧ blankWord (83 + 4 * b) = 0) ∧
    (∀ e, e < 64 → blankWord (144 + 6 * e) = 0 ∧
      blankWord (145 + 6 * e) = BitVec.ofNat 32 (2 ^ 16 + 255 * 2 ^ 8) ∧
      ∀ n, 2 ≤ n → n < 6 → blankWord (144 + 6 * e + n) = 0) ∧
    (∀ j, 528 ≤ j → j < 592 → blankWord j = 0) ∧
    (∀ n, n < 512 → blankWord (592 + 3 * n) = 0 ∧ blankWord (593 + 3 * n) = 1 ∧
      blankWord (594 + 3 * n) = 100) := by
  refine ⟨by decide, by decide, by decide, fun j h3 h16 => ?_, fun j level time h => ?_, fun c hc => ?_,
    fun o ho => ?_, fun b hb => ?_, fun e he => ?_, fun j h0 h1 => ?_, fun n hn => ?_⟩
  · interval_cases j <;> rfl
  · have hj : j < 16 := (List.getElem?_eq_some_iff.mp h).1
    rw [show 16 + j = regionFirst 1 + j from rfl, blankWord_of_bounds (by decide) hj]
    interval_cases j <;> cases h <;> decide
  · exact ⟨blankWord_entry 2 c 0 hc rfl, blankWord_entry 2 c 1 hc rfl, blankWord_entry 2 c 2 hc rfl,
      blankWord_entry 2 c 3 hc rfl, fun n h4 h8 => (blankWord_entry 2 c n hc (Nat.add_right_comm ..) (hn := h8)).trans
        (by interval_cases n <;> rfl)⟩
  · exact ⟨blankWord_entry 3 o 0 ho rfl, blankWord_entry 3 o 1 ho rfl⟩
  · exact ⟨blankWord_entry 4 b 0 hb rfl, blankWord_entry 4 b 1 hb rfl, blankWord_entry 4 b 2 hb rfl,
      blankWord_entry 4 b 3 hb rfl⟩
  · exact ⟨blankWord_entry 5 e 0 he rfl, blankWord_entry 5 e 1 he rfl, fun n h2 h6 =>
      (blankWord_entry 5 e n he (Nat.add_right_comm ..) (hn := h6)).trans (by interval_cases n <;> rfl)⟩
  · obtain ⟨k, rfl⟩ := Nat.exists_eq_add_of_le h0
    exact blankWord_of_bounds (t := 6) (by decide) (show k < 64 by omega)
  · exact ⟨blankWord_entry 7 n 0 hn rfl, blankWord_entry 7 n 1 hn rfl, blankWord_entry 7 n 2 hn rfl⟩

/-- The bits of an image word that table memory keeps, region by region. -/
theorem imageWord_regions (w : Word) : imageWord 0 w = w &&& 0x01FF007F#32 ∧ imageWord 1 w = w &&& 0xFF#32 ∧
    imageWord 2 w = w &&& 0x0F03#32 ∧ imageWord 3 w = w &&& 1#32 ∧
    (∀ j, 4 ≤ j → j < 16 → imageWord j w = 0) ∧
    (∀ j, 16 ≤ j → j < 28 → imageWord j w = w &&& 0xFF03#32) ∧
    (∀ j, 28 ≤ j → j < 32 → imageWord j w = 0) ∧
    (∀ c, c < 4 → imageWord (32 + 8 * c) w = w &&& 0xFFFFF7FF#32 ∧
      imageWord (33 + 8 * c) w = w &&& 0xFFFFF#32 ∧ imageWord (34 + 8 * c) w = w &&& 0x1FFF1FFF#32 ∧
      imageWord (35 + 8 * c) w = w &&& 0x1FFFFF#32 ∧
      ∀ n, 4 ≤ n → n < 8 → imageWord (32 + 8 * c + n) w = 0) ∧
    (∀ o, o < 8 → imageWord (64 + 2 * o) w = w &&& 0xFFFF#32 ∧ imageWord (65 + 2 * o) w = w &&& 0xFF#32) ∧
    (∀ b, b < 16 → imageWord (80 + 4 * b) w = w &&& 0xFF07#32 ∧
      imageWord (81 + 4 * b) w = w &&& 0xFFFFFF#32 ∧ imageWord (82 + 4 * b) w = w &&& 0xFFFFFF#32 ∧
      imageWord (83 + 4 * b) w = 0) ∧
    (∀ e, e < 64 → imageWord (144 + 6 * e) w = w &&& 0x87FFFFFF#32 ∧
      imageWord (145 + 6 * e) w = w &&& 0x7FF0F#32 ∧
      ∀ n kind, 2 ≤ n → n < 6 → kind = field w 28 4 → imageWord (144 + 6 * e + n) w = w &&&
        (if kind = 0 then 0xF003001F#32 else if kind = 1 ∨ kind = 2 then 0xF000000F#32
          else if kind = 3 then 0xFFFFFFFF#32 else if kind = 4 then 0xF000030F#32
          else if kind = 5 ∨ kind = 6 then 0xF000FFFF#32 else 0xF0000000#32)) ∧
    (∀ d, d < 32 → imageWord (528 + 2 * d) w = w &&& 0xFF3F01FF#32 ∧ imageWord (529 + 2 * d) w = 0) ∧
    (∀ g, g < 512 → imageWord (592 + 3 * g) w = w &&& 0xC0FFFFFF#32 ∧
      imageWord (593 + 3 * g) w = w &&& 0xFFFF7FFF#32 ∧ imageWord (594 + 3 * g) w = w &&& 0x3FFFF#32) := by
  have none : w &&& 0#32 = 0#32 := BitVec.and_zero
  refine ⟨rfl, rfl, rfl, rfl, fun j h0 h1 => ?_, fun j h0 h1 => ?_, fun j h0 h1 => ?_, fun c hc => ?_,
    fun o ho => ?_, fun b hb => ?_, fun e he => ?_, fun d hd => ?_, fun g hg => ?_⟩
  · exact Eq.trans (by interval_cases j <;> rfl) none
  · interval_cases j <;> rfl
  · exact Eq.trans (by interval_cases j <;> rfl) none
  · exact ⟨imageWord_entry 2 c 0 w hc rfl, imageWord_entry 2 c 1 w hc rfl,
      imageWord_entry 2 c 2 w hc rfl, imageWord_entry 2 c 3 w hc rfl, fun n h4 h8 =>
        (imageWord_entry 2 c n w hc (Nat.add_right_comm ..) (hn := h8)).trans
          (Eq.trans (by interval_cases n <;> rfl) none)⟩
  · exact ⟨imageWord_entry 3 o 0 w ho rfl, imageWord_entry 3 o 1 w ho rfl⟩
  · exact ⟨imageWord_entry 4 b 0 w hb rfl, imageWord_entry 4 b 1 w hb rfl,
      imageWord_entry 4 b 2 w hb rfl, (imageWord_entry 4 b 3 w hb rfl).trans none⟩
  · refine ⟨(imageWord_entry 5 e 0 w he rfl).trans (congrArg _ (fieldBits_cueTrigger w)),
      imageWord_entry 5 e 1 w he rfl, fun n kind h2 h6 hk => ?_⟩
    rw [hk, ← fieldBits_cueAction h2]
    exact imageWord_entry 5 e n w he (Nat.add_right_comm ..) (hn := h6)
  · exact ⟨imageWord_entry 6 d 0 w hd rfl, (imageWord_entry 6 d 1 w hd rfl).trans none⟩
  · exact ⟨imageWord_entry 7 g 0 w hg rfl, imageWord_entry 7 g 1 w hg rfl,
      imageWord_entry 7 g 2 w hg rfl⟩

end Sys2Proof.Machine
end

