-- ==== Sys2Proof/Proofs/Sending.lean ====
section
/-! PROOF. What a raise and the transmitter's choice leave alone (R16, R135), the settings path's questions (R154),
and a READY offered (R177). -/
namespace Sys2Proof.Machine

/-! ## What a transmission leaves alone -/

/-- What neither the transmitter nor a raise writes, as a state with the rest blanked. -/
def State.unsent (s : State) : State :=
  { s.untold with
    ring := { s.ring with relay := [], insertion := [], sending := none, relayCount := 0 }
    alert := { s.untold.alert with
      slots := Vector.replicate 16 none, overflow := false, snapshot := none } }

/-- `t` differs from `s` in frames kept and sent, in the alert table and its flags, and in what is told. -/
def Sent (s t : State) : Prop := t.unsent = s.unsent

theorem Told.sent {s t : State} (h : Told s t) : Sent s t := by
  unfold Sent State.unsent
  rw [h, h.ring]

namespace Sent
variable {s t u : State}

theorem refl (s : State) : Sent s s := rfl
theorem trans (h : Sent s t) (k : Sent t u) : Sent s u := Eq.trans k h

theorem bypass (h : Sent s t) : t.ring.bypass = s.ring.bypass := by
  have := congrArg (fun x : State => x.ring.bypass) h; exact this
theorem assembler (h : Sent s t) : t.ring.assembler = s.ring.assembler := by
  have := congrArg (fun x : State => x.ring.assembler) h; exact this
theorem hopLimit (h : Sent s t) : t.ring.hopLimit = s.ring.hopLimit := by
  have := congrArg (fun x : State => x.ring.hopLimit) h; exact this
theorem lossUnits (h : Sent s t) : t.ring.lossUnits = s.ring.lossUnits := by
  have := congrArg (fun x : State => x.ring.lossUnits) h; exact this
theorem lossTimer (h : Sent s t) : t.ring.lossTimer = s.ring.lossTimer := by
  have := congrArg (fun x : State => x.ring.lossTimer) h; exact this
theorem record (h : Sent s t) : t.ring.record = s.ring.record := by
  have := congrArg (fun x : State => x.ring.record) h; exact this
theorem straps (h : Sent s t) : t.straps = s.straps := by
  have := congrArg State.straps h; exact this
theorem resetCause (h : Sent s t) : t.resetCause = s.resetCause := by
  have := congrArg State.resetCause h; exact this
theorem sampling (h : Sent s t) : t.sampling = s.sampling := by
  have := congrArg State.sampling h; exact this
theorem mem (h : Sent s t) : t.mem = s.mem := by
  have := congrArg State.mem h; exact this
theorem mgmt (h : Sent s t) : t.mgmt = s.mgmt := by
  have := congrArg State.mgmt h; exact this
theorem cue (h : Sent s t) : t.cue = s.cue := by
  have := congrArg State.cue h; exact this
theorem guards (h : Sent s t) : t.motion.guards = s.motion.guards := by
  have := congrArg (fun x : State => x.motion.guards) h; exact this
theorem owed (h : Sent s t) : t.motion.owed = s.motion.owed := by
  have := congrArg (fun x : State => x.motion.owed) h; exact this
theorem held (h : Sent s t) : t.alert.held = s.alert.held := by
  have := congrArg (fun x : State => x.alert.held) h; exact this
theorem mode (h : Sent s t) : t.mode.mode = s.mode.mode := by
  have := congrArg (fun x : State => x.mode.mode) h; exact this
theorem clock (h : Sent s t) : t.mode.clock = s.mode.clock := by
  have := congrArg (fun x : State => x.mode.clock) h; exact this
theorem lineLost (h : Sent s t) : t.mode.lineLost = s.mode.lineLost := by
  have := congrArg (fun x : State => x.mode.lineLost) h; exact this
theorem localPlay (h : Sent s t) : t.mode.localPlay = s.mode.localPlay := by
  have := congrArg (fun x : State => x.mode.localPlay) h; exact this
theorem address (h : Sent s t) : t.address = s.address := by rw [State.address, h.straps, State.address]
theorem addressed (h : Sent s t) : t.addressed = s.addressed := by rw [State.addressed, h.straps, State.addressed]

end Sent

section Transmission
variable {s : State}

/-- The build of an own CALL or the taking of an own frame. -/
theorem sent_takeOwn (s : State) : Sent s s.takeOwn := by
  unfold State.takeOwn
  split
  · split
    · split
      · exact (told_buildCall _ _ _).sent
      · exact .refl s
    · exact .refl s
  · split
    · rfl
    · exact .refl s

theorem sent_pump (s : State) : Sent s s.pump := by
  unfold State.pump State.choose
  split
  · split
    · split
      · rfl
      · exact sent_takeOwn s
    · split
      · exact sent_takeOwn s
      · exact .refl s
  · exact .refl s

theorem sent_fillSnapshot (c : Cause) (n : Nat) (i : Option (Fin 16)) (info : Option ChanInfo) :
    Sent s (s.fillSnapshot c n i info) := by
  unfold State.fillSnapshot
  split
  · rfl
  · exact .refl s

theorem sent_raiseWith (s : State) (c : Cause) (n : Nat) (lvl : Option Level) (info : Option ChanInfo) :
    Sent s (s.raiseWith c n lvl info) := by
  have slot : ∀ i r, Sent s ((s.withSlot i r).fillSnapshot c n (some i) info) := fun i r =>
    Sent.trans (t := s.withSlot i r) rfl (sent_fillSnapshot ..)
  unfold State.raiseWith
  split
  · split
    · dsimp only
      split
      · exact ((slot _ _).trans (told_beaconUpdate _).sent).trans (sent_pump _)
      · exact ((slot _ _).trans (told_tellRecord _ _ _).sent).trans (sent_pump _)
    · exact .refl s
  · split
    · exact ((slot _ _).trans (told_tellRecord _ _ _).sent).trans (sent_pump _)
    · exact (Sent.trans (t := { s with alert.overflow := true }) rfl (sent_fillSnapshot ..)).trans
        (told_beaconUpdate _).sent

/-- The transmitter's choice leaves the overflow flag. -/
theorem pump_overflow (s : State) : s.pump.alert.overflow = s.alert.overflow := by
  have own : s.takeOwn.alert.overflow = s.alert.overflow := by
    unfold State.takeOwn
    split
    · split
      · split
        · exact (told_buildCall _ _ _).overflow
        · rfl
      · rfl
    · split <;> rfl
  unfold State.pump State.choose
  repeat' split
  all_goals first | rfl | exact own

/-- A raise while the transmitter is not to choose leaves the ring port alone. -/
theorem raiseWith_left {c : Cause} {n : Nat} {lvl : Option Level} {info : Option ChanInfo}
    (h : s.ring.bypass = true ∨ s.ring.sending.isSome = true) : (s.raiseWith c n lvl info).ring = s.ring := by
  have recorded : ∀ i, s.findRecord c n = some i ∨ (s.findRecord c n = none ∧ s.emptySlot = some i) →
      (s.raiseWith c n lvl info).ring = s.ring := by
    intro i k
    obtain ⟨u, r, e, k⟩ := raiseWith_recorded (lvl := lvl) (info := info) k
    rw [e, pump_left (by rw [k.ring]; exact h), k.ring]
  cases hf : s.findRecord c n with
  | some i => exact recorded i (.inl hf)
  | none =>
    cases he : s.emptySlot with
    | some i => exact recorded i (.inr ⟨hf, he⟩)
    | none => exact (raiseWith_overflow hf he).ring.trans (fillSnapshot_untouched none).1

/-- What the ring port is left with when an idle transmitter calls the record that is due. -/
theorem pump_calls_ring {i : Fin 16} {r : Record} (hb : s.ring.bypass = false) (hs : s.ring.sending = none)
    (hl : s.mode.lineLost = false) (hq : s.ring.relay = [] ∨ 4 ≤ s.ring.relayCount)
    (hd : s.dueSlot = some i) (hr : s.slotAt i = some r) : s.pump.ring =
      { s.ring with sending := some (s.ownFrame 0x13 (callPayload i r)), relayCount := 0 } := by
  have waiting : s.ownWaiting = true := ownWaiting_call (callWaiting_iff.mpr ⟨hl, by rw [hd]; rfl⟩)
  rw [pump_idle hb hs, choose_own (hq.imp id fun h => ⟨waiting, h⟩) waiting, takeOwn_call hl hd hr,
    (told_buildCall _ _ _).ring]
  rfl

/-- An idle transmitter with the insertion queue alone to serve takes its head. -/
theorem pump_queue {f : Frame} {rest : List Frame} (hb : s.ring.bypass = false) (hs : s.ring.sending = none)
    (hq : s.ring.relay = [] ∨ 4 ≤ s.ring.relayCount) (hc : s.callWaiting = false)
    (hi : s.ring.insertion = f :: rest) : s.pump =
      { s with ring.sending := some f, ring.insertion := rest, ring.relayCount := 0 } := by
  rw [pump_idle hb hs, choose_own (hq.imp id fun h => ⟨ownWaiting_queue hi, h⟩) (ownWaiting_queue hi),
    takeOwn_queue hc hi]

/-! ## An empty alert table -/

theorem callWaiting_empty (h : ∀ i, s.slotAt i = none) : s.callWaiting = false := by
  have : s.dueSlot = none := dueSlot_none fun j q k => absurd (k.symm.trans (h j)) (by simp)
  simp [State.callWaiting, this]

theorem findRecord_empty (h : ∀ i, s.slotAt i = none) (c : Cause) (n : Nat) : s.findRecord c n = none :=
  List.find?_eq_none.mpr fun i _ => by simp [h i]

theorem emptySlot_empty (h : ∀ i, s.slotAt i = none) : s.emptySlot = some 0 :=
  find?_sixteen (by simp [h]) fun j _ => Fin.zero_le j

/-- A raise at an empty table: its record in slot 0 alone, then the transmitter's choice. -/
theorem raise_empty (h : ∀ i, s.slotAt i = none) (c : Cause) (n : Nat) : ∃ u, s.raise c n = u.pump ∧
    Recorded s u c n none 0 (s.newRecord c n (s.causeSettings c).level) :=
  raiseWith_new (lvl := none) (findRecord_empty h c n) (emptySlot_empty h)

theorem Recorded.only {u : State} {c : Cause} {n : Nat} {info : Option ChanInfo} {r : Record}
    (k : Recorded s u c n info 0 r) (h : ∀ i, s.slotAt i = none) (j : Fin 16) :
    u.slotAt j = if j = 0 then some r else none := by rw [k.slots, h]

/-- The one record of a table is called if it is due. -/
theorem dueSlot_only {r : Record} (h : ∀ j, s.slotAt j = if j = 0 then some r else none) (hd : r.due = true) :
    s.dueSlot = some 0 := by
  refine dueSlot_eq ((h 0).trans (if_pos rfl)) hd fun j q hj _ => ?_
  rw [h] at hj
  by_cases e : j = 0
  · rw [if_pos e] at hj
    cases hj
    exact .inr ⟨rfl, Fin.zero_le j⟩
  · rw [if_neg e] at hj
    cases hj

/-! ## A READY (R177) -/

theorem sendReady_joins (hb : s.ring.bypass = false) (hw : s.mgmt.waiting = [])
    (hi : s.ring.insertion.length < 8) : s.sendReady =
      ({ s with ring.insertion := s.ring.insertion ++ [s.ownFrame 0x15 s.readyPayload] }).pump :=
  offerWaiting_joins (.inr rfl) hb hw hi

/-- While a frame is in transmission the READY stays in the insertion queue. -/
theorem sendReady_queued (hb : s.ring.bypass = false) (hw : s.mgmt.waiting = [])
    (hi : s.ring.insertion.length < 8) (hs : s.ring.sending.isSome = true) : s.sendReady =
      { s with ring.insertion := s.ring.insertion ++ [s.ownFrame 0x15 s.readyPayload] } := by
  rw [sendReady_joins hb hw hi]
  exact pump_left (s := { s with ring.insertion := s.ring.insertion ++ [s.ownFrame 0x15 s.readyPayload] }) (.inr hs)

/-- With nothing else to send the READY is sent at once. -/
theorem sendReady_at_once (hb : s.ring.bypass = false) (hw : s.mgmt.waiting = []) (hi : s.ring.insertion = [])
    (hs : s.ring.sending = none) (hr : s.ring.relay = []) (hc : s.callWaiting = false) : s.sendReady =
      { s with
        ring.sending := some (s.ownFrame 0x15 s.readyPayload), ring.insertion := [], ring.relayCount := 0 } := by
  rw [sendReady_joins hb hw (by rw [hi]; decide), hi]
  exact pump_queue (s := { s with ring.insertion := [s.ownFrame 0x15 s.readyPayload] }) hb hs (.inl hr) hc rfl

/-- A READY offered changes the frames kept and waiting, and what the transmitter's choice changes. -/
theorem sendReady_cases (s : State) :
    (∃ w, s.sendReady = { s with mgmt.waiting := w }) ∨
      ∃ q, s.sendReady = ({ s with ring.insertion := q }).pump := by
  by_cases h : s.ring.bypass = false ∧ s.mgmt.waiting = [] ∧ s.ring.insertion.length < 8
  · exact .inr ⟨_, sendReady_joins h.1 h.2.1 h.2.2⟩
  · exact .inl ⟨_, if_neg h⟩

end Transmission

/-! ## The settings path's questions (R154) -/

section Path
variable {s t : State}

theorem askFor_eq (s : State) (b : Block) : ∃ p o, s.askFor b =
    { s with mem := { s.mem with path := p, owed := o } } := by
  unfold State.askFor
  split
  · exact ⟨_, _, rfl⟩
  · split <;> exact ⟨_, _, rfl⟩

/-- A question changes the path and what is owed alone. -/
theorem ask_eq (s : State) : ∃ p o, s.ask = { s with mem := { s.mem with path := p, owed := o } } := by
  have fold : ∀ (l : List Block) (s : State), ∃ p o, l.foldl State.askFor s =
      { s with mem := { s.mem with path := p, owed := o } } := by
    intro l
    induction l with
    | nil => exact fun s => ⟨_, _, rfl⟩
    | cons b l ih =>
      intro s
      obtain ⟨p, o, e⟩ := askFor_eq s b
      obtain ⟨p', o', e'⟩ := ih (s.askFor b)
      exact ⟨p', o', by rw [List.foldl_cons, e', e]⟩
  exact fold blocks s

theorem askFor_congr (b : Block) (h : t.mem.path = s.mem.path ∧ t.mem.owed = s.mem.owed) :
    (t.askFor b).mem.path = (s.askFor b).mem.path ∧ (t.askFor b).mem.owed = (s.askFor b).mem.owed := by
  unfold State.askFor
  rw [h.1, h.2]
  split
  · exact h
  · split
    · exact ⟨rfl, rfl⟩
    · exact h

/-- What is asked rests on the path and on what is owed alone. -/
theorem ask_congr (h : t.mem.path = s.mem.path ∧ t.mem.owed = s.mem.owed) :
    t.ask.mem.path = s.ask.mem.path ∧ t.ask.mem.owed = s.ask.mem.owed := by
  have fold : ∀ (l : List Block) (s t : State), t.mem.path = s.mem.path ∧ t.mem.owed = s.mem.owed →
      (l.foldl State.askFor t).mem.path = (l.foldl State.askFor s).mem.path ∧
        (l.foldl State.askFor t).mem.owed = (l.foldl State.askFor s).mem.owed := by
    intro l
    induction l with
    | nil => exact fun s t h => h
    | cons b l ih => exact fun s t h => ih _ _ (askFor_congr b h)
  exact fold blocks s t h

end Path

end Sys2Proof.Machine
end

