-- ==== Sys2Proof/Proofs/Load.lean ====
section
/-! PROOF. The image load, word by word, and its two ends (R173, R174, R19, R177). -/
namespace Sys2Proof.Machine

/-! ## Words as their copy holders take them (R15, R159) -/

/-- Two fields side by side read back as they were put together. -/
theorem field_two {a b : Nat} (ha : a < 2 ^ 7) (hb : b < 2 ^ 9) :
    field (0#32 ||| BitVec.ofNat 32 (a * 2 ^ 0) ||| BitVec.ofNat 32 (b * 2 ^ 16)) 0 7 = a ∧
      field (0#32 ||| BitVec.ofNat 32 (a * 2 ^ 0) ||| BitVec.ofNat 32 (b * 2 ^ 16)) 16 9 = b := by
  have join : (0#32 ||| BitVec.ofNat 32 (a * 2 ^ 0) ||| BitVec.ofNat 32 (b * 2 ^ 16)).toNat = b * 2 ^ 16 + a := by
    rw [BitVec.toNat_or, BitVec.zero_or, BitVec.toNat_ofNat, BitVec.toNat_ofNat, Nat.mod_eq_of_lt (by omega),
      Nat.mod_eq_of_lt (by omega), Nat.or_comm, Nat.pow_zero, Nat.mul_one, Nat.mul_comm b,
      ← Nat.two_pow_add_eq_or_of_lt (by omega)]
  unfold field
  rw [join]
  omega

section Words
variable {s : State}

theorem nodeWord_ring (s : State) :
    field (s.nodeWord 0) 0 7 = max 2 (min 127 (field ((Memory.read s.mem.words 0).setWidth 32) 0 7)) ∧
    field (s.nodeWord 0) 16 9 = max 10 (min 500 (field ((Memory.read s.mem.words 0).setWidth 32) 16 9)) :=
  field_two (a := clampNat 2 127 _) (b := clampNat 10 500 _) (by unfold clampNat; omega) (by unfold clampNat; omega)

theorem nodeWord_scrub (s : State) : field (s.nodeWord 1) 0 8 =
    max 1 (min 255 (field ((Memory.read s.mem.words 1).setWidth 32) 0 8)) := by
  have one : ∀ a < 2 ^ 8, field (0#32 ||| BitVec.ofNat 32 (a * 2 ^ 0)) 0 8 = a := by
    intro a ha
    unfold field
    rw [BitVec.zero_or, BitVec.toNat_ofNat]
    omega
  exact one (clampNat 1 255 _) (by unfold clampNat; omega)

/-! ## The end of a load (R173, R19) -/

/-- The node settings' working copies taken, sampling begun, and every table entry owed. -/
def State.loadTaken (s : State) : State :=
  { s with
    mgmt.load := .none, sampling := true
    ring.hopLimit := field (s.nodeWord 0) 0 7, ring.lossUnits := field (s.nodeWord 0) 16 9
    mem.scrubInterval := field (s.nodeWord 1) 0 8
    mem.scrubTimer := some (field (s.nodeWord 1) 0 8)
    mem.owed := s.mem.owed ++ loadJobs }

/-- The node at the end of a load, before BYPASS is released. -/
def State.loadAsked (s : State) : State := s.loadTaken.ask.arbitrate

/-- The node with BYPASS released, before the transmitter begins choosing. -/
def State.released (s : State) : State :=
  { s with ring.bypass := false, ring.assembler := ⟨.joining, []⟩, mode.node := .active }

theorem endLoad_eq (s : State) : s.endLoad =
    if s.addressed then s.loadAsked.released.pump.sendReady else s.loadAsked := by
  have same : s.loadAsked.addressed = s.addressed := by
    obtain ⟨p, o, e⟩ := ask_eq s.loadTaken
    obtain ⟨a, p', w, e'⟩ := arbitrate_eq s.loadTaken.ask
    rw [State.loadAsked, e', e]
    rfl
  rw [← same]
  rfl

/-- The node with BYPASS released and table memory as the questions left it. -/
def State.choosing (s : State) (m : TableMemory) : State := ({ s.loadTaken with mem := m } : State).released

/-- What the end of a load does before BYPASS is released. -/
theorem loadAsked_eq (s : State) : ∃ m : TableMemory, s.loadAsked = { s.loadTaken with mem := m } ∧
    m.words = s.mem.words ∧ m.scrubInterval = field (s.nodeWord 1) 0 8 ∧ m.scrubTimer = some m.scrubInterval ∧
    m.path = (({ s with mem.owed := s.mem.owed ++ loadJobs }).ask).mem.path ∧
    m.owed = (({ s with mem.owed := s.mem.owed ++ loadJobs }).ask).mem.owed := by
  have congr := ask_congr (s := { s with mem.owed := s.mem.owed ++ loadJobs }) (t := s.loadTaken) ⟨rfl, rfl⟩
  obtain ⟨p, o, e⟩ := ask_eq s.loadTaken
  obtain ⟨a, p', w, e'⟩ := arbitrate_eq s.loadTaken.ask
  rw [e] at congr
  exact ⟨{ s.loadTaken.mem with path := p, owed := o, access := a, passOver := p', scrubWaiting := w },
    by rw [State.loadAsked, e', e], rfl, rfl, rfl, congr.1, congr.2⟩

/-- A READY offered changes neither what `Sent` keeps, but for the frames that wait, nor the node state. -/
theorem sendReady_sent (s : State) : ∃ w, Sent { s with mgmt.waiting := w } s.sendReady := by
  rcases sendReady_cases s with ⟨w, e⟩ | ⟨q, e⟩
  · exact ⟨w, by rw [e]; exact .refl _⟩
  · exact ⟨s.mgmt.waiting, by rw [e]; exact Sent.trans (t := { s with ring.insertion := q }) rfl (sent_pump _)⟩

theorem sendReady_node (h : s.mode.node = .active) : s.sendReady.mode.node = .active := by
  rcases sendReady_cases s with ⟨w, e⟩ | ⟨q, e⟩
  · rw [e]
    exact h
  · rw [e, (mild_pump (s := { s with ring.insertion := q }) (.inl (by rw [h]; decide))).1.mode]
    exact h

/-- A record that waits to be seen is in the table, or the overflow flag is set. -/
def State.Noted (s : State) (c : Cause) (n : Nat) : Prop :=
  (∃ i r, s.slotAt i = some r ∧ r.cause = c ∧ r.subject = n ∧ r.unseen = true) ∨ s.alert.overflow = true

theorem State.Noted.found {c : Cause} {n : Nat} (h : s.Noted c n) :
    (s.findRecord c n).isSome = true ∨ s.alert.overflow = true := by
  rcases h with ⟨i, r, hr, rfl, rfl, -⟩ | h
  · exact .inl (findRecord_of_slot hr)
  · exact .inr h

theorem noted_raise (s : State) (c : Cause) (n : Nat) : (s.raise c n).Noted c n :=
  (raise_recorded s c n none none).imp id And.left

theorem State.Noted.pump {c : Cause} {n : Nat} (h : s.Noted c n) (hn : s.mode.node = .active) : s.pump.Noted c n := by
  rcases h with ⟨i, r, hr, rfl, rfl, hu⟩ | h
  · obtain ⟨x, hx, hc, hs, hxu⟩ := pump_unseen (.inl (by rw [hn]; decide)) hr hu
    exact .inl ⟨i, x, hx, hc, hs, hxu⟩
  · exact .inr ((pump_overflow s).trans h)

theorem State.Noted.sendReady {c : Cause} {n : Nat} (h : s.Noted c n) (hn : s.mode.node = .active) :
    s.sendReady.Noted c n := by
  rcases sendReady_cases s with ⟨w, e⟩ | ⟨q, e⟩
  · rw [e]
    exact h
  · rw [e]
    exact State.Noted.pump (s := { s with ring.insertion := q }) h hn

/-- The end of a load, in state LOADED or LOAD-FAILED. -/
structure LoadEnds (s t : State) : Prop where
  load      : t.mgmt.load = .none
  sampling  : t.sampling = true
  bypass    : t.ring.bypass = if s.addressed then false else s.ring.bypass
  joined    : s.addressed = true → t.mode.node = .active ∧ t.ring.assembler = ⟨.joining, []⟩
  mode      : t.mode.mode = s.mode.mode
  scrub     : t.mem.scrubTimer = some t.mem.scrubInterval
  hopLimit  : t.ring.hopLimit = field (s.nodeWord 0) 0 7
  lossUnits : t.ring.lossUnits = field (s.nodeWord 0) 16 9
  interval  : t.mem.scrubInterval = field (s.nodeWord 1) 0 8
  words     : t.mem.words = s.mem.words
  path      : t.mem.path = (({ s with mem.owed := s.mem.owed ++ loadJobs }).ask).mem.path
  owed      : t.mem.owed = (({ s with mem.owed := s.mem.owed ++ loadJobs }).ask).mem.owed
  image     : t.mgmt.image = s.mgmt.image
  noted     : ∀ c n, s.Noted c n → t.Noted c n
  kept      : s.addressed = false → t.ring.insertion = s.ring.insertion ∧ t.ring.sending = s.ring.sending ∧
    t.mgmt.waiting = s.mgmt.waiting

theorem endLoad_ends (s : State) : LoadEnds s s.endLoad := by
  obtain ⟨m, asked, words, interval, scrub, path, owed⟩ := loadAsked_eq s
  rw [endLoad_eq, asked]
  split
  · rename_i ha
    have sent := sent_pump (s.choosing m)
    have active : (s.choosing m).pump.mode.node = .active :=
      congrArg ModeUnit.node (mild_pump (s := s.choosing m) (.inl (show NodeState.active ≠ .closing by decide))).1.mode
    obtain ⟨w, ready⟩ := sendReady_sent (s.choosing m).pump
    have mem := ready.mem.trans sent.mem
    show LoadEnds s (s.choosing m).pump.sendReady
    exact {
      load := (congrArg Management.load ready.mgmt).trans (congrArg Management.load sent.mgmt)
      sampling := ready.sampling.trans sent.sampling
      bypass := (ready.bypass.trans sent.bypass).trans (if_pos ha).symm
      joined := fun _ => ⟨sendReady_node active, ready.assembler.trans sent.assembler⟩
      mode := ready.mode.trans sent.mode
      scrub := by rw [mem]; exact scrub
      hopLimit := ready.hopLimit.trans sent.hopLimit
      lossUnits := ready.lossUnits.trans sent.lossUnits
      interval := by rw [mem]; exact interval
      words := by rw [mem]; exact words
      path := by rw [mem]; exact path
      owed := by rw [mem]; exact owed
      image := (congrArg Management.image ready.mgmt).trans (congrArg Management.image sent.mgmt :)
      noted := fun c n h => (State.Noted.pump (s := s.choosing m) h rfl).sendReady active
      kept := fun h => absurd (h.symm.trans ha) (by decide) }
  · rename_i ha
    exact {
      load := rfl, sampling := rfl, bypass := (if_neg ha).symm, joined := fun h => absurd h ha, mode := rfl
      scrub := scrub, hopLimit := rfl, lossUnits := rfl, interval := interval, words := words, path := path
      owed := owed, image := rfl, noted := fun _ _ h => h, kept := fun _ => ⟨rfl, rfl, rfl⟩ }

/-- The READY at the end of a load (section 11.2). -/
def State.loadReady (s : State) : Frame :=
  ⟨0x15, 0, s.address, BitVec.ofNat 8 (field (s.nodeWord 0) 0 7), s.readyPayload⟩

/-- With a frame in transmission the READY joins the insertion queue. -/
theorem endLoad_ready_waits (ha : s.addressed = true) (hw : s.mgmt.waiting = [])
    (hs : s.ring.sending.isSome = true) (hi : s.ring.insertion.length < 8) :
    s.endLoad.ring.insertion = s.ring.insertion ++ [s.loadReady] := by
  obtain ⟨m, asked, -⟩ := loadAsked_eq s
  have left : (s.choosing m).pump = s.choosing m := pump_left (.inr hs)
  rw [endLoad_eq, if_pos ha, asked]
  show (s.choosing m).pump.sendReady.ring.insertion = _
  rw [left, sendReady_queued (s := s.choosing m) rfl hw hi hs]
  rfl

/-- With nothing else to send the READY is sent at once. -/
theorem endLoad_ready_sent (ha : s.addressed = true) (hw : s.mgmt.waiting = []) (hs : s.ring.sending = none)
    (hr : s.ring.relay = []) (hi : s.ring.insertion = []) (hc : s.callWaiting = false) :
    s.endLoad.ring.sending = some s.loadReady ∧ s.endLoad.ring.insertion = [] := by
  obtain ⟨m, asked, -⟩ := loadAsked_eq s
  have empty : (s.choosing m).ring.insertion = [] := hi
  have own : (s.choosing m).ownWaiting = false := Bool.or_eq_false_iff.mpr ⟨by rw [empty]; rfl, hc⟩
  have left : (s.choosing m).pump = s.choosing m := (pump_idle (s := s.choosing m) rfl hs).trans
    (choose_nothing hr own)
  rw [endLoad_eq, if_pos ha, asked]
  show (s.choosing m).pump.sendReady.ring.sending = _ ∧ (s.choosing m).pump.sendReady.ring.insertion = _
  rw [left, sendReady_at_once (s := s.choosing m) rfl hw empty hs hr hc]
  exact ⟨rfl, rfl⟩

/-- A record due goes first: its CALL is sent, and the READY joins the insertion queue. -/
theorem endLoad_ready_queued {i : Fin 16} {r : Record} (ha : s.addressed = true) (hw : s.mgmt.waiting = [])
    (hs : s.ring.sending = none) (hr : s.ring.relay = []) (hi : s.ring.insertion = [])
    (hl : s.mode.lineLost = false) (hd : s.dueSlot = some i) (hq : s.slotAt i = some r) :
    s.endLoad.ring.insertion = [s.loadReady] ∧ ∃ f, s.endLoad.ring.sending = some f ∧ f.kind = 0x13 := by
  obtain ⟨m, asked, -⟩ := loadAsked_eq s
  have called := pump_calls_ring (s := s.choosing m) rfl hs hl (.inl hr) hd hq
  have sent := sent_pump (s.choosing m)
  have frame : (s.choosing m).pump.ownFrame 0x15 (s.choosing m).pump.readyPayload = s.loadReady := by
    unfold State.ownFrame State.readyPayload
    rw [sent.address, sent.hopLimit, sent.resetCause, sent.mgmt]
    rfl
  have empty : (s.choosing m).pump.ring.insertion = [] := (congrArg Ring.insertion called).trans hi
  rw [endLoad_eq, if_pos ha, asked]
  show (s.choosing m).pump.sendReady.ring.insertion = _ ∧
    ∃ f, (s.choosing m).pump.sendReady.ring.sending = some f ∧ f.kind = 0x13
  rw [sendReady_queued (sent.bypass.trans rfl) ((congrArg Management.waiting sent.mgmt).trans hw)
    (by rw [empty]; decide) (by rw [called]; rfl), frame, empty]
  exact ⟨rfl, _, congrArg Ring.sending called, rfl⟩

end Words

/-! ## The blank content in table memory (R174) -/

/-- A word of a memory made from rising indices. -/
theorem Memory.read_filterMap (f : Nat → Codeword) {l : List Nat} (hl : l.Pairwise (· < ·)) {j : Nat}
    (hj : j ∈ l) :
    Memory.read (l.filterMap fun i => if f i = Memory.unlisted then none else some (i, f i)) j = f j := by
  induction l with
  | nil => cases hj
  | cons a l ih =>
    obtain ⟨ha, hl⟩ := List.pairwise_cons.mp hl
    by_cases unlisted : f a = Memory.unlisted
    · simp only [List.filterMap_cons, if_pos unlisted]
      rcases List.mem_cons.mp hj with rfl | hj
      · rw [unlisted]
        refine Memory.read_above fun e he => ?_
        obtain ⟨i, hi, k⟩ := List.mem_filterMap.mp he
        split at k
        · cases k
        · cases k
          exact ha i hi
      · exact ih hl hj
    · simp only [List.filterMap_cons, if_neg unlisted, Memory.read]
      split
      · rename_i e
        rw [e]
      · rename_i ne
        exact ih hl ((List.mem_cons.mp hj).resolve_left ne)

theorem read_blankMemory {j : Nat} (hj : j < 2128) : Memory.read blankMemory j = encodeWord (blankWord j) :=
  Memory.read_filterMap (fun i => encodeWord (blankWord i)) List.pairwise_lt_range (List.mem_range.mpr hj)

/-! ## Both ends of a load -/

section Ends
variable {s : State}

/-- Table memory filled with the blank content, in state LOAD-FAILED (R174). -/
def State.blanked (s : State) : State := { s with mem.words := blankMemory, mgmt.image := .loadFailed }

theorem blanked_slotAt (s : State) (i : Fin 16) : s.blanked.slotAt i = s.slotAt i := by
  simp only [State.slotAt, State.blanked]
theorem blanked_words (s : State) : s.blanked.mem.words = blankMemory := by simp only [State.blanked]
theorem blanked_image (s : State) : s.blanked.mgmt.image = .loadFailed := by simp only [State.blanked]
theorem blanked_ring (s : State) : s.blanked.ring = s.ring := by simp only [State.blanked]

/-- The node as a load leaves it at its end: the last word written, or the blank content and IMAGE-FAILED. -/
def State.loadOutcome (s : State) (ok : Bool) (w : Word) : State :=
  if ok then { s.writeWord 2127 (imageWord 2127 w) with mgmt.image := .loaded }
  else s.blanked.raise .imageFailed 0

theorem failLoad_eq (s : State) (w : Word) : s.failLoad = (s.loadOutcome false w).endLoad := by
  rw [State.loadOutcome, if_neg Bool.false_ne_true, State.failLoad, State.blanked]

/-- A failed load leaves nothing of the word written before it. -/
theorem failLoad_writeWord (s : State) (i : Nat) (w : Word) : (s.writeWord i w).failLoad = s.failLoad := by
  unfold State.failLoad State.writeWord
  dsimp only

/-- A load ends at a header that does not compare, or after the last word. -/
theorem exec_load_ends {h : List Byte} {w : Word} {crc want : BitVec 32} {ok : Bool} {c : Instr}
    (hc : (c = .loadHeaderRead h ∧ s.mgmt.load = .header ∧ headerOk h = false ∧ ok = false) ∨
      (c = .loadWordRead w ∧ s.mgmt.load = .words 2127 crc want ∧
        ok = decide (crc32Add crc (wordBytes w) ^^^ 0xFFFFFFFF#32 = want))) :
    exec c s = .next (s.loadOutcome ok w).endLoad := by
  rcases hc with ⟨rfl, hl, hh, rfl⟩ | ⟨rfl, hl, rfl⟩
  · show execLoadHeaderRead h s = _
    unfold execLoadHeaderRead
    rw [hl]
    dsimp only
    rw [if_neg (by simp [hh]), failLoad_eq s w]
  · show execLoadWordRead w s = _
    unfold execLoadWordRead
    rw [hl]
    dsimp only
    rw [if_neg (show ¬ 2127 + 1 < Config.wordCount by decide), crc32Final]
    by_cases same : crc32Add crc (wordBytes w) ^^^ 0xFFFFFFFF#32 = want
    · rw [if_pos same, decide_eq_true same, State.loadOutcome, if_pos rfl]
    · rw [if_neg same, decide_eq_false same, failLoad_writeWord, failLoad_eq s w]

/-- A failed load has the blank content, and IMAGE-FAILED is noted. -/
theorem loadOutcome_failed (s : State) (w : Word) :
    Sent s.blanked (s.loadOutcome false w) ∧
      (s.loadOutcome false w).Noted .imageFailed 0 := by
  rw [State.loadOutcome, if_neg Bool.false_ne_true]
  exact ⟨sent_raiseWith _ _ _ _ _, noted_raise _ _ _⟩

/-- What either end leaves alone of what the end of the load goes on to read. -/
theorem loadOutcome_sent (ok : Bool) (w : Word) : ∃ words image,
    Sent { s with mem.words := words, mgmt.image := image } (s.loadOutcome ok w) := by
  cases ok
  · exact ⟨_, _, (loadOutcome_failed s w).1⟩
  · exact ⟨_, _, .refl _⟩

/-- IMAGE-FAILED raised at an empty table, while BYPASS is asserted, waits in slot 0. -/
theorem loadOutcome_failed_empty (hb : s.ring.bypass = true) (h : ∀ j, s.slotAt j = none) (w : Word) :
    ∃ r, (s.loadOutcome false w).slotAt 0 = some r ∧ (s.loadOutcome false w).dueSlot = some 0 := by
  have empty : ∀ j, s.blanked.slotAt j = none := fun j => (blanked_slotAt s j).trans (h j)
  obtain ⟨u, e, k⟩ := raise_empty empty .imageFailed 0
  rw [State.loadOutcome, if_neg Bool.false_ne_true, e, pump_left (.inl (by rw [k.ring, blanked_ring, hb]))]
  exact ⟨_, k.only empty 0, dueSlot_only (k.only empty) rfl⟩

/-- The frames kept and sent stand through either end where the transmitter is not to choose. -/
theorem loadOutcome_ring (ok : Bool) (w : Word) (h : s.ring.bypass = true ∨ s.ring.sending.isSome = true) :
    (s.loadOutcome ok w).ring = s.ring := by
  cases ok
  · rw [State.loadOutcome, if_neg Bool.false_ne_true, ← blanked_ring s]
    exact raiseWith_left (by rw [blanked_ring]; exact h)
  · rfl

end Ends

theorem dataOf_encodeWord (w : Word) : dataOf (encodeWord w) = w :=
  BitVec.setWidth_append_eq_right

/-- The blank node settings. -/
theorem blankWord_node : field ((Memory.read blankMemory 0).setWidth 32) 0 7 = 127 ∧
    field ((Memory.read blankMemory 0).setWidth 32) 16 9 = 50 ∧
    field ((Memory.read blankMemory 1).setWidth 32) 0 8 = 10 := by
  have read : ∀ j, j < 2128 → (Memory.read blankMemory j).setWidth 32 = blankWord j := fun j hj => by
    rw [read_blankMemory hj]
    exact dataOf_encodeWord _
  rw [read 0 (by decide), read 1 (by decide)]
  decide

/-- Settles O59: the header and the tables by place, and either end of the load by what it leaves
(`loadOutcome_sent`) and what its end does (`endLoad_ends`). -/
theorem loadProceedsAndEnds : Obligations.LoadProceedsAndEnds := by
  refine ⟨headerOk_iff, fun c b bs x => ⟨rfl, rfl, crc32Add_byte c b x⟩, crc32_check, blankWord_regions,
    imageWord_regions, fun s h w i crc want ok c => ⟨fun empty => ?_, fun hl hh => ?_, fun hl hi => ?_,
      fun hc => ?_⟩⟩
  · exact congrArg _ (if_pos empty)
  · show execLoadHeaderRead h s = _
    unfold execLoadHeaderRead
    rw [hl]
    exact congrArg _ (if_pos hh)
  · show execLoadWordRead w s = _
    unfold execLoadWordRead
    rw [hl]
    exact congrArg _ (if_pos (show i + 1 < Config.wordCount by unfold Config.wordCount; omega))
  · refine ⟨_, exec_load_ends hc, ?_⟩
    clear hc
    obtain ⟨words, image, sent⟩ := loadOutcome_sent (s := s) ok w
    have ends := endLoad_ends (s.loadOutcome ok w)
    have copies := nodeWord_ring (s.loadOutcome ok w)
    have addressed : (s.loadOutcome ok w).addressed = s.addressed := sent.addressed
    refine ⟨ends.load, ends.sampling, ?_, fun ha => ends.joined (addressed.trans ha), ends.mode.trans sent.mode,
      ends.scrub, ?_, ?_, ?_, ?_, ?_, ?_⟩
    · rw [ends.bypass, addressed, sent.bypass]
    · rintro w0 w1 rfl rfl
      rw [ends.words, ends.hopLimit, ends.lossUnits, ends.interval]
      exact ⟨copies.1, copies.2, nodeWord_scrub _⟩
    · rintro jobs v rfl rfl
      have path := congrArg TableMemory.path sent.mem
      have owed := congrArg (fun m : TableMemory => m.owed ++ loadJobs) sent.mem
      have congr := ask_congr (s := { s with mem.owed := s.mem.owed ++ loadJobs })
        (t := { s.loadOutcome ok w with mem.owed := (s.loadOutcome ok w).mem.owed ++ loadJobs }) ⟨path, owed⟩
      exact ⟨ends.path.trans congr.1, ends.owed.trans congr.2⟩
    · rintro rfl
      exact ⟨ends.image, ends.words⟩
    · rintro rfl
      obtain ⟨failed, noted⟩ := loadOutcome_failed s w
      have blank : (s.loadOutcome false w).mem.words = blankMemory := by rw [failed.mem, blanked_words]
      have scrub := nodeWord_scrub (s.loadOutcome false w)
      rw [blank, blankWord_node.1, blankWord_node.2.1] at copies
      rw [blank, blankWord_node.2.2] at scrub
      refine ⟨ends.image.trans (by rw [failed.mgmt, blanked_image]), fun j hj => ?_,
        (ends.noted .imageFailed 0 noted).found,
        ends.hopLimit.trans copies.1, ends.lossUnits.trans copies.2, ends.interval.trans scrub⟩
      rw [ends.words, blank, read_blankMemory hj]
    · intro ha hb
      have ring := loadOutcome_ring ok w (.inl hb)
      obtain ⟨insertion, sending, waiting⟩ := ends.kept (addressed.trans ha)
      rw [ring] at insertion sending
      exact ⟨insertion, sending, waiting.trans (congrArg Management.waiting sent.mgmt :)⟩
    · rintro ready rfl ha hw
      have waiting : (s.loadOutcome ok w).mgmt.waiting = [] := (congrArg Management.waiting sent.mgmt).trans hw
      have ready : (s.loadOutcome ok w).loadReady = ⟨0x15, 0, s.address,
          BitVec.ofNat 8 (s.loadOutcome ok w).endLoad.ring.hopLimit,
          [BitVec.ofNat 8 s.resetCause.code, if ok then 2 else 3, 1, 160, 1]⟩ := by
        have code : BitVec.ofNat 8 (s.loadOutcome ok w).mgmt.image.code = if ok then 2 else 3 := by
          cases ok
          · rw [(loadOutcome_failed s w).1.mgmt, blanked_image]
            rfl
          · rfl
        rw [State.loadReady, State.readyPayload, sent.address, sent.resetCause, ends.hopLimit, code]
        rfl
      rw [← ready]
      refine ⟨fun hs hi => ?_, fun hb hs hr hi hl hslots => ⟨?_, ?_⟩⟩
      · have ring := loadOutcome_ring ok w (.inr hs)
        rw [← ring] at hs hi ⊢
        exact endLoad_ready_waits (addressed.trans ha) waiting hs hi
      · rintro rfl
        exact endLoad_ready_sent ha waiting hs hr hi (callWaiting_empty hslots)
      · rintro rfl
        have ring := loadOutcome_ring false w (.inl hb)
        obtain ⟨r, hq, hd⟩ := loadOutcome_failed_empty hb hslots w
        rw [← ring] at hs hr hi
        exact endLoad_ready_queued (addressed.trans ha) waiting hs hr hi (sent.lineLost.trans hl) hd hq

end Sys2Proof.Machine
end

