-- ==== Sys2Proof/Proofs/Restart.lean ====
section
/-! PROOF. A RESTART (R178): what it empties and keeps, its SAVE-FAILED and its READY, and the relay of a broadcast
one. -/
namespace Sys2Proof.Machine

/-! ## One channel, button and access after a RESTART -/

/-- An UNHOMED channel has no position that a new copy could cost it. -/
theorem replaceHeld_unhomed {x : Channel} (hx : x.state = .unhomed) (h : Held ChannelSettings) :
    x.replaceHeld h = { x with held := h } := by
  have disable : ∀ k, ({ x with held := k } : Channel).disableEffect = { x with held := k } := fun k => by
    simp only [Channel.disableEffect, hx]
  have lose : ∀ k, ({ x with held := k } : Channel).losePosition = { x with held := k } := fun k => by
    simp only [Channel.losePosition, hx]
  have travel : ∀ k, ({ x with held := k } : Channel).travelEffect = { x with held := k } := fun k => by
    simp only [Channel.travelEffect, hx]
  unfold Channel.replaceHeld
  split
  · simp only [disable, lose, travel, ite_self]
  · exact disable _
  · exact disable _
  · rfl
  · rfl

/-- A channel after a RESTART: the reset values, but for its settings, its counts and its inputs. -/
theorem channel_restart_eq (ch : Channel) : ∃ h a, ch.restart = { Channel.reset with
    held := h, aside := a, completed := ch.completed, refused := ch.refused
    homePin := ch.homePin, farPin := ch.farPin, faultPin := ch.faultPin, dirPin := ch.dirPin } ∧
    (ch.aside = none → h = ch.held) := by
  unfold Channel.restart Channel.takeAside
  cases ha : ch.aside with
  | none => exact ⟨ch.held, none, rfl, fun _ => rfl⟩
  | some h =>
    exact ⟨h, none, (if_pos rfl).trans (replaceHeld_unhomed rfl h), fun k => by cases k⟩

/-- A button with a copy after a RESTART: its level as last sampled, its allowance full. -/
theorem button_restart_copy {x : Button} {k : ButtonSettings} (h : x.held = .copy k) : x.restart = { x with
    closed := x.pin, count := 0, phase := if x.pin then .settled else .released, lock := false
    closure := if x.pin && x.enabled then 0 else x.closure, stuckTiming := x.pin && x.enabled
    stuckInForce := if x.pin && x.enabled then k.stuck else x.stuckInForce, refill := none, spentRun := 0
    rough := false, allowance := if k.allowance = 0 then none else some k.allowance } := by
  have enabled : x.enabled = k.enabled := by rw [Button.enabled, h]
  unfold Button.restart Button.firstSample
  rw [enabled, h]
  dsimp only
  cases hp : x.pin
  · rw [if_neg (by simp)]
    rfl
  · cases hk : k.enabled
    · rw [if_neg (by simp)]
      rfl
    · rw [if_pos (by simp)]
      rfl

/-- A button without a copy after a RESTART. -/
theorem button_restart_none {x : Button} (h : x.held = .absent ∨ x.held = .damaged) : x.restart = { x with
    closed := x.pin, count := 0, phase := if x.pin then .settled else .released, lock := false
    stuckTiming := false, refill := none, spentRun := 0, rough := false } := by
  unfold Button.restart Button.firstSample
  rcases h with h | h <;> rw [h]

/-- The requester's part in an access is cancelled, but in a settings re-read. -/
theorem resets_stale (op : AccessOp) (stale : Bool) : (stale || op.resets) =
    (match op with | .settings _ => stale | _ => true) := by
  cases op <;> simp [AccessOp.resets]

/-! ## Another ring port -/

/-- The node with another ring port. -/
def State.withRing (s : State) (r : Ring) : State := { s with ring := r }

section WithRing
variable (s : State) (r : Ring)

theorem withRing_mgmt : (s.withRing r).mgmt = s.mgmt := rfl
theorem withRing_address : (s.withRing r).address = s.address := rfl
theorem withRing_chan (c : Fin 4) : (s.withRing r).chan c = s.chan c := rfl
theorem withRing_btn (b : Fin 16) : (s.withRing r).btn b = s.btn b := rfl
theorem withRing_out (o : Fin 8) : (s.withRing r).out o = s.out o := rfl
theorem withRing_slotAt (i : Fin 16) : (s.withRing r).slotAt i = s.slotAt i := rfl
theorem withRing_lampFor (b : Fin 16) : (s.withRing r).lampFor b = s.lampFor b :=
  lampFor_congr (x := (s.btn b).lamp) rfl rfl rfl rfl

end WithRing

/-! ## Every block -/

section Blocks
variable {s : State}

/-- Every block after a RESTART, before the lamps are computed anew. -/
def State.emptied (s : State) : State :=
  { s with
    resetCause := .restart, ring := s.ring.restart
    mode := { ModeUnit.reset with node := .active }
    cue := { CueEngine.reset with recalled := s.recalledBy }
    button := { buttons := Vector.ofFn fun b => s.button.buttons[b].restart, waitCtr := 0
                fastCtr := 0 }
    motion := { channels := Vector.ofFn fun c => s.motion.channels[c].restart
                guards := Vector.ofFn fun g => { GuardInput.reset with pin := s.motion.guards[g].pin }
                owed := [], fetchWords := [] }
    effect.outputs := Vector.ofFn fun o => s.effect.outputs[o].restart
    alert := s.alert.restart, mem := s.mem.restart, mgmt := s.mgmt.restart }

theorem restartBlocks_eq (s : State) : s.restartBlocks = s.emptied.allLamps := rfl

theorem restartBlocks_slotAt (i : Fin 16) : s.restartBlocks.slotAt i = none := by
  simp [State.restartBlocks, State.allLamps, State.slotAt, AlertUnit.restart, AlertUnit.reset]

theorem restartBlocks_guardIn (g : Fin 4) : s.restartBlocks.guardIn g =
    { GuardInput.reset with pin := (s.guardIn g).pin } := by
  simp [State.restartBlocks, State.allLamps, State.guardIn]

theorem restartBlocks_out (o : Fin 8) : s.restartBlocks.out o = (s.out o).restart := by
  simp [State.restartBlocks, State.allLamps, State.out]

theorem emptied_btn (b : Fin 16) : s.emptied.btn b = (s.btn b).restart := by
  simp [State.emptied, State.btn]

/-- The lamp is the one that the rules call for after the RESTART. -/
theorem restartBlocks_btn (b : Fin 16) : s.restartBlocks.btn b =
    { (s.btn b).restart with lamp := s.restartBlocks.lampFor b } := by
  rw [restartBlocks_eq, allLamps_btn, allLamps_lampFor, emptied_btn]

theorem restartBlocks_passOver (q : Fin 5) : s.restartBlocks.mem.passOver[q] = 0 := by
  simp [State.restartBlocks, State.allLamps, TableMemory.restart]

theorem saveBroken_none (h : s.mgmt.save = none) : s.trailing.mgmt.saveBroken = false := by
  rw [Management.saveBroken, show s.trailing.mgmt.save = none from h]

theorem saveBroken_some {p : SaveProgress} (h : s.mgmt.save = some p) : s.trailing.mgmt.saveBroken = p.begun := by
  rw [Management.saveBroken, show s.trailing.mgmt.save = some p from h]

theorem imageAfter_none (h : s.mgmt.save = none) : s.trailing.mgmt.imageAfter = s.mgmt.image := by
  rw [Management.imageAfter, show s.trailing.mgmt.save = none from h]
  rfl

theorem imageAfter_some {p : SaveProgress} (h : s.mgmt.save = some p) :
    s.trailing.mgmt.imageAfter = if p.begun then .loadFailed else p.before := by
  rw [Management.imageAfter, show s.trailing.mgmt.save = some p from h]

/-- The READY of a RESTART (section 11.2). -/
def State.restartReady (s : State) : Frame :=
  ⟨0x15, 0, s.address, BitVec.ofNat 8 s.ring.hopLimit, [2, BitVec.ofNat 8 s.mgmt.imageAfter.code, 1, 160, 1]⟩

/-- The node before the READY is offered: every block reset, and SAVE-FAILED raised for a broken SAVE. -/
def State.recovered (s : State) : State :=
  if s.mgmt.saveBroken then s.restartBlocks.raise .saveFailed 0 else s.restartBlocks

theorem restart_eq (s : State) : s.restart = s.recovered.sendReady := rfl

theorem recovered_unbroken (h : s.mgmt.saveBroken = false) : s.recovered = s.restartBlocks :=
  if_neg (by simp [h])

theorem recovered_sent (s : State) : Sent s.restartBlocks s.recovered := by
  unfold State.recovered
  split
  · exact sent_raiseWith _ _ _ _ _
  · exact .refl _

theorem recovered_ready (s : State) : s.recovered.ownFrame 0x15 s.recovered.readyPayload = s.restartReady := by
  have sent := recovered_sent s
  unfold State.ownFrame State.readyPayload
  rw [sent.address, sent.hopLimit, sent.resetCause, sent.mgmt]
  rfl

/-- While a frame is in transmission the READY stays in the insertion queue. -/
theorem restart_queued (hb : s.ring.bypass = false) (hi : s.recovered.ring.insertion = [])
    (hs : s.recovered.ring.sending.isSome = true) :
    s.restart = s.recovered.withRing { s.recovered.ring with insertion := [s.restartReady] } := by
  have sent := recovered_sent s
  rw [restart_eq, sendReady_queued (sent.bypass.trans hb) (congrArg Management.waiting sent.mgmt) (by rw [hi]; decide)
    hs, recovered_ready, hi]
  rfl

/-- An idle transmitter sends the READY at once. -/
theorem restart_at_once (hb : s.ring.bypass = false) (hk : s.mgmt.saveBroken = false)
    (hs : s.ring.sending = none) : s.restart = s.restartBlocks.withRing
      { s.restartBlocks.ring with sending := some s.restartReady, insertion := [], relayCount := 0 } := by
  have own := recovered_ready s
  rw [recovered_unbroken hk] at own
  rw [restart_eq, recovered_unbroken hk, sendReady_at_once (s := s.restartBlocks) hb rfl rfl hs rfl
    (callWaiting_empty restartBlocks_slotAt), own]
  rfl

/-- SAVE-FAILED of a broken SAVE takes slot 0 of the emptied table. -/
theorem recovered_broken (h : s.mgmt.saveBroken = true) : ∃ u, s.recovered = u.pump ∧
    Recorded s.restartBlocks u .saveFailed 0 none 0
      (s.restartBlocks.newRecord .saveFailed 0 (s.restartBlocks.causeSettings .saveFailed).level) := by
  rw [State.recovered, if_pos h]
  exact raise_empty restartBlocks_slotAt .saveFailed 0

/-- A frame in transmission stays, and the frames kept are gone, when SAVE-FAILED is raised. -/
theorem recovered_sending (hs : s.ring.sending.isSome = true) : s.recovered.ring = s.restartBlocks.ring := by
  unfold State.recovered
  split
  · exact raiseWith_left (.inr hs)
  · rfl

/-- The SAVE abandoned. -/
theorem recovered_abandoned (s : State) : s.recovered.mgmt.save = none ∧ s.recovered.mgmt.flashNext = none ∧
    s.recovered.mgmt.flashBusy = s.mgmt.flashBusy ∧ s.recovered.mgmt.slot = .empty ∧
    s.recovered.mgmt.waiting = [] ∧ s.recovered.mgmt.image = s.mgmt.imageAfter ∧
    s.recovered.mem.words = s.mem.words := by
  rw [(recovered_sent s).mgmt, (recovered_sent s).mem]
  exact ⟨rfl, rfl, rfl, rfl, rfl, rfl, rfl⟩

/-- The record of SAVE-FAILED is in the table. -/
theorem recovered_findRecord (h : s.mgmt.saveBroken = true) :
    (s.recovered.findRecord .saveFailed 0).isSome = true := by
  have found := raise_recorded s.restartBlocks .saveFailed 0 none none
  have raised : s.recovered = s.restartBlocks.raiseWith .saveFailed 0 none none := if_pos h
  rw [← raised] at found
  rcases found with ⟨i, r, hr, hc, hn, -⟩ | ⟨-, full, -⟩
  · rw [← hc, ← hn]
    exact findRecord_of_slot hr
  · rw [emptySlot_empty restartBlocks_slotAt] at full
    cases full

/-- The CALL of SAVE-FAILED after a RESTART (section 11.2). -/
theorem callPayload_saveFailed (l : Level) : callPayload 0 (s.restartBlocks.newRecord .saveFailed 0 l) =
    [0, 11, 0, BitVec.ofNat 8 (levelCode l), 0, 0, 0, 0, 0, 0] := by
  have clock : s.restartBlocks.mode.clock = 0 := rfl
  simp [callPayload, State.newRecord, clock, bytesBE, RecState.code, Cause.code]

/-- An idle transmitter sends the CALL of SAVE-FAILED, whose record is CALLED. -/
theorem recovered_called (hb : s.ring.bypass = false) (hs : s.ring.sending = none)
    (h : s.mgmt.saveBroken = true) : s.recovered.ring = { s.restartBlocks.ring with
      sending := some ⟨0x13, 0, s.address, BitVec.ofNat 8 s.ring.hopLimit,
        [0, 11, 0, BitVec.ofNat 8 (levelCode (s.causeSettings .saveFailed).level), 0, 0, 0, 0, 0, 0]⟩
      relayCount := 0 } ∧
    ∀ j, s.recovered.slotAt j = if j = 0 then some
      { cause := .saveFailed, subject := 0, level := (s.causeSettings .saveFailed).level, state := .called
        condition := true, due := false, repeats := 0, escalations := 0, raisedAt := 0
        timer := if (s.causeSettings .saveFailed).esc = 0 then none
          else some ((s.causeSettings .saveFailed).esc * 10000) } else none := by
  obtain ⟨u, e, k⟩ := recovered_broken h
  have only := k.only restartBlocks_slotAt
  have due := dueSlot_only only rfl
  have lost : u.mode.lineLost = false := k.lineLost
  have bypass : u.ring.bypass = false := by rw [k.ring]; exact hb
  have idle : u.ring.sending = none := by rw [k.ring]; exact hs
  have relay : u.ring.relay = [] := by rw [k.ring]; rfl
  have settings : s.restartBlocks.causeSettings .saveFailed = s.causeSettings .saveFailed := causeSettings_congr rfl _
  have called : u.causeSettings .saveFailed = s.causeSettings .saveFailed := causeSettings_congr k.held _
  rw [settings] at only k
  rw [e]
  constructor
  · rw [pump_calls_ring bypass idle lost (.inl relay) due (only 0), State.ownFrame, State.address, k.straps, k.ring,
      callPayload_saveFailed]
    rfl
  · intro j
    rw [(pump_calls bypass idle lost (.inl relay) due (only 0)).slots]
    split
    · simp only [State.recordAfterCall, State.newRecord, State.escalationTime, called]
      rfl
    · rename_i ne
      rw [only, if_neg ne]

/-! ## The frame passed on -/

/-- A frame passed on while the relay buffer is empty and a frame is in transmission. -/
theorem passOn_sending {f : Frame} (hr : s.ring.relay = []) (hs : s.ring.sending.isSome = true) :
    ∃ q rec, s.passOn f = s.withRing { s.ring with relay := q, record := rec } ∧
      (f.dst = s.address ∨ f.hop = 0 → q = []) ∧ (f.dst ≠ s.address → f.hop ≠ 0 → q = [f.relayCopy]) ∧
      (f.dst = s.address ∨ f.hop ≠ 0 → rec = s.ring.record) := by
  by_cases hd : f.dst = s.address
  · exact ⟨s.ring.relay, s.ring.record, passOn_consumed hd, fun _ => hr, fun h => absurd hd h, fun _ => rfl⟩
  · by_cases hh : f.hop = 0
    · exact ⟨s.ring.relay, _, passOn_expired hd hh, fun _ => hr, fun _ h => absurd hh h,
        fun h => absurd h (by simp [hd, hh])⟩
    · refine ⟨[f.relayCopy], s.ring.record, ?_, fun h => ?_, fun _ _ => rfl, fun _ => rfl⟩
      swap
      · exact absurd (h.resolve_left hd) hh
      rw [passOn_relayed hd hh, offerRelay_room (by rw [hr]; decide), hr]
      exact pump_left (s := { s with ring.relay := [f.relayCopy] }) (.inr hs)

variable {env : Envelope} {p : List Byte}

/-- An admitted RESTART is acted on, and passed on. -/
theorem receive_restart (hb : s.ring.bypass = false) (h0 : env.src = 0) (ha : s.address ≠ 0)
    (hd : env.dst = 127 ∨ env.dst = s.address) :
    s.receive (frameOf 0x06 env []) = s.trailing.restart.passOn (frameOf 0x06 env []) := by
  have admitted : s.trailing.admits (frameOf 0x06 env []) = true := by
    rw [admits_toNode (.inr (.inr (.inr rfl)))]
    show (decide (env.src = 0) && (decide (env.dst = 127) || decide (env.dst = s.address)) && true) = true
    rw [← Bool.decide_or, decide_eq_true h0, decide_eq_true hd]
    rfl
  rw [receive_other (frameOf_good rfl (by simp [h0]) (by simp)) hb (fun h => ha (h.symm.trans h0)),
    actIfAdmitted_admitted admitted]
  rfl

/-- A RESTART with a payload is passed on only. -/
theorem receive_restart_payload (hb : s.ring.bypass = false) (h0 : env.src = 0) (ha : s.address ≠ 0)
    (hp : p.length ≤ 32) (hn : p ≠ []) :
    s.receive (frameOf 0x06 env p) = s.trailing.passOn (frameOf 0x06 env p) := by
  have refused : s.trailing.admits (frameOf 0x06 env p) = false := by
    refine admits_false (.inr (.inl ⟨.inr (.inr (.inr rfl)), .inr (.inr ?_)⟩))
    exact fun h => hn (List.eq_nil_of_length_eq_zero h)
  rw [receive_other (frameOf_good rfl (by simp [h0]) hp) hb (fun h => ha (h.symm.trans h0)),
    actIfAdmitted_refused refused]

/-- What a RESTART leaves, by the transmitter: the frame passed on after it changes the relay buffer, and for an
expired one the line record. -/
theorem exec_restart (hb : s.ring.bypass = false) (h0 : env.src = 0) (ha : s.address ≠ 0)
    (hd : env.dst = 127 ∨ env.dst = s.address) {t : State} {r : Ring} (ht : s.trailing.restart = t.withRing r)
    (hr : r.relay = []) (hs : r.sending.isSome = true) (hta : t.address = s.address) :
    ∃ q rec, exec (.restart env []) s = .next (t.withRing { r with relay := q, record := rec }) ∧
      (env.dst = s.address ∨ env.hop = 0 → q = []) ∧
      (env.dst ≠ s.address → env.hop ≠ 0 → q = [⟨0x06, env.dst, env.src, env.hop - 1, []⟩]) ∧
      (env.dst = s.address ∨ env.hop ≠ 0 → rec = r.record) := by
  obtain ⟨q, rec, e, kept, relayed, record⟩ := passOn_sending (s := t.withRing r) (f := frameOf 0x06 env []) hr hs
  rw [withRing_address, hta] at kept relayed record
  exact ⟨q, rec, congrArg _ ((receive_restart hb h0 ha hd).trans ((congrArg (State.passOn · _) ht).trans e)), kept,
    relayed, record⟩

/-! ## What the blocks hold after it -/

theorem restart_button {t : State} (ht : ∀ b, t.btn b = s.restartBlocks.btn b)
    (hl : ∀ b, t.lampFor b = s.restartBlocks.lampFor b) (b : Fin 16) (x : Button) (timed : Bool) (hx : x = s.btn b)
    (htimed : timed = (x.pin && x.enabled)) :
    (∀ k, x.held = .copy k → t.btn b = { x with
      closed := x.pin, count := 0, phase := if x.pin then .settled else .released, lock := false
      closure := if timed then 0 else x.closure, stuckTiming := timed
      stuckInForce := if timed then k.stuck else x.stuckInForce, refill := none, spentRun := 0
      rough := false, allowance := if k.allowance = 0 then none else some k.allowance
      lamp := t.lampFor b }) ∧
    (x.held = .absent ∨ x.held = .damaged → t.btn b = { x with
      closed := x.pin, count := 0, phase := if x.pin then .settled else .released, lock := false
      stuckTiming := false, refill := none, spentRun := 0, rough := false
      lamp := t.lampFor b }) := by
  rw [ht, restartBlocks_btn, hl, htimed, ← hx]
  refine ⟨fun k hk => ?_, fun hk => ?_⟩
  · rw [button_restart_copy hk]
  · rw [button_restart_none hk]

theorem restart_channel (c : Fin 4) {x : Channel} (hx : x = s.restartBlocks.chan c) :
    x.state = .unhomed ∧ x.position = 0 ∧ x.v = 0 ∧ x.slot = none ∧ x.profile = none ∧ x.faultReason = none ∧
      x.completed = (s.chan c).completed ∧ x.refused = (s.chan c).refused ∧
      ((s.chan c).aside = none → x.held = (s.chan c).held) := by
  obtain ⟨h, a, restart, held⟩ := channel_restart_eq (s.chan c)
  rw [hx, restartBlocks_chan, restart]
  exact ⟨rfl, rfl, rfl, rfl, rfl, rfl, rfl, rfl, held⟩

theorem restart_output (o : Fin 8) {x : Effect} (hx : x = s.restartBlocks.out o) :
    x.held = (s.out o).held ∧ x.fine = 0 ∧ x.running = false ∧ x.dead = 0 := by
  rw [hx, restartBlocks_out]
  exact ⟨rfl, rfl, rfl, rfl⟩

theorem restart_access (op : AccessOp) (i : Nat) (stale : Bool) : s.mem.access = some ⟨op, i, stale⟩ →
    s.restartBlocks.mem.access = some ⟨op, i, match op with | .settings _ => stale | _ => true⟩ := by
  intro h
  have access : s.restartBlocks.mem.access = s.mem.access.map fun a => { a with stale := a.stale || a.op.resets } :=
    rfl
  rw [access, h, Option.map_some, resets_stale]

end Blocks

/-- Settles O58: the blocks by `restartBlocks`, and the four cases of the transmitter and the SAVE. -/
theorem restartResetsNode : Obligations.RestartResetsNode := by
  intro env b bs s hb h0 ha hd hbs
  refine ⟨congrArg _ (receive_restart_payload hb h0 ha (by simpa using hbs) (by simp)), fun hs hk => ?_,
    fun p hs hk => ?_, fun hs hk => ?_, fun p ready hs hk hready => ?_⟩
  · have idle := recovered_sending (s := s.trailing) hs
    have restarted := restart_queued (s := s.trailing) hb (by rw [idle]; rfl) (by rw [idle]; exact hs)
    rw [idle, recovered_unbroken (saveBroken_none hk), State.restartReady, imageAfter_none hk] at restarted
    obtain ⟨q, rec, e, kept, relayed, record⟩ := exec_restart hb h0 ha hd restarted rfl hs rfl
    refine ⟨_, e, rfl, rfl, rfl, rfl, hb, fun h => kept (.inl h), relayed, rfl, rfl, rfl, record, rfl, rfl, rfl, rfl,
      restart_button (s := s.trailing) (withRing_btn _ _) (withRing_lampFor _ _), rfl, rfl, rfl, rfl, fun q => ?_,
      fun c => ?_, rfl, fun o => restart_output (s := s.trailing) o (withRing_out _ _ o), rfl, rfl, fun i => ?_, rfl,
      rfl, rfl, rfl, rfl, rfl, rfl, rfl, rfl, rfl, rfl, fun h => congrArg (Option.map _) h, fun op i stale h => ?_, rfl,
      ?_, rfl⟩
    · exact restartBlocks_passOver (s := s.trailing) q
    · obtain ⟨state, position, v, slot, profile, reason, completed, refused, held⟩ :=
        restart_channel (s := s.trailing) c (withRing_chan _ _ c)
      exact ⟨state, position, v, slot, profile, reason, completed, refused, held,
        congrArg GuardInput.isOpen (restartBlocks_guardIn (s := s.trailing) c)⟩
    · exact (withRing_slotAt _ _ i).trans (restartBlocks_slotAt i)
    · exact restart_access (s := s.trailing) op i stale h
    · exact imageAfter_none hk
  · have idle := recovered_sending (s := s.trailing) hs
    have sent := recovered_sent s.trailing
    have restarted := restart_queued (s := s.trailing) hb (by rw [idle]; rfl) (by rw [idle]; exact hs)
    rw [idle, State.restartReady, imageAfter_some hk] at restarted
    obtain ⟨q, rec, e, -⟩ := exec_restart hb h0 ha hd restarted rfl hs sent.address
    obtain ⟨save, next, busy, slot, waiting, image, words⟩ := recovered_abandoned s.trailing
    rw [imageAfter_some hk] at image
    refine ⟨_, e, save, next, busy, slot, waiting, image, fun hp => ?_, fun hp i => ?_, ?_, words⟩
    · exact recovered_findRecord ((saveBroken_some hk).trans hp)
    · rw [withRing_slotAt, recovered_unbroken ((saveBroken_some hk).trans hp)]
      exact restartBlocks_slotAt i
    · rw [withRing_mgmt, image]
      rfl
  · have restarted := restart_at_once (s := s.trailing) hb (saveBroken_none hk) hs
    rw [State.restartReady, imageAfter_none hk] at restarted
    obtain ⟨q, rec, e, kept, relayed, -⟩ := exec_restart hb h0 ha hd restarted rfl rfl rfl
    exact ⟨_, e, rfl, rfl, kept, relayed, fun i => (withRing_slotAt _ _ i).trans (restartBlocks_slotAt i), rfl⟩
  · have image := imageAfter_some hk
    cases hp : p.begun
    · have restarted := restart_at_once (s := s.trailing) hb ((saveBroken_some hk).trans hp) hs
      have sent : s.trailing.restartReady = ready := by rw [State.restartReady, image, hready]; rfl
      rw [sent] at restarted
      obtain ⟨q, rec, e, kept, relayed, -⟩ := exec_restart hb h0 ha hd restarted rfl rfl rfl
      rw [hp] at image
      refine ⟨_, e, rfl, rfl, rfl, rfl, rfl, image, kept, relayed, fun _ => ⟨rfl, rfl, fun i => ?_⟩,
        fun k h => (by cases h), rfl⟩
      exact (withRing_slotAt _ _ i).trans (restartBlocks_slotAt i)
    · obtain ⟨ring, slots⟩ := recovered_called (s := s.trailing) hb hs ((saveBroken_some hk).trans hp)
      have sent := recovered_sent s.trailing
      have restarted := restart_queued (s := s.trailing) hb (by rw [ring]; rfl) (by rw [ring]; rfl)
      have own : s.trailing.restartReady = ready := by rw [State.restartReady, image, hready]; rfl
      rw [ring, own] at restarted
      obtain ⟨q, rec, e, kept, relayed, -⟩ := exec_restart hb h0 ha hd restarted rfl rfl sent.address
      obtain ⟨save, next, busy, slot, waiting, left, words⟩ := recovered_abandoned s.trailing
      rw [hp] at image
      refine ⟨_, e, save, next, busy, slot, waiting, left.trans image, kept, relayed,
        fun h => (by cases h), ?_, words⟩
      rintro k - rfl
      exact ⟨rfl, rfl, slots 0, fun i hi => (slots i).trans (if_neg hi)⟩

end Sys2Proof.Machine
end

