-- ==== Sys2Proof/Proofs/LineLoss.lean ====
section
/-! PROOF. The line-loss expiry (R21, R27): the loss actions of the channels, with the rest that the last of them may
bring (R31, R104), the safe levels (R131), and the alert. -/
namespace Sys2Proof.Machine

/-! ## A pending start stands through what is told -/

/-- A channel with no copy held aside has none still, and its pending start as it was. -/
def StartKept (s t : State) : Prop :=
  ∀ c : Fin 4, (s.chan c).aside = none → (t.chan c).aside = none ∧ (t.chan c).slot = (s.chan c).slot

namespace StartKept
variable {s t u : State}

theorem refl (s : State) : StartKept s s := fun _ h => ⟨h, rfl⟩

theorem trans (h : StartKept s t) (k : StartKept t u) : StartKept s u := fun c hc =>
  ⟨(k c (h c hc).1).1, (k c (h c hc).1).2.trans (h c hc).2⟩

theorem of_eq (h : t.motion.channels = s.motion.channels) : StartKept s t := fun c hc => by
  have same : t.chan c = s.chan c := by rw [State.chan, h, State.chan]
  rw [same]
  exact ⟨hc, rfl⟩

theorem ite {p : Prop} [Decidable p] (ht : p → StartKept s t) (hu : ¬p → StartKept s u) :
    StartKept s (if p then t else u) := by
  split
  · exact ht ‹_›
  · exact hu ‹_›

theorem foldl {α : Type} (f : State → α → State) (hf : ∀ a x, StartKept a (f a x)) (l : List α) (s : State) :
    StartKept s (l.foldl f s) := by
  induction l generalizing s with
  | nil => exact refl s
  | cons x l ih => exact (hf s x).trans (ih (f s x))

end StartKept

/-- A channel with no copy aside enters RESTING with the rest of its record as it was (R103). -/
theorem enterResting_eq {x : Channel} (h : x.aside = none) :
    x.enterResting = { x with restState := some x.state, state := .resting } := takeAside_id _ (.inr h)

section Telling
variable (s : State)

theorem enterDormant_chan (c : Fin 4) : s.enterDormant.chan c = (s.chan c).enterResting :=
  chan_mapChans (s := { s with mode.node := .dormant }) ..

theorem startKept_restTest : StartKept s s.restTest := by
  refine .ite (fun _ c h => ?_) fun _ => .refl s
  rw [enterDormant_chan, enterResting_eq h]
  exact ⟨h, rfl⟩

theorem startKept_changeChan (c : Fin 4) (x : Channel) (ha : x.aside = (s.chan c).aside)
    (hs : x.slot = (s.chan c).slot) : StartKept s (s.changeChan c x) := by
  refine StartKept.trans (t := s.withChan c x.takeAside) (fun d h => ?_)
    ((startKept_restTest _).trans (.of_eq rfl))
  rw [chan_withChan]
  split
  · rename_i e
    subst e
    rw [takeAside_id x (.inr (ha.trans h))]
    exact ⟨ha.trans h, hs⟩
  · exact ⟨h, rfl⟩

theorem startKept_releaseTest (c : Fin 4) : StartKept s (s.releaseTest c) := by
  unfold State.releaseTest
  dsimp only
  split
  · exact .ite (fun _ => startKept_changeChan s c _ rfl rfl) fun _ => .refl s
  · exact .ite (fun _ => startKept_changeChan s c _ rfl rfl) fun _ => .refl s
  · exact .refl s

theorem startKept_tellRecord (c : Cause) (n : Nat) : StartKept s (s.tellRecord c n) := by
  have beacon : StartKept s s.beaconUpdate := .ite (fun _ => .refl s) fun _ => .of_eq rfl
  have notice : ∀ (a : State) c, StartKept a (a.gatingNotice c) := fun a c =>
    StartKept.trans (t := a.channelLamps c) (.of_eq rfl) (startKept_releaseTest _ c)
  have h := (beacon.trans (startKept_restTest _)).trans
    (StartKept.foldl State.gatingNotice notice (s.beaconUpdate.restTest.concerned c n) _)
  unfold State.tellRecord
  dsimp only
  split
  · exact h.trans (.of_eq rfl)
  · exact h

theorem startKept_pump : StartKept s s.pump := by
  have build : ∀ (a : State) i r, StartKept a (a.buildCall i r) := fun a i r => by
    unfold State.buildCall
    dsimp only
    split
    · exact StartKept.trans (t := a.withSlot i _) (.of_eq rfl) (startKept_tellRecord _ _ _)
    · exact StartKept.trans (t := a.withSlot i _) (.of_eq rfl) (startKept_tellRecord _ _ _)
    · exact .of_eq rfl
    · exact .of_eq rfl
  have own : StartKept s s.takeOwn := by
    unfold State.takeOwn
    split
    · split
      · split
        · exact StartKept.trans (t := { s with ring.sending := _, ring.relayCount := 0 }) (.of_eq rfl) (build _ _ _)
        · exact .refl s
      · exact .refl s
    · split
      · exact .of_eq rfl
      · exact .refl s
  unfold State.pump State.choose
  refine .ite (fun _ => ?_) fun _ => .refl s
  split
  · exact .ite (fun _ => .of_eq rfl) fun _ => own
  · exact .ite (fun _ => own) fun _ => .refl s

theorem startKept_raise (c : Cause) (n : Nat) : StartKept s (s.raise c n) := by
  have filled : ∀ (a : State) i, StartKept a (a.fillSnapshot c n i none) := fun a i =>
    .ite (fun _ => .of_eq rfl) fun _ => .refl a
  have slot : ∀ i r, StartKept s ((s.withSlot i r).fillSnapshot c n (some i) none) := fun i r =>
    StartKept.trans (t := s.withSlot i r) (.of_eq rfl) (filled _ _)
  have beacon : ∀ a : State, StartKept a a.beaconUpdate := fun a =>
    .ite (fun _ => .refl a) fun _ => .of_eq rfl
  unfold State.raise State.raiseWith
  split
  · split
    · exact ((slot _ _).trans (.ite (fun _ => beacon _) fun _ => startKept_tellRecord _ _ _)).trans
        (startKept_pump _)
    · exact .refl s
  · split
    · exact ((slot _ _).trans (startKept_tellRecord _ _ _)).trans (startKept_pump _)
    · exact (StartKept.trans (t := { s with alert.overflow := true }) (.of_eq rfl) (filled _ _)).trans (beacon _)

end Telling

/-! ## A rest that a change of channel brings (R31) -/

/-- `t` is `s`, but for what is told of the change. -/
structure Changed (s t : State) : Prop where
  node   : t.mode.node = s.mode.node
  effect : t.effect = s.effect
  chan   : ∀ c, t.chan c = s.chan c

/-- `t` is the CLOSING node `s`, none of whose channels is in motion, come to rest. -/
structure CameToRest (s t : State) : Prop where
  closing : s.mode.node = .closing
  dormant : t.mode.node = .dormant
  out     : ∀ o, t.out o = (s.out o).rested
  pairing : t.effect.pairing = s.effect.pairing
  still   : ∀ c, (s.chan c).state.inMotion = false
  chan    : ∀ c, t.chan c = (s.chan c).enterResting

theorem enterDormant_out (s : State) (o : Fin 8) : s.enterDormant.out o = (s.out o).rested := by
  simp [State.enterDormant, State.restOutputs, State.allLamps, State.mapChans, State.out]

theorem Changed.lamps {s t : State} (h : Changed s t) (c : Fin 4) : Changed s (t.channelLamps c) :=
  ⟨h.node, h.effect, h.chan⟩

theorem CameToRest.lamps {s t : State} (h : CameToRest s t) (c : Fin 4) : CameToRest s (t.channelLamps c) :=
  ⟨h.closing, h.dormant, h.out, h.pairing, h.still, h.chan⟩

theorem Changed.base {s s' t : State} (h : Changed s t) (hm : s'.mode = s.mode) (he : s'.effect = s.effect)
    (hc : s'.motion.channels = s.motion.channels) : Changed s' t := by
  have chan : ∀ c, s'.chan c = s.chan c := fun c => by rw [State.chan, hc, State.chan]
  exact ⟨by rw [hm]; exact h.node, by rw [he]; exact h.effect, fun c => by rw [chan]; exact h.chan c⟩

theorem CameToRest.base {s s' t : State} (h : CameToRest s t) (hm : s'.mode = s.mode) (he : s'.effect = s.effect)
    (hc : s'.motion.channels = s.motion.channels) : CameToRest s' t := by
  have chan : ∀ c, s'.chan c = s.chan c := fun c => by rw [State.chan, hc, State.chan]
  have out : ∀ o, s'.out o = s.out o := fun o => by rw [State.out, he, State.out]
  exact ⟨by rw [hm]; exact h.closing, h.dormant, fun o => by rw [out]; exact h.out o, by rw [he]; exact h.pairing,
    fun c => by rw [chan]; exact h.still c, fun c => by rw [chan]; exact h.chan c⟩

theorem restTest_cases (s : State) : Changed s s.restTest ∨ CameToRest s s.restTest := by
  unfold State.restTest
  split
  · rename_i h
    exact .inr ⟨h.1, rfl, enterDormant_out s, rfl, restPasses_still s h.2, enterDormant_chan s⟩
  · exact .inl ⟨rfl, rfl, fun _ => rfl⟩

/-- A change of channel state is told, and may bring a CLOSING node to rest. -/
theorem changeChan_cases (s : State) (c : Fin 4) (x : Channel) :
    Changed (s.withChan c x.takeAside) (s.changeChan c x) ∨
      CameToRest (s.withChan c x.takeAside) (s.changeChan c x) := by
  exact (restTest_cases (s.withChan c x.takeAside)).imp (·.lamps c) (·.lamps c)

/-! ## The loss action of one channel (R104) -/

/-- A channel that enters its final pass: the segments of a later pass go (R104, R115). -/
def Channel.inFinal (ch : Channel) : Channel :=
  match ch.dir with
  | none => { ch with finalPass := true }
  | some d => { ch with finalPass := true, buffer := ch.buffer.filter fun b => inFinalPass d ch.ord b.ord }

/-- A channel after its loss action with copy `k`, before it is told. -/
def Channel.lossDone (ch : Channel) (k : ChannelSettings) : Channel :=
  match ch.state with
  | .moving => if k.lossFinish then ch.inFinal else (ch.stopWith .stopped).takeAside
  | .homing => if k.lossFinish then ch else ({ ch.halt with state := .unhomed, slot := none }).takeAside
  | _ => ch

/-- A channel after it has emptied its pending-start slot and taken its loss action, if it is enabled. -/
def Channel.afterLoss (ch : Channel) : Channel :=
  match ch.held with
  | .copy k => if k.enabled then { ch with slot := none }.lossDone k else ch
  | .absent => ch
  | .damaged => ch

section Loss
variable {s : State} {c : Fin 4}

theorem withChan_withChan (s : State) (c : Fin 4) (x y : Channel) :
    (s.withChan c x).withChan c y = s.withChan c y := by
  simp [State.withChan]

theorem inFinal_none {ch : Channel} (h : ch.dir = none) : ch.inFinal = { ch with finalPass := true } := by
  rw [Channel.inFinal, h]

theorem inFinal_some {ch : Channel} {d : Directory} (h : ch.dir = some d) : ch.inFinal =
    { ch with finalPass := true, buffer := ch.buffer.filter fun b => inFinalPass d ch.ord b.ord } := by
  rw [Channel.inFinal, h]

theorem enterFinalPass_none (h : (s.chan c).dir = none) :
    s.enterFinalPass c = s.withChan c (s.chan c).inFinal := by
  rw [inFinal_none h, State.enterFinalPass]
  dsimp only
  rw [h]

/-- With a known directory entry the owed fetches of a later pass go too. -/
theorem enterFinalPass_some {d : Directory} (h : (s.chan c).dir = some d) : s.enterFinalPass c =
    { s.withChan c (s.chan c).inFinal with
      motion.owed := cancelFetches (Fetch.keptInFinal c d (s.chan c).ord) s.motion.owed } := by
  rw [inFinal_some h, State.enterFinalPass]
  dsimp only
  rw [h]

theorem enterFinalPass_eq (s : State) (c : Fin 4) : ∃ o, s.enterFinalPass c =
    { s.withChan c (s.chan c).inFinal with motion.owed := o } := by
  cases h : (s.chan c).dir with
  | none => exact ⟨s.motion.owed, enterFinalPass_none h⟩
  | some d => exact ⟨_, enterFinalPass_some h⟩

theorem lossAct_cases (s : State) (c : Fin 4) (k : ChannelSettings) :
    Changed (s.withChan c ((s.chan c).lossDone k)) (s.lossAct c k) ∨
      CameToRest (s.withChan c ((s.chan c).lossDone k)) (s.lossAct c k) := by
  have left_alone : Changed (s.withChan c (s.chan c)) s := by
    rw [withChan_self]
    exact ⟨rfl, rfl, fun _ => rfl⟩
  unfold State.lossAct Channel.lossDone
  cases hst : (s.chan c).state <;> dsimp only
  case moving =>
    split
    · obtain ⟨o, e⟩ := enterFinalPass_eq s c
      rw [e]
      exact .inl ⟨rfl, rfl, fun _ => rfl⟩
    · unfold State.enterStopping
      rw [hst]
      exact (changeChan_cases (s.cancelOwed c) c _).imp (·.base rfl rfl rfl) (·.base rfl rfl rfl)
  case homing =>
    split
    · exact .inl left_alone
    · unfold State.abandonSearch
      rw [hst]
      exact changeChan_cases s c _
  all_goals exact .inl left_alone

/-- An enabled channel empties its slot, and acts. -/
theorem lossChannel_act {k : ChannelSettings} (hh : (s.chan c).held = .copy k) (he : k.enabled = true) :
    s.lossChannel c = (s.withChan c { s.chan c with slot := none }).lossAct c k := by
  rw [State.lossChannel, hh]
  exact if_pos he

/-- What a loss action leaves: the channel's own record changed, and a rest that it may bring. -/
theorem lossChannel_cases (s : State) (c : Fin 4) :
    Changed (s.withChan c (s.chan c).afterLoss) (s.lossChannel c) ∨
      CameToRest (s.withChan c (s.chan c).afterLoss) (s.lossChannel c) := by
  have untouched : (s.chan c).afterLoss = s.chan c → Changed (s.withChan c (s.chan c).afterLoss) s := fun h => by
    rw [h, withChan_self]
    exact ⟨rfl, rfl, fun _ => rfl⟩
  cases hh : (s.chan c).held with
  | absent =>
    have skip : s.lossChannel c = s := by simp only [State.lossChannel, hh]
    rw [skip]
    exact .inl (untouched (by simp only [Channel.afterLoss, hh]))
  | damaged =>
    have skip : s.lossChannel c = s := by simp only [State.lossChannel, hh]
    rw [skip]
    exact .inl (untouched (by simp only [Channel.afterLoss, hh]))
  | copy k =>
    cases hk : k.enabled
    · have skip : s.lossChannel c = s := by simp only [State.lossChannel, hh, hk, Bool.false_eq_true, if_false]
      rw [skip]
      exact .inl (untouched (by simp only [Channel.afterLoss, hh, hk, Bool.false_eq_true, if_false]))
    · have done : (s.chan c).afterLoss = { s.chan c with slot := none }.lossDone k := by
        simp only [Channel.afterLoss, hh, hk, if_true]
      have cases_ := lossAct_cases (s.withChan c { s.chan c with slot := none }) c k
      rw [chan_withChan, if_pos rfl, withChan_withChan] at cases_
      rw [lossChannel_act hh hk, done]
      exact cases_

/-! ## The loss actions of all channels -/

/-- The loss actions of the channels `l`, none of which brings the node to rest. -/
structure Acted (l : List (Fin 4)) (s t : State) : Prop where
  node   : t.mode.node = s.mode.node
  effect : t.effect = s.effect
  chan   : ∀ c, t.chan c = if c ∈ l then (s.chan c).afterLoss else s.chan c

/-- The loss actions of the channels `l`, among which the CLOSING node comes to rest: each channel enters RESTING after
its loss action, or, at rest all along, before it. -/
structure ActedToRest (l : List (Fin 4)) (s t : State) : Prop where
  closing : s.mode.node = .closing
  dormant : t.mode.node = .dormant
  out     : ∀ o, t.out o = (s.out o).rested
  chan    : ∀ c, (∃ y, y = (if c ∈ l then (s.chan c).afterLoss else s.chan c) ∧ y.state.inMotion = false ∧
      t.chan c = y.enterResting) ∨
    (c ∈ l ∧ (s.chan c).state.inMotion = false ∧ t.chan c = (s.chan c).enterResting.afterLoss)

theorem Acted.cons {l : List (Fin 4)} {t u : State} (hc : c ∉ l)
    (h : Changed (s.withChan c (s.chan c).afterLoss) t) (k : Acted l t u) : Acted (c :: l) s u := by
  refine ⟨k.node.trans h.node, k.effect.trans h.effect, fun d => ?_⟩
  rw [k.chan, h.chan, chan_withChan]
  by_cases hd : d = c
  · simp [hd, hc]
  · simp [hd]

theorem Acted.cons_rest {l : List (Fin 4)} {t u : State} (hc : c ∉ l)
    (h : Changed (s.withChan c (s.chan c).afterLoss) t) (k : ActedToRest l t u) : ActedToRest (c :: l) s u := by
  refine ⟨h.node.symm.trans k.closing, k.dormant, fun o => (k.out o).trans ?_, fun d => ?_⟩
  · rw [State.out, h.effect]
    rfl
  · have chan := k.chan d
    rw [h.chan, chan_withChan] at chan
    by_cases hd : d = c
    · subst hd
      simp only [hc, if_true, if_false, false_and, or_false] at chan
      obtain ⟨y, rfl, still, rest⟩ := chan
      exact .inl ⟨_, by rw [if_pos (List.mem_cons_self ..)], still, rest⟩
    · simpa [hd] using chan

theorem ActedToRest.cons {l : List (Fin 4)} {t u : State} (hc : c ∉ l)
    (h : CameToRest (s.withChan c (s.chan c).afterLoss) t) (k : Acted l t u) : ActedToRest (c :: l) s u := by
  refine ⟨h.closing, k.node.trans h.dormant, fun o => ?_, fun d => ?_⟩
  · rw [State.out, k.effect]
    exact h.out o
  · have still := h.still d
    have chan := k.chan d
    rw [h.chan, chan_withChan] at chan
    rw [chan_withChan] at still
    by_cases hd : d = c
    · rw [if_pos hd] at chan still
      rw [if_neg (hd ▸ hc)] at chan
      subst hd
      exact .inl ⟨_, by rw [if_pos (List.mem_cons_self ..)], still, chan⟩
    · rw [if_neg hd] at chan still
      by_cases hl : d ∈ l
      · rw [if_pos hl] at chan
        exact .inr ⟨List.mem_cons_of_mem _ hl, still, chan⟩
      · rw [if_neg hl] at chan
        exact .inl ⟨_, by rw [if_neg (by simp [hd, hl])], still, chan⟩

/-- The loss actions of distinct channels, one after another. -/
theorem lossChannels_cases {l : List (Fin 4)} (hl : l.Nodup) (s : State) :
    Acted l s (l.foldl State.lossChannel s) ∨ ActedToRest l s (l.foldl State.lossChannel s) := by
  induction l generalizing s with
  | nil => exact .inl ⟨rfl, rfl, fun c => by simp⟩
  | cons c l ih =>
    obtain ⟨hc, hl⟩ := List.nodup_cons.mp hl
    rcases lossChannel_cases s c with h | h
    · exact (ih hl (s.lossChannel c)).imp (Acted.cons hc h) (Acted.cons_rest hc h)
    · rcases ih hl (s.lossChannel c) with k | k
      · exact .inr (ActedToRest.cons hc h k)
      · exact absurd (h.dormant.symm.trans k.closing) (by decide)

/-! ## What the loss action leaves of one channel -/

theorem afterLoss_copy {ch : Channel} {k : ChannelSettings} (hh : ch.held = .copy k) (he : k.enabled = true) :
    ch.afterLoss = { ch with slot := none }.lossDone k := by
  simp only [Channel.afterLoss, hh, he, if_true]

theorem enabled_copy {ch : Channel} (h : ch.enabled = true) : ∃ k, ch.held = .copy k ∧ k.enabled = true := by
  unfold Channel.enabled at h
  cases hh : ch.held with
  | copy k => exact ⟨k, rfl, by simpa only [hh] using h⟩
  | absent => simp only [hh] at h; cases h
  | damaged => simp only [hh] at h; cases h

section Own
variable {ch : Channel} {k : ChannelSettings}

theorem afterLoss_stop (hh : ch.held = .copy k) (he : k.enabled = true) (ha : ch.aside = none)
    (hs : ch.state = .moving) (hf : k.lossFinish = false) :
    ch.afterLoss = { ch with slot := none }.stopWith .stopped := by
  rw [afterLoss_copy hh he]
  simp only [Channel.lossDone, hs, hf, Bool.false_eq_true, if_false]
  exact takeAside_id _ (.inr ha)

theorem afterLoss_finish (hh : ch.held = .copy k) (he : k.enabled = true)
    (hs : ch.state = .moving) (hf : k.lossFinish = true) : ch.afterLoss = { ch with slot := none }.inFinal := by
  rw [afterLoss_copy hh he]
  simp only [Channel.lossDone, hs, hf, if_true]

theorem afterLoss_abandon (hh : ch.held = .copy k) (he : k.enabled = true) (ha : ch.aside = none)
    (hs : ch.state = .homing) (hf : k.lossFinish = false) :
    ch.afterLoss = { ch.halt with state := .unhomed, slot := none } := by
  rw [afterLoss_copy hh he]
  simp only [Channel.lossDone, hs, hf, Bool.false_eq_true, if_false]
  exact takeAside_id _ (.inr ha)

theorem afterLoss_search (hh : ch.held = .copy k) (he : k.enabled = true)
    (hs : ch.state = .homing) (hf : k.lossFinish = true) : ch.afterLoss = { ch with slot := none } := by
  rw [afterLoss_copy hh he]
  simp only [Channel.lossDone, hs, hf, if_true]

theorem inFinal_kept (ch : Channel) : ch.inFinal.slot = ch.slot ∧ ch.inFinal.aside = ch.aside ∧
    ch.inFinal.state = ch.state := by
  unfold Channel.inFinal
  split <;> exact ⟨rfl, rfl, rfl⟩

/-- An enabled channel with no copy aside has no pending start after its loss action. -/
theorem afterLoss_slot (he : ch.enabled = true) (ha : ch.aside = none) :
    ch.afterLoss.slot = none ∧ ch.afterLoss.aside = none := by
  obtain ⟨k, hh, hk⟩ := enabled_copy he
  by_cases other : ch.state = .moving ∨ ch.state = .homing
  · rcases other with hs | hs <;> cases hf : k.lossFinish
    · rw [afterLoss_stop hh hk ha hs hf]
      exact ⟨rfl, ha⟩
    · rw [afterLoss_finish hh hk hs hf]
      exact ⟨(inFinal_kept _).1, (inFinal_kept _).2.1.trans ha⟩
    · rw [afterLoss_abandon hh hk ha hs hf]
      exact ⟨rfl, ha⟩
    · rw [afterLoss_search hh hk hs hf]
      exact ⟨rfl, ha⟩
  · rw [afterLoss_copy hh hk]
    unfold Channel.lossDone
    cases hs : ch.state <;> simp_all

end Own

end Loss

end Sys2Proof.Machine
end

