-- ==== Sys2Proof/Proofs/LossOutcome.lean ====
section
/-! PROOF. The line-loss expiry as a whole: the owed fetches (R115), the safe levels (R131), and the node it leaves
(R21, R27, R104). -/
namespace Sys2Proof.Machine

/-! ## Owed fetches (R115, R116) -/

section Owed
variable {keep : Fetch → Bool} {fs : List Fetch} {f : Fetch}

/-- A fetch kept stays owed. -/
theorem mem_cancelFetches_kept (hf : f ∈ fs) (hk : keep f = true) : f ∈ cancelFetches keep fs := by
  cases fs with
  | nil => cases hf
  | cons g rest =>
    rcases List.mem_cons.mp hf with rfl | hf
    · simp [cancelFetches, hk]
    · exact List.mem_cons_of_mem _ (List.mem_filter.mpr ⟨hf, hk⟩)

/-- A fetch still owed was owed before, and is cancelled if it was not kept. -/
theorem of_mem_cancelFetches (hf : f ∈ cancelFetches keep fs) :
    ∃ g ∈ fs, f.chan = g.chan ∧ f.item = g.item ∧ (g.cancelled = true ∨ keep g = false → f.cancelled = true) := by
  cases fs with
  | nil => cases hf
  | cons g rest =>
    rcases List.mem_cons.mp hf with e | hf
    · refine ⟨g, List.mem_cons_self .., ?_⟩
      rw [e]
      cases hk : keep g
      · exact ⟨rfl, rfl, fun _ => rfl⟩
      · exact ⟨rfl, rfl, fun h => h.resolve_right (by decide)⟩
    · obtain ⟨hr, hk⟩ := List.mem_filter.mp hf
      exact ⟨f, List.mem_cons_of_mem _ hr, rfl, rfl, fun h => h.resolve_right (by simp [hk])⟩

end Owed

/-- No segment fetch of channel `c` from place `last` on is owed that is not cancelled. -/
def Trimmed (c : Fin 4) (last : Nat) (fs : List Fetch) : Prop :=
  ∀ f o base, f ∈ fs → f.chan = c → f.item = .segment o base → f.cancelled = true ∨ o < last

section LossOwed
variable {s : State} {c d : Fin 4} {last : Nat} {fs gs : List Fetch}

/-- The owed fetches of every channel but `c` stand. -/
def SparesOthers (c : Fin 4) (fs gs : List Fetch) : Prop :=
  gs = fs ∨ ∃ keep : Fetch → Bool, (∀ f, f.chan ≠ c → keep f = true) ∧ gs = cancelFetches keep fs

theorem SparesOthers.trimmed (h : SparesOthers c fs gs) (ht : Trimmed d last fs) : Trimmed d last gs := by
  rcases h with rfl | ⟨keep, -, rfl⟩
  · exact ht
  · intro f o base hf hc hi
    obtain ⟨g, hg, chan, item, cancelled⟩ := of_mem_cancelFetches hf
    exact (ht g o base hg (chan ▸ hc) (item ▸ hi)).imp (fun k => cancelled (.inl k)) id

theorem SparesOthers.mem (h : SparesOthers c fs gs) {f : Fetch} (hf : f ∈ fs) (hc : f.chan ≠ c) : f ∈ gs := by
  rcases h with rfl | ⟨keep, spares, rfl⟩
  · exact hf
  · exact mem_cancelFetches_kept hf (spares f hc)

theorem keptInFinal_other {e : Directory} {n : Nat} {f : Fetch} (h : f.chan ≠ c) :
    Fetch.keptInFinal c e n f = true := by simp [Fetch.keptInFinal, h]

theorem keptInFinal_segment {e : Directory} {n o base : Nat} {f : Fetch} (hc : f.chan = c)
    (hi : f.item = .segment o base) :
    Fetch.keptInFinal c e n f = decide (o < e.count * (n / e.count + 1)) := by
  simp [Fetch.keptInFinal, hc, hi, inFinalPass]

/-- A loss action changes the owed fetches of its channel, and what is told of the channel. -/
theorem lossChannel_told (s : State) (c : Fin 4) : ∃ o, Told { s with motion.owed := o } (s.lossChannel c) ∧
    SparesOthers c s.motion.owed o := by
  have same : ∀ a : State, Told s a → ∃ o, Told { s with motion.owed := o } a ∧ SparesOthers c s.motion.owed o :=
    fun a h => ⟨s.motion.owed, h, .inl rfl⟩
  have act : ∀ k, ∃ o, Told { s with motion.owed := o }
      ((s.withChan c { s.chan c with slot := none }).lossAct c k) ∧ SparesOthers c s.motion.owed o := by
    intro k
    unfold State.lossAct
    split
    · split
      · cases h : ((s.withChan c { s.chan c with slot := none }).chan c).dir with
        | none =>
          rw [enterFinalPass_none h]
          exact same _ rfl
        | some e =>
          rw [enterFinalPass_some h]
          exact ⟨_, rfl, .inr ⟨_, fun f => keptInFinal_other, rfl⟩⟩
      · unfold State.enterStopping
        split
        · exact ⟨_, told_changeChan ((s.withChan c { s.chan c with slot := none }).cancelOwed c) c _,
            .inr ⟨_, fun f hf => by simpa using hf, rfl⟩⟩
        · exact same _ rfl
    · split
      · exact same _ rfl
      · unfold State.abandonSearch
        split
        · exact same _ ((told_withChan s c _).trans (told_changeChan _ c _))
        · exact same _ rfl
    · exact same _ rfl
  unfold State.lossChannel
  split
  · split
    · exact act _
    · exact same s (.refl s)
  · exact same s (.refl s)
  · exact same s (.refl s)

/-- The loss actions change owed fetches, and what is told of channels. -/
theorem lossChannels_told (l : List (Fin 4)) (s : State) : ∃ o, Told { s with motion.owed := o }
    (l.foldl State.lossChannel s) := by
  induction l generalizing s with
  | nil => exact ⟨_, .refl s⟩
  | cons c l ih =>
    obtain ⟨o, told, -⟩ := lossChannel_told s c
    obtain ⟨o', told'⟩ := ih (s.lossChannel c)
    refine ⟨o', Told.trans ?_ told'⟩
    unfold Told at told ⊢
    have e := congrArg (fun x : State => { x with motion.owed := o' }) told
    exact e

/-- The loss actions of other channels keep what channel `d` is owed trimmed, and its fetches owed. -/
theorem lossChannels_owed {l : List (Fin 4)} (hd : d ∉ l) (s : State) :
    (Trimmed d last s.motion.owed → Trimmed d last (l.foldl State.lossChannel s).motion.owed) ∧
      ∀ f ∈ s.motion.owed, f.chan = d → f ∈ (l.foldl State.lossChannel s).motion.owed := by
  induction l generalizing s with
  | nil => exact ⟨id, fun f hf _ => hf⟩
  | cons c l ih =>
    obtain ⟨hc, hl⟩ : d ≠ c ∧ d ∉ l := by simpa using hd
    obtain ⟨o, told, spares⟩ := lossChannel_told s c
    have owed : (s.lossChannel c).motion.owed = o := told.owed
    rw [← owed] at spares
    obtain ⟨trimmed, kept⟩ := ih hl (s.lossChannel c)
    exact ⟨fun h => trimmed (spares.trimmed h),
      fun f hf hfd => kept f (spares.mem hf (hfd ▸ hc)) hfd⟩

/-- A channel in motion is as it was until its own loss action. -/
theorem lossChannels_chan {l : List (Fin 4)} (hl : l.Nodup) (hd : d ∉ l)
    (hm : (s.chan d).state.inMotion = true) : (l.foldl State.lossChannel s).chan d = s.chan d := by
  rcases lossChannels_cases hl s with h | h
  · rw [h.chan, if_neg hd]
  · rcases h.chan d with ⟨y, rfl, still, -⟩ | ⟨-, still, -⟩
    · rw [if_neg hd, hm] at still
      cases still
    · rw [hm] at still
      cases still

theorem lossChannel_finish {k : ChannelSettings} {e : Directory} (hh : (s.chan c).held = .copy k)
    (he : k.enabled = true) (hs : (s.chan c).state = .moving) (hf : k.lossFinish = true)
    (hd : (s.chan c).dir = some e) : (s.lossChannel c).motion.owed =
      cancelFetches (Fetch.keptInFinal c e (s.chan c).ord) s.motion.owed := by
  have chan : (s.withChan c { s.chan c with slot := none }).chan c = { s.chan c with slot := none } := by
    rw [chan_withChan, if_pos rfl]
  have finish : (s.withChan c { s.chan c with slot := none }).lossAct c k =
      (s.withChan c { s.chan c with slot := none }).enterFinalPass c := by
    rw [State.lossAct, chan]
    dsimp only
    rw [hs]
    exact if_pos hf
  rw [lossChannel_act hh he, finish, enterFinalPass_some (d := e) (by rw [chan]; exact hd), chan]
  rfl

/-- FINISH: the owed fetches of the channel of a later pass are cancelled, those of the final pass owed still. -/
theorem lossChannels_finish {k : ChannelSettings} {e : Directory} (hh : (s.chan c).held = .copy k)
    (he : k.enabled = true) (hs : (s.chan c).state = .moving) (hf : k.lossFinish = true)
    (hd : (s.chan c).dir = some e) (hl : last = e.count * ((s.chan c).ord / e.count + 1)) :
    Trimmed c last (four.foldl State.lossChannel s).motion.owed ∧
      ∀ f o base, f ∈ s.motion.owed → f.chan = c → f.item = .segment o base → o < last →
        f ∈ (four.foldl State.lossChannel s).motion.owed := by
  obtain ⟨pre, post, split⟩ := List.append_of_mem (mem_four c)
  have distinct : (pre ++ c :: post).Nodup := split ▸ four_rising.imp ne_of_lt
  have hpre : c ∉ pre := fun h => (List.nodup_append.mp distinct).2.2 c h c (List.mem_cons_self ..) rfl
  have hpost : c ∉ post := (List.nodup_cons.mp (List.nodup_append.mp distinct).2.1).1
  have chan := lossChannels_chan (List.nodup_append.mp distinct).1 hpre (s := s) (by rw [hs]; rfl)
  obtain ⟨-, kept⟩ := lossChannels_owed (last := last) hpre s
  obtain ⟨trimmed, kept'⟩ := lossChannels_owed (last := last) hpost ((pre.foldl State.lossChannel s).lossChannel c)
  have owed := lossChannel_finish (s := pre.foldl State.lossChannel s) (by rw [chan]; exact hh) he
    (by rw [chan]; exact hs) hf (by rw [chan]; exact hd)
  rw [chan] at owed
  rw [split, List.foldl_append, List.foldl_cons]
  refine ⟨trimmed ?_, fun f o base hm hc hi ho => kept' f ?_ hc⟩
  · intro f o base hm hc hi
    rw [owed] at hm
    obtain ⟨g, -, chan, item, cancelled⟩ := of_mem_cancelFetches hm
    by_cases ho : o < last
    · exact .inr ho
    · refine .inl (cancelled (.inr ?_))
      rw [keptInFinal_segment (chan ▸ hc) (item ▸ hi), ← hl, decide_eq_false ho]
  · rw [owed]
    refine mem_cancelFetches_kept (kept f hm hc) ?_
    rw [keptInFinal_segment hc hi, ← hl, decide_eq_true ho]

end LossOwed

/-! ## The safe levels (R131) -/

section Safe
variable {s : State} {o : Fin 8}

/-- Where an output goes to its safe level. -/
def State.safeFade (s : State) (o : Fin 8) : Effect :=
  (s.out o).beginFade (s.joined o) (s.deadInterval (pairOf o)) (clampTarget (s.joined o) (s.safeLevel o)) 0

theorem beginFade_held (e : Effect) (pair : Bool) (i : Nat) (t : Int) (f : Nat) :
    (e.beginFade pair i t f).held = e.held := by
  unfold Effect.beginFade Effect.setFine
  dsimp only
  split_ifs <;> rfl

theorem takeSafe_eq (s : State) (o : Fin 8) : s.takeSafe o =
    if s.base o = o then s.withOut o (s.safeFade o) else s := by
  unfold State.takeSafe
  split
  · rename_i h
    rw [State.beginEffect, h]
    rfl
  · rfl

/-- The safe level of one output leaves what the others rest on. -/
theorem takeSafe_joined (s : State) (o p : Fin 8) : (s.takeSafe o).joined p = s.joined p := by
  rw [takeSafe_eq]
  split <;> rfl

theorem takeSafe_base (s : State) (o p : Fin 8) : (s.takeSafe o).base p = s.base p := by
  rw [State.base, takeSafe_joined, State.base]

theorem takeSafe_held (s : State) (o p : Fin 8) : ((s.takeSafe o).out p).held = (s.out p).held := by
  rw [takeSafe_eq]
  split
  · rw [out_withOut]
    split
    · rename_i h
      rw [h]
      exact beginFade_held ..
    · rfl
  · rfl

theorem takeSafe_out (s : State) {o p : Fin 8} (h : p ≠ o) : (s.takeSafe o).out p = s.out p := by
  rw [takeSafe_eq]
  split
  · rw [out_withOut, if_neg h]
  · rfl

theorem takeSafe_safeFade (s : State) {o p : Fin 8} (h : p ≠ o) : (s.takeSafe o).safeFade p = s.safeFade p := by
  have dead : ∀ k, (s.takeSafe o).deadInterval k = s.deadInterval k := fun k => by
    rw [State.deadInterval, takeSafe_held, State.deadInterval]
  have level : (s.takeSafe o).safeLevel p = s.safeLevel p := by
    rw [State.safeLevel, takeSafe_held, State.safeLevel]
  rw [State.safeFade, takeSafe_out s h, takeSafe_joined, dead, level, State.safeFade]

/-- Outputs taken one after another. -/
theorem takeSafes_out {l : List (Fin 8)} (hl : l.Nodup) (s : State) (p : Fin 8) : (l.foldl State.takeSafe s).out p =
    if p ∈ l ∧ s.base p = p then s.safeFade p else s.out p := by
  induction l generalizing s with
  | nil => simp
  | cons o l ih =>
    obtain ⟨ho, hl⟩ := List.nodup_cons.mp hl
    rw [List.foldl_cons, ih hl, takeSafe_base]
    by_cases hp : p = o
    · subst hp
      rw [if_neg (fun h => ho h.1), takeSafe_eq]
      by_cases hb : s.base p = p
      · rw [if_pos hb, if_pos ⟨List.mem_cons_self .., hb⟩, out_withOut, if_pos rfl]
      · rw [if_neg hb, if_neg (fun h => hb h.2)]
    · rw [takeSafe_safeFade s hp, takeSafe_out s hp]
      simp [hp]

theorem safeLevels_out (hn : s.mode.node ≠ .dormant) (hb : s.base o = o) : s.safeLevels.out o = s.safeFade o := by
  rw [State.safeLevels, if_neg hn, takeSafes_out (eight_rising.imp ne_of_lt), if_pos ⟨mem_eight o, hb⟩]

/-- The safe levels change the outputs alone. -/
theorem safeLevels_eq (s : State) : ∃ v, s.safeLevels = { s with effect.outputs := v } := by
  have fold : ∀ (l : List (Fin 8)) (s : State), ∃ v, l.foldl State.takeSafe s = { s with effect.outputs := v } := by
    intro l
    induction l with
    | nil => exact fun s => ⟨_, rfl⟩
    | cons o l ih =>
      intro s
      obtain ⟨v, e⟩ := ih (s.takeSafe o)
      refine ⟨v, e.trans ?_⟩
      rw [takeSafe_eq]
      split <;> rfl
  unfold State.safeLevels
  split
  · exact ⟨_, rfl⟩
  · exact fold eight s

/-- An unpaired output is at its level at once. -/
theorem beginFade_single (e : Effect) (i : Nat) (t : Int) : (e.beginFade false i t 0).target = t ∧
    (e.beginFade false i t 0).fine = t * 256 ∧ (e.beginFade false i t 0).running = false := by
  unfold Effect.beginFade
  by_cases h : (t * 256 - e.fine).natAbs = 0
  · rw [if_pos h]
    exact ⟨rfl, by show e.fine = _; omega, rfl⟩
  · simp [h, Effect.setFine]

theorem beginFade_target (e : Effect) (pair : Bool) (i : Nat) (t : Int) (f : Nat) :
    (e.beginFade pair i t f).target = t := by
  unfold Effect.beginFade Effect.setFine
  dsimp only
  split_ifs <;> rfl

/-- A pair on the target's side of 0, its dead timer 0, is at its level at once. -/
theorem beginFade_side {e : Effect} {i : Nat} {t : Int} (hd : e.dead = 0) (h : 0 ≤ e.fine * t) :
    (e.beginFade true i t 0).fine = t * 256 ∧ (e.beginFade true i t 0).running = false := by
  have side : oppositeSigns e.fine t = false := by
    unfold oppositeSigns
    simp
    constructor
    · intro h1
      by_contra h2
      nlinarith
    · intro h1
      by_contra h2
      nlinarith
  unfold Effect.beginFade
  by_cases h0 : (t * 256 - e.fine).natAbs = 0
  · rw [if_pos h0]
    exact ⟨by show e.fine = _; omega, rfl⟩
  · simp [h0, hd, side, Effect.setFine]

/-- A pair on the other side of 0 stops there, and waits out its dead interval. -/
theorem beginFade_cross {e : Effect} {i : Nat} {t : Int} (hd : e.dead = 0) (h : e.fine * t < 0) :
    (e.beginFade true i t 0).fine = 0 ∧ (e.beginFade true i t 0).dead = i ∧
      (e.beginFade true i t 0).running = true := by
  have cross : oppositeSigns e.fine t = true := by
    unfold oppositeSigns
    rcases mul_neg_iff.mp h with ⟨h1, h2⟩ | ⟨h1, h2⟩ <;> simp [h1, h2]
  have moves : (t * 256 - e.fine).natAbs ≠ 0 := by
    rcases mul_neg_iff.mp h with ⟨h1, h2⟩ | ⟨h1, h2⟩ <;> omega
  have nonzero : e.fine ≠ 0 := by
    rcases mul_neg_iff.mp h with ⟨h1, h2⟩ | ⟨h1, h2⟩ <;> omega
  unfold Effect.beginFade
  simp [moves, hd, cross, nonzero, Effect.setFine]

/-- A pair in its dead interval waits. -/
theorem beginFade_waits {e : Effect} {i : Nat} {t : Int} (hd : 0 < e.dead) (h : t * 256 ≠ e.fine) :
    e.beginFade true i t 0 = { e with target := t, remaining := 0, running := true } := by
  have moves : (t * 256 - e.fine).natAbs ≠ 0 := by omega
  unfold Effect.beginFade
  simp [moves, hd]

end Safe

/-! ## The expiry -/

section Expiry
variable {s : State} {c : Fin 4}

/-- LINE-LOST set, and the read of local-play asked for (R21, R27). -/
def State.lossTold (s : State) : State :=
  ({ s with ring.lossTimer := none, mode.lineLost := true, mode.localPlay := none }).askLocalPlay

/-- The node after the loss actions of every channel (R104). -/
def State.lossActed (s : State) : State := four.foldl State.lossChannel s.lossTold

/-- The arbiter free to grant, the safe levels taken and the lamps computed anew (R131). -/
def State.safed (s : State) : State := s.arbitrate.safeLevels.allLamps

theorem setLineLost_eq (s : State) : s.setLineLost = s.lossActed.safed.raise .lineLost 0 := rfl

theorem lossTold_eq (s : State) : ∃ m : TableMemory, s.lossTold =
    { s with ring.lossTimer := none, mode.lineLost := true, mode.localPlay := none, mem := m } ∧
    m.words = s.mem.words ∧
    m.path = (({ s with mem.owed := s.mem.owed ++ [Job.mk .mode 0] }).ask).mem.path ∧
    m.owed = (({ s with mem.owed := s.mem.owed ++ [Job.mk .mode 0] }).ask).mem.owed := by
  have congr := ask_congr (s := { s with mem.owed := s.mem.owed ++ [Job.mk .mode 0] })
    (t := { s with ring.lossTimer := none, mode.lineLost := true, mode.localPlay := none
                   mem.owed := s.mem.owed ++ [Job.mk .mode 0] }) ⟨rfl, rfl⟩
  obtain ⟨p, o, e⟩ := ask_eq { s with
    ring.lossTimer := none, mode.lineLost := true, mode.localPlay := none
    mem.owed := s.mem.owed ++ [Job.mk .mode 0] }
  obtain ⟨a, q, w, e'⟩ := arbitrate_eq ({ s with
    ring.lossTimer := none, mode.lineLost := true, mode.localPlay := none
    mem.owed := s.mem.owed ++ [Job.mk .mode 0] }).ask
  rw [e] at congr
  refine ⟨{ s.mem with path := p, owed := o, access := a, passOver := q, scrubWaiting := w }, ?_, rfl, congr⟩
  refine e'.trans ?_
  rw [e]

theorem lossTold_chan (s : State) (c : Fin 4) : s.lossTold.chan c = s.chan c := by
  obtain ⟨m, e, -⟩ := lossTold_eq s
  rw [e]
  rfl

theorem lossTold_effect (s : State) : s.lossTold.effect = s.effect := by
  obtain ⟨m, e, -⟩ := lossTold_eq s
  rw [e]

theorem lossTold_node (s : State) : s.lossTold.mode.node = s.mode.node := by
  obtain ⟨m, e, -⟩ := lossTold_eq s
  rw [e]

theorem lossTold_owed (s : State) : s.lossTold.motion.owed = s.motion.owed := by
  obtain ⟨m, e, -⟩ := lossTold_eq s
  rw [e]

/-- The safe levels change the outputs, the arbiter and the lamps alone. -/
theorem safed_eq (s : State) : ∃ a p w v, s.safed = ({ s with
    mem := { s.mem with access := a, passOver := p, scrubWaiting := w }, effect.outputs := v }).allLamps := by
  obtain ⟨a, p, w, e⟩ := arbitrate_eq s
  obtain ⟨v, e'⟩ := safeLevels_eq s.arbitrate
  refine ⟨a, p, w, v, ?_⟩
  rw [State.safed, e', e]

theorem safed_chan (s : State) (c : Fin 4) : s.safed.chan c = s.chan c := by
  obtain ⟨a, p, w, v, e⟩ := safed_eq s
  rw [e]
  rfl

theorem safed_mode (s : State) : s.safed.mode = s.mode := by
  obtain ⟨a, p, w, v, e⟩ := safed_eq s
  rw [e]
  rfl

theorem safed_owed (s : State) : s.safed.motion.owed = s.motion.owed := by
  obtain ⟨a, p, w, v, e⟩ := safed_eq s
  rw [e]
  rfl

/-- In a DORMANT node no output takes its safe level. -/
theorem safed_dormant (h : s.mode.node = .dormant) : s.safed.effect = s.effect := by
  obtain ⟨a, p, w, e⟩ := arbitrate_eq s
  rw [State.safed, e, State.safeLevels, if_pos h]
  rfl

/-- In any other node an output with a record of its own takes its safe level. -/
theorem safed_out {o : Fin 8} (h : s.mode.node ≠ .dormant) (hb : s.base o = o) : s.safed.out o = s.safeFade o := by
  obtain ⟨a, p, w, e⟩ := arbitrate_eq s
  have out := safeLevels_out (s := s.arbitrate) (o := o) (by rw [e]; exact h) (by rw [e]; exact hb)
  refine Eq.trans out ?_
  rw [e]
  rfl

theorem sent_mem {t : State} (h : Sent s t) (m : TableMemory) : Sent { s with mem := m } { t with mem := m } := by
  have := congrArg (fun x : State => { x with mem := m }) h
  exact this

theorem sent_outputs (s : State) (v : Vector Effect 8) : Sent s { s with effect.outputs := v } := rfl

/-- The arbiter and the safe levels change nothing of the ring port, nor what else `Sent` keeps. -/
theorem sent_safed {t : State} (h : Sent t s) : ∃ a p w, Sent
    { t with mem := { s.mem with access := a, passOver := p, scrubWaiting := w } } s.safed := by
  obtain ⟨a, p, w, v, e⟩ := safed_eq s
  rw [e]
  exact ⟨a, p, w, ((sent_mem h _).trans (sent_outputs _ v)).trans (told_allLamps _).sent⟩

/-- What the expiry leaves alone. -/
theorem setLineLost_sent (s : State) : ∃ (m : TableMemory) (o : List Fetch), Sent { s with
    ring.lossTimer := none, mode.lineLost := true, mode.localPlay := none, mem := m, motion.owed := o } s.setLineLost ∧
    m.words = s.mem.words ∧
    m.path = (({ s with mem.owed := s.mem.owed ++ [Job.mk .mode 0] }).ask).mem.path ∧
    m.owed = (({ s with mem.owed := s.mem.owed ++ [Job.mk .mode 0] }).ask).mem.owed := by
  obtain ⟨m, told, words, path, owed⟩ := lossTold_eq s
  obtain ⟨o, acted⟩ := lossChannels_told four s.lossTold
  change Told _ s.lossActed at acted
  rw [told] at acted
  obtain ⟨a, p, w, safe⟩ := sent_safed acted.sent
  have mem : s.lossActed.mem = m := acted.mem
  rw [mem] at safe
  refine ⟨{ m with access := a, passOver := p, scrubWaiting := w }, o, ?_, words, path, owed⟩
  rw [setLineLost_eq]
  exact safe.trans (sent_raiseWith _ _ _ _ _)

/-- A channel that is not HALTED or in FAULT is as the loss actions left it. -/
theorem setLineLost_chan (h : (s.lossActed.chan c).state ≠ .halted) (h' : (s.lossActed.chan c).state ≠ .fault) :
    s.setLineLost.chan c = s.lossActed.chan c := by
  rw [← safed_chan s.lossActed] at h h' ⊢
  exact (mild_raise (s := s.lossActed.safed) .lineLost 0).chans c h h'

/-- The pending starts stand as the loss actions left them. -/
theorem setLineLost_slot (h : (s.lossActed.chan c).aside = none) :
    (s.setLineLost.chan c).slot = (s.lossActed.chan c).slot := by
  rw [← safed_chan s.lossActed] at h ⊢
  exact (startKept_raise s.lossActed.safed .lineLost 0 c h).2

theorem setLineLost_mode (s : State) : s.setLineLost.mode = s.lossActed.mode := by
  rw [setLineLost_eq, (mild_raise .lineLost 0).mode, safed_mode]

theorem setLineLost_effect (s : State) : s.setLineLost.effect = s.lossActed.safed.effect := by
  rw [setLineLost_eq, (mild_raise .lineLost 0).effect]

theorem setLineLost_owed (s : State) : s.setLineLost.motion.owed = s.lossActed.motion.owed := by
  rw [setLineLost_eq, (mild_raise .lineLost 0).owed, safed_owed]

/-- The alert is in the table, or the overflow flag is set. -/
theorem setLineLost_found (s : State) :
    (s.setLineLost.findRecord .lineLost 0).isSome = true ∨ s.setLineLost.alert.overflow = true := by
  rw [setLineLost_eq, State.raise]
  exact raise_findRecord _ .lineLost 0 none none

theorem lossActed_acted (s : State) : Acted four s.lossTold s.lossActed ∨ ActedToRest four s.lossTold s.lossActed :=
  lossChannels_cases (four_rising.imp ne_of_lt) s.lossTold

/-- The loss actions of all four channels, with a rest among them or without. -/
theorem lossActed_cases (s : State) :
    (s.lossActed.mode.node = s.mode.node ∧ s.lossActed.effect = s.effect ∧
      ∀ c, s.lossActed.chan c = (s.chan c).afterLoss) ∨
    (s.mode.node = .closing ∧ s.lossActed.mode.node = .dormant ∧ (∀ o, s.lossActed.out o = (s.out o).rested) ∧
      ∀ c, ((s.chan c).afterLoss.state.inMotion = false ∧ s.lossActed.chan c = (s.chan c).afterLoss.enterResting) ∨
        ((s.chan c).state.inMotion = false ∧ s.lossActed.chan c = (s.chan c).enterResting.afterLoss)) := by
  have out : ∀ o, s.lossTold.out o = s.out o := fun o => by rw [State.out, lossTold_effect, State.out]
  rcases lossActed_acted s with ⟨node, effect, chan⟩ | h
  · refine .inl ⟨node.trans (lossTold_node s), effect.trans (lossTold_effect s), fun c => ?_⟩
    exact (chan c).trans ((if_pos (mem_four c)).trans (by rw [lossTold_chan]))
  · obtain ⟨closing, dormant, rested, chan⟩ := h
    refine .inr ⟨(lossTold_node s).symm.trans closing, dormant, fun o => (rested o).trans (by rw [out]), fun c => ?_⟩
    rcases chan c with ⟨y, rfl, still, rest⟩ | ⟨-, still, rest⟩
    · rw [if_pos (mem_four c), lossTold_chan] at still rest
      exact .inl ⟨still, rest⟩
    · rw [lossTold_chan] at still rest
      exact .inr ⟨still, rest⟩

/-- A channel in motion that its loss action leaves in motion does not rest. -/
theorem lossActed_inMotion (hm : (s.chan c).state.inMotion = true) (ha : (s.chan c).afterLoss.state.inMotion = true) :
    s.setLineLost.chan c = (s.chan c).afterLoss := by
  have acted : s.lossActed.chan c = (s.chan c).afterLoss := by
    rcases lossActed_cases s with ⟨-, -, chan⟩ | ⟨-, -, -, chan⟩
    · exact chan c
    · rcases chan c with ⟨still, -⟩ | ⟨still, -⟩
      · exact absurd (still.symm.trans ha) (by decide)
      · exact absurd (still.symm.trans hm) (by decide)
  rw [← acted] at ha ⊢
  refine setLineLost_chan ?_ ?_ <;>
    · intro h
      rw [h] at ha
      cases ha

/-- No enabled channel with no copy aside keeps a pending start. -/
theorem setLineLost_start (he : (s.chan c).enabled = true) (ha : (s.chan c).aside = none) :
    (s.setLineLost.chan c).slot = none := by
  obtain ⟨slot, aside⟩ := afterLoss_slot he ha
  have acted : (s.lossActed.chan c).slot = none ∧ (s.lossActed.chan c).aside = none := by
    rcases lossActed_cases s with ⟨-, -, chan⟩ | ⟨-, -, -, chan⟩
    · rw [chan]
      exact ⟨slot, aside⟩
    · rcases chan c with ⟨-, rest⟩ | ⟨-, rest⟩
      · rw [rest, enterResting_eq aside]
        exact ⟨slot, aside⟩
      · rw [rest, enterResting_eq ha]
        exact afterLoss_slot he ha
  rw [setLineLost_slot acted.2]
  exact acted.1

/-- A search given up: UNHOMED, or, where the node came to rest, RESTING from UNHOMED. -/
theorem setLineLost_abandoned {k : ChannelSettings} (hh : (s.chan c).held = .copy k) (he : k.enabled = true)
    (ha : (s.chan c).aside = none) (hs : (s.chan c).state = .homing) (hf : k.lossFinish = false) :
    (s.setLineLost.chan c).v = 0 ∧
      (s.setLineLost.mode.node ≠ .dormant ∨ s.mode.node = .dormant → (s.setLineLost.chan c).state = .unhomed) ∧
      (s.setLineLost.mode.node = .dormant → s.mode.node ≠ .dormant →
        (s.setLineLost.chan c).state = .resting ∧ (s.setLineLost.chan c).restState = some .unhomed) := by
  have own := afterLoss_abandon hh he ha hs hf
  have enabled : (s.chan c).enabled = true := by rw [Channel.enabled, hh]; exact he
  rw [setLineLost_mode]
  rcases lossActed_cases s with ⟨node, -, chan⟩ | ⟨closing, dormant, -, chan⟩
  · have acted := (chan c).trans own
    have unhomed : (s.lossActed.chan c).state = .unhomed := congrArg Channel.state acted
    rw [setLineLost_chan (by rw [unhomed]; decide) (by rw [unhomed]; decide), acted, node]
    exact ⟨rfl, fun _ => rfl, fun h h' => absurd h h'⟩
  · rcases chan c with ⟨-, rest⟩ | ⟨still, -⟩
    · rw [enterResting_eq (afterLoss_slot enabled ha).2, own] at rest
      have resting : (s.lossActed.chan c).state = .resting := congrArg Channel.state rest
      rw [setLineLost_chan (by rw [resting]; decide) (by rw [resting]; decide), rest, dormant, closing]
      exact ⟨rfl, fun h => absurd h (by decide), fun _ _ => ⟨rfl, rfl⟩⟩
    · rw [hs] at still
      cases still

/-- Every output takes the safe level of its entry, where the node is not DORMANT. -/
theorem setLineLost_out {o : Fin 8} (hn : s.setLineLost.mode.node ≠ .dormant) (hb : s.base o = o) :
    s.setLineLost.out o = s.safeFade o := by
  rw [setLineLost_mode] at hn
  rcases lossActed_cases s with ⟨-, effect, -⟩ | ⟨-, dormant, -⟩
  · have base : s.lossActed.base o = o := by
      rw [State.base, State.joined, effect]
      exact hb
    rw [State.out, setLineLost_effect]
    refine (safed_out hn base).trans ?_
    unfold State.safeFade State.joined State.deadInterval State.safeLevel State.out
    rw [effect]
  · exact absurd dormant hn

/-- FINISH: the final pass, and of a later one neither segments nor fetches (R104, R115). -/
theorem setLineLost_finish {k : ChannelSettings} (hh : (s.chan c).held = .copy k) (he : k.enabled = true)
    (hs : (s.chan c).state = .moving) (hf : k.lossFinish = true) :
    (s.setLineLost.chan c).state = .moving ∧ (s.setLineLost.chan c).finalPass = true ∧
      (s.setLineLost.chan c).current = (s.chan c).current ∧ (s.setLineLost.chan c).rem = (s.chan c).rem ∧
      (s.setLineLost.chan c).v = (s.chan c).v ∧ (s.setLineLost.chan c).position = (s.chan c).position ∧
      (s.setLineLost.chan c).profile = (s.chan c).profile ∧
      ((s.chan c).dir = none → (s.setLineLost.chan c).buffer = (s.chan c).buffer) ∧
      ∀ d last, (s.chan c).dir = some d → last = d.count * ((s.chan c).ord / d.count + 1) →
        (s.setLineLost.chan c).buffer = (s.chan c).buffer.filter (fun b => decide (b.ord < last)) ∧
        (∀ f o base, f ∈ s.setLineLost.motion.owed → f.chan = c → f.item = .segment o base →
          f.cancelled = true ∨ o < last) ∧
        (∀ f o base, f ∈ s.motion.owed → f.chan = c → f.item = .segment o base → o < last →
          f ∈ s.setLineLost.motion.owed) := by
  have own := afterLoss_finish hh he hs hf
  rw [lossActed_inMotion (by rw [hs]; rfl) (by rw [own, (inFinal_kept _).2.2]; exact congrArg _ hs), own]
  rcases Option.eq_none_or_eq_some (s.chan c).dir with hd | ⟨e, hd⟩
  · rw [inFinal_none (ch := { s.chan c with slot := none }) hd]
    exact ⟨hs, rfl, rfl, rfl, rfl, rfl, rfl, fun _ => rfl, fun d last h => by cases hd.symm.trans h⟩
  · rw [inFinal_some (ch := { s.chan c with slot := none }) hd]
    refine ⟨hs, rfl, rfl, rfl, rfl, rfl, rfl, fun h => (by cases hd.symm.trans h),
      fun d last h hl => ?_⟩
    cases hd.symm.trans h
    have chan := lossTold_chan s c
    obtain ⟨trimmed, kept⟩ := lossChannels_finish (s := s.lossTold) (c := c) (last := last) (by rw [chan]; exact hh) he
      (by rw [chan]; exact hs) hf (by rw [chan]; exact hd) (by rw [chan]; exact hl)
    rw [lossTold_owed] at kept
    rw [setLineLost_owed, State.lossActed]
    refine ⟨?_, trimmed, kept⟩
    rw [hl]
    rfl

/-- A node that is not CLOSING does not come to rest. -/
theorem setLineLost_node (hn : s.mode.node ≠ .closing) : s.setLineLost.mode.node = s.mode.node := by
  rw [setLineLost_mode]
  rcases lossActed_cases s with ⟨node, -⟩ | ⟨closing, -⟩
  · exact node
  · exact absurd closing hn

theorem setLineLost_dormant (hn : s.mode.node = .dormant) : s.setLineLost.effect = s.effect := by
  rw [setLineLost_effect]
  rcases lossActed_cases s with ⟨node, effect, -⟩ | ⟨closing, -⟩
  · rw [safed_dormant (node.trans hn), effect]
  · exact absurd (closing.symm.trans hn) (by decide)

/-- Where the node comes to rest every output is at rest. -/
theorem setLineLost_rested (hn : s.setLineLost.mode.node = .dormant) (hd : s.mode.node ≠ .dormant) (o : Fin 8) :
    s.setLineLost.out o = (s.out o).rested := by
  rw [setLineLost_mode] at hn
  rcases lossActed_cases s with ⟨node, -⟩ | ⟨-, -, out, -⟩
  · exact absurd (node.symm.trans hn) hd
  · rw [← out, State.out, setLineLost_effect, safed_dormant hn, State.out]

end Expiry

/-! ## A safe level by the record of its output -/

section SafeFade
variable {s : State} {o : Fin 8} {l : Int}

theorem safeLevel_eq (h : (∃ k, (s.out o).held = .copy k ∧ l = k.safe) ∨ ((s.out o).held = .damaged ∧ l = 0)) :
    s.safeLevel o = l := by
  unfold State.safeLevel
  rcases h with ⟨k, hk, rfl⟩ | ⟨hk, rfl⟩ <;> rw [hk]

theorem safeFade_single (hj : s.joined o = false) (hl : s.safeLevel o = l) :
    (s.safeFade o).target = max 0 (min 255 l) ∧ (s.safeFade o).fine = max 0 (min 255 l) * 256 ∧
      (s.safeFade o).running = false := by
  rw [State.safeFade, hj, hl]
  exact beginFade_single _ _ _

theorem safeFade_pair (hj : s.joined o = true) (hl : s.safeLevel o = l) : s.safeFade o =
    (s.out o).beginFade true (s.deadInterval (pairOf o)) (max (-255) (min 255 l)) 0 := by
  rw [State.safeFade, hj, hl]
  rfl

end SafeFade

theorem exec_lineLossExpiry_eq (s : State) : exec .lineLossExpiry s =
    .next (if s.ring.lossTimer = some 0 ∧ s.ring.bypass = false then s.setLineLost else s) := rfl

/-- Settles O14: the loss actions (`lossActed_cases`), then the safe levels (`safed_out`), then the raise. -/
theorem lineLossIsDeclared : Obligations.LineLossIsDeclared := by
  refine ⟨fun s h => ?_, fun s hb ht => ⟨s.setLineLost, ?_, ?_⟩⟩
  · rw [exec_lineLossExpiry_eq, if_neg]
    rintro ⟨zero, free⟩
    rcases h with h | h
    · exact h zero
    · exact absurd (free.symm.trans h) (by decide)
  · rw [exec_lineLossExpiry_eq, if_pos ⟨ht, hb⟩]
  · obtain ⟨m, o, sent, words, path, owed⟩ := setLineLost_sent s
    have mem := sent.mem
    refine ⟨sent.lossTimer, sent.lineLost, sent.localPlay, sent.mode, sent.clock, by rw [mem]; exact path,
      by rw [mem]; exact owed, setLineLost_found s, by rw [mem]; exact words,
      sent.mgmt, congrArg LineRecord.badFrames sent.record, fun c => setLineLost_start, fun c k hh he ha => ?_,
      fun hn => ?_, fun hn => ?_, fun hn hd o => ?_, fun hn o l hl => ?_⟩
    · refine ⟨fun hs hf => ?_, fun hs hf => ?_, fun hs hf => setLineLost_abandoned hh he ha hs hf, fun hs hf => ?_⟩
      · have own := afterLoss_stop hh he ha hs hf
        rw [lossActed_inMotion (by rw [hs]; rfl) (by rw [own]; rfl), own]
        exact ⟨rfl, rfl, rfl, rfl, rfl, rfl, rfl⟩
      · exact setLineLost_finish hh he hs hf
      · have own := afterLoss_search hh he hs hf
        rw [lossActed_inMotion (by rw [hs]; rfl) (by rw [own]; exact congrArg _ hs), own]
    · exact setLineLost_node hn
    · exact setLineLost_dormant hn
    · exact setLineLost_rested hn hd o
    · have level := safeLevel_eq hl
      refine ⟨fun hj => ?_, fun hj even => ?_⟩
      · rw [setLineLost_out hn ((base_eq_iff s o).mpr (.inl hj))]
        exact safeFade_single hj level
      · rw [setLineLost_out hn ((base_eq_iff s o).mpr (.inr even)), safeFade_pair hj level, beginFade_target]
        exact ⟨rfl, fun dead side => beginFade_side dead side, fun dead cross => beginFade_cross dead cross,
          fun dead moves => beginFade_waits dead moves⟩

end Sys2Proof.Machine
end

