-- ==== Sys2Proof/Proofs/Rest.lean ====
section
/-! PROOF. What every step keeps of a node at rest, the clock and the patterns (R28, R74, R148), and the end of a
condition with all that it tells: the beacon, the rest test and the entry into DORMANT (R31, R32), the lamps and the
release tests (R138 to R140). -/
namespace Sys2Proof.Machine

/-- Settles O7: each command keeps a resting node at rest, and so does what the node does on an empty queue. -/
theorem stepKeepsRest : Obligations.StepKeepsRest := fun _ _ hr hs => (step_kept hs).rest hr

/-! ## The clock second and the patterns -/

section Patterns
variable {s : State}

theorem exec_clockSecond_due (h : 999 ≤ s.mode.ms) : exec .clockSecond s = .next
    { s with mode.ms := 0
             mode.clock := if s.mode.clock = 86399 then 0 else (s.mode.clock + 1) % 86400 } := by
  have day : (s.mode.clock + 1) % Config.daySeconds =
      if s.mode.clock = 86399 then 0 else (s.mode.clock + 1) % 86400 := by
    split
    · rename_i last
      rw [last]
      rfl
    · rfl
  rw [← day]
  exact congrArg _ (if_pos h)

theorem exec_clockSecond_early (h : s.mode.ms < 999) : exec .clockSecond s = .next s :=
  congrArg _ (if_neg (Nat.not_le.mpr h))

theorem beaconPhase_blinks (h : s.alert.beacon = some .notice ∨ s.alert.beacon = some .attend) :
    s.beaconPhase = { s with alert.beaconOn := !s.alert.beaconOn, alert.beaconCtr := 0 } := by
  unfold State.beaconPhase
  rcases h with h | h <;> rw [h]

theorem beaconPhase_steady (h : s.alert.beacon = none ∨ s.alert.beacon = some .urgent) :
    s.beaconPhase = s := by
  unfold State.beaconPhase
  rcases h with h | h <;> rw [h]

theorem sounderPhase_urgent (h : s.alert.beacon = some .urgent) :
    s.sounderPhase = { s with alert.sounderOn := !s.alert.sounderOn, alert.sounderCtr := 0 } := by
  unfold State.sounderPhase
  rw [h]

theorem sounderPhase_other (h : s.alert.beacon ≠ some .urgent) : s.sounderPhase = s := by
  unfold State.sounderPhase
  split
  · exact absurd ‹_› h
  all_goals rfl

/-- The level of a lamp output, by the state of its lamp (R74). -/
theorem lampPin_cases (b : Fin 16) :
    ((s.btn b).lamp = .off → s.lampPin b = false) ∧ ((s.btn b).lamp = .ready → s.lampPin b = true) ∧
      ((s.btn b).lamp = .wait → (s.lampPin b = true ↔ s.button.waitCtr < 500)) ∧
      ((s.btn b).lamp = .helpFast → (s.lampPin b = true ↔ s.button.fastCtr < 125)) ∧
      ((s.btn b).lamp = .helpSteady → s.lampPin b = true) := by
  unfold State.lampPin
  refine ⟨fun h => ?_, fun h => ?_, fun h => ?_, fun h => ?_, fun h => ?_⟩ <;> simp [h]

end Patterns

/-- Settles O29, case by case. -/
theorem clockAndPatternsAdvance : Obligations.ClockAndPatternsAdvance := fun _ =>
  ⟨exec_clockSecond_due, exec_clockSecond_early, rfl, rfl, fun h => congrArg _ (beaconPhase_blinks h),
    fun h => congrArg _ (beaconPhase_steady h), fun h => congrArg _ (sounderPhase_urgent h),
    fun h => congrArg _ (sounderPhase_other h), lampPin_cases⟩

/-! ## The end of a condition (R138, R139) -/

section Condition
variable {s : State} {c : Cause} {n : Nat} {i : Fin 16} {r : Record}

theorem conditionEnd_none (h : s.findRecord c n = none) : s.conditionEnd c n = s := by
  unfold State.conditionEnd
  rw [h]

theorem conditionEnd_clearing (hf : s.findRecord c n = some i) (hr : s.slotAt i = some r)
    (h : r.state = .clearing) : s.conditionEnd c n = s := by
  unfold State.conditionEnd
  simp only [hf, hr, h]

/-- A latched record that waits to be seen keeps its state. -/
theorem conditionEnd_latched (hf : s.findRecord c n = some i) (hr : s.slotAt i = some r)
    (hl : c.latched = true) (h : r.state = .raised ∨ r.state = .called) :
    s.conditionEnd c n = s.withSlot i (some { r with condition := false }) := by
  unfold State.conditionEnd
  rcases h with h | h <;> simp only [hf, hr, h, hl, if_true]

/-- Any other record enters CLEARING, or is freed in BYPASS. -/
theorem conditionEnd_ended (hf : s.findRecord c n = some i) (hr : s.slotAt i = some r)
    (h : r.state = .acknowledged ∨ (c.latched = false ∧ r.state ≠ .clearing)) :
    s.conditionEnd c n = ((s.withSlot i (if s.ring.bypass then none else some { r with
      condition := false, state := .clearing, timer := none, due := true })).tellRecord c n).pump := by
  unfold State.conditionEnd State.clearingRecord
  simp only [hf, hr]
  rcases h with h | ⟨hl, h⟩
  · simp only [h]
  · cases e : r.state
    · simp only [hl, Bool.false_eq_true, if_false]
    · simp only [hl, Bool.false_eq_true, if_false]
    · rfl
    · exact absurd e h

end Condition

/-! ## The telling of a record (R140) -/

section Telling
variable {s : State}

/-- The one channel of a number. -/
theorem four_filter_val (c : Fin 4) : (four.filter fun i => i.val == c.val) = [c] := by
  fin_cases c <;> rfl

theorem tellRecord_help (n : Nat) :
    s.tellRecord .help n = s.beaconUpdate.restTest.lampUpdate (Fin.ofNat 16 n) := rfl

/-- A cause of one channel concerns that channel. -/
theorem tellRecord_own {k : Cause} (hk : k = .driverFault ∨ k = .limitHit ∨ k = .homeFailed) (c : Fin 4) :
    s.tellRecord k c.val = (s.beaconUpdate.restTest.channelLamps c).releaseTest c := by
  rcases hk with rfl | rfl | rfl <;>
    simp only [State.tellRecord, State.concerned, four_filter_val, List.foldl_cons, List.foldl_nil,
      State.gatingNotice]

/-- A guard concerns the channels that it protects, in ascending order. -/
theorem tellRecord_guardOpen (g : Nat) : s.tellRecord .guardOpen g = four.foldl (fun a d =>
    if (s.beaconUpdate.restTest.chan d).guardMap.getLsbD g then (a.channelLamps d).releaseTest d else a)
      s.beaconUpdate.restTest := by
  simp only [State.tellRecord, State.concerned, List.foldl_filter, State.gatingNotice]

theorem tellRecord_other {k : Cause} (hk : k = .buttonStuck ∨ k = .roughHandling ∨ k = .tableDamage ∨
    k = .lineLost ∨ k = .cuedCall ∨ k = .imageFailed ∨ k = .saveFailed) (n : Nat) :
    s.tellRecord k n = s.beaconUpdate.restTest := by
  rcases hk with rfl | rfl | rfl | rfl | rfl | rfl | rfl <;> rfl

/-! ## Lamps of a channel -/

theorem namesChannel_iff (x : Button) (c : Fin 4) :
    x.namesChannel c = true ↔ ∃ k, x.held = .copy k ∧ k.lampChannel = some c := by
  unfold Button.namesChannel
  cases x.held <;> simp

theorem channelLamps_btn (c : Fin 4) (b : Fin 16) : (s.channelLamps c).btn b =
    if (s.btn b).namesChannel c then { s.btn b with lamp := s.lampFor b } else s.btn b :=
  Vector.getElem_ofFn ..

/-! ## The rest test (R31) and the entry into DORMANT (R32) -/

/-- A record that does not wait to be seen is ACKNOWLEDGED or CLEARING. -/
theorem unseen_eq_false (r : Record) :
    r.unseen = false ↔ r.state = .acknowledged ∨ r.state = .clearing := by
  unfold Record.unseen
  cases r.state <;> simp

theorem unseen_eq_true (r : Record) : r.unseen = true ↔ r.state = .raised ∨ r.state = .called := by
  unfold Record.unseen
  cases r.state <;> simp

theorem atRest_iff (x : ChanState) : x.atRest = true ↔ x = .unhomed ∨ x = .idle ∨ x = .halted ∨ x = .fault := by
  cases x <;> simp [ChanState.atRest]

theorem anyRecord_iff (p : Record → Bool) :
    s.anyRecord p = true ↔ ∃ i r, s.slotAt i = some r ∧ p r = true := by
  simp only [State.anyRecord, List.any_eq_true]
  constructor
  · rintro ⟨i, -, hi⟩
    split at hi
    · exact ⟨i, _, ‹_›, hi⟩
    · cases hi
  · rintro ⟨i, r, hr, hp⟩
    exact ⟨i, mem_sixteen i, by rw [hr]; exact hp⟩

/-- No record waits to be seen. -/
theorem anyRecord_unseen_false : s.anyRecord Record.unseen = false ↔
    ∀ i r, s.slotAt i = some r → r.state = .acknowledged ∨ r.state = .clearing := by
  rw [← Bool.not_eq_true, anyRecord_iff]
  constructor
  · intro h i r hr
    rw [← unseen_eq_false, ← Bool.not_eq_true]
    exact fun k => h ⟨i, r, hr, k⟩
  · rintro h ⟨i, r, hr, hu⟩
    rw [(unseen_eq_false r).mpr (h i r hr)] at hu
    cases hu

theorem restPasses_iff : s.restPasses = true ↔
    (∀ d, (s.chan d).state = .unhomed ∨ (s.chan d).state = .idle ∨ (s.chan d).state = .halted ∨
      (s.chan d).state = .fault) ∧
    ∀ i r, s.slotAt i = some r → r.state = .acknowledged ∨ r.state = .clearing := by
  unfold State.restPasses
  rw [Bool.and_eq_true, List.all_eq_true, Bool.not_eq_true', anyRecord_unseen_false]
  refine and_congr_left' ⟨fun h d => (atRest_iff _).mp (h d (mem_four d)), fun h d _ => (atRest_iff _).mpr (h d)⟩

theorem restTest_passes (hn : s.mode.node = .closing) (hp : s.restPasses = true) :
    s.restTest = s.enterDormant := if_pos ⟨hn, hp⟩

theorem restTest_fails (h : s.mode.node ≠ .closing ∨ s.restPasses = false) : s.restTest = s := by
  refine if_neg ?_
  rintro ⟨hn, hp⟩
  rcases h with h | h
  · exact h hn
  · rw [h] at hp
    cases hp

theorem enterDormant_mode (s : State) : s.enterDormant.mode = { s.mode with node := .dormant } := rfl

theorem enterDormant_btn (s : State) (b : Fin 16) :
    s.enterDormant.btn b = { s.btn b with lamp := s.enterDormant.lampFor b } := by
  have lamp : s.enterDormant.lampFor b =
      ({ s with mode.node := .dormant }.mapChans Channel.enterResting).restOutputs.lampFor b :=
    allLamps_lampFor _ b
  rw [lamp]
  exact allLamps_btn _ b

theorem enterDormant_eq (s : State) : s.enterDormant = { s with
    mode := s.enterDormant.mode, motion.channels := s.enterDormant.motion.channels
    effect.outputs := s.enterDormant.effect.outputs, button.buttons := s.enterDormant.button.buttons } := rfl

end Telling

/-- Settles O31: the end of a condition by its record's state, the telling by the cause, the rest test by
`restPasses_iff`. -/
theorem conditionEndIsRecorded : Obligations.ConditionEndIsRecorded := by
  refine ⟨fun s c n => ⟨conditionEnd_none, fun i r hf hr => ⟨conditionEnd_clearing hf hr,
    conditionEnd_latched hf hr, conditionEnd_ended hf hr⟩⟩, ?_, fun s c => ⟨rfl, ?_, ?_, rfl, ?_, ?_⟩⟩
  · rintro s u c b g rfl
    exact ⟨fun _ => tellRecord_help b, tellRecord_own (.inl rfl) c, tellRecord_own (.inr (.inl rfl)) c,
      tellRecord_own (.inr (.inr rfl)) c, tellRecord_guardOpen g, fun k hk => tellRecord_other hk b⟩
  · intro b named
    rw [channelLamps_btn, if_pos ((namesChannel_iff _ c).mpr named)]
  · intro b unnamed
    rw [channelLamps_btn, if_neg]
    intro named
    obtain ⟨k, hk, hl⟩ := (namesChannel_iff _ c).mp named
    exact unnamed k hk hl
  · intro h
    refine restTest_fails ?_
    rw [← Bool.not_eq_true, restPasses_iff]
    rcases h with h | ⟨d, hd⟩ | ⟨i, r, hr, hu⟩
    · exact .inl h
    · right
      rintro ⟨rest, -⟩
      have := rest d
      rcases hd with hd | hd | hd | hd <;> simp [hd] at this
    · right
      rintro ⟨-, seen⟩
      have := seen i r hr
      rcases hu with hu | hu <;> simp [hu] at this
  · intro hn rest seen
    refine ⟨s.enterDormant, restTest_passes hn (restPasses_iff.mpr ⟨rest, seen⟩), enterDormant_mode s,
      fun d ha => ?_, enterDormant_out s, enterDormant_btn s, enterDormant_eq s⟩
    rw [enterDormant_chan, enterResting_eq ha]

end Sys2Proof.Machine
end

