-- ==== Sys2Proof/Proofs/Starts.lean ====
section
/-! PROOF. A START by the mode, the gates, the channel's state and its busy policy (R26, R27, R48, R49, R85), and what a
channel that enters motion tells: the lamps that name it, and no rest. -/
namespace Sys2Proof.Machine
variable {s : State} {c : Fin 4}

/-! ## The mode's and the gates' answer -/

theorem startAllowed_iff (s : State) : s.startAllowed = true ↔
    (s.mode.mode = .opened ∨ s.mode.mode = .quiet ∨ s.mode.mode = .service) ∧
      (s.mode.lineLost = false ∨ s.mode.localPlay = some true) := by
  have answer : (!s.lossRestricts) = true ↔ s.mode.lineLost = false ∨ s.mode.localPlay = some true := by
    simp [State.lossRestricts, State.localPlayOn]
  unfold State.startAllowed
  cases s.mode.mode <;> simp [answer]

/-- What a gating record of a channel is (R85). -/
theorem gatingRecord_iff (c : Fin 4) (m : BitVec 4) (r : Record) : gatingRecord c m r = true ↔
    (r.cause = .guardOpen ∧ m.getLsbD r.subject = true) ∨
      ((r.cause = .driverFault ∨ r.cause = .limitHit ∨ r.cause = .homeFailed) ∧ r.subject = c.val) := by
  unfold gatingRecord
  cases r.cause <;> simp

theorem attend_iff (x : Channel) : x.attend = true ↔ ∃ k, x.held = .copy k ∧ k.attend = true := by
  unfold Channel.attend
  cases x.held <;> simp

theorem guardMap_copy {x : Channel} {k : ChannelSettings} (h : x.held = .copy k) : x.guardMap = k.guardMap := by
  simp [Channel.guardMap, h]

theorem gated_iff (s : State) (c : Fin 4) : s.gated c = true ↔
    ∃ k i r, (s.chan c).held = .copy k ∧ k.attend = true ∧ s.slotAt i = some r ∧
      (r.state = .raised ∨ r.state = .called) ∧
      ((r.cause = .guardOpen ∧ k.guardMap.getLsbD r.subject = true) ∨
        ((r.cause = .driverFault ∨ r.cause = .limitHit ∨ r.cause = .homeFailed) ∧
          r.subject = c.val)) := by
  unfold State.gated
  simp only [Bool.and_eq_true, attend_iff, anyRecord_iff, unseen_eq_true, gatingRecord_iff]
  constructor
  · rintro ⟨⟨k, hk, ha⟩, i, r, hr, hu, hg⟩
    rw [guardMap_copy hk] at hg
    exact ⟨k, i, r, hk, ha, hr, hu, hg⟩
  · rintro ⟨k, i, r, hk, ha, hr, hu, hg⟩
    rw [← guardMap_copy hk] at hg
    exact ⟨⟨k, hk, ha⟩, i, r, hr, hu, hg⟩

theorem guardsClosed_iff (s : State) (m : BitVec 4) : s.guardsClosed m = true ↔
    ∀ g : Fin 4, m.getLsbD g.val = true → (s.guardIn g).isOpen = false := by
  simp only [State.guardsClosed, List.all_eq_true, mem_four, true_imp_iff, Bool.not_eq_true', Bool.and_eq_false_iff]
  exact forall_congr' fun g => by cases m.getLsbD g.val <;> simp

/-! ## A channel that enters motion -/

theorem inMotion_atRest {x : ChanState} (h : x.inMotion = true) : x.atRest = false := by
  cases x with
  | homing | moving | stopping => rfl
  | unhomed | idle | halted | fault | resting => cases h

theorem inMotion_replaceable {x : ChanState} (h : x.inMotion = true) : x.replaceable = false := by
  cases x with
  | homing | moving | stopping => rfl
  | unhomed | idle | halted | fault | resting => cases h

/-- A node with a channel in motion does not come to rest. -/
theorem restTest_inMotion (h : (s.chan c).state.inMotion = true) : s.restTest = s := by
  refine restTest_fails (.inr ?_)
  rw [← Bool.not_eq_true]
  intro passes
  rw [restPasses_still s passes c] at h
  cases h

@[simp] theorem channelLamps_chan (s : State) (c d : Fin 4) : (s.channelLamps c).chan d = s.chan d := by
  unfold State.chan; rfl
@[simp] theorem cancelOwed_chan (s : State) (c d : Fin 4) : (s.cancelOwed c).chan d = s.chan d := rfl

theorem changeChan_inMotion {x : Channel} (h : x.state.inMotion = true) :
    s.changeChan c x = (s.withChan c x).channelLamps c := by
  unfold State.changeChan State.tellChannel
  rw [takeAside_id x (.inl (inMotion_replaceable h)), restTest_inMotion (c := c) (by simpa using h)]

theorem enterStopping_moving (h : (s.chan c).state = .moving) (e : Ending) : s.enterStopping c e =
    ((s.cancelOwed c).withChan c ((s.chan c).stopWith e)).channelLamps c := by
  unfold State.enterStopping
  rw [h]
  exact changeChan_inMotion rfl

theorem enterStopping_other (h : (s.chan c).state ≠ .moving) (e : Ending) : s.enterStopping c e = s := by
  unfold State.enterStopping
  split
  · exact absurd ‹_› h
  · rfl

/-- The fetches that a profile owes as it begins (R89, R115). -/
def firstFetches (c : Fin 4) (p : Fin 32) : List Fetch :=
  [⟨c, .directory p, false⟩, ⟨c, .segment 0 0, false⟩, ⟨c, .segment 1 0, false⟩, ⟨c, .segment 2 0, false⟩]

/-- The motion and button units after a profile has begun, before its fetches ask for their words. -/
def State.begun (s : State) (c : Fin 4) (p : Fin 32) : State :=
  ({ s with motion.owed := s.motion.owed ++ firstFetches c p }.withChan c ((s.chan c).begin p)).channelLamps c

theorem beginProfile_eq (s : State) (c : Fin 4) (p : Fin 32) :
    s.beginProfile c p = (s.begun c p).arbitrate := by
  unfold State.beginProfile State.tellChannel
  dsimp only
  rw [restTest_inMotion (c := c)]
  · rfl
  · show ((s.withChan c ((s.chan c).begin p)).chan c).state.inMotion = true
    simp [Channel.begin, ChanState.inMotion]

theorem begun_chan (s : State) (c d : Fin 4) (p : Fin 32) :
    (s.begun c p).chan d = if d = c then (s.chan c).begin p else s.chan d := by
  rw [State.begun, channelLamps_chan, chan_withChan]
  rfl

/-! ## The engine going on -/

/-- The engine going on leaves the other units, and the words of table memory. -/
theorem handOn_parts (s : State) (a : Action) : (s.handOn a).motion = s.motion ∧
    (s.handOn a).button = s.button ∧ (s.handOn a).mode = s.mode ∧ (s.handOn a).effect = s.effect ∧
    (s.handOn a).mem.words = s.mem.words ∧
    s.handOn a = { s with cue := (s.handOn a).cue, mem := (s.handOn a).mem } := by
  obtain ⟨q, x, p, w, e⟩ := handOn_eq s a
  rw [e]
  exact ⟨rfl, rfl, rfl, rfl, rfl, rfl⟩

theorem arbitrate_parts (s : State) : s.arbitrate.motion = s.motion ∧ s.arbitrate.button = s.button ∧
    s.arbitrate.mem.words = s.mem.words ∧ s.arbitrate = { s with mem := s.arbitrate.mem } := by
  obtain ⟨a, p, w, e⟩ := arbitrate_eq s
  rw [e]
  exact ⟨rfl, rfl, rfl, rfl⟩

/-- `t` is `s` but for the motion and button units. -/
def Moved (s t : State) : Prop := t = { s with motion := t.motion, button := t.button }

theorem Moved.trans {s t u : State} (h : Moved s t) (k : Moved t u) : Moved s u := by
  unfold Moved at h k
  rw [h] at k
  exact k

theorem moved_cancelOwed (s : State) (c : Fin 4) : Moved s (s.cancelOwed c) := rfl
theorem moved_withChan (s : State) (c : Fin 4) (x : Channel) : Moved s (s.withChan c x) := rfl
theorem moved_channelLamps (s : State) (c : Fin 4) : Moved s (s.channelLamps c) := by
  unfold Moved State.channelLamps; rfl

theorem moved_begun (s : State) (c : Fin 4) (p : Fin 32) : Moved s (s.begun c p) :=
  Moved.trans (t := { s with motion.owed := s.motion.owed ++ firstFetches c p }) rfl
    ((moved_withChan _ c _).trans (moved_channelLamps _ c))

/-- An action that changed the motion and button units alone, and the engine then going on. -/
theorem Moved.handOn {s a t : State} (x : Action) (ha : Moved s a) (ht : t = a.handOn x) : t.motion = a.motion ∧
      t = { s with motion := t.motion, button := t.button, cue := t.cue, mem := t.mem } ∧
      t = ({ s with motion := t.motion, button := t.button }).handOn x ∧ t.mem.words = s.mem.words := by
  obtain ⟨motion, button, -, -, words, all⟩ := handOn_parts a x
  unfold Moved at ha
  subst ht
  refine ⟨motion, ?_, ?_, ?_⟩
  · rw [motion, button]
    exact all.trans (by rw [ha])
  · rw [motion, button]
    exact congrArg (State.handOn · x) ha
  · rw [words, ha]

/-- The same where the arbiter chose between. -/
theorem Moved.handOn_arbitrated {s a t : State} (x : Action) (ha : Moved s a) (ht : t = a.arbitrate.handOn x) :
    t.motion = a.motion ∧
      t = { s with motion := t.motion, button := t.button, cue := t.cue, mem := t.mem } ∧
      t = (({ s with motion := t.motion, button := t.button }).arbitrate).handOn x ∧
      t.mem.words = s.mem.words := by
  obtain ⟨motion, button, -, -, words, all⟩ := handOn_parts a.arbitrate x
  obtain ⟨motion', button', words', all'⟩ := arbitrate_parts a
  unfold Moved at ha
  subst ht
  refine ⟨motion.trans motion', ?_, ?_, ?_⟩
  · rw [motion, button]
    refine all.trans ?_
    rw [all', ha]
  · rw [motion, button, motion', button']
    exact congrArg (fun y : State => y.arbitrate.handOn x) ha
  · rw [words, words', ha]

/-! ## A START (R48, R49) -/

section Start
variable {p : Fin 32} {k : ChannelSettings}

theorem exec_start_performed (h : s.recalls (.start c p) = false) :
    exec (.start c p) s = .next ((s.takeStart c p).handOn (.start c p)) :=
  congrArg _ (takeAction_performed _ h)

theorem takeStart_byState (hm : s.startAllowed = true) (hg : s.gated c = false)
    (hh : (s.chan c).held = .copy k) (he : k.enabled = true) :
    s.takeStart c p = s.startByState c p k := by
  unfold State.takeStart
  rw [if_neg (by simp [hm, hg]), hh]
  exact if_neg (by simp [he])

theorem takeStart_refused (h : s.startAllowed = false ∨ s.gated c = true ∨ (s.chan c).enabled = false) :
    s.takeStart c p = s.refuse c := by
  unfold State.takeStart
  split
  · rfl
  · rename_i allowed
    have disabled : (s.chan c).enabled = false := by
      rcases h with h | h | h
      · exact absurd (.inl h) allowed
      · exact absurd (.inr h) allowed
      · exact h
    unfold Channel.enabled at disabled
    split
    · rename_i k hk
      rw [hk] at disabled
      exact if_pos disabled
    all_goals rfl

/-- The states that refuse a START, and the busy policy that does. -/
theorem startByState_refused (hh : (s.chan c).held = .copy k)
    (h : (s.chan c).state = .unhomed ∨ (s.chan c).state = .halted ∨ (s.chan c).state = .fault ∨
      (s.chan c).state = .resting ∨
      ((s.chan c).state = .idle ∧ s.guardsClosed (s.chan c).guardMap = false) ∨
      (k.policy = .refuse ∧ (s.chan c).state ≠ .idle)) : s.startByState c p k = s.refuse c := by
  rw [guardMap_copy hh] at h
  unfold State.startByState
  cases e : (s.chan c).state <;> simp [e] at h ⊢ <;> simp [h]

theorem startByState_waits (h : ((s.chan c).state = .stopping ∨ (s.chan c).state = .homing) ∧ k.policy ≠ .refuse ∨
    (s.chan c).state = .moving ∧ k.policy = .queue) : s.startByState c p k = s.toSlot c p := by
  unfold State.startByState
  rcases h with ⟨hs | hs, hp⟩ | ⟨hs, hp⟩
  · cases e : k.policy <;> simp [hs, e] at hp ⊢
  · cases e : k.policy <;> simp [hs, e] at hp ⊢
  · simp [hs, hp]

theorem startByState_preempts (hs : (s.chan c).state = .moving) (hp : k.policy = .preempt) :
    s.startByState c p k = (s.enterStopping c .stopped).toSlot c p := by
  simp [State.startByState, hs, hp]

theorem startByState_begins (hs : (s.chan c).state = .idle) (hg : s.guardsClosed k.guardMap = true) :
    s.startByState c p k = s.beginProfile c p := by
  simp [State.startByState, hs, hg]

/-- A START that nothing but the channel's state or policy refuses. -/
theorem takeStart_refused_byState (h : (s.chan c).state = .unhomed ∨ (s.chan c).state = .halted ∨
      (s.chan c).state = .fault ∨ (s.chan c).state = .resting ∨
      ((s.chan c).state = .idle ∧ s.guardsClosed (s.chan c).guardMap = false) ∨
      (∃ k, (s.chan c).held = .copy k ∧ k.policy = .refuse ∧ (s.chan c).state ≠ .idle)) :
    s.takeStart c p = s.refuse c := by
  by_cases refused : s.startAllowed = false ∨ s.gated c = true ∨ (s.chan c).enabled = false
  · exact takeStart_refused refused
  · simp only [not_or, Bool.not_eq_false, Bool.not_eq_true] at refused
    obtain ⟨allowed, ungated, enabled⟩ := refused
    obtain ⟨k, hk, he⟩ := enabled_copy enabled
    rw [takeStart_byState allowed ungated hk he]
    refine startByState_refused hk ?_
    simpa [hk] using h

/-- A preempted channel enters STOPPING, the new profile in its slot (R49). -/
theorem preempted_chan (hs : (s.chan c).state = .moving) (d : Fin 4) :
    ((s.enterStopping c .stopped).toSlot c p).chan d =
      if d = c then { (s.chan c).stopWith .stopped with slot := some p } else s.chan d := by
  have stopped : ∀ d, (s.enterStopping c .stopped).chan d =
      if d = c then (s.chan c).stopWith .stopped else s.chan d := by
    intro d
    rw [enterStopping_moving hs, channelLamps_chan, chan_withChan, cancelOwed_chan]
  unfold State.toSlot
  rw [chan_withChan, stopped, stopped, if_pos rfl]
  split <;> rfl

theorem preempted_moved (hs : (s.chan c).state = .moving) :
    Moved s ((s.enterStopping c .stopped).toSlot c p) := by
  rw [enterStopping_moving hs]
  exact (((moved_cancelOwed s c).trans (moved_withChan _ c _)).trans (moved_channelLamps _ c)).trans
    (moved_withChan _ c _)

end Start

/-- Settles O34: the refusals (`takeStart_refused`, `takeStart_refused_byState`), the slot, the preempted channel
(`preempted_chan`) and the profile begun (`beginProfile_eq`), the engine then going on (`Moved.handOn`). -/
theorem startIsTaken : Obligations.StartIsTaken := by
  refine ⟨fun s c m => ⟨startAllowed_iff s, gated_iff s c, guardsClosed_iff s m⟩, fun c p s performed => ?_⟩
  rw [exec_start_performed performed]
  refine ⟨fun h => ?_, fun k allowed ungated hk he => ?_⟩
  · have refused : s.takeStart c p = s.refuse c := by
      rcases h with h | h | h | h
      · exact takeStart_refused (.inl h)
      · exact takeStart_refused (.inr (.inl h))
      · exact takeStart_refused (.inr (.inr h))
      · exact takeStart_refused_byState h
    rw [refused]
    rfl
  · rw [takeStart_byState allowed ungated hk he]
    refine ⟨fun waits => ?_, fun moving preempt => ?_, fun idle closed => ?_⟩
    · rw [startByState_waits waits]
      rfl
    · rw [startByState_preempts moving preempt]
      obtain ⟨motion, all, handed, words⟩ := (preempted_moved (p := p) moving).handOn (.start c p) rfl
      have chan : ∀ d, (((s.enterStopping c .stopped).toSlot c p).handOn (.start c p)).chan d =
          if d = c then { (s.chan c).stopWith .stopped with slot := some p } else s.chan d := fun d => by
        rw [← preempted_chan moving, State.chan, motion, State.chan]
      have own : ∀ {α : Type} (f : Channel → α), _ := fun f => congrArg f ((chan c).trans (if_pos rfl))
      exact ⟨_, rfl, own Channel.state, own Channel.ending, own Channel.slot,
        own Channel.profile, own Channel.position, fun d hd => (chan d).trans (if_neg hd), all,
        handed, words⟩
    · rw [startByState_begins idle closed, beginProfile_eq]
      obtain ⟨motion, all, handed, words⟩ := (moved_begun s c p).handOn_arbitrated (.start c p) rfl
      have chan : ∀ d, ((s.begun c p).arbitrate.handOn (.start c p)).chan d =
          if d = c then (s.chan c).begin p else s.chan d := fun d => by
        rw [← begun_chan, State.chan, motion, State.chan]
      have own : ∀ {α : Type} (f : Channel → α), _ := fun f => congrArg f ((chan c).trans (if_pos rfl))
      exact ⟨_, rfl, own Channel.state, own Channel.profile, own Channel.pass,
        own Channel.ord, own Channel.current, own Channel.buffer,
        own Channel.clamped, own Channel.position, own Channel.slot,
        congrArg MotionUnit.owed motion, fun d hd => (chan d).trans (if_neg hd), all, handed, words⟩

end Sys2Proof.Machine
end

