-- ==== Sys2Proof/Proofs/Stops.lean ====
section
/-! PROOF. STOP and HOME on the channels of a mask (R51, R52): the channels one after another, each on its own record,
and the rest that the last of them may bring to a CLOSING node (R31). -/
namespace Sys2Proof.Machine

/-! ## A node that does not come to rest as it stands -/

/-- The rest test, made now, would not pass: it has been made since the last change that could make it pass. -/
def State.Awake (s : State) : Prop := s.mode.node ≠ .closing ∨ s.restPasses = false

section Awake
variable {s t : State}

theorem restTest_awake (h : s.Awake) : s.restTest = s := restTest_fails h

theorem awake_restTest (s : State) : s.restTest.Awake := by
  unfold State.restTest
  split
  · exact .inl (by simp [enterDormant_mode])
  · rename_i h
    rw [State.Awake, ← Bool.not_eq_true]
    exact not_and_or.mp h

theorem restPasses_congr (hc : ∀ c, t.chan c = s.chan c) (hs : ∀ i, t.slotAt i = s.slotAt i) :
    t.restPasses = s.restPasses := by
  rw [Bool.eq_iff_iff, restPasses_iff, restPasses_iff]
  simp only [hc, hs]

theorem awake_congr (hn : t.mode.node = s.mode.node) (hc : ∀ c, t.chan c = s.chan c)
    (hs : ∀ i, t.slotAt i = s.slotAt i) (h : s.Awake) : t.Awake := by
  rw [State.Awake, hn, restPasses_congr hc hs]
  exact h

theorem channelLamps_slotAt (s : State) (c : Fin 4) (i : Fin 16) : (s.channelLamps c).slotAt i = s.slotAt i := by
  unfold State.slotAt; rfl

theorem channelLamps_motion (s : State) (c : Fin 4) : (s.channelLamps c).motion = s.motion := by
  unfold State.channelLamps; rfl

theorem channelLamps_mode (s : State) (c : Fin 4) : (s.channelLamps c).mode = s.mode := by
  unfold State.channelLamps; rfl

theorem awake_inMotion {c : Fin 4} (h : (s.chan c).state.inMotion = true) : s.Awake := by
  refine .inr ?_
  rw [← Bool.not_eq_true]
  intro passes
  rw [restPasses_still s passes c] at h
  cases h

/-- A change of channel state makes the rest test. -/
theorem awake_changeChan (s : State) (c : Fin 4) (x : Channel) : (s.changeChan c x).Awake :=
  awake_congr (by rw [State.changeChan, State.tellChannel, channelLamps_mode]) (fun _ => channelLamps_chan ..)
    (fun _ => channelLamps_slotAt ..) (awake_restTest _)

theorem not_awake_iff : ¬ s.Awake ↔ s.mode.node = .closing ∧ s.restPasses = true := by
  simp [State.Awake]

end Awake

/-! ## What a change of channels writes -/

/-- `t` is `s` but for the motion and button units, the node state and the effect outputs. -/
def Shifted (s t : State) : Prop := t =
  { s with motion := t.motion, button := t.button, mode := { s.mode with node := t.mode.node }, effect := t.effect }

theorem Shifted.trans {s t u : State} (h : Shifted s t) (k : Shifted t u) : Shifted s u := by
  unfold Shifted at h k
  rw [h] at k
  exact k

theorem Moved.shifted {s t : State} (h : Moved s t) : Shifted s t := by
  unfold Moved at h
  rw [h]
  rfl

/-- An action that shifted the node, and the engine then going on. -/
theorem Shifted.handOn {s a t : State} (x : Action) (ha : Shifted s a) (ht : t = a.handOn x) :
    t.motion = a.motion ∧ t.mode = a.mode ∧ t.effect = a.effect ∧
      t = { s with motion := t.motion, button := t.button, cue := t.cue, mem := t.mem, mode := t.mode
                   effect := t.effect } ∧
      t = ({ s with motion := t.motion, button := t.button, mode := t.mode, effect := t.effect }).handOn x ∧
      t.mem.words = s.mem.words := by
  obtain ⟨motion, button, mode, effect, words, all⟩ := handOn_parts a x
  have node : a.mode = { s.mode with node := a.mode.node } := congrArg State.mode ha
  unfold Shifted at ha
  rw [← node] at ha
  subst ht
  refine ⟨motion, mode, effect, ?_, ?_, ?_⟩
  · rw [motion, button, mode, effect]
    exact all.trans (by rw [ha])
  · rw [motion, button, mode, effect]
    exact congrArg (State.handOn · x) ha
  · rw [words, ha]

theorem Shifted.mode {s t : State} (h : Shifted s t) : t.mode = { s.mode with node := t.mode.node } :=
  congrArg State.mode h

theorem Shifted.alert {s t : State} (h : Shifted s t) : t.alert = s.alert := by
  have := congrArg State.alert h; exact this

theorem Shifted.slotAt {s t : State} (h : Shifted s t) (i : Fin 16) : t.slotAt i = s.slotAt i := by
  rw [State.slotAt, h.alert, State.slotAt]

theorem Shifted.mode_kept {s t : State} (h : Shifted s t) (hn : t.mode.node = s.mode.node) : t.mode = s.mode := by
  rw [h.mode, hn]

theorem Shifted.moved {s t : State} (h : Shifted s t) (hn : t.mode.node = s.mode.node)
    (he : t.effect = s.effect) : Moved s t := by
  exact Eq.trans h (by rw [hn, he])

theorem shifted_restTest (s : State) : Shifted s s.restTest := by
  unfold State.restTest
  split
  · exact enterDormant_eq s
  · rfl

theorem shifted_changeChan (s : State) (c : Fin 4) (x : Channel) : Shifted s (s.changeChan c x) :=
  ((moved_withChan s c _).shifted.trans (shifted_restTest _)).trans (moved_channelLamps _ c).shifted

/-! ## One channel after another, to a rest or not -/

/-- The channels of `l` have become `g` of what they were, and the node has not come to rest. -/
structure Applied (g : Channel → Channel) (l : List (Fin 4)) (s t : State) : Prop where
  node   : t.mode.node = s.mode.node
  effect : t.effect = s.effect
  chan   : ∀ c, t.chan c = if c ∈ l then g (s.chan c) else s.chan c
  awake  : t = s ∨ t.Awake

/-- The channels of `l` have become `g` of what they were, and with the last that changed the node came to rest. -/
structure AppliedToRest (g : Channel → Channel) (l : List (Fin 4)) (s t : State) : Prop where
  closing : s.mode.node = .closing
  dormant : t.mode.node = .dormant
  cause   : ∃ c ∈ l, (s.chan c).state.inMotion = true
  rests   : ∀ c, (if c ∈ l then g (s.chan c) else s.chan c).state.atRest = true
  seen    : s.anyRecord Record.unseen = false
  chan    : ∀ c, t.chan c = (if c ∈ l then g (s.chan c) else s.chan c).enterResting

section Fold
variable {g : Channel → Channel} {f : State → Fin 4 → State} {s t u : State} {c : Fin 4} {l : List (Fin 4)}

theorem restPasses_eq {s : State} : s.restPasses = true ↔
    (∀ c, (s.chan c).state.atRest = true) ∧ s.anyRecord Record.unseen = false := by
  simp [State.restPasses]

/-- A change of one channel in motion, told: the node goes on, or comes to rest. -/
theorem changeChan_applied {x : Channel} (hm : (s.chan c).state.inMotion = true)
    (hx : g (s.chan c) = x.takeAside) :
    Applied g [c] s (s.changeChan c x) ∨ AppliedToRest g [c] s (s.changeChan c x) := by
  have own : ∀ d, (s.withChan c x.takeAside).chan d = if d ∈ [c] then g (s.chan d) else s.chan d := by
    intro d
    rw [chan_withChan]
    by_cases e : d = c
    · subst e
      simp [hx]
    · simp [e]
  by_cases rests : (s.withChan c x.takeAside).mode.node = .closing ∧ (s.withChan c x.takeAside).restPasses = true
  · have told : s.changeChan c x = (s.withChan c x.takeAside).enterDormant.channelLamps c := by
      rw [State.changeChan, State.tellChannel, restTest_passes rests.1 rests.2]
    obtain ⟨rest, seen⟩ := restPasses_eq.mp rests.2
    refine .inr ⟨rests.1, ?_, ⟨c, List.mem_singleton_self c, hm⟩, fun d => ?_, seen, fun d => ?_⟩
    · rw [told, channelLamps_mode, enterDormant_mode]
    · rw [← own]
      exact rest d
    · rw [told, channelLamps_chan, enterDormant_chan, own]
  · have told : s.changeChan c x = (s.withChan c x.takeAside).channelLamps c := by
      rw [State.changeChan, State.tellChannel, State.restTest, if_neg rests]
    refine .inl ⟨?_, ?_, fun d => ?_, .inr (awake_changeChan s c x)⟩
    · rw [told, channelLamps_mode]
      rfl
    · rw [told]
      unfold State.channelLamps
      rfl
    · rw [told, channelLamps_chan, own]

theorem atRest_inMotion {x : ChanState} (h : x.atRest = true) : x.inMotion = false := by
  cases x with
  | unhomed | idle | halted | fault => rfl
  | homing | moving | stopping | resting => cases h

theorem enterResting_still (x : Channel) : x.enterResting.state.inMotion = false := by
  rw [enterResting_state]
  rfl

/-- The first channel of a list, with no rest, and then the others. -/
theorem Applied.cons (hc : c ∉ l) (one : Applied g [c] s t) (wrote : Shifted s t)
    (rest : Applied g l t u ∨ AppliedToRest g l t u) : Applied g (c :: l) s u ∨ AppliedToRest g (c :: l) s u := by
  have other : ∀ d ∈ l, t.chan d = s.chan d := by
    intro d m
    refine (one.chan d).trans (if_neg fun e => ?_)
    rw [List.mem_singleton.mp e] at m
    exact hc m
  have chan : ∀ d, (if d ∈ l then g (t.chan d) else t.chan d) = if d ∈ c :: l then g (s.chan d) else s.chan d := by
    intro d
    by_cases m : d ∈ l
    · rw [if_pos m, if_pos (List.mem_cons_of_mem _ m), other d m]
    · rw [if_neg m, one.chan]
      simp [m]
  rcases rest with rest | rest
  · refine .inl ⟨rest.node.trans one.node, rest.effect.trans one.effect, fun d => (rest.chan d).trans (chan d), ?_⟩
    rcases rest.awake with same | awake
    · rw [same]
      exact one.awake
    · exact .inr awake
  · obtain ⟨d, m, moving⟩ := rest.cause
    refine .inr ⟨one.node ▸ rest.closing, rest.dormant, ⟨d, List.mem_cons_of_mem _ m, other d m ▸ moving⟩,
      fun d => chan d ▸ rest.rests d, ?_, fun d => (rest.chan d).trans (by rw [chan])⟩
    rw [← anyRecord_congr _ wrote.slotAt]
    exact rest.seen

/-- The first channel of a list brings the node to rest, and the others, which are not in motion, stand. -/
theorem AppliedToRest.cons (hg : ∀ x : Channel, x.state.inMotion = false → g x = x) (hc : c ∉ l)
    (one : AppliedToRest g [c] s t) (rest : Applied g l t u) : AppliedToRest g (c :: l) s u := by
  have chan : ∀ d, (if d ∈ c :: l then g (s.chan d) else s.chan d) =
      if d ∈ [c] then g (s.chan d) else s.chan d := by
    intro d
    by_cases m : d ∈ l
    · have e : d ∉ [c] := fun e => hc (List.mem_singleton.mp e ▸ m)
      have still := one.rests d
      rw [if_neg e] at still
      rw [if_neg e, if_pos (List.mem_cons_of_mem _ m), hg _ (atRest_inMotion still)]
    · simp [m]
  obtain ⟨d, m, moving⟩ := one.cause
  refine ⟨one.closing, rest.node.trans one.dormant,
    ⟨d, List.mem_singleton.mp m ▸ List.mem_cons_self, moving⟩, fun d => chan d ▸ one.rests d, one.seen, fun d => ?_⟩
  rw [chan, ← one.chan, rest.chan, one.chan, hg _ (enterResting_still _), ite_self]

/-- Where every channel acts on its own record, one in motion alone, so do the channels of a list one after
another. -/
theorem foldl_applied (hg : ∀ x : Channel, x.state.inMotion = false → g x = x)
    (hf : ∀ s c, Applied g [c] s (f s c) ∨ AppliedToRest g [c] s (f s c)) (hw : ∀ s c, Shifted s (f s c))
    (hl : l.Nodup) (s : State) : Applied g l s (l.foldl f s) ∨ AppliedToRest g l s (l.foldl f s) := by
  induction l generalizing s with
  | nil => exact .inl ⟨rfl, rfl, fun c => (if_neg (by simp)).symm, .inl rfl⟩
  | cons c l ih =>
    obtain ⟨hc, hl⟩ := List.nodup_cons.mp hl
    rcases hf s c with one | one
    · exact one.cons hc (hw s c) (ih hl _)
    · rcases ih hl (f s c) with rest | rest
      · exact .inr (one.cons hg hc rest)
      · cases one.dormant.symm.trans rest.closing

theorem foldl_shifted (hw : ∀ s c, Shifted s (f s c)) (l : List (Fin 4)) (s : State) :
    Shifted s (l.foldl f s) := by
  induction l generalizing s with
  | nil => rfl
  | cons c l ih => exact (hw s c).trans (ih _)

end Fold

/-! ## STOP (R51) -/

/-- A channel that has taken a STOP. -/
def Channel.afterStop (ch : Channel) : Channel :=
  match ch.state with
  | .moving => ch.stopWith .stopped
  | .homing => { ch.halt with state := .unhomed, slot := none }.takeAside
  | _ => ch

section Stop
variable {s : State} {c : Fin 4}

theorem afterStop_moving {x : Channel} (h : x.state = .moving) : x.afterStop = x.stopWith .stopped := by
  simp [Channel.afterStop, h]

theorem afterStop_homing {x : Channel} (h : x.state = .homing) :
    x.afterStop = { x.halt with state := .unhomed, slot := none }.takeAside := by
  simp [Channel.afterStop, h]

theorem afterStop_other {x : Channel} (h : x.state ≠ .moving) (h' : x.state ≠ .homing) : x.afterStop = x := by
  unfold Channel.afterStop
  split
  · exact absurd ‹_› h
  · exact absurd ‹_› h'
  · rfl

theorem abandonSearch_homing (h : (s.chan c).state = .homing) :
    s.abandonSearch c = s.changeChan c { (s.chan c).halt with state := .unhomed, slot := none } := by
  simp [State.abandonSearch, h]

theorem abandonSearch_other (h : (s.chan c).state ≠ .homing) : s.abandonSearch c = s := by
  unfold State.abandonSearch
  split
  · exact absurd ‹_› h
  · rfl

theorem takeStop_moving (h : (s.chan c).state = .moving) : s.takeStop c =
    ((s.cancelOwed c).withChan c ((s.chan c).stopWith .stopped)).channelLamps c := by
  unfold State.takeStop
  rw [enterStopping_moving h, abandonSearch_other]
  rw [channelLamps_chan, chan_withChan, if_pos rfl]
  exact ChanState.noConfusion

theorem takeStop_homing (h : (s.chan c).state = .homing) : s.takeStop c =
    s.changeChan c { (s.chan c).halt with state := .unhomed, slot := none } := by
  unfold State.takeStop
  rw [enterStopping_other (by simp [h]), abandonSearch_homing h]

theorem takeStop_other (h : (s.chan c).state ≠ .moving) (h' : (s.chan c).state ≠ .homing) :
    s.takeStop c = s := by
  unfold State.takeStop
  rw [enterStopping_other h, abandonSearch_other h']

theorem takeStop_shifted (s : State) (c : Fin 4) : Shifted s (s.takeStop c) := by
  by_cases moving : (s.chan c).state = .moving
  · rw [takeStop_moving moving]
    exact (((moved_cancelOwed s c).trans (moved_withChan _ c _)).trans (moved_channelLamps _ c)).shifted
  · by_cases homing : (s.chan c).state = .homing
    · rw [takeStop_homing homing]
      exact shifted_changeChan s c _
    · rw [takeStop_other moving homing]
      rfl

theorem takeStop_applied (s : State) (c : Fin 4) : Applied Channel.afterStop [c] s (s.takeStop c) ∨
    AppliedToRest Channel.afterStop [c] s (s.takeStop c) := by
  by_cases moving : (s.chan c).state = .moving
  · have chan : ∀ d, (s.takeStop c).chan d = if d ∈ [c] then (s.chan d).afterStop else s.chan d := by
      intro d
      rw [takeStop_moving moving, channelLamps_chan, chan_withChan, cancelOwed_chan]
      by_cases e : d = c
      · subst e
        simp [afterStop_moving moving]
      · simp [e]
    refine .inl ⟨?_, ?_, chan, .inr (awake_inMotion (c := c) ?_)⟩
    · rw [takeStop_moving moving, channelLamps_mode]
      rfl
    · rw [takeStop_moving moving]
      unfold State.channelLamps
      rfl
    · rw [chan, if_pos (List.mem_singleton_self c), afterStop_moving moving]
      rfl
  · by_cases homing : (s.chan c).state = .homing
    · rw [takeStop_homing homing]
      exact changeChan_applied (by rw [homing]; rfl) (afterStop_homing homing)
    · rw [takeStop_other moving homing]
      refine .inl ⟨rfl, rfl, fun d => ?_, .inl rfl⟩
      by_cases e : d = c
      · subst e
        simp [afterStop_other moving homing]
      · simp [e]

theorem takeAside_unhomed {x : Channel} (h : x.state = .unhomed) :
    ∃ k, x.takeAside = { x with held := k, aside := none } := by
  cases e : x.aside with
  | none => exact ⟨x.held, (takeAside_id x (.inr e)).trans (by rw [← e])⟩
  | some k =>
    refine ⟨k, ?_⟩
    unfold Channel.takeAside
    rw [e]
    exact (if_pos (by rw [h]; rfl)).trans (replaceHeld_unhomed (x := { x with aside := none }) h k)

/-- A search given up. -/
theorem abandoned_fields {x : Channel} (h : x.state = .homing) : x.afterStop.state = .unhomed ∧
    x.afterStop.slot = none ∧ x.afterStop.v = 0 ∧ x.afterStop.aside = none := by
  obtain ⟨k, taken⟩ := takeAside_unhomed (x := { x.halt with state := .unhomed, slot := none }) rfl
  rw [afterStop_homing h, taken]
  exact ⟨rfl, rfl, rfl, rfl⟩

theorem afterStop_atRest {x : Channel} :
    x.afterStop.state.atRest = true ↔ x.state.atRest = true ∨ x.state = .homing := by
  by_cases moving : x.state = .moving
  · rw [afterStop_moving moving, moving]
    simp [Channel.stopWith, ChanState.atRest]
  · by_cases homing : x.state = .homing
    · rw [(abandoned_fields homing).1, homing]
      simp [ChanState.atRest]
    · rw [afterStop_other moving homing]
      simp [homing]

theorem afterStop_still {x : Channel} (h : x.state.inMotion = false) : x.afterStop = x := by
  refine afterStop_other ?_ ?_ <;> rintro e <;> simp [e, ChanState.inMotion] at h

end Stop

section Mask
variable {s : State} {c : Fin 4} {mask : BitVec 4}

/-- The channels of a mask. -/
def maskChans (mask : BitVec 4) : List (Fin 4) := four.filter fun c => mask.getLsbD c.val

theorem mem_maskChans : c ∈ maskChans mask ↔ mask.getLsbD c.val = true := by simp [maskChans]

theorem maskChans_nodup (mask : BitVec 4) : (maskChans mask).Nodup := List.Nodup.filter _ (by decide)

theorem forMask_eq (s : State) (mask : BitVec 4) (f : State → Fin 4 → State) :
    s.forMask mask f = (maskChans mask).foldl f s := by
  rw [maskChans, List.foldl_filter]
  rfl

theorem stopMask_cases (s : State) (mask : BitVec 4) :
    Applied Channel.afterStop (maskChans mask) s (s.forMask mask State.takeStop) ∨
      AppliedToRest Channel.afterStop (maskChans mask) s (s.forMask mask State.takeStop) := by
  rw [forMask_eq]
  exact foldl_applied (fun _ => afterStop_still) takeStop_applied takeStop_shifted (maskChans_nodup mask) s

/-- The node comes to rest where the last search of a CLOSING node is given up (R31). -/
theorem stopMask_node (s : State) (mask : BitVec 4) :
    (s.forMask mask State.takeStop).mode.node ≠ s.mode.node ↔ s.mode.node = .closing ∧
      (∃ c : Fin 4, mask.getLsbD c.val = true ∧ (s.chan c).state = .homing) ∧
      (∀ c : Fin 4, (s.chan c).state = .unhomed ∨ (s.chan c).state = .idle ∨
        (s.chan c).state = .halted ∨ (s.chan c).state = .fault ∨
        (mask.getLsbD c.val = true ∧ (s.chan c).state = .homing)) ∧
      ∀ i r, s.slotAt i = some r → r.state = .acknowledged ∨ r.state = .clearing := by
  have stopped : ∀ c, (if c ∈ maskChans mask then (s.chan c).afterStop else s.chan c).state.atRest = true ↔
      (s.chan c).state = .unhomed ∨ (s.chan c).state = .idle ∨ (s.chan c).state = .halted ∨
        (s.chan c).state = .fault ∨ (mask.getLsbD c.val = true ∧ (s.chan c).state = .homing) := by
    intro c
    simp only [mem_maskChans]
    split
    · rename_i hit
      rw [afterStop_atRest]
      simp only [atRest_iff, hit, true_and, or_assoc]
    · rename_i out
      simp only [atRest_iff, out, Bool.false_eq_true, false_and, or_false]
  have wrote : Shifted s (s.forMask mask State.takeStop) := by
    rw [forMask_eq]
    exact foldl_shifted takeStop_shifted _ s
  simp only [← stopped, ← anyRecord_unseen_false]
  rcases stopMask_cases s mask with went | came
  · refine iff_of_false (not_not.mpr went.node) ?_
    rintro ⟨closing, ⟨c, hc, homing⟩, rest, seen⟩
    have own := (went.chan c).trans (if_pos (mem_maskChans.mpr hc))
    rcases went.awake with same | awake
    · rw [same] at own
      have := (abandoned_fields homing).1
      rw [← own, homing] at this
      cases this
    · refine not_awake_iff.mpr ⟨went.node.trans closing, restPasses_eq.mpr ⟨fun d => ?_, ?_⟩⟩ awake
      · rw [went.chan]
        exact rest d
      · rw [anyRecord_congr _ wrote.slotAt]
        exact seen
  · obtain ⟨c, hc, moving⟩ := came.cause
    have rest := came.rests c
    rw [if_pos hc, afterStop_atRest] at rest
    refine iff_of_true ?_ ⟨came.closing, ⟨c, mem_maskChans.mp hc, ?_⟩, came.rests, came.seen⟩
    · rw [came.dormant, came.closing]
      decide
    · rcases rest with rest | rest
      · rw [atRest_inMotion rest] at moving
        cases moving
      · exact rest

end Mask

/-! ## Channels that act on their own record, and bring no rest -/

/-- `t` is `s` but for the motion and button units, and in the motion unit but for the channels not in question and
the owed fetches. -/
structure Beside (c : Fin 4) (s t : State) : Prop where
  moved  : Moved s t
  guards : t.motion.guards = s.motion.guards
  chan   : t.chan c = s.chan c

/-- An action of channel `d` touches no other channel. -/
def Own (f : State → Fin 4 → State) : Prop := ∀ s d c, c ≠ d → Beside c s (f s d)

section Own
variable {f : State → Fin 4 → State} {s t u : State} {c d : Fin 4} {l : List (Fin 4)}

theorem Beside.refl (c : Fin 4) (s : State) : Beside c s s := ⟨rfl, rfl, rfl⟩

theorem Beside.trans (h : Beside c s t) (k : Beside c t u) : Beside c s u :=
  ⟨h.moved.trans k.moved, k.guards.trans h.guards, k.chan.trans h.chan⟩

theorem Beside.withChan (h : c ≠ d) (x : Channel) : Beside c s (s.withChan d x) :=
  ⟨moved_withChan s d x, rfl, by rw [chan_withChan, if_neg h]⟩

theorem Beside.lamps (h : Beside c s t) (d : Fin 4) : Beside c s (t.channelLamps d) :=
  ⟨h.moved.trans (moved_channelLamps t d), by rw [channelLamps_motion, h.guards], by rw [channelLamps_chan, h.chan]⟩

theorem Beside.mode (h : Beside c s t) : t.mode = s.mode := by
  have := congrArg State.mode h.moved; exact this
theorem Beside.alert (h : Beside c s t) : t.alert = s.alert := by
  have := congrArg State.alert h.moved; exact this

theorem Beside.gated (h : Beside c s t) : t.gated c = s.gated c := by
  simp only [State.gated, State.anyRecord, State.slotAt, h.chan, h.alert]

theorem Beside.guardsClosed (h : Beside c s t) (m : BitVec 4) : t.guardsClosed m = s.guardsClosed m :=
  guardsClosed_congr h.guards m

theorem foldl_beside (hf : Own f) (h : c ∉ l) (s : State) : Beside c s (l.foldl f s) := by
  induction l generalizing s with
  | nil => exact .refl c s
  | cons d l ih =>
    obtain ⟨hd, hl⟩ := not_or.mp (fun k => h (List.mem_cons.mpr k))
    exact (hf s d c hd).trans (ih hl _)

/-- What a channel becomes is what it becomes by its own action, in a state that differs in others alone. -/
theorem foldl_own (hf : Own f) (hl : l.Nodup) (hc : c ∈ l) (s : State) :
    ∃ u, Beside c s u ∧ (l.foldl f s).chan c = (f u c).chan c := by
  obtain ⟨pre, post, split⟩ := List.append_of_mem hc
  rw [split] at hl
  have hpre : c ∉ pre := fun h => (List.nodup_append.mp hl).2.2 c h c (List.mem_cons_self ..) rfl
  have hpost : c ∉ post := (List.nodup_cons.mp (List.nodup_append.mp hl).2.1).1
  rw [split, List.foldl_append, List.foldl_cons]
  exact ⟨pre.foldl f s, foldl_beside hf hpre s, (foldl_beside hf hpost _).chan⟩

theorem foldl_moved (hf : ∀ s c, Moved s (f s c)) (l : List (Fin 4)) (s : State) : Moved s (l.foldl f s) := by
  induction l generalizing s with
  | nil => rfl
  | cons c l ih => exact (hf s c).trans (ih _)

end Own

/-! ## HOME (R52, R86) -/

section Home
variable {s : State} {c : Fin 4} {k : ChannelSettings}

theorem homeAllowed_iff (s : State) : s.homeAllowed = true ↔ s.mode.mode ≠ .closed := by
  simp [State.homeAllowed]

/-- What refuses a HOME to a channel (R26, R52, R85). -/
def State.HomeRefused (s : State) (c : Fin 4) : Prop :=
  s.homeAllowed = false ∨ s.gated c = true ∨ (s.chan c).enabled = false ∨
    (s.chan c).state = .moving ∨ (s.chan c).state = .stopping ∨ (s.chan c).state = .halted ∨
    (s.chan c).state = .fault ∨ (s.chan c).state = .resting ∨
    ((s.chan c).state ≠ .homing ∧ s.guardsClosed (s.chan c).guardMap = false)

theorem takeHome_refused (h : s.HomeRefused c) : s.takeHome c = s.refuse c := by
  unfold State.takeHome
  split
  · rfl
  · rename_i free
    dsimp only
    split
    · rename_i k hk
      split
      · rfl
      · rename_i on
        have known : (s.chan c).state = .moving ∨ (s.chan c).state = .stopping ∨ (s.chan c).state = .halted ∨
            (s.chan c).state = .fault ∨ (s.chan c).state = .resting ∨
            ((s.chan c).state ≠ .homing ∧ s.guardsClosed k.guardMap = false) := by
          rw [State.HomeRefused, guardMap_copy hk, Channel.enabled, hk] at h
          rcases h with h | h | h | h
          · exact absurd (.inl h) free
          · exact absurd (.inr h) free
          · exact absurd h on
          · exact h
        cases e : (s.chan c).state <;> simp [e] at known <;> simp [known]
    all_goals rfl

theorem takeHome_allowed (hm : s.homeAllowed = true) (hg : s.gated c = false) (hh : (s.chan c).held = .copy k)
    (he : k.enabled = true) : s.takeHome c = match (s.chan c).state with
      | .unhomed | .idle =>
        if s.guardsClosed k.guardMap then s.changeChan c ((s.chan c).startSearch k) else s.refuse c
      | .homing => s
      | _ => s.refuse c := by
  unfold State.takeHome
  rw [if_neg (by simp [hm, hg]), hh]
  refine (if_neg (by simp [he])).trans ?_
  cases (s.chan c).state <;> rfl

theorem takeHome_homing (hm : s.homeAllowed = true) (hg : s.gated c = false) (hh : (s.chan c).held = .copy k)
    (he : k.enabled = true) (hs : (s.chan c).state = .homing) : s.takeHome c = s := by
  rw [takeHome_allowed hm hg hh he, hs]

/-- A search begins, and is told. -/
theorem takeHome_searches (hm : s.homeAllowed = true) (hg : s.gated c = false) (hh : (s.chan c).held = .copy k)
    (he : k.enabled = true) (hs : (s.chan c).state = .unhomed ∨ (s.chan c).state = .idle)
    (hc : s.guardsClosed k.guardMap = true) :
    s.takeHome c = (s.withChan c ((s.chan c).startSearch k)).channelLamps c := by
  rw [takeHome_allowed hm hg hh he, ← changeChan_inMotion rfl]
  rcases hs with hs | hs <;> simp [hs, hc]

/-- A HOME is refused, or finds the channel HOMING, or begins its search. -/
theorem takeHome_cases (s : State) (c : Fin 4) : s.HomeRefused c ∨ s.takeHome c = s ∨
    ∃ k, s.takeHome c = (s.withChan c ((s.chan c).startSearch k)).channelLamps c := by
  by_cases refused : s.HomeRefused c
  · exact .inl refused
  · have free := refused
    simp only [State.HomeRefused, not_or, Bool.not_eq_false, Bool.not_eq_true, not_and] at free
    obtain ⟨allowed, ungated, enabled, moving, stopping, halted, fault, resting, closed⟩ := free
    obtain ⟨k, hk, he⟩ := enabled_copy enabled
    right
    rw [guardMap_copy hk] at closed
    cases e : (s.chan c).state
    case homing => exact .inl (takeHome_homing allowed ungated hk he e)
    case unhomed =>
      exact .inr ⟨k, takeHome_searches allowed ungated hk he (.inl e) (closed (by rw [e]; decide))⟩
    case idle =>
      exact .inr ⟨k, takeHome_searches allowed ungated hk he (.inr e) (closed (by rw [e]; decide))⟩
    all_goals contradiction

theorem takeHome_moved (s : State) (c : Fin 4) : Moved s (s.takeHome c) := by
  rcases takeHome_cases s c with h | h | ⟨k, h⟩
  · rw [takeHome_refused h]
    exact moved_withChan s c _
  · rw [h]
    rfl
  · rw [h]
    exact (moved_withChan s c _).trans (moved_channelLamps _ c)

theorem takeHome_own : Own State.takeHome := by
  intro s d c hc
  rcases takeHome_cases s d with h | h | ⟨k, h⟩
  · rw [takeHome_refused h]
    exact .withChan hc _
  · rw [h]
    exact .refl c s
  · rw [h]
    exact (Beside.withChan hc _).lamps d

theorem Beside.homeRefused {t : State} (b : Beside c s t) : t.HomeRefused c ↔ s.HomeRefused c := by
  simp only [State.HomeRefused, State.homeAllowed, b.mode, b.gated, b.chan, b.guardsClosed]

/-- A channel of the mask, as a HOME of its own would leave it. -/
theorem homeMask_chan {mask : BitVec 4} (hc : mask.getLsbD c.val = true) (s : State) :
    ∃ u, Beside c s u ∧ (s.forMask mask State.takeHome).chan c = (u.takeHome c).chan c := by
  rw [forMask_eq]
  exact foldl_own takeHome_own (maskChans_nodup mask) (mem_maskChans.mpr hc) s

end Home

/-- Settles O35: STOP by what each channel becomes (`stopMask_cases`) and when the node rests (`stopMask_node`), HOME
by each channel's own HOME (`homeMask_chan`). -/
theorem stopAndHomeFollowMask : Obligations.StopAndHomeFollowMask := by
  refine ⟨homeAllowed_iff, fun mask s => ⟨fun performed => ?_, fun performed => ?_⟩⟩
  · have run : exec (.stop mask) s = .next ((s.forMask mask State.takeStop).handOn (.stop mask)) :=
      congrArg _ (takeAction_performed _ performed)
    have wrote : Shifted s (s.forMask mask State.takeStop) := by
      rw [forMask_eq]
      exact foldl_shifted takeStop_shifted _ s
    obtain ⟨motion, mode, effect, all, handed, words⟩ := wrote.handOn (.stop mask) rfl
    have chan : ∀ c, ((s.forMask mask State.takeStop).handOn (.stop mask)).chan c =
        (s.forMask mask State.takeStop).chan c := fun c => by rw [State.chan, motion, State.chan]
    refine ⟨_, run, ?_, fun c => ?_, fun same => ?_, fun other => ?_, all, handed, words⟩
    · rw [mode]
      exact stopMask_node s mask
    · rw [chan, mode]
      rcases stopMask_cases s mask with went | came
      · refine ⟨fun spared _ => ?_, fun hit moving => ?_, fun hit homing => ?_⟩
        · rw [went.chan]
          split
          · rename_i hit
            rw [mem_maskChans] at hit
            rcases spared with out | ⟨moving, homing⟩
            · rw [hit] at out
              cases out
            · exact afterStop_other moving homing
          · rfl
        · rw [went.chan, if_pos (mem_maskChans.mpr hit), afterStop_moving moving]
          exact ⟨rfl, rfl, rfl, rfl, rfl, rfl⟩
        · rw [went.chan, if_pos (mem_maskChans.mpr hit)]
          obtain ⟨unhomed, slot, v, -⟩ := abandoned_fields homing
          exact ⟨slot, v, fun _ => unhomed, fun moved => absurd went.node moved⟩
      · have moved : (s.forMask mask State.takeStop).mode.node ≠ s.mode.node := by
          rw [came.dormant, came.closing]
          decide
        refine ⟨fun _ same => absurd same moved, fun hit moving => ?_, fun hit homing => ?_⟩
        · have rest := came.rests c
          rw [if_pos (mem_maskChans.mpr hit), afterStop_moving moving] at rest
          cases rest
        · obtain ⟨unhomed, slot, v, aside⟩ := abandoned_fields homing
          rw [came.chan, if_pos (mem_maskChans.mpr hit), enterResting_eq aside]
          exact ⟨slot, v, fun same => absurd same moved, fun _ => ⟨rfl, congrArg some unhomed⟩⟩
    · rw [mode] at same ⊢
      refine ⟨wrote.mode_kept same, ?_⟩
      rcases stopMask_cases s mask with went | came
      · rw [effect, went.effect]
      · rw [came.dormant, came.closing] at same
        cases same
    · rw [mode] at other ⊢
      rcases stopMask_cases s mask with went | came
      · exact absurd went.node other
      · rw [wrote.mode, came.dormant]
  · have run : exec (.home mask) s = .next ((s.forMask mask State.takeHome).handOn (.home mask)) :=
      congrArg _ (takeAction_performed _ performed)
    have wrote : Moved s (s.forMask mask State.takeHome) := by
      rw [forMask_eq]
      exact foldl_moved takeHome_moved _ s
    obtain ⟨motion, all, handed, words⟩ := wrote.handOn (.home mask) rfl
    have chan : ∀ c, ((s.forMask mask State.takeHome).handOn (.home mask)).chan c =
        (s.forMask mask State.takeHome).chan c := fun c => by rw [State.chan, motion, State.chan]
    refine ⟨_, run, fun c => ?_, all, handed, words⟩
    rw [chan]
    refine ⟨fun out => ?_, fun hit refused => ?_, fun hit allowed ungated k hk he => ?_⟩
    · rw [forMask_eq]
      exact (foldl_beside takeHome_own (by rw [mem_maskChans, out]; decide) s).chan
    · obtain ⟨u, b, e⟩ := homeMask_chan hit s
      rw [e, takeHome_refused (b.homeRefused.mpr refused), ← b.chan]
      exact (chan_withChan ..).trans (if_pos rfl)
    · obtain ⟨u, b, e⟩ := homeMask_chan hit s
      have allowed' : u.homeAllowed = true := by rw [homeAllowed_iff, b.mode, ← homeAllowed_iff]; exact allowed
      have ungated' : u.gated c = false := b.gated.trans ungated
      have hk' : (u.chan c).held = .copy k := by rw [b.chan]; exact hk
      rw [e, ← b.chan]
      refine ⟨fun homing => by rw [takeHome_homing allowed' ungated' hk' he homing], fun ready closed => ?_⟩
      rw [takeHome_searches allowed' ungated' hk' he ready ((b.guardsClosed _).trans closed), channelLamps_chan,
        chan_withChan, if_pos rfl]
      exact ⟨rfl, rfl, rfl, rfl, rfl, rfl, rfl, dirLevel_copy _ hk', rfl⟩

end Sys2Proof.Machine
end

