-- ==== Sys2Proof/Proofs/Words.lean ====
section
/-! PROOF. What a reader takes a table word for (R159): the fields of an entry's word stand apart, so each is read
back as its own rule leaves it; the words of a channel, an effect and a cause, and the carrier and pairing. -/
namespace Sys2Proof.Machine

/-! ## The fields of an assembled word -/

theorem testBit_field (w : Word) (lo len i : Nat) :
    (field w lo len).testBit i = (decide (i < len) && w.getLsbD (lo + i)) := by
  simp [field, Nat.testBit_mod_two_pow, Nat.testBit_div_two_pow, BitVec.testBit_toNat, Nat.add_comm]

theorem field_lt (w : Word) (lo len : Nat) : field w lo len < 2 ^ len :=
  Nat.mod_lt _ (Nat.two_pow_pos _)

/-- The word that `applyRules` puts together. -/
def assembled (rules : List FieldRule) (w : Word) : Word :=
  rules.foldl (fun a r => a ||| BitVec.ofNat 32 (r.fix (field w r.lo r.len) * 2 ^ r.lo)) 0

/-- Each field's number stays within its bits, and these within the word. -/
def Fits (r : FieldRule) : Prop := r.lo + r.len ≤ 32 ∧ ∀ x, x < 2 ^ r.len → r.fix x < 2 ^ r.len

/-- Two fields share no bit. -/
def Apart (q r : FieldRule) : Prop := q.lo + q.len ≤ r.lo ∨ r.lo + r.len ≤ q.lo

theorem Apart.symm {q r : FieldRule} (h : Apart q r) : Apart r q := Or.symm h

theorem applyRules_some {rules : List FieldRule} {w : Word}
    (h : ∀ r ∈ rules, r.ok (field w r.lo r.len) = true) : applyRules rules w = some (assembled rules w) :=
  if_pos (List.all_eq_true.mpr h)

theorem applyRules_none {rules : List FieldRule} {w : Word} {r : FieldRule} (hr : r ∈ rules)
    (h : r.ok (field w r.lo r.len) = false) : applyRules rules w = none :=
  if_neg fun all => by simp [List.all_eq_true.mp all r hr] at h

theorem getLsbD_assembled (rules : List FieldRule) (w : Word) {i : Nat} (hi : i < 32) :
    (assembled rules w).getLsbD i = rules.any fun r =>
      decide (r.lo ≤ i) && (r.fix (field w r.lo r.len)).testBit (i - r.lo) := by
  have grows : ∀ (l : List FieldRule) (a : Word),
      (l.foldl (fun a r => a ||| BitVec.ofNat 32 (r.fix (field w r.lo r.len) * 2 ^ r.lo)) a).getLsbD i =
        (a.getLsbD i || l.any fun r =>
          decide (r.lo ≤ i) && (r.fix (field w r.lo r.len)).testBit (i - r.lo)) := by
    intro l
    induction l with
    | nil => intro a; simp
    | cons r l ih =>
      intro a
      rw [List.foldl_cons, ih, BitVec.getLsbD_or, BitVec.getLsbD_ofNat, Nat.testBit_mul_two_pow, List.any_cons]
      simp [hi, Bool.or_assoc]
  simpa [assembled] using grows rules 0

theorem apart_of_mem {rules : List FieldRule} (apart : rules.Pairwise Apart) {q r : FieldRule} (hq : q ∈ rules)
    (hr : r ∈ rules) : q = r ∨ Apart q r := by
  induction apart with
  | nil => cases hq
  | cons first _ ih =>
    rcases List.mem_cons.mp hq with rfl | later <;> rcases List.mem_cons.mp hr with rfl | last
    · exact .inl rfl
    · exact .inr (first r last)
    · exact .inr (first q later).symm
    · exact ih later last

/-- A field of the assembled word is what its own rule makes of it. -/
theorem field_assembled {rules : List FieldRule} {w : Word} {r : FieldRule} (hr : r ∈ rules)
    (fits : ∀ q ∈ rules, Fits q) (apart : rules.Pairwise Apart) :
    field (assembled rules w) r.lo r.len = r.fix (field w r.lo r.len) := by
  have own : ∀ q ∈ rules, q.fix (field w q.lo q.len) < 2 ^ q.len := fun q hq =>
    (fits q hq).2 _ (field_lt w q.lo q.len)
  obtain ⟨inside, -⟩ := fits r hr
  refine Nat.eq_of_testBit_eq fun i => ?_
  rw [testBit_field]
  by_cases hi : i < r.len
  · rw [getLsbD_assembled rules w (by omega), decide_eq_true hi, Bool.true_and, Bool.eq_iff_iff]
    simp only [List.any_eq_true, Bool.and_eq_true, decide_eq_true_eq]
    constructor
    · rintro ⟨q, hq, reached, bit⟩
      rcases apart_of_mem apart hq hr with rfl | below | above
      · simpa using bit
      · rw [Nat.testBit_lt_two_pow ((own q hq).trans_le (Nat.pow_le_pow_right (by omega) (by omega)))] at bit
        cases bit
      · omega
    · exact fun bit => ⟨r, hr, by omega, by simpa using bit⟩
  · rw [Nat.testBit_lt_two_pow ((own r hr).trans_le (Nat.pow_le_pow_right (by omega) (by omega)))]
    simp [hi]

/-- A bit of a field of any value reads as it stood. -/
theorem flag_assembled {rules : List FieldRule} {w : Word} {lo len i : Nat} (hr : anyValue lo len ∈ rules)
    (fits : ∀ q ∈ rules, Fits q) (apart : rules.Pairwise Apart)
    (hl : lo ≤ i) (hi : i < lo + len) : flag (assembled rules w) i = w.getLsbD i := by
  have bit := congrArg (fun n => Nat.testBit n (i - lo)) (field_assembled (w := w) hr fits apart)
  have place : lo + (i - lo) = i := by omega
  simpa [anyValue, testBit_field, place, flag, show i - lo < len by omega] using bit

theorem fits_anyValue {lo len : Nat} (h : lo + len ≤ 32) : Fits (anyValue lo len) := ⟨h, fun _ hx => hx⟩
theorem fits_codeField {lo len : Nat} {ok : Nat → Bool} (h : lo + len ≤ 32) : Fits (codeField lo len ok) :=
  ⟨h, fun _ hx => hx⟩
theorem fits_numField {lo len : Nat} {fix : Nat → Nat} (h : lo + len ≤ 32)
    (hf : ∀ x, x < 2 ^ len → fix x < 2 ^ len) : Fits (numField lo len fix) := ⟨h, hf⟩

theorem clampNat_lt {lo hi n b : Nat} (hl : lo < b) (hh : hi < b) : clampNat lo hi n < b := by
  unfold clampNat; omega

/-! ## Effect entries, causes, the carrier and pairing -/

theorem fixLevel_lt (n x : Nat) : fixLevel n x < 2 ^ n := by
  unfold fixLevel unsign
  have := Int.emod_lt_of_pos (clampInt (-255) 255 (signed n x)) (b := 2 ^ n) (by positivity)
  have nonneg := Int.emod_nonneg (clampInt (-255) 255 (signed n x)) (b := 2 ^ n) (by positivity)
  zify
  omega

theorem signed_fixLevel (x : Nat) : signed 16 (fixLevel 16 x) = max (-255) (min 255 (signed 16 x)) := by
  unfold fixLevel unsign clampInt
  generalize signed 16 x = l
  unfold signed
  norm_num
  omega

theorem readWord_some {t off i : Nat} {rotary : Bool} {w : Word} {rules : List FieldRule}
    (h : wordRules t off i rotary w = rules) (ok : ∀ r ∈ rules, r.ok (field w r.lo r.len) = true) :
    readWord t off i rotary ⟨w, false⟩ = some (assembled rules w) := by
  unfold readWord
  rw [if_neg (by simp), h]
  exact applyRules_some ok

/-- A word of one field. -/
theorem readWord_one {t off i : Nat} {rotary : Bool} {w : Word} {r : FieldRule}
    (h : wordRules t off i rotary w = [r]) (fits : Fits r) (ok : r.ok (field w r.lo r.len) = true) :
    ∃ a, readWord t off i rotary ⟨w, false⟩ = some a ∧ field a r.lo r.len = r.fix (field w r.lo r.len) :=
  ⟨assembled [r] w, readWord_some h (by simpa using ok),
    field_assembled (by simp) (by simpa using fits) (List.pairwise_singleton _ _)⟩

theorem readWord_bad {t off i : Nat} {rotary : Bool} {d : Delivered} (h : d.bad = true) :
    readWord t off i rotary d = none := if_pos h

theorem effectOfWords_copy (w0 w1 : Word) : effectOfWords [⟨w0, false⟩, ⟨w1, false⟩] =
    .copy ⟨max (-255) (min 255 (signed 16 (field w0 0 16))), field w1 0 8⟩ := by
  obtain ⟨a, ha, fa⟩ := readWord_one (t := 3) (off := 0) (i := 0) (rotary := false) (w := w0) rfl
    (fits_numField (by omega) fun x _ => fixLevel_lt 16 x) rfl
  obtain ⟨b, hb, fb⟩ := readWord_one (t := 3) (off := 1) (i := 1) (rotary := false) (w := w1) rfl
    (fits_anyValue (by omega)) rfl
  unfold effectOfWords nthWord
  simp only [List.getD_cons_zero, List.getD_cons_succ, ha, hb]
  simp only [numField, anyValue] at fa fb
  rw [fa, fb, signed_fixLevel, id]

theorem effectOfWords_damaged (d0 d1 : Delivered) (h : d0.bad = true ∨ d1.bad = true) :
    effectOfWords [d0, d1] = .damaged := by
  unfold effectOfWords nthWord
  simp only [List.getD_cons_zero, List.getD_cons_succ]
  rcases h with h | h
  · rw [readWord_bad h]
  · rw [readWord_bad h]
    cases readWord 3 0 0 false d0 <;> rfl

/-- The two fields of a cause word, and of the carrier and pairing: a code below 3, and a field of any value. -/
def codeAndValue (len : Nat) : List FieldRule := [codeField 0 2 (fun x => decide (x < 3)), anyValue 8 len]

theorem readWord_codeAndValue {t off i len : Nat} {w : Word} (h : wordRules t off i false w = codeAndValue len)
    (hl : len ≤ 8) :
    (field w 0 2 = 3 → readWord t off i false ⟨w, false⟩ = none) ∧
    (field w 0 2 ≠ 3 → ∃ a, readWord t off i false ⟨w, false⟩ = some a ∧ field a 0 2 = field w 0 2 ∧
      field a 8 len = field w 8 len) := by
  have small := field_lt w 0 2
  have fits : ∀ q ∈ codeAndValue len, Fits q := by
    simp only [codeAndValue, List.forall_mem_cons]
    exact ⟨fits_codeField (by omega), fits_anyValue (by omega), by simp⟩
  have apart : (codeAndValue len).Pairwise Apart := by simp [codeAndValue, Apart, codeField, anyValue]
  constructor
  · intro invalid
    unfold readWord
    rw [if_neg (by simp), h]
    exact applyRules_none (r := codeField 0 2 (fun x => decide (x < 3))) (by simp [codeAndValue])
      (by simp [codeField, invalid])
  · intro valid
    refine ⟨assembled (codeAndValue len) w, readWord_some h ?_, ?_, ?_⟩
    · simp only [codeAndValue, List.forall_mem_cons]
      exact ⟨decide_eq_true (show field w 0 2 < 3 by omega), rfl, by simp⟩
    · exact field_assembled (r := codeField 0 2 fun x => decide (x < 3)) (by simp [codeAndValue]) fits apart
    · exact field_assembled (r := anyValue 8 len) (by simp [codeAndValue]) fits apart

theorem causeOfWord_clean (w : Word) : causeOfWord ⟨w, false⟩ = (if field w 0 2 = 3 then .damaged else .copy
    ⟨if field w 0 2 = 0 then .notice else if field w 0 2 = 1 then .attend else .urgent, field w 8 8⟩) := by
  obtain ⟨invalid, valid⟩ := readWord_codeAndValue (t := 1) (off := 0) (i := 0) (len := 8) (w := w) rfl (by omega)
  unfold causeOfWord
  by_cases h : field w 0 2 = 3
  · rw [invalid h, if_pos h]
  · obtain ⟨a, ha, code, value⟩ := valid h
    rw [ha, if_neg h]
    simp only [code, value]
    congr 2
    have small := field_lt w 0 2
    generalize field w 0 2 = x at *
    interval_cases x <;> simp_all [levelOfCode]

theorem carrierOfWord_clean (w : Word) : carrierOfWord ⟨w, false⟩ = (if field w 0 2 = 3 then none else some
    (if field w 0 2 = 0 then .hz200 else if field w 0 2 = 1 then .khz1 else .khz20,
      BitVec.ofNat 4 (field w 8 4))) := by
  obtain ⟨invalid, valid⟩ := readWord_codeAndValue (t := 0) (off := 2) (i := 2) (len := 4) (w := w) rfl (by omega)
  unfold carrierOfWord
  by_cases h : field w 0 2 = 3
  · rw [invalid h, if_pos h]
  · obtain ⟨a, ha, code, value⟩ := valid h
    rw [ha, if_neg h]
    simp only [code, value]
    congr 2
    have small := field_lt w 0 2
    generalize field w 0 2 = x at *
    interval_cases x <;> simp_all [carrierOfCode]

theorem causeOfWord_bad {d : Delivered} (h : d.bad = true) : causeOfWord d = .damaged := by
  unfold causeOfWord; rw [readWord_bad h]

theorem carrierOfWord_bad {d : Delivered} (h : d.bad = true) : carrierOfWord d = none := by
  unfold carrierOfWord; rw [readWord_bad h]

/-! ## Channel entries -/

/-- The fields of the first word of a channel entry. -/
def channelRules : List FieldRule :=
  [anyValue 0 9, codeField 9 2 (fun x => decide (x < 3)), anyValue 12 4, codeField 16 8 (indexOrNone 32),
    numField 24 8 (clampNat 10 100)]

theorem channelRules_fit : ∀ q ∈ channelRules, Fits q := by
  simp only [channelRules, List.forall_mem_cons]
  exact ⟨fits_anyValue (by omega), fits_codeField (by omega), fits_anyValue (by omega), fits_codeField (by omega),
    fits_numField (by omega) fun _ _ => clampNat_lt (by omega) (by omega), by simp⟩

theorem channelRules_apart : channelRules.Pairwise Apart := by
  simp [channelRules, Apart, anyValue, codeField, numField]

theorem channelRules_ok {w : Word} : (∀ r ∈ channelRules, r.ok (field w r.lo r.len) = true) ↔
    field w 9 2 ≠ 3 ∧ ¬ (32 ≤ field w 16 8 ∧ field w 16 8 ≠ 255) := by
  have small := field_lt w 9 2
  simp only [channelRules, List.forall_mem_cons, anyValue, codeField, numField, indexOrNone, List.not_mem_nil,
    Bool.or_eq_true, decide_eq_true_eq, beq_iff_eq, true_and, false_imp_iff, implies_true, and_true]
  omega

/-- A field of the first word of a channel entry reads as its rule leaves it. -/
theorem field_channelRules {w : Word} {r : FieldRule} (hr : r ∈ channelRules) :
    field (assembled channelRules w) r.lo r.len = r.fix (field w r.lo r.len) :=
  field_assembled hr channelRules_fit channelRules_apart

theorem flag_channelRules {w : Word} {i : Nat} (hi : i < 9) :
    flag (assembled channelRules w) i = w.getLsbD i :=
  flag_assembled (lo := 0) (len := 9) (by simp [channelRules]) channelRules_fit channelRules_apart (Nat.zero_le i)
    (by omega)

/-- The fields of the third word of a channel entry: two speeds. -/
def speedRules : List FieldRule := [numField 0 13 (clampNat 10 5000), numField 16 13 (clampNat 10 5000)]

theorem speedRules_fit : ∀ q ∈ speedRules, Fits q := by
  have small : ∀ x, x < 2 ^ 13 → clampNat 10 5000 x < 2 ^ 13 := fun _ _ => clampNat_lt (by omega) (by omega)
  simp only [speedRules, List.forall_mem_cons]
  exact ⟨fits_numField (by omega) small, fits_numField (by omega) small, by simp⟩

theorem speedRules_apart : speedRules.Pairwise Apart := by simp [speedRules, Apart, numField]

theorem field_speedRules (w : Word) : field (assembled speedRules w) 0 13 = clampNat 10 5000 (field w 0 13) ∧
    field (assembled speedRules w) 16 13 = clampNat 10 5000 (field w 16 13) :=
  ⟨field_assembled (r := numField 0 13 (clampNat 10 5000)) (by simp [speedRules]) speedRules_fit speedRules_apart,
    field_assembled (r := numField 16 13 (clampNat 10 5000)) (by simp [speedRules]) speedRules_fit speedRules_apart⟩

theorem channelOfWords_clean (w0 w1 w2 w3 w4 w5 w6 w7 : Word) :
    channelOfWords [⟨w0, false⟩, ⟨w1, false⟩, ⟨w2, false⟩, ⟨w3, false⟩, ⟨w4, false⟩, ⟨w5, false⟩,
        ⟨w6, false⟩, ⟨w7, false⟩] =
      (if field w0 9 2 = 3 ∨ (32 ≤ field w0 16 8 ∧ field w0 16 8 ≠ 255) then .damaged else .copy
        { enabled := w0.getLsbD 0, rotary := w0.getLsbD 1, homeOutward := w0.getLsbD 2
          attend := w0.getLsbD 3, holdsPosition := w0.getLsbD 4, autoHome := w0.getLsbD 5
          reportDone := w0.getLsbD 6, invert := w0.getLsbD 7, lossFinish := w0.getLsbD 8
          policy := if field w0 9 2 = 0 then .refuse else if field w0 9 2 = 1 then .queue else .preempt
          guardMap := BitVec.ofNat 4 (field w0 12 4)
          park := if field w0 16 8 = 255 then none else some (Fin.ofNat 32 (field w0 16 8))
          quietPercent := clampNat 10 100 (field w0 24 8)
          travel := clampNat (if w0.getLsbD 1 then 2 else 1) 1000000 (field w1 0 20)
          startSpeed := clampNat 10 5000 (field w2 0 13)
          homeSpeed := clampNat 10 5000 (field w2 16 13)
          searchLimit := clampNat 1 2000000 (field w3 0 21) }) := by
  unfold channelOfWords nthWord
  simp only [List.getD_cons_zero, List.getD_cons_succ]
  by_cases damaged : field w0 9 2 = 3 ∨ (32 ≤ field w0 16 8 ∧ field w0 16 8 ≠ 255)
  · have invalid : ¬ ∀ r ∈ channelRules, r.ok (field w0 r.lo r.len) = true := by
      rw [channelRules_ok]
      tauto
    push Not at invalid
    obtain ⟨r, hr, no⟩ := invalid
    have read : readWord 2 0 0 (flag w0 1) ⟨w0, false⟩ = none := by
      unfold readWord
      rw [if_neg (by simp)]
      exact applyRules_none hr (by simpa using no)
    rw [read, if_pos damaged]
  · have read0 : readWord 2 0 0 (flag w0 1) ⟨w0, false⟩ = some (assembled channelRules w0) :=
      readWord_some rfl (channelRules_ok.mpr (by tauto))
    obtain ⟨b, read1, travel⟩ := readWord_one (t := 2) (off := 1) (i := 1) (rotary := flag w0 1) (w := w1)
      (r := numField 0 20 (clampNat (if flag w0 1 then 2 else 1) 1000000)) rfl
      (fits_numField (by omega) fun _ _ => clampNat_lt (by split <;> omega) (by omega)) rfl
    have read2 : readWord 2 2 2 (flag w0 1) ⟨w2, false⟩ = some (assembled speedRules w2) :=
      readWord_some rfl (by simp [speedRules, numField])
    obtain ⟨d, read3, search⟩ := readWord_one (t := 2) (off := 3) (i := 3) (rotary := flag w0 1) (w := w3)
      (r := numField 0 21 (clampNat 1 2000000)) rfl
      (fits_numField (by omega) fun _ _ => clampNat_lt (by omega) (by omega)) rfl
    obtain ⟨start, home⟩ := field_speedRules w2
    have policy : field (assembled channelRules w0) 9 2 = field w0 9 2 :=
      field_channelRules (r := codeField 9 2 fun x => decide (x < 3)) (by simp [channelRules])
    have map : field (assembled channelRules w0) 12 4 = field w0 12 4 :=
      field_channelRules (r := anyValue 12 4) (by simp [channelRules])
    have park : field (assembled channelRules w0) 16 8 = field w0 16 8 :=
      field_channelRules (r := codeField 16 8 (indexOrNone 32)) (by simp [channelRules])
    have quiet : field (assembled channelRules w0) 24 8 = clampNat 10 100 (field w0 24 8) :=
      field_channelRules (r := numField 24 8 (clampNat 10 100)) (by simp [channelRules])
    have code : policyOfCode (field w0 9 2) =
        (if field w0 9 2 = 0 then .refuse else if field w0 9 2 = 1 then .queue else .preempt) := by
      have small := field_lt w0 9 2
      generalize field w0 9 2 = x at small ⊢
      interval_cases x <;> rfl
    simp only [numField] at travel search
    rw [if_neg damaged]
    simp only [read0, read1, read2, read3, List.drop_succ_cons, List.drop_zero, List.all_cons, List.all_nil,
      Bool.not_false, Bool.and_self, flag_channelRules, Nat.reduceLT, policy, map, park, quiet, start, home, travel,
      search, code]
    rfl

theorem channelOfWords_bad {ds : List Delivered} (hl : ds.length = 8) (bad : ∃ d, d ∈ ds ∧ d.bad = true) :
    channelOfWords ds = .damaged := by
  obtain ⟨d, hd, bad⟩ := bad
  obtain ⟨n, hn, rfl⟩ := List.getElem_of_mem hd
  have nth : (nthWord ds n).bad = true := by
    simpa [nthWord, List.getD_eq_getElem?_getD, List.getElem?_eq_getElem hn] using bad
  by_cases early : n < 4
  · have read : readWord 2 n n (flag (nthWord ds 0).data 1) (nthWord ds n) = none := readWord_bad nth
    unfold channelOfWords
    interval_cases n
    all_goals simp only [read]
    all_goals split <;> simp_all
  · have late : (ds.drop 4).all (fun d => !d.bad) = false := by
      rw [List.all_eq_false]
      exact ⟨ds[n], by rw [List.mem_drop_iff_getElem]; exact ⟨n - 4, by omega, by congr; omega⟩, by simpa using bad⟩
    unfold channelOfWords
    simp only [late]
    split <;> simp_all

/-- The local-play word is a flag, clear where it reads damaged. -/
theorem localPlayOf_eq (d : Delivered) : localPlayOf d = (!d.bad && d.data.getLsbD 0) := by
  obtain ⟨w, _ | _⟩ := d
  · unfold localPlayOf
    rw [readWord_some (rules := [anyValue 0 1]) rfl (by simp [anyValue])]
    simpa using flag_assembled (w := w) (lo := 0) (len := 1) (i := 0) (List.mem_singleton_self _)
      (by simpa using fits_anyValue (by omega)) (by simp) (Nat.le_refl 0) (by omega)
  · unfold localPlayOf
    rw [readWord_bad rfl]
    rfl

end Sys2Proof.Machine
end

