-- ==== Sys2Proof/Proofs/Settings.lean ====
section
/-! PROOF. What a block makes of a settings word delivered to it (R58, R78, R123, R134, R154): the words of an entry
kept, and the complete entry taken, by the effect unit, the alert unit and the mode unit. -/
namespace Sys2Proof.Machine

section Path
variable {s next : State} {i : Nat} {rest : List Ask} {got : List Delivered} {job : Job}

/-- The end of an access that no reset recalled: the word goes to its reader, and the arbiter chooses again. -/
theorem deliver_fresh {op : AccessOp} {who : Requester} {take : Delivered → State → State}
    (h : s.mem.access = some ⟨op, i, false⟩) :
    s.deliver op who take = (take (s.wordAt i) (s.readFor i who)).endAccess := by
  unfold State.deliver
  rw [h]
  exact (if_pos rfl).trans (congrArg State.endAccess (if_neg (by simp)))

theorem settingsWord_kept {d : Delivered} {finish : Ask → State → State} (hp : s.mem.path = ⟨job, got⟩ :: rest)
    (h : got.length + 1 < job.len) :
    s.settingsWord d finish = { s with mem.path := ⟨job, got ++ [d]⟩ :: rest } := by
  have kept : s.pathWord d = { s with mem.path := ⟨job, got ++ [d]⟩ :: rest } := by
    unfold State.pathWord; rw [hp]
  have more : (s.pathWord d).pathDone = none := by
    rw [kept]
    exact if_pos (by simpa using h)
  unfold State.settingsWord
  dsimp only
  rw [more, kept]

theorem settingsWord_done {d : Delivered} {finish : Ask → State → State} (hp : s.mem.path = ⟨job, got⟩ :: rest)
    (h : job.len ≤ got.length + 1) :
    s.settingsWord d finish = finish ⟨job, got ++ [d]⟩ { s with mem.path := rest }.ask := by
  have kept : s.pathWord d = { s with mem.path := ⟨job, got ++ [d]⟩ :: rest } := by
    unfold State.pathWord; rw [hp]
  have done : (s.pathWord d).pathDone = some ⟨job, got ++ [d]⟩ := by
    rw [kept]
    exact if_neg (by simpa using h)
  unfold State.settingsWord
  dsimp only
  rw [done, kept]
  rfl

/-- `t` is `s` but for the memory unit, whose words stand and whose path and debts are those of `next`. -/
def Asked (s next t : State) : Prop :=
  t = { s with mem := t.mem } ∧ t.mem.path = next.mem.path ∧ t.mem.owed = next.mem.owed ∧
    t.mem.words = s.mem.words

/-- The last word of an entry: the block asks for the next entry it owes, and takes the complete one. -/
theorem deliver_done {b : Block} {who : Requester} {finish : Ask → State → State}
    (ha : s.mem.access = some ⟨.settings b, i, false⟩) (hp : s.mem.path = ⟨job, got⟩ :: rest)
    (h : job.len ≤ got.length + 1) (hn : next = ({ s with mem.path := rest }).ask) :
    ∃ m, Asked s next { s with mem := m } ∧
      s.deliver (.settings b) who (fun d a => a.settingsWord d finish) =
        (finish ⟨job, got ++ [s.wordAt i]⟩ { s with mem := m }).endAccess := by
  obtain ⟨l, a, u, read⟩ := readFor_eq s i who
  have head : (s.readFor i who).mem.path = ⟨job, got⟩ :: rest := by rw [read]; exact hp
  have same := ask_congr (s := { s with mem.path := rest }) (t := { s.readFor i who with mem.path := rest })
    (by rw [read]; exact ⟨rfl, rfl⟩)
  obtain ⟨p, o, asked⟩ := ask_eq { s.readFor i who with mem.path := rest }
  have whole : State.ask { s.readFor i who with mem.path := rest } =
      { s with mem := (State.ask { s.readFor i who with mem.path := rest }).mem } := by rw [asked, read]
  have words : (State.ask { s.readFor i who with mem.path := rest }).mem.words = s.mem.words := by rw [asked, read]
  rw [← hn] at same
  exact ⟨_, ⟨rfl, same.1, same.2, words⟩,
    (deliver_fresh ha).trans (congrArg State.endAccess ((settingsWord_done head h).trans (congrArg _ whole)))⟩

/-- What a delivery ends in: the state its reader leaves, and the end of the access. -/
def thenEnds (u : State) : Host.Outcome State Fault Refusal := .next u.endAccess

theorem endAccess_mem (s : State) : s.endAccess = { s with mem := s.endAccess.mem } ∧
    s.endAccess.mem.path = s.mem.path ∧ s.endAccess.mem.owed = s.mem.owed ∧
    s.endAccess.mem.words = s.mem.words := by
  obtain ⟨a, p, w, e⟩ := endAccess_eq s
  rw [e]
  exact ⟨rfl, rfl, rfl, rfl⟩

end Path

/-! ## The effect unit -/

section Effects
variable {s next : State} {m : TableMemory} {o : Fin 8} {d : Delivered}

theorem effectCopy_clean {e : Ask} (he : e.job.entry = o.val) (h : effectOfWords e.got ≠ .damaged) :
    s.effectCopy e = s.withOut o { s.out o with held := effectOfWords e.got } := by
  unfold State.effectCopy
  have ho : (Fin.ofNat 8 e.job.entry) = o := Fin.ext (by simp [he])
  rw [if_neg (by omega), ho]
  dsimp only
  split
  · exact absurd ‹_› h
  all_goals rfl

theorem effectCopy_damaged {e : Ask} (he : e.job.entry = o.val) (h : effectOfWords e.got = .damaged) :
    s.effectCopy e = (s.withOut o { s.out o with held := .damaged }).raise .tableDamage 3 := by
  unfold State.effectCopy
  have ho : (Fin.ofNat 8 e.job.entry) = o := Fin.ext (by simp [he])
  rw [if_neg (by omega), ho, h]

theorem carrierCopy_first {k : Carrier} {p : BitVec 4} (h : carrierOfWord d = some (k, p))
    (first : s.effect.carrier = none) : s.carrierCopy d = s.firstCarrier k p := by
  unfold State.carrierCopy; rw [h, first]

theorem carrierCopy_again {k : Carrier} {p : BitVec 4} (h : carrierOfWord d = some (k, p))
    (again : s.effect.carrier ≠ none) :
    s.carrierCopy d = { s with effect.carrier := some k }.changePairing p := by
  obtain ⟨k', hk⟩ := Option.ne_none_iff_exists'.mp again
  unfold State.carrierCopy; rw [h, hk]

theorem carrierCopy_damaged (h : carrierOfWord d = none) : s.carrierCopy d =
    (if s.effect.carrier = none then (s.raise .tableDamage 0).firstCarrier .khz1 0
      else s.raise .tableDamage 0) := by
  unfold State.carrierCopy
  rw [h]
  cases hk : s.effect.carrier <;> simp

/-- The high times that the first taking of the carrier gives are those of the drive levels after it. -/
theorem firstCarrier_out (k : Carrier) (p : BitVec 4) (o : Fin 8) :
    (s.firstCarrier k p).out o = { s.out o with highTime := (s.firstCarrier k p).driveLevel o * k.period / 255 } := by
  have fine : ∀ q, ((s.firstCarrier k p).out q).fine = (s.out q).fine := fun q => by
    simp [State.firstCarrier, State.takeLevels, State.out]
  have drive : (s.firstCarrier k p).driveLevel o =
      State.driveLevel { s with
        effect.carrier := some k, effect.inForce := k, effect.pairing := p, effect.counter := 0
        effect.counting := true } o := by
    unfold State.driveLevel
    rw [fine]
    rfl
  rw [drive]
  simp [State.firstCarrier, State.takeLevels, State.out]

theorem changePairing_out (p : BitVec 4) (o : Fin 8) : (s.changePairing p).out o =
    (if p.getLsbD (o.val / 2) = s.effect.pairing.getLsbD (o.val / 2) then s.out o
      else { s.out o with
        fine := 0, target := 0, running := false
        dead := if p.getLsbD (o.val / 2) = true ∧ o.val % 2 = 0 then s.deadInterval (pairOf o) else 0 }) := by
  have hk : (pairOf o).val = o.val / 2 := by
    simp only [pairOf, Fin.val_ofNat]
    omega
  simp only [State.changePairing, State.out, Fin.getElem_fin, Vector.getElem_ofFn, hk]
  rfl

/-- TABLE-DAMAGE of the effect unit: it is recorded or overflows, and the other units stand. -/
theorem raise_tells (c : Cause) (n : Nat) :
    ((s.raise c n).endAccess.findRecord c n).isSome = true ∨ (s.raise c n).endAccess.alert.overflow = true := by
  have found := raise_findRecord s c n none none
  have alert : (s.raise c n).endAccess.alert = (s.raise c n).alert := by rw [(endAccess_mem _).1]
  have slots : (s.raise c n).endAccess.findRecord c n = (s.raise c n).findRecord c n := by rw [(endAccess_mem _).1]; rfl
  rw [alert, slots]
  exact found

theorem raise_endAccess (c : Cause) (n : Nat) :
    (s.raise c n).endAccess.cue = s.cue ∧ (s.raise c n).endAccess.mgmt = s.mgmt ∧
    (s.raise c n).endAccess.mode = s.mode ∧ (s.raise c n).endAccess.effect = s.effect ∧
    (s.raise c n).endAccess.alert.held = s.alert.held ∧
    (s.raise c n).endAccess.mem.path = s.mem.path ∧ (s.raise c n).endAccess.mem.owed = s.mem.owed ∧
    (s.raise c n).endAccess.mem.words = s.mem.words := by
  have mild := mild_raise (s := s) c n
  obtain ⟨e, path, owed, words⟩ := endAccess_mem (s.raise c n)
  rw [path, owed, words, mild.mem]
  rw [e]
  exact ⟨mild.cue, mild.mgmt, mild.mode, mild.effect, mild.held, rfl, rfl, rfl⟩

/-- What holds of the effect unit's last word of an entry, and of the node settings word. -/
theorem exec_effect_done {job : Job} {rest : List Ask} {got : List Delivered} {i : Nat}
    (ha : s.mem.access = some ⟨.settings .effect, i, false⟩) (hp : s.mem.path = ⟨job, got⟩ :: rest)
    (h : job.len ≤ got.length + 1) (hn : next = ({ s with mem.path := rest }).ask) :
    ∃ m, Asked s next { s with mem := m } ∧ exec .effectSettingsRead s =
      thenEnds (({ s with mem := m }).effectCopy ⟨job, got ++ [s.wordAt i]⟩) :=
  let ⟨m, asked, e⟩ := deliver_done (who := .effect) (finish := fun e b => b.effectCopy e) ha hp h hn
  ⟨m, asked, congrArg Host.Outcome.next e⟩

/-- The first word of an effect entry is kept. -/
theorem exec_effect_kept {rest : List Ask} {i : Nat} (ha : s.mem.access = some ⟨.settings .effect, i, false⟩)
    (hp : s.mem.path = ⟨⟨.effect, o.val⟩, []⟩ :: rest) : exec .effectSettingsRead s = .next
      ({ s.readFor i .effect with mem.path := ⟨⟨.effect, o.val⟩, [s.wordAt i]⟩ :: rest }).endAccess := by
  have len : (⟨.effect, o.val⟩ : Job).len = 2 := if_neg (by have := o.isLt; dsimp only; omega)
  obtain ⟨l, a, u, read⟩ := readFor_eq s i .effect
  refine congrArg _ ((deliver_fresh ha).trans (congrArg State.endAccess ?_))
  exact settingsWord_kept (got := []) (rest := rest) (by rw [read]; exact hp) (by rw [len]; exact Nat.lt_succ_self 1)

theorem effectEntry_taken {rest : List Ask} {got : List Delivered} {i : Nat}
    (ha : s.mem.access = some ⟨.settings .effect, i, false⟩)
    (hp : s.mem.path = ⟨⟨.effect, o.val⟩, got⟩ :: rest) (hl : got.length = 1)
    (hn : next = ({ s with mem.path := rest }).ask) :
    ∃ t, exec .effectSettingsRead s = .next t ∧ t.mem.path = next.mem.path ∧ t.mem.owed = next.mem.owed ∧
      t.out o = { s.out o with held := effectOfWords (got ++ [s.wordAt i]) } ∧
      (∀ p, p ≠ o → t.out p = s.out p) ∧ t.mem.words = s.mem.words ∧ t.cue = s.cue ∧
      t.mgmt = s.mgmt ∧ t.mode = s.mode ∧
      (effectOfWords (got ++ [s.wordAt i]) = .damaged →
        (t.findRecord .tableDamage 3).isSome = true ∨ t.alert.overflow = true) ∧
      (effectOfWords (got ++ [s.wordAt i]) ≠ .damaged →
        t = { s with effect := t.effect, mem := t.mem }) := by
  have len : (⟨.effect, o.val⟩ : Job).len = 2 := if_neg (by have := o.isLt; dsimp only; omega)
  obtain ⟨m, ⟨-, path, owed, words⟩, e⟩ := exec_effect_done ha hp (by rw [len]; omega) hn
  have kept : ∀ p, p ≠ o → (({ s with mem := m }).withOut o
      { s.out o with held := effectOfWords (got ++ [s.wordAt i]) }).out p = s.out p := fun p hpo => by
    rw [out_withOut, if_neg hpo]
    rfl
  have taken : (({ s with mem := m }).withOut o { s.out o with held := effectOfWords (got ++ [s.wordAt i]) }).out o =
      { s.out o with held := effectOfWords (got ++ [s.wordAt i]) } := by
    rw [out_withOut, if_pos rfl]
  by_cases damaged : effectOfWords (got ++ [s.wordAt i]) = .damaged
  · refine ⟨_, e.trans (congrArg thenEnds (effectCopy_damaged rfl damaged)), ?_⟩
    rw [damaged] at kept taken ⊢
    obtain ⟨cue, mgmt, mode, effect, -, p, q, w⟩ := raise_endAccess (s := ({ s with mem := m }).withOut o
      { s.out o with held := .damaged }) .tableDamage 3
    have out : ∀ q, State.out (State.endAccess (State.raise (({ s with mem := m }).withOut o
        { s.out o with held := .damaged }) .tableDamage 3)) q =
        (({ s with mem := m }).withOut o { s.out o with held := .damaged }).out q := fun q => by
      rw [State.out, effect]
      rfl
    exact ⟨p.trans path, q.trans owed, (out o).trans taken, fun q hq => (out q).trans (kept q hq), w.trans words,
      cue, mgmt, mode, fun _ => raise_tells _ _, fun no => absurd rfl no⟩
  · obtain ⟨same, p, q, w⟩ := endAccess_mem (({ s with mem := m }).withOut o
      { s.out o with held := effectOfWords (got ++ [s.wordAt i]) })
    have e : exec .effectSettingsRead s = thenEnds (({ s with mem := m }).withOut o
        { s.out o with held := effectOfWords (got ++ [s.wordAt i]) }) :=
      e.trans (congrArg thenEnds (effectCopy_clean rfl damaged))
    refine ⟨_, e, p.trans path, q.trans owed, ?_, ?_, w.trans words, ?_, ?_, ?_, fun no => absurd no damaged, fun _ => ?_⟩
    · rw [same]; exact taken
    · rw [same]; exact kept
    all_goals rw [same]; rfl

theorem carrier_taken {rest : List Ask} {i : Nat} {k : Carrier} {p : BitVec 4}
    (ha : s.mem.access = some ⟨.settings .effect, i, false⟩)
    (hp : s.mem.path = ⟨⟨.effect, 8⟩, []⟩ :: rest) (hn : next = ({ s with mem.path := rest }).ask)
    (hc : carrierOfWord (s.wordAt i) = some (k, p)) :
    ∃ t, exec .effectSettingsRead s = .next t ∧ t.mem.path = next.mem.path ∧
      t.mem.owed = next.mem.owed ∧ t.effect.carrier = some k ∧ t.effect.pairing = p ∧
      t = { s with effect := t.effect, mem := t.mem } ∧ t.mem.words = s.mem.words ∧
      (s.effect.carrier = none → t.effect.counter = 0 ∧ t.effect.inForce = k ∧
        t.effect.counting = true ∧ ∀ o, t.out o = { s.out o with highTime := t.driveLevel o * k.period / 255 }) ∧
      (s.effect.carrier ≠ none → t.effect.inForce = s.effect.inForce ∧ ∀ o : Fin 8, t.out o =
        (if p.getLsbD (o.val / 2) = s.effect.pairing.getLsbD (o.val / 2) then s.out o
        else { s.out o with
          fine := 0, target := 0, running := false
          dead := if p.getLsbD (o.val / 2) = true ∧ o.val % 2 = 0 then s.deadInterval (pairOf o)
            else 0 })) := by
  obtain ⟨m, ⟨-, path, owed, words⟩, e⟩ := exec_effect_done ha hp (Nat.le_refl 1) hn
  by_cases first : s.effect.carrier = none
  · refine ⟨_, e.trans (congrArg thenEnds (carrierCopy_first (s := { s with mem := m }) hc first)), ?_⟩
    obtain ⟨e, a, b, w⟩ := endAccess_mem (({ s with mem := m }).firstCarrier k p)
    rw [a, b, w, e]
    exact ⟨path, owed, rfl, rfl, rfl, words, fun _ => ⟨rfl, rfl, rfl, firstCarrier_out k p⟩, fun no => absurd first no⟩
  · refine ⟨_, e.trans (congrArg thenEnds (carrierCopy_again (s := { s with mem := m }) hc first)), ?_⟩
    obtain ⟨e, a, b, w⟩ := endAccess_mem (({ s with mem := m, effect.carrier := some k }).changePairing p)
    rw [a, b, w, e]
    exact ⟨path, owed, rfl, rfl, rfl, words, fun no => absurd no first, fun _ => ⟨rfl, changePairing_out p⟩⟩

theorem carrier_damaged {rest : List Ask} {i : Nat} (ha : s.mem.access = some ⟨.settings .effect, i, false⟩)
    (hp : s.mem.path = ⟨⟨.effect, 8⟩, []⟩ :: rest) (hn : next = ({ s with mem.path := rest }).ask)
    (hc : carrierOfWord (s.wordAt i) = none) :
    ∃ t, exec .effectSettingsRead s = .next t ∧ t.mem.path = next.mem.path ∧
      t.mem.owed = next.mem.owed ∧ t.mem.words = s.mem.words ∧ t.cue = s.cue ∧
      t.mgmt = s.mgmt ∧ ((t.findRecord .tableDamage 0).isSome = true ∨ t.alert.overflow = true) ∧
      (s.effect.carrier ≠ none → t.effect = s.effect) ∧
      (s.effect.carrier = none → t.effect.carrier = some .khz1 ∧ t.effect.inForce = .khz1 ∧
        t.effect.pairing = 0 ∧ t.effect.counter = 0 ∧ t.effect.counting = true) := by
  obtain ⟨m, ⟨-, path, owed, words⟩, e⟩ := exec_effect_done ha hp (Nat.le_refl 1) hn
  have copied := carrierCopy_damaged (s := { s with mem := m }) hc
  by_cases first : s.effect.carrier = none
  · refine ⟨_, e.trans (congrArg thenEnds (copied.trans (if_pos first))), ?_⟩
    have mild := mild_raise (s := { s with mem := m }) .tableDamage 0
    have found := raise_findRecord ({ s with mem := m } : State) .tableDamage 0 none none
    obtain ⟨e, a, b, w⟩ := endAccess_mem ((State.raise { s with mem := m } .tableDamage 0).firstCarrier .khz1 0)
    rw [a, b, w, e]
    refine ⟨?_, ?_, ?_, mild.cue, mild.mgmt, found, fun no => absurd first no, fun _ => ⟨rfl, rfl, rfl, rfl, rfl⟩⟩
    · exact (congrArg TableMemory.path mild.mem).trans path
    · exact (congrArg TableMemory.owed mild.mem).trans owed
    · exact (congrArg TableMemory.words mild.mem).trans words
  · refine ⟨_, e.trans (congrArg thenEnds (copied.trans (if_neg first))), ?_⟩
    obtain ⟨cue, mgmt, -, effect, -, a, b, w⟩ := raise_endAccess (s := { s with mem := m }) .tableDamage 0
    exact ⟨a.trans path, b.trans owed, w.trans words, cue, mgmt, raise_tells _ _, fun _ => effect,
      fun no => absurd no first⟩

/-- The dead interval in force, by the held entry of the pair's even output. -/
theorem deadInterval_cases (k : Fin 4) :
    (∀ e, (s.out (evenOf k)).held = .copy e → s.deadInterval k = e.dead) ∧
    ((s.out (evenOf k)).held = .damaged → s.deadInterval k = 255) ∧
    ((s.out (evenOf k)).held = .absent → s.deadInterval k ≤ 255) := by
  unfold State.deadInterval
  refine ⟨fun e h => by rw [h], fun h => by rw [h], fun h => ?_⟩
  rw [h]
  exact Nat.le_of_lt_succ (Fin.isLt _)

end Effects

/-! ## The alert unit -/

section Causes
variable {s next : State} {rest : List Ask} {i : Nat} {j : Fin 12}

theorem causeCopy_clean {h : Held CauseSettings} (hh : h ≠ .damaged) :
    s.causeCopy j h = { s with alert.held := s.alert.held.set j h } := by
  cases h with
  | damaged => exact absurd rfl hh
  | absent => rfl
  | copy k => rfl

theorem cause_taken (ha : s.mem.access = some ⟨.settings .alert, i, false⟩)
    (hp : s.mem.path = ⟨⟨.alert, j.val⟩, []⟩ :: rest) (hn : next = ({ s with mem.path := rest }).ask) :
    ∃ t, exec .alertSettingsRead s = .next t ∧ t.mem.path = next.mem.path ∧
      t.mem.owed = next.mem.owed ∧
      t.alert.held = s.alert.held.set j (causeOfWord (s.wordAt i)) ∧
      t.effect = s.effect ∧ t.mode = s.mode ∧ t.cue = s.cue ∧ t.mgmt = s.mgmt ∧
      t.mem.words = s.mem.words ∧
      (causeOfWord (s.wordAt i) = .damaged →
        (t.findRecord .tableDamage 1).isSome = true ∨ t.alert.overflow = true) ∧
      (causeOfWord (s.wordAt i) ≠ .damaged → t = { s with
        alert.held := t.alert.held, mem := t.mem }) := by
  obtain ⟨m, ⟨-, path, owed, words⟩, e⟩ := deliver_done (who := .alert)
    (finish := fun e b => b.causeCopy (Fin.ofNat 12 e.job.entry) (causeOfWord (nthWord e.got 0)))
    ha hp (Nat.le_refl 1) hn
  have hj : Fin.ofNat 12 j.val = j := Fin.ext (Nat.mod_eq_of_lt j.isLt)
  have e : exec .alertSettingsRead s = thenEnds (({ s with mem := m }).causeCopy j (causeOfWord (s.wordAt i))) := by
    rw [← hj]
    exact congrArg Host.Outcome.next e
  by_cases damaged : causeOfWord (s.wordAt i) = .damaged
  · rw [damaged] at e ⊢
    refine ⟨_, e, ?_⟩
    obtain ⟨cue, mgmt, mode, effect, held, a, b, w⟩ := raise_endAccess
      (s := { s with mem := m, alert.held := s.alert.held.set j .damaged }) .tableDamage 1
    exact ⟨a.trans path, b.trans owed, held, effect, mode, cue, mgmt, w.trans words, fun _ => raise_tells _ _,
      fun no => absurd rfl no⟩
  · refine ⟨_, e.trans (congrArg thenEnds (causeCopy_clean damaged)), ?_⟩
    obtain ⟨e, a, b, w⟩ := endAccess_mem
      { s with mem := m, alert.held := s.alert.held.set j (causeOfWord (s.wordAt i)) }
    rw [a, b, w, e]
    exact ⟨path, owed, rfl, rfl, rfl, rfl, rfl, words, fun no => absurd no damaged, fun _ => rfl⟩

/-- The settings of a cause, by what is held of its word. -/
theorem causeSettings_cases (s : State) (c : Cause) :
    (∀ j, s.alert.held[c.code] = .copy j → s.causeSettings c = j) ∧
    (s.alert.held[c.code] = .damaged → s.causeSettings c = ⟨.urgent, 0⟩) ∧
    (s.alert.held[c.code] = .absent → s.causeSettings c = blankCause c) := by
  unfold State.causeSettings
  exact ⟨fun j h => by rw [h], fun h => by rw [h], fun h => by rw [h]⟩

end Causes

/-! ## The mode unit -/

section LocalPlay
variable {s next : State} {rest : List Ask} {i : Nat}

theorem localPlay_taken (ha : s.mem.access = some ⟨.settings .mode, i, false⟩)
    (hp : s.mem.path = ⟨⟨.mode, 0⟩, []⟩ :: rest) (hn : next = ({ s with mem.path := rest }).ask) :
    ∃ t, exec .localPlayRead s = .next t ∧ t.mem.path = next.mem.path ∧
      t.mem.owed = next.mem.owed ∧
      t.mode = { s.mode with
        localPlay := if s.mode.lineLost then some (!(s.wordAt i).bad && (s.wordAt i).data.getLsbD 0)
          else s.mode.localPlay } ∧
      (s.mode.lineLost = true → ∀ b, t.btn b = { s.btn b with lamp := t.lampFor b }) ∧
      (s.mode.lineLost = false → t.button = s.button) ∧
      t.motion = s.motion ∧ t.effect = s.effect ∧ t.alert = s.alert ∧ t.ring = s.ring ∧
      t.cue = s.cue ∧ t.mgmt = s.mgmt ∧ t.mem.words = s.mem.words := by
  obtain ⟨m, ⟨-, path, owed, words⟩, e⟩ := deliver_done (who := .mode)
    (finish := fun e b => b.takeLocalPlay (nthWord e.got 0)) ha hp (Nat.le_refl 1) hn
  have e : exec .localPlayRead s = thenEnds (({ s with mem := m }).takeLocalPlay (s.wordAt i)) :=
    congrArg Host.Outcome.next e
  rw [State.takeLocalPlay, localPlayOf_eq] at e
  by_cases lost : s.mode.lineLost = true
  · refine ⟨_, e.trans (congrArg thenEnds (if_pos lost)), ?_⟩
    rw [if_pos lost]
    generalize some (!(s.wordAt i).bad && (s.wordAt i).data.getLsbD 0) = x
    obtain ⟨e, a, b, w⟩ := endAccess_mem (State.allLamps { s with mem := m, mode.localPlay := x })
    have fresh : ∀ k, (State.endAccess (State.allLamps { s with mem := m, mode.localPlay := x })).lampFor k =
        State.lampFor { s with mem := m, mode.localPlay := x } k := fun k => by
      rw [e]
      exact lampFor_congr (allLamps_btn ({ s with mem := m, mode.localPlay := x } : State) k) rfl rfl rfl
    refine ⟨a.trans path, b.trans owed, ?_, fun _ k => ?_, fun no => absurd lost (by simp [no]), ?_⟩
    · rw [e]; rfl
    · rw [fresh k, e]
      exact allLamps_btn ({ s with mem := m, mode.localPlay := x } : State) k
    · rw [w, e]
      exact ⟨rfl, rfl, rfl, rfl, rfl, rfl, words⟩
  · refine ⟨_, e.trans (congrArg thenEnds (if_neg lost)), ?_⟩
    rw [if_neg lost]
    obtain ⟨e, a, b, w⟩ := endAccess_mem { s with mem := m }
    rw [a, b, w, e]
    exact ⟨path, owed, rfl, fun no => absurd no lost, fun _ => rfl, rfl, rfl, rfl, rfl, rfl, rfl, words⟩

end LocalPlay

/-- Settles O47: the decoders by the fields of their words, and each settings word by what its block makes of it. -/
theorem effectAlertAndLocalPlayWordsAreTaken : Obligations.EffectAlertAndLocalPlayWordsAreTaken := by
  refine ⟨?_, ?_, fun s k => deadInterval_cases k, fun s c => ?_, ?_⟩
  · rintro w0 w1 l rfl
    exact ⟨effectOfWords_copy w0 w1, causeOfWord_clean w0, carrierOfWord_clean w0⟩
  · exact fun d0 d1 => ⟨effectOfWords_damaged d0 d1, fun bad => ⟨causeOfWord_bad bad, carrierOfWord_bad bad⟩⟩
  · exact causeSettings_cases s c
  · intro s next i rest got hn
    refine ⟨fun o ha hp => exec_effect_kept ha hp, fun o ha hp hl => effectEntry_taken ha hp hl hn,
      fun k p ha hp hc => ?_, fun ha hp hc => ?_, fun j ha hp => cause_taken ha hp hn,
      fun ha hp => localPlay_taken ha hp hn⟩
    · obtain ⟨t, e, path, owed, carrier, pairing, same, words, first, again⟩ := carrier_taken ha hp hn hc
      refine ⟨t, e, path, owed, carrier, pairing, same, words, fun none => ?_, again⟩
      cases k <;> exact first none
    · obtain ⟨t, e, path, owed, words, cue, mgmt, told, kept, first⟩ := carrier_damaged ha hp hn hc
      exact ⟨t, e, path, owed, words, cue, mgmt, told, fun held _ => kept held, first⟩

end Sys2Proof.Machine
end

