-- ==== Sys2Proof/Proofs/Copies.lean ====
section
/-! PROOF. What a new copy of a channel entry makes of the channel (R78, R79): each changed field, by the state the
channel is in; the change of channel state that follows, and the delivery of the entry's words. -/
namespace Sys2Proof.Machine

/-! ## Replacing the held copy (R79) -/

section Replace
variable {x : Channel} {h : Held ChannelSettings} {j k : ChannelSettings}

/-- After no copy, or a DAMAGED one, the channel stands. -/
theorem replaceHeld_first (hh : x.held = .absent ∨ x.held = .damaged) : x.replaceHeld h = { x with held := h } := by
  unfold Channel.replaceHeld
  rcases hh with hh | hh <;> rw [hh]

theorem replaceHeld_idle_lost (hs : x.state = .idle) (hh : x.held = .copy j) (hk : h = .damaged ∨ h = .absent) :
    x.replaceHeld h = { x with held := h, state := .unhomed, position := 0 } := by
  unfold Channel.replaceHeld Channel.disableEffect
  rcases hk with rfl | rfl <;> simp only [hh, hs]

theorem replaceHeld_idle (hs : x.state = .idle) (hh : x.held = .copy j) :
    x.replaceHeld (.copy k) =
      (if (j.enabled && !k.enabled) || j.movesHome k ||
          (!k.rotary && j.travel != k.travel && decide (k.travel < x.position)) then
        { x with held := .copy k, state := .unhomed, position := 0 }
      else { x with held := .copy k }) := by
  unfold Channel.replaceHeld Channel.disableEffect Channel.losePosition Channel.travelEffect
  simp only [hh, hs]
  cases (j.enabled && !k.enabled) <;> cases j.movesHome k <;> simp

theorem replaceHeld_resting_damaged (hs : x.state = .resting) (hh : x.held = .copy j) :
    x.replaceHeld .damaged = { x with held := .damaged, restState := some .unhomed } := by
  unfold Channel.replaceHeld Channel.disableEffect
  simp only [hh, hs]

theorem replaceHeld_resting (hs : x.state = .resting) (hh : x.held = .copy j) {gone short : Bool}
    (hg : gone = (j.enabled && !k.enabled))
    (ht : short = (!k.rotary && j.travel != k.travel && decide (k.travel < x.position))) :
    x.replaceHeld (.copy k) = { x with
      held := .copy k, position := if short then 0 else x.position
      restState := if gone || short || (j.movesHome k && decide (x.restState = some .idle)) then some .unhomed
        else x.restState } := by
  unfold Channel.replaceHeld Channel.disableEffect Channel.losePosition Channel.travelEffect
  simp only [hh, hs, ← hg]
  cases gone <;> cases j.movesHome k <;> by_cases was : x.restState = some .idle <;>
    simp [← ht, was] <;> cases short <;> simp

/-- An UNHOMED or IDLE channel is UNHOMED or IDLE under its new copy. -/
theorem replaceHeld_settled (hs : x.state = .unhomed ∨ x.state = .idle) :
    (x.replaceHeld h).state = .unhomed ∨ (x.replaceHeld h).state = .idle := by
  rcases hs with hs | hs
  · exact .inl (by rw [replaceHeld_unhomed hs]; exact hs)
  · cases hh : x.held with
    | absent => exact .inr (by rw [replaceHeld_first (.inl hh)]; exact hs)
    | damaged => exact .inr (by rw [replaceHeld_first (.inr hh)]; exact hs)
    | copy j =>
      cases h with
      | absent => exact .inl (by rw [replaceHeld_idle_lost hs hh (.inr rfl)])
      | damaged => exact .inl (by rw [replaceHeld_idle_lost hs hh (.inl rfl)])
      | copy k =>
        rw [replaceHeld_idle hs hh]
        split
        · exact .inl rfl
        · exact .inr hs

theorem takeAside_settled (hs : x.state = .unhomed ∨ x.state = .idle) :
    x.takeAside.state = .unhomed ∨ x.takeAside.state = .idle := by
  unfold Channel.takeAside
  split
  · split
    · exact replaceHeld_settled (x := { x with aside := none }) hs
    · exact hs
  · exact hs

end Replace

section Kept
variable (x : Channel) (h : Held ChannelSettings)

theorem disableEffect_kept : x.disableEffect.held = x.held ∧ x.disableEffect.aside = x.aside := by
  unfold Channel.disableEffect; split <;> exact ⟨rfl, rfl⟩

theorem travelEffect_kept : x.travelEffect.held = x.held ∧ x.travelEffect.aside = x.aside := by
  unfold Channel.travelEffect; split <;> exact ⟨rfl, rfl⟩

theorem losePosition_kept : x.losePosition.held = x.held ∧ x.losePosition.aside = x.aside := by
  unfold Channel.losePosition
  split
  · exact ⟨rfl, rfl⟩
  · split <;> exact ⟨rfl, rfl⟩
  · exact ⟨rfl, rfl⟩

theorem replaceHeld_kept : (x.replaceHeld h).held = h ∧ (x.replaceHeld h).aside = x.aside := by
  have keep : ∀ (f : Channel → Channel) (b : Bool) (y : Channel), (∀ z, (f z).held = z.held ∧ (f z).aside = z.aside) →
      y.held = h ∧ y.aside = x.aside → (if b then f y else y).held = h ∧ (if b then f y else y).aside = x.aside := by
    intro f b y hf hy
    cases b
    · exact hy
    · exact ⟨(hf y).1.trans hy.1, (hf y).2.trans hy.2⟩
  unfold Channel.replaceHeld
  dsimp only
  split
  · exact keep _ _ _ travelEffect_kept (keep _ _ _ losePosition_kept (keep _ _ _ disableEffect_kept ⟨rfl, rfl⟩))
  · exact disableEffect_kept _
  · exact disableEffect_kept _
  all_goals exact ⟨rfl, rfl⟩

end Kept

/-! ## A change of one channel, and the rest test it makes -/

section Change
variable {s : State} {c d : Fin 4} {x : Channel}

theorem withChan_rests (s : State) (c : Fin 4) (x : Channel) : ¬ (s.withChan c x).Awake ↔
    s.mode.node = .closing ∧ x.state.atRest = true ∧ (∀ d, d ≠ c → (s.chan d).state.atRest = true) ∧
      s.anyRecord Record.unseen = false := by
  rw [not_awake_iff, restPasses_eq]
  have seen : (s.withChan c x).anyRecord Record.unseen = s.anyRecord Record.unseen := rfl
  rw [seen]
  constructor
  · rintro ⟨closing, rests, none⟩
    refine ⟨closing, by simpa using rests c, fun d hd => ?_, none⟩
    have := rests d
    rwa [chan_withChan, if_neg hd] at this
  · rintro ⟨closing, rest, others, none⟩
    refine ⟨closing, fun d => ?_, none⟩
    rw [chan_withChan]
    split
    · exact rest
    · exact others d ‹_›

theorem changeChan_awake (h : (s.withChan c x.takeAside).Awake) :
    s.changeChan c x = (s.withChan c x.takeAside).channelLamps c := by
  unfold State.changeChan State.tellChannel
  rw [restTest_awake h]

theorem changeChan_rested (h : ¬ (s.withChan c x.takeAside).Awake) :
    s.changeChan c x = (s.withChan c x.takeAside).enterDormant.channelLamps c := by
  obtain ⟨closing, passes⟩ := not_awake_iff.mp h
  unfold State.changeChan State.tellChannel
  rw [restTest_passes closing passes]

/-- A change of channel state that leaves the node awake: the channel, and the lamps that name it. -/
theorem changeChan_stands (h : (s.withChan c x.takeAside).Awake) : Moved s (s.changeChan c x) ∧
    (s.changeChan c x).motion.guards = s.motion.guards ∧ (s.changeChan c x).motion.owed = s.motion.owed ∧
    ∀ d, (s.changeChan c x).chan d = if d = c then x.takeAside else s.chan d := by
  rw [changeChan_awake h, channelLamps_motion]
  refine ⟨(moved_withChan s c _).trans (moved_channelLamps _ c), rfl, rfl, fun d => ?_⟩
  rw [channelLamps_chan, chan_withChan]

/-- A change of channel state that brings the node to rest. -/
theorem changeChan_rests (h : ¬ (s.withChan c x.takeAside).Awake) :
    (s.changeChan c x).mode = { s.mode with node := .dormant } ∧
    ∀ d, (s.changeChan c x).chan d = (if d = c then x.takeAside else s.chan d).enterResting := by
  rw [changeChan_rested h, channelLamps_mode]
  refine ⟨rfl, fun d => ?_⟩
  rw [channelLamps_chan, enterDormant_chan, chan_withChan]

end Change

/-! ## The complete entry (R78) -/

section Taken
variable {s : State} {c : Fin 4} {h : Held ChannelSettings}

theorem channelCopy_aside (hr : (s.chan c).state.replaceable = false) :
    s.channelCopy c h = s.withChan c { s.chan c with aside := some h } := by
  unfold State.channelCopy
  rw [if_neg (by simp [hr])]

/-- The channel under its new copy, before the change of its state is told. -/
def Channel.copied (x : Channel) (h : Held ChannelSettings) : Channel := ({ x with aside := none } : Channel).replaceHeld h

theorem copied_kept (x : Channel) (h : Held ChannelSettings) : (x.copied h).held = h ∧ (x.copied h).aside = none :=
  replaceHeld_kept _ _

/-- A copy changes the state of a channel only from IDLE to UNHOMED. -/
theorem copied_state {x : Channel} (hr : x.state.replaceable = true) :
    (x.copied h).state = x.state ∨ (x.state = .idle ∧ (x.copied h).state = .unhomed) := by
  have rests : x.state = .unhomed ∨ x.state = .idle ∨ x.state = .resting := by
    cases e : x.state <;> simp_all [ChanState.replaceable]
  rcases rests with hs | hs | hs
  · exact .inl (by rw [Channel.copied, replaceHeld_unhomed (x := { x with aside := none }) hs])
  · rw [hs]
    exact (replaceHeld_settled (x := { x with aside := none }) (h := h) (.inr hs)).symm.imp id fun k => ⟨rfl, k⟩
  · exact .inl (((replaceHeld_state { x with aside := none } h hr).2 hs).trans hs.symm)

theorem channelCopy_same (hr : (s.chan c).state.replaceable = true)
    (hs : ((s.chan c).copied h).state = (s.chan c).state) :
    s.channelCopy c h = (s.withChan c ((s.chan c).copied h)).channelLamps c := by
  unfold State.channelCopy
  rw [if_pos hr]
  exact if_pos hs

theorem channelCopy_changed (hs : (s.chan c).state = .idle) (hu : ((s.chan c).copied h).state = .unhomed) :
    s.channelCopy c h = s.changeChan c ((s.chan c).copied h) := by
  unfold State.channelCopy
  rw [if_pos (by rw [hs]; rfl)]
  exact if_neg fun same => by
    have : ((s.chan c).copied h).state = (s.chan c).state := same
    rw [hu, hs] at this
    cases this

theorem copied_takeAside (x : Channel) (h : Held ChannelSettings) : (x.copied h).takeAside = x.copied h :=
  takeAside_id _ (.inr (copied_kept x h).2)

/-- The node comes to rest by a copy alone where it makes the last channel of a CLOSING node UNHOMED that was IDLE. -/
structure RestsByCopy (s : State) (c : Fin 4) (h : Held ChannelSettings) : Prop where
  closing : s.mode.node = .closing
  was     : (s.chan c).state = .idle
  lost    : ((s.chan c).copied h).state = .unhomed
  others  : ∀ d, d ≠ c → (s.chan d).state.atRest = true
  seen    : s.anyRecord Record.unseen = false

theorem channelCopy_stands (hr : (s.chan c).state.replaceable = true) (no : ¬ RestsByCopy s c h) :
    Moved s (s.channelCopy c h) ∧
      ∀ d, (s.channelCopy c h).chan d = if d = c then (s.chan c).copied h else s.chan d := by
  rcases copied_state (h := h) hr with same | ⟨idle, unhomed⟩
  · rw [channelCopy_same hr same]
    refine ⟨(moved_withChan s c _).trans (moved_channelLamps _ c), fun d => ?_⟩
    rw [channelLamps_chan, chan_withChan]
  · have awake : (s.withChan c ((s.chan c).copied h).takeAside).Awake := by
      by_contra rests
      obtain ⟨closing, -, others, seen⟩ := (withChan_rests s c _).mp rests
      exact no ⟨closing, idle, unhomed, others, seen⟩
    obtain ⟨moved, -, -, chan⟩ := changeChan_stands awake
    rw [copied_takeAside] at chan
    rw [channelCopy_changed idle unhomed]
    exact ⟨moved, chan⟩

theorem channelCopy_rests (k : RestsByCopy s c h) :
    (s.channelCopy c h).mode = { s.mode with node := .dormant } ∧ (s.channelCopy c h).chan c =
      { (s.chan c).copied h with state := .resting, restState := some .unhomed } := by
  have rests : ¬ (s.withChan c ((s.chan c).copied h).takeAside).Awake := by
    rw [withChan_rests, copied_takeAside, k.lost]
    exact ⟨k.closing, rfl, k.others, k.seen⟩
  obtain ⟨mode, chan⟩ := changeChan_rests rests
  rw [channelCopy_changed k.was k.lost]
  refine ⟨mode, ?_⟩
  rw [chan, if_pos rfl, copied_takeAside, enterResting_eq (copied_kept _ _).2, k.lost]

theorem channelCopy_node (hr : (s.chan c).state.replaceable = true) :
    (s.channelCopy c h).mode.node ≠ s.mode.node ↔ RestsByCopy s c h := by
  by_cases k : RestsByCopy s c h
  · refine ⟨fun _ => k, fun _ => ?_⟩
    rw [(channelCopy_rests k).1, k.closing]
    exact NodeState.noConfusion
  · exact ⟨fun no => absurd (congrArg (fun t : State => t.mode.node) (channelCopy_stands hr k).1) no, fun no => absurd no k⟩

theorem channelCopy_shifted (s : State) (c : Fin 4) (h : Held ChannelSettings) : Shifted s (s.channelCopy c h) := by
  by_cases hr : (s.chan c).state.replaceable = true
  · by_cases k : RestsByCopy s c h
    · rw [channelCopy_changed k.was k.lost]
      exact shifted_changeChan s c _
    · exact (channelCopy_stands hr k).1.shifted
  · rw [channelCopy_aside (by simpa using hr)]
    exact (moved_withChan s c _).shifted

/-- The copy is taken, or held aside. -/
theorem channelCopy_held (s : State) (c : Fin 4) (h : Held ChannelSettings) :
    ((s.chan c).state.replaceable = true ∧ ((s.channelCopy c h).chan c).held = h ∧
      ((s.channelCopy c h).chan c).aside = none) ∨
    ((s.chan c).state.replaceable = false ∧ (s.channelCopy c h).chan c = { s.chan c with aside := some h }) := by
  by_cases hr : (s.chan c).state.replaceable = true
  · refine .inl ⟨hr, ?_⟩
    by_cases k : RestsByCopy s c h
    · rw [(channelCopy_rests k).2]
      exact copied_kept _ h
    · rw [(channelCopy_stands hr k).2, if_pos rfl]
      exact copied_kept _ h
  · refine .inr ⟨by simpa using hr, ?_⟩
    rw [channelCopy_aside (by simpa using hr), chan_withChan, if_pos rfl]

end Taken

/-! ## TABLE-DAMAGE of an entry, raised while the transmitter is not to choose -/

section Damage
variable {s : State}

theorem beaconUpdate_chan (c : Fin 4) : s.beaconUpdate.chan c = s.chan c := by
  unfold State.beaconUpdate
  dsimp only
  split <;> rfl

theorem beaconUpdate_ring : s.beaconUpdate.ring = s.ring := by
  unfold State.beaconUpdate
  dsimp only
  split <;> rfl

theorem fillSnapshot_chan (k : Cause) (n : Nat) (i : Option (Fin 16)) (x : Option ChanInfo) (c : Fin 4) :
    (s.fillSnapshot k n i x).chan c = s.chan c := by
  unfold State.fillSnapshot
  split <;> rfl

/-- A TABLE-DAMAGE record concerns no channel: with no frame to choose, its raise leaves every channel alone. -/
theorem raise_tableDamage_left (h : s.ring.bypass = true ∨ s.ring.sending.isSome = true) (n : Nat) (c : Fin 4) :
    (s.raise .tableDamage n).chan c = s.chan c := by
  have recorded : ∀ (i : Fin 16) (r : Record), r.unseen = true → ∀ u : State,
      u = (s.withSlot i (some r)).fillSnapshot .tableDamage n (some i) none →
      u.beaconUpdate.pump.chan c = s.chan c ∧ (u.tellRecord .tableDamage n).pump.chan c = s.chan c := by
    rintro i r hr u rfl
    generalize hu : (s.withSlot i (some r)).fillSnapshot .tableDamage n (some i) none = u
    have ring : u.beaconUpdate.ring = s.ring := by
      rw [beaconUpdate_ring, ← hu, (fillSnapshot_untouched _).1]
      rfl
    have chan : u.beaconUpdate.chan c = s.chan c := by
      rw [beaconUpdate_chan, ← hu, fillSnapshot_chan]
      rfl
    have slot : u.beaconUpdate.slotAt i = some r := by
      rw [beaconUpdate_slotAt, ← hu, fillSnapshot_slotAt]
      simp
    rw [tellRecord_other (by simp), restTest_restless (unseen_slot slot hr), pump_left (by rw [ring]; exact h), chan]
    exact ⟨rfl, rfl⟩
  unfold State.raise State.raiseWith
  split
  · split
    · rename_i r _
      have again : (r.raisedAgain none).unseen = true := by
        unfold Record.raisedAgain Record.unseen
        cases r.state <;> simp
      dsimp only
      split
      · exact (recorded _ _ again _ rfl).1
      · exact (recorded _ _ again _ rfl).2
    · rfl
  · split
    · exact (recorded _ _ rfl _ rfl).2
    · rw [beaconUpdate_chan, fillSnapshot_chan]
      rfl

/-- Whether word `d`, after the words `got`, is the first damaged one of a channel entry. -/
def FirstDamage (got : List Delivered) (d : Delivered) : Prop :=
  channelWordDamaged got.length d = true ∧ anyChannelDamage 0 got = false

theorem channelWordRaise_eq {job : Job} {got : List Delivered} {rest : List Ask} {d : Delivered}
    (hp : s.mem.path = ⟨job, got⟩ :: rest) : s.channelWordRaise d =
      if channelWordDamaged got.length d = true ∧ anyChannelDamage 0 got = false then s.raise .tableDamage 2
      else s := by
  unfold State.channelWordRaise
  rw [hp]

/-- The last word of a channel entry has no fields, and is damaged only if it reads so. -/
theorem lastWord_damaged (d : Delivered) : channelWordDamaged 7 d = d.bad := by
  unfold channelWordDamaged readWord
  cases d.bad <;> rfl

end Damage

/-! ## The delivery of a word -/

section Delivery
variable {s next : State} {i : Nat} {c : Fin 4} {got : List Delivered} {rest : List Ask}

/-- The state in which a word of a channel entry is taken: its read counted, and its damage raised. -/
structure WordRead (s : State) (i : Nat) (got : List Delivered) (u : State) : Prop where
  path   : u.mem.path = s.mem.path
  owed   : u.mem.owed = s.mem.owed
  words  : u.mem.words = s.mem.words
  mode   : u.mode = s.mode
  mgmt   : u.mgmt = s.mgmt
  effect : u.effect = s.effect
  chan   : ∀ d, (s.chan d).state ≠ .halted → (s.chan d).state ≠ .fault → u.chan d = s.chan d
  left   : s.ring.bypass = true ∨ s.ring.sending.isSome = true → ∀ d, u.chan d = s.chan d
  raised : FirstDamage got (s.wordAt i) →
    (u.findRecord .tableDamage 2).isSome = true ∨ u.alert.overflow = true
  clean  : ¬ FirstDamage got (s.wordAt i) → u = { s with mem := u.mem }

theorem wordRead (hp : s.mem.path = ⟨⟨.motion, c.val⟩, got⟩ :: rest) :
    WordRead s i got ((s.readFor i .motion).channelWordRaise (s.wordAt i)) := by
  obtain ⟨l, a, b, read⟩ := readFor_eq s i .motion
  have head : (s.readFor i .motion).mem.path = ⟨⟨.motion, c.val⟩, got⟩ :: rest := by rw [read]; exact hp
  by_cases h : FirstDamage got (s.wordAt i)
  · have mild := mild_raise (s := s.readFor i .motion) .tableDamage 2
    rw [(channelWordRaise_eq head).trans (if_pos h)]
    refine ⟨?_, ?_, ?_, ?_, ?_, ?_, fun d h1 h2 => ?_, fun left d => ?_, fun _ => ?_, fun no => absurd h no⟩
    · rw [mild.mem, read]
    · rw [mild.mem, read]
    · rw [mild.mem, read]
    · rw [mild.mode, read]
    · rw [mild.mgmt, read]
    · rw [mild.effect, read]
    · have same : (s.readFor i .motion).chan d = s.chan d := by rw [read]; rfl
      rw [mild.chans d (by rw [same]; exact h1) (by rw [same]; exact h2), same]
    · rw [raise_tableDamage_left (by rw [read]; exact left), read]
      rfl
    · exact raise_findRecord _ _ _ _ _
  · rw [(channelWordRaise_eq head).trans (if_neg h), read]
    refine ⟨rfl, rfl, rfl, rfl, rfl, rfl, fun _ _ _ => rfl, fun _ _ => rfl, fun no => absurd no h, fun _ => rfl⟩

theorem exec_channelWord (ha : s.mem.access = some ⟨.settings .motion, i, false⟩) {u : State}
    (hu : u = (s.readFor i .motion).channelWordRaise (s.wordAt i)) : exec .channelSettingsRead s =
      thenEnds (u.settingsWord (s.wordAt i) fun e b =>
        b.channelCopy (Fin.ofNat 4 e.job.entry) (channelOfWords e.got)) := by
  rw [hu]
  exact congrArg Host.Outcome.next (deliver_fresh ha)

/-- A word before the last is kept. -/
theorem channelWord_kept (ha : s.mem.access = some ⟨.settings .motion, i, false⟩)
    (hp : s.mem.path = ⟨⟨.motion, c.val⟩, got⟩ :: rest) (hl : got.length < 7) {u : State}
    (hu : u = (s.readFor i .motion).channelWordRaise (s.wordAt i)) : exec .channelSettingsRead s = .next
      ({ u with mem.path := ⟨⟨.motion, c.val⟩, got ++ [s.wordAt i]⟩ :: rest }).endAccess := by
  have read : WordRead s i got u := hu ▸ wordRead hp
  rw [exec_channelWord ha hu, settingsWord_kept (read.path.trans hp) (by show got.length + 1 < 8; omega)]
  rfl

/-- The last word: the block asks for the next entry it owes, and takes the copy. -/
theorem channelWord_done (ha : s.mem.access = some ⟨.settings .motion, i, false⟩)
    (hp : s.mem.path = ⟨⟨.motion, c.val⟩, got⟩ :: rest) (hl : 7 ≤ got.length)
    (hn : next = ({ s with mem.path := rest }).ask) {u : State}
    (hu : u = (s.readFor i .motion).channelWordRaise (s.wordAt i)) :
    ∃ m, m.path = next.mem.path ∧ m.owed = next.mem.owed ∧ m.words = s.mem.words ∧
      exec .channelSettingsRead s =
        thenEnds (({ u with mem := m }).channelCopy c (channelOfWords (got ++ [s.wordAt i]))) := by
  have read : WordRead s i got u := hu ▸ wordRead hp
  have same := ask_congr (s := { s with mem.path := rest }) (t := { u with mem.path := rest }) ⟨rfl, read.owed⟩
  obtain ⟨p, o, asked⟩ := ask_eq { u with mem.path := rest }
  have whole : State.ask { u with mem.path := rest } =
      { u with mem := (State.ask { u with mem.path := rest }).mem } := by rw [asked]
  have words : (State.ask { u with mem.path := rest }).mem.words = s.mem.words := by rw [asked]; exact read.words
  have hc : Fin.ofNat 4 c.val = c := Fin.ext (Nat.mod_eq_of_lt c.isLt)
  rw [← hn] at same
  refine ⟨_, same.1, same.2, words, ?_⟩
  rw [exec_channelWord ha hu, settingsWord_done (read.path.trans hp) (by show 8 ≤ got.length + 1; omega), ← whole, hc]

/-- The three cases in which the channel's state under its new copy is given: after no copy, by a DAMAGED copy, and
by a copy with changed fields. -/
theorem copied_cases {x y : Channel} {h : Held ChannelSettings}
    (hy : (x.state.replaceable = true ∧ (x.held = .absent ∨ x.held = .damaged) ∧
        y = { x with held := h, aside := none }) ∨
      (∃ j, x.held = .copy j ∧ h = .damaged ∧
        (x.state = .unhomed ∧ y = { x with held := h, aside := none } ∨
        x.state = .idle ∧ y = { x with held := h, aside := none, state := .unhomed, position := 0 } ∨
        x.state = .resting ∧ y = { x with held := h, aside := none, restState := some .unhomed })) ∨
      (∃ (j k : ChannelSettings) (gone moves short : Bool), x.held = .copy j ∧ h = .copy k ∧
        gone = (j.enabled && !k.enabled) ∧ moves = j.movesHome k ∧
        short = (!k.rotary && j.travel != k.travel && decide (k.travel < x.position)) ∧
        (x.state = .unhomed ∧ y = { x with held := h, aside := none } ∨
        x.state = .idle ∧ y = (if gone || moves || short then
          { x with held := h, aside := none, state := .unhomed, position := 0 }
          else { x with held := h, aside := none }) ∨
        x.state = .resting ∧ y = { x with
          held := h, aside := none, position := if short then 0 else x.position
          restState := if gone || short || (moves && decide (x.restState = some .idle)) then
            some .unhomed else x.restState }))) :
    x.state.replaceable = true ∧ x.copied h = y := by
  rcases hy with ⟨hr, hh, rfl⟩ | ⟨j, hh, rfl, state⟩ | ⟨j, k, gone, moves, short, hh, rfl, hg, hm, ht, state⟩
  · exact ⟨hr, replaceHeld_first (x := { x with aside := none }) hh⟩
  · rcases state with ⟨hs, rfl⟩ | ⟨hs, rfl⟩ | ⟨hs, rfl⟩
    · exact ⟨by rw [hs]; rfl, replaceHeld_unhomed (x := { x with aside := none }) hs _⟩
    · exact ⟨by rw [hs]; rfl, replaceHeld_idle_lost (x := { x with aside := none }) hs hh (.inl rfl)⟩
    · exact ⟨by rw [hs]; rfl, replaceHeld_resting_damaged (x := { x with aside := none }) hs hh⟩
  · rcases state with ⟨hs, rfl⟩ | ⟨hs, rfl⟩ | ⟨hs, rfl⟩
    · exact ⟨by rw [hs]; rfl, replaceHeld_unhomed (x := { x with aside := none }) hs _⟩
    · refine ⟨by rw [hs]; rfl, ?_⟩
      rw [hg, hm, ht]
      exact replaceHeld_idle (x := { x with aside := none }) hs hh
    · refine ⟨by rw [hs]; rfl, ?_⟩
      rw [hm]
      exact replaceHeld_resting (x := { x with aside := none }) hs hh hg ht

/-- What the last word of a channel entry does, by the state in which it is read and the copy it completes. -/
theorem channelEntry_taken {h : Held ChannelSettings} (ha : s.mem.access = some ⟨.settings .motion, i, false⟩)
    (hp : s.mem.path = ⟨⟨.motion, c.val⟩, got⟩ :: rest) (hl : 7 ≤ got.length)
    (hn : next = ({ s with mem.path := rest }).ask) (hh : h = channelOfWords (got ++ [s.wordAt i])) :
    ∃ u b t : State, WordRead s i got u ∧ b = { u with mem := b.mem } ∧ exec .channelSettingsRead s = .next t ∧
      t = { b.channelCopy c h with mem := t.mem } ∧ t.mem.words = s.mem.words ∧
      t.mem.path = next.mem.path ∧ t.mem.owed = next.mem.owed := by
  obtain ⟨m, path, owed, words, e⟩ := channelWord_done ha hp hl hn rfl
  rw [← hh] at e
  obtain ⟨same, p, o, w⟩ := endAccess_mem
    (State.channelCopy { (s.readFor i .motion).channelWordRaise (s.wordAt i) with mem := m } c h)
  have mem := congrArg State.mem (channelCopy_shifted
    { (s.readFor i .motion).channelWordRaise (s.wordAt i) with mem := m } c h)
  refine ⟨_, { (s.readFor i .motion).channelWordRaise (s.wordAt i) with mem := m }, _, wordRead hp, rfl, e, same, ?_⟩
  rw [w, p, o, mem]
  exact ⟨words, path, owed⟩

end Delivery

/-- Settles O42: the decoder by the fields of the words, and the last word by the copy that the channel takes. -/
theorem channelEntryIsTaken : Obligations.ChannelEntryIsTaken := by
  refine ⟨?_, fun ds hl hd => channelOfWords_bad hl hd, ?_⟩
  · rintro w0 w1 w2 w3 w4 w5 w6 w7 policy park rfl rfl
    exact channelOfWords_clean w0 w1 w2 w3 w4 w5 w6 w7
  intro s i c x got rest h ha hp hx
  refine ⟨fun now before => ?_, fun hl u hu => ?_, fun hl hh => ?_⟩
  · by_cases hl : got.length < 7
    · refine ⟨_, channelWord_kept ha hp hl rfl, ?_⟩
      rw [(endAccess_mem _).1]
      exact (wordRead hp).raised ⟨now, before⟩
    · obtain ⟨u, b, t, read, hb, e, ht, -⟩ := channelEntry_taken ha hp (by omega) rfl rfl
      refine ⟨t, e, ?_⟩
      have alert : t.alert = u.alert := by
        rw [ht]
        exact (channelCopy_shifted b c _).alert.trans (by rw [hb])
      have told := read.raised ⟨now, before⟩
      simp only [State.findRecord, State.slotAt, alert] at told ⊢
      exact told
  · obtain ⟨l, a, b, read⟩ := readFor_eq s i .motion
    exact channelWord_kept ha hp hl (hu.trans (channelWordRaise_eq (by rw [read]; exact hp)).symm)
  · obtain ⟨u, b, t, read, hb, e, ht, words, path, owed⟩ := channelEntry_taken ha hp (by omega) rfl hh
    have bchan : ∀ d, b.chan d = u.chan d := fun d => by rw [hb]; rfl
    have bmode : b.mode = s.mode := by rw [hb]; exact read.mode
    have tchan : ∀ d, t.chan d = (b.channelCopy c h).chan d := fun d => by rw [ht]; rfl
    have tmode : t.mode = (b.channelCopy c h).mode := by rw [ht]
    have moving : x.state ≠ .halted → x.state ≠ .fault → b.chan c = x := fun h1 h2 => by
      rw [bchan, hx]
      exact read.chan c (hx ▸ h1) (hx ▸ h2)
    have replaced : x.state.replaceable = true → b.chan c = x := fun hr =>
      moving (fun e => by rw [e] at hr; cases hr) (fun e => by rw [e] at hr; cases hr)
    have held := channelCopy_held b c h
    rw [← tchan] at held
    have aside : b.chan c = x → x.state.replaceable = false → t.chan c = { x with aside := some h } := by
      rintro k hr
      rw [k] at held
      exact held.resolve_left (fun no => by rw [hr] at no; exact Bool.noConfusion no.1) |>.2
    have clean : (s.wordAt i).bad = false → u = { s with mem := u.mem } := fun good => read.clean fun no => by
      have := no.1
      rw [hl, lastWord_damaged, good] at this
      cases this
    have shifted := channelCopy_shifted b c h
    have awake : s.mode.node ≠ .closing → ¬ RestsByCopy b c h := fun hn k => hn (bmode ▸ k.closing)
    refine ⟨t, e, words, ?_, path, owed, fun hr => ?_, fun hr => ?_, ?_, fun hn => ?_, fun good => ?_, fun y hy => ?_⟩
    · rw [ht]
      exact (congrArg State.mgmt shifted).trans ((congrArg State.mgmt hb).trans read.mgmt)
    · rw [replaced hr] at held
      exact (held.resolve_right fun no => by rw [hr] at no; exact Bool.noConfusion no.1).2
    · exact held.symm.imp (fun k => by rw [k.2]) And.right
    · rintro (hs | hs | hs | ⟨hr, left⟩)
      · exact aside (moving (by simp [hs]) (by simp [hs])) (by rw [hs]; rfl)
      · exact aside (moving (by simp [hs]) (by simp [hs])) (by rw [hs]; rfl)
      · exact aside (moving (by simp [hs]) (by simp [hs])) (by rw [hs]; rfl)
      · exact aside (by rw [bchan, read.left left, hx]) hr
    · rw [tmode, ← bmode]
      by_cases hr : (b.chan c).state.replaceable = true
      · by_contra no
        exact awake hn ((channelCopy_node hr).mp no)
      · rw [channelCopy_aside (by simpa using hr)]
        rfl
    · have chan : ∀ d, b.chan d = s.chan d := fun d => by rw [bchan, clean good]; rfl
      have tell : t.alert = s.alert ∧ t.cue = s.cue ∧ t.ring = s.ring := by
        rw [ht]
        refine ⟨shifted.alert.trans ?_, (congrArg State.cue shifted).trans ?_, (congrArg State.ring shifted).trans ?_⟩
        all_goals rw [hb, clean good]
      refine ⟨tell.1, tell.2.1, tell.2.2, aside ((chan c).trans hx.symm), fun hn => ?_⟩
      have effect : b.effect = s.effect := by rw [hb]; exact read.effect
      have others : (b.channelCopy c h).effect = b.effect ∧ ∀ d, d ≠ c → (b.channelCopy c h).chan d = b.chan d := by
        by_cases hr : (b.chan c).state.replaceable = true
        · obtain ⟨moved, kept⟩ := channelCopy_stands hr fun k =>
            (channelCopy_node hr).mpr k (by rw [← tmode, hn, bmode])
          have effect : (b.channelCopy c h).effect = b.effect := by
            unfold Moved at moved
            rw [moved]
          exact ⟨effect, fun d hd => (kept d).trans (if_neg hd)⟩
        · rw [channelCopy_aside (by simpa using hr)]
          exact ⟨rfl, fun d hd => (chan_withChan _ _ _ _).trans (if_neg hd)⟩
      refine ⟨?_, fun d hd => by rw [tchan, others.2 d hd, chan]⟩
      rw [ht]
      exact others.1.trans effect
    · obtain ⟨hr, taken⟩ := copied_cases hy
      have here := replaced hr
      have node := channelCopy_node (s := b) (c := c) (h := h) (by rw [here]; exact hr)
      rw [← tmode, bmode] at node
      refine ⟨taken, fun same => ?_, fun rests => ?_, fun good => ?_⟩
      · rw [tchan, (channelCopy_stands (by rw [here]; exact hr) fun k => node.mpr k same).2, if_pos rfl, here, taken]
      · obtain ⟨mode, chan⟩ := channelCopy_rests (node.mp rests)
        rw [tmode, mode, tchan, chan, bmode, here, taken]
        exact ⟨rfl, rfl⟩
      · have chan : ∀ d, b.chan d = s.chan d := fun d => by rw [bchan, clean good]; rfl
        have seen : b.anyRecord Record.unseen = s.anyRecord Record.unseen :=
          anyRecord_congr _ fun j => by rw [hb, clean good]; rfl
        rw [node]
        constructor
        · rintro ⟨closing, was, lost, others, none⟩
          rw [here] at was lost
          rw [taken] at lost
          exact ⟨bmode ▸ closing, was, lost, fun d hd => (atRest_iff _).mp (chan d ▸ others d hd),
            anyRecord_unseen_false.mp (seen.symm.trans none)⟩
        · rintro ⟨closing, was, lost, others, none⟩
          exact ⟨by rw [bmode]; exact closing, by rw [here]; exact was, by rw [here, taken]; exact lost,
            fun d hd => by rw [chan]; exact (atRest_iff _).mpr (others d hd),
            seen.trans (anyRecord_unseen_false.mpr none)⟩

end Sys2Proof.Machine
end

