-- ==== Sys2Proof/Proofs/Gentle.lean ====
section
/-! PROOF. What a raise and the transmitter's choice do to a node that cannot come to rest (R31): a CALL may let a
HALTED or FAULT channel be released, and nothing else of the channels changes (R18, R85, R140, R141). -/
namespace Sys2Proof.Machine

/-- A record of the matter waits to be seen. -/
def State.Unseen (s : State) (k : Cause) (n : Nat) : Prop :=
  ∃ i r, s.slotAt i = some r ∧ r.unseen = true ∧ r.cause = k ∧ r.subject = n

/-- The channel is not free to be released. -/
def State.Stays (s : State) (c : Fin 4) : Prop :=
  ((s.chan c).state = .halted → s.haltReleased c = false) ∧ ((s.chan c).state = .fault → s.faultReleased c = false)

/-- `t` is `s` after calls and records alone: mild, no channel released that is bound, none brought into or out of
the states that pass the rest test, and no record that waits to be seen lost. -/
structure Gentle (s t : State) : Prop where
  mild   : Mild s t
  stays  : ∀ c, s.Stays c → t.chan c = s.chan c
  atRest : ∀ c, (t.chan c).state.atRest = (s.chan c).state.atRest
  unseen : ∀ k n, s.Unseen k n → t.Unseen k n

section Stays
variable {s t u : State} {c : Fin 4}

theorem anyRecord_unseen_iff {p : Record → Bool} {q : Cause → Nat → Bool}
    (hp : ∀ r, p r = true ↔ r.unseen = true ∧ q r.cause r.subject = true) :
    s.anyRecord p = true ↔ ∃ k n, s.Unseen k n ∧ q k n = true := by
  rw [anyRecord_iff]
  constructor
  · rintro ⟨i, r, hr, h⟩
    exact ⟨_, _, ⟨i, r, hr, ((hp r).mp h).1, rfl, rfl⟩, ((hp r).mp h).2⟩
  · rintro ⟨k, n, ⟨i, r, hr, hu, rfl, rfl⟩, h⟩
    exact ⟨i, r, hr, (hp r).mpr ⟨hu, h⟩⟩

theorem anyRecord_mono {p : Record → Bool} {q : Cause → Nat → Bool}
    (hp : ∀ r, p r = true ↔ r.unseen = true ∧ q r.cause r.subject = true) (h : ∀ k n, s.Unseen k n → t.Unseen k n)
    (hs : s.anyRecord p = true) : t.anyRecord p = true := by
  obtain ⟨k, n, hu, hq⟩ := (anyRecord_unseen_iff hp).mp hs
  exact (anyRecord_unseen_iff hp).mpr ⟨k, n, h k n hu, hq⟩

theorem haltReleased_false : s.haltReleased c = false ↔ s.guardsClosed (s.chan c).guardMap = false ∨
    ((s.chan c).attend = true ∧ s.anyRecord (fun r =>
      r.unseen && decide (r.cause = .guardOpen) && (s.chan c).guardMap.getLsbD r.subject) = true) := by
  unfold State.haltReleased
  rw [Bool.and_eq_false_iff, Bool.or_eq_false_iff]
  simp

theorem haltReleased_kept (hc : t.chan c = s.chan c) (hg : t.motion.guards = s.motion.guards)
    (hu : ∀ k n, s.Unseen k n → t.Unseen k n) (h : s.haltReleased c = false) : t.haltReleased c = false := by
  have closed : ∀ m, t.guardsClosed m = s.guardsClosed m := fun m => by
    simp only [State.guardsClosed, State.guardIn, hg]
  rw [haltReleased_false] at h ⊢
  rw [hc, closed]
  exact h.imp id fun ⟨attend, waits⟩ => ⟨attend, anyRecord_mono
    (q := fun k n => decide (k = .guardOpen) && (s.chan c).guardMap.getLsbD n)
    (fun r => by simp [Bool.and_assoc]) hu waits⟩

theorem faultReleased_kept (hc : t.chan c = s.chan c) (hu : ∀ k n, s.Unseen k n → t.Unseen k n)
    (h : s.faultReleased c = false) : t.faultReleased c = false := by
  have kept : ∀ k : Cause, s.anyRecord (fun r => r.unseen && decide (r.cause = k) && r.subject == c.val) = true →
      t.anyRecord (fun r => r.unseen && decide (r.cause = k) && r.subject == c.val) = true := fun k =>
    anyRecord_mono (q := fun k' n => decide (k' = k) && n == c.val) (fun r => by simp [Bool.and_assoc]) hu
  unfold State.faultReleased at h ⊢
  rw [hc]
  split at h
  · simp only [Bool.and_eq_false_iff, Bool.not_eq_false'] at h ⊢
    exact h.imp id (kept _)
  · simp only [Bool.not_eq_false'] at h ⊢
    exact kept _ h
  · cases h

theorem stays_kept (hc : t.chan c = s.chan c) (hg : t.motion.guards = s.motion.guards)
    (hu : ∀ k n, s.Unseen k n → t.Unseen k n) (h : s.Stays c) : t.Stays c :=
  ⟨fun halted => haltReleased_kept hc hg hu (h.1 (hc ▸ halted)),
    fun fault => faultReleased_kept hc hu (h.2 (hc ▸ fault))⟩

/-- A channel that is neither HALTED nor in FAULT is not released. -/
theorem stays_of_state (h : (s.chan c).state ≠ .halted) (h' : (s.chan c).state ≠ .fault) : s.Stays c :=
  ⟨fun k => absurd k h, fun k => absurd k h'⟩

theorem unseen_of_slots (h : ∀ i, t.slotAt i = s.slotAt i) : ∀ k n, s.Unseen k n → t.Unseen k n :=
  fun _ _ ⟨i, r, hr, hu⟩ => ⟨i, r, (h i).trans hr, hu⟩

end Stays

namespace Gentle
variable {s t u : State}

theorem of_eq (hf : t.fixed = s.fixed) (hc : t.motion.channels = s.motion.channels)
    (hs : ∀ i, t.slotAt i = s.slotAt i) : Gentle s t := by
  have chan : ∀ c, t.chan c = s.chan c := fun c => by rw [State.chan, hc, State.chan]
  exact ⟨.of_eq hf hc, fun c _ => chan c, fun c => by rw [chan], unseen_of_slots hs⟩

theorem refl (s : State) : Gentle s s := .of_eq rfl rfl fun _ => rfl

theorem trans (h : Gentle s t) (k : Gentle t u) : Gentle s u where
  mild := h.mild.trans k.mild
  stays c hc := (k.stays c (stays_kept (h.stays c hc) h.mild.guards h.unseen hc)).trans (h.stays c hc)
  atRest c := (k.atRest c).trans (h.atRest c)
  unseen q n hu := k.unseen q n (h.unseen q n hu)

theorem keeps (h : Gentle s t) {c : Fin 4} (hc : s.Stays c) : t.Stays c :=
  stays_kept (h.stays c hc) h.mild.guards h.unseen hc

theorem awake (h : Gentle s t) (ha : s.Awake) : t.Awake := by
  refine ha.imp (fun hn => by rw [h.mild.mode]; exact hn) fun hp => ?_
  rw [Bool.eq_false_iff, ne_eq, restPasses_eq] at hp ⊢
  rintro ⟨rests, seen⟩
  refine hp ⟨fun c => (h.atRest c).symm.trans (rests c), ?_⟩
  rw [Bool.eq_false_iff] at seen ⊢
  exact fun waits => seen (anyRecord_mono (q := fun _ _ => true) (fun r => by simp) h.unseen waits)

end Gentle

section Gentle
variable {s t u : State} {c : Fin 4}

theorem gentle_beaconUpdate : Gentle s s.beaconUpdate := by
  unfold State.beaconUpdate
  dsimp only
  split
  · exact .refl s
  · exact .of_eq rfl rfl fun _ => rfl

theorem gentle_channelLamps (s : State) (c : Fin 4) : Gentle s (s.channelLamps c) :=
  .of_eq (mild_channelLamps c).fixed (by rw [channelLamps_motion]) (channelLamps_slotAt s c)

theorem gentle_lampUpdate (b : Fin 16) : Gentle s (s.lampUpdate b) := .of_eq rfl rfl fun _ => rfl

theorem gentle_fillSnapshot (k : Cause) (n : Nat) (i : Option (Fin 16)) (x : Option ChanInfo) :
    Gentle s (s.fillSnapshot k n i x) := by
  unfold State.fillSnapshot
  split
  · exact .of_eq rfl rfl fun _ => rfl
  · exact .refl s

/-- A free channel taken to UNHOMED or IDLE: it was at rest and still is, and the node does not come to rest. -/
theorem gentle_changeChan {x : Channel} (ha : s.Awake) (free : ¬ s.Stays c)
    (hx : x.state = .unhomed ∨ x.state = .idle) : Gentle s (s.changeChan c x) := by
  have was : (s.chan c).state = .halted ∨ (s.chan c).state = .fault := by
    by_contra no
    exact free (stays_of_state (fun h => no (.inl h)) fun h => no (.inr h))
  have still := takeAside_settled hx
  have here : Gentle s (s.withChan c x.takeAside) := by
    refine ⟨⟨rfl, fun d h h' => ?_⟩, fun d hd => ?_, fun d => ?_, unseen_of_slots fun _ => rfl⟩
    · rw [chan_withChan, if_neg]
      rintro rfl
      exact was.elim h h'
    · rw [chan_withChan, if_neg]
      rintro rfl
      exact free hd
    · rw [chan_withChan]
      split
      · next e =>
        rw [e]
        rcases was with h | h <;> rcases still with k | k <;> rw [h, k] <;> rfl
      · rfl
  rw [changeChan_awake (here.awake ha)]
  exact here.trans (gentle_channelLamps _ c)

theorem gentle_releaseTest (ha : s.Awake) (c : Fin 4) : Gentle s (s.releaseTest c) := by
  unfold State.releaseTest
  dsimp only
  split
  · next halted =>
    split
    · next free =>
      exact gentle_changeChan ha (fun stays => by rw [stays.1 halted] at free; cases free)
        (by cases (s.chan c).positionLost <;> simp)
    · exact .refl s
  · next fault =>
    split
    · next free =>
      exact gentle_changeChan ha (fun stays => by rw [stays.2 fault] at free; cases free) (.inl rfl)
    · exact .refl s
  · exact .refl s

theorem gentle_gatingNotices (ha : s.Awake) (l : List (Fin 4)) : Gentle s (l.foldl State.gatingNotice s) := by
  induction l generalizing s with
  | nil => exact .refl s
  | cons c l ih =>
    have lamps := gentle_channelLamps s c
    have one : Gentle s (s.gatingNotice c) := lamps.trans (gentle_releaseTest (lamps.awake ha) c)
    exact one.trans (ih (one.awake ha))

theorem gentle_tellRecord (ha : s.Awake) (k : Cause) (n : Nat) : Gentle s (s.tellRecord k n) := by
  have beacon := gentle_beaconUpdate (s := s)
  unfold State.tellRecord
  rw [restTest_awake (beacon.awake ha)]
  dsimp only
  have told := beacon.trans (gentle_gatingNotices (beacon.awake ha) (s.beaconUpdate.concerned k n))
  split
  · exact told.trans (gentle_lampUpdate _)
  · exact told

/-- A record written in place of one of the same matter that was not waiting to be seen, or that waits still. -/
theorem gentle_withSlot {i : Fin 16} {r : Option Record} (h : ∀ r0, s.slotAt i = some r0 → r0.unseen = true →
    ∃ r1, r = some r1 ∧ r1.unseen = true ∧ r1.cause = r0.cause ∧ r1.subject = r0.subject) :
    Gentle s (s.withSlot i r) := by
  refine ⟨.of_eq rfl rfl, fun _ _ => rfl, fun _ => rfl, ?_⟩
  rintro k n ⟨j, r0, hr, hu, rfl, rfl⟩
  by_cases hj : j = i
  · subst hj
    obtain ⟨r1, e, hu1, hk, hn⟩ := h r0 hr hu
    exact ⟨j, r1, by rw [slotAt_withSlot, if_pos rfl, e], hu1, hk, hn⟩
  · exact ⟨j, r0, by rw [slotAt_withSlot, if_neg hj, hr], hu, rfl, rfl⟩

theorem gentle_buildCall (ha : s.Awake) {i : Fin 16} {r : Record} (hr : s.slotAt i = some r) :
    Gentle s (s.buildCall i r) := by
  have written : Gentle s (s.withSlot i (s.recordAfterCall r)) := by
    refine gentle_withSlot fun r0 e hu => ?_
    rw [hr] at e
    cases e
    unfold State.recordAfterCall
    rcases (unseen_eq_true r).mp hu with hs | hs <;> rw [hs] <;> exact ⟨_, rfl, rfl, rfl, rfl⟩
  have told := written.trans (gentle_tellRecord (written.awake ha) r.cause r.subject)
  unfold State.buildCall
  dsimp only
  split
  · exact told
  · exact told
  · exact written
  · exact written

theorem gentle_takeOwn (ha : s.Awake) : Gentle s s.takeOwn := by
  unfold State.takeOwn
  split
  · split
    · split
      · next i _ _ r hr =>
        have sent : Gentle s { s with
            ring.sending := some (s.ownFrame 0x13 (callPayload i r)), ring.relayCount := 0 } :=
          .of_eq rfl rfl fun _ => rfl
        exact sent.trans (gentle_buildCall (sent.awake ha) hr)
      · exact .refl s
    · exact .refl s
  · split
    · exact .of_eq rfl rfl fun _ => rfl
    · exact .refl s

/-- The transmitter's choice, at a node that does not come to rest. -/
theorem gentle_pump (ha : s.Awake) : Gentle s s.pump := by
  unfold State.pump State.choose
  split
  · split
    · split
      · exact .of_eq rfl rfl fun _ => rfl
      · exact gentle_takeOwn ha
    · split
      · exact gentle_takeOwn ha
      · exact .refl s
  · exact .refl s

theorem gentle_offerOwn (ha : s.Awake) (f : Frame) : Gentle s (s.offerOwn f) := by
  unfold State.offerOwn
  split
  · have joined : Gentle s { s with ring.insertion := s.ring.insertion ++ [f] } := .of_eq rfl rfl fun _ => rfl
    exact joined.trans (gentle_pump (joined.awake ha))
  · exact .of_eq rfl rfl fun _ => rfl

theorem gentle_offerRelay (ha : s.Awake) (f : Frame) : Gentle s (s.offerRelay f) := by
  unfold State.offerRelay
  split
  · have joined : Gentle s { s with ring.relay := s.ring.relay ++ [f] } := .of_eq rfl rfl fun _ => rfl
    exact joined.trans (gentle_pump (joined.awake ha))
  · exact .of_eq rfl rfl fun _ => rfl

theorem raisedAgain_kept (r : Record) (l : Option Level) : (r.raisedAgain l).unseen = true ∧
    (r.raisedAgain l).cause = r.cause ∧ (r.raisedAgain l).subject = r.subject := by
  unfold Record.raisedAgain Record.unseen
  cases r.state <;> simp

/-- `u` is `s` with a record of the matter written that waits to be seen. -/
structure Waiting (s u : State) (k : Cause) (n : Nat) : Prop where
  gentle : Gentle s u
  chan   : ∀ c, u.chan c = s.chan c
  unseen : u.Unseen k n
  awake  : u.Awake

theorem waiting_withSlot {k : Cause} {n : Nat} {x : Option ChanInfo} {i : Fin 16} {r : Record} (hu : r.unseen = true)
    (hk : r.cause = k) (hn : r.subject = n) (written : Gentle s (s.withSlot i (some r))) :
    Waiting s ((s.withSlot i (some r)).fillSnapshot k n (some i) x) k n := by
  have slot : ((s.withSlot i (some r)).fillSnapshot k n (some i) x).slotAt i = some r := by
    rw [fillSnapshot_slotAt]
    simp
  refine ⟨written.trans (gentle_fillSnapshot ..), fun c => fillSnapshot_chan .., ⟨i, r, slot, hu, hk, hn⟩, .inr ?_⟩
  rw [Bool.eq_false_iff, ne_eq, restPasses_eq]
  rintro ⟨-, seen⟩
  rw [anyRecord_iff _ |>.mpr ⟨i, r, slot, hu⟩] at seen
  cases seen

/-- A raise that finds a record or an empty slot: the record waits to be seen before anything is told of it. -/
theorem raiseWith_waiting {k : Cause} {n : Nat} (h : (s.findRecord k n).isSome = true ∨ s.emptySlot.isSome = true)
    (l : Option Level) (x : Option ChanInfo) : ∃ u, Waiting s u k n ∧ Gentle u (s.raiseWith k n l x) := by
  cases hf : s.findRecord k n with
  | some i =>
    obtain ⟨r, hr, rfl, rfl⟩ := findRecord_some hf
    obtain ⟨hu, hk, hn⟩ := raisedAgain_kept r l
    have wait := waiting_withSlot (x := x) hu hk hn <| gentle_withSlot (s := s) (i := i) fun r0 e _ => by
      rw [hr] at e
      cases e
      exact ⟨_, rfl, hu, hk, hn⟩
    refine ⟨_, wait, ?_⟩
    unfold State.raiseWith
    rw [hf]
    dsimp only
    rw [hr]
    dsimp only
    split
    · have told := gentle_beaconUpdate
        (s := (s.withSlot i (some (r.raisedAgain l))).fillSnapshot r.cause r.subject (some i) x)
      exact told.trans (gentle_pump (told.awake wait.awake))
    · have told := gentle_tellRecord wait.awake r.cause r.subject
      exact told.trans (gentle_pump (told.awake wait.awake))
  | none =>
    rw [hf] at h
    obtain ⟨i, hi⟩ := Option.isSome_iff_exists.mp (h.resolve_left (by simp))
    have wait : ∀ lv, Waiting s ((s.withSlot i (some (s.newRecord k n lv))).fillSnapshot k n (some i) x) k n :=
      fun lv => waiting_withSlot rfl rfl rfl <| gentle_withSlot fun r0 e _ => by
        rw [emptySlot_some hi] at e
        cases e
    have one : ∀ lv, ∃ u, Waiting s u k n ∧ Gentle u
        (((s.withSlot i (some (s.newRecord k n lv))).fillSnapshot k n (some i) x).tellRecord k n).pump := fun lv => by
      have told := gentle_tellRecord (wait lv).awake k n
      exact ⟨_, wait lv, told.trans (gentle_pump (told.awake (wait lv).awake))⟩
    unfold State.raiseWith
    rw [hf]
    dsimp only
    rw [hi]
    cases l <;> exact one _

/-- A raise at a full table with no record of the matter. -/
theorem raiseWith_full {k : Cause} {n : Nat} (hf : s.findRecord k n = none) (he : s.emptySlot = none)
    (l : Option Level) (x : Option ChanInfo) : Gentle s (s.raiseWith k n l x) ∧
      (∀ c, (s.raiseWith k n l x).chan c = s.chan c) ∧ (∀ i, (s.raiseWith k n l x).slotAt i = s.slotAt i) ∧
      (s.raiseWith k n l x).alert.overflow = true := by
  have told := raiseWith_overflow (lvl := l) (info := x) hf he
  have e : s.raiseWith k n l x = (({ s with alert.overflow := true }).fillSnapshot k n none x).beaconUpdate := by
    unfold State.raiseWith
    rw [hf]
    dsimp only
    rw [he]
  have flagged : Gentle s { s with alert.overflow := true } := .of_eq rfl rfl fun _ => rfl
  refine ⟨e ▸ (flagged.trans (gentle_fillSnapshot ..)).trans gentle_beaconUpdate, fun c => ?_, fun i => ?_, ?_⟩
  · rw [e, beaconUpdate_chan, fillSnapshot_chan]
    rfl
  · rw [e, beaconUpdate_slotAt, fillSnapshot_slotAt]
    rfl
  · rw [told.overflow]
    unfold State.fillSnapshot
    split <;> rfl

/-- A raise is gentle in every state: the record raised waits to be seen. -/
theorem gentle_raiseWith (s : State) (k : Cause) (n : Nat) (l : Option Level) (x : Option ChanInfo) :
    Gentle s (s.raiseWith k n l x) := by
  by_cases h : (s.findRecord k n).isSome = true ∨ s.emptySlot.isSome = true
  · obtain ⟨u, wait, told⟩ := raiseWith_waiting h l x
    exact wait.gentle.trans told
  · simp only [not_or, Bool.not_eq_true, Option.isSome_eq_false_iff, Option.isNone_iff_eq_none] at h
    exact (raiseWith_full h.1 h.2 l x).1

theorem findRecord_of_unseen {k : Cause} {n : Nat} (h : s.Unseen k n) : (s.findRecord k n).isSome = true := by
  obtain ⟨i, r, hr, -, rfl, rfl⟩ := h
  exact findRecord_of_slot hr

/-- The end of a latched condition is gentle: a record that waits to be seen waits still. -/
theorem gentle_conditionEnd (ha : s.Awake) {k : Cause} (hl : k.latched = true) (n : Nat) :
    Gentle s (s.conditionEnd k n) := by
  cases hf : s.findRecord k n with
  | none => rw [conditionEnd_none hf]; exact .refl s
  | some i =>
    obtain ⟨r, hr, -, -⟩ := findRecord_some hf
    have seen : r.unseen = false → ∀ x : Option Record, Gentle s (s.withSlot i x) := fun no x =>
      gentle_withSlot fun r0 e hu => by
        rw [hr] at e
        cases e
        rw [no] at hu
        cases hu
    cases hs : r.state with
    | clearing => rw [conditionEnd_clearing hf hr hs]; exact .refl s
    | acknowledged =>
      rw [conditionEnd_ended hf hr (.inl hs)]
      have written := seen ((unseen_eq_false r).mpr (.inl hs)) (if s.ring.bypass then none else some { r with
        condition := false, state := .clearing, timer := none, due := true })
      have told := written.trans (gentle_tellRecord (written.awake ha) k n)
      exact told.trans (gentle_pump (told.awake ha))
    | raised | called =>
      rw [conditionEnd_latched hf hr hl (by simp [hs])]
      refine gentle_withSlot fun r0 e hu => ?_
      rw [hr] at e
      cases e
      exact ⟨_, rfl, hu, rfl, rfl⟩

/-! ## A CALL makes no record wait to be seen -/

theorem recordAfterCall_waited {r r1 : Record} (e : s.recordAfterCall r = some r1) (hu : r1.unseen = true) :
    r.unseen = true ∧ r1.cause = r.cause ∧ r1.subject = r.subject := by
  unfold State.recordAfterCall at e
  cases hs : r.state <;> rw [hs] at e
  · cases e
    exact ⟨(unseen_eq_true r).mpr (.inl hs), rfl, rfl⟩
  · cases e
    exact ⟨(unseen_eq_true r).mpr (.inr hs), rfl, rfl⟩
  · cases e
    exact absurd hu (by simp [Record.unseen])
  · cases e

theorem buildCall_waited {i : Fin 16} {r : Record} (hr : s.slotAt i = some r) {k : Cause} {n : Nat}
    (h : (s.buildCall i r).Unseen k n) : s.Unseen k n := by
  obtain ⟨j, r1, hj, hu, rfl, rfl⟩ := h
  rw [(told_buildCall s i r).slotAt, slotAt_withSlot] at hj
  split at hj
  · obtain ⟨seen, hk, hn⟩ := recordAfterCall_waited hj hu
    exact ⟨i, r, hr, seen, hk.symm, hn.symm⟩
  · exact ⟨j, r1, hj, hu, rfl, rfl⟩

theorem takeOwn_waited {k : Cause} {n : Nat} (h : s.takeOwn.Unseen k n) : s.Unseen k n := by
  unfold State.takeOwn at h
  split at h
  · split at h
    · split at h
      · next i _ _ r hr =>
        exact buildCall_waited (s := { s with
          ring.sending := some (s.ownFrame 0x13 (callPayload i r)), ring.relayCount := 0 }) hr h
      · exact h
    · exact h
  · split at h <;> exact h

theorem pump_waited {k : Cause} {n : Nat} (h : s.pump.Unseen k n) : s.Unseen k n := by
  unfold State.pump State.choose at h
  split at h
  · split at h
    · split at h
      · exact h
      · exact takeOwn_waited h
    · split at h
      · exact takeOwn_waited h
      · exact h
  · exact h

theorem offerOwn_waited {f : Frame} {k : Cause} {n : Nat} (h : (s.offerOwn f).Unseen k n) : s.Unseen k n := by
  unfold State.offerOwn at h
  split at h
  · exact pump_waited (s := { s with ring.insertion := s.ring.insertion ++ [f] }) h
  · exact h

end Gentle

end Sys2Proof.Machine
end

