-- ==== Sys2Proof/Proofs/Endings.lean ====
section
/-! PROOF. How a motion ends (R87, R88, R93, R95, R100): the report of the ended profile, the channel at IDLE or passing
to its pending start, home found, and a search exhausted. -/
namespace Sys2Proof.Machine

/-! ## The report of an ended profile (R100) -/

section Report
variable {s t : State} {c d : Fin 4} {ch : Channel} {o : EndOutcome}

theorem offerTrigger_waits {t : Trigger} (hd : s.cue.dispatch ≠ .idle) (hq : s.cue.queue.length < 16) :
    s.offerTrigger t = { s with cue.queue := s.cue.queue ++ [t] } := by
  unfold State.offerTrigger
  rw [if_pos hq]
  unfold State.takeTrigger
  split
  · next _ e => exact absurd e hd
  all_goals rfl

theorem offerOwn_left {f : Frame} (hb : s.ring.bypass = false) (hs : s.ring.sending.isSome = true)
    (hi : s.ring.insertion.length < 8) : s.offerOwn f = { s with ring.insertion := s.ring.insertion ++ [f] } :=
  (offerOwn_joins hb hi).trans (pump_left (.inr hs))

/-- The DONE frame of a profile that ended. -/
def State.doneFrame (s : State) (c : Fin 4) (p : Fin 32) (o : EndOutcome) (ch : Channel) : Frame :=
  s.ownFrame 0x12 (donePayload c p o ch.clamped ch.position)

/-- The DONE of the report, where the copy asks for it. -/
def State.doneSent (s : State) (c : Fin 4) (ch : Channel) (p : Fin 32) (o : EndOutcome) : List Frame :=
  match (s.chan c).held with
  | .copy k => if k.reportDone then [s.doneFrame c p o ch] else []
  | .absent => []
  | .damaged => []

theorem report_none (h : ch.profile = none) : s.report c ch o = s := by
  unfold State.report; rw [h]

/-- The state in which the trigger is offered: after the DONE, if one is sent. -/
def State.done (s : State) (c : Fin 4) (ch : Channel) (p : Fin 32) (o : EndOutcome) : State :=
  match s.doneSent c ch p o with
  | [] => s
  | f :: _ => s.offerOwn f

theorem report_some {p : Fin 32} (h : ch.profile = some p) : s.report c ch o =
    ((s.done c ch p o).offerTrigger (.localDone c o p)).withChan c
      { ((s.done c ch p o).offerTrigger (.localDone c o p)).chan c with profile := none, clamped := false } := by
  have sent : s.done c ch p o = if (match (s.chan c).held with
      | .copy k => k.reportDone | .absent => false | .damaged => false) then
      s.offerOwn (s.ownFrame 0x12 (donePayload c p o ch.clamped ch.position)) else s := by
    unfold State.done State.doneSent
    cases (s.chan c).held with
    | absent => rfl
    | damaged => rfl
    | copy k => cases hk : k.reportDone <;> simp [hk, State.doneFrame]
  rw [sent]
  unfold State.report
  rw [h] <;> rfl

theorem gentle_done (ha : s.Awake) (p : Fin 32) : Gentle s (s.done c ch p o) := by
  unfold State.done
  split
  · exact .refl s
  · exact gentle_offerOwn ha _

theorem done_left (hb : s.ring.bypass = false) (hs : s.ring.sending.isSome = true) (hi : s.ring.insertion.length < 8)
    (p : Fin 32) : s.done c ch p o = { s with ring.insertion := s.ring.insertion ++ s.doneSent c ch p o } := by
  have one : s.doneSent c ch p o = [] ∨ ∃ f, s.doneSent c ch p o = [f] := by
    unfold State.doneSent
    split
    · split
      · exact .inr ⟨_, rfl⟩
      · exact .inl rfl
    all_goals exact .inl rfl
  unfold State.done
  rcases one with e | ⟨f, e⟩ <;> rw [e]
  · simp
  · exact offerOwn_left hb hs hi

theorem done_overflow (p : Fin 32) : (s.done c ch p o).alert.overflow = s.alert.overflow := by
  unfold State.done State.offerOwn
  split
  · rfl
  · split
    · exact pump_overflow _
    · rfl

theorem done_waited {p : Fin 32} {k : Cause} {n : Nat} (h : (s.done c ch p o).Unseen k n) : s.Unseen k n := by
  unfold State.done at h
  split at h
  · exact h
  · exact offerOwn_waited h

/-- What the report of an ended profile leaves alone, and what it does to the channel, the trigger queue and the
insertion queue. -/
structure Reported (s t : State) (c : Fin 4) (ch : Channel) (o : EndOutcome) : Prop where
  awake  : t.Awake
  mode   : t.mode = s.mode
  effect : t.effect = s.effect
  mgmt   : t.mgmt = s.mgmt
  words  : t.mem.words = s.mem.words
  guards : t.motion.guards = s.motion.guards
  owed   : t.motion.owed = s.motion.owed
  sampled : t.straps = s.straps ∧ t.sampling = s.sampling ∧ t.ring.hopLimit = s.ring.hopLimit ∧
    t.ring.bypass = s.ring.bypass
  others : ∀ d, d ≠ c → s.Stays d → t.chan d = s.chan d
  own    : s.Stays c → (s.chan c).profile = ch.profile →
    t.chan c = { s.chan c with profile := none, clamped := (t.chan c).clamped }
  atRest : ∀ d, (t.chan d).state.atRest = (s.chan d).state.atRest
  keeps  : ∀ d, s.Stays d → t.Stays d
  unseen : ∀ k n, s.Unseen k n → t.Unseen k n
  seen   : ∀ k n, t.Unseen k n → s.Unseen k n
  overflow : t.alert.overflow = s.alert.overflow
  silent : ch.profile = none → t = s
  offers : ∀ q, ch.profile = some q → s.cue.dispatch ≠ .idle → s.cue.queue.length < 16 →
    t.cue = { s.cue with queue := s.cue.queue ++ [.localDone c o q] }
  sends  : s.ring.bypass = false → s.ring.sending.isSome = true → s.ring.insertion.length < 8 →
    t.ring.sending = s.ring.sending ∧ t.ring.insertion = s.ring.insertion ++
      (match ch.profile with | some q => s.doneSent c ch q o | none => [])

theorem haltReleased_congr (hg : t.motion.guards = s.motion.guards) (hs : ∀ i, t.slotAt i = s.slotAt i)
    (hm : (t.chan d).guardMap = (s.chan d).guardMap) (ha : (t.chan d).attend = (s.chan d).attend) :
    t.haltReleased d = s.haltReleased d := by
  have closed : ∀ m, t.guardsClosed m = s.guardsClosed m := fun m => by
    simp only [State.guardsClosed, State.guardIn, hg]
  unfold State.haltReleased
  rw [hm, ha, closed, anyRecord_congr _ hs]

theorem faultReleased_congr (hs : ∀ i, t.slotAt i = s.slotAt i)
    (hr : (t.chan d).faultReason = (s.chan d).faultReason) (hp : (t.chan d).faultPin = (s.chan d).faultPin) :
    t.faultReleased d = s.faultReleased d := by
  unfold State.faultReleased
  rw [hr, hp]
  simp only [anyRecord_congr _ hs]

theorem reported (ha : s.Awake) (c : Fin 4) (ch : Channel) (o : EndOutcome) :
    Reported s (s.report c ch o) c ch o := by
  cases hq : ch.profile with
  | none =>
    rw [report_none hq]
    exact ⟨ha, rfl, rfl, rfl, rfl, rfl, rfl, ⟨rfl, rfl, rfl, rfl⟩, fun _ _ _ => rfl, fun _ hp => by rw [← hq, ← hp],
      fun _ => rfl, fun _ => id, fun _ _ => id, fun _ _ => id, rfl, fun _ => rfl, fun q h => absurd (hq.symm.trans h) (by simp),
      fun _ _ _ => ⟨rfl, by rw [hq]; simp⟩⟩
  | some p =>
    have gentle := gentle_done (c := c) (ch := ch) (o := o) ha p
    obtain ⟨q, n, a, po, w, e⟩ := offerTrigger_eq (s.done c ch p o) (.localDone c o p)
    have offered := report_some (s := s) (c := c) (o := o) hq
    generalize hb : (s.done c ch p o).offerTrigger (.localDone c o p) = b at offered
    have chan : ∀ d, b.chan d = (s.done c ch p o).chan d := fun d => by rw [← hb, e]; rfl
    have motion : b.motion = (s.done c ch p o).motion := by rw [← hb, e]
    have flag : b.alert.overflow = (s.done c ch p o).alert.overflow := by rw [← hb, e]
    have mode : b.mode = (s.done c ch p o).mode := by rw [← hb, e]
    have slots : ∀ i, b.slotAt i = (s.done c ch p o).slotAt i := fun i => by rw [← hb, e]; rfl
    have kept : (s.done c ch p o).mem.words = s.mem.words := by rw [gentle.mild.mem]
    have fields : b.effect = s.effect ∧ b.mgmt = s.mgmt ∧ b.mem.words = s.mem.words ∧ b.straps = s.straps ∧
        b.sampling = s.sampling ∧ b.ring.hopLimit = s.ring.hopLimit ∧ b.ring.bypass = s.ring.bypass := by
      rw [← hb, e]
      exact ⟨gentle.mild.effect, gentle.mild.mgmt, kept, gentle.mild.straps,
        gentle.mild.sampling, gentle.mild.hopLimit, gentle.mild.bypass⟩
    obtain ⟨effect, mgmt, words, straps, sampling, hop, bypass⟩ := fields
    rw [offered]
    have tchan : ∀ d, (b.withChan c { b.chan c with profile := none, clamped := false }).chan d =
        if d = c then { b.chan c with profile := none, clamped := false } else b.chan d := fun d => chan_withChan ..
    generalize ht : b.withChan c { b.chan c with profile := none, clamped := false } = t at tchan ⊢
    have tslots : ∀ i, t.slotAt i = (s.done c ch p o).slotAt i := fun i => by rw [← ht]; exact slots i
    have tguards : t.motion.guards = (s.done c ch p o).motion.guards := by
      rw [← ht]
      show b.motion.guards = _
      rw [motion]
    have state : ∀ d, (t.chan d).state = ((s.done c ch p o).chan d).state ∧
        (t.chan d).guardMap = ((s.done c ch p o).chan d).guardMap ∧
        (t.chan d).attend = ((s.done c ch p o).chan d).attend ∧
        (t.chan d).faultReason = ((s.done c ch p o).chan d).faultReason ∧
        (t.chan d).faultPin = ((s.done c ch p o).chan d).faultPin := fun d => by
      rw [tchan, ← chan]
      by_cases hd : d = c
      · rw [if_pos hd, hd]
        exact ⟨rfl, rfl, rfl, rfl, rfl⟩
      · rw [if_neg hd]
        exact ⟨rfl, rfl, rfl, rfl, rfl⟩
    have keeps : ∀ d, (s.done c ch p o).Stays d → t.Stays d := fun d h => by
      obtain ⟨hs, hm, hat, hr, hpin⟩ := state d
      refine ⟨fun k => ?_, fun k => ?_⟩
      · rw [haltReleased_congr tguards tslots hm hat]
        exact h.1 (hs ▸ k)
      · rw [faultReleased_congr tslots hr hpin]
        exact h.2 (hs ▸ k)
    have awake : t.Awake := by
      refine (gentle.awake ha).imp (fun hn => ?_) fun hr => ?_
      · rw [← ht]
        show b.mode.node ≠ .closing
        rw [mode]
        exact hn
      · rw [Bool.eq_false_iff, ne_eq, restPasses_eq] at hr ⊢
        rw [anyRecord_congr _ tslots]
        exact fun k => hr ⟨fun d => by rw [← (state d).1]; exact k.1 d, k.2⟩
    refine ⟨awake, ?_, ?_, ?_, ?_, tguards.trans gentle.mild.guards, ?_, ?_, fun d hd hs => ?_, fun hs _ => ?_,
      fun d => by rw [(state d).1, gentle.atRest], fun d hs => keeps d (gentle.keeps hs),
      fun k n h => unseen_of_slots tslots k n (gentle.unseen k n h),
      fun k n h => done_waited (unseen_of_slots (fun i => (tslots i).symm) k n h), ?_, fun no => absurd (hq.symm.trans no) (by simp),
      fun q' hq' hd hl => ?_, fun hb' hs hi => ?_⟩
    · rw [← ht]; exact mode.trans gentle.mild.mode
    · rw [← ht]; exact effect
    · rw [← ht]; exact mgmt
    · rw [← ht]; exact words
    · rw [← ht]
      show b.motion.owed = _
      rw [motion]
      exact gentle.mild.owed
    · rw [← ht]; exact ⟨straps, sampling, hop, bypass⟩
    · rw [tchan, if_neg hd, chan, gentle.stays d hs]
    · rw [tchan, if_pos rfl, chan, gentle.stays c hs]
    · rw [← ht]
      exact flag.trans (done_overflow p)
    · rw [hq] at hq'
      cases hq'
      rw [← ht]
      show b.cue = _
      rw [← hb, offerTrigger_waits (by rw [gentle.mild.cue]; exact hd) (by rw [gentle.mild.cue]; exact hl)]
      show { (s.done c ch p o).cue with queue := (s.done c ch p o).cue.queue ++ [Trigger.localDone c o p] } = _
      rw [gentle.mild.cue]
    · rw [hq, ← ht]
      have ring : b.ring.sending = (s.done c ch p o).ring.sending ∧ b.ring.insertion = (s.done c ch p o).ring.insertion := by
        rw [← hb, e]
        exact ⟨rfl, rfl⟩
      rw [done_left hb' hs hi] at ring
      exact ring

end Report

/-! ## The last channel of a CLOSING node to come to rest (R31) -/

/-- Channel `c` alone keeps the node from coming to rest. -/
def State.LastToRest (s : State) (c : Fin 4) : Prop :=
  s.mode.node = .closing ∧ (∀ d, d ≠ c → (s.chan d).state.atRest = true) ∧ s.anyRecord Record.unseen = false

theorem lastToRest_iff (s : State) (c : Fin 4) : s.LastToRest c ↔ s.mode.node = .closing ∧
    (∀ d, d ≠ c → (s.chan d).state = .unhomed ∨ (s.chan d).state = .idle ∨
      (s.chan d).state = .halted ∨ (s.chan d).state = .fault) ∧
    ∀ i r, s.slotAt i = some r → r.state = .acknowledged ∨ r.state = .clearing := by
  unfold State.LastToRest
  simp only [atRest_iff, anyRecord_unseen_false]

section Becomes
variable {s : State} {c : Fin 4} {y : Channel}

theorem lastToRest_withChan (x : Channel) : (s.withChan c x).LastToRest c ↔ s.LastToRest c := by
  unfold State.LastToRest
  refine and_congr Iff.rfl (and_congr (forall_congr' fun d => forall_congr' fun hd => ?_) Iff.rfl)
  rw [chan_withChan, if_neg hd]

theorem not_awake_lastToRest (h : y.takeAside.state.atRest = true) :
    ¬ (s.withChan c y.takeAside).Awake ↔ s.LastToRest c := by
  rw [withChan_rests]
  exact ⟨fun ⟨a, _, b, d⟩ => ⟨a, b, d⟩, fun ⟨a, b, d⟩ => ⟨a, h, b, d⟩⟩

/-- A channel that comes to rest, last. -/
theorem changeChan_last (h : y.takeAside.state.atRest = true) (last : s.LastToRest c) :
    (s.changeChan c y).mode = { s.mode with node := .dormant } ∧
    ∀ d, (s.changeChan c y).chan d = (if d = c then y.takeAside else s.chan d).enterResting :=
  changeChan_rests ((not_awake_lastToRest h).mpr last)

/-- A channel that comes to rest while the node does not. -/
theorem changeChan_notLast (h : y.takeAside.state.atRest = true) (no : ¬ s.LastToRest c) :
    Moved s (s.changeChan c y) ∧
    ∀ d, (s.changeChan c y).chan d = if d = c then y.takeAside else s.chan d := by
  obtain ⟨moved, -, -, chan⟩ := changeChan_stands (not_not.mp (mt (not_awake_lastToRest h).mp no))
  exact ⟨moved, chan⟩

theorem changeChan_guards (s : State) (c : Fin 4) (y : Channel) :
    (s.changeChan c y).motion.guards = s.motion.guards := by
  by_cases h : (s.withChan c y.takeAside).Awake
  · exact (changeChan_stands h).2.1
  · rw [changeChan_rested h, channelLamps_motion]
    rfl

/-- A channel that comes to rest UNHOMED or IDLE and holds no copy aside: it stands so, or rests from it. -/
theorem changeChan_settles (hy : y.state = .unhomed ∨ y.state = .idle) (ha : y.aside = none) :
    (s.LastToRest c → (s.changeChan c y).chan c = { y with restState := some y.state, state := .resting }) ∧
    (¬ s.LastToRest c → (s.changeChan c y).chan c = y) := by
  have rest : y.takeAside.state.atRest = true := by
    rw [atRest_iff]
    exact (takeAside_settled hy).imp id .inl
  have own : y.takeAside = y := takeAside_id y (.inr ha)
  refine ⟨fun last => ?_, fun no => ?_⟩
  · rw [(changeChan_last rest last).2, if_pos rfl, own, enterResting_eq ha]
  · rw [(changeChan_notLast rest no).2, if_pos rfl, own]

/-- Whatever it takes aside, a channel that comes to rest UNHOMED or IDLE is not there to be released. -/
theorem changeChan_stays (hy : y.state = .unhomed ∨ y.state = .idle) : (s.changeChan c y).Stays c := by
  have rest : y.takeAside.state.atRest = true := by
    rw [atRest_iff]
    exact (takeAside_settled hy).imp id .inl
  by_cases last : s.LastToRest c
  · have resting : ((s.changeChan c y).chan c).state = .resting := by
      rw [(changeChan_last rest last).2, if_pos rfl, enterResting_state]
    exact stays_of_state (by rw [resting]; decide) (by rw [resting]; decide)
  · have now : (s.changeChan c y).chan c = y.takeAside := by rw [(changeChan_notLast rest last).2, if_pos rfl]
    refine stays_of_state ?_ ?_ <;> rw [now] <;> rcases takeAside_settled hy with k | k <;> rw [k] <;> decide

end Becomes

/-! ## Coming to rest, or passing to the pending start (R92 to R95) -/

section Ending
variable {s : State} {c : Fin 4} {ch : Channel} {p : Fin 32}

/-- The report of the profile that ended, if one did. -/
def State.ended (s : State) (c : Fin 4) (ch : Channel) : Option EndOutcome → State
  | some o => s.report c ch o
  | none => s

/-- The record of a channel that becomes IDLE; a pending start that is blocked is refused. -/
def Channel.idled (ch : Channel) (blocked : Bool) : Channel :=
  { ch with slot := none, state := .idle, refused := if blocked then inc16 ch.refused else ch.refused }

theorem comeToRest_begins (hs : ch.slot = some p) (hg : s.gated c = false) (hc : s.guardsClosed ch.guardMap = true)
    (o : Option EndOutcome) : s.comeToRest c ch o =
      (((s.cancelOwed c).withChan c { ch with slot := none }).ended c ch o).beginProfile c p := by
  unfold State.comeToRest
  dsimp only
  rw [hs]
  refine (if_pos ⟨hg, hc⟩).trans ?_
  cases o <;> rfl

/-- The pending start does not begin: none waits, or it is blocked by gating or by an open guard. -/
def State.Blocked (s : State) (c : Fin 4) (ch : Channel) (blocked : Bool) : Prop :=
  (blocked = false ∧ ch.slot = none) ∨
    (blocked = true ∧ ch.slot.isSome = true ∧ (s.gated c = true ∨ s.guardsClosed ch.guardMap = false))

theorem comeToRest_idles {blocked : Bool} (h : s.Blocked c ch blocked) (o : Option EndOutcome) : s.comeToRest c ch o =
    ((s.cancelOwed c).changeChan c (ch.idled blocked)).ended c ch o := by
  unfold State.comeToRest
  dsimp only
  rcases h with ⟨rfl, hs⟩ | ⟨rfl, hs, block⟩
  · rw [hs]
    cases o <;> rfl
  · obtain ⟨p, hp⟩ := Option.isSome_iff_exists.mp hs
    rw [hp]
    refine (if_neg ?_).trans ?_
    · rintro ⟨open', closed⟩
      rcases block with block | block
      · exact absurd (block.symm.trans open') (by decide)
      · exact absurd (block.symm.trans closed) (by decide)
    · cases o <;> rfl

/-- A change of the channel's own record, and the debts it drops, leave what the tests of the channel read. -/
theorem gated_withChan {x : Channel} (hx : x.held = (s.chan c).held) : (s.withChan c x).gated c = s.gated c := by
  have own : (s.withChan c x).chan c = x := by rw [chan_withChan, if_pos rfl]
  rw [Bool.eq_iff_iff, gated_iff, gated_iff, own, hx]
  rfl

/-- What a channel's motion ends in, but for its report: its record at rest, told. -/
def State.idle (s : State) (c : Fin 4) (ch : Channel) (blocked : Bool) : State :=
  (s.cancelOwed c).changeChan c (ch.idled blocked)

theorem idle_shifted (ch : Channel) (blocked : Bool) : Shifted s (s.idle c ch blocked) :=
  (moved_cancelOwed s c).shifted.trans (shifted_changeChan _ c _)

theorem idle_last {blocked : Bool} (last : s.LastToRest c) :
    (s.idle c ch blocked).mode = { s.mode with node := .dormant } ∧ (ch.aside = none →
      (s.idle c ch blocked).chan c = { ch.idled blocked with restState := some .idle, state := .resting }) :=
  ⟨(changeChan_last (s := s.cancelOwed c) (y := ch.idled blocked)
    (by rw [atRest_iff]; exact (takeAside_settled (.inr rfl)).imp id .inl) last).1,
    fun ha => (changeChan_settles (s := s.cancelOwed c) (y := ch.idled blocked) (.inr rfl) ha).1 last⟩

theorem idle_notLast {blocked : Bool} (no : ¬ s.LastToRest c) : Moved s (s.idle c ch blocked) ∧
    (∀ d, d ≠ c → (s.idle c ch blocked).chan d = s.chan d) ∧
    (ch.aside = none → (s.idle c ch blocked).chan c = ch.idled blocked) := by
  obtain ⟨moved, chan⟩ := changeChan_notLast (s := s.cancelOwed c) (y := ch.idled blocked)
    (by rw [atRest_iff]; exact (takeAside_settled (.inr rfl)).imp id .inl) no
  exact ⟨(moved_cancelOwed s c).trans moved, fun d hd => (chan d).trans (if_neg hd),
    fun ha => (changeChan_settles (s := s.cancelOwed c) (y := ch.idled blocked) (.inr rfl) ha).2 no⟩

theorem idle_aside {blocked : Bool} (ha : ch.aside = none) : (s.idle c ch blocked).chan c = { ch.idled blocked with
    state := ((s.idle c ch blocked).chan c).state, restState := ((s.idle c ch blocked).chan c).restState } := by
  by_cases last : s.LastToRest c
  · rw [(idle_last last).2 ha]
  · rw [(idle_notLast last).2.2 ha]

/-- A report, by what is reported and where: before the pending start begins, or once the channel is at rest. -/
theorem ended_reported (ha : s.Awake) (c : Fin 4) (ch : Channel) (o : EndOutcome) :
    Reported s (s.ended c ch (some o)) c ch o := reported ha c ch o

end Ending

/-- `t` is `s` but for motion, button and memory unit, whose words stand. -/
def MovedThen (s t : State) : Prop :=
  t = { s with motion := t.motion, button := t.button, mem := t.mem } ∧ t.mem.words = s.mem.words

theorem Moved.mem {s t : State} (h : Moved s t) : t.mem = s.mem := by unfold Moved at h; rw [h]
theorem Moved.effect {s t : State} (h : Moved s t) : t.effect = s.effect := by unfold Moved at h; rw [h]

theorem Moved.memory {s t : State} (h : Moved s t) : MovedThen s t := by
  refine ⟨?_, by rw [h.mem]⟩
  rw [h.mem]
  exact h

theorem MovedThen.arbitrate {s t : State} (h : MovedThen s t) : MovedThen s t.arbitrate := by
  obtain ⟨e, words⟩ := h
  obtain ⟨motion, button, same, whole⟩ := arbitrate_parts t
  refine ⟨?_, same.trans words⟩
  rw [motion, button]
  exact whole.trans (congrArg (fun u : State => { u with mem := t.arbitrate.mem }) e)

theorem Shifted.kept {s t : State} (h : Shifted s t) : t.mem = s.mem ∧ t.mgmt = s.mgmt ∧ t.cue = s.cue ∧
    t.ring = s.ring ∧ t.alert = s.alert ∧ t.straps = s.straps := by
  unfold Shifted at h
  rw [h]
  exact ⟨rfl, rfl, rfl, rfl, rfl, rfl⟩

theorem arbitrate_chan (s : State) (c : Fin 4) : s.arbitrate.chan c = s.chan c := by
  simp only [State.chan, (arbitrate_parts s).1]

/-! ## A complete stop (R95) -/

section Stop
variable {s t : State} {c : Fin 4} {o : EndOutcome} {p q : Fin 32}

/-- The record of a channel whose stop is complete: its pending start is emptied after FAULTED. -/
def Channel.stopped (x : Channel) : Channel :=
  { ({ x with stepPulses := 0 } : Channel).halt with
    slot := if x.ending = some .faulted then none else x.slot }

/-- The outcome of the stop. -/
def Channel.outcome (x : Channel) : EndOutcome := if x.ending = some .faulted then .faulted else .stopped

/-- The state in which the stop ends: the tick's pulses are over. -/
def State.stoppedTick (s : State) (c : Fin 4) : State := s.withChan c { s.chan c with stepPulses := 0 }

/-- The state after the complete stop of channel `c`. -/
def State.stopEnd (s : State) (c : Fin 4) : State :=
  ((s.stoppedTick c).comeToRest c (s.chan c).stopped (some (s.chan c).outcome)).arbitrate

theorem exec_stopComplete_done (hs : (s.chan c).state = .stopping) (hv : (s.chan c).v ≤ (s.chan c).vs) :
    exec (.stopComplete c) s = .next (s.stopEnd c) := by
  refine congrArg Host.Outcome.next ((if_pos ⟨hs, hv⟩).trans ?_)
  unfold State.stopDone
  dsimp only
  rw [chan_withChan, if_pos rfl]
  unfold State.stopEnd Channel.stopped Channel.outcome
  split
  · next e =>
    have faulted : (s.chan c).ending = some .faulted := e
    rw [if_pos faulted, if_pos faulted]
    rfl
  all_goals
    next e =>
    have stopped : (s.chan c).ending ≠ some .faulted := fun k => absurd (e.symm.trans k) (by decide)
    rw [if_neg stopped, if_neg stopped]
    rfl

theorem lastToRest_stoppedTick : (s.stoppedTick c).LastToRest c ↔ s.LastToRest c := lastToRest_withChan _

theorem gated_stoppedTick : (s.stoppedTick c).gated c = s.gated c := gated_withChan rfl

theorem stopEnd_begins (hm : (s.chan c).state = .stopping) (hp : (s.chan c).slot = some p)
    (hf : (s.chan c).ending ≠ some .faulted) (hg : s.gated c = false)
    (hc : s.guardsClosed (s.chan c).guardMap = true) : ∃ v, Reported
      (((s.stoppedTick c).cancelOwed c).withChan c { (s.chan c).stopped with slot := none }) v c
        (s.chan c).stopped (s.chan c).outcome ∧ s.stopEnd c = (v.begun c p).arbitrate.arbitrate := by
  have slot : (s.chan c).stopped.slot = some p := (if_neg hf).trans hp
  have moving : ((((s.stoppedTick c).cancelOwed c).withChan c { (s.chan c).stopped with slot := none }).chan
      c).state.inMotion = true := by
    rw [chan_withChan, if_pos rfl]
    show (s.chan c).state.inMotion = true
    rw [hm]
    rfl
  refine ⟨_, ended_reported (awake_inMotion moving) c _ _, ?_⟩
  rw [← beginProfile_eq]
  exact congrArg State.arbitrate
    (comeToRest_begins slot (gated_stoppedTick.trans hg) hc (some (s.chan c).outcome))

theorem stopEnd_idles {blocked : Bool} (h : (s.stoppedTick c).Blocked c (s.chan c).stopped blocked) :
    ∃ v, Reported ((s.stoppedTick c).idle c (s.chan c).stopped blocked) v c (s.chan c).stopped
      (s.chan c).outcome ∧ s.stopEnd c = v.arbitrate :=
  ⟨_, ended_reported (awake_changeChan _ c _) c _ _, congrArg State.arbitrate (comeToRest_idles h _)⟩

/-- Whether the pending start begins or not: what the report leaves alone, and what it sends. -/
theorem stopEnd_cases (hm : (s.chan c).state = .stopping) : ∃ v0 v, Shifted s v0 ∧
    Reported v0 v c (s.chan c).stopped (s.chan c).outcome ∧ v0.Stays c ∧
    s.stopEnd c = { v with
      motion := (s.stopEnd c).motion, button := (s.stopEnd c).button, mem := (s.stopEnd c).mem } ∧
    (s.stopEnd c).mem.words = v.mem.words ∧
    ((s.chan c).aside = none → (v0.chan c).held = (s.chan c).held ∧
      (v0.chan c).position = (s.chan c).position ∧ (v0.chan c).slot = none ∧ (v0.chan c).profile = (s.chan c).profile) ∧
    ∀ w, v.chan c = w → ((s.stopEnd c).chan c).position = w.position ∧ ((s.stopEnd c).chan c).slot = w.slot := by
  have tick : Shifted s (s.stoppedTick c) := (moved_withChan s c _).shifted
  by_cases begins : ∃ p, (s.chan c).slot = some p ∧ (s.chan c).ending ≠ some .faulted ∧ s.gated c = false ∧
      s.guardsClosed (s.chan c).guardMap = true
  · obtain ⟨p, hp, hf, hg, hc⟩ := begins
    obtain ⟨v, rep, e⟩ := stopEnd_begins hm hp hf hg hc
    refine ⟨_, v, tick.trans ((moved_cancelOwed _ c).shifted.trans (moved_withChan _ c _).shifted), rep, ?_, ?_, ?_, ?_, ?_⟩
    · refine stays_of_state ?_ ?_ <;> rw [chan_withChan, if_pos rfl] <;>
        show (s.chan c).state ≠ _ <;> rw [hm] <;> decide
    · obtain ⟨a1, p1, w1, e1⟩ := arbitrate_eq (v.begun c p)
      obtain ⟨a2, p2, w2, e2⟩ := arbitrate_eq (v.begun c p).arbitrate
      have begun := moved_begun v c p
      rw [e, e2, e1]
      rw [begun]
    · have begun := moved_begun v c p
      rw [e, (arbitrate_parts _).2.2.1, (arbitrate_parts _).2.2.1, begun]
    · intro _
      rw [chan_withChan, if_pos rfl]
      exact ⟨rfl, rfl, rfl, rfl⟩
    · rintro w rfl
      have own : (s.stopEnd c).chan c = (v.chan c).begin p := by
        have same : ∀ u : State, u.arbitrate.chan c = u.chan c := fun u => by
          simp only [State.chan, (arbitrate_parts u).1]
        rw [e, same, same, begun_chan, if_pos rfl]
      rw [own]
      exact ⟨rfl, rfl⟩
  · have blocked : ∃ blocked, (s.stoppedTick c).Blocked c (s.chan c).stopped blocked := by
      by_cases faulted : (s.chan c).ending = some .faulted
      · exact ⟨false, .inl ⟨rfl, if_pos faulted⟩⟩
      · cases hp : (s.chan c).slot with
        | none => exact ⟨false, .inl ⟨rfl, (if_neg faulted).trans hp⟩⟩
        | some p =>
          refine ⟨true, .inr ⟨rfl, Option.isSome_iff_exists.mpr ⟨p, (if_neg faulted).trans hp⟩, ?_⟩⟩
          rw [gated_stoppedTick]
          by_contra no
          simp only [not_or, Bool.not_eq_true, Bool.not_eq_false] at no
          exact begins ⟨p, hp, faulted, no.1, no.2⟩
    obtain ⟨blocked, hb⟩ := blocked
    obtain ⟨v, rep, e⟩ := stopEnd_idles hb
    refine ⟨_, v, tick.trans (idle_shifted _ _), rep, changeChan_stays (.inr rfl), ?_, ?_, fun ha => ?_, ?_⟩
    · rw [e, (arbitrate_parts v).2.2.2]
    · rw [e, (arbitrate_parts v).2.2.1]
    · rw [idle_aside (s := s.stoppedTick c) (ch := (s.chan c).stopped) (blocked := blocked) ha]
      exact ⟨rfl, rfl, rfl, rfl⟩
    · rintro w rfl
      have own : (s.stopEnd c).chan c = v.chan c := by
        rw [e]
        simp only [State.chan, (arbitrate_parts v).1]
      rw [own]
      exact ⟨rfl, rfl⟩

/-- The DONE that a report sends is the one of the profile that ended, where it ended. -/
theorem doneSent_copy {v0 : State} {ch : Channel} {k : ChannelSettings} (shift : Shifted s v0)
    (hh : (v0.chan c).held = .copy k) : v0.doneSent c ch q o =
      if k.reportDone then [⟨0x12, 0, s.address, BitVec.ofNat 8 s.ring.hopLimit,
        [BitVec.ofNat 8 c.val, BitVec.ofNat 8 q.val, BitVec.ofNat 8 o.code, if ch.clamped then 1 else 0]
          ++ bytesBE 3 ch.position⟩] else [] := by
  have frame : v0.doneFrame c q o ch = s.doneFrame c q o ch := by
    unfold Shifted at shift
    rw [shift]
    rfl
  unfold State.doneSent
  rw [hh, frame]
  rfl

/-- What the end of a stop does, whatever becomes of the pending start. -/
theorem stopEnd_kept (hm : (s.chan c).state = .stopping) :
    (s.stopEnd c).mem.words = s.mem.words ∧ (s.stopEnd c).mgmt = s.mgmt ∧
    ((s.chan c).profile = none → (s.stopEnd c).cue = s.cue) ∧
    (∀ q, (s.chan c).profile = some q → s.cue.dispatch ≠ .idle → s.cue.queue.length < 16 →
      (s.stopEnd c).cue.queue = s.cue.queue ++ [.localDone c (s.chan c).outcome q]) ∧
    ((s.chan c).aside = none → ((s.stopEnd c).chan c).position = (s.chan c).position ∧
      ((s.stopEnd c).chan c).slot = none ∧
      ∀ k q, (s.chan c).held = .copy k → (s.chan c).profile = some q → s.ring.bypass = false →
        s.ring.sending.isSome = true → s.ring.insertion.length < 8 →
        (s.stopEnd c).ring.insertion = s.ring.insertion ++ (if k.reportDone then
          [⟨0x12, 0, s.address, BitVec.ofNat 8 s.ring.hopLimit,
            [BitVec.ofNat 8 c.val, BitVec.ofNat 8 q.val, BitVec.ofNat 8 (s.chan c).outcome.code,
              if (s.chan c).clamped then 1 else 0] ++ bytesBE 3 (s.chan c).position⟩] else [])) := by
  obtain ⟨v0, v, shift, rep, stays, whole, words, asideless, own⟩ := stopEnd_cases hm
  have cue : (s.stopEnd c).cue = v.cue := by rw [whole]
  have ring : (s.stopEnd c).ring = v.ring := by rw [whole]
  obtain ⟨mem0, mgmt0, cue0, ring0, -⟩ := shift.kept
  refine ⟨?_, ?_, fun none => ?_, fun q hq hd hl => ?_, fun ha => ?_⟩
  · rw [words, rep.words, mem0]
  · rw [whole]
    exact rep.mgmt.trans mgmt0
  · rw [cue, rep.silent none, cue0]
  · rw [cue, rep.offers q hq (by rw [cue0]; exact hd) (by rw [cue0]; exact hl), cue0]
  · obtain ⟨held, position, slot, profile⟩ := asideless ha
    obtain ⟨pos, sl⟩ := own _ rfl
    rw [rep.own stays profile] at pos sl
    refine ⟨pos.trans position, sl.trans slot, fun k q hh hq hb hs hl => ?_⟩
    rw [ring, (rep.sends (by rw [ring0]; exact hb) (by rw [ring0]; exact hs) (by rw [ring0]; exact hl)).2, ring0,
      show (s.chan c).stopped.profile = some q from hq]
    exact congrArg (s.ring.insertion ++ ·) (doneSent_copy shift (held.trans hh))

/-- The pending start begins. -/
theorem stopEnd_moves (hm : (s.chan c).state = .stopping) (hp : (s.chan c).slot = some p)
    (hf : (s.chan c).ending ≠ some .faulted) (hg : s.gated c = false)
    (hc : s.guardsClosed (s.chan c).guardMap = true) :
    ((s.stopEnd c).chan c).state = .moving ∧ ((s.stopEnd c).chan c).profile = some p ∧
      ((s.stopEnd c).chan c).slot = none ∧ ((s.stopEnd c).chan c).refused = (s.chan c).refused ∧
      (s.stopEnd c).mode = s.mode ∧ (s.stopEnd c).effect = s.effect ∧
      ((s.stopEnd c).chan c).position = (s.chan c).position := by
  obtain ⟨v, rep, e⟩ := stopEnd_begins hm hp hf hg hc
  have base : ∀ u : State, u = ((s.stoppedTick c).cancelOwed c).withChan c { (s.chan c).stopped with slot := none } →
      u.chan c = { (s.chan c).stopped with slot := none } := by
    rintro u rfl
    rw [chan_withChan, if_pos rfl]
  have stays : State.Stays (((s.stoppedTick c).cancelOwed c).withChan c { (s.chan c).stopped with slot := none }) c := by
    refine stays_of_state ?_ ?_ <;> rw [base _ rfl] <;> show (s.chan c).state ≠ _ <;> rw [hm] <;> decide
  have own := rep.own stays (by rw [base _ rfl])
  rw [base _ rfl] at own
  have same : ∀ u : State, u.arbitrate.chan c = u.chan c := fun u => by simp only [State.chan, (arbitrate_parts u).1]
  have begun := moved_begun v c p
  have chan : (s.stopEnd c).chan c = (v.chan c).begin p := by rw [e, same, same, begun_chan, if_pos rfl]
  have mode : (s.stopEnd c).mode = v.mode := by
    rw [e, (arbitrate_parts _).2.2.2, (arbitrate_parts (v.begun c p)).2.2.2, begun]
  have effect : (s.stopEnd c).effect = v.effect := by
    rw [e, (arbitrate_parts _).2.2.2, (arbitrate_parts (v.begun c p)).2.2.2, begun]
  rw [chan, own]
  exact ⟨rfl, rfl, rfl, rfl, mode.trans rep.mode, effect.trans rep.effect, rfl⟩

/-- The channel becomes IDLE, or, the last of a CLOSING node to come to rest, RESTING from it. -/
theorem stopEnd_rests {blocked : Bool} (h : (s.stoppedTick c).Blocked c (s.chan c).stopped blocked)
    (ha : (s.chan c).aside = none) :
    ((s.stopEnd c).chan c).profile = none ∧
    ((s.stopEnd c).chan c).refused = (if blocked then inc16 (s.chan c).refused else (s.chan c).refused) ∧
    (s.LastToRest c → ((s.stopEnd c).chan c).state = .resting ∧ ((s.stopEnd c).chan c).restState = some .idle ∧
      (s.stopEnd c).mode.node = .dormant) ∧
    (¬ s.LastToRest c → ((s.stopEnd c).chan c).state = .idle ∧ (s.stopEnd c).mode = s.mode ∧
      (s.stopEnd c).effect = s.effect) := by
  obtain ⟨v, rep, e⟩ := stopEnd_idles h
  have chan : (s.stopEnd c).chan c = v.chan c := by
    rw [e]
    simp only [State.chan, (arbitrate_parts v).1]
  have rest := idle_aside (s := s.stoppedTick c) (c := c) (ch := (s.chan c).stopped) (blocked := blocked) ha
  have own := rep.own (changeChan_stays (.inr rfl)) (by rw [rest]; rfl)
  have mode : (s.stopEnd c).mode = ((s.stoppedTick c).idle c (s.chan c).stopped blocked).mode := by
    rw [e, (arbitrate_parts v).2.2.2]
    exact rep.mode
  have effect : (s.stopEnd c).effect = ((s.stoppedTick c).idle c (s.chan c).stopped blocked).effect := by
    rw [e, (arbitrate_parts v).2.2.2]
    exact rep.effect
  rw [chan]
  refine ⟨by rw [own], ?_, fun last => ?_, fun no => ?_⟩
  · rw [own, rest]
    rfl
  · obtain ⟨dormant, resting⟩ := idle_last (s := s.stoppedTick c) (ch := (s.chan c).stopped) (blocked := blocked)
      (lastToRest_stoppedTick.mpr last)
    rw [mode, dormant, own, resting ha]
    exact ⟨rfl, rfl, rfl⟩
  · obtain ⟨moved, -, idle⟩ := idle_notLast (s := s.stoppedTick c) (ch := (s.chan c).stopped) (blocked := blocked)
      (mt lastToRest_stoppedTick.mp no)
    rw [mode, effect, own, idle ha]
    unfold Moved at moved
    rw [moved]
    exact ⟨rfl, rfl, rfl⟩

end Stop

/-! ## Home found, and a search exhausted (R87, R88) -/

section Search
variable {s : State} {c : Fin 4} {p : Fin 32}

/-- The record of a channel that has found home. -/
def Channel.found (x : Channel) : Channel :=
  { ({ x with homePin := true } : Channel).halt with position := 0, positionLost := false, stepPulses := 0 }

/-- The state in which the home switch has read closed. -/
def State.foundTick (s : State) (c : Fin 4) : State := s.withChan c { s.chan c with homePin := true }

/-- The state after home is found. -/
def State.foundEnd (s : State) (c : Fin 4) : State :=
  ((s.foundTick c).comeToRest c (s.chan c).found none).arbitrate

theorem exec_homeFound_done (hs : (s.chan c).state = .homing) : exec (.homeFound c) s = .next (s.foundEnd c) := by
  refine congrArg Host.Outcome.next ((if_pos hs).trans ?_)
  unfold State.foundHome State.foundEnd Channel.found
  rw [chan_withChan, if_pos rfl]
  rfl

theorem gated_foundTick : (s.foundTick c).gated c = s.gated c := gated_withChan rfl

theorem lastToRest_foundTick : (s.foundTick c).LastToRest c ↔ s.LastToRest c := lastToRest_withChan _

theorem foundEnd_moves (hp : (s.chan c).slot = some p) (hg : s.gated c = false)
    (hc : s.guardsClosed (s.chan c).guardMap = true) : MovedThen s (s.foundEnd c) ∧
    ∀ d, (s.foundEnd c).chan d = if d = c then ({ (s.chan c).found with slot := none } : Channel).begin p else s.chan d := by
  have begins := comeToRest_begins (s := s.foundTick c) (ch := (s.chan c).found) hp (gated_foundTick.trans hg) hc none
  have moved : Moved s ((((s.foundTick c).cancelOwed c).withChan c { (s.chan c).found with slot := none }).begun c p) :=
    (moved_withChan s c _).trans ((moved_cancelOwed _ c).trans ((moved_withChan _ c _).trans (moved_begun _ c p)))
  rw [beginProfile_eq] at begins
  unfold State.foundEnd
  rw [begins]
  refine ⟨moved.memory.arbitrate.arbitrate, fun d => ?_⟩
  rw [arbitrate_chan, arbitrate_chan, begun_chan]
  by_cases hd : d = c
  · rw [if_pos hd, if_pos hd]
    exact congrArg (Channel.begin · p) ((chan_withChan ..).trans (if_pos rfl))
  · rw [if_neg hd, if_neg hd]
    exact ((chan_withChan ..).trans (if_neg hd)).trans ((chan_withChan ..).trans (if_neg hd))

theorem foundEnd_idles {blocked : Bool} (h : (s.foundTick c).Blocked c (s.chan c).found blocked)
    (ha : (s.chan c).aside = none) :
    (s.LastToRest c → (s.foundEnd c).mode.node = .dormant ∧ (s.foundEnd c).chan c =
      { (s.chan c).found.idled blocked with restState := some .idle, state := .resting }) ∧
    (¬ s.LastToRest c → MovedThen s (s.foundEnd c) ∧ (s.foundEnd c).chan c = (s.chan c).found.idled blocked ∧
      ∀ d, d ≠ c → (s.foundEnd c).chan d = s.chan d) := by
  have idles : s.foundEnd c = ((s.foundTick c).idle c (s.chan c).found blocked).arbitrate :=
    congrArg State.arbitrate (comeToRest_idles h none)
  rw [idles, arbitrate_chan]
  refine ⟨fun last => ?_, fun no => ?_⟩
  · obtain ⟨mode, chan⟩ := idle_last (s := s.foundTick c) (ch := (s.chan c).found) (blocked := blocked)
      (lastToRest_foundTick.mpr last)
    rw [(arbitrate_parts _).2.2.2]
    exact ⟨congrArg ModeUnit.node mode, chan ha⟩
  · obtain ⟨moved, others, chan⟩ := idle_notLast (s := s.foundTick c) (ch := (s.chan c).found) (blocked := blocked)
      (mt lastToRest_foundTick.mp no)
    refine ⟨((moved_withChan s c _).trans moved).memory.arbitrate, chan ha, fun d hd => ?_⟩
    rw [arbitrate_chan, others d hd]
    exact (chan_withChan ..).trans (if_neg hd)

/-- Nothing is reported where home is found. -/
theorem foundEnd_kept : (s.foundEnd c).mem.words = s.mem.words ∧ (s.foundEnd c).mgmt = s.mgmt ∧
    (s.foundEnd c).cue = s.cue ∧ (s.foundEnd c).ring = s.ring ∧ (s.foundEnd c).alert = s.alert := by
  have shifted : ∀ u : State, Shifted s u → u.arbitrate.mem.words = s.mem.words ∧ u.arbitrate.mgmt = s.mgmt ∧
      u.arbitrate.cue = s.cue ∧ u.arbitrate.ring = s.ring ∧ u.arbitrate.alert = s.alert := fun u shift => by
    unfold Shifted at shift
    rw [(arbitrate_parts u).2.2.1, (arbitrate_parts u).2.2.2, shift]
    exact ⟨rfl, rfl, rfl, rfl, rfl⟩
  have tick : Shifted s (s.foundTick c) := (moved_withChan s c _).shifted
  by_cases begins : ∃ p, (s.chan c).slot = some p ∧ s.gated c = false ∧ s.guardsClosed (s.chan c).guardMap = true
  · obtain ⟨p, hp, hg, hc⟩ := begins
    obtain ⟨kept, -⟩ := foundEnd_moves hp hg hc
    obtain ⟨e, words⟩ := kept
    refine ⟨words, ?_⟩
    rw [e]
    exact ⟨rfl, rfl, rfl, rfl⟩
  · have blocked : ∃ blocked, (s.foundTick c).Blocked c (s.chan c).found blocked := by
      cases hp : (s.chan c).slot with
      | none => exact ⟨false, .inl ⟨rfl, hp⟩⟩
      | some p =>
        refine ⟨true, .inr ⟨rfl, Option.isSome_iff_exists.mpr ⟨p, hp⟩, ?_⟩⟩
        rw [gated_foundTick]
        by_contra no
        simp only [not_or, Bool.not_eq_true, Bool.not_eq_false] at no
        exact begins ⟨p, hp, no.1, no.2⟩
    obtain ⟨blocked, hb⟩ := blocked
    have idles : s.foundEnd c = ((s.foundTick c).idle c (s.chan c).found blocked).arbitrate :=
      congrArg State.arbitrate (comeToRest_idles hb none)
    rw [idles]
    exact shifted _ (tick.trans (idle_shifted _ _))

/-- The record of a channel whose search is exhausted. -/
def Channel.lost (x : Channel) : Channel :=
  { ({ x with homePin := false } : Channel).halt with state := .unhomed, slot := none, stepPulses := 0 }

/-- The state in which the search is given up, before HOME-FAILED is raised. -/
def State.searchEnd (s : State) (c : Fin 4) : State :=
  (s.withChan c { s.chan c with homePin := false }).changeChan c (s.chan c).lost

theorem exec_searchExhausted_done (hs : (s.chan c).state = .homing) (hr : (s.chan c).rem = 0) :
    exec (.searchExhausted c) s = .next ((s.searchEnd c).raiseWith .homeFailed c.val none
      (some ⟨.unhomed, (s.chan c).position, (s.chan c).vh⟩)) := by
  refine congrArg Host.Outcome.next ((if_pos ⟨hs, hr⟩).trans ?_)
  unfold State.searchFailed State.searchEnd Channel.lost
  dsimp only
  rw [chan_withChan, if_pos rfl]

theorem searchEnd_shifted (s : State) (c : Fin 4) : Shifted s (s.searchEnd c) :=
  (moved_withChan s c _).shifted.trans (shifted_changeChan _ c _)

theorem searchEnd_cases (ha : (s.chan c).aside = none) :
    (s.LastToRest c → (s.searchEnd c).mode.node = .dormant ∧ (s.searchEnd c).chan c =
      { (s.chan c).lost with restState := some .unhomed, state := .resting }) ∧
    (¬ s.LastToRest c → Moved s (s.searchEnd c) ∧ (s.searchEnd c).chan c = (s.chan c).lost ∧
      ∀ d, d ≠ c → (s.searchEnd c).chan d = s.chan d) := by
  have rest : (s.chan c).lost.takeAside.state.atRest = true := by
    rw [takeAside_id (s.chan c).lost (.inr ha)]
    rfl
  obtain ⟨settles, stands⟩ := changeChan_settles (s := s.withChan c { s.chan c with homePin := false }) (c := c)
    (y := (s.chan c).lost) (.inl rfl) ha
  refine ⟨fun last => ⟨?_, settles ((lastToRest_withChan _).mpr last)⟩, fun no => ?_⟩
  · exact congrArg ModeUnit.node (changeChan_last rest ((lastToRest_withChan _).mpr last)).1
  · have here := mt (lastToRest_withChan (s := s) (c := c) { s.chan c with homePin := false }).mp no
    obtain ⟨moved, chan⟩ := changeChan_notLast rest here
    exact ⟨(moved_withChan s c _).trans moved, stands here, fun d hd =>
      ((chan d).trans (if_neg hd)).trans ((chan_withChan ..).trans (if_neg hd))⟩

end Search

/-- Settles O38: each ending by what the report sends, and by whether the pending start begins or the channel rests. -/
theorem motionEnds : Obligations.MotionEnds := by
  intro c s rests hr
  rw [← lastToRest_iff] at hr
  have yes : ∀ h : rests = true, s.LastToRest c := hr.mp
  have no : rests = false → ¬ s.LastToRest c := fun h k => by rw [hr.mpr k] at h; cases h
  refine ⟨?_, fun hs => ⟨s.foundEnd c, exec_homeFound_done hs, ?_⟩, fun hs hrem => ?_⟩
  · rintro o hs hv rfl
    obtain ⟨words, mgmt, silent, offers, asideless⟩ := stopEnd_kept hs
    refine ⟨s.stopEnd c, exec_stopComplete_done hs hv, words, mgmt, silent, offers,
      fun p hp hf hg hc => stopEnd_moves hs hp hf hg hc, fun ha => ?_⟩
    obtain ⟨position, slot, sends⟩ := asideless ha
    refine ⟨position, slot, fun k q hh hq hb hi hl => ?_, fun blocked hb => ?_⟩
    · rw [sends k q hh hq hb hi hl]
      unfold Channel.outcome
      by_cases faulted : (s.chan c).ending = some .faulted
      · rw [if_pos faulted]; rfl
      · rw [if_neg faulted]; rfl
    · have block : (s.stoppedTick c).Blocked c (s.chan c).stopped blocked := by
        rcases hb with ⟨rfl, free | faulted⟩ | ⟨rfl, waits, hf, block⟩
        · refine .inl ⟨rfl, ?_⟩
          unfold Channel.stopped
          rw [free]
          exact ite_self _
        · exact .inl ⟨rfl, if_pos faulted⟩
        · refine .inr ⟨rfl, (congrArg Option.isSome (if_neg hf)).trans waits, ?_⟩
          rw [gated_stoppedTick]
          exact block
      obtain ⟨profile, refused, last, stands⟩ := stopEnd_rests block ha
      refine ⟨?_, profile, refused, fun h => (last (yes h)).2, fun h => (stands (no h)).2⟩
      cases rests with
      | true => exact (last (yes rfl)).1
      | false => exact (stands (no rfl)).1
  · obtain ⟨words, mgmt, cue, ring, alert⟩ := foundEnd_kept (s := s) (c := c)
    refine ⟨words, mgmt, cue, ring, alert, fun p hp hg hc => ?_, fun ha blocked hb => ?_⟩
    · obtain ⟨⟨e, -⟩, chan⟩ := foundEnd_moves hp hg hc
      have own := (chan c).trans (if_pos rfl)
      refine ⟨by rw [own]; rfl, by rw [own]; rfl, by rw [own]; rfl, by rw [own]; rfl, by rw [own]; rfl,
        by rw [own]; rfl, fun x hx => (chan x).trans (if_neg hx), e⟩
    · have block : (s.foundTick c).Blocked c (s.chan c).found blocked :=
        hb.imp id fun ⟨h, waits, block⟩ => ⟨h, waits, by rw [gated_foundTick]; exact block⟩
      obtain ⟨last, stands⟩ := foundEnd_idles block ha
      cases rests with
      | true =>
        obtain ⟨node, own⟩ := last (yes rfl)
        rw [own]
        exact ⟨rfl, rfl, rfl, rfl, rfl, rfl, fun _ => ⟨rfl, node⟩, fun h => by cases h⟩
      | false =>
        obtain ⟨⟨e, -⟩, own, others⟩ := stands (no rfl)
        rw [own]
        refine ⟨rfl, rfl, rfl, rfl, rfl, rfl, (fun h => by cases h), fun _ => ⟨others, e⟩⟩
  · have gentle := gentle_raiseWith (s.searchEnd c) .homeFailed c.val none
      (some ⟨.unhomed, (s.chan c).position, (s.chan c).vh⟩)
    obtain ⟨mem, mgmt, cue, -⟩ := (searchEnd_shifted s c).kept
    have stays : (s.searchEnd c).Stays c := changeChan_stays (.inl rfl)
    have same := gentle.stays c stays
    refine ⟨_, s.searchEnd c, exec_searchExhausted_done hs hrem, rfl, raise_findRecord _ _ _ _ _, ?_, ?_, ?_,
      fun ha => ?_⟩
    · rw [gentle.mild.mem]
      exact congrArg (fun m : TableMemory => m.words) mem
    · rw [gentle.mild.mgmt]
      exact mgmt
    · rw [gentle.mild.cue]
      exact cue
    · rw [same, gentle.mild.mode, gentle.mild.effect]
      obtain ⟨last, stands⟩ := searchEnd_cases ha
      cases rests with
      | true =>
        obtain ⟨node, own⟩ := last (yes rfl)
        rw [own]
        exact ⟨rfl, rfl, rfl, rfl, rfl, rfl, rfl, fun _ => ⟨rfl, node⟩, fun h => by cases h⟩
      | false =>
        obtain ⟨moved, own, others⟩ := stands (no rfl)
        rw [own]
        exact ⟨rfl, rfl, rfl, rfl, rfl, rfl, rfl, (fun h => by cases h), fun _ => ⟨others, moved, moved.effect⟩⟩

end Sys2Proof.Machine
end

