-- ==== Sys2Proof/Proofs/Retold.lean ====
section
/-! PROOF. What stands of a channel and of a button through all that is told, in any node (R32, R78, R98, R103, R140):
of a channel all but its copy, its state and what a new copy or a rest writes with them; of a button all but its lamp. -/
namespace Sys2Proof.Machine

/-- `y` is `x` but for the copies, the state, the position, the recorded state and the fault reason. -/
def Channel.Same (x y : Channel) : Prop := y = { x with
  held := y.held, aside := y.aside, state := y.state, position := y.position, restState := y.restState
  faultReason := y.faultReason }

section Same
variable {x y z : Channel}

theorem Channel.Same.refl (x : Channel) : x.Same x := rfl

theorem Channel.Same.trans (h : x.Same y) (k : y.Same z) : x.Same z := by
  unfold Channel.Same at h k
  rw [h] at k
  exact k

theorem same_disableEffect (x : Channel) : x.Same x.disableEffect := by
  unfold Channel.disableEffect; split <;> rfl

theorem same_travelEffect (x : Channel) : x.Same x.travelEffect := by
  unfold Channel.travelEffect; split <;> rfl

theorem same_losePosition (x : Channel) : x.Same x.losePosition := by
  unfold Channel.losePosition
  split
  · rfl
  · split <;> rfl
  · rfl

theorem same_replaceHeld (x : Channel) (h : Held ChannelSettings) : x.Same (x.replaceHeld h) := by
  have effect : ∀ (f : Channel → Channel) (b : Bool) (y : Channel), (∀ z, Channel.Same z (f z)) → x.Same y →
      x.Same (if b then f y else y) := by
    intro f b y hf hy
    cases b
    · exact hy
    · exact hy.trans (hf y)
  have start : x.Same { x with held := h } := rfl
  unfold Channel.replaceHeld
  dsimp only
  split
  · exact effect _ _ _ same_travelEffect (effect _ _ _ same_losePosition (effect _ _ _ same_disableEffect start))
  · exact start.trans (same_disableEffect _)
  · exact start.trans (same_disableEffect _)
  all_goals exact start

theorem same_takeAside (x : Channel) : x.Same x.takeAside := by
  have start : x.Same { x with aside := none } := rfl
  unfold Channel.takeAside
  split
  · split
    · exact start.trans (same_replaceHeld _ _)
    · exact .refl x
  · exact .refl x

theorem same_enterResting (x : Channel) : x.Same x.enterResting :=
  (show x.Same { x with restState := some x.state, state := .resting } from rfl).trans (same_takeAside _)

/-- A RESTING channel's fault reason is not its copy's matter. -/
theorem takeAside_faultReason (x : Channel) : x.takeAside.faultReason = x.faultReason := by
  have disable : ∀ y : Channel, y.disableEffect.faultReason = y.faultReason := fun y => by
    unfold Channel.disableEffect; split <;> rfl
  have travel : ∀ y : Channel, y.travelEffect.faultReason = y.faultReason := fun y => by
    unfold Channel.travelEffect; split <;> rfl
  have lose : ∀ y : Channel, y.losePosition.faultReason = y.faultReason := fun y => by
    unfold Channel.losePosition
    split
    · rfl
    · split <;> rfl
    · rfl
  have effect : ∀ (f : Channel → Channel) (b : Bool) (y : Channel), (∀ z, (f z).faultReason = z.faultReason) →
      (if b then f y else y).faultReason = y.faultReason := fun f b y hf => by
    cases b
    · rfl
    · exact hf y
  unfold Channel.takeAside Channel.replaceHeld
  dsimp only
  split
  · split
    · split
      · exact (effect _ _ _ travel).trans ((effect _ _ _ lose).trans (effect _ _ _ disable))
      · exact disable _
      · exact disable _
      all_goals rfl
    · rfl
  · rfl

end Same

/-- What is told in any node changes of a channel at most its copy, its state and what goes with them, and of a button
at most its lamp; of the node, that a CLOSING one may come to rest. -/
structure Retold (s t : State) : Prop where
  chan : ∀ c, (s.chan c).Same (t.chan c)
  btn  : ∀ b, t.btn b = { s.btn b with lamp := (t.btn b).lamp }
  rest : (t.mode.node = s.mode.node ∧ t.effect = s.effect) ∨ (s.mode.node = .closing ∧ t.mode.node = .dormant)

namespace Retold
variable {s t u : State}

theorem of_eq (hc : t.motion.channels = s.motion.channels) (hb : t.button.buttons = s.button.buttons)
    (hn : t.mode.node = s.mode.node) (he : t.effect = s.effect) : Retold s t := by
  refine ⟨fun c => ?_, fun b => ?_, .inl ⟨hn, he⟩⟩
  · rw [State.chan, State.chan, hc]
    exact .refl _
  · rw [State.btn, State.btn, hb]

theorem refl (s : State) : Retold s s := .of_eq rfl rfl rfl rfl

theorem trans (h : Retold s t) (k : Retold t u) : Retold s u := by
  refine ⟨fun c => (h.chan c).trans (k.chan c), fun b => ?_, ?_⟩
  · have two := k.btn b
    rw [h.btn b] at two
    exact two
  · rcases h.rest with ⟨hn, he⟩ | ⟨closing, dormant⟩
    · rw [← hn, ← he]
      exact k.rest
    · rcases k.rest with ⟨kn, -⟩ | ⟨closing', -⟩
      · exact .inr ⟨closing, kn.trans dormant⟩
      · exact NodeState.noConfusion (dormant.symm.trans closing')

theorem foldl {α : Type} {f : State → α → State} (hf : ∀ a x, Retold a (f a x)) (l : List α) (s : State) :
    Retold s (l.foldl f s) := by
  induction l generalizing s with
  | nil => exact refl s
  | cons x l ih => exact (hf s x).trans (ih (f s x))

end Retold

section Retold
variable (s : State) (c : Fin 4)

theorem allLamps_chan : s.allLamps.chan c = s.chan c := by
  unfold State.allLamps State.chan
  rfl

theorem retold_allLamps : Retold s s.allLamps := by
  refine ⟨fun c => ?_, fun b => ?_, ?_⟩
  · rw [allLamps_chan]
    exact .refl _
  · rw [allLamps_btn]
  · unfold State.allLamps
    exact .inl ⟨rfl, rfl⟩

theorem retold_channelLamps : Retold s (s.channelLamps c) := by
  refine ⟨fun d => ?_, fun b => ?_, ?_⟩
  · rw [channelLamps_chan]
    exact .refl _
  · rw [channelLamps_btn]
    split <;> rfl
  · unfold State.channelLamps
    exact .inl ⟨rfl, rfl⟩

theorem retold_lampUpdate (b : Fin 16) : Retold s (s.lampUpdate b) := by
  have own : ∀ k, (s.lampUpdate b).btn k = if k = b then { s.btn b with lamp := s.lampFor b } else s.btn k :=
    fun k => btn_withBtn ..
  refine ⟨fun _ => .refl _, fun k => ?_, .inl ⟨rfl, rfl⟩⟩
  rw [own]
  split
  · next e => rw [e]
  · rfl

theorem retold_beaconUpdate : Retold s s.beaconUpdate := by
  unfold State.beaconUpdate
  dsimp only
  split
  · exact .refl s
  · exact .of_eq rfl rfl rfl rfl

theorem retold_restTest : Retold s s.restTest := by
  unfold State.restTest
  split
  · next due =>
    refine ⟨fun c => ?_, fun b => ?_, .inr ⟨due.1, rfl⟩⟩
    · rw [enterDormant_chan]
      exact same_enterResting _
    · rw [enterDormant_btn]
  · exact .refl s

theorem retold_changeChan {x : Channel} (hx : (s.chan c).Same x) : Retold s (s.changeChan c x) := by
  have here : Retold s (s.withChan c x.takeAside) := by
    refine ⟨fun d => ?_, fun _ => rfl, .inl ⟨rfl, rfl⟩⟩
    rw [chan_withChan]
    split
    · next e => exact e ▸ hx.trans (same_takeAside x)
    · exact .refl _
  exact here.trans ((retold_restTest _).trans (retold_channelLamps _ c))

theorem retold_releaseTest : Retold s (s.releaseTest c) := by
  unfold State.releaseTest
  dsimp only
  split
  · split
    · exact retold_changeChan s c rfl
    · exact .refl s
  · split
    · exact retold_changeChan s c rfl
    · exact .refl s
  · exact .refl s

theorem retold_tellRecord (k : Cause) (n : Nat) : Retold s (s.tellRecord k n) := by
  have notice : ∀ (a : State) c, Retold a (a.gatingNotice c) := fun a c =>
    (retold_channelLamps a c).trans (retold_releaseTest _ c)
  have told := ((retold_beaconUpdate s).trans (retold_restTest _)).trans
    (Retold.foldl notice (s.beaconUpdate.restTest.concerned k n) _)
  unfold State.tellRecord
  dsimp only
  split
  · exact told.trans (retold_lampUpdate _ _)
  · exact told

theorem retold_withSlot (i : Fin 16) (r : Option Record) : Retold s (s.withSlot i r) := .of_eq rfl rfl rfl rfl

theorem retold_buildCall (i : Fin 16) (r : Record) : Retold s (s.buildCall i r) := by
  have told := (retold_withSlot s i (s.recordAfterCall r)).trans (retold_tellRecord _ r.cause r.subject)
  unfold State.buildCall
  dsimp only
  split
  · exact told
  · exact told
  · exact retold_withSlot s i _
  · exact retold_withSlot s i _

theorem retold_takeOwn : Retold s s.takeOwn := by
  unfold State.takeOwn
  split
  · split
    · split
      · next i _ _ r hr =>
        have sent : Retold s { s with
            ring.sending := some (s.ownFrame 0x13 (callPayload i r)), ring.relayCount := 0 } := .of_eq rfl rfl rfl rfl
        exact sent.trans (retold_buildCall _ i r)
      · exact .refl s
    · exact .refl s
  · split
    · exact .of_eq rfl rfl rfl rfl
    · exact .refl s

theorem retold_pump : Retold s s.pump := by
  unfold State.pump State.choose
  split
  · split
    · split
      · exact .of_eq rfl rfl rfl rfl
      · exact retold_takeOwn s
    · split
      · exact retold_takeOwn s
      · exact .refl s
  · exact .refl s

theorem retold_offerRelay (f : Frame) : Retold s (s.offerRelay f) := by
  unfold State.offerRelay
  split
  · have joined : Retold s { s with ring.relay := s.ring.relay ++ [f] } := .of_eq rfl rfl rfl rfl
    exact joined.trans (retold_pump _)
  · exact .of_eq rfl rfl rfl rfl

theorem retold_conditionEnd (k : Cause) (n : Nat) : Retold s (s.conditionEnd k n) := by
  have told : ∀ i r, Retold s ((s.withSlot i r).tellRecord k n).pump := fun i r =>
    ((retold_withSlot s i r).trans (retold_tellRecord _ k n)).trans (retold_pump _)
  unfold State.conditionEnd
  split
  · exact .refl s
  · split
    · exact .refl s
    · dsimp only
      split
      · exact .refl s
      · exact told _ _
      all_goals
        split
        · exact retold_withSlot s _ _
        · exact told _ _

end Retold

end Sys2Proof.Machine
end

