-- ==== Sys2Proof/Proofs/Faults.lean ====
section
/-! PROOF. The FAULT and FAR inputs (R96 to R98, R100, R138): the channel in FAULT, the record raised, the release of a
channel whose LIMIT-HIT could not be recorded, and the report of the profile that ended. -/
namespace Sys2Proof.Machine

section Release
variable {s : State} {c : Fin 4}

/-- A channel that is not free is not released. -/
theorem releaseTest_stays (h : s.Stays c) : s.releaseTest c = s := by
  unfold State.releaseTest
  dsimp only
  split
  · next e => rw [h.1 e]; exact if_neg Bool.false_ne_true
  · next e => rw [h.2 e]; exact if_neg Bool.false_ne_true
  · rfl

theorem releaseTest_fault (hs : (s.chan c).state = .fault) (h : s.faultReleased c = true) :
    s.releaseTest c = s.changeChan c { s.chan c with state := .unhomed, faultReason := none } := by
  unfold State.releaseTest
  dsimp only
  rw [hs]
  exact if_pos h

theorem releaseTest_overflow : (s.releaseTest c).alert.overflow = s.alert.overflow := (told_releaseTest s c).overflow

/-- A channel in FAULT by its FAULT input stays while that reads asserted. -/
theorem stays_driver (hs : (s.chan c).state = .fault) (hr : (s.chan c).faultReason = some .driver)
    (hp : (s.chan c).faultPin = true) : s.Stays c := by
  refine ⟨fun k => absurd (hs.symm.trans k) (by decide), fun _ => ?_⟩
  unfold State.faultReleased
  rw [hr, hp]
  rfl

/-- A channel in FAULT by its FAR input stays while its LIMIT-HIT waits to be seen. -/
theorem stays_limit (hs : (s.chan c).state = .fault) (hr : (s.chan c).faultReason = some .limit)
    (hu : s.Unseen .limitHit c.val) : s.Stays c := by
  refine ⟨fun k => absurd (hs.symm.trans k) (by decide), fun _ => ?_⟩
  have waits : s.anyRecord (fun r => r.unseen && decide (r.cause = .limitHit) && r.subject == c.val) = true :=
    (anyRecord_unseen_iff (q := fun k n => decide (k = .limitHit) && n == c.val)
      (fun r => by simp [Bool.and_assoc])).mpr ⟨_, _, hu, by simp⟩
  unfold State.faultReleased
  rw [hr, waits]
  rfl

/-- With no LIMIT-HIT record of it, a channel in FAULT by its FAR input is free. -/
theorem faultReleased_limit (hr : (s.chan c).faultReason = some .limit) (hf : s.findRecord .limitHit c.val = none) :
    s.faultReleased c = true := by
  have none : s.anyRecord (fun r => r.unseen && decide (r.cause = .limitHit) && r.subject == c.val) = false := by
    rw [Bool.eq_false_iff]
    intro h
    obtain ⟨k, n, hu, hq⟩ := (anyRecord_unseen_iff (q := fun k n => decide (k = .limitHit) && n == c.val)
      (fun r => by simp [Bool.and_assoc])).mp h
    simp only [Bool.and_eq_true, decide_eq_true_eq, beq_iff_eq] at hq
    have found := findRecord_of_unseen hu
    rw [hq.1, hq.2, hf] at found
    cases found
  unfold State.faultReleased
  rw [hr, none]
  rfl

end Release

section Fault
variable {s t : State} {c : Fin 4} {why : FaultReason}

/-- The record of a channel that enters FAULT. -/
def Channel.faulted (ch : Channel) (why : FaultReason) : Channel :=
  { ch.halt with state := .fault, faultReason := some why, slot := none, stepPulses := 0 }

/-- The cause that a fault raises. -/
def FaultReason.cause : FaultReason → Cause
  | .driver => .driverFault
  | .limit => .limitHit

/-- The channel in FAULT, before the raise. -/
def State.faultStop (s : State) (c : Fin 4) (why : FaultReason) : State :=
  (s.cancelOwed c).changeChan c ((s.chan c).faulted why)

/-- The fault raised. -/
def State.faultRaise (s : State) (c : Fin 4) (why : FaultReason) : State :=
  (s.faultStop c why).raiseWith why.cause c.val none (some ⟨.fault, (s.chan c).position, (s.chan c).v⟩)

theorem faultChannel_eq (s : State) (c : Fin 4) (why : FaultReason) : s.faultChannel c why =
    ((s.faultRaise c why).releaseTest c).report c (s.chan c) .faulted := by
  cases why <;> rfl

theorem faulted_takeAside (ch : Channel) (why : FaultReason) : (ch.faulted why).takeAside = ch.faulted why :=
  takeAside_id _ (.inl rfl)

theorem faultStop_shifted (s : State) (c : Fin 4) (why : FaultReason) : Shifted s (s.faultStop c why) :=
  (moved_cancelOwed s c).shifted.trans (shifted_changeChan _ c _)

theorem faultStop_last (last : s.LastToRest c) :
    (s.faultStop c why).mode = { s.mode with node := .dormant } ∧
      (s.faultStop c why).chan c = ((s.chan c).faulted why).enterResting := by
  obtain ⟨mode, chan⟩ := changeChan_last (s := s.cancelOwed c) (y := (s.chan c).faulted why)
    (by rw [faulted_takeAside]; rfl) last
  rw [faulted_takeAside] at chan
  exact ⟨mode, (chan c).trans (congrArg Channel.enterResting (if_pos rfl))⟩

theorem faultStop_notLast (no : ¬ s.LastToRest c) :
    Moved s (s.faultStop c why) ∧ (s.faultStop c why).chan c = (s.chan c).faulted why := by
  obtain ⟨moved, chan⟩ := changeChan_notLast (s := s.cancelOwed c) (y := (s.chan c).faulted why)
    (by rw [faulted_takeAside]; rfl) no
  rw [faulted_takeAside] at chan
  exact ⟨(moved_cancelOwed s c).trans moved, (chan c).trans (if_pos rfl)⟩

theorem gentle_faultRaise : Gentle (s.faultStop c why) (s.faultRaise c why) := gentle_raiseWith ..

theorem awake_faultRaise : (s.faultRaise c why).Awake := gentle_faultRaise.awake (awake_changeChan _ c _)

theorem faultStop_slotAt (i : Fin 16) : (s.faultStop c why).slotAt i = s.slotAt i := (faultStop_shifted s c why).slotAt i

theorem faultStop_table : (s.faultStop c why).findRecord = s.findRecord ∧ (s.faultStop c why).emptySlot = s.emptySlot := by
  refine ⟨funext fun k => funext fun n => ?_, ?_⟩
  · simp only [State.findRecord, faultStop_slotAt]
  · simp only [State.emptySlot, faultStop_slotAt]

/-- The fault is recorded, or the overflow flag set, before the channel is tested for release. -/
theorem faultRaise_tells : (s.faultRaise c why).Unseen why.cause c.val ∨ (s.faultRaise c why).alert.overflow = true :=
  (raise_recorded _ _ _ _ _).imp (fun ⟨i, r, hr, hk, hn, hu⟩ => ⟨i, r, hr, hu, hk, hn⟩) And.left

/-- The channel rests: it was the last of a CLOSING node. -/
theorem faultRaise_resting (last : s.LastToRest c) : (s.faultRaise c why).Stays c ∧
    (s.faultRaise c why).chan c = ((s.chan c).faulted why).enterResting := by
  have rest := (faultStop_last (why := why) last).2
  have stays : (s.faultStop c why).Stays c := by
    refine stays_of_state ?_ ?_ <;> rw [rest, enterResting_state] <;> decide
  exact ⟨gentle_faultRaise.keeps stays, (gentle_faultRaise.stays c stays).trans rest⟩

/-- The channel stays in FAULT: its FAULT input reads asserted, or its LIMIT-HIT is recorded. -/
theorem faultRaise_stays (no : ¬ s.LastToRest c) (h : (why = .driver ∧ (s.chan c).faultPin = true) ∨
    (why = .limit ∧ (s.emptySlot.isSome = true ∨ (s.findRecord .limitHit c.val).isSome = true))) :
    (s.faultRaise c why).Stays c ∧ (s.faultRaise c why).chan c = (s.chan c).faulted why ∧
      (why = .limit → (s.faultRaise c why).Unseen .limitHit c.val) := by
  have own := (faultStop_notLast (why := why) no).2
  rcases h with ⟨rfl, pin⟩ | ⟨rfl, room⟩
  · have stays : (s.faultStop c .driver).Stays c :=
      stays_driver (by rw [own]; rfl) (by rw [own]; rfl) (by rw [own]; exact pin)
    exact ⟨gentle_faultRaise.keeps stays, (gentle_faultRaise.stays c stays).trans own, fun no => by cases no⟩
  · obtain ⟨u, wait, told⟩ := raiseWith_waiting (s := s.faultStop c .limit) (k := .limitHit) (n := c.val)
      (by rw [faultStop_table.1, faultStop_table.2]; exact room.symm) none
      (some ⟨.fault, (s.chan c).position, (s.chan c).v⟩)
    have here : u.chan c = (s.chan c).faulted .limit := (wait.chan c).trans own
    have stays : u.Stays c := stays_limit (by rw [here]; rfl) (by rw [here]; rfl) wait.unseen
    exact ⟨told.keeps stays, (told.stays c stays).trans here, fun _ => told.unseen _ _ wait.unseen⟩

/-- The channel is released at once: no LIMIT-HIT record of it is in a full table. -/
theorem faultRaise_full (no : ¬ s.LastToRest c) (hf : s.findRecord .limitHit c.val = none) (he : s.emptySlot = none) :
    (s.faultRaise c .limit).alert.overflow = true ∧ (s.faultRaise c .limit).releaseTest c =
      (s.faultRaise c .limit).changeChan c { (s.chan c).faulted .limit with state := .unhomed, faultReason := none } := by
  have own := (faultStop_notLast (why := .limit) no).2
  obtain ⟨-, chan, slots, overflow⟩ := raiseWith_full (s := s.faultStop c .limit) (k := .limitHit) (n := c.val)
    (by rw [faultStop_table.1]; exact hf) (by rw [faultStop_table.2]; exact he) none
    (some ⟨.fault, (s.chan c).position, (s.chan c).v⟩)
  have here : (s.faultRaise c .limit).chan c = (s.chan c).faulted .limit := (chan c).trans own
  have table : (s.faultRaise c .limit).findRecord .limitHit c.val = none := by
    rw [← hf]
    simp only [State.findRecord]
    congr 1
    funext i
    rw [show (s.faultRaise c .limit).slotAt i = s.slotAt i from (slots i).trans (faultStop_slotAt i)]
  refine ⟨overflow, ?_⟩
  rw [releaseTest_fault (by rw [here]; rfl) (faultReleased_limit (by rw [here]; rfl) table), here]

theorem notLast_of_awake (ha : s.Awake) (hr : (s.chan c).state.atRest = true) : ¬ s.LastToRest c := by
  rintro ⟨closing, others, seen⟩
  rcases ha with hn | hp
  · exact hn closing
  · rw [Bool.eq_false_iff, ne_eq, restPasses_eq] at hp
    refine hp ⟨fun d => ?_, seen⟩
    by_cases hd : d = c
    · rw [hd]; exact hr
    · exact others d hd

theorem faultRaise_released (no : ¬ s.LastToRest c) (hf : s.findRecord .limitHit c.val = none)
    (he : s.emptySlot = none) : ((s.faultRaise c .limit).releaseTest c).chan c =
      ({ (s.chan c).faulted .limit with state := .unhomed, faultReason := none } : Channel).takeAside := by
  have own := (faultStop_notLast (why := .limit) no).2
  have here : (s.faultRaise c .limit).chan c = (s.chan c).faulted .limit := by
    obtain ⟨-, chan, -, -⟩ := raiseWith_full (s := s.faultStop c .limit) (k := .limitHit) (n := c.val)
      (by rw [faultStop_table.1]; exact hf) (by rw [faultStop_table.2]; exact he) none
      (some ⟨.fault, (s.chan c).position, (s.chan c).v⟩)
    exact (chan c).trans own
  have rest : ({ (s.chan c).faulted .limit with state := .unhomed, faultReason := none } : Channel).takeAside.state.atRest
      = true := by
    rw [atRest_iff]
    exact (takeAside_settled (.inl rfl)).imp id .inl
  have notLast := notLast_of_awake (c := c) (awake_faultRaise (s := s) (c := c) (why := .limit)) (by rw [here]; rfl)
  rw [(faultRaise_full no hf he).2, (changeChan_notLast rest notLast).2, if_pos rfl]

/-- The fault, tested for release: what becomes of the channel. -/
structure Faulted (s : State) (c : Fin 4) (why : FaultReason) (v : State) : Prop where
  gentle : Gentle (s.faultStop c why) v
  stays  : v.Stays c
  same   : ((s.chan c).faulted why).Same (v.chan c)
  tells  : v.Unseen why.cause c.val ∨ v.alert.overflow = true
  rests  : s.LastToRest c → v = s.faultRaise c why ∧ v.chan c = ((s.chan c).faulted why).enterResting
  kept   : ¬ s.LastToRest c → (why = .driver ∧ (s.chan c).faultPin = true) ∨
    (why = .limit ∧ (s.emptySlot.isSome = true ∨ (s.findRecord .limitHit c.val).isSome = true)) →
    v = s.faultRaise c why ∧ v.chan c = (s.chan c).faulted why ∧ (why = .limit → v.Unseen .limitHit c.val)
  freed  : ¬ s.LastToRest c → why = .limit → s.emptySlot = none → s.findRecord .limitHit c.val = none →
    (∃ h, v.chan c = { (s.chan c).faulted why with
      state := .unhomed, faultReason := none, held := h, aside := none }) ∧ v.alert.overflow = true

theorem faulted_release (h : why = .driver → (s.chan c).faultPin = true) :
    Faulted s c why ((s.faultRaise c why).releaseTest c) := by
  have gentle : Gentle (s.faultStop c why) ((s.faultRaise c why).releaseTest c) :=
    gentle_faultRaise.trans (gentle_releaseTest awake_faultRaise c)
  have tells : ((s.faultRaise c why).releaseTest c).Unseen why.cause c.val ∨
      ((s.faultRaise c why).releaseTest c).alert.overflow = true := by
    rw [releaseTest_overflow]
    exact faultRaise_tells.imp ((gentle_releaseTest awake_faultRaise c).unseen _ _) id
  by_cases last : s.LastToRest c
  · obtain ⟨stays, own⟩ := faultRaise_resting (why := why) last
    rw [releaseTest_stays stays] at gentle tells ⊢
    exact ⟨gentle, stays, own ▸ same_enterResting _, tells, fun _ => ⟨rfl, own⟩, fun no => absurd last no,
      fun no => absurd last no⟩
  · by_cases keeps : (why = .driver ∧ (s.chan c).faultPin = true) ∨
        (why = .limit ∧ (s.emptySlot.isSome = true ∨ (s.findRecord .limitHit c.val).isSome = true))
    · obtain ⟨stays, own, waits⟩ := faultRaise_stays last keeps
      rw [releaseTest_stays stays] at gentle tells ⊢
      refine ⟨gentle, stays, own ▸ .refl _, tells, fun yes => absurd yes last, fun _ _ => ⟨rfl, own, waits⟩,
        fun _ hw he hf => ?_⟩
      rcases keeps with ⟨hd, -⟩ | ⟨-, some | some⟩
      · rw [hw] at hd; cases hd
      · rw [he] at some; cases some
      · rw [hf] at some; cases some
    · cases why with
      | driver => exact absurd (.inl ⟨rfl, h rfl⟩) keeps
      | limit =>
        have full : s.emptySlot = none ∧ s.findRecord .limitHit c.val = none := by
          simp only [reduceCtorEq, false_and, true_and, false_or, not_or, Bool.not_eq_true,
            Option.isSome_eq_false_iff, Option.isNone_iff_eq_none] at keeps
          exact keeps
        have own := faultRaise_released last full.2 full.1
        obtain ⟨held, e⟩ := takeAside_unhomed
          (x := { (s.chan c).faulted .limit with state := .unhomed, faultReason := none }) rfl
        rw [e] at own
        refine ⟨gentle, ?_, ?_, tells, fun yes => absurd yes last, fun _ yes => absurd yes keeps, fun _ _ _ _ =>
          ⟨⟨held, own⟩, releaseTest_overflow.trans (faultRaise_full last full.2 full.1).1⟩⟩
        · refine stays_of_state ?_ ?_ <;> rw [own] <;> exact ChanState.noConfusion
        · rw [own]
          rfl

end Fault

/-! ## The whole fault -/

section Whole
variable {s : State} {c : Fin 4} {why : FaultReason}

theorem faultChannel_reported (h : why = .driver → (s.chan c).faultPin = true) : ∃ v, Faulted s c why v ∧
    Reported v (s.faultChannel c why) c (s.chan c) .faulted := by
  have faulted := faulted_release h
  refine ⟨_, faulted, ?_⟩
  rw [faultChannel_eq]
  exact reported (faulted.gentle.awake (awake_changeChan _ c _)) c _ _

theorem faultChannel_own {v : State} (hv : Faulted s c why v)
    (rep : Reported v (s.faultChannel c why) c (s.chan c) .faulted) : (s.faultChannel c why).chan c =
      { v.chan c with profile := none, clamped := ((s.faultChannel c why).chan c).clamped } := by
  refine rep.own hv.stays ?_
  have same := hv.same
  unfold Channel.Same at same
  rw [same]
  rfl

/-- What a fault does in every node. -/
theorem faultChannel_kept (h : why = .driver → (s.chan c).faultPin = true) :
    ((s.faultChannel c why).chan c).v = 0 ∧ ((s.faultChannel c why).chan c).slot = none ∧
    ((s.faultChannel c why).chan c).profile = none ∧
    (((s.faultChannel c why).findRecord why.cause c.val).isSome = true ∨ (s.faultChannel c why).alert.overflow = true) ∧
    (s.faultChannel c why).mem.words = s.mem.words ∧ (s.faultChannel c why).mgmt = s.mgmt ∧
    ((s.chan c).profile = none → (s.faultChannel c why).cue = s.cue) ∧
    (∀ q, (s.chan c).profile = some q → s.cue.dispatch ≠ .idle → s.cue.queue.length < 16 →
      (s.faultChannel c why).cue.queue = s.cue.queue ++ [.localDone c .faulted q]) ∧
    ((s.faultChannel c why).chan c).faultPin = (s.chan c).faultPin := by
  obtain ⟨v, hv, rep⟩ := faultChannel_reported h
  have own := faultChannel_own hv rep
  have same := hv.same
  unfold Channel.Same at same
  rw [same] at own
  obtain ⟨mem, mgmt, cue, -⟩ := (faultStop_shifted s c why).kept
  refine ⟨by rw [own]; rfl, by rw [own]; rfl, by rw [own], ?_, ?_, ?_, fun silent => ?_, fun q hq hd hl => ?_,
    by rw [own]; rfl⟩
  · exact hv.tells.imp (fun waits => findRecord_of_unseen (rep.unseen _ _ waits)) fun flag => rep.overflow.trans flag
  · rw [rep.words, hv.gentle.mild.mem, mem]
  · rw [rep.mgmt, hv.gentle.mild.mgmt, mgmt]
  · rw [rep.silent silent, hv.gentle.mild.cue, cue]
  · have waits : v.cue = s.cue := hv.gentle.mild.cue.trans cue
    rw [rep.offers q hq (by rw [waits]; exact hd) (by rw [waits]; exact hl), waits]

/-- The channel is the last of a CLOSING node to come to rest. -/
theorem faultChannel_last (h : why = .driver → (s.chan c).faultPin = true) (last : s.LastToRest c) :
    ((s.faultChannel c why).chan c).state = .resting ∧ ((s.faultChannel c why).chan c).faultReason = some why ∧
    (s.faultChannel c why).mode = { s.mode with node := .dormant } ∧ ((s.chan c).aside = none →
      ((s.faultChannel c why).chan c).restState = some .fault ∧
      ((s.faultChannel c why).chan c).position = (s.chan c).position) := by
  obtain ⟨v, hv, rep⟩ := faultChannel_reported h
  have own := faultChannel_own hv rep
  rw [(hv.rests last).2] at own
  refine ⟨?_, ?_, ?_, fun ha => ?_⟩
  · rw [own]
    exact enterResting_state _
  · rw [own]
    exact takeAside_faultReason { (s.chan c).faulted why with restState := some .fault, state := .resting }
  · rw [rep.mode, hv.gentle.mild.mode, (faultStop_last last).1]
  · rw [enterResting_eq (x := (s.chan c).faulted why) ha] at own
    rw [own]
    exact ⟨rfl, rfl⟩

/-- The channel is not the last of a CLOSING node to come to rest. -/
theorem faultChannel_notLast (h : why = .driver → (s.chan c).faultPin = true) (no : ¬ s.LastToRest c) :
    (s.faultChannel c why).effect = s.effect ∧ (s.faultChannel c why).mode = s.mode ∧
    ((s.faultChannel c why).chan c).position = (s.chan c).position ∧
    (why = .driver ∨ (why = .limit ∧ (s.emptySlot.isSome = true ∨ (s.findRecord .limitHit c.val).isSome = true)) →
      ((s.faultChannel c why).chan c).state = .fault ∧ ((s.faultChannel c why).chan c).faultReason = some why ∧
      (why = .limit → ((s.faultChannel c why).findRecord .limitHit c.val).isSome = true)) ∧
    (why = .limit → s.emptySlot = none → s.findRecord .limitHit c.val = none →
      ((s.faultChannel c why).chan c).state = .unhomed ∧ ((s.faultChannel c why).chan c).faultReason = none ∧
      (s.faultChannel c why).alert.overflow = true) := by
  obtain ⟨v, hv, rep⟩ := faultChannel_reported h
  have own := faultChannel_own hv rep
  obtain ⟨moved, -⟩ := faultStop_notLast (why := why) no
  have mode : (s.faultStop c why).mode = s.mode := by
    unfold Moved at moved
    rw [moved]
  refine ⟨by rw [rep.effect, hv.gentle.mild.effect, moved.effect], by rw [rep.mode, hv.gentle.mild.mode, mode], ?_,
    fun keeps => ?_, fun hw he hf => ?_⟩
  · by_cases full : why = .limit ∧ s.emptySlot = none ∧ s.findRecord .limitHit c.val = none
    · obtain ⟨held, freed⟩ := (hv.freed no full.1 full.2.1 full.2.2).1
      rw [own, freed]
      rfl
    · have keeps : (why = .driver ∧ (s.chan c).faultPin = true) ∨
          (why = .limit ∧ (s.emptySlot.isSome = true ∨ (s.findRecord .limitHit c.val).isSome = true)) := by
        cases hw : why with
        | driver => exact .inl ⟨rfl, h hw⟩
        | limit =>
          refine .inr ⟨rfl, ?_⟩
          by_contra none
          simp only [not_or, Bool.not_eq_true, Option.isSome_eq_false_iff, Option.isNone_iff_eq_none] at none
          exact full ⟨hw, none⟩
      rw [own, (hv.kept no keeps).2.1]
      rfl
  · obtain ⟨-, stays, waits⟩ := hv.kept no (keeps.imp (fun hw => ⟨hw, h hw⟩) id)
    rw [own, stays]
    exact ⟨rfl, rfl, fun hw => findRecord_of_unseen (rep.unseen _ _ (waits hw))⟩
  · obtain ⟨⟨held, freed⟩, flag⟩ := hv.freed no hw he hf
    rw [own, freed]
    exact ⟨rfl, rfl, rep.overflow.trans flag⟩

/-- The DONE of a channel that rests, or stays in FAULT. -/
theorem faultChannel_sends (h : why = .driver → (s.chan c).faultPin = true)
    (stays : s.LastToRest c ∨ ((s.faultChannel c why).chan c).state = .fault) (ha : (s.chan c).aside = none)
    {k : ChannelSettings} {q : Fin 32} (hh : (s.chan c).held = .copy k) (hq : (s.chan c).profile = some q)
    (hb : s.ring.bypass = false) (hs : s.ring.sending.isSome = true) (hi : s.ring.insertion.length < 8) :
    (s.faultChannel c why).ring.insertion = s.ring.insertion ++ (if k.reportDone then
      [⟨0x12, 0, s.address, BitVec.ofNat 8 s.ring.hopLimit, [BitVec.ofNat 8 c.val, BitVec.ofNat 8 q.val, 3,
        if (s.chan c).clamped then 1 else 0] ++ bytesBE 3 (s.chan c).position⟩] else []) := by
  obtain ⟨v, hv, rep⟩ := faultChannel_reported h
  have own := faultChannel_own hv rep
  have here : v = s.faultRaise c why ∧ (v.chan c).held = (s.chan c).held := by
    by_cases last : s.LastToRest c
    · obtain ⟨e, rest⟩ := hv.rests last
      rw [enterResting_eq (x := (s.chan c).faulted why) ha] at rest
      rw [rest]
      exact ⟨e, rfl⟩
    · by_cases keeps : (why = .driver ∧ (s.chan c).faultPin = true) ∨
          (why = .limit ∧ (s.emptySlot.isSome = true ∨ (s.findRecord .limitHit c.val).isSome = true))
      · obtain ⟨e, stays, -⟩ := hv.kept last keeps
        rw [stays]
        exact ⟨e, rfl⟩
      · have fault := stays.resolve_left last
        cases hw : why with
        | driver => exact absurd (.inl ⟨hw, h hw⟩) keeps
        | limit =>
          have full : s.emptySlot = none ∧ s.findRecord .limitHit c.val = none := by
            rw [hw] at keeps
            simpa [Option.isSome_eq_false_iff] using keeps
          obtain ⟨held, freed⟩ := (hv.freed last hw full.1 full.2).1
          rw [own, freed] at fault
          exact absurd fault ChanState.noConfusion
  obtain ⟨-, -, -, ring, -, straps⟩ := (faultStop_shifted s c why).kept
  have left : v.ring = s.ring := by
    rw [here.1]
    exact (raiseWith_left (by rw [ring]; exact .inr hs)).trans ring
  have frame : v.doneFrame c q .faulted (s.chan c) = s.doneFrame c q .faulted (s.chan c) := by
    unfold State.doneFrame State.ownFrame State.address
    rw [left, hv.gentle.mild.straps, straps]
  rw [(rep.sends (by rw [left]; exact hb) (by rw [left]; exact hs) (by rw [left]; exact hi)).2, left, hq]
  dsimp only
  unfold State.doneSent
  rw [here.2, hh, frame]
  rfl

end Whole

section Pinned
variable {s t : State} {c : Fin 4} {why : FaultReason} {pin far rests : Bool}

/-- A fault found by a sample of the FAULT or FAR input, by the state before the sample. -/
theorem faultChannel_pinned (hr : rests = true ↔ s.LastToRest c) (hp : why = .driver → pin = true)
    (ht : t = (s.withChan c { s.chan c with faultPin := pin, farPin := far }).faultChannel c why) :
    (t.chan c).v = 0 ∧ (t.chan c).slot = none ∧ (t.chan c).profile = none ∧
    ((t.findRecord why.cause c.val).isSome = true ∨ t.alert.overflow = true) ∧
    t.mem.words = s.mem.words ∧ t.mgmt = s.mgmt ∧
    ((s.chan c).profile = none → t.cue = s.cue) ∧
    (∀ q, (s.chan c).profile = some q → s.cue.dispatch ≠ .idle → s.cue.queue.length < 16 →
      t.cue.queue = s.cue.queue ++ [.localDone c .faulted q]) ∧
    (why = .driver → (t.chan c).faultPin = true ∧ (t.chan c).faultReason = some .driver) ∧
    (rests = true → (t.chan c).state = .resting ∧ (t.chan c).faultReason = some why ∧
      t.mode = { s.mode with node := .dormant } ∧ ((s.chan c).aside = none →
        (t.chan c).restState = some .fault ∧ (t.chan c).position = (s.chan c).position)) ∧
    (rests = false → t.effect = s.effect ∧ t.mode = s.mode ∧ (t.chan c).position = (s.chan c).position ∧
      (why = .driver → (t.chan c).state = .fault) ∧
      (why = .limit →
        (s.emptySlot.isSome = true ∨ (s.findRecord .limitHit c.val).isSome = true →
          (t.chan c).state = .fault ∧ (t.chan c).faultReason = some .limit ∧
          (t.findRecord .limitHit c.val).isSome = true) ∧
        (s.emptySlot = none → s.findRecord .limitHit c.val = none →
          (t.chan c).state = .unhomed ∧ (t.chan c).faultReason = none ∧ t.alert.overflow = true))) ∧
    (rests = true ∨ (t.chan c).state = .fault → (s.chan c).aside = none →
      ∀ k q, (s.chan c).held = .copy k → (s.chan c).profile = some q → s.ring.bypass = false →
        s.ring.sending.isSome = true → s.ring.insertion.length < 8 →
        t.ring.insertion = s.ring.insertion ++ (if k.reportDone then
          [⟨0x12, 0, s.address, BitVec.ofNat 8 s.ring.hopLimit,
            [BitVec.ofNat 8 c.val, BitVec.ofNat 8 q.val, 3,
              if (s.chan c).clamped then 1 else 0] ++ bytesBE 3 (s.chan c).position⟩]
          else [])) := by
  have at' : (s.withChan c { s.chan c with faultPin := pin, farPin := far }).chan c =
      { s.chan c with faultPin := pin, farPin := far } := by rw [chan_withChan, if_pos rfl]
  have sampled : why = .driver →
      ((s.withChan c { s.chan c with faultPin := pin, farPin := far }).chan c).faultPin = true := fun hw => by
    rw [at']
    exact hp hw
  have lasting := lastToRest_withChan (s := s) (c := c) { s.chan c with faultPin := pin, farPin := far }
  have last : rests = true → (s.withChan c { s.chan c with faultPin := pin, farPin := far }).LastToRest c :=
    fun yes => lasting.mpr (hr.mp yes)
  have notLast : rests = false → ¬ (s.withChan c { s.chan c with faultPin := pin, farPin := far }).LastToRest c :=
    fun no yes => by
      rw [hr.mpr (lasting.mp yes)] at no
      cases no
  obtain ⟨v, slot, profile, tells, words, mgmt, silent, offers, pinned⟩ := faultChannel_kept sampled
  have resting := fun yes => faultChannel_last sampled (last yes)
  have standing := fun no => faultChannel_notLast sampled (notLast no)
  have sends := fun stays ha k q => faultChannel_sends sampled stays ha (k := k) (q := q)
  rw [← ht] at v slot profile tells words mgmt silent offers pinned resting standing sends
  rw [at'] at silent offers pinned
  simp only [at'] at resting standing sends
  refine ⟨v, slot, profile, tells, words, mgmt, silent, offers, fun hw => ⟨pinned.trans (hp hw), ?_⟩, fun yes => ?_,
    fun no => ?_, fun stays ha k q => sends (stays.imp last id) ha k q⟩
  · cases hrests : rests with
    | true => exact (resting hrests).2.1.trans (congrArg some hw)
    | false =>
      obtain ⟨-, -, -, stays, -⟩ := standing hrests
      exact (stays (.inl hw)).2.1.trans (congrArg some hw)
  · exact resting yes
  · obtain ⟨effect, mode, position, stays, freed⟩ := standing no
    refine ⟨effect, mode, position, fun hw => (stays (.inl hw)).1, fun hw => ⟨fun room => ?_, freed hw⟩⟩
    obtain ⟨state, reason, found⟩ := stays (.inr ⟨hw, room⟩)
    exact ⟨state, reason.trans (congrArg some hw), found hw⟩

end Pinned

/-- Settles O41: a fault by the record that holds the channel, and a sample of the inputs by the levels it keeps. -/
theorem inputsFaultChannels : Obligations.InputsFaultChannels := by
  intro c s rests sampling hr
  rw [← lastToRest_iff] at hr
  have energised : ∀ x : Channel, x.state = (s.chan c).state → (s.withChan c x).energised c = s.energised c :=
    fun x hx => by
      unfold State.energised
      rw [chan_withChan, if_pos rfl, hx]
      rfl
  have driver : (s.chan c).enabled = true → s.energised c = true → exec (.driverFault c) s =
      .next ((s.withChan c { s.chan c with faultPin := true }).faultChannel c .driver) := fun he hn => by
    refine congrArg Host.Outcome.next ((if_pos sampling).trans (if_pos ⟨?_, ?_⟩))
    · rw [chan_withChan, if_pos rfl]
      exact he
    · rw [energised]
      · exact hn
      · rfl
  have far : (s.chan c).farRead = true → exec (.farLimit c) s =
      .next ((s.withChan c { s.chan c with farPin := true }).faultChannel c .limit) := fun hf => by
    refine congrArg Host.Outcome.next ((if_pos sampling).trans (if_pos ?_))
    rw [chan_withChan, if_pos rfl]
    exact hf
  have pins : ∀ {u t : State} {x : Channel}, u = s.withChan c x → Retold u t →
      (t.chan c).farPin = x.farPin ∧ (t.chan c).faultPin = x.faultPin := fun {u t x} hu told => by
    have same := told.chan c
    unfold Channel.Same at same
    rw [same, hu, chan_withChan, if_pos rfl]
    exact ⟨rfl, rfl⟩
  refine ⟨fun cmd cause hcmd => ?_, fun v => ⟨?_, ?_⟩, fun unread => ?_, fun unread => ?_, ?_, ?_⟩
  · rcases hcmd with ⟨rfl, rfl, he, hn⟩ | ⟨rfl, rfl, hf⟩
    · obtain ⟨v, slot, profile, tells, words, mgmt, silent, offers, pinned, last, stands, sends⟩ := faultChannel_pinned
        (why := .driver) (pin := true) (far := (s.chan c).farPin) hr (fun _ => rfl) rfl
      refine ⟨_, driver he hn, v, slot, profile, tells, words, mgmt, silent, offers, fun _ => pinned rfl, fun yes => ?_,
        fun no => ?_, sends⟩
      · obtain ⟨state, reason, mode, rest⟩ := last yes
        exact ⟨state, reason.trans (if_pos rfl).symm, mode, rest⟩
      obtain ⟨effect, mode, position, fault, -⟩ := stands no
      exact ⟨effect, mode, position, fun _ => fault rfl, fun other => by cases other⟩
    · obtain ⟨v, slot, profile, tells, words, mgmt, silent, offers, -, last, stands, sends⟩ := faultChannel_pinned
        (why := .limit) (pin := (s.chan c).faultPin) (far := true) hr (fun no => by cases no) rfl
      refine ⟨_, far hf, v, slot, profile, tells, words, mgmt, silent, offers, (fun other => by cases other),
        fun yes => ?_, fun no => ?_, sends⟩
      · obtain ⟨state, reason, mode, rest⟩ := last yes
        exact ⟨state, reason.trans (if_neg (by simp)).symm, mode, rest⟩
      obtain ⟨effect, mode, position, -, limit⟩ := stands no
      exact ⟨effect, mode, position, (fun other => by cases other), fun _ => limit rfl⟩
  · cases v with
    | true => exact ⟨_, congrArg Host.Outcome.next (if_pos sampling), by
        show ((s.withChan c { s.chan c with farPin := true }).chan c).farPin = true
        rw [chan_withChan, if_pos rfl]⟩
    | false => exact ⟨_, congrArg Host.Outcome.next (if_pos sampling), (pins rfl (retold_conditionEnd _ _ _)).1⟩
  · cases v with
    | false => exact ⟨_, congrArg Host.Outcome.next (if_pos sampling),
        (pins rfl ((retold_conditionEnd _ _ _).trans (retold_releaseTest _ c))).2⟩
    | true =>
      have written : ((s.withChan c { s.chan c with faultPin := true }).chan c).faultPin = true := by
        rw [chan_withChan, if_pos rfl]
      refine ⟨_, congrArg Host.Outcome.next (if_pos sampling), ?_⟩
      show ((s.sampleFault c true).chan c).faultPin = true
      unfold State.sampleFault State.faultAsserted
      split
      · exact written
      · rw [if_pos rfl]
        dsimp only
        split
        · exact (faultChannel_kept fun _ => written).2.2.2.2.2.2.2.2.trans written
        · exact written
  · refine congrArg Host.Outcome.next ((if_pos sampling).trans (if_neg ?_))
    rw [chan_withChan, if_pos rfl]
    rintro ⟨he, hn⟩
    have on : s.energised c = true := (energised { s.chan c with faultPin := true } rfl).symm.trans hn
    rcases unread with no | no
    · exact absurd (no.symm.trans he) (by decide)
    · exact absurd (no.symm.trans on) (by decide)
  · refine congrArg Host.Outcome.next ((if_pos sampling).trans (if_neg ?_))
    rw [chan_withChan, if_pos rfl]
    exact fun hf => absurd (unread.symm.trans hf) (by decide)
  · exact congrArg Host.Outcome.next (if_pos sampling)
  · exact congrArg Host.Outcome.next (if_pos sampling)

end Sys2Proof.Machine
end

