-- ==== Sys2Proof/Proofs/Guards.lean ====
section
/-! PROOF. A guard that opens (R81 to R83, R100): the channels it halts, one after another, with their reports, and the
rest to which the last of them may bring a CLOSING node (R31). -/
namespace Sys2Proof.Machine

/-- The guard halts the channel: enabled, protected by it, and in motion. -/
def State.hit (s : State) (g c : Fin 4) : Bool :=
  (s.chan c).enabled && (s.chan c).guardMap.getLsbD g.val && (s.chan c).state.inMotion

/-- The record of a channel that a guard halts (R83). -/
def Channel.halted (ch : Channel) : Channel :=
  { ch.halt with
    state := .halted, slot := none, stepPulses := 0
    positionLost := ch.positionLost || decide (ch.vs < ch.v) || decide (ch.state = .homing) }

section Halt
variable {s v : State} {g c d : Fin 4}

theorem hit_inMotion (h : s.hit g c = true) : (s.chan c).state.inMotion = true := by
  simp only [State.hit, Bool.and_eq_true] at h
  exact h.2

theorem hit_protects (h : s.hit g c = true) : (s.chan c).guardMap.getLsbD g.val = true := by
  simp only [State.hit, Bool.and_eq_true] at h
  exact h.1.2

theorem guardHalt_hit (h : s.hit g c = true) : s.guardHalt g c = s.haltChannel c := by
  simp only [State.hit, Bool.and_eq_true] at h
  exact if_pos ⟨h.1.1, h.1.2, h.2⟩

theorem guardHalt_other (h : s.hit g c = false) : s.guardHalt g c = s := by
  refine if_neg fun ⟨he, hm, hs⟩ => ?_
  have : s.hit g c = true := by simp only [State.hit, he, hm, hs, Bool.and_self]
  rw [h] at this
  cases this

theorem halted_takeAside (ch : Channel) : ch.halted.takeAside = ch.halted := takeAside_id _ (.inl rfl)

/-- The channel halted, before its report. -/
def State.haltStop (s : State) (c : Fin 4) : State := (s.cancelOwed c).changeChan c (s.chan c).halted

theorem haltChannel_reported (s : State) (c : Fin 4) :
    Reported (s.haltStop c) (s.haltChannel c) c (s.chan c) .halted := reported (awake_changeChan _ c _) c _ _

theorem haltStop_shifted (s : State) (c : Fin 4) : Shifted s (s.haltStop c) :=
  (moved_cancelOwed s c).shifted.trans (shifted_changeChan _ c _)

theorem haltStop_guards (s : State) (c : Fin 4) : (s.haltStop c).motion.guards = s.motion.guards :=
  changeChan_guards _ c _

theorem haltStop_last (last : s.LastToRest c) : (s.haltStop c).mode = { s.mode with node := .dormant } ∧
    ∀ d, (s.haltStop c).chan d = (if d = c then (s.chan c).halted else s.chan d).enterResting := by
  have rests := changeChan_last (s := s.cancelOwed c) (y := (s.chan c).halted) (by rw [halted_takeAside]; rfl) last
  rw [halted_takeAside] at rests
  exact rests

theorem haltStop_notLast (no : ¬ s.LastToRest c) : Moved s (s.haltStop c) ∧
    ∀ d, (s.haltStop c).chan d = if d = c then (s.chan c).halted else s.chan d := by
  obtain ⟨moved, chan⟩ := changeChan_notLast (s := s.cancelOwed c) (y := (s.chan c).halted)
    (by rw [halted_takeAside]; rfl) no
  rw [halted_takeAside] at chan
  exact ⟨(moved_cancelOwed s c).trans moved, chan⟩

/-- A channel that an open guard protects is not released from HALTED. -/
theorem stays_open (hm : (s.chan c).guardMap.getLsbD g.val = true) (ho : (s.guardIn g).isOpen = true)
    (hs : (s.chan c).state ≠ .fault) : s.Stays c := by
  refine ⟨fun _ => haltReleased_false.mpr (.inl ?_), fun k => absurd k hs⟩
  rw [Bool.eq_false_iff]
  intro closed
  have := (guardsClosed_iff s _).mp closed g hm
  rw [ho] at this
  cases this

end Halt

/-! ## The channels halted one after another -/

/-- The trigger of a channel that the guard halts in a profile. -/
def State.haltTrigger (s : State) (g c : Fin 4) : Option Trigger :=
  if s.hit g c then (s.chan c).profile.map (Trigger.localDone c .halted) else none

/-- The DONE frames of a channel that the guard halts in a profile. -/
def State.haltDone (s : State) (g c : Fin 4) : List Frame :=
  if s.hit g c then
    match (s.chan c).profile with
    | some q => s.doneSent c (s.chan c) q .halted
    | none => []
  else []

/-- The halts of the channels of `l` bring a CLOSING node to rest: one is hit, and every other is at rest. -/
structure RestsBy (g : Fin 4) (l : List (Fin 4)) (s : State) : Prop where
  closing : s.mode.node = .closing
  cause   : ∃ c ∈ l, s.hit g c = true
  all     : ∀ c, (s.chan c).state.atRest = true ∨ (c ∈ l ∧ s.hit g c = true)
  seen    : s.anyRecord Record.unseen = false

/-- The channels of `l` halted where the guard hits them, in a node that stays awake. -/
structure Standing (g : Fin 4) (l : List (Fin 4)) (s a : State) : Prop where
  mode   : a.mode = s.mode
  effect : a.effect = s.effect
  halted : ∀ c ∈ l, s.hit g c = true →
    a.chan c = { (s.chan c).halted with profile := none, clamped := (a.chan c).clamped }
  others : ∀ c, (c ∈ l → s.hit g c = false) → s.Stays c → a.chan c = s.chan c
  atRest : ∀ c, (a.chan c).state.atRest = ((s.chan c).state.atRest || (decide (c ∈ l) && s.hit g c))
  wakes  : ¬ RestsBy g l s

/-- The channels of `l` halted where the guard hits them, the last of them bringing the node to rest. -/
structure Rested (g : Fin 4) (l : List (Fin 4)) (s a : State) : Prop where
  mode    : a.mode = { s.mode with node := .dormant }
  due     : RestsBy g l s
  resting : ∀ c, (a.chan c).state = .resting
  halted  : ∀ c ∈ l, s.hit g c = true → (a.chan c).v = 0 ∧ (a.chan c).slot = none ∧ (a.chan c).profile = none ∧
    ((s.chan c).aside = none → (a.chan c).restState = some .halted ∧ (a.chan c).position = (s.chan c).position)

/-- What the halts of the channels of `l` leave alone, and what they report. -/
structure Halts (g : Fin 4) (l : List (Fin 4)) (s a : State) : Prop where
  guards : a.motion.guards = s.motion.guards
  words  : a.mem.words = s.mem.words
  mgmt   : a.mgmt = s.mgmt
  names  : a.straps = s.straps ∧ a.ring.hopLimit = s.ring.hopLimit ∧ a.ring.bypass = s.ring.bypass
  seen   : ∀ k n, a.Unseen k n ↔ s.Unseen k n
  awake  : (∃ c ∈ l, s.hit g c = true) → a.Awake
  silent : (∀ c ∈ l, s.hit g c = true → (s.chan c).profile = none) → a.cue = s.cue
  offers : s.cue.dispatch ≠ .idle → s.cue.queue.length + l.length ≤ 16 →
    a.cue = { s.cue with queue := s.cue.queue ++ l.filterMap (s.haltTrigger g) }
  sends  : s.ring.bypass = false → s.ring.sending.isSome = true → s.ring.insertion.length + l.length ≤ 8 →
    (∀ c ∈ l, s.hit g c = true → (s.chan c).aside = none) →
    a.ring.sending = s.ring.sending ∧ a.ring.insertion = s.ring.insertion ++ l.flatMap (s.haltDone g)
  done   : Standing g l s a ∨ Rested g l s a

section Step
variable {s a : State} {g c d : Fin 4} {l : List (Fin 4)}

theorem halts_nil (g : Fin 4) (s : State) : Halts g [] s s :=
  ⟨rfl, rfl, rfl, ⟨rfl, rfl, rfl⟩, fun _ _ => Iff.rfl, (fun ⟨_, h, _⟩ => by cases h), fun _ => rfl,
    fun _ _ => by simp, fun _ _ _ _ => ⟨rfl, by simp⟩,
    .inl ⟨rfl, rfl, (fun _ h => by cases h), fun _ _ _ => rfl, fun _ => by simp,
      fun h => by obtain ⟨-, ⟨_, h, -⟩, -, -⟩ := h; cases h⟩⟩

theorem stays_inMotion (h : (s.chan c).state.inMotion = true) : s.Stays c := by
  refine stays_of_state ?_ ?_ <;> intro e <;> rw [e] at h <;> cases h

/-- A channel that is not in motion is in none after the halts of others. -/
theorem Halts.still (h : Halts g l s a) (hs : (s.chan c).state.inMotion = false) : (a.chan c).state.inMotion = false := by
  rcases h.done with stands | rests
  · by_cases rest : (s.chan c).state.atRest = true
    · exact atRest_inMotion ((stands.atRest c).trans (by rw [rest]; rfl))
    · have resting : (s.chan c).state = .resting := by
        cases e : (s.chan c).state <;> simp_all [ChanState.atRest, ChanState.inMotion]
      have stays : s.Stays c := by refine stays_of_state ?_ ?_ <;> rw [resting] <;> decide
      have unhit : s.hit g c = false := by simp [State.hit, hs]
      rw [stands.others c (fun _ => unhit) stays]
      exact hs
  · rw [rests.resting c]
    rfl

/-- A channel that the guard does not hit stands. -/
theorem Halts.unhit (h : Halts g l s a) (hc : c ∉ l) (hs : s.hit g c = false) : a.hit g c = false := by
  by_cases moving : (s.chan c).state.inMotion = true
  · rcases h.done with stands | rests
    · have same := stands.others c (fun hm => absurd hm hc) (stays_inMotion moving)
      unfold State.hit at hs ⊢
      rw [same]
      exact hs
    · unfold State.hit
      rw [rests.resting c]
      simp [ChanState.inMotion]
  · have still := h.still (c := c) (by simpa using moving)
    unfold State.hit
    rw [still, Bool.and_false]

theorem mem_unhit (hs : s.hit g c = false) (hd : d ∈ l ++ [c]) (hh : s.hit g d = true) : d ∈ l := by
  rcases List.mem_append.mp hd with h | h
  · exact h
  · rw [List.mem_singleton.mp h, hs] at hh
    cases hh

theorem RestsBy.of_iff {m : List (Fin 4)} (h : RestsBy g l s) (same : ∀ d, s.hit g d = true → (d ∈ l ↔ d ∈ m)) :
    RestsBy g m s := by
  obtain ⟨closing, ⟨d, hd, hh⟩, all, seen⟩ := h
  exact ⟨closing, ⟨d, (same d hh).mp hd, hh⟩, fun c => (all c).imp id fun ⟨hc, hh⟩ => ⟨(same c hh).mp hc, hh⟩, seen⟩

theorem Halts.snoc_unhit (h : Halts g l s a) (hc : c ∉ l) (hs : s.hit g c = false) :
    Halts g (l ++ [c]) s (a.guardHalt g c) := by
  rw [guardHalt_other (h.unhit hc hs)]
  have widen : ∀ {d}, d ∈ l → d ∈ l ++ [c] := fun hd => List.mem_append_left _ hd
  have mem_iff : ∀ d, s.hit g d = true → (d ∈ l ++ [c] ↔ d ∈ l) := fun d hh => ⟨fun hd => mem_unhit hs hd hh, widen⟩
  have trigger : (l ++ [c]).filterMap (s.haltTrigger g) = l.filterMap (s.haltTrigger g) := by
    simp [List.filterMap_append, State.haltTrigger, hs]
  have frames : (l ++ [c]).flatMap (s.haltDone g) = l.flatMap (s.haltDone g) := by
    simp [List.flatMap_append, State.haltDone, hs]
  have longer : (l ++ [c]).length = l.length + 1 := by simp
  refine ⟨h.guards, h.words, h.mgmt, h.names, h.seen, fun ⟨d, hd, hh⟩ => h.awake ⟨d, mem_unhit hs hd hh, hh⟩,
    fun k => h.silent fun d hd => k d (widen hd), fun hd hq => ?_, fun hb hi hl ha => ?_, ?_⟩
  · rw [trigger]
    exact h.offers hd (by omega)
  · rw [frames]
    exact h.sends hb hi (by omega) fun d hd => ha d (widen hd)
  · refine h.done.imp (fun k => ⟨k.mode, k.effect, fun d hd hh => k.halted d (mem_unhit hs hd hh) hh,
      fun d hd => k.others d fun hm => hd (widen hm), fun d => ?_, fun due => k.wakes (due.of_iff mem_iff)⟩) fun k =>
        ⟨k.mode, k.due.of_iff fun d hh => (mem_iff d hh).symm, k.resting, fun d hd hh => k.halted d (mem_unhit hs hd hh) hh⟩
    · rw [k.atRest]
      congr 1
      cases hh : s.hit g d
      · simp
      · simp only [mem_iff d hh]

/-- A channel that a guard halted, come to rest. -/
theorem halted_enterResting (x : Channel) (p : Option (Fin 32)) (b : Bool) {y : Channel}
    (hy : y = { x.halted with profile := p, clamped := b }) : y.enterResting.state = .resting ∧
      y.enterResting.v = 0 ∧ y.enterResting.slot = none ∧ y.enterResting.profile = p ∧
      (x.aside = none → y.enterResting.restState = some .halted ∧ y.enterResting.position = x.position ∧
        y.enterResting.held = x.held) := by
  have same := same_enterResting y
  unfold Channel.Same at same
  refine ⟨enterResting_state y, ?_, ?_, ?_, fun ha => ?_⟩
  · rw [same, hy]; rfl
  · rw [same, hy]; rfl
  · rw [same, hy]
  · rw [enterResting_eq (by rw [hy]; exact ha), hy]
    exact ⟨rfl, rfl, rfl⟩

end Step

section Hit
variable {s a : State} {g c d : Fin 4} {l : List (Fin 4)}

/-- Before its halt a channel that the guard hits stands as it stood at first, and the node is awake for it. -/
theorem Halts.own (h : Halts g l s a) (hc : c ∉ l) (hs : s.hit g c = true) :
    Standing g l s a ∧ a.chan c = s.chan c := by
  have moving := hit_inMotion hs
  rcases h.done with stands | rests
  · exact ⟨stands, stands.others c (fun hm => absurd hm hc) (stays_inMotion moving)⟩
  · rcases rests.due.all c with rest | ⟨hm, -⟩
    · rw [inMotion_atRest moving] at rest
      cases rest
    · exact absurd hm hc

theorem Halts.open (h : Halts g l s a) (ho : (s.guardIn g).isOpen = true) : (a.guardIn g).isOpen = true := by
  rw [State.guardIn, h.guards]
  exact ho

theorem Halts.unseen (h : Halts g l s a) : a.anyRecord Record.unseen = s.anyRecord Record.unseen := by
  rw [Bool.eq_iff_iff]
  exact ⟨anyRecord_mono (q := fun _ _ => true) (fun r => by simp) fun k n => (h.seen k n).mp,
    anyRecord_mono (q := fun _ _ => true) (fun r => by simp) fun k n => (h.seen k n).mpr⟩

/-- The halt of one more channel, by which the node comes to rest. -/
theorem Standing.rests (stands : Standing g l s a) (own : a.chan c = s.chan c) (hs : s.hit g c = true)
    (seen : s.anyRecord Record.unseen = false) (last : a.LastToRest c) : Rested g (l ++ [c]) s (a.haltChannel c) := by
  have rep := haltChannel_reported a c
  obtain ⟨mode, chan⟩ := haltStop_last last
  rw [own] at chan
  obtain ⟨closing, others, -⟩ := last
  have resting : ∀ d, ((a.haltStop c).chan d).state = .resting := fun d => by rw [chan]; exact enterResting_state _
  have stays : ∀ d, (a.haltStop c).Stays d := fun d => by
    refine stays_of_state ?_ ?_ <;> rw [resting] <;> decide
  have there := (chan c).trans (congrArg Channel.enterResting (if_pos rfl))
  have facts := halted_enterResting (s.chan c) (s.chan c).profile (s.chan c).clamped (y := (s.chan c).halted) rfl
  have now := rep.own (stays c) (by rw [there, own]; exact facts.2.2.2.1)
  rw [there] at now
  refine ⟨?_, ⟨stands.mode ▸ closing, ⟨c, by simp, hs⟩, fun d => ?_, seen⟩, fun d => ?_, fun d hd hh => ?_⟩
  · rw [rep.mode, mode, stands.mode]
  · by_cases hd : d = c
    · exact .inr ⟨by simp [hd], hd ▸ hs⟩
    · have rest := others d hd
      rw [stands.atRest, Bool.or_eq_true, Bool.and_eq_true, decide_eq_true_eq] at rest
      exact rest.imp id fun k => ⟨List.mem_append_left _ k.1, k.2⟩
  · by_cases hd : d = c
    · rw [hd, now]
      exact facts.1
    · rw [rep.others d hd (stays d)]
      exact resting d
  · by_cases hc : d = c
    · subst hc
      rw [now]
      exact ⟨facts.2.1, facts.2.2.1, rfl, fun ha => ⟨(facts.2.2.2.2 ha).1, (facts.2.2.2.2 ha).2.1⟩⟩
    · have before : d ∈ l := (List.mem_append.mp hd).resolve_right fun k => hc (List.mem_singleton.mp k)
      obtain ⟨-, v, slot, profile, rest⟩ := halted_enterResting (s.chan d) _ _ (stands.halted d before hh)
      rw [rep.others d hc (stays d), chan, if_neg hc]
      exact ⟨v, slot, profile, fun ha => ⟨(rest ha).1, (rest ha).2.1⟩⟩

/-- The halt of one more channel, in a node that stays awake. -/
theorem Standing.stands (stands : Standing g l s a) (h : Halts g l s a) (ho : (s.guardIn g).isOpen = true)
    (own : a.chan c = s.chan c) (hs : s.hit g c = true) (no : ¬ a.LastToRest c) :
    Standing g (l ++ [c]) s (a.haltChannel c) := by
  have rep := haltChannel_reported a c
  obtain ⟨moved, chan⟩ := haltStop_notLast no
  rw [own] at chan
  have mode : (a.haltStop c).mode = a.mode := by
    unfold Moved at moved
    rw [moved]
  have opened : ((a.haltStop c).guardIn g).isOpen = true := by
    rw [State.guardIn, haltStop_guards]
    exact h.open ho
  have slots : ∀ i, (a.haltStop c).slotAt i = a.slotAt i := (haltStop_shifted a c).slotAt
  have kept : ∀ d, d ≠ c → (a.haltStop c).chan d = a.chan d := fun d hd => (chan d).trans (if_neg hd)
  have there : (a.haltStop c).chan c = (s.chan c).halted := (chan c).trans (if_pos rfl)
  have bound : ∀ d x, (a.haltStop c).chan d = x → x.held = (s.chan d).held → x.state = .halted → s.hit g d = true →
      (a.haltStop c).Stays d := by
    rintro d x rfl held state hh
    refine stays_open (g := g) ?_ opened (by rw [state]; decide)
    unfold Channel.guardMap
    rw [held]
    exact hit_protects hh
  have now := rep.own (bound c _ there rfl rfl hs) (by rw [there, own]; rfl)
  rw [there] at now
  refine ⟨by rw [rep.mode, mode, stands.mode], by rw [rep.effect, moved.effect, stands.effect], fun d hd hh => ?_,
    fun d hd hst => ?_, fun d => ?_, fun due => no ⟨stands.mode ▸ due.closing, fun d hd => ?_, h.unseen ▸ due.seen⟩⟩
  · by_cases hdc : d = c
    · rw [hdc]
      exact now
    · have before : d ∈ l := (List.mem_append.mp hd).resolve_right fun k => hdc (List.mem_singleton.mp k)
      have was := stands.halted d before hh
      have same : (a.haltChannel c).chan d = a.chan d :=
        (rep.others d hdc (bound d _ (kept d hdc) (by rw [was]; rfl) (by rw [was]; rfl) hh)).trans (kept d hdc)
      rw [same]
      exact was
  · have hdc : d ≠ c := fun e => by
      have := hd (by simp [e])
      rw [e, hs] at this
      cases this
    have was := stands.others d (fun hm => hd (List.mem_append_left _ hm)) hst
    have same := (kept d hdc).trans was
    have guards : (a.haltStop c).motion.guards = s.motion.guards := (haltStop_guards a c).trans h.guards
    have stays := stays_kept same guards (fun k n hu => unseen_of_slots slots k n ((h.seen k n).mpr hu)) hst
    exact (rep.others d hdc stays).trans same
  · rw [rep.atRest]
    by_cases hdc : d = c
    · rw [hdc, there, hs]
      simp [Channel.halted, ChanState.atRest]
    · rw [kept d hdc, stands.atRest]
      simp [hdc]
  · rw [stands.atRest, Bool.or_eq_true, Bool.and_eq_true, decide_eq_true_eq]
    exact (due.all d).imp id fun ⟨hm, hh⟩ => ⟨(List.mem_append.mp hm).resolve_right (by simpa using hd), hh⟩

/-- The channel's copy, through its halt. -/
theorem haltStop_held (ha : (s.chan c).aside = none) : ((s.haltStop c).chan c).held = (s.chan c).held := by
  by_cases last : s.LastToRest c
  · rw [(haltStop_last last).2, if_pos rfl]
    exact ((halted_enterResting (s.chan c) _ _ (y := (s.chan c).halted) rfl).2.2.2.2 ha).2.2
  · rw [(haltStop_notLast last).2, if_pos rfl]
    rfl

/-- What a DONE says of the node. -/
theorem doneSent_congr {t u : State} {x : Channel} {q : Fin 32} {o : EndOutcome} (held : (t.chan c).held = (u.chan c).held)
    (straps : t.straps = u.straps) (hop : t.ring.hopLimit = u.ring.hopLimit) :
    t.doneSent c x q o = u.doneSent c x q o := by
  unfold State.doneSent State.doneFrame State.ownFrame State.address
  rw [held, straps, hop]

theorem haltDone_length (s : State) (g : Fin 4) (l : List (Fin 4)) : (l.flatMap (s.haltDone g)).length ≤ l.length := by
  have one : ∀ c, (s.haltDone g c).length ≤ 1 := fun c => by
    unfold State.haltDone
    split
    · split
      · unfold State.doneSent
        split
        · split <;> simp
        all_goals simp
      · simp
    · simp
  induction l with
  | nil => simp
  | cons c l ih =>
    have := one c
    simp only [List.flatMap_cons, List.length_append, List.length_cons]
    omega

theorem Halts.snoc_hit (h : Halts g l s a) (ho : (s.guardIn g).isOpen = true) (hc : c ∉ l) (hs : s.hit g c = true) :
    Halts g (l ++ [c]) s (a.guardHalt g c) := by
  obtain ⟨stands, own⟩ := h.own hc hs
  have hit : a.hit g c = true := by
    unfold State.hit at hs ⊢
    rw [own]
    exact hs
  rw [guardHalt_hit hit]
  have rep := haltChannel_reported a c
  rw [own] at rep
  obtain ⟨mem, mgmt, cue, ring, -, straps⟩ := (haltStop_shifted a c).kept
  have slots : ∀ i, (a.haltStop c).slotAt i = a.slotAt i := (haltStop_shifted a c).slotAt
  have widen : ∀ {d}, d ∈ l → d ∈ l ++ [c] := fun hd => List.mem_append_left _ hd
  have longer : (l ++ [c]).length = l.length + 1 := by simp
  obtain ⟨repStraps, -, repHop, repBypass⟩ := rep.sampled
  refine ⟨rep.guards.trans ((haltStop_guards a c).trans h.guards), ?_, ?_, ⟨?_, ?_, ?_⟩, fun k n => ?_,
    fun _ => rep.awake, fun k => ?_, fun hd hq => ?_, fun hb hi hl ha => ?_, ?_⟩
  · rw [rep.words, mem, h.words]
  · rw [rep.mgmt, mgmt, h.mgmt]
  · rw [repStraps, straps, h.names.1]
  · rw [repHop, ring, h.names.2.1]
  · rw [repBypass, ring, h.names.2.2]
  · rw [← h.seen]
    exact ⟨fun hu => unseen_of_slots (fun i => (slots i).symm) k n (rep.seen k n hu),
      fun hu => rep.unseen k n (unseen_of_slots slots k n hu)⟩
  · rw [rep.silent (k c (by simp) hs), cue]
    exact h.silent fun d hd => k d (widen hd)
  · have before := h.offers hd (by omega)
    have waits : (a.haltStop c).cue = { s.cue with queue := s.cue.queue ++ l.filterMap (s.haltTrigger g) } :=
      cue.trans before
    have short : (l.filterMap (s.haltTrigger g)).length ≤ l.length := List.length_filterMap_le _ _
    cases hp : (s.chan c).profile with
    | none =>
      rw [rep.silent hp, waits]
      simp [List.filterMap_append, State.haltTrigger, hs, hp]
    | some q =>
      rw [rep.offers q hp (by rw [waits]; exact hd) (by rw [waits, List.length_append]; omega), waits]
      simp [List.filterMap_append, State.haltTrigger, hs, hp]
  · obtain ⟨sending, insertion⟩ := h.sends hb hi (by omega) fun d hd => ha d (widen hd)
    have short := haltDone_length s g l
    have held : ((a.haltStop c).chan c).held = (s.chan c).held := by
      rw [haltStop_held (by rw [own]; exact ha c (by simp) hs), own]
    have same : ∀ q, (a.haltStop c).doneSent c (s.chan c) q .halted = s.doneSent c (s.chan c) q .halted := fun q =>
      doneSent_congr held (by rw [straps, h.names.1]) (by rw [ring, h.names.2.1])
    obtain ⟨sent, queued⟩ := rep.sends (by rw [ring, h.names.2.2]; exact hb) (by rw [ring, sending]; exact hi)
      (by rw [ring, insertion, List.length_append]; omega)
    refine ⟨by rw [sent, ring, sending], ?_⟩
    rw [queued, ring, insertion, List.flatMap_append, List.append_assoc]
    congr 2
    rw [List.flatMap_singleton, State.haltDone, if_pos hs]
    cases (s.chan c).profile with
    | none => rfl
    | some q => exact same q
  · by_cases last : a.LastToRest c
    · exact .inr (stands.rests own hs (h.unseen ▸ last.2.2) last)
    · exact .inl (stands.stands h ho own hs last)

theorem halts_foldl (ho : (s.guardIn g).isOpen = true) (hl : l.Nodup) :
    Halts g l s (l.foldl (fun a c => a.guardHalt g c) s) := by
  induction l using List.reverseRecOn with
  | nil => exact halts_nil g s
  | append_singleton l c ih =>
    obtain ⟨before, -, apart⟩ := List.nodup_append.mp hl
    have fresh : c ∉ l := fun hc => apart c hc c (by simp) rfl
    rw [List.foldl_append]
    cases hs : s.hit g c
    · exact (ih before).snoc_unhit fresh hs
    · exact (ih before).snoc_hit ho fresh hs

end Hit

/-! ## The guard that opens -/

section Opens
variable {s : State} {g c : Fin 4}

/-- The guard OPEN, before the halts. -/
def State.guardOpen (s : State) (g : Fin 4) : State := s.withGuard g { isOpen := true, count := 0, pin := true }

/-- The channels halted, before the raise. -/
@[irreducible] def State.guardHalted (s : State) (g : Fin 4) : State :=
  four.foldl (fun a c => a.guardHalt g c) (s.guardOpen g)

/-- The guard opened: the halts, then the raise. -/
@[irreducible] def State.guardRaised (s : State) (g : Fin 4) : State :=
  (s.guardHalted g).raiseWith .guardOpen g.val none none

theorem guardOpened_eq (s : State) (g : Fin 4) : s.guardOpened g = s.guardRaised g := by
  unfold State.guardRaised State.guardHalted
  rfl

theorem guardOpen_isOpen (s : State) (g : Fin 4) : ((s.guardOpen g).guardIn g).isOpen = true := by
  unfold State.guardOpen
  rw [guardIn_withGuard, if_pos rfl]

theorem guardHalted_halts (s : State) (g : Fin 4) : Halts g four (s.guardOpen g) (s.guardHalted g) := by
  unfold State.guardHalted
  exact halts_foldl (guardOpen_isOpen s g) (by decide)

theorem gentle_guardRaise (s : State) (g : Fin 4) : Gentle (s.guardHalted g) (s.guardRaised g) := by
  unfold State.guardRaised
  exact gentle_raiseWith ..

theorem hit_iff (s : State) (g c : Fin 4) : s.hit g c = true ↔ (s.chan c).enabled = true ∧
    (s.chan c).guardMap.getLsbD g.val = true ∧
    ((s.chan c).state = .homing ∨ (s.chan c).state = .moving ∨ (s.chan c).state = .stopping) := by
  unfold State.hit
  cases (s.chan c).state <;> simp [ChanState.inMotion]

/-- The rest to which the halts bring a CLOSING node. -/
theorem restsBy_iff (s : State) (g : Fin 4) : RestsBy g four s ↔ s.mode.node = .closing ∧ (∃ c, s.hit g c = true) ∧
    (∀ c, s.hit g c = true ∨ (s.chan c).state = .unhomed ∨ (s.chan c).state = .idle ∨
      (s.chan c).state = .halted ∨ (s.chan c).state = .fault) ∧
    ∀ i r, s.slotAt i = some r → r.state = .acknowledged ∨ r.state = .clearing := by
  simp only [← anyRecord_unseen_false, ← atRest_iff]
  constructor
  · rintro ⟨closing, ⟨c, -, hh⟩, all, seen⟩
    exact ⟨closing, ⟨c, hh⟩, fun d => (all d).symm.imp And.right id, seen⟩
  · rintro ⟨closing, ⟨c, hh⟩, all, seen⟩
    have every : ∀ d : Fin 4, d ∈ four := by decide
    exact ⟨closing, ⟨c, every c, hh⟩, fun d => (all d).symm.imp id fun k => ⟨every d, k⟩, seen⟩

theorem guardRaised_guards (s : State) (g : Fin 4) : (s.guardRaised g).motion.guards = (s.guardOpen g).motion.guards :=
  (gentle_guardRaise s g).mild.guards.trans (guardHalted_halts s g).guards

theorem guardRaised_mode (s : State) (g : Fin 4) : (s.guardRaised g).mode = (s.guardHalted g).mode :=
  (gentle_guardRaise s g).mild.mode

theorem guardRaised_cue (s : State) (g : Fin 4) : (s.guardRaised g).cue = (s.guardHalted g).cue :=
  (gentle_guardRaise s g).mild.cue

/-- In a node that stays awake: the halted channels, and those that no test could release. -/
theorem guardRaised_stands (h : Standing g four (s.guardOpen g) (s.guardHalted g)) :
    (s.guardRaised g).mode = s.mode ∧ (s.guardRaised g).effect = s.effect ∧
    (s.hit g c = true → (s.guardRaised g).chan c =
      { (s.chan c).halted with profile := none, clamped := ((s.guardRaised g).chan c).clamped }) ∧
    (s.hit g c = false → (s.chan c).state ≠ .halted → (s.chan c).state ≠ .fault →
      (s.guardRaised g).chan c = s.chan c) := by
  have raised := gentle_guardRaise s g
  have opened : ((s.guardHalted g).guardIn g).isOpen = true :=
    (guardHalted_halts s g).open (guardOpen_isOpen s g)
  refine ⟨raised.mild.mode.trans h.mode, raised.mild.effect.trans h.effect, fun hh => ?_, fun hh h1 h2 => ?_⟩
  · have was := h.halted c (by fin_cases c <;> decide) hh
    have bound : (s.guardHalted g).Stays c := by
      refine stays_open (g := g) ?_ opened (by rw [was]; simp [Channel.halted])
      rw [was]
      exact hit_protects hh
    rw [raised.stays c bound]
    exact was
  · have was := h.others c (fun _ => hh) (stays_of_state h1 h2)
    rw [raised.stays c (stays_of_state (was ▸ h1) (was ▸ h2))]
    exact was

/-- In a node that the halts bring to rest. -/
theorem guardRaised_rests (h : Rested g four (s.guardOpen g) (s.guardHalted g)) :
    (s.guardRaised g).mode = { s.mode with node := .dormant } ∧ (s.hit g c = true →
      ((s.guardRaised g).chan c).state = .resting ∧ ((s.guardRaised g).chan c).v = 0 ∧
      ((s.guardRaised g).chan c).slot = none ∧ ((s.guardRaised g).chan c).profile = none ∧
      ((s.chan c).aside = none → ((s.guardRaised g).chan c).restState = some .halted ∧
        ((s.guardRaised g).chan c).position = (s.chan c).position)) := by
  have raised := gentle_guardRaise s g
  refine ⟨raised.mild.mode.trans h.mode, fun hh => ?_⟩
  rw [raised.stays c (by refine stays_of_state ?_ ?_ <;> rw [h.resting] <;> decide)]
  exact ⟨h.resting c, h.halted c (by fin_cases c <;> decide) hh⟩

theorem guardRaised_node (s : State) (g : Fin 4) :
    (s.guardRaised g).mode.node ≠ s.mode.node ↔ RestsBy g four (s.guardOpen g) := by
  rw [guardRaised_mode]
  rcases (guardHalted_halts s g).done with h | h
  · rw [h.mode]
    exact ⟨fun k => absurd rfl k, fun due => absurd due h.wakes⟩
  · rw [h.mode]
    refine ⟨fun _ => h.due, fun due e => ?_⟩
    have closing : s.mode.node = .closing := due.closing
    exact NodeState.noConfusion (e.trans closing)

theorem guardRaised_record (s : State) (g : Fin 4) :
    ((s.guardRaised g).findRecord .guardOpen g.val).isSome = true ∨ (s.guardRaised g).alert.overflow = true := by
  unfold State.guardRaised
  exact raise_findRecord ..

theorem guardRaised_sends (hb : s.ring.bypass = false) (hi : s.ring.sending.isSome = true)
    (hl : s.ring.insertion.length + 4 ≤ 8) (ha : ∀ c, s.hit g c = true → (s.chan c).aside = none) :
    (s.guardRaised g).ring.insertion = s.ring.insertion ++ four.flatMap (s.haltDone g) := by
  obtain ⟨sending, insertion⟩ := (guardHalted_halts s g).sends hb hi hl fun c _ hc => ha c hc
  unfold State.guardRaised
  rw [raiseWith_left (.inr (by rw [sending]; exact hi))]
  exact insertion

/-- The DONE frame of a halt, where the copy asks for it. -/
theorem haltDone_copy {k : ChannelSettings} {q : Fin 32} (hk : (s.chan c).held = .copy k)
    (hp : (s.chan c).profile = some q) : s.haltDone g c = if s.hit g c = true ∧ k.reportDone = true then
      [s.doneFrame c q .halted (s.chan c)] else [] := by
  unfold State.haltDone State.doneSent
  rw [hp, hk]
  cases s.hit g c <;> simp

theorem haltDone_silent (h : (s.chan c).profile = none ∨ (s.chan c).held = .absent ∨ (s.chan c).held = .damaged) :
    s.haltDone g c = [] := by
  unfold State.haltDone State.doneSent
  rcases h with h | h | h <;> rw [h] <;> cases s.hit g c <;> cases (s.chan c).profile <;> rfl

end Opens

/-- Settles O39: the channels that the guard halts one after another (`halts_foldl`), each with its report, and the raise
after them. -/
theorem guardOpeningHalts : Obligations.GuardOpeningHalts := by
  intro g s hit frame sampling closed hitIff frames
  have same : ∀ c, hit c = s.hit g c := fun c => Bool.eq_iff_iff.mpr ((hitIff c).trans (hit_iff s g c).symm)
  obtain rfl : hit = s.hit g := funext same
  have halts := guardHalted_halts s g
  have raised := gentle_guardRaise s g
  have guards := guardRaised_guards s g
  have guardIn : ∀ h, (s.guardRaised g).guardIn h = (s.guardOpen g).guardIn h := fun h => by
    rw [State.guardIn, guards]
    rfl
  have stands : (s.guardRaised g).mode.node = s.mode.node → Standing g four (s.guardOpen g) (s.guardHalted g) := fun e =>
    halts.done.resolve_right fun rests => (guardRaised_node s g).mpr rests.due e
  have rests : (s.guardRaised g).mode.node ≠ s.mode.node → Rested g four (s.guardOpen g) (s.guardHalted g) := fun e =>
    halts.done.resolve_left fun stands => stands.wakes ((guardRaised_node s g).mp e)
  refine ⟨s.guardRaised g, (congrArg Host.Outcome.next (if_pos ⟨sampling, closed⟩)).trans (by rw [guardOpened_eq]),
    ?_, fun h hh => ?_, guardRaised_record s g, ?_, ?_,
    (guardRaised_node s g).trans (restsBy_iff _ g), fun e => ?_, fun e => ?_, fun silent => ?_, fun hd hq => ?_,
    fun hb hi hl ha => ?_⟩
  · rw [guardIn]
    exact guardOpen_isOpen s g
  · rw [guardIn, State.guardOpen, guardIn_withGuard, if_neg hh]
  · exact raised.mild.mgmt.trans halts.mgmt
  · exact (congrArg (·.words) raised.mild.mem).trans halts.words
  · have facts := fun c => guardRaised_stands (c := c) (stands e)
    refine ⟨(facts 0).2.1, (facts 0).1, fun c => ⟨fun hh => ?_, (facts c).2.2.2⟩⟩
    rw [(facts c).2.2.1 hh]
    exact ⟨rfl, rfl, rfl, rfl, rfl, rfl⟩
  · have facts := fun c => guardRaised_rests (c := c) (rests e)
    exact ⟨(facts 0).1, fun c => (facts c).2⟩
  · exact (guardRaised_cue s g).trans (halts.silent fun c _ => silent c)
  · exact congrArg (·.queue) ((guardRaised_cue s g).trans (halts.offers hd hq))
  · rw [guardRaised_sends hb hi hl ha, List.filterMap_eq_flatMap_toList]
    congr 2
    funext c
    cases hk : (s.chan c).held with
    | absent => exact haltDone_silent (.inr (.inl hk))
    | damaged => exact haltDone_silent (.inr (.inr hk))
    | copy k =>
      cases hp : (s.chan c).profile with
      | none => exact haltDone_silent (.inl hp)
      | some q =>
        rw [haltDone_copy hk hp]
        dsimp only
        rw [frames]
        split <;> rfl

end Sys2Proof.Machine
end

