-- ==== Sys2Proof/Proofs/Lamps.lean ====
section
/-! PROOF. Lamps that are what the rules call for (R71 to R75), and what keeps them so: every change of a channel, a
record or the node tells the lamps that it concerns. -/
namespace Sys2Proof.Machine

/-- The lamps of all buttons but those named are what the rules call for. -/
def State.FreshBut (s : State) (p : Fin 16 → Prop) : Prop := ∀ b, ¬ p b → (s.btn b).lamp = s.lampFor b

/-- Every lamp is what the rules call for. -/
def State.Fresh (s : State) : Prop := ∀ b, (s.btn b).lamp = s.lampFor b

section Congruence
variable {s t : State} {b : Fin 16} {c : Fin 4} {p : Fin 16 → Prop}

theorem State.Fresh.but (h : s.Fresh) : s.FreshBut p := fun b _ => h b

theorem State.FreshBut.all (h : s.FreshBut p) (hp : ∀ b, ¬ p b) : s.Fresh := fun b => h b (hp b)

/-- What a lamp rests on, part by part. -/
theorem lampFor_parts {x : Lamp} (hb : t.btn b = { s.btn b with lamp := x }) (hp : ∀ h, t.pressAnswer h = s.pressAnswer h)
    (hc : ∀ k, (s.btn b).held = .copy k → t.lampChannelReady k = s.lampChannelReady k)
    (hr : t.helpRecord b = s.helpRecord b) : t.lampFor b = s.lampFor b := by
  have ready : t.dispatchReady b = s.dispatchReady b := by
    unfold State.dispatchReady
    simp only [hb, hp]
    rfl
  have held : (t.btn b).held = (s.btn b).held := by rw [hb]
  have lock : (t.btn b).lock = (s.btn b).lock := by rw [hb]
  unfold State.lampFor
  rw [held]
  cases hk : (s.btn b).held with
  | absent => rfl
  | damaged => rfl
  | copy k => simp only [hp, lock, ready, hc k hk, hr]

theorem pressAnswer_congr (hm : t.mode.mode = s.mode.mode) (hl : t.mode.lineLost = s.mode.lineLost)
    (hp : t.mode.localPlay = s.mode.localPlay) (h : Bool) : t.pressAnswer h = s.pressAnswer h := by
  unfold State.pressAnswer State.lossRestricts State.localPlayOn
  rw [hm, hl, hp]

theorem helpRecord_congr (h : ∀ i, t.slotAt i = s.slotAt i) : t.helpRecord b = s.helpRecord b := by
  simp only [State.helpRecord, State.findRecord, h]

theorem gated_mono (hc : (t.chan c).held = (s.chan c).held) (hu : ∀ k n, s.Unseen k n → t.Unseen k n)
    (h : s.gated c = true) : t.gated c = true := by
  obtain ⟨k, i, r, hk, attend, hr, waits, concerns⟩ := (gated_iff s c).mp h
  obtain ⟨j, x, hj, seen, cause, subject⟩ := hu _ _ ⟨i, r, hr, (unseen_eq_true r).mpr waits, rfl, rfl⟩
  exact (gated_iff t c).mpr ⟨k, j, x, hc.trans hk, attend, hj, (unseen_eq_true x).mp seen, by rwa [cause, subject]⟩

/-- Gating rests on the copy and on the records that wait to be seen. -/
theorem gated_congr (hc : (t.chan c).held = (s.chan c).held) (hu : ∀ k n, t.Unseen k n ↔ s.Unseen k n) :
    t.gated c = s.gated c :=
  Bool.eq_iff_iff.mpr ⟨gated_mono hc.symm fun k n => (hu k n).mp, gated_mono hc fun k n => (hu k n).mpr⟩

theorem lampChannelReady_congr {k : ButtonSettings} (h : ∀ d, k.lampChannel = some d →
    (t.chan d).state = (s.chan d).state ∧ t.gated d = s.gated d) : t.lampChannelReady k = s.lampChannelReady k := by
  unfold State.lampChannelReady
  cases hk : k.lampChannel with
  | none => rfl
  | some d =>
    obtain ⟨state, gated⟩ := h d hk
    simp only [state, gated]

/-- A state with the same mode, channels and records calls for the same lamps. -/
theorem lampFor_same {x : Lamp} (hb : t.btn b = { s.btn b with lamp := x }) (hm : t.mode.mode = s.mode.mode)
    (hl : t.mode.lineLost = s.mode.lineLost) (hp : t.mode.localPlay = s.mode.localPlay)
    (hc : ∀ c, t.chan c = s.chan c) (hs : ∀ i, t.slotAt i = s.slotAt i) : t.lampFor b = s.lampFor b := by
  refine lampFor_parts hb (pressAnswer_congr hm hl hp) (fun k _ => lampChannelReady_congr fun d _ => ⟨?_, ?_⟩)
    (helpRecord_congr hs)
  · rw [hc]
  · exact gated_congr (by rw [hc]) fun k n => ⟨unseen_of_slots (fun i => (hs i).symm) k n, unseen_of_slots hs k n⟩

theorem FreshBut.congr (h : s.FreshBut p) (hb : ∀ b, t.btn b = s.btn b) (hm : t.mode = s.mode)
    (hc : ∀ c, t.chan c = s.chan c) (hs : ∀ i, t.slotAt i = s.slotAt i) : t.FreshBut p := fun b no => by
  rw [hb, h b no]
  exact (lampFor_same (x := (s.btn b).lamp) (hb b) (by rw [hm]) (by rw [hm]) (by rw [hm]) hc hs).symm

end Congruence

/-! ## Lamps told -/

section Told
variable {s t : State} {b : Fin 16} {c : Fin 4} {p : Fin 16 → Prop}

theorem fresh_allLamps (s : State) : s.allLamps.Fresh := fun b => by
  rw [allLamps_btn, allLamps_lampFor]

theorem channelLamps_lampFor (s : State) (c : Fin 4) (b : Fin 16) : (s.channelLamps c).lampFor b = s.lampFor b := by
  have btn : (s.channelLamps c).btn b = { s.btn b with lamp := ((s.channelLamps c).btn b).lamp } :=
    (retold_channelLamps s c).btn b
  exact lampFor_same btn rfl rfl rfl (channelLamps_chan s c) (channelLamps_slotAt s c)

/-- The lamps that name a channel are computed anew. -/
theorem fresh_channelLamps (h : s.FreshBut fun b => (s.btn b).namesChannel c = true) : (s.channelLamps c).Fresh := by
  intro b
  rw [channelLamps_btn, channelLamps_lampFor]
  split
  · rfl
  · next no => exact h b no

theorem fresh_enterDormant (s : State) : s.enterDormant.Fresh := fun b => by
  rw [enterDormant_btn]

theorem freshBut_restTest (h : s.FreshBut p) : s.restTest.FreshBut p := by
  unfold State.restTest
  split
  · exact (fresh_enterDormant s).but
  · exact h

theorem freshBut_beaconUpdate (h : s.FreshBut p) : s.beaconUpdate.FreshBut p := by
  unfold State.beaconUpdate
  dsimp only
  split
  · exact h
  · exact FreshBut.congr h (fun _ => rfl) rfl (fun _ => rfl) fun _ => rfl

/-- A change of one channel touches the lamps that name it. -/
theorem freshBut_withChan (h : s.Fresh) (x : Channel) :
    (s.withChan c x).FreshBut fun b => (s.btn b).namesChannel c = true := by
  intro b no
  have others : ∀ k, (s.btn b).held = .copy k → ∀ d, k.lampChannel = some d →
      ((s.withChan c x).chan d).state = (s.chan d).state ∧ (s.withChan c x).gated d = s.gated d := fun k hk d hd => by
    have other : d ≠ c := fun e => no ((namesChannel_iff _ c).mpr ⟨k, hk, e ▸ hd⟩)
    have same : (s.withChan c x).chan d = s.chan d := by rw [chan_withChan, if_neg other]
    rw [same]
    exact ⟨rfl, gated_congr (by rw [same]) fun _ _ => Iff.rfl⟩
  have same : (s.withChan c x).lampFor b = s.lampFor b :=
    lampFor_parts (x := (s.btn b).lamp) rfl (fun _ => rfl) (fun k hk => lampChannelReady_congr (others k hk)) rfl
  exact (h b).trans same.symm

theorem fresh_withChan_lamps (h : s.Fresh) (x : Channel) : ((s.withChan c x).channelLamps c).Fresh :=
  fresh_channelLamps (freshBut_withChan h x)

theorem fresh_changeChan (h : s.Fresh) (c : Fin 4) (x : Channel) : (s.changeChan c x).Fresh := by
  show ((s.withChan c x.takeAside).restTest.channelLamps c).Fresh
  have names : ∀ b, ((s.withChan c x.takeAside).restTest.btn b).namesChannel c = (s.btn b).namesChannel c := fun b => by
    rw [(retold_restTest (s.withChan c x.takeAside)).btn b]
    rfl
  refine fresh_channelLamps ?_
  simp only [names]
  exact freshBut_restTest (freshBut_withChan h _)

theorem fresh_releaseTest (h : s.Fresh) (c : Fin 4) : (s.releaseTest c).Fresh := by
  unfold State.releaseTest
  dsimp only
  split
  · split
    · exact fresh_changeChan h c _
    · exact h
  · split
    · exact fresh_changeChan h c _
    · exact h
  · exact h

theorem fresh_gatingNotices (h : s.Fresh) (l : List (Fin 4)) : (l.foldl State.gatingNotice s).Fresh := by
  induction l generalizing s with
  | nil => exact h
  | cons c l ih => exact ih (fresh_releaseTest (fresh_channelLamps h.but) c)

/-- A record told: the lamp of the button that a HELP record names may wait until then. -/
theorem fresh_tellRecord {k : Cause} {n : Nat} (h : s.FreshBut fun b => k = .help ∧ b = Fin.ofNat 16 n) :
    (s.tellRecord k n).Fresh := by
  have rested := freshBut_restTest (freshBut_beaconUpdate h)
  by_cases hk : k = .help
  · subst hk
    rw [tellRecord_help]
    intro b
    have own : ∀ d, ((s.beaconUpdate.restTest.lampUpdate (Fin.ofNat 16 n)).btn d) = if d = Fin.ofNat 16 n then
        { s.beaconUpdate.restTest.btn d with lamp := s.beaconUpdate.restTest.lampFor d }
        else s.beaconUpdate.restTest.btn d := fun d => by
      refine (btn_withBtn ..).trans ?_
      split
      · next e => rw [e]
      · rfl
    have same : (s.beaconUpdate.restTest.lampUpdate (Fin.ofNat 16 n)).lampFor b = s.beaconUpdate.restTest.lampFor b :=
      lampFor_same ((retold_lampUpdate _ _).btn b) rfl rfl rfl (fun _ => rfl) fun _ => rfl
    rw [same, own]
    split
    · rfl
    · next no => exact rested b fun e => no e.2
  · have fresh := fresh_gatingNotices (rested.all fun _ e => hk e.1) (s.beaconUpdate.restTest.concerned k n)
    unfold State.tellRecord
    dsimp only
    split
    · exact absurd rfl hk
    · exact fresh

/-- A CALL changes no matter that waits to be seen. -/
theorem unseen_called {i : Fin 16} {r : Record} (hr : s.slotAt i = some r) (k : Cause) (n : Nat) :
    (s.withSlot i (s.recordAfterCall r)).Unseen k n ↔ s.Unseen k n := by
  refine ⟨fun h => buildCall_waited hr (unseen_of_slots (told_buildCall s i r).slotAt k n h), ?_⟩
  rintro ⟨j, x, hj, seen, rfl, rfl⟩
  by_cases e : j = i
  · subst e
    rw [hr] at hj
    cases hj
    obtain ⟨y, hy, called, -, cause, subject, -⟩ := recordAfterCall_unseen (s := s) ((unseen_eq_true r).mp seen)
    exact ⟨j, y, by rw [slotAt_withSlot, if_pos rfl, hy], (unseen_eq_true y).mpr (.inr called), cause, subject⟩
  · exact ⟨j, x, by rw [slotAt_withSlot, if_neg e, hj], seen, rfl, rfl⟩

/-- The state of a button's HELP record, where a record changes in something else or is of another matter. -/
theorem helpRecord_withSlot {i : Fin 16} {r : Record} {x : Option Record} (hr : s.slotAt i = some r)
    (hx : ∀ y, x = some y → y.cause = r.cause ∧ y.subject = r.subject)
    (hm : r.cause = .help → r.subject = b.val → ∃ y, x = some y ∧ y.state = r.state) :
    (s.withSlot i x).helpRecord b = s.helpRecord b := by
  have found : (s.withSlot i x).findRecord .help b.val = s.findRecord .help b.val := by
    unfold State.findRecord
    congr 1
    funext j
    rw [slotAt_withSlot]
    by_cases e : j = i
    · subst e
      rw [if_pos rfl, hr]
      cases hy : x with
      | some y =>
        obtain ⟨cause, subject⟩ := hx y hy
        simp only [cause, subject]
      | none =>
        by_cases hc : r.cause = .help
        · have hn : r.subject ≠ b.val := fun hn => by
            obtain ⟨y, k, -⟩ := hm hc hn
            rw [hy] at k
            cases k
          simp [hn]
        · simp [hc]
    · rw [if_neg e]
  unfold State.helpRecord
  rw [found]
  cases hf : s.findRecord .help b.val with
  | none => rfl
  | some j =>
    obtain ⟨q, hq, cause, subject⟩ := findRecord_some hf
    dsimp only
    rw [slotAt_withSlot]
    split
    · next e =>
      subst e
      rw [hr] at hq
      cases hq
      obtain ⟨y, rfl, state⟩ := hm cause subject
      rw [hr]
      exact congrArg some state
    · rfl

theorem recordAfterCall_kept {r y : Record} (h : s.recordAfterCall r = some y) :
    y.cause = r.cause ∧ y.subject = r.subject := by
  unfold State.recordAfterCall at h
  cases hs : r.state <;> rw [hs] at h <;> cases h <;> exact ⟨rfl, rfl⟩

/-- The record of a CALL, for whose lamp the telling may be awaited. -/
theorem freshBut_called (h : s.Fresh) {i : Fin 16} {r : Record} (hr : s.slotAt i = some r) :
    (s.withSlot i (s.recordAfterCall r)).FreshBut fun b =>
      (r.state = .raised ∨ r.state = .clearing) ∧ r.cause = .help ∧ b = Fin.ofNat 16 r.subject := by
  intro b no
  have help : (s.withSlot i (s.recordAfterCall r)).helpRecord b = s.helpRecord b := by
    refine helpRecord_withSlot hr (fun y hy => recordAfterCall_kept hy) fun cause subject => ?_
    have stands : ¬ (r.state = .raised ∨ r.state = .clearing) := fun k =>
      no ⟨k, cause, by rw [subject]; exact (Fin.ofNat_val_eq_self b).symm⟩
    unfold State.recordAfterCall
    cases hs : r.state with
    | raised => exact absurd (.inl hs) stands
    | clearing => exact absurd (.inr hs) stands
    | called => exact ⟨_, rfl, rfl⟩
    | acknowledged => exact ⟨_, rfl, rfl⟩
  have same : (s.withSlot i (s.recordAfterCall r)).lampFor b = s.lampFor b :=
    lampFor_parts (x := (s.btn b).lamp) rfl (fun _ => rfl)
      (fun k _ => lampChannelReady_congr fun d _ => ⟨rfl, gated_congr rfl (unseen_called hr)⟩) help
  exact (h b).trans same.symm

theorem fresh_buildCall (h : s.Fresh) {i : Fin 16} {r : Record} (hr : s.slotAt i = some r) : (s.buildCall i r).Fresh := by
  have called := freshBut_called h hr
  have told : (r.state = .raised ∨ r.state = .clearing) →
      ((s.withSlot i (s.recordAfterCall r)).tellRecord r.cause r.subject).Fresh := fun _ =>
    fresh_tellRecord fun b no => called b fun k => no k.2
  have stands : ¬ (r.state = .raised ∨ r.state = .clearing) → (s.withSlot i (s.recordAfterCall r)).Fresh := fun no =>
    called.all fun _ k => no k.1
  unfold State.buildCall
  dsimp only
  split
  · next hs => exact told (.inl hs)
  · next hs => exact told (.inr hs)
  · next hs => exact stands (by simp [hs])
  · next hs => exact stands (by simp [hs])

theorem Fresh.congr (h : s.Fresh) (hb : t.button = s.button) (hm : t.mode = s.mode) (hc : t.motion = s.motion)
    (ha : t.alert = s.alert) : t.Fresh := by
  refine (FreshBut.congr (p := fun _ => False) h.but (fun b => ?_) hm (fun c => ?_) fun i => ?_).all fun _ k => k
  · rw [State.btn, hb, State.btn]
  · rw [State.chan, hc, State.chan]
  · rw [State.slotAt, ha, State.slotAt]

theorem fresh_takeOwn (h : s.Fresh) : s.takeOwn.Fresh := by
  unfold State.takeOwn
  split
  · split
    · split
      · next i _ _ r hr =>
        have sent : State.Fresh { s with
            ring.sending := some (s.ownFrame 0x13 (callPayload i r)), ring.relayCount := 0 } :=
          Fresh.congr h rfl rfl rfl rfl
        exact fresh_buildCall sent hr
      · exact h
    · exact h
  · split
    · exact Fresh.congr h rfl rfl rfl rfl
    · exact h

theorem fresh_pump (h : s.Fresh) : s.pump.Fresh := by
  unfold State.pump State.choose
  split
  · split
    · split
      · exact Fresh.congr h rfl rfl rfl rfl
      · exact fresh_takeOwn h
    · split
      · exact fresh_takeOwn h
      · exact h
  · exact h

theorem fresh_offerRelay (h : s.Fresh) (f : Frame) : (s.offerRelay f).Fresh := by
  unfold State.offerRelay
  split
  · have joined : State.Fresh { s with ring.relay := s.ring.relay ++ [f] } := Fresh.congr h rfl rfl rfl rfl
    exact fresh_pump joined
  · exact Fresh.congr h rfl rfl rfl rfl

theorem fresh_offerTrigger (h : s.Fresh) (t : Trigger) : (s.offerTrigger t).Fresh := by
  obtain ⟨q, d, a, p, w, e⟩ := offerTrigger_eq s t
  rw [e]
  exact Fresh.congr h rfl rfl rfl rfl

theorem fresh_passOn (h : s.Fresh) (f : Frame) : (s.passOn f).Fresh := by
  unfold State.passOn
  split
  · exact h
  · split
    · exact Fresh.congr h rfl rfl rfl rfl
    · exact fresh_offerRelay h _

theorem fresh_restTest (h : s.Fresh) : s.restTest.Fresh :=
  (freshBut_restTest (p := fun _ => False) h.but).all fun _ k => k

end Told

/-! ## Lamps through a HOME -/

section Home
variable {s : State} {c : Fin 4}

theorem fresh_refuse (h : s.Fresh) (c : Fin 4) : (s.refuse c).Fresh := by
  have chan : ∀ d, ((s.refuse c).chan d).state = (s.chan d).state ∧ ((s.refuse c).chan d).held = (s.chan d).held :=
    fun d => by
      unfold State.refuse
      rw [chan_withChan]
      split
      · next e => rw [e]; exact ⟨rfl, rfl⟩
      · exact ⟨rfl, rfl⟩
  intro b
  have same : (s.refuse c).lampFor b = s.lampFor b :=
    lampFor_parts (x := (s.btn b).lamp) rfl (fun _ => rfl) (fun k _ => lampChannelReady_congr fun d _ =>
      ⟨(chan d).1, gated_congr (chan d).2 fun _ _ => Iff.rfl⟩) rfl
  exact (h b).trans same.symm

theorem fresh_takeHome (h : s.Fresh) (c : Fin 4) : (s.takeHome c).Fresh := by
  rcases takeHome_cases s c with refused | same | ⟨k, searches⟩
  · rw [takeHome_refused refused]
    exact fresh_refuse h c
  · rw [same]
    exact h
  · rw [searches]
    exact fresh_withChan_lamps h _

theorem fresh_autoHomes (h : s.Fresh) (l : List (Fin 4)) : (l.foldl State.autoHomeChannel s).Fresh := by
  induction l generalizing s with
  | nil => exact h
  | cons c l ih =>
    refine ih ?_
    unfold State.autoHomeChannel
    dsimp only
    split
    · exact fresh_takeHome h c
    · exact h

end Home

end Sys2Proof.Machine
end

