-- ==== Sys2Proof/Proofs/Heard.lean ====
section
/-! PROOF. A PULSE heard (R21, R24): LINE-LOST cleared, and the frame passed on (R7, R8), each with what it leaves alone. -/
namespace Sys2Proof.Machine

/-! ## The end of LINE-LOST -/

section Line
variable {s : State}

theorem sent_conditionEnd (s : State) (k : Cause) (n : Nat) : Sent s (s.conditionEnd k n) := by
  have slot : ∀ i r, Sent s (s.withSlot i r) := fun _ _ => rfl
  have ended : ∀ i r, Sent s ((s.withSlot i r).tellRecord k n).pump := fun i r =>
    ((slot i r).trans (told_tellRecord _ k n).sent).trans (sent_pump _)
  unfold State.conditionEnd
  split
  · exact .refl s
  · split
    · exact .refl s
    · dsimp only
      split
      · exact .refl s
      · exact ended _ _
      all_goals
        split
        · exact slot _ _
        · exact ended _ _

/-- The end of a latched condition makes no record wait to be seen. -/
theorem conditionEnd_waited {k k' : Cause} {n n' : Nat} (hl : k.latched = true) (h : (s.conditionEnd k n).Unseen k' n') :
    s.Unseen k' n' := by
  cases hf : s.findRecord k n with
  | none =>
    rw [conditionEnd_none hf] at h
    exact h
  | some i =>
    obtain ⟨r, hr, -, -⟩ := findRecord_some hf
    have written : ∀ x : Option Record, (∀ y, x = some y → y.unseen = true → r.unseen = true ∧ y.cause = r.cause ∧
        y.subject = r.subject) → (s.withSlot i x).Unseen k' n' → s.Unseen k' n' := by
      rintro x hx ⟨j, y, hj, hu, rfl, rfl⟩
      rw [slotAt_withSlot] at hj
      split at hj
      · obtain ⟨seen, cause, subject⟩ := hx y hj hu
        exact ⟨i, r, hr, seen, cause.symm, subject.symm⟩
      · exact ⟨j, y, hj, hu, rfl, rfl⟩
    cases hs : r.state with
    | clearing =>
      rw [conditionEnd_clearing hf hr hs] at h
      exact h
    | acknowledged =>
      rw [conditionEnd_ended hf hr (.inl hs)] at h
      refine written _ (fun y hy hu => ?_) (unseen_of_slots (fun j => ((told_tellRecord _ k n).slotAt j).symm) k' n'
        (pump_waited h))
      split at hy
      · cases hy
      · cases hy
        exact absurd hu (by simp [Record.unseen])
    | raised | called =>
      rw [conditionEnd_latched hf hr hl (by simp [hs])] at h
      refine written _ (fun y hy hu => ?_) h
      cases hy
      exact ⟨hu, rfl, rfl⟩

/-- A PULSE heard: the line-loss timer, the clock, and the end of LINE-LOST. -/
def State.heard (s : State) (n : Nat) : State := (s.trailing.pulsed n).clearLineLost

/-- The mode unit with LINE-LOST clear. -/
def ModeUnit.regained (x : ModeUnit) : ModeUnit :=
  { x with lineLost := false, localPlay := if x.lineLost then none else x.localPlay }

theorem regained_clear {x : ModeUnit} (h : x.lineLost = false) : x.regained = x := by
  obtain ⟨mode, node, clock, ms, lineLost, localPlay⟩ := x
  obtain rfl : lineLost = false := h
  rfl

theorem regained_lost {x : ModeUnit} (h : x.lineLost = true) :
    x.regained = { x with lineLost := false, localPlay := none } := by
  unfold ModeUnit.regained
  rw [h]
  rfl

/-- The same, but for what the end of LINE-LOST tells. -/
def State.listened (s : State) (n : Nat) : State :=
  { s.trailing.pulsed n with mode := (s.trailing.pulsed n).mode.regained }

theorem heard_clear (h : s.mode.lineLost = false) (n : Nat) : s.heard n = s.listened n := by
  have clear : (s.trailing.pulsed n).mode.lineLost = false := h
  refine (clearLineLost_clear clear).trans ?_
  unfold State.listened
  rw [regained_clear clear]

theorem heard_lost (h : s.mode.lineLost = true) (n : Nat) :
    s.heard n = ((s.listened n).allLamps.conditionEnd .lineLost 0).pump := by
  have lost : (s.trailing.pulsed n).mode.lineLost = true := h
  refine (clearLineLost_lost lost).trans ?_
  unfold State.unlost State.listened
  rw [regained_lost lost]

theorem heard_sent (s : State) (n : Nat) : Sent (s.listened n) (s.heard n) := by
  cases h : s.mode.lineLost with
  | false => rw [heard_clear h]; exact .refl _
  | true =>
    rw [heard_lost h]
    exact ((told_allLamps (s.listened n)).sent.trans (sent_conditionEnd _ .lineLost 0)).trans (sent_pump _)

theorem heard_retold (s : State) (n : Nat) : Retold (s.listened n) (s.heard n) := by
  cases h : s.mode.lineLost with
  | false => rw [heard_clear h]; exact .refl _
  | true =>
    rw [heard_lost h]
    exact ((retold_allLamps (s.listened n)).trans (retold_conditionEnd _ .lineLost 0)).trans (retold_pump _)

theorem allLamps_slots (s : State) (i : Fin 16) : s.slotAt i = s.allLamps.slotAt i := by
  unfold State.allLamps State.slotAt
  rfl

theorem gentle_allLamps (s : State) : Gentle s s.allLamps := by
  refine .of_eq ?_ ?_ fun i => (allLamps_slots s i).symm
  · unfold State.allLamps State.fixed
    rfl
  · unfold State.allLamps
    rfl

theorem heard_gentle (ha : s.Awake) (n : Nat) : Gentle (s.listened n) (s.heard n) := by
  cases h : s.mode.lineLost with
  | false => rw [heard_clear h]; exact .refl _
  | true =>
    have awake : (s.listened n).Awake := awake_congr (s := s) rfl (fun _ => rfl) (fun _ => rfl) ha
    have lamps := gentle_allLamps (s.listened n)
    have ended := lamps.trans (gentle_conditionEnd (k := .lineLost) (lamps.awake awake) rfl 0)
    rw [heard_lost h]
    exact ended.trans (gentle_pump (ended.awake awake))

theorem heard_waited {n : Nat} {k : Cause} {i : Nat} (h : (s.heard n).Unseen k i) : s.Unseen k i := by
  cases hl : s.mode.lineLost with
  | false => rw [heard_clear hl] at h; exact h
  | true =>
    rw [heard_lost hl] at h
    have lamps : (s.listened n).allLamps.Unseen k i := conditionEnd_waited (k := .lineLost) (n := 0) rfl (pump_waited h)
    exact unseen_of_slots (allLamps_slots (s.listened n)) k i lamps

/-- Of the mode unit, a transmission or a telling changes the node state alone. -/
theorem sent_mode {t : State} (h : Sent s t) : t.mode = { s.mode with node := t.mode.node } := by
  have := congrArg (fun u : State => u.mode) h
  have whole : { t.mode with node := NodeState.active } = { s.mode with node := NodeState.active } := this
  calc t.mode
      = { ({ t.mode with node := .active } : ModeUnit) with node := t.mode.node } := rfl
    _ = { s.mode with node := t.mode.node } := by rw [whole]

/-- What a PULSE heard keeps of the gating of a channel that it does not change. -/
theorem heard_gated (ha : s.Awake) {n : Nat} {c : Fin 4} (hc : (s.heard n).chan c = s.chan c) :
    (s.heard n).gated c = s.gated c :=
  gated_congr (by rw [hc]) fun k i => ⟨heard_waited, (heard_gentle ha n).unseen k i⟩

end Line

/-! ## The frame passed on -/

section Pass
variable {s : State}

theorem sent_offerRelay (s : State) (f : Frame) : ∃ r, r.triggerDrops = s.ring.record.triggerDrops ∧
    Sent { s with ring.record := r } (s.offerRelay f) := by
  unfold State.offerRelay
  split
  · have joined : Sent s { s with ring.relay := s.ring.relay ++ [f] } := rfl
    exact ⟨s.ring.record, rfl, joined.trans (sent_pump _)⟩
  · exact ⟨s.countRelayDrop.ring.record, rfl, rfl⟩

theorem sent_passOn (s : State) (f : Frame) : ∃ r, r.triggerDrops = s.ring.record.triggerDrops ∧
    Sent { s with ring.record := r } (s.passOn f) := by
  unfold State.passOn
  split
  · exact ⟨s.ring.record, rfl, rfl⟩
  · split
    · exact ⟨s.countHopExpiry.ring.record, rfl, rfl⟩
    · exact sent_offerRelay s _

theorem retold_passOn (s : State) (f : Frame) : Retold s (s.passOn f) := by
  unfold State.passOn
  split
  · exact .refl s
  · split
    · exact .of_eq rfl rfl rfl rfl
    · exact retold_offerRelay s _

theorem gentle_passOn (ha : s.Awake) (f : Frame) : Gentle s (s.passOn f) := by
  unfold State.passOn
  split
  · exact .refl s
  · split
    · exact .of_eq rfl rfl fun _ => rfl
    · exact gentle_offerRelay ha _

end Pass

section Pulse
variable {s : State} {env : Envelope} {p : List Byte} {m : GalleryMode}

/-- A PULSE with another mode than the effective one. -/
theorem exec_pulse_changes (hb : s.ring.bypass = false) (h0 : env.src = 0) (ha : s.address ≠ 0)
    (hd : env.dst = 127 ∨ env.dst = s.address) (hp : p.length = 4) (hm : modeOfCode (byteAt p 0).toNat = some m)
    (ht : numAt p 1 3 < 86400) (hne : m ≠ s.mode.mode) : exec (.pulse env p) s =
      .next (((s.heard (numAt p 1 3)).changeMode m).passOn (frameOf 0x01 env p)) := by
  have received : exec (.pulse env p) s = .next ((s.trailing.actPulse p).passOn (frameOf 0x01 env p)) :=
    congrArg _ (receive_pulse hb h0 ha hd hp)
  have other : m ≠ (s.heard (numAt p 1 3)).mode.mode := fun e => hne (e.trans (clearLineLost_mode ..))
  have changes : s.trailing.takePulse m (numAt p 1 3) = (s.heard (numAt p 1 3)).changeMode m := if_neg other
  rw [received, actPulse_accepted hm ht, changes]

end Pulse

end Sys2Proof.Machine
end

