-- ==== Sys2Proof/Proofs/Modes.lean ====
section
/-! PROOF. A change of mode (R24, R25): what it has each channel do, one after another, and a node that wakes (R34, R35). -/
namespace Sys2Proof.Machine

/-! ## What a mode change has the motion unit do -/

/-- `t` is `s` but for channels, owed fetches, lamps and the arbiter. -/
structure Directed (s t : State) : Prop where
  moved  : MovedThen s t
  guards : t.motion.guards = s.motion.guards
  btn    : ∀ b, t.btn b = { s.btn b with lamp := (t.btn b).lamp }

/-- An action of one channel, in a node of the state: it touches no other channel. -/
def Acts (n : NodeState) (f : State → Fin 4 → State) : Prop :=
  ∀ s d, s.mode.node = n → Directed s (f s d) ∧ ∀ c, c ≠ d → (f s d).chan c = s.chan c

section Directed
variable {n : NodeState} {f : State → Fin 4 → State} {s t u : State} {c d : Fin 4} {l : List (Fin 4)} {x : Channel}

theorem MovedThen.trans (h : MovedThen s t) (k : MovedThen t u) : MovedThen s u := by
  obtain ⟨e, words⟩ := h
  obtain ⟨e', words'⟩ := k
  refine ⟨?_, words'.trans words⟩
  rw [e] at e'
  exact e'

theorem Directed.refl (s : State) : Directed s s := ⟨⟨rfl, rfl⟩, rfl, fun _ => rfl⟩

theorem Directed.trans (h : Directed s t) (k : Directed t u) : Directed s u := by
  refine ⟨h.moved.trans k.moved, k.guards.trans h.guards, fun b => ?_⟩
  have two := k.btn b
  rw [h.btn b] at two
  exact two

theorem Directed.mode (h : Directed s t) : t.mode = s.mode := by
  have := congrArg State.mode h.moved.1; exact this
theorem Directed.effect (h : Directed s t) : t.effect = s.effect := by
  have := congrArg State.effect h.moved.1; exact this
theorem Directed.alert (h : Directed s t) : t.alert = s.alert := by
  have := congrArg State.alert h.moved.1; exact this
theorem Directed.ring (h : Directed s t) : t.ring = s.ring := by
  have := congrArg State.ring h.moved.1; exact this
theorem Directed.cue (h : Directed s t) : t.cue = s.cue := by
  have := congrArg State.cue h.moved.1; exact this
theorem Directed.mgmt (h : Directed s t) : t.mgmt = s.mgmt := by
  have := congrArg State.mgmt h.moved.1; exact this
theorem Directed.straps (h : Directed s t) : t.straps = s.straps := by
  have := congrArg State.straps h.moved.1; exact this
theorem Directed.sampling (h : Directed s t) : t.sampling = s.sampling := by
  have := congrArg State.sampling h.moved.1; exact this
theorem Directed.slotAt (h : Directed s t) (i : Fin 16) : t.slotAt i = s.slotAt i := by
  simp only [State.slotAt, h.alert]
theorem Directed.unseen (h : Directed s t) (k : Cause) (i : Nat) : t.Unseen k i ↔ s.Unseen k i :=
  ⟨unseen_of_slots (fun j => (h.slotAt j).symm) k i, unseen_of_slots h.slotAt k i⟩
theorem Directed.gated (h : Directed s t) (hc : (t.chan c).held = (s.chan c).held) : t.gated c = s.gated c :=
  gated_congr hc h.unseen
theorem Directed.guardsClosed (h : Directed s t) (m : BitVec 4) : t.guardsClosed m = s.guardsClosed m :=
  guardsClosed_congr h.guards m

theorem directed_withChan (s : State) (d : Fin 4) (x : Channel) : Directed s (s.withChan d x) :=
  ⟨(moved_withChan s d x).memory, rfl, fun _ => rfl⟩

theorem directed_cancelOwed (s : State) (d : Fin 4) : Directed s (s.cancelOwed d) :=
  ⟨(moved_cancelOwed s d).memory, rfl, fun _ => rfl⟩

theorem directed_channelLamps (s : State) (d : Fin 4) : Directed s (s.channelLamps d) :=
  ⟨(moved_channelLamps s d).memory, by rw [channelLamps_motion], (retold_channelLamps s d).btn⟩

theorem directed_arbitrate (s : State) : Directed s s.arbitrate := by
  obtain ⟨motion, button, words, e⟩ := arbitrate_parts s
  refine ⟨⟨?_, words⟩, by rw [motion], fun b => by rw [State.btn, button, State.btn]⟩
  rw [motion, button]
  exact e

theorem directed_begun (s : State) (d : Fin 4) (p : Fin 32) : Directed s (s.begun d p) := by
  have owes : Directed s { s with motion.owed := s.motion.owed ++ firstFetches d p } := ⟨⟨rfl, rfl⟩, rfl, fun _ => rfl⟩
  exact (owes.trans (directed_withChan _ d _)).trans (directed_channelLamps _ d)

theorem directed_allLamps (s : State) : Directed s s.allLamps := by
  refine ⟨?_, ?_, (retold_allLamps s).btn⟩ <;> unfold State.allLamps
  · exact ⟨rfl, rfl⟩
  · rfl

theorem foldl_directed (hf : Acts n f) (hn : s.mode.node = n) (l : List (Fin 4)) : Directed s (l.foldl f s) := by
  induction l generalizing s with
  | nil => exact .refl s
  | cons d l ih =>
    have one := (hf s d hn).1
    exact one.trans (ih (by rw [one.mode, hn]))

theorem foldl_others (hf : Acts n f) (hn : s.mode.node = n) (hc : c ∉ l) : (l.foldl f s).chan c = s.chan c := by
  induction l generalizing s with
  | nil => rfl
  | cons d l ih =>
    obtain ⟨hd, hl⟩ := not_or.mp (fun k => hc (List.mem_cons.mpr k))
    obtain ⟨one, others⟩ := hf s d hn
    exact (ih (by rw [one.mode, hn]) hl).trans (others c hd)

/-- What a channel becomes is what it becomes by its own action, in a state that differs in others alone. -/
theorem foldl_acts (hf : Acts n f) (hn : s.mode.node = n) (hl : l.Nodup) (hc : c ∈ l) :
    ∃ u, Directed s u ∧ u.chan c = s.chan c ∧ (l.foldl f s).chan c = (f u c).chan c := by
  obtain ⟨pre, post, split⟩ := List.append_of_mem hc
  rw [split] at hl
  have hpre : c ∉ pre := fun h => (List.nodup_append.mp hl).2.2 c h c (List.mem_cons_self ..) rfl
  have hpost : c ∉ post := (List.nodup_cons.mp (List.nodup_append.mp hl).2.1).1
  have before := foldl_directed hf hn pre
  have awake : (pre.foldl f s).mode.node = n := by rw [before.mode, hn]
  rw [split, List.foldl_append, List.foldl_cons]
  exact ⟨pre.foldl f s, before, foldl_others hf hn hpre,
    foldl_others hf (by rw [(hf _ c awake).1.mode, awake]) hpost⟩

end Directed

/-! ## A channel that wakes (R34) -/

section Wake
variable {s : State} {c : Fin 4} {k : ChannelSettings}

theorem wakeChannel_other (h : (s.chan c).state ≠ .resting) : s.wakeChannel c = s := by
  unfold State.wakeChannel
  split
  · next e => exact absurd e h
  · rfl

theorem wakeChannel_resting (hn : s.mode.node = .active) (h : (s.chan c).state = .resting) :
    s.wakeChannel c = (s.withChan c (s.chan c).wake.takeAside).channelLamps c := by
  have awake : (s.withChan c (s.chan c).wake.takeAside).Awake := .inl (by
    show s.mode.node ≠ .closing
    rw [hn]
    exact NodeState.noConfusion)
  unfold State.wakeChannel
  rw [h]
  exact changeChan_awake awake

theorem acts_wake : Acts .active State.wakeChannel := by
  intro s d hn
  by_cases h : (s.chan d).state = .resting
  · rw [wakeChannel_resting hn h]
    exact ⟨(directed_withChan s d _).trans (directed_channelLamps _ d), fun c hc => by
      rw [channelLamps_chan, chan_withChan, if_neg hc]⟩
  · rw [wakeChannel_other h]
    exact ⟨.refl s, fun _ _ => rfl⟩

/-- A channel with a copy, none aside, wakes IDLE if it rested so and holds its position, else UNHOMED. -/
theorem wake_copy {x : Channel} (hk : x.held = .copy k) (ha : x.aside = none) : x.wake.takeAside =
    { x with
      state := if x.restState = some .idle ∧ k.holdsPosition = true then .idle else .unhomed
      restState := none, faultReason := none } := by
  have held : x.wake.aside = none := ha
  rw [takeAside_id _ (.inr held)]
  unfold Channel.wake
  rw [hk]

end Wake

/-! ## Auto-home (R35) -/

section AutoHome
variable {s : State} {c : Fin 4} {k : ChannelSettings}

theorem directed_takeHome (s : State) (d : Fin 4) : Directed s (s.takeHome d) := by
  rcases takeHome_cases s d with h | h | ⟨k, h⟩
  · rw [takeHome_refused h]
    exact directed_withChan s d _
  · rw [h]
    exact .refl s
  · rw [h]
    exact (directed_withChan s d _).trans (directed_channelLamps _ d)

theorem autoHomeChannel_takes (he : (s.chan c).enabled = true) (ha : (s.chan c).autoHome = true)
    (hs : (s.chan c).state = .unhomed) : s.autoHomeChannel c = s.takeHome c := if_pos ⟨he, ha, hs⟩

theorem autoHomeChannel_stands (h : (s.chan c).enabled = false ∨ (s.chan c).autoHome = false ∨
    (s.chan c).state ≠ .unhomed) : s.autoHomeChannel c = s := by
  refine if_neg ?_
  rintro ⟨he, ha, hs⟩
  rcases h with h | h | h
  · exact absurd (h.symm.trans he) (by decide)
  · exact absurd (h.symm.trans ha) (by decide)
  · exact h hs

theorem acts_autoHome (n : NodeState) : Acts n State.autoHomeChannel := by
  intro s d _
  unfold State.autoHomeChannel
  dsimp only
  split
  · exact ⟨directed_takeHome s d, fun c hc => (takeHome_own s d c hc).chan⟩
  · exact ⟨.refl s, fun _ _ => rfl⟩

/-- An auto-home channel that is UNHOMED, under a copy that enables it. -/
theorem autoHome_cases (hk : (s.chan c).held = .copy k) (he : k.enabled = true) (ha : k.autoHome = true)
    (hs : (s.chan c).state = .unhomed) (hm : s.homeAllowed = true) :
    (s.gated c = false → s.guardsClosed k.guardMap = true →
      (s.autoHomeChannel c).chan c = (s.chan c).startSearch k) ∧
    (s.gated c = true ∨ s.guardsClosed k.guardMap = false →
      (s.autoHomeChannel c).chan c = { s.chan c with refused := inc16 (s.chan c).refused }) := by
  have takes : s.autoHomeChannel c = s.takeHome c := autoHomeChannel_takes (by unfold Channel.enabled; rw [hk]; exact he)
    (by unfold Channel.autoHome; rw [hk]; exact ha) hs
  rw [takes]
  refine ⟨fun hg hc => ?_, fun h => ?_⟩
  · rw [takeHome_searches hm hg hk he (.inl hs) hc, channelLamps_chan, chan_withChan, if_pos rfl]
  · have refused : s.HomeRefused c := by
      rcases h with h | h
      · exact .inr (.inl h)
      · refine .inr (.inr (.inr (.inr (.inr (.inr (.inr (.inr ⟨?_, ?_⟩)))))))
        · rw [hs]
          exact ChanState.noConfusion
        · rw [guardMap_copy hk]
          exact h
    rw [takeHome_refused refused]
    exact (chan_withChan ..).trans (if_pos rfl)

end AutoHome

/-! ## The mode changed -/

section Change
variable {s : State} {m : GalleryMode} {c : Fin 4} {k : ChannelSettings}

/-- The new mode and node state, and the ceilings (R108). -/
def State.modeSet (s : State) (m : GalleryMode) : State :=
  { s with mode := { s.mode with mode := m, node := nodeAfter s.mode.node m } }.mapChans fun ch => ch.newCeiling m

/-- The channels told of it: parked at the entry into CLOSING, woken from DORMANT. -/
def State.modeTold (s : State) (m : GalleryMode) : State :=
  match s.mode.node, nodeAfter s.mode.node m with
  | .active, .closing => four.foldl State.parkChannel (s.modeSet m)
  | .dormant, .active => four.foldl State.wakeChannel (s.modeSet m)
  | _, _ => s.modeSet m

/-- The lamps, and auto-home. -/
def State.modeHomed (s : State) (m : GalleryMode) : State :=
  if autoHomeApplies s.mode.mode m then four.foldl State.autoHomeChannel (s.modeTold m).allLamps
  else (s.modeTold m).allLamps

theorem changeMode_eq (s : State) (m : GalleryMode) : s.changeMode m =
    if s.mode.node = .active ∧ m = .closed then ((s.modeHomed m).offerTrigger (.modeEntry m)).restTest
    else (s.modeHomed m).offerTrigger (.modeEntry m) := rfl

theorem modeSet_chan (s : State) (m : GalleryMode) (c : Fin 4) : (s.modeSet m).chan c = (s.chan c).newCeiling m :=
  chan_mapChans ..

theorem newCeiling_still {x : Channel} (h : x.state ≠ .moving) (h' : x.state ≠ .stopping) : x.newCeiling m = x := by
  unfold Channel.newCeiling
  split
  · exact if_neg fun k => k.elim h h'
  · rfl

/-- What follows the ceilings and the telling: lamps and auto-home. -/
theorem modeHomed_directed (s : State) (m : GalleryMode) : Directed (s.modeTold m) (s.modeHomed m) := by
  unfold State.modeHomed
  have lamps := directed_allLamps (s.modeTold m)
  split
  · exact lamps.trans (foldl_directed (acts_autoHome _) rfl four)
  · exact lamps

/-- A channel through auto-home: nothing, or its own auto-home. -/
theorem modeHomed_chan (s : State) (m : GalleryMode) (c : Fin 4) :
    (autoHomeApplies s.mode.mode m = true → ∃ u, Directed (s.modeTold m) u ∧ u.chan c = (s.modeTold m).chan c ∧
      (s.modeHomed m).chan c = (u.autoHomeChannel c).chan c) ∧
    (autoHomeApplies s.mode.mode m = false → (s.modeHomed m).chan c = (s.modeTold m).chan c) := by
  unfold State.modeHomed
  refine ⟨fun h => ?_, fun h => ?_⟩
  · rw [if_pos h]
    obtain ⟨u, directed, same, chan⟩ := foldl_acts (c := c) (l := four) (acts_autoHome _)
      (rfl : (s.modeTold m).allLamps.mode.node = _) (by decide) (by fin_cases c <;> decide)
    exact ⟨u, (directed_allLamps _).trans directed, same.trans (allLamps_chan ..), chan⟩
  · rw [if_neg (by simp [h])]
    exact allLamps_chan ..

theorem nodeAfter_open {n : NodeState} (hn : n ≠ .bypass) (hm : m ≠ .closed) : nodeAfter n m = .active := by
  cases m with
  | closed => exact absurd rfl hm
  | held | opened | quiet | service =>
    cases n with
    | bypass => exact absurd rfl hn
    | active | closing | dormant => rfl

theorem modeTold_wakes (hn : s.mode.node = .dormant) (hm : m ≠ .closed) :
    s.modeTold m = four.foldl State.wakeChannel (s.modeSet m) := by
  have awake : nodeAfter .dormant m = .active := nodeAfter_open NodeState.noConfusion hm
  unfold State.modeTold
  rw [hn, awake]

theorem modeSet_node (s : State) (m : GalleryMode) : (s.modeSet m).mode.node = nodeAfter s.mode.node m := rfl

/-- MODE-ENTRY offered touches the cue engine, the drop count and the arbiter alone. -/
theorem offerTrigger_parts (s : State) (t : Trigger) : (s.offerTrigger t).motion = s.motion ∧
    (s.offerTrigger t).mode = s.mode ∧ (s.offerTrigger t).effect = s.effect ∧ (s.offerTrigger t).alert = s.alert ∧
    (s.offerTrigger t).button = s.button ∧ (s.offerTrigger t).mem.words = s.mem.words := by
  obtain ⟨q, d, a, p, w, e⟩ := offerTrigger_eq s t
  rw [e]
  exact ⟨rfl, rfl, rfl, rfl, rfl, rfl⟩

/-- The whole change to a mode other than CLOSED. -/
theorem changeMode_open (hm : m ≠ .closed) : s.changeMode m = (s.modeHomed m).offerTrigger (.modeEntry m) := by
  rw [changeMode_eq, if_neg fun h => hm h.2]

theorem changeMode_open_chan (hm : m ≠ .closed) (c : Fin 4) : (s.changeMode m).chan c = (s.modeHomed m).chan c := by
  rw [changeMode_open hm, State.chan, (offerTrigger_parts ..).1, State.chan]

end Change

/-! ## A node that wakes (R34, R35) -/

section Wakes
variable {s : State} {m : GalleryMode} {c : Fin 4} {k : ChannelSettings}

theorem modeTold_directed_wakes (hn : s.mode.node = .dormant) (hm : m ≠ .closed) :
    Directed (s.modeSet m) (s.modeTold m) := by
  rw [modeTold_wakes hn hm]
  exact foldl_directed acts_wake (by rw [modeSet_node, hn, nodeAfter_open NodeState.noConfusion hm]) four

/-- A channel that no record binds hears nothing of the line. -/
theorem heard_chan (ha : s.Awake) (n : Nat) (h1 : (s.chan c).state ≠ .halted) (h2 : (s.chan c).state ≠ .fault) :
    (s.heard n).chan c = s.chan c := by
  have stays : (s.listened n).Stays c := stays_of_state (s := s.listened n) (c := c) h1 h2
  exact (heard_gentle ha n).stays c stays

/-- The node that wakes, to be passed on the frame. -/
theorem changeMode_wakes (hn : s.mode.node = .dormant) (hm : m ≠ .closed) :
    (s.changeMode m).mode = { s.mode with mode := m, node := .active } ∧ (s.changeMode m).effect = s.effect := by
  have told := (modeTold_directed_wakes hn hm).trans (modeHomed_directed s m)
  obtain ⟨-, mode, effect, -⟩ := offerTrigger_parts (s.modeHomed m) (.modeEntry m)
  have set : (s.modeSet m).mode = { s.mode with mode := m, node := nodeAfter s.mode.node m } := rfl
  rw [changeMode_open hm]
  refine ⟨?_, effect.trans told.effect⟩
  rw [mode, told.mode, set, hn, nodeAfter_open NodeState.noConfusion hm]

/-- A RESTING channel told of it. -/
theorem modeTold_woken (hn : s.mode.node = .dormant) (hm : m ≠ .closed) (hk : (s.chan c).held = .copy k)
    (ha : (s.chan c).aside = none) (hs : (s.chan c).state = .resting) : (s.modeTold m).chan c =
    { s.chan c with
      state := if (s.chan c).restState = some .idle ∧ k.holdsPosition = true then .idle else .unhomed
      restState := none, faultReason := none } := by
  have awake : (s.modeSet m).mode.node = .active := by
    rw [modeSet_node, hn, nodeAfter_open NodeState.noConfusion hm]
  have before : (s.modeSet m).chan c = s.chan c := (modeSet_chan s m c).trans
    (newCeiling_still (by rw [hs]; exact ChanState.noConfusion) (by rw [hs]; exact ChanState.noConfusion))
  obtain ⟨u, directed, same, chan⟩ := foldl_acts (c := c) (l := four) acts_wake awake (by decide)
    (by fin_cases c <;> decide)
  have own : u.chan c = s.chan c := same.trans before
  rw [modeTold_wakes hn hm, chan, wakeChannel_resting (by rw [directed.mode, awake]) (by rw [own]; exact hs),
    channelLamps_chan, chan_withChan, if_pos rfl, own, wake_copy hk ha]

/-- What a RESTING channel of a node that wakes becomes. -/
theorem changeMode_woken (hn : s.mode.node = .dormant) (hold : s.mode.mode = .closed)
    (hm : m = .opened ∨ m = .quiet ∨ m = .service) (hk : (s.chan c).held = .copy k) (ha : (s.chan c).aside = none)
    (hs : (s.chan c).state = .resting) {x : Channel} (hx : x = (s.changeMode m).chan c) :
    ((s.chan c).restState = some .idle → k.holdsPosition = true →
      x.state = .idle ∧ x.position = (s.chan c).position) ∧
    (¬((s.chan c).restState = some .idle ∧ k.holdsPosition = true) →
      (m = .service ∨ k.autoHome = false ∨ k.enabled = false → x.state = .unhomed) ∧
      (m ≠ .service → k.autoHome = true → k.enabled = true →
        (s.gated c = false → s.guardsClosed k.guardMap = true → x.state = .homing ∧ x.refused = (s.chan c).refused) ∧
        (s.gated c = true ∨ s.guardsClosed k.guardMap = false →
          x.state = .unhomed ∧ x.refused = inc16 (s.chan c).refused))) := by
  have open' : m ≠ .closed := by rcases hm with rfl | rfl | rfl <;> exact GalleryMode.noConfusion
  have woken := modeTold_woken hn open' hk ha hs
  rw [changeMode_open_chan open'] at hx
  obtain ⟨homes, stands⟩ := modeHomed_chan s m c
  have still : (s.chan c).restState = some .idle ∧ k.holdsPosition = true ∨ m = .service ∨ k.autoHome = false ∨
      k.enabled = false → x = (s.modeTold m).chan c := fun h => by
    subst hx
    cases applies : autoHomeApplies s.mode.mode m with
    | false => exact stands applies
    | true =>
      obtain ⟨u, -, same, chan⟩ := homes applies
      rw [chan, autoHomeChannel_stands ?_, same]
      have held : (u.chan c).held = .copy k := by rw [same, woken]; exact hk
      unfold Channel.enabled Channel.autoHome
      rw [held]
      rcases h with idle | rfl | no | no
      · refine .inr (.inr ?_)
        rw [same, woken, if_pos idle]
        exact ChanState.noConfusion
      · rw [hold] at applies
        cases applies
      · exact .inr (.inl no)
      · exact .inl no
  refine ⟨fun rested holds => ?_, fun lost => ⟨fun h => ?_, fun service auto enabled => ?_⟩⟩
  · rw [still (.inl ⟨rested, holds⟩), woken, if_pos ⟨rested, holds⟩]
    exact ⟨rfl, rfl⟩
  · rw [still (.inr h), woken, if_neg lost]
  · have applies : autoHomeApplies s.mode.mode m = true := by
      rw [hold]
      rcases hm with rfl | rfl | rfl
      · rfl
      · rfl
      · exact absurd rfl service
    obtain ⟨u, directed, same, chan⟩ := homes applies
    rw [woken, if_neg lost] at same
    have whole := (modeTold_directed_wakes hn open').trans directed
    have gated : u.gated c = s.gated c := gated_congr (by rw [same]) whole.unseen
    have closed : u.guardsClosed k.guardMap = s.guardsClosed k.guardMap := whole.guardsClosed _
    have allowed : u.homeAllowed = true := by
      rw [homeAllowed_iff, whole.mode]
      exact open'
    obtain ⟨searches, refused⟩ := autoHome_cases (s := u) (c := c) (k := k) (by rw [same]; exact hk) enabled auto
      (by rw [same]) allowed
    rw [gated, closed] at searches refused
    rw [hx, chan]
    refine ⟨fun hg hc => ?_, fun h => ?_⟩
    · rw [searches hg hc, same]
      exact ⟨rfl, rfl⟩
    · rw [refused h, same]
      exact ⟨rfl, rfl⟩

end Wakes

/-- Settles O17: LINE-LOST cleared, the channels woken one after another (`modeTold_woken`) and sent home
(`autoHome_cases`), the frame passed on. -/
theorem pulseWakesNode : Obligations.PulseWakesNode := by
  intro env p m s hb h0 ha hd hp hm ht hne hn hold
  have known : m = .opened ∨ m = .quiet ∨ m = .service := by
    unfold modeOfCode at hm
    split at hm <;> cases hm
    · exact .inl rfl
    · exact .inr (.inl rfl)
    · exact absurd rfl hne
    · exact .inr (.inr rfl)
  have awake : s.Awake := .inl (by rw [hn]; exact NodeState.noConfusion)
  have heard := heard_gentle awake (numAt p 1 3)
  have hmode : (s.heard (numAt p 1 3)).mode = (s.listened (numAt p 1 3)).mode := heard.mild.mode
  have node : (s.heard (numAt p 1 3)).mode.node = .dormant := by rw [hmode]; exact hn
  have old : (s.heard (numAt p 1 3)).mode.mode = .closed := by rw [hmode]; exact hold
  obtain ⟨mode, effect⟩ := changeMode_wakes node hne
  have awake' : ((s.heard (numAt p 1 3)).changeMode m).Awake := .inl (by rw [mode]; exact NodeState.noConfusion)
  have passed := gentle_passOn awake' (frameOf 0x01 env p)
  have final := passed.mild.mode.trans mode
  refine ⟨_, exec_pulse_changes hb h0 ha hd hp hm ht (by rw [hold]; exact hne), ?_, ?_, ?_, ?_, fun lost => ?_,
    fun c k hk haside hs => ?_⟩
  · rw [final]
  · exact (passed.mild.effect.trans effect).trans heard.mild.effect
  · rw [final]
  · rw [final, hmode]
    rfl
  · rw [final, hmode]
    exact if_pos lost
  · have same : (s.heard (numAt p 1 3)).chan c = s.chan c := by
      refine heard_chan awake _ ?_ ?_ <;> rw [hs] <;> exact ChanState.noConfusion
    have gated := heard_gated awake same
    have closed : (s.heard (numAt p 1 3)).guardsClosed k.guardMap = s.guardsClosed k.guardMap :=
      guardsClosed_congr heard.mild.guards _
    have woken := changeMode_woken node old known (same ▸ hk) (same ▸ haside) (same ▸ hs) (c := c) rfl
    rw [same, gated, closed] at woken
    obtain ⟨idles, others⟩ := woken
    have kept : ∀ st, (((s.heard (numAt p 1 3)).changeMode m).chan c).state = st → st ≠ .halted → st ≠ .fault →
        ((((s.heard (numAt p 1 3)).changeMode m).passOn (frameOf 0x01 env p)).chan c) =
          ((s.heard (numAt p 1 3)).changeMode m).chan c := by
      rintro st rfl h1 h2
      exact passed.stays c (stays_of_state h1 h2)
    refine ⟨fun rested holds => ?_, fun lost => ⟨fun h => ?_, fun service auto enabled => ⟨fun hg hc => ?_, fun h => ?_⟩⟩⟩
    · obtain ⟨state, position⟩ := idles rested holds
      rw [kept _ state ChanState.noConfusion ChanState.noConfusion]
      exact ⟨state, position⟩
    · have state := (others lost).1 h
      rw [kept _ state ChanState.noConfusion ChanState.noConfusion]
      exact state
    · obtain ⟨state, refused⟩ := ((others lost).2 service auto enabled).1 hg hc
      rw [kept _ state ChanState.noConfusion ChanState.noConfusion]
      exact ⟨state, refused⟩
    · obtain ⟨state, refused⟩ := ((others lost).2 service auto enabled).2 h
      rw [kept _ state ChanState.noConfusion ChanState.noConfusion]
      exact ⟨state, refused⟩

end Sys2Proof.Machine
end

