-- ==== Sys2Proof/Proofs/Ceilings.lean ====
section
/-! PROOF. A change of mode, channel by channel (R101, R102, R108): the ceilings, the channels parked at the entry into
CLOSING, and the rest that may follow (R31). -/
namespace Sys2Proof.Machine

/-! ## A channel parked (R102) -/

section Park
variable {s : State} {c : Fin 4} {p : Fin 32}

theorem parkChannel_moving (h : (s.chan c).state = .moving) : s.parkChannel c =
    (((s.cancelOwed c).withChan c ((s.chan c).stopWith .stopped)).channelLamps c).withChan c
      { (s.chan c).stopWith .stopped with slot := (s.chan c).park } := by
  have own : (((s.cancelOwed c).withChan c ((s.chan c).stopWith .stopped)).channelLamps c).chan c =
      (s.chan c).stopWith .stopped := by
    rw [channelLamps_chan, chan_withChan, if_pos rfl]
  unfold State.parkChannel
  rw [h]
  dsimp only
  rw [enterStopping_moving h, own]

theorem parkChannel_begins (hs : (s.chan c).state = .idle) (hp : (s.chan c).park = some p) (hg : s.gated c = false)
    (hc : s.guardsClosed (s.chan c).guardMap = true) : s.parkChannel c = (s.begun c p).arbitrate := by
  unfold State.parkChannel
  rw [hs, hp]
  exact (if_pos ⟨hg, hc⟩).trans (beginProfile_eq s c p)

theorem parkChannel_stands (hm : (s.chan c).state ≠ .moving) (h : (s.chan c).state ≠ .idle ∨ (s.chan c).park = none ∨
    s.gated c = true ∨ s.guardsClosed (s.chan c).guardMap = false) : s.parkChannel c = s := by
  unfold State.parkChannel
  split
  · next e => exact absurd e hm
  · next p idle park =>
    refine if_neg fun ⟨hg, hc⟩ => ?_
    rcases h with h | h | h | h
    · exact h idle
    · rw [park] at h
      cases h
    · exact absurd (hg.symm.trans h) (by decide)
    · exact absurd (h.symm.trans hc) (by decide)
  · rfl

/-- What a park can do: stop a MOVING channel, begin the park profile of an IDLE one, or nothing. -/
theorem parkChannel_cases (s : State) (c : Fin 4) :
    ((s.chan c).state = .moving ∧ s.parkChannel c =
      (((s.cancelOwed c).withChan c ((s.chan c).stopWith .stopped)).channelLamps c).withChan c
        { (s.chan c).stopWith .stopped with slot := (s.chan c).park }) ∨
    (∃ p, s.parkChannel c = (s.begun c p).arbitrate) ∨ ((s.chan c).state ≠ .moving ∧ s.parkChannel c = s) := by
  by_cases hm : (s.chan c).state = .moving
  · exact .inl ⟨hm, parkChannel_moving hm⟩
  · refine .inr ?_
    cases hp : (s.chan c).park with
    | none => exact .inr ⟨hm, parkChannel_stands hm (.inr (.inl hp))⟩
    | some p =>
      by_cases begins : (s.chan c).state = .idle ∧ s.gated c = false ∧ s.guardsClosed (s.chan c).guardMap = true
      · obtain ⟨hs, hg, hc⟩ := begins
        exact .inl ⟨p, parkChannel_begins hs hp hg hc⟩
      · refine .inr ⟨hm, parkChannel_stands hm ?_⟩
        by_contra no
        simp only [not_or, ne_eq, not_not, Bool.not_eq_true, Bool.not_eq_false] at no
        exact begins ⟨no.1, no.2.2⟩

theorem acts_park (n : NodeState) : Acts n State.parkChannel := by
  intro s d _
  rcases parkChannel_cases s d with ⟨-, e⟩ | ⟨p, e⟩ | ⟨-, e⟩ <;> rw [e]
  · exact ⟨(((directed_cancelOwed s d).trans (directed_withChan _ d _)).trans (directed_channelLamps _ d)).trans
      (directed_withChan _ d _), fun c hc => by
        rw [chan_withChan, if_neg hc, channelLamps_chan, chan_withChan, if_neg hc, cancelOwed_chan]⟩
  · exact ⟨(directed_begun s d p).trans (directed_arbitrate _), fun c hc => by
      rw [arbitrate_chan, begun_chan, if_neg hc]⟩
  · exact ⟨.refl s, fun _ _ => rfl⟩

/-- A park that leaves a channel at rest found it so. -/
theorem parkChannel_atRest (h : ((s.parkChannel c).chan c).state.atRest = true) :
    s.parkChannel c = s ∧ (s.chan c).state ≠ .moving := by
  rcases parkChannel_cases s c with ⟨-, e⟩ | ⟨p, e⟩ | ⟨hm, e⟩
  · rw [e, chan_withChan, if_pos rfl] at h
    cases h
  · rw [e, arbitrate_chan, begun_chan, if_pos rfl] at h
    cases h
  · exact ⟨e, hm⟩

end Park

/-! ## The ceilings (R108) -/

section Ceiling
variable {m : GalleryMode} {x : Channel} {k : ChannelSettings} {g : Segment}

theorem newCeiling_kept (x : Channel) (m : GalleryMode) : x.newCeiling m =
    { x with vc := (x.newCeiling m).vc, vs := (x.newCeiling m).vs } := by
  unfold Channel.newCeiling
  split
  · split <;> rfl
  · rfl

theorem newCeiling_running (hk : x.held = .copy k) (hg : x.current = some g)
    (hs : x.state = .stopping ∨ x.state = .moving) : x.newCeiling m =
      { x with vc := convCruise m k.quietPercent g.cruise
               vs := min (convSpeed k.startSpeed) (convCruise m k.quietPercent g.cruise) } := by
  unfold Channel.newCeiling
  rw [hk, hg]
  exact if_pos hs.symm

end Ceiling

/-! ## The change, channel by channel -/

section Change
variable {s : State} {m : GalleryMode} {c : Fin 4} {f : Frame} {p : Fin 32}

theorem modeTold_parks (hn : s.mode.node = .active) :
    s.modeTold .closed = four.foldl State.parkChannel (s.modeSet .closed) := by
  have closing : nodeAfter .active .closed = .closing := rfl
  unfold State.modeTold
  rw [hn, closing]

theorem modeTold_other (hn : ¬ (s.mode.node = .active ∧ m = .closed)) (hd : ¬ (s.mode.node = .dormant ∧ m ≠ .closed)) :
    s.modeTold m = s.modeSet m := by
  unfold State.modeTold
  split
  · next e k =>
    refine absurd ⟨e, ?_⟩ hn
    rw [e] at k
    by_contra no
    rw [nodeAfter_open NodeState.noConfusion no] at k
    cases k
  · next e k =>
    refine absurd ⟨e, ?_⟩ hd
    rintro rfl
    rw [e] at k
    cases k
  · rfl

theorem modeTold_directed (s : State) (m : GalleryMode) : Directed (s.modeSet m) (s.modeTold m) := by
  by_cases hp : s.mode.node = .active ∧ m = .closed
  · obtain ⟨hn, rfl⟩ := hp
    rw [modeTold_parks hn]
    exact foldl_directed (acts_park _) rfl four
  · by_cases hd : s.mode.node = .dormant ∧ m ≠ .closed
    · exact modeTold_directed_wakes hd.1 hd.2
    · rw [modeTold_other hp hd]
      exact .refl _

theorem modeSet_gated (s : State) (m : GalleryMode) (c : Fin 4) : (s.modeSet m).gated c = s.gated c :=
  gated_congr (by rw [modeSet_chan, newCeiling_kept]) fun _ _ => Iff.rfl

/-- A channel of a node that enters CLOSING is parked, from its new ceiling. -/
theorem modeHomed_parked (hn : s.mode.node = .active) (c : Fin 4) : ∃ u, Directed (s.modeSet .closed) u ∧
    u.chan c = (s.chan c).newCeiling .closed ∧ (s.modeHomed .closed).chan c = (u.parkChannel c).chan c := by
  have stands := (modeHomed_chan s .closed c).2 (by cases s.mode.mode <;> rfl)
  obtain ⟨u, directed, same, chan⟩ := foldl_acts (s := s.modeSet .closed) (c := c) (l := four) (acts_park _) rfl
    (by decide) (by fin_cases c <;> decide)
  exact ⟨u, directed, same.trans (modeSet_chan ..), stands.trans (by rw [modeTold_parks hn]; exact chan)⟩

/-- A channel that stands through the telling and auto-home, whatever the change. -/
theorem modeHomed_stands (hs : (s.chan c).state = .stopping ∨
    ((s.chan c).state = .moving ∧ ¬ (m = .closed ∧ s.mode.node = .active))) :
    (s.modeHomed m).chan c = (s.chan c).newCeiling m := by
  have state : ((s.chan c).newCeiling m).state = (s.chan c).state := by rw [newCeiling_kept]
  have moves : (s.chan c).state = .stopping ∨ (s.chan c).state = .moving := hs.imp id And.left
  have told : (s.modeTold m).chan c = (s.chan c).newCeiling m := by
    by_cases hp : s.mode.node = .active ∧ m = .closed
    · obtain ⟨hn, rfl⟩ := hp
      have stopping : (s.chan c).state = .stopping := hs.resolve_right fun h => h.2 ⟨rfl, hn⟩
      obtain ⟨u, -, same, chan⟩ := foldl_acts (s := s.modeSet .closed) (c := c) (l := four) (acts_park _) rfl
        (by decide) (by fin_cases c <;> decide)
      have own : u.chan c = (s.chan c).newCeiling .closed := same.trans (modeSet_chan ..)
      rw [modeTold_parks hn, chan, parkChannel_stands ?_ (.inl ?_), own] <;> rw [own, state, stopping] <;>
        exact ChanState.noConfusion
    · by_cases hd : s.mode.node = .dormant ∧ m ≠ .closed
      · have awake : (s.modeSet m).mode.node = .active := by
          rw [modeSet_node, hd.1, nodeAfter_open NodeState.noConfusion hd.2]
        obtain ⟨u, -, same, chan⟩ := foldl_acts (c := c) (l := four) acts_wake awake (by decide)
          (by fin_cases c <;> decide)
        have own : u.chan c = (s.chan c).newCeiling m := same.trans (modeSet_chan ..)
        rw [modeTold_wakes hd.1 hd.2, chan, wakeChannel_other ?_, own]
        rw [own, state]
        rcases moves with e | e <;> rw [e] <;> exact ChanState.noConfusion
      · rw [modeTold_other hp hd]
        exact modeSet_chan ..
  obtain ⟨homes, stands⟩ := modeHomed_chan s m c
  cases applies : autoHomeApplies s.mode.mode m with
  | false => exact (stands applies).trans told
  | true =>
    obtain ⟨u, -, same, chan⟩ := homes applies
    rw [chan, autoHomeChannel_stands (.inr (.inr ?_)), same, told]
    rw [same, told, state]
    rcases moves with e | e <;> rw [e] <;> exact ChanState.noConfusion

/-! ## The rest test, and the frame passed on -/

theorem offered_chan (s : State) (t : Trigger) (c : Fin 4) : (s.offerTrigger t).chan c = s.chan c := by
  rw [State.chan, (offerTrigger_parts s t).1, State.chan]

theorem changeMode_cases (s : State) (m : GalleryMode) :
    s.changeMode m = (s.modeHomed m).offerTrigger (.modeEntry m) ∨
    (s.mode.node = .active ∧ m = .closed ∧
      s.changeMode m = ((s.modeHomed m).offerTrigger (.modeEntry m)).restTest) := by
  by_cases h : s.mode.node = .active ∧ m = .closed
  · exact .inr ⟨h.1, h.2, (changeMode_eq s m).trans (if_pos h)⟩
  · exact .inl ((changeMode_eq s m).trans (if_neg h))

/-- A channel in motion after the change has no rest test pass, and stands to the end. -/
theorem changed_inMotion (h : ((s.modeHomed m).chan c).state.inMotion = true) (f : Frame) :
    ((s.changeMode m).passOn f).chan c = (s.modeHomed m).chan c := by
  have moving : (((s.modeHomed m).offerTrigger (.modeEntry m)).chan c).state.inMotion = true := by
    rw [offered_chan]
    exact h
  have offered : s.changeMode m = (s.modeHomed m).offerTrigger (.modeEntry m) := by
    rcases changeMode_cases s m with e | ⟨-, -, e⟩
    · exact e
    · exact e.trans (restTest_inMotion moving)
  rw [offered, (gentle_passOn (awake_inMotion moving) f).stays c (stays_inMotion moving), offered_chan]

/-- A node that enters CLOSING and does not come to rest: a channel that no record binds stands to the end. -/
theorem changed_closing (hn : s.mode.node = .active) (f : Frame)
    (hd : ((s.changeMode .closed).passOn f).mode.node ≠ .dormant) (h1 : ((s.modeHomed .closed).chan c).state ≠ .halted)
    (h2 : ((s.modeHomed .closed).chan c).state ≠ .fault) :
    ((s.changeMode .closed).passOn f).chan c = (s.modeHomed .closed).chan c := by
  have tested : s.changeMode .closed = ((s.modeHomed .closed).offerTrigger (.modeEntry .closed)).restTest :=
    (changeMode_eq s .closed).trans (if_pos ⟨hn, rfl⟩)
  have awake : (s.changeMode .closed).Awake := by rw [tested]; exact awake_restTest _
  have passed := gentle_passOn awake f
  have same : s.changeMode .closed = (s.modeHomed .closed).offerTrigger (.modeEntry .closed) := by
    rw [tested]
    unfold State.restTest
    refine if_neg fun due => hd ?_
    rw [passed.mild.mode, tested, State.restTest, if_pos due]
    rfl
  have chan : (s.changeMode .closed).chan c = (s.modeHomed .closed).chan c := by rw [same, offered_chan]
  rw [passed.stays c (stays_of_state (by rw [chan]; exact h1) (by rw [chan]; exact h2)), chan]

/-- A node that comes to rest as it enters CLOSING: each channel rests in the state that it was in. -/
theorem changed_rests (hn : s.mode.node = .active) (f : Frame)
    (hd : ((s.changeMode .closed).passOn f).mode.node = .dormant) (c : Fin 4) :
    ((s.changeMode .closed).passOn f).chan c = (s.chan c).enterResting := by
  have tested : s.changeMode .closed = ((s.modeHomed .closed).offerTrigger (.modeEntry .closed)).restTest :=
    (changeMode_eq s .closed).trans (if_pos ⟨hn, rfl⟩)
  have awake : (s.changeMode .closed).Awake := by rw [tested]; exact awake_restTest _
  have passed := gentle_passOn awake f
  have closing : ((s.modeHomed .closed).offerTrigger (.modeEntry .closed)).mode.node = .closing := by
    rw [(offerTrigger_parts ..).2.1, (modeHomed_directed s .closed).mode, (modeTold_directed s .closed).mode,
      modeSet_node, hn]
    rfl
  have due : ((s.modeHomed .closed).offerTrigger (.modeEntry .closed)).restPasses = true := by
    by_contra no
    rw [passed.mild.mode, tested, restTest_fails (.inr (by simpa using no)), closing] at hd
    cases hd
  have resting : (s.changeMode .closed).chan c = ((s.modeHomed .closed).chan c).enterResting := by
    rw [tested, restTest_passes closing due, enterDormant_chan, offered_chan]
  have rest : ((s.modeHomed .closed).chan c).state.atRest = true := by
    rw [← offered_chan]
    exact (restPasses_eq.mp due).1 c
  obtain ⟨u, -, own, parked⟩ := modeHomed_parked hn c
  rw [parked] at rest
  obtain ⟨same, unmoved⟩ := parkChannel_atRest rest
  rw [same, own] at rest
  rw [own] at unmoved
  have still : (s.chan c).newCeiling .closed = s.chan c := by
    have state : ((s.chan c).newCeiling .closed).state = (s.chan c).state := by rw [newCeiling_kept]
    rw [state] at rest unmoved
    refine newCeiling_still unmoved fun e => ?_
    rw [e] at rest
    cases rest
  have resting' : (s.changeMode .closed).chan c = (s.chan c).enterResting := by
    rw [resting, parked, same, own, still]
  rw [passed.stays c ?_, resting']
  refine stays_of_state ?_ ?_ <;> rw [resting', enterResting_state] <;> exact ChanState.noConfusion

end Change

end Sys2Proof.Machine
end

