-- ==== Sys2Proof/Proofs/Pulses.lean ====
section
/-! PROOF. A PULSE with another mode (R24, R25): the parts of the node it leaves alone, MODE-ENTRY offered, and the whole
put together. -/
namespace Sys2Proof.Machine

section Parts
variable {s : State} {m : GalleryMode} {f : Frame}

theorem sent_record {t : State} (h : Sent s t) (r : LineRecord) :
    Sent { s with ring.record := r } { t with ring.record := r } := by
  have := congrArg (fun x : State => { x with ring.record := r }) h
  exact this

/-- The change before MODE-ENTRY is offered. -/
theorem modeHomed_set (s : State) (m : GalleryMode) : Directed (s.modeSet m) (s.modeHomed m) :=
  (modeTold_directed s m).trans (modeHomed_directed s m)

theorem changeMode_retold (s : State) (m : GalleryMode) :
    Retold ((s.modeHomed m).offerTrigger (.modeEntry m)) (s.changeMode m) := by
  rcases changeMode_cases s m with e | ⟨-, -, e⟩ <;> rw [e]
  · exact .refl _
  · exact retold_restTest _

theorem changeMode_told (s : State) (m : GalleryMode) :
    Told ((s.modeHomed m).offerTrigger (.modeEntry m)) (s.changeMode m) := by
  rcases changeMode_cases s m with e | ⟨-, -, e⟩ <;> rw [e]
  · exact .refl _
  · exact told_restTest _

theorem changed_sent (s : State) (m : GalleryMode) (f : Frame) : ∃ r,
    r.triggerDrops = ((s.modeHomed m).offerTrigger (.modeEntry m)).ring.record.triggerDrops ∧
    Sent { (s.modeHomed m).offerTrigger (.modeEntry m) with ring.record := r } ((s.changeMode m).passOn f) := by
  obtain ⟨r, drops, passed⟩ := sent_passOn (s.changeMode m) f
  have told := (changeMode_told s m).sent
  exact ⟨r, drops.trans (by rw [told.record]), (sent_record told r).trans passed⟩

theorem changed_retold (s : State) (m : GalleryMode) (f : Frame) :
    Retold ((s.modeHomed m).offerTrigger (.modeEntry m)) ((s.changeMode m).passOn f) :=
  (changeMode_retold s m).trans (retold_passOn _ f)

/-- Every lamp is computed anew. -/
theorem changed_fresh (s : State) (m : GalleryMode) (f : Frame) : ((s.changeMode m).passOn f).Fresh := by
  have homed : (s.modeHomed m).Fresh := by
    unfold State.modeHomed
    split
    · exact fresh_autoHomes (fresh_allLamps _) four
    · exact fresh_allLamps _
  have offered := fresh_offerTrigger homed (.modeEntry m)
  refine fresh_passOn ?_ f
  rcases changeMode_cases s m with e | ⟨-, -, e⟩ <;> rw [e]
  · exact offered
  · exact fresh_restTest offered

theorem changed_btn (s : State) (m : GalleryMode) (f : Frame) (b : Fin 16) :
    ((s.changeMode m).passOn f).btn b = { s.btn b with lamp := ((s.changeMode m).passOn f).lampFor b } := by
  have offered : ((s.modeHomed m).offerTrigger (.modeEntry m)).btn b = (s.modeHomed m).btn b := by
    rw [State.btn, (offerTrigger_parts ..).2.2.2.2.1, State.btn]
  have set : (s.modeSet m).btn b = s.btn b := rfl
  have last := (changed_retold s m f).btn b
  rw [changed_fresh s m f b, offered, (modeHomed_set s m).btn b, set] at last
  exact last

/-- What of the mode unit a change and the frame passed on leave alone. -/
theorem changed_mode (s : State) (m : GalleryMode) (f : Frame) : ((s.changeMode m).passOn f).mode =
    { s.mode with mode := m, node := ((s.changeMode m).passOn f).mode.node } := by
  obtain ⟨r, -, sent⟩ := changed_sent s m f
  have set : (s.modeSet m).mode = { s.mode with mode := m, node := nodeAfter s.mode.node m } := rfl
  have offered : ((s.modeHomed m).offerTrigger (.modeEntry m)).mode =
      { s.mode with mode := m, node := nodeAfter s.mode.node m } := by
    rw [(offerTrigger_parts ..).2.1, (modeHomed_set s m).mode, set]
  have mode := sent_mode sent
  rw [show ({ (s.modeHomed m).offerTrigger (.modeEntry m) with ring.record := r } : State).mode =
    ((s.modeHomed m).offerTrigger (.modeEntry m)).mode from rfl, offered] at mode
  exact mode

/-- The node state that a change leads to, from which a CLOSING node may come to rest. -/
theorem changed_node (s : State) (m : GalleryMode) (f : Frame) :
    (((s.changeMode m).passOn f).mode.node = nodeAfter s.mode.node m ∧
      ((s.changeMode m).passOn f).effect = s.effect) ∨
    (nodeAfter s.mode.node m = .closing ∧ ((s.changeMode m).passOn f).mode.node = .dormant) := by
  obtain ⟨-, mode, effect, -⟩ := offerTrigger_parts (s.modeHomed m) (.modeEntry m)
  have node : ((s.modeHomed m).offerTrigger (.modeEntry m)).mode.node = nodeAfter s.mode.node m := by
    rw [mode, (modeHomed_set s m).mode]
    rfl
  have same : ((s.modeHomed m).offerTrigger (.modeEntry m)).effect = s.effect :=
    effect.trans (modeHomed_set s m).effect
  have rest := (changed_retold s m f).rest
  rw [node, same] at rest
  exact rest

theorem changed_kept (s : State) (m : GalleryMode) (f : Frame) :
    ((s.changeMode m).passOn f).motion.guards = s.motion.guards ∧
    ((s.changeMode m).passOn f).mem.words = s.mem.words ∧ ((s.changeMode m).passOn f).mgmt = s.mgmt ∧
    ((s.changeMode m).passOn f).straps = s.straps ∧ ((s.changeMode m).passOn f).sampling = s.sampling ∧
    ((s.changeMode m).passOn f).ring.lossTimer = s.ring.lossTimer := by
  obtain ⟨r, -, sent⟩ := changed_sent s m f
  have homed := modeHomed_set s m
  obtain ⟨q, d, a, p, w, e⟩ := offerTrigger_eq (s.modeHomed m) (.modeEntry m)
  rw [e] at sent
  refine ⟨sent.guards.trans homed.guards, (congrArg (·.words) sent.mem).trans homed.moved.2, sent.mgmt.trans homed.mgmt,
    sent.straps.trans homed.straps, sent.sampling.trans homed.sampling,
    sent.lossTimer.trans (congrArg (·.lossTimer) homed.ring)⟩

/-! ## MODE-ENTRY offered (R25, R38) -/

theorem offerTrigger_full {t : Trigger} (h : 16 ≤ s.cue.queue.length) : s.offerTrigger t = s.countTriggerDrop :=
  if_neg (Nat.not_lt.mpr h)

theorem offerTrigger_scans {t : Trigger} (hi : s.cue.dispatch = .idle) (hq : s.cue.queue = []) (hm : s.mode.mode ≠ .held) :
    (s.offerTrigger t).cue.queue = [] ∧ (s.offerTrigger t).cue.dispatch = .scanning t 0 [] := by
  have taken : s.offerTrigger t =
      ({ s with cue := { s.cue with queue := [], dispatch := .scanning t 0 [] } } : State).arbitrate := by
    unfold State.offerTrigger
    rw [if_pos (by rw [hq]; decide)]
    unfold State.takeTrigger
    simp only [hi, hq, List.nil_append, if_neg hm]
  rw [taken, (arbitrate_parts _).2.2.2]
  exact ⟨rfl, rfl⟩

/-- MODE-ENTRY waits, is dropped, or is scanned. -/
theorem changed_cue (s : State) {m : GalleryMode} (hm : m ≠ .held) (f : Frame) :
    (s.cue.dispatch ≠ .idle → s.cue.queue.length < 16 →
      ((s.changeMode m).passOn f).cue.queue = s.cue.queue ++ [.modeEntry m] ∧
      ((s.changeMode m).passOn f).cue.dispatch = s.cue.dispatch) ∧
    (16 ≤ s.cue.queue.length → ((s.changeMode m).passOn f).cue = s.cue ∧
      ((s.changeMode m).passOn f).ring.record.triggerDrops = inc16 s.ring.record.triggerDrops) ∧
    (s.cue.dispatch = .idle → s.cue.queue = [] → ((s.changeMode m).passOn f).cue.queue = [] ∧
      ((s.changeMode m).passOn f).cue.dispatch = .scanning (.modeEntry m) 0 []) := by
  obtain ⟨r, drops, sent⟩ := changed_sent s m f
  have homed := modeHomed_set s m
  have cue : (s.modeHomed m).cue = s.cue := homed.cue
  have ring : (s.modeHomed m).ring = s.ring := homed.ring
  have mode : (s.modeHomed m).mode.mode = m := by rw [homed.mode]; rfl
  have last : ((s.changeMode m).passOn f).cue = ((s.modeHomed m).offerTrigger (.modeEntry m)).cue := sent.cue
  refine ⟨fun hd hq => ?_, fun hq => ?_, fun hi hq => ?_⟩
  · rw [last, offerTrigger_waits (by rw [cue]; exact hd) (by rw [cue]; exact hq)]
    exact ⟨congrArg (·.queue ++ [.modeEntry m]) cue, congrArg (·.dispatch) cue⟩
  · have full := offerTrigger_full (t := .modeEntry m) (s := s.modeHomed m) (by rw [cue]; exact hq)
    rw [full] at drops
    refine ⟨last.trans (by rw [full]; exact cue), sent.record ▸ drops.trans ?_⟩
    exact congrArg (fun u => inc16 u.record.triggerDrops) ring
  · rw [last]
    exact offerTrigger_scans (by rw [cue]; exact hi) (by rw [cue]; exact hq) (by rw [mode]; exact hm)

end Parts

/-! ## Each channel, from the PULSE to the end -/

section Channels
variable {s : State} {m : GalleryMode} {c : Fin 4} {k : ChannelSettings} {q : Fin 32}

theorem heard_active (hn : s.mode.node = .active) (n : Nat) : (s.heard n).mode.node = .active := by
  have awake : s.Awake := .inl (by rw [hn]; exact NodeState.noConfusion)
  rw [(heard_gentle awake n).mild.mode]
  exact hn

/-- A MOVING channel, parked. -/
theorem pulse_parks (hn : s.mode.node = .active) (hk : (s.chan c).held = .copy k) (hs : (s.chan c).state = .moving)
    (n : Nat) (f : Frame) {x : Channel} (hx : x = (((s.heard n).changeMode .closed).passOn f).chan c) :
    x.state = .stopping ∧ x.ending = some .stopped ∧ x.slot = k.park ∧ x.position = (s.chan c).position ∧
    x.held = .copy k ∧ x.aside = (s.chan c).aside := by
  have moving : (s.chan c).state.inMotion = true := by rw [hs]; rfl
  have same := heard_chan (awake_inMotion moving) n (c := c) (by rw [hs]; exact ChanState.noConfusion)
    (by rw [hs]; exact ChanState.noConfusion)
  obtain ⟨u, -, own, parked⟩ := modeHomed_parked (heard_active hn n) c
  rw [same] at own
  have ceiling := newCeiling_kept (s.chan c) .closed
  have held : ((s.chan c).newCeiling .closed).held = .copy k := by rw [ceiling]; exact hk
  have runs : (u.chan c).state = .moving := by rw [own, ceiling]; exact hs
  rw [parkChannel_moving runs, chan_withChan, if_pos rfl, own] at parked
  have stopping : (((s.heard n).modeHomed .closed).chan c).state.inMotion = true := by rw [parked]; rfl
  rw [hx, changed_inMotion stopping f, parked]
  refine ⟨rfl, rfl, ?_, ?_, held, ?_⟩
  · show ((s.chan c).newCeiling .closed).park = k.park
    unfold Channel.park
    rw [held]
  · show ((s.chan c).newCeiling .closed).position = _
    rw [ceiling]
  · show ((s.chan c).newCeiling .closed).aside = _
    rw [ceiling]

/-- An IDLE channel before its park, and what decides it. -/
theorem pulse_idle (hn : s.mode.node = .active) (hk : (s.chan c).held = .copy k) (hs : (s.chan c).state = .idle)
    (n : Nat) : ∃ u : State, u.chan c = s.chan c ∧ u.gated c = s.gated c ∧
      u.guardsClosed (u.chan c).guardMap = s.guardsClosed k.guardMap ∧ (u.chan c).park = k.park ∧
      ((s.heard n).modeHomed .closed).chan c = (u.parkChannel c).chan c := by
  have awake : s.Awake := .inl (by rw [hn]; exact NodeState.noConfusion)
  have same := heard_chan awake n (c := c) (by rw [hs]; exact ChanState.noConfusion) (by rw [hs]; exact ChanState.noConfusion)
  obtain ⟨u, directed, own, parked⟩ := modeHomed_parked (heard_active hn n) c
  have still : (s.chan c).newCeiling .closed = s.chan c :=
    newCeiling_still (by rw [hs]; exact ChanState.noConfusion) (by rw [hs]; exact ChanState.noConfusion)
  rw [same, still] at own
  have set : ((s.heard n).modeSet .closed).chan c = s.chan c := (modeSet_chan ..).trans (by rw [same, still])
  refine ⟨u, own, ?_, ?_, ?_, parked⟩
  · rw [directed.gated (by rw [own, set]), modeSet_gated, heard_gated awake same]
  · rw [own, guardMap_copy hk, directed.guardsClosed]
    exact guardsClosed_congr (heard_gentle awake n).mild.guards _
  · rw [own]
    unfold Channel.park
    rw [hk]

/-- An IDLE channel that begins its park profile. -/
theorem pulse_begins (hn : s.mode.node = .active) (hk : (s.chan c).held = .copy k) (hs : (s.chan c).state = .idle)
    (hp : k.park = some q) (hg : s.gated c = false) (hc : s.guardsClosed k.guardMap = true) (n : Nat) (f : Frame) :
    (((s.heard n).changeMode .closed).passOn f).chan c = (s.chan c).begin q := by
  obtain ⟨u, own, gated, closed, park, parked⟩ := pulse_idle hn hk hs n
  rw [parkChannel_begins (by rw [own]; exact hs) (park.trans hp) (gated.trans hg) (closed.trans hc), arbitrate_chan,
    begun_chan, if_pos rfl, own] at parked
  have moving : (((s.heard n).modeHomed .closed).chan c).state.inMotion = true := by rw [parked]; rfl
  rw [changed_inMotion moving f, parked]

/-- Any other IDLE channel stands, where the node does not come to rest. -/
theorem pulse_stands (hn : s.mode.node = .active) (hk : (s.chan c).held = .copy k) (hs : (s.chan c).state = .idle)
    {n : Nat} {f : Frame} (hd : (((s.heard n).changeMode .closed).passOn f).mode.node ≠ .dormant)
    (h : k.park = none ∨ s.gated c = true ∨ s.guardsClosed k.guardMap = false) :
    (((s.heard n).changeMode .closed).passOn f).chan c = s.chan c := by
  obtain ⟨u, own, gated, closed, park, parked⟩ := pulse_idle hn hk hs n
  rw [parkChannel_stands (by rw [own, hs]; exact ChanState.noConfusion) (.inr (by rw [gated, closed, park]; exact h)),
    own] at parked
  rw [changed_closing (heard_active hn n) f hd ?_ ?_, parked] <;> rw [parked, hs] <;> exact ChanState.noConfusion

/-- The ceilings of a channel that runs on. -/
theorem pulse_ceilings {g : Segment} (hk : (s.chan c).held = .copy k) (hg : (s.chan c).current = some g)
    (hs : (s.chan c).state = .stopping ∨ ((s.chan c).state = .moving ∧ ¬ (m = .closed ∧ s.mode.node = .active)))
    (n : Nat) (f : Frame) : (((s.heard n).changeMode m).passOn f).chan c =
      { s.chan c with vc := convCruise m k.quietPercent g.cruise
                      vs := min (convSpeed k.startSpeed) (convCruise m k.quietPercent g.cruise) } := by
  have runs : (s.chan c).state = .stopping ∨ (s.chan c).state = .moving := hs.imp id And.left
  have moving : (s.chan c).state.inMotion = true := by rcases runs with e | e <;> rw [e] <;> rfl
  have awake := awake_inMotion moving
  have same := heard_chan awake n (c := c) (by rcases runs with e | e <;> rw [e] <;> exact ChanState.noConfusion)
    (by rcases runs with e | e <;> rw [e] <;> exact ChanState.noConfusion)
  have node : (s.heard n).mode.node = s.mode.node := by
    rw [(heard_gentle awake n).mild.mode]
    rfl
  have ceiling := modeHomed_stands (s := s.heard n) (m := m) (c := c) (by rw [same, node]; exact hs)
  rw [same, newCeiling_running hk hg runs] at ceiling
  have moving' : (((s.heard n).modeHomed m).chan c).state.inMotion = true := by rw [ceiling]; exact moving
  rw [changed_inMotion moving' f, ceiling]

/-- A channel of a node that comes to rest at once. -/
theorem pulse_rests (hn : s.mode.node = .active) (hl : s.mode.lineLost = false) {n : Nat} {f : Frame}
    (hd : (((s.heard n).changeMode .closed).passOn f).mode.node = .dormant) {x : Channel}
    (hx : x = { s.chan c with restState := some (s.chan c).state, state := .resting, aside := none }) :
    ((s.chan c).aside = none → (((s.heard n).changeMode .closed).passOn f).chan c = x) ∧
    ∀ h, (s.chan c).aside = some h → (((s.heard n).changeMode .closed).passOn f).chan c = x.replaceHeld h := by
  have same : (s.heard n).chan c = s.chan c := by
    rw [heard_clear hl]
    rfl
  rw [changed_rests (heard_active hn n) f hd c, same, hx]
  refine ⟨fun ha => ?_, fun h ha => ?_⟩
  · rw [enterResting_eq ha, ← ha]
  · unfold Channel.enterResting Channel.takeAside
    rw [ha]
    rfl

end Channels

/-! ## The whole PULSE -/

section Whole
variable {s : State} {m : GalleryMode}

/-- What the node keeps, and the mode unit, after a PULSE with another mode. -/
theorem pulse_kept (s : State) (m : GalleryMode) (n : Nat) (f : Frame) {t : State}
    (ht : t = ((s.heard n).changeMode m).passOn f) :
    t.mode = { (s.listened n).mode with mode := m, node := t.mode.node } ∧
    t.ring.lossTimer = some (s.ring.lossUnits * 10) ∧ t.motion.guards = s.motion.guards ∧
    t.mem.words = s.mem.words ∧ t.mgmt = s.mgmt ∧ t.straps = s.straps ∧ t.sampling = s.sampling ∧
    ∀ b, t.btn b = { s.btn b with lamp := t.lampFor b } := by
  subst ht
  have heard := heard_sent s n
  obtain ⟨guards, words, mgmt, straps, sampling, timer⟩ := changed_kept (s.heard n) m f
  refine ⟨?_, timer.trans heard.lossTimer, guards.trans heard.guards, words.trans (congrArg (·.words) heard.mem),
    mgmt.trans heard.mgmt, straps.trans heard.straps, sampling.trans heard.sampling, fun b => ?_⟩
  · have mode := changed_mode (s.heard n) m f
    rw [sent_mode heard] at mode
    exact mode
  · have btn := changed_btn (s.heard n) m f b
    rw [(heard_retold s n).btn b] at btn
    exact btn

/-- MODE-ENTRY after a PULSE. -/
theorem pulse_cue (s : State) (hm : m ≠ .held) (n : Nat) (f : Frame) {t : State}
    (ht : t = ((s.heard n).changeMode m).passOn f) :
    (s.cue.dispatch ≠ .idle → s.cue.queue.length < 16 →
      t.cue.queue = s.cue.queue ++ [.modeEntry m] ∧ t.cue.dispatch = s.cue.dispatch) ∧
    (16 ≤ s.cue.queue.length → t.cue = s.cue ∧
      t.ring.record.triggerDrops = inc16 s.ring.record.triggerDrops) ∧
    (s.cue.dispatch = .idle → s.cue.queue = [] →
      t.cue.queue = [] ∧ t.cue.dispatch = .scanning (.modeEntry m) 0 []) := by
  have heard := heard_sent s n
  have cue : (s.heard n).cue = s.cue := heard.cue
  have record : (s.heard n).ring.record = s.ring.record := heard.record
  have offered := changed_cue (s.heard n) hm f
  rw [cue, record, ← ht] at offered
  exact offered

/-- The node state after a PULSE, and the effect outputs of a node that does not come to rest. -/
theorem pulse_node (hn : s.mode.node ≠ .bypass) (n : Nat) (f : Frame) {t : State}
    (ht : t = ((s.heard n).changeMode m).passOn f) :
    (m ≠ .closed → t.mode.node = .active) ∧
    (m = .closed → s.mode.node = .active → t.mode.node = .closing ∨ t.mode.node = .dormant) ∧
    (s.mode.node ≠ .closing ∨ s.mode.lineLost = false → t.mode.node ≠ .dormant → t.effect = s.effect) := by
  have changed := changed_node (s.heard n) m f
  rw [← ht] at changed
  refine ⟨fun hm => ?_, ?_, fun h hd => ?_⟩
  · have up : (s.heard n).mode.node ≠ .bypass := by
      rcases (heard_retold s n).rest with ⟨node, -⟩ | ⟨-, node⟩
      · rw [node]
        exact hn
      · rw [node]
        exact NodeState.noConfusion
    rw [nodeAfter_open up hm] at changed
    rcases changed with ⟨node, -⟩ | ⟨closing, -⟩
    · exact node
    · exact NodeState.noConfusion closing
  · rintro rfl hs
    exact changed.imp (fun h => by rw [h.1, heard_active hs]; rfl) And.right
  · have effect : (s.heard n).effect = s.effect := by
      rcases (heard_retold s n).rest with ⟨-, effect⟩ | ⟨closing, -⟩
      · exact effect
      · rcases h with no | clear
        · exact absurd closing no
        · rw [heard_clear clear]
          rfl
    rcases changed with ⟨-, same⟩ | ⟨-, dormant⟩
    · exact same.trans effect
    · exact absurd dormant hd

end Whole

/-- Settles O16: LINE-LOST cleared (`heard_sent`), the ceilings and parks channel by channel (`pulse_parks` to
`pulse_rests`), MODE-ENTRY (`pulse_cue`), and lamps that stay fresh to the end (`changed_fresh`). -/
theorem pulseChangesMode : Obligations.PulseChangesMode := by
  intro env p m s hb h0 ha hd hp hm ht hne hn
  have known : m ≠ .held := by
    rintro rfl
    unfold modeOfCode at hm
    split at hm <;> cases hm
  obtain ⟨t, e⟩ : ∃ t, t = ((s.heard (numAt p 1 3)).changeMode m).passOn (frameOf 0x01 env p) := ⟨_, rfl⟩
  obtain ⟨mode, timer, guards, words, mgmt, straps, sampling, btn⟩ := pulse_kept s m _ _ e
  obtain ⟨waits, full, scans⟩ := pulse_cue s known _ _ e
  obtain ⟨wakes, closes, effect⟩ := pulse_node hn _ _ e
  refine ⟨t, by rw [exec_pulse_changes hb h0 ha hd hp hm ht hne, e], by rw [mode], by rw [mode]; rfl, by rw [mode]; rfl,
    by rw [mode]; rfl, timer, wakes, closes, effect, guards, words, mgmt, straps, sampling, waits, full, scans, btn, ?_,
    fun c k hk => ⟨?_, fun g vc hg hs hvc => ?_⟩⟩
  · rintro rfl active dormant clear c x hx
    subst e
    exact pulse_rests active clear dormant hx
  · rintro rfl active
    refine ⟨fun hs => pulse_parks active hk hs _ _ (by rw [e]), fun q hs park hg hc => ?_, fun hs up h => ?_⟩
    · rw [e, pulse_begins active hk hs park hg hc]
      exact ⟨rfl, rfl, rfl, rfl, rfl, rfl, rfl⟩
    · subst e
      exact pulse_stands active hk hs up h
  · have ceiling : vc = convCruise m k.quietPercent g.cruise := hvc
    rw [e, pulse_ceilings hk hg hs, ceiling]
    rfl

end Sys2Proof.Machine
end

