-- ==== Sys2Proof/Proofs/Dispatch.lean ====
section
/-! PROOF. The trigger queue (R38, R39), and the dispatch as its actions are handed on and recalled (R39, R43, R44,
R47, R57). -/
namespace Sys2Proof.Machine

/-! ## An offered trigger (R38, R39) -/

section Queue
variable {s : State} {t : Trigger}

/-- In HELD nothing of an offered trigger is kept at an idle engine. -/
theorem offerTrigger_held (hq : s.cue.queue = []) (hi : s.cue.dispatch = .idle) (hm : s.mode.mode = .held) :
    s.offerTrigger t = s := by
  unfold State.offerTrigger
  rw [if_pos (by rw [hq]; decide), takeTrigger_held (s := { s with cue.queue := s.cue.queue ++ [t] }) hi hm]
  exact congrArg (fun q => { s with cue.queue := q }) hq.symm

/-- In any other mode an idle engine begins the scan of an offered trigger. -/
theorem offerTrigger_begins (hq : s.cue.queue = []) (hi : s.cue.dispatch = .idle) (hm : s.mode.mode ≠ .held) :
    s.offerTrigger t = ({ s with cue.dispatch := .scanning t 0 [] }).arbitrate := by
  unfold State.offerTrigger
  rw [if_pos (by rw [hq]; decide), takeTrigger_cons (s := { s with cue.queue := s.cue.queue ++ [t] }) (rest := [])
    hi hm (congrArg (· ++ [t]) hq)]
  exact congrArg (fun q => ({ s with cue.queue := q, cue.dispatch := .scanning t 0 [] } : State).arbitrate) hq.symm

end Queue

/-- Settles O19: a full queue (`offerTrigger_full`), a dispatch in progress (`offerTrigger_waits`), and an idle
engine (`offerTrigger_held`, `offerTrigger_begins`). -/
theorem triggerIsOffered : Obligations.TriggerIsOffered := fun _ _ =>
  ⟨offerTrigger_full, fun hq hd => offerTrigger_waits hd hq, offerTrigger_held, offerTrigger_begins⟩

/-! ## An action handed on (R43, R44) -/

section HandOn
variable {s : State} {t : Trigger} {i n : Nat} {acts : List Action} {a : Action}

theorem nextAction_performing (h : s.cue.dispatch = .performing t i acts n) : s.nextAction = acts[n]? := by
  simp [State.nextAction, h]

/-- An action that the engine does not hand on moves nothing. -/
theorem handOn_other (h : s.nextAction ≠ some a) : s.handOn a = s := by
  unfold State.handOn
  split
  · rename_i performing
    rw [nextAction_performing performing] at h
    exact if_neg h
  · rfl
  · rfl

/-- The action that the engine hands on moves it to the next action, or past the entry. -/
theorem handOn_performing (hd : s.cue.dispatch = .performing t i acts n) (ha : acts[n]? = some a) :
    s.handOn a = (if n + 1 < acts.length then { s with cue.dispatch := .performing t i acts (n + 1) }
      else s.nextEntry t i).arbitrate := by
  unfold State.handOn
  rw [hd]
  exact if_pos ha

theorem handOn_last (hd : s.cue.dispatch = .performing t i acts n) (ha : acts[n]? = some a)
    (hn : n + 1 = acts.length) : s.handOn a = (s.nextEntry t i).arbitrate := by
  rw [handOn_performing hd ha, if_neg (by omega)]

/-- Either nothing is granted, or an access is in progress from then on. -/
theorem arbitrate_settled (s : State) : s.arbitrate = s ∨ s.arbitrate.mem.access.isSome = true := by
  unfold State.arbitrate State.grant
  split
  · split
    · split
      · exact .inr rfl
      · exact .inl rfl
    · exact .inl rfl
  · exact .inl rfl

/-- The arbiter grants one access, and no second one after it. -/
@[simp] theorem arbitrate_arbitrate (s : State) : s.arbitrate.arbitrate = s.arbitrate := by
  rcases arbitrate_settled s with same | granted
  · rw [same, same]
  · obtain ⟨a, busy⟩ := Option.isSome_iff_exists.mp granted
    exact arbitrate_busy busy

/-- Past entry 63 the engine takes the next waiting trigger, or, in HELD, discards them all. -/
theorem handOn_past (hd : s.cue.dispatch = .performing t i acts n) (ha : acts[n]? = some a)
    (hn : n + 1 = acts.length) (hi : 63 ≤ i) :
    (s.cue.queue = [] → s.handOn a = ({ s with cue.dispatch := .idle }).arbitrate) ∧
    (s.mode.mode = .held → s.handOn a = ({ s with cue.dispatch := .idle, cue.queue := [] }).arbitrate) ∧
    (∀ u rest, s.mode.mode ≠ .held → s.cue.queue = u :: rest → s.handOn a =
      ({ s with cue.dispatch := .scanning u 0 [], cue.queue := rest }).arbitrate) := by
  rw [handOn_last hd ha hn, nextEntry_last hi]
  refine ⟨fun hq => ?_, fun hm => ?_, fun u rest hm hq => ?_⟩
  · rw [takeTrigger_nil (s := { s with cue.dispatch := .idle }) rfl hq]
  · rw [takeTrigger_held (s := { s with cue.dispatch := .idle }) rfl hm]
  · rw [takeTrigger_cons (s := { s with cue.dispatch := .idle }) rfl hm hq, arbitrate_arbitrate]

/-- A recalled action is not performed: its command takes the mark away (R47, R57). -/
theorem exec_recalled {c : Instr} (h : s.recalls a = true) (hc :
      (∃ x y, c = .start x y ∧ a = .start x y) ∨ (∃ x, c = .stop x ∧ a = .stop x) ∨
      (∃ x, c = .home x ∧ a = .home x) ∨ (∃ x y z, c = .effect x y z ∧ a = .effect x y z) ∨
      (∃ x y, c = .call x y ∧ a = .call x y) ∨ (∃ x, c = .lock x ∧ a = .lock x) ∨
      (∃ x, c = .unlock x ∧ a = .unlock x)) : exec c s = .next { s with cue.recalled := none } := by
  rcases hc with ⟨_, _, rfl, rfl⟩ | ⟨_, rfl, rfl⟩ | ⟨_, rfl, rfl⟩ | ⟨_, _, _, rfl, rfl⟩ | ⟨_, _, rfl, rfl⟩ |
    ⟨_, rfl, rfl⟩ | ⟨_, rfl, rfl⟩
  all_goals exact congrArg _ (takeAction_recalled _ h)

end HandOn

/-- Settles O21: the engine going on (`handOn_performing`, `handOn_past`), any other action (`handOn_other`), and a
recalled one (`exec_recalled`). -/
theorem actionIsHandedOn : Obligations.ActionIsHandedOn := by
  intro s a t i n acts
  refine ⟨handOn_other, nextAction_performing, fun hd ha => ⟨fun hn => ?_, fun hn hi => ?_, handOn_past hd ha⟩,
    recalls_iff a, fun h => ?_, fun h => ?_, fun h c => exec_recalled h⟩
  · rw [handOn_performing hd ha, if_pos hn]
  · rw [handOn_last hd ha hn, nextEntry_next hi]
  · simp [State.recalledBy, h]
  · simp [State.recalledBy, h]

end Sys2Proof.Machine
end

