-- ==== Sys2Proof/Proofs/CueWords.lean ====
section
/-! PROOF. What the words of a cue entry say (R40 to R43, R159): its condition, its actions, which trigger records it
matches, and when it is live. -/
namespace Sys2Proof.Machine

/-! ## The condition words -/

/-- The nodes that an entry of a trigger kind may name. -/
def sourceOk (kind : Nat) : Nat → Bool := if kind = 1 ∨ kind = 2 then sourceCode else fun _ => true

/-- The buttons or channels that it may name. -/
def subjectOk (kind : Nat) : Nat → Bool :=
  if kind = 1 then indexOrNone 16
  else if kind = 3 then fun x => decide (x < 16)
  else if kind = 2 ∨ kind = 4 then fun x => decide (x < 4) else fun _ => true

/-- The press kinds, profiles or modes that it may name. -/
def detailOk (kind : Nat) : Nat → Bool :=
  if kind = 1 ∨ kind = 3 then fun x => decide (x < 2)
  else if kind = 2 ∨ kind = 4 then indexOrNone 32
  else if kind = 5 then fun x => decide (1 ≤ x) && decide (x ≤ 4) else fun _ => true

/-- The fields of the first word of a cue entry, by its trigger kind. -/
def triggerRules (kind : Nat) : List FieldRule :=
  [codeField 0 8 (detailOk kind), codeField 8 8 (subjectOk kind), codeField 16 8 (sourceOk kind),
    codeField 24 3 (fun x => decide (x < 6)), anyValue 31 1]

/-- The fields of its second word. -/
def livenessRules : List FieldRule :=
  [anyValue 0 4, codeField 8 8 (indexOrNone 4), codeField 16 3 (fun x => decide (1 ≤ x) && decide (x ≤ 4))]

theorem cueRules_zero (w : Word) : cueRules 0 w = triggerRules (field w 24 3) := by
  unfold cueRules triggerRules sourceOk subjectOk detailOk
  rw [if_pos rfl]
  dsimp only
  split_ifs <;> rfl

theorem triggerRules_fit (kind : Nat) : ∀ q ∈ triggerRules kind, Fits q := by
  simp only [triggerRules, List.forall_mem_cons]
  exact ⟨fits_codeField (by omega), fits_codeField (by omega), fits_codeField (by omega), fits_codeField (by omega),
    fits_anyValue (by omega), by simp⟩

theorem triggerRules_apart (kind : Nat) : (triggerRules kind).Pairwise Apart := by
  simp [triggerRules, Apart, codeField, anyValue]

theorem livenessRules_fit : ∀ q ∈ livenessRules, Fits q := by
  simp only [livenessRules, List.forall_mem_cons]
  exact ⟨fits_anyValue (by omega), fits_codeField (by omega), fits_codeField (by omega), by simp⟩

theorem livenessRules_apart : livenessRules.Pairwise Apart := by
  simp [livenessRules, Apart, codeField, anyValue]

/-- The trigger kinds and operands that no entry may hold. -/
def TriggerInvalid (kind a b c : Nat) : Prop :=
  6 ≤ kind ∨ ((kind = 1 ∨ kind = 2) ∧ (a = 0 ∨ (120 < a ∧ a ≠ 255))) ∨ (kind = 1 ∧ 16 ≤ b ∧ b ≠ 255) ∨
    (kind = 3 ∧ 16 ≤ b) ∨ ((kind = 2 ∨ kind = 4) ∧ 4 ≤ b) ∨ ((kind = 1 ∨ kind = 3) ∧ 2 ≤ c) ∨
    ((kind = 2 ∨ kind = 4) ∧ 32 ≤ c ∧ c ≠ 255) ∨ (kind = 5 ∧ (c = 0 ∨ 5 ≤ c))

theorem triggerRules_ok {w : Word} {kind : Nat} (hk : field w 24 3 = kind) :
    (∀ r ∈ triggerRules kind, r.ok (field w r.lo r.len) = true) ↔
      ¬ TriggerInvalid kind (field w 16 8) (field w 8 8) (field w 0 8) := by
  have small : kind < 8 := hk ▸ field_lt w 24 3
  simp only [triggerRules, List.forall_mem_cons, anyValue, codeField, List.not_mem_nil, false_imp_iff, implies_true,
    and_true, hk, TriggerInvalid]
  generalize field w 16 8 = a, field w 8 8 = b, field w 0 8 = c
  interval_cases kind <;>
    simp [sourceOk, subjectOk, detailOk, sourceCode, indexOrNone] <;> omega

theorem triggerInvalid_or {kind a b c : Nat} {p : Prop} : TriggerInvalid kind a b c ∨ p ↔
    6 ≤ kind ∨ ((kind = 1 ∨ kind = 2) ∧ (a = 0 ∨ (120 < a ∧ a ≠ 255))) ∨ (kind = 1 ∧ 16 ≤ b ∧ b ≠ 255) ∨
      (kind = 3 ∧ 16 ≤ b) ∨ ((kind = 2 ∨ kind = 4) ∧ 4 ≤ b) ∨ ((kind = 1 ∨ kind = 3) ∧ 2 ≤ c) ∨
      ((kind = 2 ∨ kind = 4) ∧ 32 ≤ c ∧ c ≠ 255) ∨ (kind = 5 ∧ (c = 0 ∨ 5 ≤ c)) ∨ p := by
  simp only [TriggerInvalid, or_assoc]

theorem livenessRules_ok {w : Word} : (∀ r ∈ livenessRules, r.ok (field w r.lo r.len) = true) ↔
    ¬ ((4 ≤ field w 8 8 ∧ field w 8 8 ≠ 255) ∨ field w 16 3 = 0 ∨ 5 ≤ field w 16 3) := by
  simp only [livenessRules, List.forall_mem_cons, anyValue, codeField, indexOrNone, List.not_mem_nil, false_imp_iff,
    implies_true, and_true, true_and, Bool.or_eq_true, Bool.and_eq_true, decide_eq_true_eq, beq_iff_eq]
  omega

/-- A word whose codes are not all valid is damaged. -/
theorem readWord_invalid {t off i : Nat} {rotary : Bool} {w : Word} {rules : List FieldRule}
    (h : wordRules t off i rotary w = rules) (no : ¬ ∀ r ∈ rules, r.ok (field w r.lo r.len) = true) :
    readWord t off i rotary ⟨w, false⟩ = none := by
  push Not at no
  obtain ⟨r, hr, no⟩ := no
  unfold readWord
  rw [if_neg (by simp), h]
  exact applyRules_none hr (by simpa using no)

/-- The low bits of a word, as a number and back. -/
theorem ofNat_field (w : Word) (n : Nat) : BitVec.ofNat n (field w 0 n) = w.setWidth n :=
  BitVec.eq_of_toNat_eq (by simp [field])

theorem conditionOfWords_bad {d0 d1 : Delivered} (h : d0.bad = true ∨ d1.bad = true) :
    conditionOfWords [d0, d1] = none := by
  unfold conditionOfWords nthWord
  simp only [List.getD_cons_zero, List.getD_cons_succ]
  rcases h with h | h
  · rw [readWord_bad h]
  · rw [readWord_bad h]
    cases readWord 5 0 0 false d0 <;> rfl

/-- The first two words of an entry are its condition, however many follow. -/
theorem conditionOfWords_take (d0 d1 : Delivered) (ds : List Delivered) :
    conditionOfWords (d0 :: d1 :: ds) = conditionOfWords [d0, d1] := rfl

/-- A condition is damaged where one of its two words holds an invalid code. -/
theorem conditionOfWords_invalid {w0 w1 : Word}
    (h : TriggerInvalid (field w0 24 3) (field w0 16 8) (field w0 8 8) (field w0 0 8) ∨
      ((4 ≤ field w1 8 8 ∧ field w1 8 8 ≠ 255) ∨ field w1 16 3 = 0 ∨ 5 ≤ field w1 16 3)) :
    conditionOfWords [⟨w0, false⟩, ⟨w1, false⟩] = none := by
  unfold conditionOfWords nthWord
  simp only [List.getD_cons_zero, List.getD_cons_succ]
  rcases h with h | h
  · rw [readWord_invalid (t := 5) (off := 0) (cueRules_zero w0) (by rw [triggerRules_ok rfl]; exact not_not.mpr h)]
  · have second : readWord 5 1 1 false ⟨w1, false⟩ = none :=
      readWord_invalid (rules := livenessRules) rfl (by rw [livenessRules_ok]; exact not_not.mpr h)
    rw [second]
    cases readWord 5 0 0 false ⟨w0, false⟩ <;> rfl

/-- What two valid condition words say. -/
theorem conditionOfWords_valid {w0 w1 : Word}
    (h0 : ¬ TriggerInvalid (field w0 24 3) (field w0 16 8) (field w0 8 8) (field w0 0 8))
    (h1 : ¬ ((4 ≤ field w1 8 8 ∧ field w1 8 8 ≠ 255) ∨ field w1 16 3 = 0 ∨ 5 ≤ field w1 16 3)) :
    conditionOfWords [⟨w0, false⟩, ⟨w1, false⟩] =
      some ⟨w0.getLsbD 31, field w0 24 3, field w0 16 8, field w0 8 8, field w0 0 8, w1.setWidth 4,
        if field w1 8 8 = 255 then none else some (Fin.ofNat 4 (field w1 8 8)), field w1 16 3⟩ := by
  have first : readWord 5 0 0 false ⟨w0, false⟩ = some (assembled (triggerRules (field w0 24 3)) w0) :=
    readWord_some (cueRules_zero w0) ((triggerRules_ok rfl).mpr h0)
  have second : readWord 5 1 1 false ⟨w1, false⟩ = some (assembled livenessRules w1) :=
    readWord_some rfl (livenessRules_ok.mpr h1)
  have fields0 : ∀ r ∈ triggerRules (field w0 24 3),
      field (assembled (triggerRules (field w0 24 3)) w0) r.lo r.len = r.fix (field w0 r.lo r.len) := fun _ hr =>
    field_assembled hr (triggerRules_fit _) (triggerRules_apart _)
  have fields1 : ∀ r ∈ livenessRules,
      field (assembled livenessRules w1) r.lo r.len = r.fix (field w1 r.lo r.len) := fun _ hr =>
    field_assembled hr livenessRules_fit livenessRules_apart
  have enabled : flag (assembled (triggerRules (field w0 24 3)) w0) 31 = w0.getLsbD 31 :=
    flag_assembled (lo := 31) (len := 1) (by simp [triggerRules]) (triggerRules_fit _) (triggerRules_apart _)
      (by omega) (by omega)
  simp only [triggerRules, livenessRules, List.forall_mem_cons, codeField, anyValue, id] at fields0 fields1
  obtain ⟨detail, subject, source, kind, -⟩ := fields0
  obtain ⟨modes, idle, count, -⟩ := fields1
  unfold conditionOfWords nthWord
  simp only [List.getD_cons_zero, List.getD_cons_succ, first, second, enabled]
  simp only [triggerRules, livenessRules, codeField, anyValue] at *
  rw [detail, subject, source, kind, modes, idle, count, ofNat_field]
  rfl

/-! ## The action words -/

/-- The fields of an action word beside its kind. -/
def actionFields : Nat → List FieldRule
  | 0 => [anyValue 16 2, anyValue 0 5]
  | 1 => [anyValue 0 4]
  | 2 => [anyValue 0 4]
  | 3 => [anyValue 25 3, numField 16 9 (fixLevel 9), anyValue 0 16]
  | 4 => [anyValue 0 4, codeField 8 2 (fun x => decide (x < 3))]
  | 5 => [anyValue 0 16]
  | 6 => [anyValue 0 16]
  | _ => []

/-- The fields of an action word of a kind. -/
def actionRules (kind : Nat) : List FieldRule := codeField 28 4 (fun x => decide (x < 7)) :: actionFields kind

theorem cueRules_action (w : Word) : cueRules 2 w = actionRules (field w 28 4) := rfl

theorem actionRules_fit (kind : Nat) : ∀ q ∈ actionRules kind, Fits q := by
  have level : Fits (numField 16 9 (fixLevel 9)) := fits_numField (by omega) fun x _ => fixLevel_lt 9 x
  have value : ∀ {lo len : Nat}, lo + len ≤ 32 → Fits (anyValue lo len) := fits_anyValue
  refine List.forall_mem_cons.mpr ⟨fits_codeField (by omega), ?_⟩
  unfold actionFields
  split
  all_goals simp only [List.forall_mem_cons, List.not_mem_nil, false_imp_iff, implies_true, and_true]
  · exact ⟨value (by omega), value (by omega)⟩
  · exact value (by omega)
  · exact value (by omega)
  · exact ⟨value (by omega), level, value (by omega)⟩
  · exact ⟨value (by omega), fits_codeField (by omega)⟩
  · exact value (by omega)
  · exact value (by omega)

theorem actionRules_apart (kind : Nat) : (actionRules kind).Pairwise Apart := by
  unfold actionRules actionFields
  split <;> simp [Apart, codeField, anyValue, numField]

section Actions
variable {w : Word} {k : Nat} {d : Delivered}

/-- An action word of a valid kind, its level valid where it calls. -/
theorem readWord_action (hk : field w 28 4 = k) (valid : k < 7) (level : k = 4 → field w 8 2 ≠ 3) :
    readWord 5 2 2 false ⟨w, false⟩ = some (assembled (actionRules k) w) := by
  have small := field_lt w 8 2
  refine readWord_some ((cueRules_action w).trans (by rw [hk])) (List.forall_mem_cons.mpr ⟨?_, ?_⟩)
  · simpa [codeField, hk] using valid
  · unfold actionFields
    split
    all_goals simp [anyValue, numField, codeField]
    have := level rfl
    omega

/-- Its fields read as their own rules leave them. -/
theorem field_action {r : FieldRule} (hr : r ∈ actionRules k) :
    field (assembled (actionRules k) w) r.lo r.len = r.fix (field w r.lo r.len) :=
  field_assembled hr (actionRules_fit k) (actionRules_apart k)

theorem field_action_value {lo len : Nat} (hr : anyValue lo len ∈ actionRules k) :
    field (assembled (actionRules k) w) lo len = field w lo len := field_action hr

theorem actionOfWord_bad (h : d.bad = true) : actionOfWord d = none := by
  unfold actionOfWord
  rw [readWord_bad h]

theorem actionOfWord_invalid (h : 7 ≤ field w 28 4 ∨ (field w 28 4 = 4 ∧ field w 8 2 = 3)) :
    actionOfWord ⟨w, false⟩ = none := by
  unfold actionOfWord
  rw [readWord_invalid (t := 5) (off := 2) (cueRules_action w)]
  rintro ok
  obtain ⟨kind, rest⟩ := List.forall_mem_cons.mp ok
  rcases h with h | ⟨call, level⟩
  · simp [codeField] at kind
    omega
  · rw [call] at rest
    simp [actionFields, codeField, anyValue, level] at rest

/-- The action of a kind, from the fields of its word. -/
def actionOfKind (k : Nat) (f : Nat → Nat → Nat) : Option Action :=
  match k with
  | 0 => some (.start (Fin.ofNat 4 (f 16 2)) (Fin.ofNat 32 (f 0 5)))
  | 1 => some (.stop (BitVec.ofNat 4 (f 0 4)))
  | 2 => some (.home (BitVec.ofNat 4 (f 0 4)))
  | 3 => some (.effect (Fin.ofNat 8 (f 25 3)) (signed 9 (f 16 9)) (BitVec.ofNat 16 (f 0 16)))
  | 4 => some (.call (Fin.ofNat 16 (f 0 4)) (levelOfCode (f 8 2)))
  | 5 => some (.lock (BitVec.ofNat 16 (f 0 16)))
  | 6 => some (.unlock (BitVec.ofNat 16 (f 0 16)))
  | _ => none

theorem actionOfWord_valid (hk : field w 28 4 = k) (valid : k < 7) (level : k = 4 → field w 8 2 ≠ 3) :
    actionOfWord ⟨w, false⟩ = actionOfKind k (field (assembled (actionRules k) w)) := by
  have kind : field (assembled (actionRules k) w) 28 4 = k :=
    (field_action (r := codeField 28 4 fun x => decide (x < 7)) List.mem_cons_self).trans hk
  unfold actionOfWord
  rw [readWord_action hk valid level]
  dsimp only
  rw [kind]
  rfl

/-- The fields beside the kind are fields of the word. -/
theorem mem_actionRules {r : FieldRule} (h : r ∈ actionFields k) : r ∈ actionRules k := List.mem_cons_of_mem _ h

theorem actionOfWord_start (h : field w 28 4 = 0) : actionOfWord ⟨w, false⟩ =
    some (.start (Fin.ofNat 4 (field w 16 2)) (Fin.ofNat 32 (field w 0 5))) := by
  rw [actionOfWord_valid h (by decide) nofun, actionOfKind,
    field_action_value (lo := 16) (by simp [actionRules, actionFields]),
    field_action_value (lo := 0) (by simp [actionRules, actionFields])]

/-- The mask of a STOP, a HOME, a LOCK or an UNLOCK. -/
theorem field_action_mask {n : Nat} (h : anyValue 0 n ∈ actionFields k) :
    BitVec.ofNat n (field (assembled (actionRules k) w) 0 n) = w.setWidth n := by
  rw [field_action_value (mem_actionRules h), ofNat_field]

theorem actionOfWord_stop (h : field w 28 4 = 1) : actionOfWord ⟨w, false⟩ = some (.stop (w.setWidth 4)) := by
  rw [actionOfWord_valid h (by decide) nofun, actionOfKind, field_action_mask (List.mem_singleton_self _)]

theorem actionOfWord_home (h : field w 28 4 = 2) : actionOfWord ⟨w, false⟩ = some (.home (w.setWidth 4)) := by
  rw [actionOfWord_valid h (by decide) nofun, actionOfKind, field_action_mask (List.mem_singleton_self _)]

theorem actionOfWord_lock (h : field w 28 4 = 5) : actionOfWord ⟨w, false⟩ = some (.lock (w.setWidth 16)) := by
  rw [actionOfWord_valid h (by decide) nofun, actionOfKind, field_action_mask (List.mem_singleton_self _)]

theorem actionOfWord_unlock (h : field w 28 4 = 6) : actionOfWord ⟨w, false⟩ = some (.unlock (w.setWidth 16)) := by
  rw [actionOfWord_valid h (by decide) nofun, actionOfKind, field_action_mask (List.mem_singleton_self _)]

/-- A level stored in nine bits reads clamped. -/
theorem signed_nine_fixLevel (x : Nat) : signed 9 (fixLevel 9 x) = max (-255) (min 255 (signed 9 x)) := by
  unfold fixLevel unsign clampInt
  generalize signed 9 x = l
  unfold signed
  norm_num
  omega

theorem actionOfWord_effect (h : field w 28 4 = 3) : actionOfWord ⟨w, false⟩ =
    some (.effect (Fin.ofNat 8 (field w 25 3)) (max (-255) (min 255 (signed 9 (field w 16 9)))) (w.setWidth 16)) := by
  have level : field (assembled (actionRules 3) w) 16 9 = fixLevel 9 (field w 16 9) :=
    field_action (r := numField 16 9 (fixLevel 9)) (by simp [actionRules, actionFields])
  rw [actionOfWord_valid h (by decide) nofun, actionOfKind,
    field_action_value (lo := 25) (by simp [actionRules, actionFields]), level, signed_nine_fixLevel,
    field_action_mask (by simp [actionFields])]

theorem actionOfWord_call (h : field w 28 4 = 4) (hl : field w 8 2 ≠ 3) : actionOfWord ⟨w, false⟩ =
    some (.call (Fin.ofNat 16 (field w 0 4))
      (if field w 8 2 = 0 then .notice else if field w 8 2 = 1 then .attend else .urgent)) := by
  have level : field (assembled (actionRules 4) w) 8 2 = field w 8 2 :=
    field_action (r := codeField 8 2 fun x => decide (x < 3)) (by simp [actionRules, actionFields])
  have code : levelOfCode (field w 8 2) =
      (if field w 8 2 = 0 then .notice else if field w 8 2 = 1 then .attend else .urgent) := by
    have small := field_lt w 8 2
    generalize field w 8 2 = x at small ⊢
    interval_cases x <;> rfl
  rw [actionOfWord_valid h (by decide) fun _ => hl, actionOfKind,
    field_action_value (lo := 0) (by simp [actionRules, actionFields]), level, code]

theorem actionsOfWords_damaged {ds : List Delivered} (h : actionOfWord d = none ∨ actionsOfWords ds = none) :
    actionsOfWords (d :: ds) = none := by
  unfold actionsOfWords
  rcases h with h | h
  · rw [h]
  · rw [h]
    cases actionOfWord d <;> rfl

theorem actionsOfWords_cons {ds : List Delivered} {a : Action} {as : List Action} (h : actionOfWord d = some a)
    (hs : actionsOfWords ds = some as) : actionsOfWords (d :: ds) = some (a :: as) := by
  rw [actionsOfWords, h, hs]

end Actions

/-! ## What an entry matches, and when it is live (R40, R41) -/

section Matching
variable {k : Condition}

theorem agrees_iff {op x : Nat} : agrees op x = true ↔ op = 255 ∨ op = x := by simp [agrees]

theorem matches_lineCue (n : Byte) : matchesTrigger k (.lineCue n) = true ↔ k.kind = 0 ∧ k.opA = n.toNat := by
  simp [matchesTrigger]

theorem matches_peerTap (n : Byte) (b : Fin 16) (p : PressKind) : matchesTrigger k (.peerTap n b p) = true ↔
    k.kind = 1 ∧ (k.opA = 255 ∨ k.opA = n.toNat) ∧ (k.opB = 255 ∨ k.opB = b.val) ∧ k.opC = p.code := by
  simp [matchesTrigger, agrees_iff, and_assoc]

theorem matches_peerDone (n : Byte) (c : Fin 4) (o : EndOutcome) (p : Fin 32) :
    matchesTrigger k (.peerDone n c o p) = true ↔ k.kind = 2 ∧ (k.opA = 255 ∨ k.opA = n.toNat) ∧ k.opB = c.val ∧
      (k.opC = 255 ∨ k.opC = p.val) ∧ o = .completed := by
  simp [matchesTrigger, agrees_iff, and_assoc]

theorem matches_localPress (b : Fin 16) (p : PressKind) : matchesTrigger k (.localPress b p) = true ↔
    k.kind = 3 ∧ k.opB = b.val ∧ k.opC = p.code := by
  simp [matchesTrigger, and_assoc]

theorem matches_localDone (c : Fin 4) (o : EndOutcome) (p : Fin 32) :
    matchesTrigger k (.localDone c o p) = true ↔ k.kind = 4 ∧ k.opB = c.val ∧ (k.opC = 255 ∨ k.opC = p.val) ∧
      o = .completed := by
  simp [matchesTrigger, agrees_iff, and_assoc]

theorem matches_modeEntry (m : GalleryMode) : matchesTrigger k (.modeEntry m) = true ↔ k.kind = 5 ∧ k.opC = m.code := by
  simp [matchesTrigger]

theorem modeInSet_iff {m : GalleryMode} {set : BitVec 4} : modeInSet m set = true ↔
    (m = .opened ∧ set.getLsbD 0 = true) ∨ (m = .quiet ∧ set.getLsbD 1 = true) ∨
      (m = .closed ∧ set.getLsbD 2 = true) ∨ (m = .service ∧ set.getLsbD 3 = true) := by
  cases m <;> simp [modeInSet]

theorem live_iff (s : State) (k : Condition) : s.live k = true ↔ k.enabled = true ∧
    ((s.mode.mode = .opened ∧ k.modeSet.getLsbD 0 = true) ∨ (s.mode.mode = .quiet ∧ k.modeSet.getLsbD 1 = true) ∨
      (s.mode.mode = .closed ∧ k.modeSet.getLsbD 2 = true) ∨ (s.mode.mode = .service ∧ k.modeSet.getLsbD 3 = true)) ∧
    ∀ c, k.requireIdle = some c → (s.chan c).state = .idle := by
  unfold State.live
  rw [Bool.and_eq_true, Bool.and_eq_true, modeInSet_iff, and_assoc]
  cases k.requireIdle <;> simp

end Matching

end Sys2Proof.Machine
end

