-- ==== Sys2Proof/Proofs/Scan.lean ====
section
/-! PROOF. The scan of the cue table, word by word (R42 to R44, R46). -/
namespace Sys2Proof.Machine

/-! ## One word at the scan -/

section Words
variable {s : State} {t : Trigger} {e : Nat} {d d0 d1 : Delivered} {ds got : List Delivered} {k : Condition}

theorem cueWord_first (h : s.cue.dispatch = .scanning t e []) :
    s.cueWord d = { s with cue.dispatch := .scanning t e [d] } := by
  simp [State.cueWord, h]

theorem cueWord_second (h : s.cue.dispatch = .scanning t e [d0]) : s.cueWord d = s.judgeEntry t e [d0, d] := by
  simp [State.cueWord, h]

theorem actionCount_eq (h : conditionOfWords (d0 :: d1 :: ds) = some k) : actionCount (d0 :: d1 :: ds) = k.count := by
  simp [actionCount, h]

/-- An action word before the last is kept. -/
theorem cueWord_action (h : s.cue.dispatch = .scanning t e (d0 :: d1 :: ds))
    (hk : conditionOfWords (d0 :: d1 :: ds) = some k) (more : ds.length + 3 < 2 + k.count) :
    s.cueWord d = { s with cue.dispatch := .scanning t e (d0 :: d1 :: ds ++ [d]) } := by
  have count : actionCount (d0 :: d1 :: (ds ++ [d])) = k.count := actionCount_eq hk
  simp [State.cueWord, h, count, more]

/-- The last action word of a firing entry: its actions are taken from the words. -/
theorem cueWord_last (h : s.cue.dispatch = .scanning t e (d0 :: d1 :: ds))
    (hk : conditionOfWords (d0 :: d1 :: ds) = some k) (last : ds.length + 3 = 2 + k.count) :
    s.cueWord d = s.judgeActions t e (d0 :: d1 :: (ds ++ [d])) := by
  have count : actionCount (d0 :: d1 :: ds ++ [d]) = k.count := actionCount_eq hk
  have length : (d0 :: d1 :: ds ++ [d]).length = ds.length + 3 := by simp
  unfold State.cueWord
  rw [h]
  dsimp only
  rw [count, length, if_neg (by omega), if_neg (by omega), if_neg (by omega)]
  rfl

end Words

/-! ## Past an entry -/

/-- The cue engine past entry `e` of the scan for `t`, while an access is in progress (R39, R44). -/
def State.cueAfter (s : State) (t : Trigger) (e : Nat) : CueEngine :=
  if e < 63 then { s.cue with dispatch := .scanning t (e + 1) [] } else
    match s.cue.queue with
    | [] => { s.cue with dispatch := .idle }
    | u :: rest => if s.mode.mode = .held then { s.cue with dispatch := .idle, queue := [] }
      else { s.cue with dispatch := .scanning u 0 [], queue := rest }

section Past
variable {s u : State} {t : Trigger} {e : Nat} {a : Access}

theorem nextEntry_cue (busy : s.mem.access = some a) : s.nextEntry t e = { s with cue := s.cueAfter t e } := by
  unfold State.cueAfter
  split
  · exact nextEntry_next ‹_›
  · rw [nextEntry_last (by omega)]
    have idle : ({ s with cue.dispatch := .idle } : State).cue.dispatch = .idle := rfl
    split
    · exact takeTrigger_nil idle ‹_›
    · split
      · exact takeTrigger_held idle ‹_›
      · exact (takeTrigger_cons idle ‹_› ‹_›).trans (arbitrate_busy (a := a) busy)

/-- What follows an entry rests on the engine and the mode alone. -/
theorem nextEntry_congr (hc : u.cue = s.cue) (hm : u.mode.mode = s.mode.mode) (busy : u.mem.access = some a) :
    u.nextEntry t e = { u with cue := s.cueAfter t e } := by
  rw [nextEntry_cue busy]
  unfold State.cueAfter
  rw [hc, hm]

end Past

/-! ## One word delivered -/

section Delivered
variable {s next : State} {i e : Nat} {t : Trigger} {got ds : List Delivered} {d0 d1 : Delivered} {k : Condition}

/-- A read leaves the engine, the mode, the channels and the access in progress. -/
theorem readFor_kept (s : State) (i : Nat) (w : Requester) : (s.readFor i w).cue = s.cue ∧
    (s.readFor i w).mode = s.mode ∧ (s.readFor i w).motion = s.motion ∧
    (s.readFor i w).mem.access = s.mem.access := by
  obtain ⟨l, a, b, read⟩ := readFor_eq s i w
  rw [read]
  exact ⟨rfl, rfl, rfl, rfl⟩

theorem live_congr {u : State} (hm : u.mode = s.mode) (hc : u.motion = s.motion) (k : Condition) :
    u.live k = s.live k := by
  unfold State.live State.chan
  rw [hm, hc]

/-- The end of an access for the cue engine that no reset recalled. -/
theorem exec_cueRead_fresh (ha : s.mem.access = some ⟨.cueRead, i, false⟩) :
    exec .cueRead s = .next ((s.readFor i .cue).cueWord (s.wordAt i)).endAccess :=
  congrArg _ (deliver_fresh ha)

theorem nextEntry_read (ha : s.mem.access = some ⟨.cueRead, i, false⟩) :
    (s.readFor i .cue).nextEntry t e = { s.readFor i .cue with cue := s.cueAfter t e } := by
  obtain ⟨cue, mode, -, access⟩ := readFor_kept s i .cue
  exact nextEntry_congr cue (by rw [mode]) (access.trans ha)

/-- A damaged entry: TABLE-DAMAGE for region 5, and the scan goes past it (R46). -/
theorem entryDamaged_read (ha : s.mem.access = some ⟨.cueRead, i, false⟩) :
    (s.readFor i .cue).entryDamaged t e =
      { (s.readFor i .cue).raise .tableDamage 5 with cue := s.cueAfter t e } := by
  obtain ⟨cue, mode, -, access⟩ := readFor_kept s i .cue
  have sent : Sent (s.readFor i .cue) ((s.readFor i .cue).raise .tableDamage 5) := sent_raiseWith _ _ _ _ _
  exact nextEntry_congr (sent.cue.trans cue) (sent.mode.trans (by rw [mode])) (by rw [sent.mem, access, ha])

/-- The second condition word of an entry that is not damaged: it fires, or is skipped. -/
theorem judgeEntry_read (ha : s.mem.access = some ⟨.cueRead, i, false⟩) {ws : List Delivered}
    (hk : conditionOfWords ws = some k) : (s.readFor i .cue).judgeEntry t e ws =
      { s.readFor i .cue with
        cue := if k.enabled = true ∧ matchesTrigger k t = true ∧ s.live k = true then
          { s.cue with dispatch := .scanning t e ws } else s.cueAfter t e } := by
  obtain ⟨cue, mode, motion, -⟩ := readFor_kept s i .cue
  unfold State.judgeEntry
  rw [hk]
  dsimp only
  rw [live_congr mode motion]
  split
  · rw [cue]
  · exact nextEntry_read ha

theorem judgeEntry_damaged {ws : List Delivered} (hk : conditionOfWords ws = none) :
    s.judgeEntry t e ws = s.entryDamaged t e := by
  unfold State.judgeEntry
  rw [hk]

theorem judgeActions_performs {acts : List Action} (h : actionsOfWords ds = some acts) :
    s.judgeActions t e (d0 :: d1 :: ds) = { s with cue.dispatch := .performing t e acts 0 } := by
  simp [State.judgeActions, h]

theorem judgeActions_damaged (h : actionsOfWords ds = none) :
    s.judgeActions t e (d0 :: d1 :: ds) = s.entryDamaged t e := by
  simp [State.judgeActions, h]

end Delivered

/-- Settles O20: what an entry's words say (`conditionOfWords_valid`, `actionOfWord_valid`), what it matches, when it
is live (`live_iff`), and the scan word by word (`cueWord_first` to `cueWord_last`). -/
theorem scanReadsEntry : Obligations.ScanReadsEntry := by
  refine ⟨fun _ _ _ => rfl, ?_, fun d0 d1 ds => ⟨conditionOfWords_bad, conditionOfWords_take d0 d1 ds⟩, ?_,
    fun d ds a as => ⟨actionOfWord_bad, rfl, actionsOfWords_damaged, actionsOfWords_cons⟩, fun s k =>
    ⟨matches_lineCue, fun n b p => ?_, matches_peerDone, fun b p => ?_, matches_localDone, fun m => ?_,
      live_iff s k⟩, ?_⟩
  · rintro w0 w1 _ _ _ _ _ _ rfl rfl rfl rfl rfl rfl
    by_cases damaged : TriggerInvalid (field w0 24 3) (field w0 16 8) (field w0 8 8) (field w0 0 8) ∨
      ((4 ≤ field w1 8 8 ∧ field w1 8 8 ≠ 255) ∨ field w1 16 3 = 0 ∨ 5 ≤ field w1 16 3)
    · rw [conditionOfWords_invalid damaged, if_pos (triggerInvalid_or.mp damaged)]
    · rw [if_neg fun no => damaged (triggerInvalid_or.mpr no)]
      exact conditionOfWords_valid (fun no => damaged (.inl no)) fun no => damaged (.inr no)
  · rintro w _ rfl
    refine ⟨fun h => actionOfWord_invalid (.inl h), actionOfWord_start, actionOfWord_stop, actionOfWord_home,
      fun l hl h => ?_, fun h => ?_, actionOfWord_lock, actionOfWord_unlock⟩
    · rw [actionOfWord_effect h, hl]
      simp [signed]
    · split
      · exact actionOfWord_invalid (.inr ⟨h, ‹_›⟩)
      · exact actionOfWord_call h ‹_›
  · rw [matches_peerTap]; rfl
  · rw [matches_localPress]; rfl
  · rw [matches_modeEntry]; rfl
  · intro s i e t got next ha hd hn
    have after : next = s.cueAfter t e := hn
    have dispatch : (s.readFor i .cue).cue.dispatch = .scanning t e got := by rw [(readFor_kept s i .cue).1, hd]
    rw [exec_cueRead_fresh ha, after]
    refine ⟨?_, ?_, ?_, ?_, ?_, ?_⟩
    · rintro rfl
      rw [cueWord_first dispatch]
    · rintro d0 k rfl hk
      rw [cueWord_second dispatch, judgeEntry_read ha hk]
    · rintro d0 rfl hk
      rw [cueWord_second dispatch, judgeEntry_damaged hk, entryDamaged_read ha]
    · rintro d0 d1 ds k rfl hk more
      rw [cueWord_action dispatch hk more]
    · rintro d0 d1 ds k acts rfl hk last ok
      rw [cueWord_last dispatch hk last, judgeActions_performs ok]
    · rintro d0 d1 ds k rfl hk last bad
      rw [cueWord_last dispatch hk last, judgeActions_damaged bad, entryDamaged_read ha]

end Sys2Proof.Machine
end

