-- ==== Sys2Proof/Proofs/Locks.lean ====
section
/-! PROOF. LOCK and UNLOCK (R55), button by button, and the lamp that the rules call for (R71 to R73). -/
namespace Sys2Proof.Machine

/-! ## The locks of a mask (R55) -/

/-- LOCK or UNLOCK takes button `b`: a LOCK leaves a HELP button. -/
def State.Locks (s : State) (mask : BitVec 16) (lock : Bool) (b : Fin 16) : Prop :=
  mask.getLsbD b.val = true ∧ ((s.btn b).help = false ∨ lock = false)

/-- `t` is `s` but for the buttons. -/
def ButtonsOnly (s t : State) : Prop := t = { s with button.buttons := t.button.buttons }

theorem ButtonsOnly.trans {s t u : State} (h : ButtonsOnly s t) (k : ButtonsOnly t u) : ButtonsOnly s u := by
  unfold ButtonsOnly at h k
  rw [h] at k
  exact k

/-- The buttons of `l` have taken `lock` where they take it, with a lamp that is what the rules call for, and the
others stand. -/
structure Locked (mask : BitVec 16) (lock : Bool) (l : List (Fin 16)) (s t : State) : Prop where
  only : ButtonsOnly s t
  taken : ∀ b ∈ l, s.Locks mask lock b → t.btn b = { s.btn b with lock := lock, lamp := t.lampFor b }
  stands : ∀ b, b ∉ l ∨ ¬ s.Locks mask lock b → t.btn b = s.btn b

section Locks
variable {s t u : State} {mask : BitVec 16} {lock : Bool} {b : Fin 16} {l : List (Fin 16)}

/-- A button with the same settings, but for its lamp, in a node that differs in other buttons alone calls for the
same lamp. -/
theorem ButtonsOnly.lampFor (h : ButtonsOnly s t) {x : Lamp} (hb : t.btn b = { s.btn b with lamp := x }) :
    t.lampFor b = s.lampFor b := by
  refine lampFor_congr hb ?_ ?_ ?_
  all_goals rw [h]

/-- LOCK or UNLOCK at one button. -/
def State.lockButton (mask : BitVec 16) (lock : Bool) (s : State) (b : Fin 16) : State :=
  if mask.getLsbD b.val = true ∧ ((s.btn b).help = false ∨ lock = false) then
    (s.withBtn b { s.btn b with lock := lock }).lampUpdate b
  else s

theorem setLocks_eq (s : State) (mask : BitVec 16) (lock : Bool) :
    s.setLocks mask lock = sixteen.foldl (State.lockButton mask lock) s := rfl

theorem lockButton_locked (s : State) (mask : BitVec 16) (lock : Bool) (b : Fin 16) :
    Locked mask lock [b] s (s.lockButton mask lock b) := by
  by_cases h : s.Locks mask lock b
  · have done : s.lockButton mask lock b = (s.withBtn b { s.btn b with lock := lock }).lampUpdate b := if_pos h
    have own : (s.withBtn b { s.btn b with lock := lock }).btn b = { s.btn b with lock := lock } := by simp
    have lamp : ((s.withBtn b { s.btn b with lock := lock }).lampUpdate b).lampFor b =
        (s.withBtn b { s.btn b with lock := lock }).lampFor b :=
      lampFor_congr ((btn_withBtn _ _ _ _).trans (if_pos rfl)) rfl rfl rfl
    rw [done]
    refine ⟨rfl, fun c hc _ => ?_, fun c hc => ?_⟩
    · rw [List.mem_singleton.mp hc, lamp]
      unfold State.lampUpdate
      rw [btn_withBtn, if_pos rfl, own]
    · have other : c ≠ b := by
        rintro rfl
        simp [h] at hc
      simp [State.lampUpdate, other]
  · have stood : s.lockButton mask lock b = s := if_neg h
    rw [stood]
    exact ⟨rfl, fun c hc takes => absurd (List.mem_singleton.mp hc ▸ takes) h, fun _ _ => rfl⟩

/-- One button after another. -/
theorem Locked.cons (hb : b ∉ l) (one : Locked mask lock [b] s t) (rest : Locked mask lock l t u) :
    Locked mask lock (b :: l) s u := by
  have later : ∀ c ∈ l, t.btn c = s.btn c := fun c hc =>
    one.stands c (.inl fun e => hb (List.mem_singleton.mp e ▸ hc))
  have same : ∀ c ∈ l, t.Locks mask lock c ↔ s.Locks mask lock c := fun c hc => by
    rw [State.Locks, later c hc, State.Locks]
  refine ⟨one.only.trans rest.only, fun c hc takes => ?_, fun c hc => ?_⟩
  · rcases List.mem_cons.mp hc with rfl | hc
    · have stood : u.btn c = t.btn c := rest.stands c (.inl hb)
      rw [rest.only.lampFor stood, stood]
      exact one.taken c (List.mem_singleton_self c) takes
    · rw [rest.taken c hc ((same c hc).mpr takes), later c hc]
  · by_cases hl : c ∈ l
    · have no : ¬ s.Locks mask lock c := hc.resolve_left fun out => out (List.mem_cons_of_mem _ hl)
      rw [rest.stands c (.inr fun takes => no ((same c hl).mp takes)), later c hl]
    · rw [rest.stands c (.inl hl)]
      refine one.stands c (hc.imp (fun out e => out ?_) id)
      rw [List.mem_singleton.mp e]
      exact List.mem_cons_self

theorem setLocks_locked (s : State) (mask : BitVec 16) (lock : Bool) :
    Locked mask lock sixteen s (s.setLocks mask lock) := by
  have fold : ∀ l : List (Fin 16), l.Nodup → ∀ s : State,
      Locked mask lock l s (l.foldl (State.lockButton mask lock) s) := by
    intro l nodup
    induction l with
    | nil => exact fun s => ⟨rfl, fun _ hb => (List.not_mem_nil hb).elim, fun _ _ => rfl⟩
    | cons b l ih =>
      obtain ⟨hb, nodup⟩ := List.nodup_cons.mp nodup
      exact fun s => (lockButton_locked s mask lock b).cons hb (ih nodup _)
  rw [setLocks_eq]
  exact fold sixteen (by decide) s

/-- What becomes of each button. -/
theorem Locked.btn (h : Locked mask lock sixteen s t) (b : Fin 16) : t.btn b = { s.btn b with
    lock := if mask.getLsbD b.val = true ∧ ((s.btn b).help = false ∨ lock = false) then lock else (s.btn b).lock
    lamp := if mask.getLsbD b.val = true ∧ ((s.btn b).help = false ∨ lock = false) then t.lampFor b
      else (s.btn b).lamp } := by
  by_cases takes : mask.getLsbD b.val = true ∧ ((s.btn b).help = false ∨ lock = false)
  · rw [if_pos takes, if_pos takes]
    exact h.taken b (mem_sixteen b) takes
  · rw [if_neg takes, if_neg takes]
    exact h.stands b (.inr takes)

/-- LOCK and UNLOCK, of which one or the other is asked. -/
theorem exec_locks_performed {a : Action} (ha : a = if lock then .lock mask else .unlock mask)
    (h : s.recalls a = false) : exec (if lock then .lock mask else .unlock mask) s =
      .next ((s.setLocks mask lock).handOn a) := by
  subst ha
  cases lock
  · exact congrArg _ (takeAction_performed _ h)
  · exact congrArg _ (takeAction_performed _ h)

/-- The engine goes on after the buttons have changed. -/
theorem ButtonsOnly.handOn (h : ButtonsOnly s t) (a : Action) (hu : u = t.handOn a) : u.button = t.button ∧
    u = { s with button.buttons := u.button.buttons, cue := u.cue, mem := u.mem } ∧
    u = ({ s with button.buttons := u.button.buttons }).handOn a ∧ u.mem.words = s.mem.words := by
  obtain ⟨-, button, -, -, words, all⟩ := handOn_parts t a
  unfold ButtonsOnly at h
  subst hu
  refine ⟨button, ?_, ?_, ?_⟩
  · rw [button]
    exact all.trans (by rw [h])
  · rw [button]
    exact congrArg (State.handOn · a) h
  · rw [words, h]

end Locks

/-! ## The lamp called for (R72, R73) -/

section Lamp
variable {s : State} {b : Fin 16} {k : ButtonSettings}

theorem lampFor_unheld (h : (s.btn b).held = .absent ∨ (s.btn b).held = .damaged) : s.lampFor b = .off := by
  unfold State.lampFor
  rcases h with h | h <;> rw [h]

theorem lampFor_disabled (hk : (s.btn b).held = .copy k) (h : k.enabled = false) : s.lampFor b = .off := by
  simp [State.lampFor, hk, h]

/-- A HELP button with a record shows its state. -/
theorem lampFor_help {i : Fin 16} {r : Record} (hk : (s.btn b).held = .copy k) (he : k.enabled = true)
    (hh : k.help = true) (hi : s.findRecord .help b.val = some i) (hr : s.slotAt i = some r) :
    s.lampFor b = if r.state = .raised ∨ r.state = .called then .helpFast else .helpSteady := by
  have record : s.helpRecord b = some r.state := by simp [State.helpRecord, hi, hr]
  unfold State.lampFor
  rw [hk]
  cases hs : r.state <;> simp [he, hh, record, hs]

/-- Any other enabled button shows what becomes of a press. -/
theorem lampFor_press (hk : (s.btn b).held = .copy k) (he : k.enabled = true)
    (h : k.help = false ∨ s.findRecord .help b.val = none) : s.lampFor b =
      if (s.btn b).lock = true ∨ s.pressAnswer k.help = .ignored then .off
      else if s.dispatchReady b = true ∧ s.lampChannelReady k = true then .ready else .wait := by
  unfold State.lampFor
  rw [hk]
  rcases h with h | h
  · simp [he, h]
  · have record : s.helpRecord b = none := by simp [State.helpRecord, h]
    simp [he, record]

theorem hasAllowance_iff {x : Button} : x.hasAllowance = true ↔ x.allowance ≠ some 0 := by
  unfold Button.hasAllowance
  cases x.allowance <;> simp [Nat.one_le_iff_ne_zero]

theorem dispatchReady_iff (hk : (s.btn b).held = .copy k) (he : k.enabled = true) : s.dispatchReady b = true ↔
    (s.btn b).lock = false ∧ (s.btn b).phase ≠ .stuck ∧ s.pressAnswer k.help = .dispatched ∧
      (s.btn b).allowance ≠ some 0 := by
  simp [State.dispatchReady, Button.enabled, Button.help, hk, he, hasAllowance_iff, and_assoc]

theorem lampChannelReady_iff : s.lampChannelReady k = true ↔
    ∀ c, k.lampChannel = some c → (s.chan c).state = .idle ∧ s.gated c = false := by
  unfold State.lampChannelReady
  cases k.lampChannel <;> simp

/-- A button that is not locked, whose press would be dispatched: READY where nothing hinders it, else WAIT. -/
theorem lampFor_dispatched (hk : (s.btn b).held = .copy k) (he : k.enabled = true)
    (h : k.help = false ∨ s.findRecord .help b.val = none) (hl : (s.btn b).lock = false)
    (ha : s.pressAnswer k.help = .dispatched) : s.lampFor b =
      if (s.btn b).phase ≠ .stuck ∧ (s.btn b).allowance ≠ some 0 ∧ s.lampChannelReady k = true then .ready
      else .wait := by
  rw [lampFor_press hk he h, if_neg (by simp [hl, ha])]
  simp only [dispatchReady_iff hk he, hl, ha, true_and, and_assoc]

end Lamp

/-- Settles O22: the buttons one after another (`setLocks_locked`), the engine then going on (`ButtonsOnly.handOn`), and
the lamp by the button's settings and record (`lampFor_help`, `lampFor_press`, `lampFor_dispatched`). -/
theorem locksFollowMask : Obligations.LocksFollowMask := by
  refine ⟨fun mask lock s performed => ?_, fun s b => ⟨rfl, lampFor_unheld, fun k hk => ⟨lampFor_disabled hk,
    fun i r he hh hi hr => lampFor_help hk he hh hi hr, fun he h => ⟨fun off => ?_, fun hl ha => ?_, fun hl ha =>
      ⟨fun hp hn hc => ?_, fun hinders => ?_⟩⟩⟩⟩⟩
  · have locked := setLocks_locked s mask lock
    obtain ⟨t, ht⟩ : ∃ t, t = (s.setLocks mask lock).handOn (if lock then .lock mask else .unlock mask) := ⟨_, rfl⟩
    obtain ⟨button, all, handed, words⟩ := locked.only.handOn _ ht
    refine ⟨t, by rw [exec_locks_performed rfl performed, ht], fun b => ?_, all, handed, words⟩
    have btn : t.btn b = (s.setLocks mask lock).btn b := by rw [State.btn, button, State.btn]
    have lamp : t.lampFor b = (s.setLocks mask lock).lampFor b := by
      obtain ⟨motion, -, mode, -⟩ := handOn_parts (s.setLocks mask lock) (if lock then .lock mask else .unlock mask)
      refine lampFor_congr btn (by rw [ht, mode]) (by rw [ht, motion]) ?_
      rw [all, locked.only]
    rw [btn, lamp]
    exact locked.btn b
  · rw [lampFor_press hk he h, if_pos off]
  · rw [lampFor_press hk he h, if_neg (by simp [hl, ha]), if_neg]
    simp [dispatchReady_iff hk he, ha]
  · rw [lampFor_dispatched hk he h hl ha, if_pos ⟨hp, hn, lampChannelReady_iff.mpr hc⟩]
  · rw [lampFor_dispatched hk he h hl ha, if_neg]
    rintro ⟨free, spare, ready⟩
    rcases hinders with stuck | spent | ⟨c, hc, busy⟩
    · exact free stuck
    · exact spare spent
    · obtain ⟨idle, ungated⟩ := lampChannelReady_iff.mp ready c hc
      rcases busy with busy | gated
      · exact busy idle
      · rw [ungated] at gated
        cases gated

end Sys2Proof.Machine
end

