-- ==== Sys2Proof/Proofs/Fades.lean ====
section
/-! PROOF. How a fade begins on an output or a pair, case by case (R53, R126, R128). -/
namespace Sys2Proof.Machine

/-! ## The beginning of a fade -/

section Begin
variable {e : Effect} {pair : Bool} {i f : Nat} {t : Int}

theorem oppositeSigns_iff {a b : Int} : oppositeSigns a b = true ↔ a * b < 0 := by
  simp [oppositeSigns, mul_neg_iff, or_comm]

theorem distance_zero : (t * 256 - e.fine).natAbs = 0 ↔ t * 256 = e.fine := by omega

/-- At the target already nothing but the target is set. -/
theorem beginFade_there (h : t * 256 = e.fine) :
    e.beginFade pair i t f = { e with target := t, running := false } := if_pos (distance_zero.mpr h)

/-- In its dead interval a pair's fade waits, whatever its time. -/
theorem beginFade_dead (h : t * 256 ≠ e.fine) (hp : pair = true) (hd : 0 < e.dead) :
    e.beginFade pair i t f = { e with target := t, remaining := f, running := true } :=
  (if_neg fun z => h (distance_zero.mp z)).trans (if_pos ⟨hp, hd⟩)

/-- Past the tests of the distance and the dead timer: at once, or in steps. -/
theorem beginFade_free (h : t * 256 ≠ e.fine) (hd : pair = false ∨ e.dead = 0) :
    e.beginFade pair i t f = if f = 0 then
        if pair = true ∧ e.fine * t < 0 then
          { ({ e with target := t } : Effect).setFine pair i 0 with remaining := 0, running := true }
        else { ({ e with target := t } : Effect).setFine pair i (t * 256) with remaining := 0, running := false }
      else { e with target := t, delta := ((t * 256 - e.fine).natAbs + f - 1) / f, remaining := f, running := true } := by
  have free : ¬ (pair = true ∧ 0 < e.dead) := by
    rintro ⟨rfl, dead⟩
    rcases hd with hd | hd
    · cases hd
    · omega
  unfold Effect.beginFade
  simp only [distance_zero, if_neg h, if_neg free, oppositeSigns_iff, ceilDiv]

/-- A fade with a time runs at the distance divided by it, rounded up. -/
theorem beginFade_fades (h : t * 256 ≠ e.fine) (hd : pair = false ∨ e.dead = 0) (hf : f ≠ 0) :
    e.beginFade pair i t f = { e with
      target := t, remaining := f, running := true, delta := ((t * 256 - e.fine).natAbs + f - 1) / f } := by
  rw [beginFade_free h hd, if_neg hf]

/-- Without a time an unpaired output is at its level at once. -/
theorem beginFade_at_once (h : t * 256 ≠ e.fine) :
    e.beginFade false i t 0 = { e with target := t, fine := t * 256, remaining := 0, running := false } := by
  rw [beginFade_free h (.inl rfl), if_pos rfl, if_neg (by simp)]
  simp [Effect.setFine]

/-- Without a time a pair whose target has the other sign stops at 0 for its dead interval. -/
theorem beginFade_crosses (hd : e.dead = 0) (cross : e.fine * t < 0) : e.beginFade true i t 0 =
    { e with target := t, fine := 0, dead := i, remaining := 0, running := true } := by
  have moves : t * 256 ≠ e.fine := by
    rcases mul_neg_iff.mp cross with ⟨_, _⟩ | ⟨_, _⟩ <;> omega
  have nonzero : e.fine ≠ 0 := by
    rintro zero
    simp [zero] at cross
  rw [beginFade_free moves (.inr hd), if_pos rfl, if_pos ⟨rfl, cross⟩]
  simp [Effect.setFine, nonzero]

/-- Without a time a pair is at any other level at once, its dead interval loaded where that level is 0. -/
theorem beginFade_stays_side (h : t * 256 ≠ e.fine) (hd : e.dead = 0) (side : 0 ≤ e.fine * t) :
    e.beginFade true i t 0 = { e with
      target := t, fine := t * 256, remaining := 0, running := false, dead := if t = 0 then i else 0 } := by
  rw [beginFade_free h (.inr hd), if_pos rfl, if_neg fun cross => by omega]
  by_cases zero : t = 0
  · subst zero
    have nonzero : e.fine ≠ 0 := fun k => h (by simp [k])
    simp [Effect.setFine, nonzero]
  · simp [Effect.setFine, zero, hd]

end Begin

/-! ## The EFFECT action (R53) -/

section Action
variable {s : State} {o : Fin 8} {target : Int} {fade : BitVec 16}

theorem exec_effect_dormant (h : s.recalls (.effect o target fade) = false) (hn : s.mode.node = .dormant) :
    exec (.effect o target fade) s = .next (s.handOn (.effect o target fade)) := by
  refine congrArg _ ((takeAction_performed _ h).trans ?_)
  rw [if_neg (by simp [State.effectAllowed, hn])]

theorem exec_effect_begins {t : Int} {x : Effect} (h : s.recalls (.effect o target fade) = false)
    (hn : s.mode.node ≠ .dormant) (ht : t = clampTarget (s.joined o) target)
    (hx : (s.out (s.base o)).beginFade (s.joined o) (s.deadInterval (pairOf o)) t fade.toNat = x) :
    exec (.effect o target fade) s = .next ((s.withOut (s.base o) x).handOn (.effect o target fade)) := by
  refine congrArg _ ((takeAction_performed _ h).trans ?_)
  rw [if_pos (by simp [State.effectAllowed, hn]), State.beginEffect, ← ht, hx]

end Action

/-- Settles O44: the beginning of a fade by distance, dead timer, time and sides (`beginFade_there` to
`beginFade_stays_side`), on the output or pair that the action names (`exec_effect_begins`). -/
theorem effectBegins : Obligations.EffectBegins := by
  rintro o target t fade s e x after performed rfl rfl ht
  have begins := fun hn => exec_effect_begins (x := x) performed hn ht
  have untimed : fade = 0 → fade.toNat = 0 := fun h => by rw [h]; rfl
  refine ⟨exec_effect_dormant performed, fun hn => ⟨?_, ?_, ?_, ?_, ?_, ?_⟩⟩
  · rintro there rfl
    exact begins hn (beginFade_there there)
  · rintro moves joined dead rfl
    exact begins hn (beginFade_dead moves joined dead)
  · rintro moves free timed rfl
    exact begins hn (beginFade_fades moves free fun zero => timed (BitVec.eq_of_toNat_eq zero))
  · rintro moves single instant rfl
    refine begins hn ?_
    rw [single, untimed instant]
    exact beginFade_at_once moves
  · rintro joined dead instant cross rfl
    refine begins hn ?_
    rw [joined, untimed instant]
    exact beginFade_crosses dead cross
  · rintro moves joined dead instant side rfl
    refine begins hn ?_
    rw [joined, untimed instant]
    exact beginFade_stays_side moves dead side

end Sys2Proof.Machine
end

