-- ==== Sys2Proof/Proofs/Puts.lean ====
section
/-! PROOF. A word written for a PUT (R47, R160, R165, R171): its notices, the progress of the PUT, and its ANSWER. -/
namespace Sys2Proof.Machine

/-! ## A re-read owed (R160) -/

section Notices
variable {s : State} {i : Nat} {w : Word} {j : Job} {b : Block}

/-- The entry is to be read from its first word on: its request on the path has no word yet, or it is owed. -/
def State.Owes (s : State) (j : Job) : Prop := ⟨j, []⟩ ∈ s.mem.path ∨ j ∈ s.mem.owed

theorem owes_askFor (h : s.Owes j) : (s.askFor b).Owes j := by
  unfold State.askFor
  split
  · exact h
  · split
    · rename_i j' _
      by_cases e : j = j'
      · exact .inl (by simp [e])
      · exact h.imp (List.mem_append_left _) fun owed => (List.mem_erase_of_ne e).mpr owed
    · exact h

theorem owes_ask (h : s.Owes j) : s.ask.Owes j := by
  have fold : ∀ (l : List Block) (s : State), s.Owes j → (l.foldl State.askFor s).Owes j := by
    intro l
    induction l with
    | nil => exact fun _ h => h
    | cons b l ih => exact fun s h => ih _ (owes_askFor h)
  exact fold blocks s h

/-- After a notice its block owes the entry a read from the first word. -/
theorem owes_notice (s : State) (j : Job) : (s.notice j).Owes j := by
  unfold State.notice
  split
  · rename_i asked
    obtain ⟨a, ha, rfl⟩ : ∃ a ∈ s.mem.path, a.job = j := by simpa using asked
    exact .inl (List.mem_map.mpr ⟨a, ha, if_pos rfl⟩)
  · split
    · rename_i owed
      exact .inr (by simpa using owed)
    · exact owes_ask (.inr (by simp))

/-- A notice changes the path and what is owed alone. -/
theorem notice_eq (s : State) (j : Job) : ∃ p o, s.notice j = { s with mem := { s.mem with path := p, owed := o } } := by
  unfold State.notice
  split
  · exact ⟨_, _, rfl⟩
  · split
    · exact ⟨_, _, rfl⟩
    · obtain ⟨p, o, asked⟩ := ask_eq { s with mem.owed := s.mem.owed ++ [j] }
      exact ⟨p, o, asked⟩

/-! ## The notices of a written word (R160) -/

/-- The entry whose reader is to read word `i` again through the settings path. -/
def Noticed (i : Nat) (j : Job) : Prop :=
  (i = 2 ∧ j = ⟨.effect, 8⟩) ∨ (16 ≤ i ∧ i < 28 ∧ j = ⟨.alert, i - 16⟩) ∨
    (32 ≤ i ∧ i < 64 ∧ j = ⟨.motion, (i - 32) / 8⟩) ∨ (64 ≤ i ∧ i < 80 ∧ j = ⟨.effect, (i - 64) / 2⟩) ∨
    (80 ≤ i ∧ i < 144 ∧ j = ⟨.button, (i - 80) / 4⟩)

/-- The region of a word, by its bounds (R153). -/
theorem regionOf_cases (i : Nat) : (i < 16 ∧ regionOf i = 0) ∨ (16 ≤ i ∧ i < 32 ∧ regionOf i = 1) ∨
    (32 ≤ i ∧ i < 64 ∧ regionOf i = 2) ∨ (64 ≤ i ∧ i < 80 ∧ regionOf i = 3) ∨
    (80 ≤ i ∧ i < 144 ∧ regionOf i = 4) ∨ (144 ≤ i ∧ i < 528 ∧ regionOf i = 5) ∨
    (528 ≤ i ∧ i < 592 ∧ regionOf i = 6) ∨ (592 ≤ i ∧ regionOf i = 7) := by
  unfold regionOf
  split_ifs <;> omega

/-- What a word past the node settings words 0 to 2 tells, by its region. -/
def State.regionNotice (s : State) (region i : Nat) : State :=
  match region with
  | 1 => if i < 28 then s.notice ⟨.alert, i - 16⟩ else s
  | 2 => s.notice ⟨.motion, (i - 32) / 8⟩
  | 3 => s.notice ⟨.effect, (i - 64) / 2⟩
  | 4 => s.notice ⟨.button, (i - 80) / 4⟩
  | 5 => s.entryWritten ((i - 144) / 6)
  | _ => s

theorem writeNotice_later {region : Nat} (h : 2 < i) (hr : regionOf i = region) :
    s.writeNotice i w = s.regionNotice region i := by
  unfold State.writeNotice
  rw [if_neg (by omega), if_neg (by omega), if_neg (by omega), hr]
  rfl

theorem writeNotice_noticed (h : Noticed i j) : s.writeNotice i w = s.notice j := by
  have regions := regionOf_cases i
  rcases h with ⟨rfl, rfl⟩ | ⟨lo, hi, rfl⟩ | ⟨lo, hi, rfl⟩ | ⟨lo, hi, rfl⟩ | ⟨lo, hi, rfl⟩
  · rfl
  · rw [writeNotice_later (region := 1) (by omega) (by omega)]
    exact if_pos hi
  · exact writeNotice_later (region := 2) (by omega) (by omega)
  · exact writeNotice_later (region := 3) (by omega) (by omega)
  · exact writeNotice_later (region := 4) (by omega) (by omega)

theorem writeNotice_cue (lo : 144 ≤ i) (hi : i < 528) : s.writeNotice i w = s.entryWritten ((i - 144) / 6) := by
  have regions := regionOf_cases i
  exact writeNotice_later (region := 5) (by omega) (by omega)

/-- Outside the cue table, and past the first two words, a notice is that of an entry, or there is none. -/
theorem writeNotice_other (past : 2 ≤ i) (out : i < 144 ∨ 528 ≤ i) :
    s.writeNotice i w = s ∨ ∃ j, s.writeNotice i w = s.notice j := by
  rcases Nat.eq_or_lt_of_le past with rfl | past
  · exact .inr ⟨_, rfl⟩
  · have outside : regionOf i ≠ 5 := by
      have regions := regionOf_cases i
      omega
    rw [writeNotice_later past rfl]
    unfold State.regionNotice
    split
    · split
      · exact .inr ⟨_, rfl⟩
      · exact .inl rfl
    · exact .inr ⟨_, rfl⟩
    · exact .inr ⟨_, rfl⟩
    · exact .inr ⟨_, rfl⟩
    · exact absurd ‹_› outside
    · exact .inl rfl

/-- The word stored, and its notices handed. -/
def State.putWritten (s : State) (i : Nat) (w : Word) : State := (s.writeWord i w).writeNotice i w

/-- What a PUT makes of the engine rests on the engine alone. -/
theorem entryWritten_congr {u : State} {e : Nat} (h : u.cue = s.cue) : (u.entryWritten e).cue = (s.entryWritten e).cue := by
  have recalled : u.recalledBy = s.recalledBy := by
    unfold State.recalledBy State.nextAction
    rw [h]
  unfold State.entryWritten
  rw [h, recalled]
  split
  · split
    · rfl
    · exact h
  · split
    · rfl
    · exact h
  · exact h

/-- What a written word changes: itself, the working copies of the first two words, the engine where the word is one
of the cue table, and the settings path. -/
theorem putWritten_eq (s : State) (i : Nat) (w : Word) : ∃ p o, s.putWritten i w = { s with
    ring.hopLimit := if i = 0 then field w 0 7 else s.ring.hopLimit
    ring.lossUnits := if i = 0 then field w 16 9 else s.ring.lossUnits
    cue := if 144 ≤ i ∧ i < 528 then (s.entryWritten ((i - 144) / 6)).cue else s.cue
    mem := { s.mem with
      words := Memory.write s.mem.words i (encodeWord w), path := p, owed := o
      scrubInterval := if i = 1 then field w 0 8 else s.mem.scrubInterval } } := by
  by_cases zero : i = 0
  · subst zero
    exact ⟨_, _, rfl⟩
  by_cases one : i = 1
  · subst one
    exact ⟨_, _, rfl⟩
  rw [if_neg zero, if_neg zero, if_neg one]
  unfold State.putWritten
  by_cases table : 144 ≤ i ∧ i < 528
  · rw [if_pos table, writeNotice_cue table.1 table.2,
      ← entryWritten_congr (s := s) (u := s.writeWord i w) rfl]
    obtain ⟨d, r, e⟩ := entryWritten_eq (s.writeWord i w) ((i - 144) / 6)
    rw [e]
    exact ⟨_, _, rfl⟩
  · rw [if_neg table]
    rcases writeNotice_other (s := s.writeWord i w) (w := w) (i := i) (by omega) (by omega) with e | ⟨j, e⟩
    · rw [e]
      exact ⟨_, _, rfl⟩
    · obtain ⟨p, o, k⟩ := notice_eq (s.writeWord i w) j
      rw [e, k]
      exact ⟨p, o, rfl⟩

end Notices

/-! ## The progress of the PUT (R171) -/

section Progress
variable {s : State} {t first n : Nat} {ws : List Word} {hit : Bool} {r : ResultCode}

theorem putProgress_more (h : s.mgmt.slot = .working (.put t first ws hit n)) (more : n + 1 < ws.length) :
    s.putProgress = { s with mgmt.slot := .working (.put t first ws hit (n + 1)) } := by
  simp [State.putProgress, h, more]

theorem putProgress_last (h : s.mgmt.slot = .working (.put t first ws hit n)) (last : ws.length ≤ n + 1) :
    s.putProgress = s.answer t first (if hit then .clamped else .ok) ws := by
  simp [State.putProgress, h, Nat.not_lt.mpr last]

/-- An ANSWER joins, or it waits: the management unit, the ring port, and what the transmitter's choice changes. -/
theorem answer_cases (s : State) (t first : Nat) (r : ResultCode) (ws : List Word) :
    ∃ g q, s.answer t first r ws = ({ s with mgmt := g, ring.insertion := q } : State).pump ∨
      s.answer t first r ws = { s with mgmt := g } := by
  by_cases joins : s.ring.bypass = false ∧ s.mgmt.waiting = [] ∧ s.ring.insertion.length < 8
  · exact ⟨_, _, .inl (answer_joins joins.1 joins.2.1 joins.2.2)⟩
  · rw [not_and_or, not_and_or, Bool.not_eq_false, Nat.not_lt] at joins
    exact ⟨_, s.ring.insertion, .inr (answer_waits joins)⟩

/-- The progress of a PUT changes the management unit, the insertion queue, and what the transmitter's choice
changes. -/
theorem putProgress_cases (s : State) : ∃ g q,
    s.putProgress = ({ s with mgmt := g, ring.insertion := q } : State).pump ∨ s.putProgress = { s with mgmt := g } := by
  unfold State.putProgress
  split
  · split
    · exact ⟨_, s.ring.insertion, .inr rfl⟩
    · exact answer_cases s _ _ _ _
  all_goals exact ⟨_, s.ring.insertion, .inr rfl⟩

theorem putProgress_sent (s : State) : ∃ g, Sent { s with mgmt := g } s.putProgress := by
  obtain ⟨g, q, e | e⟩ := putProgress_cases s
  · exact ⟨g, e ▸ Sent.trans (t := { s with mgmt := g, ring.insertion := q }) rfl (sent_pump _)⟩
  · exact ⟨g, e ▸ .refl _⟩

/-- While a frame is in transmission the mode unit and the effect unit stand. -/
theorem putProgress_sending (h : s.ring.sending.isSome = true) :
    s.putProgress.mode = s.mode ∧ s.putProgress.effect = s.effect := by
  obtain ⟨g, q, e | e⟩ := putProgress_cases s
  · rw [e, pump_left (s := { s with mgmt := g, ring.insertion := q }) (.inr h)]
    exact ⟨rfl, rfl⟩
  · rw [e]
    exact ⟨rfl, rfl⟩

end Progress

/-! ## The end of the write (R165, R171) -/

section Ends
variable {s : State} {i t first n : Nat} {w : Word} {ws : List Word} {hit stale : Bool}

/-- The node after the write: the PUT goes on, but where a RESTART fell during it. -/
def State.putEnds (s : State) (i : Nat) (w : Word) (stale : Bool) : State :=
  (if stale then s.putWritten i w else (s.putWritten i w).putProgress).endAccess

theorem exec_putWordWrite_eq (ha : s.mem.access = some ⟨.putWrite w, i, stale⟩) :
    exec .putWordWrite s = .next (s.putEnds i w stale) := by
  show execPutWordWrite s = _
  unfold execPutWordWrite
  rw [ha]
  rfl

/-- Progress and arbiter leave what the word and its notices made. -/
theorem putEnds_sent (s : State) (i : Nat) (w : Word) (stale : Bool) : ∃ g a p v, Sent { s.putWritten i w with
    mgmt := g, mem := { (s.putWritten i w).mem with access := a, passOver := p, scrubWaiting := v } }
      (s.putEnds i w stale) := by
  obtain ⟨g, sent⟩ : ∃ g, Sent { s.putWritten i w with mgmt := g }
      (if stale then s.putWritten i w else (s.putWritten i w).putProgress) := by
    cases stale
    · exact putProgress_sent _
    · exact ⟨_, .refl _⟩
  unfold State.putEnds
  generalize (if stale then s.putWritten i w else (s.putWritten i w).putProgress) = x at sent ⊢
  obtain ⟨a, p, v, ends⟩ := endAccess_eq x
  refine ⟨g, a, p, v, ?_⟩
  rw [ends]
  exact congrArg (fun y : State => { y with
    mem := { y.mem with access := a, passOver := p, scrubWaiting := v } }) sent

/-- What stands after the write, whatever became of the PUT. -/
theorem putEnds_leaves (s : State) (i : Nat) (w : Word) (stale : Bool) :
    (s.putEnds i w stale).mem.words = Memory.write s.mem.words i (encodeWord w) ∧
    (s.putEnds i w stale).cue = (if 144 ≤ i ∧ i < 528 then (s.entryWritten ((i - 144) / 6)).cue else s.cue) ∧
    (s.putEnds i w stale).ring.hopLimit = (if i = 0 then field w 0 7 else s.ring.hopLimit) ∧
    (s.putEnds i w stale).ring.lossUnits = (if i = 0 then field w 16 9 else s.ring.lossUnits) ∧
    (s.putEnds i w stale).mem.scrubInterval = (if i = 1 then field w 0 8 else s.mem.scrubInterval) ∧
    ∀ j, (s.putWritten i w).Owes j → (s.putEnds i w stale).Owes j := by
  obtain ⟨g, a, p, v, sent⟩ := putEnds_sent s i w stale
  obtain ⟨path, owed, written⟩ := putWritten_eq s i w
  refine ⟨?_, ?_, ?_, ?_, ?_, fun j => ?_⟩
  · rw [sent.mem, written]
  · rw [sent.cue, written]
  · rw [sent.hopLimit, written]
  · rw [sent.lossUnits, written]
  · rw [sent.mem, written]
  · unfold State.Owes
    rw [sent.mem]
    exact id

/-- A RESTART during the write: the request slot and the frames are left alone. -/
theorem putEnds_stale (s : State) (i : Nat) (w : Word) :
    (s.putEnds i w true).mgmt = s.mgmt ∧ (s.putEnds i w true).ring.insertion = s.ring.insertion := by
  obtain ⟨path, owed, written⟩ := putWritten_eq s i w
  have ends : s.putEnds i w true = (s.putWritten i w).endAccess := rfl
  rw [ends, (endAccess_mem _).1, written]
  exact ⟨rfl, rfl⟩

/-- Otherwise they are as the progress of the PUT leaves them. -/
theorem putEnds_fresh (s : State) (i : Nat) (w : Word) :
    (s.putEnds i w false).mgmt = (s.putWritten i w).putProgress.mgmt ∧
    (s.putEnds i w false).ring = (s.putWritten i w).putProgress.ring := by
  have ends : s.putEnds i w false = (s.putWritten i w).putProgress.endAccess := rfl
  rw [ends, (endAccess_mem _).1]
  exact ⟨rfl, rfl⟩

/-- The written word leaves the management unit, and of the ring port all but two working copies. -/
theorem putWritten_kept (s : State) (i : Nat) (w : Word) : (s.putWritten i w).mgmt = s.mgmt ∧
    (s.putWritten i w).mode = s.mode ∧ (s.putWritten i w).effect = s.effect ∧
    (s.putWritten i w).ring = { s.ring with
      hopLimit := if i = 0 then field w 0 7 else s.ring.hopLimit
      lossUnits := if i = 0 then field w 16 9 else s.ring.lossUnits } ∧
    (s.putWritten i w).address = s.address := by
  obtain ⟨path, owed, written⟩ := putWritten_eq s i w
  rw [written]
  exact ⟨rfl, rfl, rfl, rfl, rfl⟩

/-- A word of the PUT before its last. -/
theorem putEnds_more (h : s.mgmt.slot = .working (.put t first ws hit n)) (more : n + 1 < ws.length) :
    (s.putEnds i w false).mgmt.slot = .working (.put t first ws hit (n + 1)) ∧
    (s.putEnds i w false).ring.insertion = s.ring.insertion := by
  obtain ⟨mgmt, ring⟩ := putEnds_fresh s i w
  obtain ⟨slot, -, -, frames, -⟩ := putWritten_kept s i w
  rw [mgmt, ring, putProgress_more (by rw [slot, h]) more]
  exact ⟨rfl, by rw [frames]⟩

/-- The last word: the ANSWER joins the insertion queue, and the slot is free. -/
theorem putEnds_last (h : s.mgmt.slot = .working (.put t first ws hit n)) (last : ws.length ≤ n + 1)
    (hb : s.ring.bypass = false) (hw : s.mgmt.waiting = []) (hl : s.ring.insertion.length < 8)
    (hs : s.ring.sending.isSome = true) : (s.putEnds i w false).mgmt.slot = .empty ∧
    (s.putEnds i w false).ring.insertion = s.ring.insertion ++ [⟨0x14, 0, s.address,
      BitVec.ofNat 8 (if i = 0 then field w 0 7 else s.ring.hopLimit),
      answerPayload t first (if hit then .clamped else .ok) ws⟩] := by
  obtain ⟨mgmt, ring⟩ := putEnds_fresh s i w
  obtain ⟨slot, -, -, frames, address⟩ := putWritten_kept s i w
  rw [mgmt, ring, putProgress_last (by rw [slot, h]) last, answer_joins (by rw [frames]; exact hb) (by rw [slot, hw])
    (by rw [frames]; exact hl)]
  generalize s.putWritten i w = v at *
  rw [pump_left (.inr (by rw [frames]; exact hs))]
  refine ⟨rfl, ?_⟩
  unfold State.answerFrame State.ownFrame
  simp only [frames, address]

/-- While a frame is in transmission the mode unit and the effect unit stand. -/
theorem putEnds_sending (hs : s.ring.sending.isSome = true) :
    (s.putEnds i w stale).mode = s.mode ∧ (s.putEnds i w stale).effect = s.effect := by
  obtain ⟨-, mode, effect, frames, -⟩ := putWritten_kept s i w
  unfold State.putEnds
  rw [(endAccess_mem _).1]
  cases stale
  · obtain ⟨mode', effect'⟩ := putProgress_sending (s := s.putWritten i w) (by rw [frames]; exact hs)
    exact ⟨mode'.trans mode, effect'.trans effect⟩
  · exact ⟨mode, effect⟩

/-- A PUT to the entry being read: the reading begins again (R47). -/
theorem entryWritten_scanning {tr : Trigger} {e : Nat} {got : List Delivered}
    (h : s.cue.dispatch = .scanning tr e got) :
    s.entryWritten e = { s with cue.dispatch := .scanning tr e [] } := by
  simp [State.entryWritten, h]

/-- A PUT to an entry that the engine has not begun, or has handed an action of on, leaves it alone (R47). -/
theorem entryWritten_elsewhere {e : Nat} (h : s.cue.dispatch = .idle ∨
      (∃ tr e' got, s.cue.dispatch = .scanning tr e' got ∧ e' ≠ e) ∨
      (∃ tr e' acts n, s.cue.dispatch = .performing tr e' acts n ∧ (n ≠ 0 ∨ e' ≠ e))) : s.entryWritten e = s := by
  rcases h with h | ⟨tr, e', got, h, other⟩ | ⟨tr, e', acts, n, h, other⟩
  · simp [State.entryWritten, h]
  · simp [State.entryWritten, h, other]
  · have no : ¬ (e' = e ∧ n = 0) := fun k => other.elim (fun hn => hn k.2) fun he => he k.1
    simp [State.entryWritten, h, no]

end Ends

/-- Settles O52: what the word and its notices leave (`putEnds_leaves`), the PUT in the slot (`putEnds_stale`,
`putEnds_more`, `putEnds_last`), and the entry read again (`entryWritten_scanning`, `entryWritten_performing`). -/
theorem putWordIsWritten : Obligations.PutWordIsWritten := by
  intro s w i stale canonical ha
  obtain ⟨words, cue, hop, loss, scrub, owes⟩ := putEnds_leaves s i w stale
  have seven : field w 0 7 = w.toNat % 128 := by simp [field]
  refine ⟨_, exec_putWordWrite_eq ha, fun j => ?_, ?_, ?_, ?_, ?_, fun j hj => ?_, ?_, ?_, putEnds_sending⟩
  · rw [words]
    split
    · rename_i same
      rw [same, Memory.read_write_same i _ canonical]
    · exact Memory.read_write_other _ ‹_›
  · rintro rfl
    exact putEnds_stale s i w
  · rintro t first ws hit n rfl slot
    refine ⟨putEnds_more slot, fun last hb hw hl hs => ?_⟩
    rw [← seven]
    obtain ⟨empty, joined⟩ := putEnds_last (i := i) (w := w) slot last hb hw hl hs
    refine ⟨empty, joined.trans ?_⟩
    cases hit <;> rfl
  · rintro rfl
    exact ⟨hop.trans seven, loss.trans (by simp [field])⟩
  · rintro rfl
    exact scrub.trans (by simp [field])
  · refine owes j ?_
    rw [State.putWritten, writeNotice_noticed hj]
    exact owes_notice _ j
  · rintro tr e lo hi rfl
    rw [if_pos ⟨lo, hi⟩] at cue
    exact ⟨fun got h => cue.trans (by rw [entryWritten_scanning h]),
      fun acts h => cue.trans (by rw [entryWritten_performing h])⟩
  · intro h
    rw [cue]
    split
    · rename_i table
      rcases h with h | h | h
      · omega
      · omega
      · rw [entryWritten_elsewhere h]
    · rfl

end Sys2Proof.Machine
end

