-- ==== Sys2Proof/Proofs/Presses.lean ====
section
/-! PROOF. The press phases and the taking of a press (R61 to R69): each command by the button's copy and phase, and what
a press leaves of its button. -/
namespace Sys2Proof.Machine

/-! ## What a press leaves of its button -/

/-- `y` is `x` but for what a press may write: the allowance, the refill timer, the spent run, the rough flag and the
lamp. -/
def Button.Pressed (x y : Button) : Prop := y = { x with
  allowance := y.allowance, refill := y.refill, spentRun := y.spentRun, rough := y.rough, lamp := y.lamp }

theorem Button.Pressed.refl (x : Button) : x.Pressed x := rfl

theorem Button.Pressed.trans {x y z : Button} (h : x.Pressed y) (k : y.Pressed z) : x.Pressed z := by
  unfold Button.Pressed at h k
  rw [h] at k
  exact k

section Press
variable {s t : State} {b : Fin 16} {k : ButtonSettings} {kind : PressKind} {n : Nat}

theorem Retold.pressed (h : Retold s t) (b : Fin 16) : (s.btn b).Pressed (t.btn b) := by
  unfold Button.Pressed
  rw [h.btn b]

theorem retold_offerOwn (s : State) (f : Frame) : Retold s (s.offerOwn f) := by
  unfold State.offerOwn
  split
  · have joined : Retold s { s with ring.insertion := s.ring.insertion ++ [f] } := .of_eq rfl rfl rfl rfl
    exact joined.trans (retold_pump _)
  · exact .of_eq rfl rfl rfl rfl

theorem retold_fillSnapshot (s : State) (c : Cause) (m : Nat) (i : Option (Fin 16)) (x : Option ChanInfo) :
    Retold s (s.fillSnapshot c m i x) := by
  unfold State.fillSnapshot
  split
  · exact .of_eq rfl rfl rfl rfl
  · exact .refl s

theorem retold_raiseWith (s : State) (c : Cause) (m : Nat) (l : Option Level) (x : Option ChanInfo) :
    Retold s (s.raiseWith c m l x) := by
  have slot : ∀ i r, Retold s ((s.withSlot i r).fillSnapshot c m (some i) x) := fun i r =>
    (retold_withSlot s i r).trans (retold_fillSnapshot _ _ _ _ _)
  have told : ∀ i r, Retold s (((s.withSlot i r).fillSnapshot c m (some i) x).tellRecord c m).pump := fun i r =>
    ((slot i r).trans (retold_tellRecord _ _ _)).trans (retold_pump _)
  have full : Retold s { s with alert.overflow := true } := .of_eq rfl rfl rfl rfl
  unfold State.raiseWith
  split
  · split
    · dsimp only
      split
      · exact ((slot _ _).trans (retold_beaconUpdate _)).trans (retold_pump _)
      · exact told _ _
    · exact .refl s
  · split
    · exact told _ _
    · exact (full.trans (retold_fillSnapshot _ _ _ _ _)).trans (retold_beaconUpdate _)

theorem retold_offerTrigger (s : State) (t : Trigger) : Retold s (s.offerTrigger t) := by
  obtain ⟨q, d, a, p, w, e⟩ := offerTrigger_eq s t
  rw [e]
  exact .of_eq rfl rfl rfl rfl

theorem retold_sendTap (s : State) (b : Fin 16) (k : ButtonSettings) (kind : PressKind) (n : Nat) :
    Retold s (s.sendTap b k kind n) := by
  unfold State.sendTap
  split
  · exact retold_offerOwn s _
  · exact .refl s

theorem retold_dispatchPress (s : State) (b : Fin 16) (k : ButtonSettings) (kind : PressKind) (n : Nat) :
    Retold s (s.dispatchPress b k kind n) :=
  (retold_sendTap s b k kind n).trans (retold_offerTrigger _ _)

/-- A button written, and then what is told. -/
theorem pressed_withBtn {x : Button} (h : Retold (s.withBtn b x) t) (hx : (s.btn b).Pressed x) :
    (s.btn b).Pressed (t.btn b) := by
  have written := h.pressed b
  rw [btn_withBtn, if_pos rfl] at written
  exact hx.trans written

theorem allowanceTest_pressed (s : State) (b : Fin 16) (k : ButtonSettings) (kind : PressKind) (n : Nat) :
    (s.btn b).Pressed ((s.allowanceTest b k kind n).btn b) := by
  unfold State.allowanceTest
  split
  · exact (retold_dispatchPress s b k kind n).pressed b
  · unfold State.spendPress
    dsimp only
    split
    · exact pressed_withBtn (retold_raiseWith _ _ _ _ _) rfl
    · exact pressed_withBtn (.refl _) rfl
  · exact pressed_withBtn (retold_dispatchPress _ b k kind n) rfl

theorem pressTests_pressed (s : State) (b : Fin 16) (k : ButtonSettings) (kind : PressKind) (n : Nat) :
    (s.btn b).Pressed ((s.pressTests b k kind n).btn b) := by
  unfold State.pressTests
  split
  · exact .refl _
  · split
    · exact .refl _
    · exact (retold_sendTap s b k kind n).pressed b
    · exact allowanceTest_pressed s b k kind n

theorem takePress_pressed (s : State) (b : Fin 16) (kind : PressKind) (n : Nat) :
    (s.btn b).Pressed ((s.takePress b kind n).btn b) := by
  unfold State.takePress
  split
  · next k _ =>
    split
    · have raised : Retold s (if k.help then s.raise .help b.val else s) := by
        split
        · exact retold_raiseWith s _ _ _ _
        · exact .refl s
      exact ((raised.pressed b).trans (pressTests_pressed _ b k kind n)).trans ((retold_lampUpdate _ b).pressed b)
    · exact .refl _
  all_goals exact .refl _

end Press

/-! ## Press phases (R61 to R64) -/

section Phases
variable {s : State} {b : Fin 16} {k : ButtonSettings}

theorem acceptedClosure_next (hs : s.sampling = true) (hp : (s.btn b).primed = true) (hc : (s.btn b).closed = false) :
    exec (.acceptedClosure b) s = .next (s.closureAccepted b) :=
  congrArg Host.Outcome.next (if_pos ⟨hs, hp, hc⟩)

theorem acceptedRelease_next (hs : s.sampling = true) (hp : (s.btn b).primed = true) (hc : (s.btn b).closed = true) :
    exec (.acceptedRelease b) s = .next (s.releaseAccepted b) :=
  congrArg Host.Outcome.next (if_pos ⟨hs, hp, hc⟩)

theorem holdTimeReached_next (h : (s.btn b).phase = .timing) :
    exec (.holdTimeReached b) s = .next (s.holdReached b) :=
  congrArg Host.Outcome.next (if_pos h)

/-- In TIMING the HOLD press of the same millisecond comes first (R64). -/
theorem stuckTimeReached_next_timing (hs : (s.btn b).stuckTiming = true) (h : (s.btn b).phase = .timing) :
    exec (.stuckTimeReached b) s = .next ((s.holdReached b).stuckReached b) :=
  congrArg Host.Outcome.next (if_pos ⟨hs, h⟩)

theorem stuckTimeReached_next_settled (hs : (s.btn b).stuckTiming = true) (h : (s.btn b).phase = .settled) :
    exec (.stuckTimeReached b) s = .next (s.stuckReached b) :=
  congrArg Host.Outcome.next ((if_neg (by simp [h])).trans (if_pos ⟨hs, h⟩))

/-- A closure of an enabled button with a hold time is timed. -/
theorem closureAccepted_timed (hk : (s.btn b).held = .copy k) (he : k.enabled = true) (h : k.hold ≠ 0) :
    s.closureAccepted b = s.withBtn b { s.btn b with
      closed := true, pin := true, count := 0, phase := .timing, closure := 0
      holdInForce := k.hold, stuckInForce := k.stuck, stuckTiming := true } := by
  unfold State.closureAccepted
  simp only [hk, he, h, if_true, if_false]

/-- Where the hold time is 0 the press is taken at once. -/
theorem closureAccepted_at_once (hk : (s.btn b).held = .copy k) (he : k.enabled = true) (h : k.hold = 0) :
    s.closureAccepted b = (s.withBtn b { s.btn b with
      closed := true, pin := true, count := 0, phase := .settled, closure := 0
      holdInForce := 0, stuckInForce := k.stuck, stuckTiming := true }).takePress b .short 0 := by
  unfold State.closureAccepted
  simp only [hk, he, h, if_true]

/-- A closure of a button that is not enabled settles, untimed. -/
theorem closureAccepted_untimed (h : (s.btn b).enabled = false) :
    s.closureAccepted b = s.withBtn b { s.btn b with
      closed := true, pin := true, count := 0, phase := .settled, stuckTiming := false } := by
  unfold Button.enabled at h
  unfold State.closureAccepted
  cases hk : (s.btn b).held with
  | copy k =>
    rw [hk] at h
    simp only [hk, show k.enabled = false from h, Bool.false_eq_true, if_false]
  | absent => simp only [hk]
  | damaged => simp only [hk]

/-- What a release writes of its button before anything is told. -/
def State.buttonOpened (s : State) (b : Fin 16) : State := s.withBtn b { s.btn b with
  closed := false, pin := false, count := 0, phase := .released, stuckTiming := false }

theorem releaseAccepted_timing (h : (s.btn b).phase = .timing) : s.releaseAccepted b =
    (s.buttonOpened b).takePress b .short (min 65535 (max 1 ((s.btn b).closure / 10))) := by
  unfold State.releaseAccepted
  simp only [h]
  rfl

theorem releaseAccepted_stuck (h : (s.btn b).phase = .stuck) : s.releaseAccepted b =
    ((s.buttonOpened b).conditionEnd .buttonStuck b.val).lampUpdate b := by
  unfold State.releaseAccepted
  simp only [h]
  rfl

theorem releaseAccepted_quiet (h : (s.btn b).phase = .settled ∨ (s.btn b).phase = .released) :
    s.releaseAccepted b = s.buttonOpened b := by
  unfold State.releaseAccepted
  rcases h with h | h <;> simp only [h] <;> rfl

/-- After a release the button is as it was written, but for what a press may write. -/
theorem releaseAccepted_pressed (s : State) (b : Fin 16) :
    ((s.buttonOpened b).btn b).Pressed ((s.releaseAccepted b).btn b) := by
  cases h : (s.btn b).phase with
  | released =>
    rw [releaseAccepted_quiet (.inr h)]
    exact .refl _
  | timing =>
    rw [releaseAccepted_timing h]
    exact takePress_pressed _ b _ _
  | settled =>
    rw [releaseAccepted_quiet (.inl h)]
    exact .refl _
  | stuck =>
    rw [releaseAccepted_stuck h]
    exact ((retold_conditionEnd _ _ _).trans (retold_lampUpdate _ b)).pressed b

end Phases

/-- Settles O23: the closure timed, taken at once, or untimed, by the button's copy and hold time. -/
theorem closureIsAccepted : Obligations.ClosureIsAccepted := by
  intro b s hs hp hc
  rw [acceptedClosure_next hs hp hc]
  exact ⟨fun k hk he h => congrArg _ (closureAccepted_timed hk he h),
    fun k hk he h => congrArg _ (closureAccepted_at_once hk he h), fun h => congrArg _ (closureAccepted_untimed h)⟩

/-- Settles O24: the release by the phase it ends; the closure time stands. -/
theorem releaseIsAccepted : Obligations.ReleaseIsAccepted := by
  refine fun b s hs hp hc => ⟨(s.btn b).closure, ?_⟩
  rintro u rfl
  rw [acceptedRelease_next hs hp hc]
  exact ⟨fun h => congrArg _ (releaseAccepted_timing h), fun h => congrArg _ (releaseAccepted_quiet (.inl h)),
    fun h => congrArg _ (releaseAccepted_stuck h)⟩

/-- Settles O25: the release by `releaseAccepted_pressed`, the two times by the phase in which they are reached. -/
theorem closureTimesOut : Obligations.ClosureTimesOut := by
  intro b s
  refine ⟨fun hs hp hc => ⟨_, acceptedRelease_next hs hp hc, ?_⟩, holdTimeReached_next,
    stuckTimeReached_next_settled, fun hs h => ⟨_, _, holdTimeReached_next h, stuckTimeReached_next_timing hs h, rfl⟩⟩
  have left := releaseAccepted_pressed s b
  rw [State.buttonOpened, btn_withBtn, if_pos rfl] at left
  rw [left]
  exact ⟨rfl, rfl, rfl, rfl, rfl⟩

/-! ## Taking a press (R65 to R69) -/

section Taken
variable {s : State} {b : Fin 16} {k : ButtonSettings} {kind : PressKind} {n m : Nat}

/-! ### The mode's answer (R26, R27) -/

theorem lossRestricts_iff : s.lossRestricts = true ↔ s.mode.lineLost = true ∧ s.mode.localPlay ≠ some true := by
  simp [State.lossRestricts, State.localPlayOn]

theorem lossRestricts_false (h : s.mode.lineLost = false ∨ s.mode.localPlay = some true) : s.lossRestricts = false := by
  rw [← Bool.not_eq_true, lossRestricts_iff]
  rintro ⟨lost, off⟩
  rcases h with h | h
  · simp [lost] at h
  · exact off h

theorem pressAnswer_held (h : s.mode.mode = .held) (help : Bool) : s.pressAnswer help = .ignored := by
  simp [State.pressAnswer, h]

theorem pressAnswer_help (h : s.mode.mode = .opened ∨ s.mode.mode = .quiet ∨ s.mode.mode = .closed) :
    s.pressAnswer true = .dispatched := by
  rcases h with h | h | h <;> simp [State.pressAnswer, h]

theorem pressAnswer_help_service (h : s.mode.mode = .service) : s.pressAnswer true = .reported := by
  simp [State.pressAnswer, h]

theorem pressAnswer_plain_closed (h : s.mode.mode = .closed) : s.pressAnswer false = .ignored := by
  simp [State.pressAnswer, h]

/-- While the line is lost without local-play a PLAIN press is ignored in every mode (R27). -/
theorem pressAnswer_plain_lost (h : s.lossRestricts = true) : s.pressAnswer false = .ignored := by
  unfold State.pressAnswer
  cases s.mode.mode <;> simp [h]

theorem pressAnswer_plain_dispatched (h : s.lossRestricts = false)
    (hm : s.mode.mode = .opened ∨ s.mode.mode = .quiet) : s.pressAnswer false = .dispatched := by
  rcases hm with hm | hm <;> simp [State.pressAnswer, hm, h]

theorem pressAnswer_plain_reported (h : s.lossRestricts = false) (hm : s.mode.mode = .service) :
    s.pressAnswer false = .reported := by
  simp [State.pressAnswer, hm, h]

/-! ### TAP and allowance (R66 to R69) -/

theorem sendTap_eq (s : State) (b : Fin 16) (k : ButtonSettings) (kind : PressKind) (n : Nat) :
    s.sendTap b k kind n = if k.reportTap then
      s.offerOwn ⟨0x11, 0, s.address, BitVec.ofNat 8 s.ring.hopLimit, [BitVec.ofNat 8 b.val,
        (match kind with | .short => 0 | .hold => 1), BitVec.ofNat 8 (n / 256), BitVec.ofNat 8 n]⟩
      else s := by
  unfold State.sendTap tapPayload
  rw [bytesBE_two]
  cases kind <;> rfl

theorem allowanceTest_uncounted (h : (s.btn b).allowance = none) :
    s.allowanceTest b k kind n = (s.sendTap b k kind n).offerTrigger (.localPress b kind) := by
  unfold State.allowanceTest
  rw [h]
  rfl

/-- A unit of the allowance is consumed; from full the refill timer starts. -/
theorem allowanceTest_counted (h : (s.btn b).allowance = some (m + 1)) : s.allowanceTest b k kind n =
    ((s.withBtn b { s.btn b with
      allowance := some m, spentRun := 0
      refill := if m + 1 = k.allowance then some (k.refill * 100) else (s.btn b).refill }).sendTap
        b k kind n).offerTrigger (.localPress b kind) := by
  unfold State.allowanceTest
  rw [h]
  rfl

/-- With the allowance exhausted the press is spent; at the threshold ROUGH-HANDLING is raised. -/
theorem allowanceTest_exhausted (h : (s.btn b).allowance = some 0) : s.allowanceTest b k kind n =
    if k.rough ≠ 0 ∧ k.rough ≤ inc8 (s.btn b).spentRun then
      (s.withBtn b { s.btn b with spentRun := inc8 (s.btn b).spentRun, rough := true }).raise .roughHandling b.val
    else s.withBtn b { s.btn b with spentRun := inc8 (s.btn b).spentRun } := by
  unfold State.allowanceTest
  rw [h]
  rfl

/-! ### The tests in order (R65) -/

theorem takePress_disabled (hk : (s.btn b).held = .copy k) (he : k.enabled = false) : s.takePress b kind n = s := by
  simp [State.takePress, hk, he]

/-- A HELP button raises HELP before its press is tested. -/
theorem takePress_help (hk : (s.btn b).held = .copy k) (he : k.enabled = true) (hh : k.help = true) :
    s.takePress b kind n = ((s.raise .help b.val).pressTests b k kind n).lampUpdate b := by
  simp [State.takePress, hk, he, hh]

theorem takePress_plain (hk : (s.btn b).held = .copy k) (he : k.enabled = true) (hh : k.help = false) :
    s.takePress b kind n = (s.pressTests b k kind n).lampUpdate b := by
  simp [State.takePress, hk, he, hh]

theorem pressTests_locked (hh : k.help = false) (hl : (s.btn b).lock = true) : s.pressTests b k kind n = s :=
  if_pos ⟨hh, hl⟩

/-- A HELP button, and one that is not locked, meets the mode's answer. -/
theorem pressTests_free (h : k.help = true ∨ (s.btn b).lock = false) : s.pressTests b k kind n =
    match s.pressAnswer k.help with
    | .ignored => s
    | .reported => s.sendTap b k kind n
    | .dispatched => s.allowanceTest b k kind n := by
  refine if_neg ?_
  rintro ⟨plain, locked⟩
  rcases h with h | h
  · simp [plain] at h
  · simp [locked] at h

theorem pressTests_ignored (h : s.pressAnswer k.help = .ignored) : s.pressTests b k kind n = s := by
  unfold State.pressTests
  rw [h]
  exact ite_self s

theorem pressTests_reported (h : k.help = true ∨ (s.btn b).lock = false) (ha : s.pressAnswer k.help = .reported) :
    s.pressTests b k kind n = s.sendTap b k kind n := by
  rw [pressTests_free h, ha]

theorem pressTests_dispatched (h : k.help = true ∨ (s.btn b).lock = false) (ha : s.pressAnswer k.help = .dispatched) :
    s.pressTests b k kind n = s.allowanceTest b k kind n := by
  rw [pressTests_free h, ha]

end Taken

/-- Settles O26: the mode's answer by mode, the allowance test by the count, and the tests of a press by the button's
kind and lock; a HELP raise leaves the mode. -/
theorem pressIsTaken : Obligations.PressIsTaken := by
  refine ⟨fun s help => ⟨fun h => pressAnswer_held h help, pressAnswer_help, pressAnswer_help_service, ?_, fun h =>
      ⟨pressAnswer_plain_dispatched (lossRestricts_false h), pressAnswer_plain_reported (lossRestricts_false h)⟩⟩,
    fun s b k kind n => ⟨sendTap_eq s b k kind n, allowanceTest_uncounted, fun m => allowanceTest_counted,
      allowanceTest_exhausted⟩,
    fun s b k kind n hk => ⟨takePress_disabled hk, ?_⟩⟩
  · rintro (closed | lost)
    · exact pressAnswer_plain_closed closed
    · exact pressAnswer_plain_lost (lossRestricts_iff.mpr lost)
  have mode : (s.raise .help b.val).mode.mode = s.mode.mode := (sent_raiseWith s .help b.val none none).mode
  refine ⟨fun he hh hm => ?_, fun he hh hm => ?_, fun he hh hm => ?_,
    fun he hh => ⟨?_, fun hl ha => ?_, fun hl ha => ?_⟩⟩
  · rw [takePress_help hk he hh, pressTests_ignored (pressAnswer_held (mode.trans hm) _)]
  · rw [takePress_help hk he hh, pressTests_reported (.inl hh) (hh ▸ pressAnswer_help_service (mode.trans hm))]
  · rw [takePress_help hk he hh, pressTests_dispatched (.inl hh) (hh ▸ pressAnswer_help (mode ▸ hm))]
  · rintro (locked | ignored)
    · rw [takePress_plain hk he hh, pressTests_locked hh locked]
    · rw [takePress_plain hk he hh, pressTests_ignored (hh ▸ ignored)]
  · rw [takePress_plain hk he hh, pressTests_reported (.inr hl) (hh ▸ ha)]
  · rw [takePress_plain hk he hh, pressTests_dispatched (.inr hl) (hh ▸ ha)]

/-! ## The refill timer (R67) -/

section Refill
variable {s : State} {b : Fin 16} {k : ButtonSettings} {n : Nat}

/-- A timer that is stopped, or has time left, has no expiry. -/
theorem refillExpiry_next_idle (h : (s.btn b).refill ≠ some 0) : exec (.refillExpiry b) s = .next s := by
  refine congrArg Host.Outcome.next ?_
  dsimp only
  split
  · exact absurd ‹_› h
  · rfl

theorem refillExpiry_next (hk : (s.btn b).held = .copy k) (ha : (s.btn b).allowance = some n)
    (hr : (s.btn b).refill = some 0) : exec (.refillExpiry b) s = .next
      (if n + 1 < k.allowance then
        (s.withBtn b { s.btn b with allowance := some (n + 1), refill := some (k.refill * 100) }).lampUpdate b
      else (if (s.btn b).rough then (s.withBtn b { s.btn b with
          allowance := some k.allowance, refill := none, rough := false }).conditionEnd .roughHandling b.val
        else s.withBtn b { s.btn b with
          allowance := some k.allowance, refill := none, rough := false }).lampUpdate b) := by
  refine congrArg Host.Outcome.next ?_
  simp only [hk, ha, hr]
  rfl

end Refill

/-- Settles O27: one unit more, or the last one, with the end of ROUGH-HANDLING at a rough button. -/
theorem refillRestoresUnit : Obligations.RefillRestoresUnit := by
  refine ⟨fun b s => refillExpiry_next_idle, fun b s k n hk ha hr => ?_⟩
  rw [refillExpiry_next hk ha hr]
  refine ⟨fun more => by rw [if_pos more], fun full smooth => ?_, fun full rough => ?_⟩
  · rw [if_neg (by omega), smooth, if_neg Bool.false_ne_true, ← smooth]
  · rw [if_neg (by omega), if_pos rough]

end Sys2Proof.Machine
end

