-- ==== Sys2Proof/Proofs/Samples.lean ====
section
/-! PROOF. One sample of an input (R60, R76, R81, R96, R97, R110, R144): the debounced levels of a button and of the
key, the count of a guard, and the levels that a tick reads. -/
namespace Sys2Proof.Machine

section Samples
variable {s : State} {v : Bool}

theorem inputSample_early (h : s.sampling = false) (x : Input) : exec (.inputSample x v) s = .next s :=
  congrArg Host.Outcome.next (if_neg (by simp [h]))

theorem inputSample_next (h : s.sampling = true) (x : Input) : exec (.inputSample x v) s = .next (s.sample x v) :=
  congrArg Host.Outcome.next (if_pos h)

/-! ## A button (R60, R76) -/

section Button
variable {b : Fin 16}

theorem sampleButton_first (h : (s.btn b).primed = false) :
    s.sampleButton b v = s.withBtn b ((s.btn b).firstSample v) := if_pos h

/-- The first sample is the debounced level. -/
theorem firstSample_level (x : Button) (v : Bool) : (x.firstSample v).closed = v ∧ (x.firstSample v).primed = true ∧
    (x.firstSample v).count = 0 ∧ (x.firstSample v).phase = if v then .settled else .released := by
  unfold Button.firstSample Button.timeStuck
  dsimp only
  split
  · split <;> exact ⟨rfl, rfl, rfl, rfl⟩
  all_goals exact ⟨rfl, rfl, rfl, rfl⟩

/-- An equal sample returns the count to 0. -/
theorem sampleButton_equal (hp : (s.btn b).primed = true) (hv : v = (s.btn b).closed) :
    s.sampleButton b v = s.withBtn b { s.btn b with pin := v, count := 0 } :=
  (if_neg (by simp [hp])).trans (if_pos hv)

theorem sampleButton_counted (hp : (s.btn b).primed = true) (hv : v ≠ (s.btn b).closed)
    (hc : (s.btn b).count + 1 < (s.btn b).debounce) :
    s.sampleButton b v = s.withBtn b { s.btn b with pin := v, count := (s.btn b).count + 1 } :=
  (if_neg (by simp [hp])).trans ((if_neg hv).trans (if_pos hc))

/-- After the debounce time the level is taken. -/
theorem sampleButton_taken (hp : (s.btn b).primed = true) (hv : v ≠ (s.btn b).closed)
    (hc : (s.btn b).debounce ≤ (s.btn b).count + 1) :
    s.sampleButton b v = if v then s.closureAccepted b else s.releaseAccepted b :=
  (if_neg (by simp [hp])).trans ((if_neg hv).trans (if_neg (Nat.not_lt.mpr hc)))

theorem inputSample_button (hs : s.sampling = true) (b : Fin 16) :
    ((s.btn b).primed = false → ∃ t, exec (.inputSample (.button b) v) s = .next t ∧
      (t.btn b).closed = v ∧ (t.btn b).primed = true ∧ (t.btn b).count = 0 ∧
      (t.btn b).phase = (if v then .settled else .released) ∧ t = s.withBtn b (t.btn b)) ∧
    ((s.btn b).primed = true → v = (s.btn b).closed → exec (.inputSample (.button b) v) s = .next
      (s.withBtn b { s.btn b with pin := v, count := 0 })) ∧
    ((s.btn b).primed = true → v ≠ (s.btn b).closed →
      ((s.btn b).count + 1 < (s.btn b).debounce → exec (.inputSample (.button b) v) s = .next
        (s.withBtn b { s.btn b with pin := v, count := (s.btn b).count + 1 })) ∧
      ((s.btn b).debounce ≤ (s.btn b).count + 1 → exec (.inputSample (.button b) v) s =
        exec (if v then .acceptedClosure b else .acceptedRelease b) s)) := by
  rw [inputSample_next hs]
  refine ⟨fun hp => ⟨_, congrArg _ (sampleButton_first hp), ?_⟩, fun hp hv => congrArg _ (sampleButton_equal hp hv),
    fun hp hv => ⟨fun hc => congrArg _ (sampleButton_counted hp hv hc), fun hc => ?_⟩⟩
  · obtain ⟨closed, primed, count, phase⟩ := firstSample_level (s.btn b) v
    rw [btn_withBtn, if_pos rfl]
    exact ⟨closed, primed, count, phase, rfl⟩
  · refine (congrArg _ (sampleButton_taken hp hv hc)).trans ?_
    cases v
    · exact (acceptedRelease_next hs hp (by simpa using hv.symm)).symm
    · exact (acceptedClosure_next hs hp (by simpa using hv.symm)).symm

end Button

/-! ## The attendant key (R144) -/

theorem sampleKey_first (h : s.alert.key.primed = false) :
    s.sampleKey v = { s with alert.key := ⟨v, true, v, 0⟩ } := if_pos h

theorem sampleKey_equal (hp : s.alert.key.primed = true) (hv : v = s.alert.key.closed) :
    s.sampleKey v = { s with alert.key.pin := v, alert.key.count := 0 } :=
  (if_neg (by simp [hp])).trans (if_pos hv)

theorem sampleKey_counted (hp : s.alert.key.primed = true) (hv : v ≠ s.alert.key.closed)
    (hc : s.alert.key.count + 1 < 20) :
    s.sampleKey v = { s with alert.key.pin := v, alert.key.count := s.alert.key.count + 1 } :=
  (if_neg (by simp [hp])).trans ((if_neg hv).trans (if_pos hc))

/-- The 20th sample is the key's level; a closure acknowledges. -/
theorem sampleKey_taken (hp : s.alert.key.primed = true) (hv : v ≠ s.alert.key.closed)
    (hc : 20 ≤ s.alert.key.count + 1) : s.sampleKey v =
      if v then State.keyClosed { s with alert.key.pin := v, alert.key.closed := v, alert.key.count := 0 }
      else { s with alert.key.pin := v, alert.key.closed := v, alert.key.count := 0 } :=
  (if_neg (by simp [hp])).trans ((if_neg hv).trans (if_neg (Nat.not_lt.mpr hc)))

theorem keyClosure_next (hs : s.sampling = true) (hp : s.alert.key.primed = true) (hc : s.alert.key.closed = false) :
    exec .keyClosure s =
      .next (State.keyClosed { s with alert.key.pin := true, alert.key.closed := true, alert.key.count := 0 }) :=
  congrArg Host.Outcome.next (if_pos ⟨hs, hp, hc⟩)

theorem inputSample_key (hs : s.sampling = true) :
    (s.alert.key.primed = false → exec (.inputSample .key v) s = .next { s with alert.key := ⟨v, true, v, 0⟩ }) ∧
    (s.alert.key.primed = true → v = s.alert.key.closed → exec (.inputSample .key v) s = .next
      { s with alert.key.pin := v, alert.key.count := 0 }) ∧
    (s.alert.key.primed = true → v ≠ s.alert.key.closed →
      (s.alert.key.count + 1 < 20 → exec (.inputSample .key v) s = .next
        { s with alert.key.pin := v, alert.key.count := s.alert.key.count + 1 }) ∧
      (20 ≤ s.alert.key.count + 1 → v = true → exec (.inputSample .key v) s = exec .keyClosure s) ∧
      (20 ≤ s.alert.key.count + 1 → v = false → exec (.inputSample .key v) s = .next
        { s with alert.key.pin := v, alert.key.closed := v, alert.key.count := 0 })) := by
  rw [inputSample_next hs]
  refine ⟨fun hp => congrArg _ (sampleKey_first hp), fun hp hv => congrArg _ (sampleKey_equal hp hv),
    fun hp hv => ⟨fun hc => congrArg _ (sampleKey_counted hp hv hc), ?_, ?_⟩⟩
  · rintro hc rfl
    exact (congrArg _ (sampleKey_taken hp hv hc)).trans (keyClosure_next hs hp (by simpa using hv.symm)).symm
  · rintro hc rfl
    exact congrArg _ (sampleKey_taken hp hv hc)

/-! ## A guard (R81) -/

section Guard
variable {g : Fin 4}

/-- A guard opens at one open sample. -/
theorem sampleGuard_opens (h : (s.guardIn g).isOpen = false) : s.sampleGuard g true = s.guardOpened g :=
  (if_neg (by simp [h])).trans (if_pos rfl)

theorem sampleGuard_stays_closed (h : (s.guardIn g).isOpen = false) :
    s.sampleGuard g false = s.withGuard g { s.guardIn g with pin := false } :=
  (if_neg (by simp [h])).trans (if_neg Bool.false_ne_true)

theorem sampleGuard_stays_open (h : (s.guardIn g).isOpen = true) :
    s.sampleGuard g true = s.withGuard g { s.guardIn g with pin := true, count := 0 } :=
  (if_pos h).trans (if_pos rfl)

theorem sampleGuard_counted (h : (s.guardIn g).isOpen = true) (hc : (s.guardIn g).count + 1 < 10) :
    s.sampleGuard g false = s.withGuard g { s.guardIn g with pin := false, count := (s.guardIn g).count + 1 } :=
  (if_pos h).trans ((if_neg Bool.false_ne_true).trans (if_pos hc))

/-- It closes at the tenth closed one. -/
theorem sampleGuard_closes (h : (s.guardIn g).isOpen = true) (hc : 10 ≤ (s.guardIn g).count + 1) :
    s.sampleGuard g false = s.guardClosing g :=
  (if_pos h).trans ((if_neg Bool.false_ne_true).trans (if_neg (Nat.not_lt.mpr hc)))

theorem inputSample_guard (hs : s.sampling = true) (g : Fin 4) :
    ((s.guardIn g).isOpen = false → v = true →
      exec (.inputSample (.guard g) v) s = exec (.guardOpening g) s) ∧
    ((s.guardIn g).isOpen = false → v = false → exec (.inputSample (.guard g) v) s = .next
      (s.withGuard g { s.guardIn g with pin := false })) ∧
    ((s.guardIn g).isOpen = true → v = true → exec (.inputSample (.guard g) v) s = .next
      (s.withGuard g { s.guardIn g with pin := true, count := 0 })) ∧
    ((s.guardIn g).isOpen = true → v = false → (s.guardIn g).count + 1 < 10 →
      exec (.inputSample (.guard g) v) s = .next
        (s.withGuard g { s.guardIn g with pin := false, count := (s.guardIn g).count + 1 })) ∧
    ((s.guardIn g).isOpen = true → v = false → 10 ≤ (s.guardIn g).count + 1 →
      exec (.inputSample (.guard g) v) s = exec (.guardClosing g) s) := by
  rw [inputSample_next hs]
  have opening : (s.guardIn g).isOpen = false → exec (.guardOpening g) s = .next (s.guardOpened g) := fun h =>
    congrArg Host.Outcome.next (if_pos ⟨hs, h⟩)
  have closing : (s.guardIn g).isOpen = true → exec (.guardClosing g) s = .next (s.guardClosing g) := fun h =>
    congrArg Host.Outcome.next (if_pos ⟨hs, h⟩)
  refine ⟨?_, ?_, ?_, ?_, ?_⟩
  · rintro h rfl
    exact (congrArg _ (sampleGuard_opens h)).trans (opening h).symm
  · rintro h rfl
    exact congrArg _ (sampleGuard_stays_closed h)
  · rintro h rfl
    exact congrArg _ (sampleGuard_stays_open h)
  · rintro h rfl hc
    exact congrArg _ (sampleGuard_counted h hc)
  · rintro h rfl hc
    exact (congrArg _ (sampleGuard_closes h hc)).trans (closing h).symm

end Guard

/-! ## FAR and FAULT (R96 to R98, R110) -/

/-- A clear FAULT acts at once. -/
theorem sampleFault_clear (c : Fin 4) : s.sampleFault c false = s.faultClear c :=
  (if_neg (by simp)).trans (if_neg Bool.false_ne_true)

theorem faultInput_next (hs : s.sampling = true) (c : Fin 4) :
    exec (.farCleared c) s = .next (s.farClear c) ∧ exec (.driverFault c) s = .next (s.faultAsserted c) ∧
      exec (.faultInputCleared c) s = .next (s.faultClear c) :=
  ⟨congrArg Host.Outcome.next (if_pos hs), congrArg Host.Outcome.next (if_pos hs),
    congrArg Host.Outcome.next (if_pos hs)⟩

end Samples

/-- Settles O60: each input by its own sample; the channels' by whether the tick reads the level. -/
theorem inputsAreSampled : Obligations.InputsAreSampled := by
  refine fun s x v => ⟨fun early => inputSample_early early x, fun hs => ⟨?_, ?_, ?_, fun c => ⟨?_, ?_, ?_, ?_, ?_, ?_⟩⟩⟩
  · rintro b rfl
    exact inputSample_button hs b
  · rintro rfl
    exact inputSample_key hs
  · rintro g rfl
    exact inputSample_guard hs g
  all_goals obtain ⟨farCleared, driverFault, faultCleared⟩ := faultInput_next hs c
  · rintro rfl
    exact inputSample_next hs _
  · rintro rfl rfl
    exact inputSample_next hs _
  · rintro rfl rfl
    exact (inputSample_next hs _).trans farCleared.symm
  · rintro rfl rfl moving
    exact (inputSample_next hs _).trans (congrArg _ (sampleFault_inMotion ((inMotion_iff _).mpr moving)))
  · rintro rfl rfl homing moving stopping
    have still : (s.chan c).state.inMotion = false := by
      rw [← Bool.not_eq_true, inMotion_iff]
      simp [homing, moving, stopping]
    exact (inputSample_next hs _).trans ((congrArg _ (sampleFault_still still)).trans driverFault.symm)
  · rintro rfl rfl
    exact (inputSample_next hs _).trans ((congrArg _ (sampleFault_clear c)).trans faultCleared.symm)

end Sys2Proof.Machine
end

