-- ==== Sys2Proof/Proofs/ButtonCopies.lean ====
section
/-! PROOF. The words of a button entry (R58, R159), and what a new copy of it makes of the button (R59): each changed
field, the conditions that end, and TABLE-DAMAGE. -/
namespace Sys2Proof.Machine

/-! ## The words of an entry (section 11.3) -/

/-- The fields of the first word of a button entry. -/
def buttonRules : List FieldRule := [anyValue 0 3, codeField 8 8 (indexOrNone 4)]

/-- The fields of the second and the third word: three numbers of 8 bits. -/
def byteRules (f g h : Nat → Nat) : List FieldRule := [numField 0 8 f, numField 8 8 g, numField 16 8 h]

section Words
variable {w : Word}

theorem buttonRules_fit : ∀ q ∈ buttonRules, Fits q := by
  simp only [buttonRules, List.forall_mem_cons]
  exact ⟨fits_anyValue (by omega), fits_codeField (by omega), by simp⟩

theorem buttonRules_apart : buttonRules.Pairwise Apart := by simp [buttonRules, Apart, anyValue, codeField]

theorem buttonRules_ok : (∀ r ∈ buttonRules, r.ok (field w r.lo r.len) = true) ↔
    ¬ (4 ≤ field w 8 8 ∧ field w 8 8 ≠ 255) := by
  simp only [buttonRules, List.forall_mem_cons, anyValue, codeField, indexOrNone, List.not_mem_nil, Bool.or_eq_true,
    decide_eq_true_eq, beq_iff_eq, true_and, false_imp_iff, implies_true, and_true]
  omega

theorem flag_buttonRules {i : Nat} (hi : i < 3) : flag (assembled buttonRules w) i = w.getLsbD i :=
  flag_assembled (lo := 0) (len := 3) (by simp [buttonRules]) buttonRules_fit buttonRules_apart (Nat.zero_le i)
    (by omega)

theorem lamp_buttonRules : field (assembled buttonRules w) 8 8 = field w 8 8 :=
  field_assembled (r := codeField 8 8 (indexOrNone 4)) (by simp [buttonRules]) buttonRules_fit buttonRules_apart

/-- A word of three numbers reads as their rules leave them. -/
theorem readWord_bytes {t off i : Nat} {f g h : Nat → Nat} (hr : wordRules t off i false w = byteRules f g h)
    (small : ∀ x, x < 256 → f x < 256 ∧ g x < 256 ∧ h x < 256) :
    ∃ a, readWord t off i false ⟨w, false⟩ = some a ∧ field a 0 8 = f (field w 0 8) ∧
      field a 8 8 = g (field w 8 8) ∧ field a 16 8 = h (field w 16 8) := by
  have fits : ∀ q ∈ byteRules f g h, Fits q := by
    simp only [byteRules, List.forall_mem_cons]
    exact ⟨fits_numField (by omega) fun x hx => (small x hx).1, fits_numField (by omega) fun x hx => (small x hx).2.1,
      fits_numField (by omega) fun x hx => (small x hx).2.2, by simp⟩
  have apart : (byteRules f g h).Pairwise Apart := by simp [byteRules, Apart, numField]
  exact ⟨_, readWord_some hr (by simp [byteRules, numField]),
    field_assembled (r := numField 0 8 f) (by simp [byteRules]) fits apart,
    field_assembled (r := numField 8 8 g) (by simp [byteRules]) fits apart,
    field_assembled (r := numField 16 8 h) (by simp [byteRules]) fits apart⟩

theorem fixHold_lt (x : Nat) : fixHold x < 256 := by
  unfold fixHold
  split
  · omega
  · exact clampNat_lt (by omega) (by omega)

theorem buttonOfWords_clean (w0 w1 w2 w3 : Word) :
    buttonOfWords [⟨w0, false⟩, ⟨w1, false⟩, ⟨w2, false⟩, ⟨w3, false⟩] =
      if 4 ≤ field w0 8 8 ∧ field w0 8 8 ≠ 255 then .damaged else .copy
        { enabled := w0.getLsbD 0, help := w0.getLsbD 1, reportTap := w0.getLsbD 2
          lampChannel := if field w0 8 8 = 255 then none else some (Fin.ofNat 4 (field w0 8 8))
          debounce := clampNat 1 50 (field w1 0 8), hold := fixHold (field w1 8 8)
          stuck := clampNat 10 120 (field w1 16 8), allowance := clampNat 0 15 (field w2 0 8)
          rough := clampNat 0 15 (field w2 8 8), refill := clampNat 1 255 (field w2 16 8) } := by
  unfold buttonOfWords nthWord
  simp only [List.getD_cons_zero, List.getD_cons_succ]
  by_cases damaged : 4 ≤ field w0 8 8 ∧ field w0 8 8 ≠ 255
  · have invalid : ¬ ∀ r ∈ buttonRules, r.ok (field w0 r.lo r.len) = true := fun ok => buttonRules_ok.mp ok damaged
    push Not at invalid
    obtain ⟨r, hr, no⟩ := invalid
    have read : readWord 4 0 0 false ⟨w0, false⟩ = none := by
      unfold readWord
      rw [if_neg (by simp)]
      exact applyRules_none hr (by simpa using no)
    rw [read, if_pos damaged]
  · have read0 : readWord 4 0 0 false ⟨w0, false⟩ = some (assembled buttonRules w0) :=
      readWord_some rfl (buttonRules_ok.mpr damaged)
    obtain ⟨b, read1, debounce, hold, stuck⟩ := readWord_bytes (t := 4) (off := 1) (i := 1) (w := w1) rfl fun x _ =>
      ⟨clampNat_lt (by omega) (by omega), fixHold_lt x, clampNat_lt (by omega) (by omega)⟩
    obtain ⟨c, read2, allowance, rough, refill⟩ := readWord_bytes (t := 4) (off := 2) (i := 2) (w := w2) rfl fun x _ =>
      ⟨clampNat_lt (by omega) (by omega), clampNat_lt (by omega) (by omega), clampNat_lt (by omega) (by omega)⟩
    rw [if_neg damaged]
    simp only [read0, read1, read2, flag_buttonRules, Nat.reduceLT, lamp_buttonRules, debounce, hold, stuck,
      allowance, rough, refill]
    rfl

theorem buttonOfWords_bad {d0 d1 d2 d3 : Delivered}
    (h : d0.bad = true ∨ d1.bad = true ∨ d2.bad = true ∨ d3.bad = true) :
    buttonOfWords [d0, d1, d2, d3] = .damaged := by
  unfold buttonOfWords nthWord
  simp only [List.getD_cons_zero, List.getD_cons_succ]
  split
  · next read0 read1 read2 good =>
    rcases h with h | h | h | h
    · rw [readWord_bad h] at read0; cases read0
    · rw [readWord_bad h] at read1; cases read1
    · rw [readWord_bad h] at read2; cases read2
    · rw [h] at good; cases good
  · rfl

theorem buttonOfWords_held (ds : List Delivered) :
    buttonOfWords ds = .damaged ∨ ∃ k, buttonOfWords ds = .copy k := by
  unfold buttonOfWords
  split
  · exact .inr ⟨_, rfl⟩
  · exact .inl rfl

end Words

/-! ## The button under its new copy (R59) -/

section Replaced
variable {x : Button} {j k : ButtonSettings} {h : Held ButtonSettings}

/-- A max of 0 drops the count. -/
theorem changeMax_zero (h0 : k.allowance = 0) :
    x.changeMax k = { x with allowance := none, spentRun := 0, refill := none, rough := false } := if_pos h0

/-- A count that was not kept starts full. -/
theorem changeMax_starts (h0 : k.allowance ≠ 0) (hx : x.allowance = none) :
    x.changeMax k = { x with allowance := some k.allowance } := by
  simp [Button.changeMax, h0, hx]

theorem changeMax_lessens {n : Nat} (h0 : k.allowance ≠ 0) (hx : x.allowance = some n) (hn : k.allowance ≤ n) :
    x.changeMax k = { x with allowance := some k.allowance, refill := none, rough := false } := by
  simp [Button.changeMax, h0, hx, hn]

/-- Below the new max the refill timer runs, from full where it did not run. -/
theorem changeMax_below {n : Nat} (h0 : k.allowance ≠ 0) (hx : x.allowance = some n) (hn : n < k.allowance) :
    x.changeMax k = { x with refill := some (x.refill.getD (k.refill * 100)) } := by
  unfold Button.changeMax
  rw [if_neg h0, hx]
  dsimp only
  rw [if_neg (by omega)]
  cases x.refill <;> rfl

/-- What a changed max leaves alone, and the spent run and the rough flag under it. -/
theorem changeMax_eq (x : Button) (k : ButtonSettings) : x.changeMax k = { x with
    allowance := (x.changeMax k).allowance, refill := (x.changeMax k).refill
    spentRun := if k.allowance = 0 then 0 else x.spentRun
    rough := x.rough && !decide (k.allowance ≤ x.allowance.getD 0) } := by
  by_cases h0 : k.allowance = 0
  · rw [changeMax_zero h0]
    simp [h0]
  · cases hx : x.allowance with
    | none =>
      rw [changeMax_starts h0 hx]
      simp [h0]
    | some n =>
      by_cases hn : k.allowance ≤ n
      · rw [changeMax_lessens h0 hx hn]
        simp [h0, hn]
      · rw [changeMax_below h0 hx (by omega)]
        simp [h0, hn, hx]

/-- Stuck timing of a closed button begins at its enabling. -/
theorem enable_helpUnlock (x : Button) (k : ButtonSettings) : (x.enable k).helpUnlock = { x with
    held := .copy k, phase := if x.closed then .settled else .released, stuckTiming := x.closed
    closure := if x.closed then 0 else x.closure
    stuckInForce := if x.closed then k.stuck else x.stuckInForce
    lock := x.lock && !k.help, refill := none
    allowance := if k.allowance = 0 then none else some k.allowance } := by
  unfold Button.enable Button.timeStuck Button.helpUnlock Button.help fullAllowance
  cases x.closed <;> rfl

/-- A copy where there was none acts as enabling. -/
theorem button_replaceHeld_first_enabled (hx : x.held = .absent ∨ x.held = .damaged) (he : k.enabled = true) :
    x.replaceHeld (.copy k) = (x.enable k).helpUnlock := by
  rcases hx with hx | hx <;> simp only [Button.replaceHeld, hx, Button.firstCopy, he, if_true]

theorem button_replaceHeld_first_disabled (hx : x.held = .absent ∨ x.held = .damaged) (he : k.enabled = false) :
    x.replaceHeld (.copy k) = { x with
      held := .copy k, lock := x.lock && !k.help
      allowance := if k.allowance = 0 then none else some k.allowance } := by
  rcases hx with hx | hx <;>
    simp only [Button.replaceHeld, hx, Button.firstCopy, he, Bool.false_eq_true, if_false] <;> rfl

theorem button_replaceHeld_clear_to_set (hx : x.held = .copy j) (hj : j.enabled = false) (he : k.enabled = true) :
    x.replaceHeld (.copy k) =
      ((if j.allowance = k.allowance then x else x.changeMax k).enable k).helpUnlock := by
  simp only [Button.replaceHeld, hx, hj, he, Bool.false_eq_true, false_and, if_false, and_self, if_true]

/-- Enabled from clear to set, or a first enabled copy; a max then changed acts as well. -/
theorem button_replaceHeld_enabled {old : Nat} {changed : Bool} (he : k.enabled = true)
    (hx : (changed = false ∧ (x.held = .absent ∨ x.held = .damaged)) ∨
      ∃ j, x.held = .copy j ∧ j.enabled = false ∧ old = j.allowance ∧ changed = decide (old ≠ k.allowance)) :
    x.replaceHeld (.copy k) = { x with
      held := .copy k, phase := if x.closed then .settled else .released, stuckTiming := x.closed
      closure := if x.closed then 0 else x.closure
      stuckInForce := if x.closed then k.stuck else x.stuckInForce
      lock := x.lock && !k.help, refill := none
      allowance := if k.allowance = 0 then none else some k.allowance
      spentRun := if changed = true ∧ k.allowance = 0 then 0 else x.spentRun
      rough := x.rough && !(changed && decide (k.allowance ≤ x.allowance.getD 0)) } := by
  rcases hx with ⟨rfl, hx⟩ | ⟨j, hx, hj, rfl, rfl⟩
  · rw [button_replaceHeld_first_enabled hx he, enable_helpUnlock]
    simp
  · rw [button_replaceHeld_clear_to_set hx hj he, enable_helpUnlock]
    by_cases same : j.allowance = k.allowance
    · simp [same]
    · rw [if_neg same, changeMax_eq]
      simp [same]

/-- Enabled from set to clear. -/
theorem button_replaceHeld_disabled (hx : x.held = .copy j) (hj : j.enabled = true) (he : k.enabled = false) :
    x.replaceHeld (.copy k) = { x with
      held := .copy k, phase := if x.closed then .settled else .released, stuckTiming := false
      rough := false, spentRun := 0, refill := none, lock := x.lock && !k.help
      allowance := if k.allowance = 0 then none else some k.allowance } := by
  simp only [Button.replaceHeld, hx, hj, he, and_self, if_true]
  rfl

/-- An entry that becomes DAMAGED: the count is full of the old max. -/
theorem button_replaceHeld_damaged (hx : x.held = .copy j) : x.replaceHeld .damaged = { x with
      held := .damaged, phase := if x.closed then .settled else .released, stuckTiming := false
      rough := false, spentRun := 0, refill := none
      allowance := if j.allowance = 0 then none else some j.allowance } := by
  simp only [Button.replaceHeld, hx]
  rfl

/-- The button under a copy with the same enabled flag, but for a changed max. -/
def Button.rekinded (x : Button) (j k : ButtonSettings) : Button :=
  if j.help = k.help then x else { x with
    phase := if x.phase = .timing then .settled else x.phase, lock := x.lock && !k.help }

/-- Enabled as before: the kind, then the max. -/
theorem button_replaceHeld_same_enabled (hx : x.held = .copy j) (he : j.enabled = k.enabled) :
    x.replaceHeld (.copy k) = if j.allowance = k.allowance then { x.rekinded j k with held := .copy k }
      else ({ x.rekinded j k with held := .copy k } : Button).changeMax k := by
  have kind : (if j.help = k.help then { x with held := .copy k }
      else ({ x with held := .copy k } : Button).changeKind k) = { x.rekinded j k with held := .copy k } := by
    unfold Button.rekinded Button.changeKind
    split <;> rfl
  have stays : ¬ (j.enabled = true ∧ k.enabled = false) ∧ ¬ (j.enabled = false ∧ k.enabled = true) := by
    rw [he]
    cases k.enabled <;> simp
  unfold Button.replaceHeld
  rw [hx]
  dsimp only
  rw [if_neg stays.1, if_neg stays.2, kind]

theorem rekinded_allowance (x : Button) (j k : ButtonSettings) : (x.rekinded j k).allowance = x.allowance ∧
    (x.rekinded j k).refill = x.refill := by
  unfold Button.rekinded
  split <;> exact ⟨rfl, rfl⟩

theorem button_replaceHeld_held (x : Button) (h : Held ButtonSettings) : (x.replaceHeld h).held = h := by
  have enabled : ∀ (y : Button) (k : ButtonSettings), (y.enable k).helpUnlock.held = .copy k := fun y k => by
    rw [enable_helpUnlock]
  have first : ∀ k, (x.firstCopy k).held = .copy k := fun k => by
    unfold Button.firstCopy
    split
    · exact enabled x k
    · rfl
  cases hx : x.held with
  | copy j => cases h with
    | copy k =>
      by_cases he : j.enabled = k.enabled
      · rw [button_replaceHeld_same_enabled hx he]
        split
        · rfl
        · rw [changeMax_eq]
      · cases hk : k.enabled with
        | false => rw [button_replaceHeld_disabled hx (by simpa [hk] using he) hk]
        | true => rw [button_replaceHeld_clear_to_set hx (by simpa [hk] using he) hk, enabled]
    | damaged => rw [button_replaceHeld_damaged hx]
    | absent => simp only [Button.replaceHeld, hx, Button.disable]
  | absent => cases h <;> simp only [Button.replaceHeld, hx, first]
  | damaged => cases h <;> simp only [Button.replaceHeld, hx, first]

end Replaced

/-! ## The records of the conditions that end (R139, R141) -/

/-- Of a sorted list the first that `p` takes is the least. -/
theorem find?_least {α : Type} [LinearOrder α] {l : List α} (hl : l.Pairwise (· < ·)) {p : α → Bool} {i j : α}
    (h : l.find? p = some i) (hj : j ∈ l) (hp : p j = true) : i ≤ j := by
  obtain ⟨-, as, bs, rfl, before⟩ := List.find?_eq_some_iff_append.mp h
  rcases List.mem_append.mp hj with first | rest
  · exact absurd hp (by simpa using before j first)
  · rcases List.mem_cons.mp rest with rfl | later
    · exact le_refl _
    · exact le_of_lt (List.rel_of_pairwise_cons (List.pairwise_append.mp hl).2.1 later)

/-- A slot's record is gone, or it is CLEARING. -/
def State.Cleared (s : State) (i : Fin 16) : Prop :=
  s.slotAt i = none ∨ ∃ y, s.slotAt i = some y ∧ y.state = .clearing

/-- Every record of `t` is one of the same matter, in the same slot, of `s`. -/
def SameMatters (s t : State) : Prop := ∀ i y, t.slotAt i = some y →
  ∃ x, s.slotAt i = some x ∧ y.cause = x.cause ∧ y.subject = x.subject

section Records
variable {s t u : State} {c d : Cause} {n m : Nat} {i j : Fin 16}

theorem SameMatters.refl (s : State) : SameMatters s s := fun _ y h => ⟨y, h, rfl, rfl⟩

theorem SameMatters.trans (h : SameMatters s t) (k : SameMatters t u) : SameMatters s u := by
  intro i y hy
  obtain ⟨x, hx, cause, subject⟩ := k i y hy
  obtain ⟨w, hw, cause', subject'⟩ := h i x hx
  exact ⟨w, hw, cause.trans cause', subject.trans subject'⟩

theorem Told.sameMatters (h : Told s t) : SameMatters s t := fun i y hy => ⟨y, h.slotAt i ▸ hy, rfl, rfl⟩

theorem sameMatters_withSlot {r : Record} {x : Option Record} (hr : s.slotAt i = some r)
    (hx : ∀ y, x = some y → y.cause = r.cause ∧ y.subject = r.subject) : SameMatters s (s.withSlot i x) := by
  intro k y hy
  rw [slotAt_withSlot] at hy
  split at hy
  · next e => exact ⟨r, e ▸ hr, hx y hy⟩
  · exact ⟨y, hy, rfl, rfl⟩

/-- The transmitter's choice leaves a slot, or calls its record. -/
theorem pump_slot (s : State) (j : Fin 16) : s.pump.slotAt j = s.slotAt j ∨
    ∃ r, s.slotAt j = some r ∧ s.pump.slotAt j = s.recordAfterCall r := by
  rcases pump_cases s with same | ⟨i, r, calls⟩
  · exact .inl (by rw [State.slotAt, same, State.slotAt])
  · rw [calls.slots j]
    by_cases e : j = i
    · exact .inr ⟨r, e ▸ calls.slot, if_pos e⟩
    · exact .inl (if_neg e)

theorem sameMatters_pump (s : State) : SameMatters s s.pump := by
  intro i y hy
  rcases pump_slot s i with same | ⟨r, hr, called⟩
  · exact ⟨y, same ▸ hy, rfl, rfl⟩
  · exact ⟨r, hr, recordAfterCall_kept (called ▸ hy)⟩

/-- A CALL frees a CLEARING record. -/
theorem recordAfterCall_clearing {r : Record} (h : r.state = .clearing) : s.recordAfterCall r = none := by
  unfold State.recordAfterCall
  rw [h]

theorem pump_cleared (h : s.Cleared i) : s.pump.Cleared i := by
  rcases pump_slot s i with same | ⟨r, hr, called⟩
  · rwa [State.Cleared, same]
  · rcases h with none | ⟨y, hy, clearing⟩
    · rw [none] at hr; cases hr
    · rw [hy] at hr
      cases hr
      exact .inl (called.trans (recordAfterCall_clearing clearing))

theorem Told.cleared (h : Told s t) (k : s.Cleared i) : t.Cleared i := by
  rwa [State.Cleared, h.slotAt]

/-- The record of a condition that ends, at its entry into CLEARING. -/
theorem conditionEnd_cases (hl : c.latched = false) (hf : s.findRecord c n = some i) :
    (s.conditionEnd c n = s ∧ s.Cleared i) ∨
      ∃ r x u, s.slotAt i = some r ∧
        (∀ y, x = some y → (y.cause = r.cause ∧ y.subject = r.subject) ∧ y.state = .clearing) ∧ Told (s.withSlot i x) u ∧
        s.conditionEnd c n = u.pump := by
  obtain ⟨r, hr, -, -⟩ := findRecord_some hf
  by_cases clearing : r.state = .clearing
  · exact .inl ⟨conditionEnd_clearing hf hr clearing, .inr ⟨r, hr, clearing⟩⟩
  · refine .inr ⟨r, _, _, hr, fun y hy => ?_, told_tellRecord _ c n, conditionEnd_ended hf hr (.inr ⟨hl, clearing⟩)⟩
    split at hy
    · cases hy
    · cases hy
      exact ⟨⟨rfl, rfl⟩, rfl⟩

theorem sameMatters_conditionEnd (hl : c.latched = false) : SameMatters s (s.conditionEnd c n) := by
  cases hf : s.findRecord c n with
  | none => exact (conditionEnd_none hf).symm ▸ .refl s
  | some i =>
    rcases conditionEnd_cases hl hf with ⟨same, -⟩ | ⟨r, x, u, hr, hx, told, e⟩
    · exact same.symm ▸ .refl s
    · rw [e]
      exact ((sameMatters_withSlot hr fun y hy => (hx y hy).1).trans told.sameMatters).trans (sameMatters_pump u)

/-- A record written as it clears is cleared. -/
theorem cleared_withSlot {x : Option Record} (hx : ∀ y, x = some y → y.state = .clearing) :
    (s.withSlot i x).Cleared i := by
  rw [State.Cleared, slotAt_withSlot, if_pos rfl]
  cases x with
  | none => exact .inl rfl
  | some y => exact .inr ⟨y, rfl, hx y rfl⟩

/-- The end of a condition clears its record. -/
theorem conditionEnd_clears (hl : c.latched = false) (hf : s.findRecord c n = some i) :
    (s.conditionEnd c n).Cleared i := by
  rcases conditionEnd_cases hl hf with ⟨same, cleared⟩ | ⟨r, x, u, -, hx, told, e⟩
  · exact same.symm ▸ cleared
  · rw [e]
    exact pump_cleared (told.cleared (cleared_withSlot fun y hy => (hx y hy).2))

/-- A cleared record stays so at the end of any condition. -/
theorem conditionEnd_cleared (hl : c.latched = false) (h : s.Cleared i) : (s.conditionEnd c n).Cleared i := by
  cases hf : s.findRecord c n with
  | none => exact (conditionEnd_none hf).symm ▸ h
  | some j =>
    rcases conditionEnd_cases hl hf with ⟨same, -⟩ | ⟨r, x, u, -, hx, told, e⟩
    · exact same.symm ▸ h
    · rw [e]
      refine pump_cleared (told.cleared ?_)
      by_cases own : i = j
      · subst own
        exact cleared_withSlot fun y hy => (hx y hy).2
      · rwa [State.Cleared, slotAt_withSlot, if_neg own]

theorem findRecord_le {r : Record} (hf : s.findRecord c n = some i) (hr : s.slotAt j = some r) (hc : r.cause = c)
    (hn : r.subject = n) : i ≤ j :=
  find?_least sixteen_rising hf (mem_sixteen j) (by simp [hr, hc, hn])

/-- Where no record comes to be, the first of a matter stays the first, or is gone. -/
theorem SameMatters.findRecord (h : SameMatters s t) (hf : s.findRecord c n = some i) :
    t.findRecord c n = some i ∨ t.slotAt i = none := by
  cases hi : t.slotAt i with
  | none => exact .inr rfl
  | some y =>
    left
    obtain ⟨r, hr, rc, rn⟩ := findRecord_some hf
    obtain ⟨x, hx, yc, yn⟩ := h i y hi
    rw [hr] at hx
    cases hx
    refine find?_sixteen (by simp [hi, yc, yn, rc, rn]) fun j hj => ?_
    cases hz : t.slotAt j with
    | none => simp [hz] at hj
    | some z =>
      simp only [hz, Bool.and_eq_true, decide_eq_true_eq, beq_iff_eq] at hj
      obtain ⟨w, hw, wc, wn⟩ := h j z hz
      exact findRecord_le hf hw (wc.symm.trans hj.1) (wn.symm.trans hj.2)

/-- What TABLE-DAMAGE may put in a cleared slot is its own record. -/
theorem raise_cleared (h : s.Cleared i) (c : Cause) (n : Nat) : (s.raise c n).slotAt i = none ∨
    ∃ y, (s.raise c n).slotAt i = some y ∧ (y.state = .clearing ∨ y.cause = c) := by
  have recorded : ∀ (u : State) (j : Fin 16) (r : Record), r.cause = c → Recorded s u c n none j r →
      u.pump.slotAt i = none ∨ ∃ y, u.pump.slotAt i = some y ∧ (y.state = .clearing ∨ y.cause = c) := by
    intro u j r hc k
    by_cases own : i = j
    · have here : u.slotAt i = some r := (k.slots i).trans (if_pos own)
      cases hy : u.pump.slotAt i with
      | none => exact .inl rfl
      | some y =>
        obtain ⟨x, hx, cause, -⟩ := sameMatters_pump u i y hy
        rw [here] at hx
        cases hx
        exact .inr ⟨y, rfl, .inr (cause.trans hc)⟩
    · have there : u.Cleared i := by rwa [State.Cleared, k.slots, if_neg own]
      exact (pump_cleared there).imp_right fun ⟨y, hy, clearing⟩ => ⟨y, hy, .inl clearing⟩
  unfold State.raise
  cases hf : s.findRecord c n with
  | some j =>
    obtain ⟨r, hr, hc, -⟩ := findRecord_some hf
    obtain ⟨u, e, k⟩ := raiseWith_again (lvl := none) (info := none) hf hr
    rw [e]
    exact recorded u j _ ((raisedAgain_kept r none).2.1.trans hc) k
  | none => cases he : s.emptySlot with
    | some j =>
      obtain ⟨u, e, k⟩ := raiseWith_new (lvl := none) (info := none) hf he
      rw [e]
      exact recorded u j _ rfl k
    | none =>
      have stands : (s.raiseWith c n none none).Cleared i :=
        (raiseWith_overflow hf he).cleared (by rwa [State.Cleared, fillSnapshot_slotAt])
      exact stands.imp_right fun ⟨y, hy, clearing⟩ => ⟨y, hy, .inl clearing⟩

end Records

/-! ## The copy taken (R58, R59) -/

/-- The conditions that end where button `b`, with record `x`, is given record `y`: BUTTON-STUCK, then
ROUGH-HANDLING. -/
def State.copyEnded (s : State) (b : Fin 16) (x y : Button) : State :=
  let stuck := if x.phase = .stuck ∧ y.phase ≠ .stuck then s.conditionEnd .buttonStuck b.val else s
  if x.rough = true ∧ y.rough = false then stuck.conditionEnd .roughHandling b.val else stuck

/-- The condition of matter `m` ends where record `x` of a button gives way to record `y`. -/
def Button.Ends (x y : Button) (m : Cause) : Prop :=
  (m = .buttonStuck ∧ x.phase = .stuck ∧ y.phase ≠ .stuck) ∨ (m = .roughHandling ∧ x.rough = true ∧ y.rough = false)

section Ended
variable {s : State} {b : Fin 16} {x y : Button}

/-- An abandoned press, with the rough flag cleared, ends both conditions. -/
theorem ends_abandoned {m : Cause} (hp : y.phase = if x.closed then .settled else .released) (hr : y.rough = false)
    (hm : (m = .buttonStuck ∧ x.phase = .stuck) ∨ (m = .roughHandling ∧ x.rough = true)) : x.Ends y m := by
  refine hm.imp (fun ⟨cause, stuck⟩ => ⟨cause, stuck, ?_⟩) fun ⟨cause, rough⟩ => ⟨cause, rough, hr⟩
  rw [hp]
  cases x.closed <;> simp

theorem sent_copyEnded (s : State) (b : Fin 16) (x y : Button) : Sent s (s.copyEnded b x y) := by
  have stuck : Sent s (if x.phase = .stuck ∧ y.phase ≠ .stuck then s.conditionEnd .buttonStuck b.val else s) := by
    split
    · exact sent_conditionEnd s _ _
    · exact .refl s
  unfold State.copyEnded
  dsimp only
  split
  · exact stuck.trans (sent_conditionEnd _ _ _)
  · exact stuck

theorem retold_copyEnded (s : State) (b : Fin 16) (x y : Button) : Retold s (s.copyEnded b x y) := by
  have stuck : Retold s (if x.phase = .stuck ∧ y.phase ≠ .stuck then s.conditionEnd .buttonStuck b.val else s) := by
    split
    · exact retold_conditionEnd s _ _
    · exact .refl s
  unfold State.copyEnded
  dsimp only
  split
  · exact stuck.trans (retold_conditionEnd _ _ _)
  · exact stuck

/-- Each condition that ends has its record cleared, though the end of the other comes before or after it. -/
theorem copyEnded_clears {m : Cause} {r : Fin 16} (hm : x.Ends y m) (hf : s.findRecord m b.val = some r) :
    (s.copyEnded b x y).Cleared r := by
  unfold State.copyEnded
  dsimp only
  rcases hm with ⟨rfl, was, gone⟩ | ⟨rfl, was, gone⟩
  · have stuck : (s.conditionEnd .buttonStuck b.val).Cleared r := conditionEnd_clears rfl hf
    have first : (if x.phase = .stuck ∧ y.phase ≠ .stuck then s.conditionEnd .buttonStuck b.val else s) =
        s.conditionEnd .buttonStuck b.val := if_pos ⟨was, gone⟩
    rw [first]
    split
    · exact conditionEnd_cleared rfl stuck
    · exact stuck
  · rw [if_pos ⟨was, gone⟩]
    have kept : ∀ u, SameMatters s u → (u.conditionEnd .roughHandling b.val).Cleared r := fun u same => by
      rcases same.findRecord hf with found | none
      · exact conditionEnd_clears rfl found
      · exact conditionEnd_cleared rfl (.inl none)
    split
    · exact kept _ (sameMatters_conditionEnd rfl)
    · exact kept _ (.refl s)

end Ended

/-- What a complete entry leaves once its ends and its raise are told, before the lamp is computed. -/
structure CopyTold (s : State) (b : Fin 16) (h : Held ButtonSettings) (u : State) : Prop where
  sent   : Sent s u
  retold : Retold (s.withBtn b ((s.btn b).replaceHeld h)) u
  damage : h = .damaged → (u.findRecord .tableDamage 4).isSome = true ∨ u.alert.overflow = true
  ended  : ∀ m r, (s.btn b).Ends ((s.btn b).replaceHeld h) m → s.findRecord m b.val = some r →
    u.slotAt r = none ∨ ∃ y, u.slotAt r = some y ∧ (y.state = .clearing ∨ (h = .damaged ∧ y.cause = .tableDamage))

/-- BUTTON-STUCK ends, then ROUGH-HANDLING, then TABLE-DAMAGE is raised, then the lamp is computed (log entry 18). -/
theorem buttonCopy_told (s : State) (b : Fin 16) {h : Held ButtonSettings} (hh : h = .damaged ∨ ∃ k, h = .copy k) :
    ∃ u, s.buttonCopy b h = u.lampUpdate b ∧ CopyTold s b h u := by
  have written : Sent s (s.withBtn b ((s.btn b).replaceHeld h)) := rfl
  have sent := written.trans (sent_copyEnded _ b (s.btn b) ((s.btn b).replaceHeld h))
  have retold := retold_copyEnded (s.withBtn b ((s.btn b).replaceHeld h)) b (s.btn b) ((s.btn b).replaceHeld h)
  have cleared : ∀ m r, (s.btn b).Ends ((s.btn b).replaceHeld h) m → s.findRecord m b.val = some r →
      ((s.withBtn b ((s.btn b).replaceHeld h)).copyEnded b (s.btn b) ((s.btn b).replaceHeld h)).Cleared r :=
    fun m r hm hf => copyEnded_clears hm hf
  rcases hh with rfl | ⟨k, rfl⟩
  · refine ⟨_, rfl, sent.trans (sent_raiseWith _ _ _ _ _), retold.trans (retold_raiseWith _ _ _ _ _),
      fun _ => raise_findRecord _ _ _ _ _, fun m r hm hf => ?_⟩
    exact (raise_cleared (cleared m r hm hf) _ _).imp_right
      fun ⟨y, hy, state⟩ => ⟨y, hy, state.imp_right fun cause => ⟨rfl, cause⟩⟩
  · refine ⟨_, rfl, sent, retold, fun no => (by cases no), fun m r hm hf => ?_⟩
    exact (cleared m r hm hf).imp_right fun ⟨y, hy, state⟩ => ⟨y, hy, .inl state⟩

/-! ## The delivery of a word -/

/-- What a button entry's last word leaves. -/
structure EntryTaken (s next : State) (b : Fin 16) (h : Held ButtonSettings) (t : State) : Prop where
  path   : t.mem.path = next.mem.path
  owed   : t.mem.owed = next.mem.owed
  words  : t.mem.words = s.mem.words
  guards : t.motion.guards = s.motion.guards
  cue    : t.cue = s.cue
  own    : t.btn b = { (s.btn b).replaceHeld h with lamp := t.lampFor b }
  others : ∀ y, y ≠ b → t.btn y = { s.btn y with lamp := (t.btn y).lamp }
  damage : h = .damaged → (t.findRecord .tableDamage 4).isSome = true ∨ t.alert.overflow = true
  ended  : ∀ m r, (s.btn b).Ends ((s.btn b).replaceHeld h) m → s.findRecord m b.val = some r →
    t.slotAt r = none ∨ ∃ y, t.slotAt r = some y ∧ (y.state = .clearing ∨ (h = .damaged ∧ y.cause = .tableDamage))

section Delivery
variable {s next : State} {i : Nat} {b : Fin 16} {got : List Delivered} {rest : List Ask} {h : Held ButtonSettings}

/-- A word before the last is kept. -/
theorem buttonWord_kept (ha : s.mem.access = some ⟨.settings .button, i, false⟩)
    (hp : s.mem.path = ⟨⟨.button, b.val⟩, got⟩ :: rest) (hl : got.length < 3) : exec .buttonSettingsRead s = .next
      ({ s.readFor i .button with
        mem.path := ⟨⟨.button, b.val⟩, got ++ [s.wordAt i]⟩ :: rest }).endAccess := by
  obtain ⟨l, a, u, read⟩ := readFor_eq s i .button
  have head : (s.readFor i .button).mem.path = ⟨⟨.button, b.val⟩, got⟩ :: rest := by rw [read]; exact hp
  refine congrArg Host.Outcome.next ((deliver_fresh ha).trans (congrArg State.endAccess ?_))
  exact settingsWord_kept head (by show got.length + 1 < 4; omega)

/-- The last word: the block asks for the next entry it owes, and the button takes the copy. -/
theorem buttonEntry_taken (ha : s.mem.access = some ⟨.settings .button, i, false⟩)
    (hp : s.mem.path = ⟨⟨.button, b.val⟩, got⟩ :: rest) (hl : 3 ≤ got.length)
    (hn : next = ({ s with mem.path := rest }).ask) (hh : h = buttonOfWords (got ++ [s.wordAt i])) :
    ∃ t, exec .buttonSettingsRead s = .next t ∧ EntryTaken s next b h t := by
  obtain ⟨m, ⟨-, path, owed, words⟩, e⟩ := deliver_done (who := .button)
    (finish := fun e z => z.buttonCopy (Fin.ofNat 16 e.job.entry) (buttonOfWords e.got)) ha hp
    (by show 4 ≤ got.length + 1; omega) hn
  have hb : Fin.ofNat 16 b.val = b := Fin.ofNat_val_eq_self b
  obtain ⟨u, copied, told⟩ := buttonCopy_told { s with mem := m } b (h := h) (hh ▸ buttonOfWords_held _)
  have mem : u.mem = m := told.sent.mem
  have e : exec .buttonSettingsRead s = .next (u.lampUpdate b).endAccess := by
    rw [← copied, hh, ← hb]
    exact congrArg Host.Outcome.next e
  obtain ⟨same, p, o, w⟩ := endAccess_mem (u.lampUpdate b)
  have btn : ∀ y, (u.lampUpdate b).endAccess.btn y =
      if y = b then { u.btn b with lamp := u.lampFor b } else u.btn y := fun y => by
    rw [same]
    exact btn_withBtn ..
  have alert : (u.lampUpdate b).endAccess.alert = u.alert := by
    rw [same]
    rfl
  have here : u.btn b = { (s.btn b).replaceHeld h with lamp := (u.btn b).lamp } := by
    have := told.retold.btn b
    rwa [btn_withBtn, if_pos rfl] at this
  refine ⟨_, e, ?_, ?_, ?_, ?_, ?_, ?_, fun y hy => ?_, ?_, ?_⟩
  · exact (p.trans (congrArg TableMemory.path mem)).trans path
  · exact (o.trans (congrArg TableMemory.owed mem)).trans owed
  · exact (w.trans (congrArg TableMemory.words mem)).trans words
  · rw [same]
    exact told.sent.guards
  · rw [same]
    exact told.sent.cue
  · have lamp : (u.lampUpdate b).endAccess.lampFor b = u.lampFor b :=
      lampFor_congr ((btn b).trans (if_pos rfl)) (by rw [same]; rfl) (by rw [same]; rfl) alert
    rw [btn, if_pos rfl, lamp, here]
  · rw [btn, if_neg hy, told.retold.btn y, btn_withBtn, if_neg hy]
    rfl
  · simpa only [State.findRecord, State.slotAt, alert] using told.damage
  · intro n r hm hf
    simpa only [State.slotAt, alert] using told.ended n r hm hf

end Delivery

/-- Settles O28: the decoder by the fields of the words, and the last word by the copy that the button takes. -/
theorem buttonEntryIsTaken : Obligations.ButtonEntryIsTaken := by
  refine ⟨?_, fun d0 d1 d2 d3 => buttonOfWords_bad, ?_⟩
  · rintro w0 w1 w2 w3 lamp rfl
    rw [buttonOfWords_clean]
    simp [clampNat, fixHold]
  intro s i b x got rest h ha hp hx hh
  refine ⟨buttonWord_kept ha hp, fun hl => ?_⟩
  obtain ⟨t, e, taken⟩ := buttonEntry_taken ha hp hl.ge rfl hh
  have own := taken.own
  have ended := taken.ended
  rw [← hx] at own ended
  refine ⟨t, e, ?_, taken.path, taken.owed, fun y hy => ?_, taken.damage, fun j hj hd => ?_,
    fun k hk he old changed first => ?_, fun k hk he first => ?_, fun j k hj hk => ⟨fun was now => ?_,
      fun he hm => ⟨fun same => ?_, fun other => ?_⟩, fun z hz he hm => ?_⟩, taken.words, taken.guards, taken.cue⟩
  · rw [own]
    exact button_replaceHeld_held x h
  · rw [taken.others y hy]
    exact ⟨rfl, rfl, rfl, rfl⟩
  · subst hd
    rw [button_replaceHeld_damaged hj] at own ended
    refine ⟨own, fun m r hm hf => ?_⟩
    exact (ended m r (ends_abandoned rfl rfl hm) hf).imp_right
      fun ⟨y, hy, state⟩ => ⟨y, hy, state.imp_right And.right⟩
  · subst hk
    rw [own, button_replaceHeld_enabled he first]
  · subst hk
    rw [own, button_replaceHeld_first_disabled first he]
  · subst hk
    rw [button_replaceHeld_disabled hj was now] at own ended
    refine ⟨own, fun m r hm hf => ?_⟩
    exact (ended m r (ends_abandoned rfl rfl hm) hf).imp_right
      fun ⟨y, hy, state⟩ => ⟨y, hy, state.resolve_right fun no => by cases no.1⟩
  · subst hk
    rw [own, button_replaceHeld_same_enabled hj he, if_pos hm, Button.rekinded, if_pos same]
  · subst hk
    rw [own, button_replaceHeld_same_enabled hj he, if_pos hm, Button.rekinded, if_neg other]
  · subst hk
    obtain rfl : z = x.rekinded j k := hz
    have count : ({ x.rekinded j k with held := .copy k } : Button).allowance = x.allowance :=
      (rekinded_allowance x j k).1
    rw [own, button_replaceHeld_same_enabled hj he, if_neg hm]
    refine ⟨fun h0 => by rw [changeMax_zero h0], fun h0 hx => by rw [changeMax_starts h0 (count.trans hx)],
      fun n h0 hx => ⟨fun hn => by rw [changeMax_lessens h0 (count.trans hx) hn], fun hn => ?_⟩⟩
    rw [changeMax_below h0 (count.trans hx) hn]
    simp only [(rekinded_allowance x j k).2]

end Sys2Proof.Machine
end

