-- ==== Sys2Proof/Proofs/Releases.lean ====
section
/-! PROOF. A guard that closes (R81, R84, R98, R138): when the release test frees a HALTED or FAULT channel, and what the
end of the GUARD-OPEN condition, with the tests that it makes on the way, leaves of a channel before its own test. -/
namespace Sys2Proof.Machine

/-- Settles O6, from what every step keeps (`step_kept`). -/
theorem stepKeepsGuardsRespected : Obligations.StepKeepsGuardsRespected := fun _ _ hg hs => (step_kept hs).guards hg

/-! ## The release test (R84, R98) -/

section Test
variable {s : State} {c : Fin 4}

/-- A record of a kind that waits to be seen. -/
theorem waits_iff (q : Record → Bool) : s.anyRecord (fun r => r.unseen && q r) = true ↔
    ∃ i r, s.slotAt i = some r ∧ q r = true ∧ (r.state = .raised ∨ r.state = .called) := by
  simp only [anyRecord_iff, Bool.and_eq_true, unseen_eq_true]
  exact exists_congr fun i => exists_congr fun r => and_congr_right fun _ => and_comm

/-- Every record of a kind has been seen. -/
theorem seen_iff (q : Record → Bool) : s.anyRecord (fun r => r.unseen && q r) = false ↔
    ∀ i r, s.slotAt i = some r → q r = true → r.state = .acknowledged ∨ r.state = .clearing := by
  rw [Bool.eq_false_iff, ne_eq, waits_iff]
  push Not
  refine forall_congr' fun i => forall_congr' fun r => forall_congr' fun _ => forall_congr' fun _ => ?_
  cases r.state <;> simp

theorem haltReleased_false_iff : s.haltReleased c = false ↔
    s.guardsClosed (s.chan c).guardMap = false ∨ ((s.chan c).attend = true ∧
      ∃ i r, s.slotAt i = some r ∧ r.cause = .guardOpen ∧
        (s.chan c).guardMap.getLsbD r.subject = true ∧ (r.state = .raised ∨ r.state = .called)) := by
  rw [haltReleased_false]
  simp only [Bool.and_assoc, waits_iff, Bool.and_eq_true, decide_eq_true_eq, and_assoc]

theorem haltReleased_true_iff : s.haltReleased c = true ↔
    s.guardsClosed (s.chan c).guardMap = true ∧ ((s.chan c).attend = false ∨
      ∀ i r, s.slotAt i = some r → r.cause = .guardOpen → (s.chan c).guardMap.getLsbD r.subject = true →
        r.state = .acknowledged ∨ r.state = .clearing) := by
  unfold State.haltReleased
  simp only [Bool.and_eq_true, Bool.or_eq_true, Bool.not_eq_true', Bool.and_assoc, seen_iff, decide_eq_true_eq,
    and_imp]

theorem faultReleased_driver (h : (s.chan c).faultReason = some .driver) : s.faultReleased c = true ↔
    (s.chan c).faultPin = false ∧ ∀ i r, s.slotAt i = some r → r.cause = .driverFault → r.subject = c.val →
      r.state = .acknowledged ∨ r.state = .clearing := by
  unfold State.faultReleased
  rw [h]
  simp only [Bool.and_eq_true, Bool.not_eq_true', Bool.and_assoc, seen_iff, decide_eq_true_eq, beq_iff_eq, and_imp]

theorem faultReleased_limit_iff (h : (s.chan c).faultReason = some .limit) : s.faultReleased c = true ↔
    ∀ i r, s.slotAt i = some r → r.cause = .limitHit → r.subject = c.val →
      r.state = .acknowledged ∨ r.state = .clearing := by
  unfold State.faultReleased
  rw [h]
  simp only [Bool.not_eq_true', Bool.and_assoc, seen_iff, Bool.and_eq_true, decide_eq_true_eq, beq_iff_eq, and_imp]

/-- The record of a HALTED channel released. -/
def Channel.released (ch : Channel) : Channel :=
  { ch with state := if ch.positionLost then .unhomed else .idle }

theorem released_state (ch : Channel) : ch.released.state ≠ .halted ∧ ch.released.state ≠ .fault := by
  unfold Channel.released
  cases ch.positionLost <;> simp

theorem releaseTest_halted (hs : (s.chan c).state = .halted) (h : s.haltReleased c = true) :
    s.releaseTest c = s.changeChan c (s.chan c).released := by
  unfold State.releaseTest
  dsimp only
  rw [hs]
  exact if_pos h

/-- A change to a record that holds no copy aside is told as it is. -/
theorem changeChan_aside {x : Channel} (h : x.aside = none) : s.changeChan c x = (s.withChan c x).tellChannel c := by
  rw [State.changeChan, takeAside_id x (.inr h)]

/-- A record that waits to be seen is not one that has been seen. -/
theorem RecState.unseen_not_seen {x : RecState} (h : x = .raised ∨ x = .called)
    (h' : x = .acknowledged ∨ x = .clearing) : False := by
  rcases h with rfl | rfl <;> rcases h' with h' | h' <;> cases h'

/-- A FAULT channel whose record waits to be seen, or whose FAULT input reads asserted, is not free. -/
theorem faultReleased_false (h : ((s.chan c).faultReason = some .driver ∧ ((s.chan c).faultPin = true ∨
      ∃ i r, s.slotAt i = some r ∧ r.cause = .driverFault ∧ r.subject = c.val ∧
        (r.state = .raised ∨ r.state = .called))) ∨
    ((s.chan c).faultReason = some .limit ∧
      ∃ i r, s.slotAt i = some r ∧ r.cause = .limitHit ∧ r.subject = c.val ∧
        (r.state = .raised ∨ r.state = .called))) : s.faultReleased c = false := by
  rw [Bool.eq_false_iff]
  rcases h with ⟨reason, pin | ⟨i, r, hr, hk, hn, waits⟩⟩ | ⟨reason, i, r, hr, hk, hn, waits⟩
  · rw [ne_eq, faultReleased_driver reason, pin]
    exact fun free => Bool.noConfusion free.1
  · rw [ne_eq, faultReleased_driver reason]
    exact fun free => RecState.unseen_not_seen waits (free.2 i r hr hk hn)
  · rw [ne_eq, faultReleased_limit_iff reason]
    exact fun free => RecState.unseen_not_seen waits (free i r hr hk hn)

end Test

/-! ## A HALTED channel while records change -/

/-- The node is not CLOSING, and channel `c`, HALTED as `x`, still is or has been released. -/
structure HaltedOrReleased (c : Fin 4) (x : Channel) (s : State) : Prop where
  wakes : s.mode.node ≠ .closing
  chan  : s.chan c = x ∨ s.chan c = x.released

section Through
variable {s t : State} {c d : Fin 4} {x : Channel}

namespace HaltedOrReleased

theorem of_eq (h : HaltedOrReleased c x s) (hn : t.mode = s.mode) (hc : t.motion.channels = s.motion.channels) :
    HaltedOrReleased c x t := by
  refine ⟨hn ▸ h.wakes, ?_⟩
  rw [State.chan, hc]
  exact h.chan

theorem restless (h : HaltedOrReleased c x s) : s.Restless := .inl h.wakes

/-- The test of one's own channel releases it where it is free; that of another leaves it. -/
theorem releaseTest (h : HaltedOrReleased c x s) (hx : x.state = .halted) (ha : x.aside = none) (d : Fin 4) :
    HaltedOrReleased c x (s.releaseTest d) := by
  refine ⟨(mild_releaseTest d h.restless).mode ▸ h.wakes, ?_⟩
  by_cases hd : d = c
  · subst hd
    rcases h.chan with own | own
    · by_cases free : s.haltReleased d = true
      · rw [releaseTest_halted (own ▸ hx) free, changeChan_chan d d _ h.restless, if_pos rfl, own]
        exact .inr (takeAside_id _ (.inr ha))
      · rw [releaseTest_stays ⟨fun _ => by simpa using free, fun k => by rw [own, hx] at k; cases k⟩]
        exact .inl own
    · rw [releaseTest_stays (stays_of_state (own ▸ (released_state x).1) (own ▸ (released_state x).2))]
      exact .inr own
  · have other : (s.releaseTest d).chan c = s.chan c := by
      have moved : ∀ y, (s.changeChan d y).chan c = s.chan c := fun y =>
        (changeChan_chan d c y h.restless).trans (if_neg (Ne.symm hd))
      unfold State.releaseTest
      dsimp only
      repeat' split
      all_goals first | exact moved _ | rfl
    rw [other]
    exact h.chan

theorem channelLamps (h : HaltedOrReleased c x s) (d : Fin 4) : HaltedOrReleased c x (s.channelLamps d) :=
  h.of_eq (channelLamps_mode s d) (by rw [channelLamps_motion])

theorem gatingNotices (h : HaltedOrReleased c x s) (hx : x.state = .halted) (ha : x.aside = none) (l : List (Fin 4)) :
    HaltedOrReleased c x (l.foldl State.gatingNotice s) := by
  induction l generalizing s with
  | nil => exact h
  | cons d l ih => exact ih ((h.channelLamps d).releaseTest hx ha d)

theorem tellRecord (h : HaltedOrReleased c x s) (hx : x.state = .halted) (ha : x.aside = none) (k : Cause) (n : Nat) :
    HaltedOrReleased c x (s.tellRecord k n) := by
  have beacon : HaltedOrReleased c x s.beaconUpdate :=
    ⟨(mild_beaconUpdate (s := s)).mode ▸ h.wakes, by rw [beaconUpdate_chan]; exact h.chan⟩
  have told := beacon.gatingNotices hx ha (s.beaconUpdate.concerned k n)
  unfold State.tellRecord
  rw [restTest_restless beacon.restless]
  dsimp only
  split
  · exact told.of_eq rfl rfl
  · exact told

theorem buildCall (h : HaltedOrReleased c x s) (hx : x.state = .halted) (ha : x.aside = none) (i : Fin 16)
    (r : Record) : HaltedOrReleased c x (s.buildCall i r) := by
  have written : HaltedOrReleased c x (s.withSlot i (s.recordAfterCall r)) := h.of_eq rfl rfl
  have told := written.tellRecord hx ha r.cause r.subject
  unfold State.buildCall
  cases r.state with
  | raised | clearing => exact told
  | called | acknowledged => exact written

theorem takeOwn (h : HaltedOrReleased c x s) (hx : x.state = .halted) (ha : x.aside = none) :
    HaltedOrReleased c x s.takeOwn := by
  unfold State.takeOwn
  split
  · split
    · split
      · next i _ _ r _ =>
        have sent : HaltedOrReleased c x { s with
            ring.sending := some (s.ownFrame 0x13 (callPayload i r)), ring.relayCount := 0 } := h.of_eq rfl rfl
        exact sent.buildCall hx ha i r
      · exact h
    · exact h
  · split
    · exact h.of_eq rfl rfl
    · exact h

theorem pump (h : HaltedOrReleased c x s) (hx : x.state = .halted) (ha : x.aside = none) :
    HaltedOrReleased c x s.pump := by
  unfold State.pump State.choose
  split
  · split
    · split
      · exact h.of_eq rfl rfl
      · exact h.takeOwn hx ha
    · split
      · exact h.takeOwn hx ha
      · exact h
  · exact h

theorem conditionEnd (h : HaltedOrReleased c x s) (hx : x.state = .halted) (ha : x.aside = none) {k : Cause}
    (hl : k.latched = true) (n : Nat) : HaltedOrReleased c x (s.conditionEnd k n) := by
  cases hf : s.findRecord k n with
  | none => rw [conditionEnd_none hf]; exact h
  | some i =>
    obtain ⟨r, hr, -, -⟩ := findRecord_some hf
    have written : ∀ y, HaltedOrReleased c x (s.withSlot i y) := fun y => h.of_eq rfl rfl
    cases hs : r.state with
    | clearing => rw [conditionEnd_clearing hf hr hs]; exact h
    | acknowledged =>
      rw [conditionEnd_ended hf hr (.inl hs)]
      exact ((written _).tellRecord hx ha k n).pump hx ha
    | raised | called =>
      rw [conditionEnd_latched hf hr hl (by simp [hs])]
      exact written _

end HaltedOrReleased

/-- A channel free to be released, or released already, is released once its test is among those made. -/
theorem foldl_releaseTest_free (hx : x.state = .halted) (ha : x.aside = none) {l : List (Fin 4)}
    (h : HaltedOrReleased c x s) (free : s.chan c = x → c ∈ l ∧ s.haltReleased c = true) :
    (l.foldl State.releaseTest s).chan c = x.released := by
  induction l generalizing s with
  | nil => exact h.chan.resolve_left fun own => absurd (free own).1 (by simp)
  | cons d l ih =>
    have next := h.releaseTest hx ha d
    refine ih next fun still => ?_
    have own : s.chan c = x := by
      refine h.chan.resolve_right fun freed => ?_
      have same := (mild_releaseTest d h.restless).chans c (freed ▸ (released_state x).1) (freed ▸ (released_state x).2)
      refine (released_state x).1 ?_
      rw [← freed, ← same, still, hx]
    obtain ⟨mem, ready⟩ := free own
    rcases List.mem_cons.mp mem with rfl | mem
    · rw [releaseTest_halted (own ▸ hx) ready, changeChan_chan c c _ h.restless, if_pos rfl, own,
        takeAside_id x.released (.inr ha)] at still
      exact absurd (still ▸ hx) (released_state x).1
    · refine ⟨mem, ?_⟩
      rw [haltReleased_congr (mild_releaseTest d h.restless).guards (releaseTest_slotAt d)
        (by rw [still, own]) (by rw [still, own])]
      exact ready

theorem foldl_releaseTest_slotAt (l : List (Fin 4)) (s : State) (i : Fin 16) :
    (l.foldl State.releaseTest s).slotAt i = s.slotAt i :=
  (Told.foldl State.releaseTest told_releaseTest l s).slotAt i

theorem foldl_releaseTest_gentle (ha : s.Awake) (l : List (Fin 4)) : Gentle s (l.foldl State.releaseTest s) := by
  induction l generalizing s with
  | nil => exact .refl s
  | cons c l ih =>
    have one := gentle_releaseTest ha c
    exact one.trans (ih (one.awake ha))

end Through

/-! ## The guard that closes -/

section Closes
variable {s : State} {g c : Fin 4} {i : Fin 16} {r : Record}

/-- The guard CLOSED, before the end of its condition. -/
def State.guardShut (s : State) (g : Fin 4) : State := s.withGuard g ⟨false, 0, false⟩

/-- The condition of its GUARD-OPEN record ended, before the release tests. -/
def State.guardEnded (s : State) (g : Fin 4) : State := (s.guardShut g).conditionEnd .guardOpen g.val

/-- The channels that the guard protects. -/
def State.protectedBy (s : State) (g : Fin 4) : List (Fin 4) := four.filter fun c => (s.chan c).guardMap.getLsbD g.val

theorem mem_protectedBy : c ∈ s.protectedBy g ↔ (s.chan c).guardMap.getLsbD g.val = true := by simp [State.protectedBy]

theorem guardClosing_eq (s : State) (g : Fin 4) : s.guardClosing g =
    ((s.guardEnded g).protectedBy g).foldl State.releaseTest (s.guardEnded g) := rfl

theorem guardClosing_told (s : State) (g : Fin 4) : Told (s.guardEnded g) (s.guardClosing g) :=
  Told.foldl State.releaseTest told_releaseTest _ _

theorem guardShut_guardIn (s : State) (g h : Fin 4) :
    (s.guardShut g).guardIn h = if h = g then ⟨false, 0, false⟩ else s.guardIn h := guardIn_withGuard ..

theorem guardClosing_sent (s : State) (g : Fin 4) : Sent (s.guardShut g) (s.guardClosing g) :=
  (sent_conditionEnd (s.guardShut g) .guardOpen g.val).trans (guardClosing_told s g).sent

theorem guardClosing_guardIn (s : State) (g h : Fin 4) :
    (s.guardClosing g).guardIn h = if h = g then ⟨false, 0, false⟩ else s.guardIn h := by
  rw [State.guardIn, (guardClosing_sent s g).guards]
  exact guardShut_guardIn s g h

theorem guardClosing_slotAt (s : State) (g : Fin 4) (i : Fin 16) :
    (s.guardClosing g).slotAt i = (s.guardEnded g).slotAt i := (guardClosing_told s g).slotAt i

/-- The record of the guard, by its state. -/
theorem guardEnded_waits (hf : s.findRecord .guardOpen g.val = some i) (hr : s.slotAt i = some r)
    (h : r.state = .raised ∨ r.state = .called) : (s.guardEnded g).slotAt i = some { r with condition := false } := by
  have e : s.guardEnded g = (s.guardShut g).withSlot i (some { r with condition := false }) :=
    conditionEnd_latched (s := s.guardShut g) hf hr rfl h
  rw [e, slotAt_withSlot, if_pos rfl]

/-- An acknowledged record, where the transmitter is not to choose: freed in BYPASS, else CLEARING. -/
theorem guardEnded_acknowledged (hf : s.findRecord .guardOpen g.val = some i) (hr : s.slotAt i = some r)
    (h : r.state = .acknowledged) (left : s.ring.bypass = true ∨ s.ring.sending.isSome = true) :
    (s.guardEnded g).slotAt i = if s.ring.bypass then none else
      some { r with condition := false, state := .clearing, timer := none, due := true } := by
  have e : s.guardEnded g = (((s.guardShut g).withSlot i (if s.ring.bypass then none else some { r with
      condition := false, state := .clearing, timer := none, due := true })).tellRecord .guardOpen g.val).pump :=
    conditionEnd_ended (s := s.guardShut g) hf hr (.inl h)
  have told := told_tellRecord ((s.guardShut g).withSlot i (if s.ring.bypass then none else some { r with
      condition := false, state := .clearing, timer := none, due := true })) .guardOpen g.val
  rw [e, pump_left (by rw [told.ring]; exact left), told.slotAt, slotAt_withSlot, if_pos rfl]

/-- In a node that is not CLOSING: records and releases alone. -/
theorem guardClosing_gentle (hn : s.mode.node ≠ .closing) : Gentle (s.guardShut g) (s.guardClosing g) := by
  have awake : (s.guardShut g).Awake := .inl hn
  have ended := gentle_conditionEnd (k := .guardOpen) awake rfl g.val
  exact ended.trans (foldl_releaseTest_gentle (ended.awake awake) _)

/-- A channel bound by another guard, or by a record that waits to be seen, stands. -/
theorem guardClosing_bound (hn : s.mode.node ≠ .closing) (hs : (s.chan c).state = .halted)
    (h : (s.guardShut g).haltReleased c = false) : (s.guardClosing g).chan c = s.chan c :=
  (guardClosing_gentle hn).stays c
    ⟨fun _ => h, fun (fault : (s.chan c).state = .fault) => by rw [hs] at fault; cases fault⟩

/-- A channel that the guard alone held is released, whether before its own test or by it. -/
theorem guardClosing_frees (hn : s.mode.node ≠ .closing) (hs : (s.chan c).state = .halted)
    (ha : (s.chan c).aside = none) (hm : (s.chan c).guardMap.getLsbD g.val = true)
    (h : (s.guardShut g).haltReleased c = true) : (s.guardClosing g).chan c = (s.chan c).released := by
  have start : HaltedOrReleased c (s.chan c) (s.guardShut g) := ⟨hn, .inl rfl⟩
  have ended : HaltedOrReleased c (s.chan c) (s.guardEnded g) :=
    start.conditionEnd (k := .guardOpen) hs ha rfl g.val
  rw [guardClosing_eq]
  refine foldl_releaseTest_free hs ha ended fun own => ⟨mem_protectedBy.mpr (own.symm ▸ hm), ?_⟩
  by_contra bound
  rw [Bool.not_eq_true] at bound
  have guards : (s.guardShut g).motion.guards = (s.guardEnded g).motion.guards :=
    (sent_conditionEnd (s.guardShut g) .guardOpen g.val).guards.symm
  have before := haltReleased_kept (t := s.guardShut g) own.symm guards
    (fun k n => conditionEnd_waited (k := .guardOpen) rfl) bound
  exact Bool.noConfusion (h.symm.trans before)

/-- The other guards of a map decide whether all of it is closed. -/
theorem guardShut_guardsClosed (m : BitVec 4) : (s.guardShut g).guardsClosed m = true ↔
    ∀ h : Fin 4, h ≠ g → m.getLsbD h.val = true → (s.guardIn h).isOpen = false := by
  simp only [guardsClosed_iff, guardShut_guardIn]
  refine forall_congr' fun h => ?_
  by_cases e : h = g <;> simp [e]

end Closes

/-- Settles O40: the release test by what frees a channel, and the whole event by the end of the condition and the
tests after it. -/
theorem guardClosingReleases : Obligations.GuardClosingReleases := by
  refine ⟨fun c s => ⟨fun h h' => releaseTest_stays (stays_of_state h h'), fun hs bound => ?_, fun hs bound => ?_,
    fun ha => ⟨fun hs closed seen => ?_, fun hs free => ?_⟩⟩, fun g s sampling opened => ?_⟩
  · refine releaseTest_stays ⟨fun _ => haltReleased_false_iff.mpr bound, fun fault => ?_⟩
    rw [hs] at fault
    cases fault
  · refine releaseTest_stays ⟨fun halted => ?_, fun _ => faultReleased_false bound⟩
    rw [hs] at halted
    cases halted
  · exact (releaseTest_halted hs (haltReleased_true_iff.mpr ⟨closed, seen⟩)).trans (changeChan_aside ha)
  · refine (releaseTest_fault hs ?_).trans (changeChan_aside ha)
    rcases free with ⟨reason, free⟩ | ⟨reason, free⟩
    · exact (faultReleased_driver reason).mpr free
    · exact (faultReleased_limit_iff reason).mpr free
  · have sent := guardClosing_sent s g
    refine ⟨s.guardEnded g, s.guardClosing g, congrArg Host.Outcome.next (if_pos ⟨sampling, opened⟩), rfl,
      List.foldl_filter .., (guardClosing_guardIn s g g).trans (if_pos rfl),
      fun h hh => (guardClosing_guardIn s g h).trans (if_neg hh), fun i r hf hr => ?_, sent.mgmt,
      congrArg (·.words) sent.mem, sent.cue, fun hn => ?_⟩
    · simp only [guardClosing_slotAt]
      refine ⟨guardEnded_waits hf hr, fun acknowledged bypass => ?_, fun acknowledged line busy => ?_⟩
      · rw [guardEnded_acknowledged hf hr acknowledged (.inl bypass), if_pos bypass]
      · rw [guardEnded_acknowledged hf hr acknowledged (.inr busy), line]
        rfl
    · have gentle := guardClosing_gentle (g := g) hn
      refine ⟨gentle.mild.effect, gentle.mild.mode, fun c => ⟨gentle.mild.chans c, fun hs ha hm => ⟨fun bound => ?_,
        fun closed seen => ?_⟩⟩⟩
      · refine guardClosing_bound hn hs (haltReleased_false_iff.mpr (bound.imp (fun ⟨h, hh, maps, stands⟩ => ?_) id))
        rw [Bool.eq_false_iff]
        intro closed
        exact Bool.noConfusion (stands.symm.trans ((guardShut_guardsClosed _).mp closed h hh maps))
      · exact guardClosing_frees hn hs ha hm
          (haltReleased_true_iff.mpr ⟨(guardShut_guardsClosed _).mpr closed, seen⟩)

end Sys2Proof.Machine
end

