-- ==== Sys2Proof/Proofs/ProfileEnds.lean ====
section
/-! PROOF. The end of a profile in which no pending start waits, told once for every way it comes about (R92, R95, R100):
the channel at IDLE, the LOCAL-DONE, the DONE, and the records that stand. -/
namespace Sys2Proof.Machine

section Ends
variable {s t : State} {c d : Fin 4} {ch : Channel} {o : EndOutcome}

theorem offerOwn_chan_left (hs : s.ring.sending.isSome = true) (f : Frame) : (s.offerOwn f).chan d = s.chan d := by
  unfold State.offerOwn
  split
  · have left := pump_left (s := { s with ring.insertion := s.ring.insertion ++ [f] }) (.inr hs)
    have same := congrArg (State.chan · d) left
    exact same
  · rfl

/-- With its transmitter sending, a report leaves every other channel. -/
theorem report_chan_left (hs : s.ring.sending.isSome = true) (hd : d ≠ c) : (s.report c ch o).chan d = s.chan d := by
  cases hq : ch.profile with
  | none => rw [report_none hq]
  | some p =>
    obtain ⟨q, n, a, po, w, e⟩ := offerTrigger_eq (s.done c ch p o) (.localDone c o p)
    have left : (s.done c ch p o).chan d = s.chan d := by
      unfold State.done
      split
      · rfl
      · exact offerOwn_chan_left hs _
    rw [report_some hq, chan_withChan, if_neg hd, e]
    exact left

/-- `t` is `s` with the profile of channel `c` ended by `o`: the channel, at rest as `ch`, is IDLE. -/
structure ProfileEnded (s t : State) (c : Fin 4) (ch : Channel) (o : EndOutcome) : Prop where
  own    : t.chan c = { ch with state := .idle, profile := none, clamped := (t.chan c).clamped }
  others : ∀ d, d ≠ c → t.chan d = s.chan d ∨ s.ring.sending = none
  offers : ∀ q, ch.profile = some q → s.cue.dispatch ≠ .idle → s.cue.queue.length < 16 →
    t.cue.queue = s.cue.queue ++ [.localDone c o q]
  sends  : ∀ k q, ch.held = .copy k → ch.profile = some q → s.ring.bypass = false →
    s.ring.sending.isSome = true → s.ring.insertion.length < 8 →
    t.ring.insertion = s.ring.insertion ++ (if k.reportDone then
      [⟨0x12, 0, s.address, BitVec.ofNat 8 s.ring.hopLimit, [BitVec.ofNat 8 c.val, BitVec.ofNat 8 q.val,
        BitVec.ofNat 8 o.code, if ch.clamped then 1 else 0] ++ bytesBE 3 ch.position⟩] else [])
  effect : t.effect = s.effect
  words  : t.mem.words = s.mem.words
  mgmt   : t.mgmt = s.mgmt

/-- A channel in motion that comes to rest with no pending start and no copy aside, in a node that is not CLOSING. -/
theorem comeToRest_ended (hn : s.mode.node ≠ .closing) (hs : ch.slot = none) (ha : ch.aside = none) :
    ProfileEnded s (s.comeToRest c ch (some o)).arbitrate c ch o := by
  have idles := comeToRest_idles (s := s) (c := c) (.inl ⟨rfl, hs⟩) (some o)
  obtain ⟨moved, others, own⟩ := idle_notLast (s := s) (c := c) (ch := ch) (blocked := false) fun last => hn last.1
  have rep : Reported (s.idle c ch false) (s.comeToRest c ch (some o)) c ch o := by
    rw [idles]
    exact ended_reported (awake_changeChan _ c _) c ch o
  have idle : (s.idle c ch false).chan c = { ch with state := .idle } := by
    rw [own ha]
    unfold Channel.idled
    rw [← hs]
    rfl
  obtain ⟨mem, mgmt, cue, ring, -⟩ := moved.shifted.kept
  have rest := rep.own (changeChan_stays (.inr rfl)) (by rw [idle])
  rw [idle] at rest
  obtain ⟨-, -, words, same⟩ := arbitrate_parts (s.comeToRest c ch (some o))
  have cue' : (s.comeToRest c ch (some o)).arbitrate.cue = (s.comeToRest c ch (some o)).cue := by rw [same]
  have ring' : (s.comeToRest c ch (some o)).arbitrate.ring = (s.comeToRest c ch (some o)).ring := by rw [same]
  refine ⟨?_, fun d hd => ?_, fun q hq hd hl => ?_, fun k q hk hq hb hi hl => ?_, ?_, ?_, ?_⟩
  · rw [arbitrate_chan]
    exact rest
  · rw [arbitrate_chan]
    cases busy : s.ring.sending with
    | none => exact .inr rfl
    | some f =>
      left
      rw [idles]
      exact (report_chan_left (by rw [show State.changeChan _ c _ = s.idle c ch false from rfl, ring, busy]; rfl)
        hd).trans (others d hd)
  · rw [cue', rep.offers q hq (by rw [cue]; exact hd) (by rw [cue]; exact hl), cue]
  · rw [ring', (rep.sends (by rw [ring]; exact hb) (by rw [ring]; exact hi) (by rw [ring]; exact hl)).2, ring, hq]
    exact congrArg (s.ring.insertion ++ ·) (doneSent_copy moved.shifted (by rw [idle]; exact hk))
  · rw [same]
    exact rep.effect.trans moved.effect
  · rw [words, rep.words, mem]
  · rw [same]
    exact rep.mgmt.trans mgmt

/-- Whatever becomes of a pending start, the records that wait to be seen, the overflow flag and the words of table
memory stand as a channel in motion comes to rest. -/
theorem comeToRest_records (hm : (s.chan c).state.inMotion = true) (hs : ch.state = (s.chan c).state) :
    (∀ k n, s.Unseen k n → (s.comeToRest c ch (some o)).Unseen k n) ∧
      (s.comeToRest c ch (some o)).alert.overflow = s.alert.overflow ∧
      (s.comeToRest c ch (some o)).mem.words = s.mem.words := by
  have reported : ∀ u v : State, Shifted s u → Reported u v c ch o → (∀ k n, s.Unseen k n → v.Unseen k n) ∧
      v.alert.overflow = s.alert.overflow ∧ v.mem.words = s.mem.words := fun u v shift rep => by
    obtain ⟨mem, -, -, -, alert, -⟩ := shift.kept
    exact ⟨fun k n hu => rep.unseen k n (unseen_of_slots shift.slotAt k n hu), by rw [rep.overflow, alert],
      by rw [rep.words, mem]⟩
  by_cases begins : ∃ p, ch.slot = some p ∧ s.gated c = false ∧ s.guardsClosed ch.guardMap = true
  · obtain ⟨p, hp, hg, hc⟩ := begins
    have shift : Shifted s ((s.cancelOwed c).withChan c { ch with slot := none }) :=
      (moved_cancelOwed s c).shifted.trans (moved_withChan _ c _).shifted
    have awake : State.Awake ((s.cancelOwed c).withChan c { ch with slot := none }) := by
      refine awake_inMotion (c := c) ?_
      rw [chan_withChan, if_pos rfl]
      show ch.state.inMotion = true
      rw [hs, hm]
    obtain ⟨unseen, overflow, words⟩ := reported _ _ shift (ended_reported awake c ch o)
    rw [comeToRest_begins hp hg hc, beginProfile_eq]
    generalize ((s.cancelOwed c).withChan c { ch with slot := none }).ended c ch (some o) = v at unseen overflow words
    obtain ⟨-, -, words', same⟩ := arbitrate_parts (v.begun c p)
    have begun := moved_begun v c p
    have alert : (v.begun c p).arbitrate.alert = v.alert := by rw [same, begun]
    refine ⟨fun k n hu => unseen_of_slots (fun i => ?_) k n (unseen k n hu), by rw [alert, overflow], ?_⟩
    · rw [State.slotAt, alert, State.slotAt]
    · rw [words', begun]
      exact words
  · have blocked : ∃ blocked, s.Blocked c ch blocked := by
      cases hp : ch.slot with
      | none => exact ⟨false, .inl ⟨rfl, hp⟩⟩
      | some p =>
        refine ⟨true, .inr ⟨rfl, by rw [hp]; rfl, ?_⟩⟩
        by_contra no
        simp only [not_or, Bool.not_eq_true, Bool.not_eq_false] at no
        exact begins ⟨p, hp, no.1, no.2⟩
    obtain ⟨blocked, hb⟩ := blocked
    rw [comeToRest_idles hb]
    exact reported _ _ (idle_shifted ch blocked) (ended_reported (awake_changeChan _ c _) c ch o)

end Ends

end Sys2Proof.Machine
end

