-- ==== Sys2Proof/Proofs/Segments.lean ====
section
/-! PROOF. The segments of a profile (R90 to R92, R108, R109, R111, R114, R115): the distance of each, how the next of the
running order becomes current and what is then owed, and what its arrival and the end of its dwell lead to. -/
namespace Sys2Proof.Machine

/-! ## Distances (R90, R91) -/

section Distance
variable {travel p : Nat} {g : Segment}

theorem segmentDistance_dwell (rotary : Bool) (h : g.kind = .dwell) :
    segmentDistance rotary travel p g = (0, false) := by
  unfold segmentDistance
  cases rotary <;> simp [h]

theorem segmentDistance_rotary_byDistance (h : g.kind = .byDistance) :
    segmentDistance true travel p g = (g.target, false) := by
  simp [segmentDistance, h]

theorem segmentDistance_linear_byDistance (h : g.kind = .byDistance) : segmentDistance false travel p g =
    (max 0 (min (travel : Int) (p + g.target)) - p,
      decide ((p : Int) + g.target < 0 ∨ (travel : Int) < p + g.target)) := by
  simp only [segmentDistance, h, clampInt, Bool.false_eq_true, if_false]
  exact Prod.ext rfl (decide_eq_decide.mpr (by omega))

theorem segmentDistance_linear_goto (h : g.kind = .goto) : segmentDistance false travel p g =
    (max 0 (min (travel : Int) g.target) - p, decide (g.target < 0 ∨ (travel : Int) < g.target)) := by
  simp only [segmentDistance, h, clampInt, Bool.false_eq_true, if_false]
  exact Prod.ext rfl (decide_eq_decide.mpr (by omega))

/-- The steps outward to the target, modulo the wrap length. -/
theorem segmentDistance_rotary_goto (h : g.kind = .goto) (wraps : 0 < travel) : ∃ (n : Nat) (q : Int),
    segmentDistance true travel p g = ((n : Int), false) ∧ n < travel ∧ (p : Int) + n + q * travel = g.target := by
  have pos : (0 : Int) < travel := by omega
  have low := Int.emod_nonneg (g.target - p) pos.ne'
  have high := Int.emod_lt_of_pos (g.target - p) pos
  have whole := Int.emod_add_mul_ediv (g.target - p) travel
  refine ⟨((g.target - p) % travel).toNat, (g.target - p) / travel, ?_, by omega, ?_⟩
  · simp [segmentDistance, h, Int.toNat_of_nonneg low]
  · rw [Int.toNat_of_nonneg low, mul_comm]
    omega

end Distance

/-! ## The next segment becomes current (R109), and the one two beyond it is owed (R115) -/

section Current
variable {s : State} {c : Fin 4} {d : Directory} {n : Nat}

theorem orderReaches_iff (ch : Channel) (d : Directory) (n : Nat) : ch.orderReaches d n = true ↔
    (ch.finalPass = false ∨ n < d.count * (ch.ord / d.count + 1)) ∧ (d.repeats = 0 ∨ n < d.count * d.repeats) := by
  simp [Channel.orderReaches]

theorem owesSegment_iff : s.owesSegment c n = true ↔ ∃ f base, f ∈ s.motion.owed ∧ f.chan = c ∧
    f.cancelled = false ∧ f.item = .segment n base := by
  have one : ∀ f : Fetch, (decide (f.chan = c) && !f.cancelled && (match f.item with
      | .segment o _ => o == n
      | .directory _ => false)) = true ↔ ∃ base, f.chan = c ∧ f.cancelled = false ∧ f.item = .segment n base := by
    intro f
    cases f.item <;> simp [and_assoc]
  unfold State.owesSegment
  rw [List.any_eq_true]
  constructor
  · rintro ⟨f, hf, h⟩
    obtain ⟨base, h⟩ := (one f).mp h
    exact ⟨f, base, hf, h⟩
  · rintro ⟨f, base, hf, h⟩
    exact ⟨f, hf, (one f).mpr ⟨base, h⟩⟩

theorem owesSegment_false_iff : s.owesSegment c n = false ↔
    ∀ f base, f ∈ s.motion.owed → f.chan = c → f.cancelled = false → f.item ≠ .segment n base := by
  rw [← Bool.not_eq_true, owesSegment_iff]
  simp only [not_exists, not_and, ne_eq]

/-- The segment at place `n` is wanted: the running order reaches it, and it is neither buffered nor owed. -/
def State.wantsSegment (s : State) (c : Fin 4) (d : Directory) (n : Nat) : Prop :=
  (s.chan c).orderReaches d n = true ∧ s.owesSegment c n = false ∧ ((s.chan c).buffer.any fun b => b.ord == n) = false

theorem oweSegment_owes (hd : (s.chan c).dir = some d) (h : s.wantsSegment c d n) :
    s.oweSegment c n = s.owe (segmentFetch c d n) := by
  unfold State.oweSegment
  rw [hd]
  exact if_pos h

theorem oweSegment_stands (hd : (s.chan c).dir = some d) (h : ¬ s.wantsSegment c d n) : s.oweSegment c n = s := by
  unfold State.oweSegment
  rw [hd]
  exact if_neg h

theorem oweSegment_chan (s : State) (c e : Fin 4) (n : Nat) : (s.oweSegment c n).chan e = s.chan e := by
  unfold State.oweSegment
  split
  · split <;> rfl
  · rfl

/-- A channel whose next segment is at the head of its buffer, the segment made current. -/
def State.segmentTaken (s : State) (c : Fin 4) (d : Directory) (k : ChannelSettings) (b : Buffered)
    (bs : List Buffered) : State :=
  s.withChan c (({ s.chan c with buffer := bs } : Channel).enterSegment s.mode.mode k (d.segmentAt b.ord) b.seg)

theorem tryCurrent_takes {k : ChannelSettings} {b : Buffered} {bs : List Buffered} (hs : (s.chan c).state = .moving)
    (hc : (s.chan c).current = none) (hd : (s.chan c).dir = some d) (hh : (s.chan c).held = .copy k)
    (hb : (s.chan c).buffer = b :: bs) (ho : b.ord = (s.chan c).ord) :
    s.tryCurrent c = ((s.segmentTaken c d k b bs).oweSegment c (b.ord + 2)).arbitrate := by
  unfold State.tryCurrent State.segmentTaken
  simp only [hs, hc, hd, hh, hb]
  rw [if_pos ho, ho]

theorem segmentTaken_chan (s : State) (c : Fin 4) (d : Directory) (k : ChannelSettings) (b : Buffered)
    (bs : List Buffered) : (s.segmentTaken c d k b bs).chan c =
      ({ s.chan c with buffer := bs } : Channel).enterSegment s.mode.mode k (d.segmentAt b.ord) b.seg :=
  (chan_withChan ..).trans (if_pos rfl)

theorem segmentTaken_wants {d' : Directory} {k : ChannelSettings} {b : Buffered} {bs : List Buffered}
    (ho : b.ord = (s.chan c).ord) : (s.segmentTaken c d' k b bs).wantsSegment c d n ↔
      (((s.chan c).finalPass = false ∨ n < d.count * (b.ord / d.count + 1)) ∧
        (d.repeats = 0 ∨ n < d.count * d.repeats)) ∧ (∀ y, y ∈ bs → y.ord ≠ n) ∧
      (∀ f base, f ∈ s.motion.owed → f.chan = c → f.cancelled = false → f.item ≠ .segment n base) := by
  unfold State.wantsSegment
  rw [segmentTaken_chan, orderReaches_iff, owesSegment_false_iff, ho]
  refine and_congr Iff.rfl (and_comm.trans (and_congr ?_ Iff.rfl))
  show (bs.any fun b => b.ord == n) = false ↔ _
  simp

/-- A channel with a segment in hand waits for none. -/
theorem tryCurrent_busy (h : (s.chan c).current.isSome = true) : s.tryCurrent c = s := by
  unfold State.tryCurrent
  dsimp only
  split
  · next none _ _ _ => rw [none] at h; cases h
  · rfl

end Current

/-! ## A segment finished (R111, R114) -/

section Done
variable {s : State} {c : Fin 4} {d : Directory} {y : Channel}

/-- The record of a channel whose segment is finished, before it looks for the next. -/
def Channel.finished (x : Channel) : Channel :=
  { x with current := none, arrived := false, ord := x.ord + 1, v := 0, phi := 0 }

/-- What a finished segment gives way to: completion, a new pass, or the next segment. -/
theorem segmentDone_eq (hd : y.dir = some d) : (s.withChan c y).segmentDone c =
    if (y.ord + 1) % d.count = 0 then
      if y.finalPass = true ∨ (d.repeats ≠ 0 ∧ y.pass = d.repeats) then
        ((s.withChan c y).comeToRest c { y.halt with completed := inc16 y.completed } (some .completed)).arbitrate
      else (s.withChan c { y.finished with pass := inc8 y.pass }).tryCurrent c
    else (s.withChan c y.finished).tryCurrent c := by
  have own : (s.withChan c y).chan c = y := (chan_withChan ..).trans (if_pos rfl)
  unfold State.segmentDone State.complete
  dsimp only
  rw [own, withChan_withChan, withChan_withChan]
  split
  · next none => rw [hd] at none; cases none
  · next d' e =>
    obtain rfl : d = d' := Option.some.inj (hd.symm.trans e)
    rfl

/-- An arrival, or the end of a dwell, in its state. -/
def State.segmentOver (s : State) (c : Fin 4) (cmd : Instr) : Prop :=
  (s.chan c).state = .moving ∧ (s.chan c).current.isSome = true ∧
    (cmd = .arrival c ∧ (s.chan c).arrived = false ∧ (s.chan c).rem = 0 ∨ cmd = .dwellEnd c ∧ (s.chan c).arrived = true)

/-- The record at an arrival, or at the end of a dwell. -/
def State.overAs (s : State) (c : Fin 4) (cmd : Instr) : Channel :=
  if cmd = .dwellEnd c then { s.chan c with dwell := 0, stepPulses := 0, v := 0, phi := 0 }
  else { s.chan c with v := 0, phi := 0, braking := false, stepPulses := 0 }

theorem exec_arrival_done (hs : (s.chan c).state = .moving) (hc : (s.chan c).current.isSome = true)
    (ha : (s.chan c).arrived = false) (hr : (s.chan c).rem = 0) : exec (.arrival c) s = .next (s.arrive c) :=
  congrArg Host.Outcome.next (if_pos ⟨hs, hc, ha, hr⟩)

theorem exec_dwellEnd_done (hs : (s.chan c).state = .moving) (hc : (s.chan c).current.isSome = true)
    (ha : (s.chan c).arrived = true) : exec (.dwellEnd c) s =
      .next ((s.withChan c { s.chan c with dwell := 0, stepPulses := 0 }).segmentDone c) :=
  congrArg Host.Outcome.next (if_pos ⟨hs, hc, ha⟩)

/-- Where no dwell is left, the segment is finished. -/
theorem exec_segmentOver {cmd : Instr} (h : s.segmentOver c cmd) (hw : (s.overAs c cmd).dwell = 0) :
    ∃ a v phi, exec cmd s = .next ((s.withChan c
      { s.overAs c cmd with arrived := a, v := v, phi := phi }).segmentDone c) := by
  obtain ⟨hs, hc, ⟨rfl, ha, hr⟩ | ⟨rfl, ha⟩⟩ := h
  · have ended : s.overAs c (.arrival c) = { s.chan c with v := 0, phi := 0, braking := false, stepPulses := 0 } :=
      if_neg Instr.noConfusion
    rw [ended] at hw ⊢
    refine ⟨true, 0, 0, (exec_arrival_done hs hc ha hr).trans (congrArg Host.Outcome.next ?_)⟩
    exact if_pos hw
  · exact ⟨(s.chan c).arrived, (s.chan c).v, (s.chan c).phi,
      (exec_dwellEnd_done hs hc ha).trans (by rw [State.overAs, if_pos rfl])⟩

end Done

/-- Settles O37: the distances, the segment that becomes current (`tryCurrent_takes`), and a finished segment by its place
in the pass (`segmentDone_eq`). -/
theorem segmentsEnd : Obligations.SegmentsEnd := by
  refine ⟨fun rotary travel p g => ⟨segmentDistance_dwell rotary, fun h => ⟨segmentDistance_rotary_byDistance h,
    segmentDistance_linear_byDistance h⟩, fun h => ⟨segmentDistance_linear_goto h, segmentDistance_rotary_goto h⟩⟩,
    ?_, ?_⟩
  · intro c s d k b bs x hs hc hd hh hb ho hx
    have own := segmentTaken_chan s c d k b bs
    have taken := tryCurrent_takes hs hc hd hh hb ho
    have dir : ((s.segmentTaken c d k b bs).chan c).dir = some d := by rw [own]; exact hd
    refine ⟨_, rfl, ?_⟩
    rw [taken, arbitrate_chan, oweSegment_chan, own, (arbitrate_parts _).1]
    subst hx
    refine ⟨rfl, rfl, rfl, rfl, rfl, rfl, rfl, rfl, rfl, rfl, rfl, rfl, rfl, ?_, rfl, rfl, ?_⟩
    · show (if _ then (s.chan c).dirPin else Channel.dirLevel _ _) = _
      split
      · rfl
      · exact dirLevel_copy _ hh
    · rintro n rfl
      refine ⟨fun h => ?_, fun h => ?_⟩
      · rw [oweSegment_owes dir ((segmentTaken_wants ho).mpr h)]
        rfl
      · rw [oweSegment_stands dir fun w => ?_]
        · rfl
        obtain ⟨reaches, fresh, unowed⟩ := (segmentTaken_wants ho).mp w
        rcases h with h | ⟨y, hy, e⟩ | ⟨f, base, hf, hfc, hn, e⟩
        · exact h reaches
        · exact fresh y hy e
        · exact unowed f base hf hfc hn e
  · intro c s d cmd ch hs hc hd hcmd hch
    have here : s.segmentOver c cmd := ⟨hs, hc, hcmd⟩
    obtain rfl : ch = s.overAs c cmd := hch
    have fields : (s.overAs c cmd).dir = some d := by unfold State.overAs; split <;> exact hd
    refine ⟨?_, fun hw => ?_⟩
    · rintro rfl dwells
      rcases hcmd with ⟨-, ha, hr⟩ | ⟨no, -⟩
      · refine (exec_arrival_done hs hc ha hr).trans (congrArg Host.Outcome.next ((if_neg dwells).trans ?_))
        unfold State.overAs
        rw [if_neg Instr.noConfusion]
      · cases no
    · obtain ⟨a, v, phi, e⟩ := exec_segmentOver here hw
      rw [e]
      have still : (s.overAs c cmd).v = 0 ∧ (s.overAs c cmd).phi = 0 := by
        unfold State.overAs; split <;> exact ⟨rfl, rfl⟩
      generalize s.overAs c cmd = ch at *
      obtain ⟨hv, hphi⟩ := still
      have done := segmentDone_eq (s := s) (c := c) (y := { ch with arrived := a, v := v, phi := phi }) fields
      have next : ({ ch with arrived := a, v := v, phi := phi } : Channel).finished =
          { ch with current := none, arrived := false, ord := ch.ord + 1 } := by
        unfold Channel.finished
        dsimp only
        rw [hv, hphi]
      rw [next] at done
      refine ⟨fun h => ?_, fun h hf more => ?_, fun h last hn hslot ha => ?_⟩
      · rw [done, if_neg h]
      · have more' : ¬ (ch.finalPass = true ∨ (d.repeats ≠ 0 ∧ ch.pass = d.repeats)) := by
          rw [hf]
          rcases more with more | more <;> simp [more]
        rw [done, if_pos h, if_neg more']
      · rw [done, if_pos h, if_pos last]
        have ends := comeToRest_ended (s := s.withChan c { ch with arrived := a, v := v, phi := phi }) (c := c)
          (ch := { ch.halt with completed := inc16 ch.completed }) (o := .completed) hn hslot ha
        have own : ∀ {α : Type} (f : Channel → α), _ := fun f => congrArg f ends.own
        refine ⟨_, rfl, own Channel.state, own Channel.profile, own Channel.completed, own Channel.position,
          own Channel.buffer, own Channel.held, fun x hx => ?_, ends.offers, ends.sends, ends.effect, ends.words,
          ends.mgmt⟩
        exact (ends.others x hx).imp (·.trans ((chan_withChan ..).trans (if_neg hx))) id

end Sys2Proof.Machine
end

