-- ==== Sys2Proof/Proofs/Ticks.lean ====
section
/-! PROOF. The tick of a channel in motion (R82, R91, R96, R97, R110 to R113, R118 to R120): a guard that stands open, the
inputs read, and the stages of MOVING, STOPPING and HOMING. -/
namespace Sys2Proof.Machine

/-! ## A guard that stands open (R82, R110) -/

section Guard
variable {s a : State} {c g h : Fin 4} {l : List (Fin 4)}

/-- A HALTED channel with an open guard in its map stands as another guard opens. -/
theorem guardRaised_bound (hn : s.mode.node ≠ .closing) (hs : (s.chan c).state = .halted)
    (hm : (s.chan c).guardMap.getLsbD h.val = true) (ho : ((s.guardOpen g).guardIn h).isOpen = true) :
    (s.guardRaised g).chan c = s.chan c := by
  have halts := guardHalted_halts s g
  have stands : Standing g four (s.guardOpen g) (s.guardHalted g) :=
    halts.done.resolve_right fun rests => hn rests.due.closing
  have notFault : (s.chan c).state ≠ .fault := by rw [hs]; decide
  have still : (s.guardOpen g).hit g c = false := by
    rw [Bool.eq_false_iff]
    intro hit
    have moves := hit_inMotion hit
    rw [show ((s.guardOpen g).chan c).state = .halted from hs] at moves
    cases moves
  have bound : (s.guardOpen g).Stays c := stays_open (g := h) hm ho notFault
  have same : (s.guardHalted g).chan c = s.chan c := stands.others c (fun _ => still) bound
  have opened : ((s.guardHalted g).guardIn h).isOpen = true := by
    rw [State.guardIn, halts.guards]
    exact ho
  rw [(gentle_guardRaise s g).stays c (stays_open (g := h) (same ▸ hm) opened (same ▸ notFault))]
  exact same

/-- Channel `c`, in motion in `s`, has been halted by a guard of its map, and guards alone have opened since. -/
structure TickHalted (s : State) (c : Fin 4) (a : State) : Prop where
  node   : a.mode.node ≠ .closing
  guards : ∀ h, a.guardIn h = s.guardIn h ∨ (a.guardIn h).isOpen = true
  own    : a.chan c = { (s.chan c).halted with profile := none, clamped := (a.chan c).clamped }
  cause  : ∃ h : Fin 4, (s.chan c).guardMap.getLsbD h.val = true ∧ (a.guardIn h).isOpen = true

theorem guardRaised_guardIn (s : State) (g h : Fin 4) :
    (s.guardRaised g).guardIn h = if h = g then ⟨true, 0, true⟩ else s.guardIn h := by
  rw [State.guardIn, guardRaised_guards]
  exact guardIn_withGuard ..

theorem guardRaised_keeps_open (s : State) (g : Fin 4) (ho : (s.guardIn h).isOpen = true) :
    ((s.guardRaised g).guardIn h).isOpen = true := by
  rw [guardRaised_guardIn]
  split
  · rfl
  · exact ho

/-- The first guard that stands open halts the channel. -/
theorem tickHalted_first (hn : s.mode.node ≠ .closing) (he : (s.chan c).enabled = true)
    (hs : (s.chan c).state.inMotion = true) (hm : (s.chan c).guardMap.getLsbD g.val = true) :
    TickHalted s c (s.guardRaised g) ∧ ((s.guardRaised g).guardIn g).isOpen = true := by
  have stands : Standing g four (s.guardOpen g) (s.guardHalted g) :=
    (guardHalted_halts s g).done.resolve_right fun rests => hn rests.due.closing
  obtain ⟨mode, -, halted, -⟩ := guardRaised_stands (c := c) stands
  have hit : s.hit g c = true := by simp only [State.hit, he, hm, hs, Bool.and_self]
  have opened : ((s.guardRaised g).guardIn g).isOpen = true := by rw [guardRaised_guardIn, if_pos rfl]
  refine ⟨⟨mode ▸ hn, fun h => ?_, halted hit, g, hm, opened⟩, opened⟩
  rw [guardRaised_guardIn]
  split
  · exact .inr rfl
  · exact .inl rfl

/-- One guard of a tick's walk over the map: it opens where it stands open. -/
def State.tickGuard (a : State) (c g : Fin 4) : State := if a.guardStandsOpen c g then a.guardOpened g else a

theorem tickGuard_opens (h : a.guardStandsOpen c g = true) : a.tickGuard c g = a.guardRaised g :=
  (if_pos h).trans (guardOpened_eq a g)

theorem tickGuard_stands (h : ¬ a.guardStandsOpen c g = true) : a.tickGuard c g = a := if_neg h

theorem tickGuards_eq (s : State) (c : Fin 4) : s.tickGuards c = four.foldl (State.tickGuard · c ·) s := rfl

/-- A further guard that stands open opens, and the channel stands HALTED. -/
theorem TickHalted.step (t : TickHalted s c a) (g : Fin 4) :
    TickHalted s c (a.tickGuard c g) ∧
    (∀ h, (a.guardIn h).isOpen = true →
      ((a.tickGuard c g).guardIn h).isOpen = true) ∧
    ((s.chan c).guardMap.getLsbD g.val = true → (s.guardIn g).pin = true →
      ((a.tickGuard c g).guardIn g).isOpen = true) := by
  have map : (a.chan c).guardMap = (s.chan c).guardMap := by rw [t.own]; rfl
  by_cases stands : a.guardStandsOpen c g = true
  · rw [tickGuard_opens stands]
    obtain ⟨h, hm, ho⟩ := t.cause
    have stands : Standing g four (a.guardOpen g) (a.guardHalted g) :=
      (guardHalted_halts a g).done.resolve_right fun rests => t.node rests.due.closing
    have opened : ((a.guardOpen g).guardIn h).isOpen = true := by
      rw [State.guardOpen, guardIn_withGuard]
      split
      · rfl
      · exact ho
    have same : (a.guardRaised g).chan c = a.chan c :=
      guardRaised_bound t.node (by rw [t.own]; rfl) (map.symm ▸ hm) opened
    refine ⟨⟨(guardRaised_stands (c := c) stands).1 ▸ t.node, fun k => ?_, same.symm ▸ t.own, h, hm,
      guardRaised_keeps_open a g ho⟩, fun k => guardRaised_keeps_open a g, fun _ _ => ?_⟩
    · rw [guardRaised_guardIn]
      split
      · exact .inr rfl
      · exact t.guards k
    · rw [guardRaised_guardIn, if_pos rfl]
  · rw [tickGuard_stands stands]
    refine ⟨t, fun _ => id, fun hm hp => ?_⟩
    rcases t.guards g with same | opened
    · cases ho : (a.guardIn g).isOpen with
      | true => rfl
      | false =>
        refine absurd ?_ stands
        unfold State.guardStandsOpen
        rw [map, hm, ho, same, hp]
        rfl
    · exact opened

theorem TickHalted.foldl (t : TickHalted s c a) (l : List (Fin 4)) :
    TickHalted s c (l.foldl (State.tickGuard · c ·) a) ∧
    (∀ h, (a.guardIn h).isOpen = true →
      ((l.foldl (State.tickGuard · c ·) a).guardIn h).isOpen = true) ∧
    (∀ h ∈ l, (s.chan c).guardMap.getLsbD h.val = true → (s.guardIn h).pin = true →
      ((l.foldl (State.tickGuard · c ·) a).guardIn h).isOpen = true) := by
  induction l generalizing a with
  | nil => exact ⟨t, fun _ => id, fun _ h => by cases h⟩
  | cons g l ih =>
    obtain ⟨next, keeps, opens⟩ := t.step g
    obtain ⟨last, keeps', opens'⟩ := ih next
    refine ⟨last, fun h ho => keeps' h (keeps h ho), fun h hh hm hp => ?_⟩
    rcases List.mem_cons.mp hh with rfl | hh
    · exact keeps' h (opens hm hp)
    · exact opens' h hh hm hp

/-- A guard that stands open at a tick is OPEN after it, and the channel HALTED. -/
theorem tickGuards_halt (hn : s.mode.node ≠ .closing) (he : (s.chan c).enabled = true)
    (hs : (s.chan c).state.inMotion = true) (hg : s.guardStandsOpen c g = true) :
    TickHalted s c (s.tickGuards c) ∧ ((s.tickGuards c).guardIn g).isOpen = true := by
  have protects : ∀ h, s.guardStandsOpen c h = true → (s.chan c).guardMap.getLsbD h.val = true ∧
      (s.guardIn h).pin = true := fun h stands => by
    simp only [State.guardStandsOpen, Bool.and_eq_true] at stands
    exact stands.1
  have walk : ∀ l : List (Fin 4), g ∈ l →
      TickHalted s c (l.foldl (State.tickGuard · c ·) s) ∧
      ((l.foldl (State.tickGuard · c ·) s).guardIn g).isOpen = true := by
    intro l
    induction l with
    | nil => intro no; cases no
    | cons h l ih =>
      intro hmem
      rw [List.foldl_cons]
      by_cases stands : s.guardStandsOpen c h = true
      · obtain ⟨first, opened⟩ := tickHalted_first hn he hs (protects h stands).1
        rw [tickGuard_opens stands]
        obtain ⟨last, keeps, opens⟩ := first.foldl l
        refine ⟨last, ?_⟩
        rcases List.mem_cons.mp hmem with rfl | hmem
        · exact keeps g opened
        · exact opens g hmem (protects g hg).1 (protects g hg).2
      · rw [tickGuard_stands stands]
        refine ih ((List.mem_cons.mp hmem).resolve_left ?_)
        rintro rfl
        exact stands hg
  rw [tickGuards_eq]
  exact walk four (mem_four g)

end Guard

/-! ## Inputs read (R96, R97) -/

section Inputs
variable {s : State} {c : Fin 4} {ch : Channel}

theorem enabled_iff (x : Channel) : x.enabled = true ↔ ∃ k, x.held = .copy k ∧ k.enabled = true := by
  unfold Channel.enabled
  cases x.held <;> simp

theorem farRead_iff (ch : Channel) : ch.farRead = true ↔
    (∃ k, ch.held = .copy k ∧ k.enabled = true ∧ k.rotary = false) ∧ ch.outward = true ∧
      ((ch.state = .moving ∧ ch.current.isSome = true ∧ ch.arrived = false ∧ 0 < ch.rem) ∨
        (ch.state = .stopping ∧ ch.vs < ch.v)) := by
  have copy : (ch.enabled && !ch.rotary) = true ↔ ∃ k, ch.held = .copy k ∧ k.enabled = true ∧ k.rotary = false := by
    unfold Channel.enabled Channel.rotary
    cases ch.held <;> simp
  have moves : ch.motionToMake = true ↔
      ((ch.state = .moving ∧ ch.current.isSome = true ∧ ch.arrived = false ∧ 0 < ch.rem) ∨
        (ch.state = .stopping ∧ ch.vs < ch.v)) := by
    unfold Channel.motionToMake
    cases ch.state <;> simp [and_assoc]
  unfold Channel.farRead
  rw [Bool.and_eq_true, Bool.and_eq_true, copy, moves, and_assoc]

theorem energised_iff (s : State) (c : Fin 4) : s.energised c = true ↔
    s.ring.bypass = false ∧ (s.chan c).state ≠ .fault ∧ (s.chan c).state ≠ .resting := by
  unfold State.energised
  cases (s.chan c).state <;> simp

theorem farRead_inMotion (h : ch.farRead = true) : ch.state = .moving ∨ ch.state = .stopping :=
  ((farRead_iff ch).mp h).2.2.imp And.left And.left

/-- The pin is as it was: the level is read once more. -/
theorem withChan_pin {x : Channel} (h : x = s.chan c) : s.withChan c x = s := by rw [h, withChan_self]

end Inputs

/-! ## The stages of a tick (R111 to R120) -/

section Stages
variable {s : State} {c : Fin 4}

theorem exec_channelTick_still (h : (s.chan c).state.inMotion = false) : exec (.channelTick c) s = .next s :=
  congrArg Host.Outcome.next (if_neg (by rw [h]; exact Bool.false_ne_true))

/-- Where no guard of its map stands open, the tick is its stages. -/
theorem exec_channelTick_stages (hs : (s.chan c).state.inMotion = true)
    (hg : ∀ g : Fin 4, (s.chan c).guardMap.getLsbD g.val = true → (s.guardIn g).pin = true →
      (s.guardIn g).isOpen = true) : exec (.channelTick c) s = .next (s.tickStages c) :=
  congrArg Host.Outcome.next ((if_pos hs).trans (by rw [tickGuards_closed hg]))

/-- No FAULT acts on the channel: it is disabled, not energised, or its input reads clear. -/
def State.faultless (s : State) (c : Fin 4) : Prop :=
  (s.chan c).enabled = false ∨ s.energised c = false ∨ (s.chan c).faultPin = false

theorem not_fault (h : s.faultless c) :
    ¬ ((s.chan c).enabled = true ∧ s.energised c = true ∧ (s.chan c).faultPin = true) := by
  rintro ⟨he, hn, hp⟩
  rcases h with h | h | h
  · exact Bool.noConfusion (he.symm.trans h)
  · exact Bool.noConfusion (hn.symm.trans h)
  · exact Bool.noConfusion (hp.symm.trans h)

theorem not_far {x : Channel} (h : x.farRead = false ∨ x.farPin = false) : ¬ (x.farRead = true ∧ x.farPin = true) := by
  rintro ⟨hr, hp⟩
  rcases h with h | h
  · exact Bool.noConfusion (hr.symm.trans h)
  · exact Bool.noConfusion (hp.symm.trans h)

/-! ### HOMING -/

theorem tickStages_homing (h : (s.chan c).state = .homing) : s.tickStages c = s.homingTick c := by
  unfold State.tickStages
  rw [h]

theorem homingTick_found (h : (s.chan c).homePin = true) : s.homingTick c = s.foundHome c := if_pos h

theorem homingTick_exhausted (h : (s.chan c).homePin = false) (hr : (s.chan c).rem = 0) :
    s.homingTick c = s.searchFailed c := (if_neg (by simp [h])).trans (if_pos hr)

theorem homingTick_fault (h : (s.chan c).homePin = false) (hr : 0 < (s.chan c).rem) (he : (s.chan c).enabled = true)
    (hn : s.energised c = true) (hp : (s.chan c).faultPin = true) : s.homingTick c = s.faultChannel c .driver :=
  (if_neg (by simp [h])).trans ((if_neg hr.ne').trans (if_pos ⟨he, hn, hp⟩))

theorem homingTick_search (h : (s.chan c).homePin = false) (hr : 0 < (s.chan c).rem) (hf : s.faultless c) :
    s.homingTick c = s.withChan c (s.chan c).searchTick :=
  (if_neg (by simp [h])).trans ((if_neg hr.ne').trans (if_neg (not_fault hf)))

/-! ### MOVING and STOPPING -/

theorem tickStages_driven (h : (s.chan c).state = .moving ∨ (s.chan c).state = .stopping) :
    s.tickStages c = s.drivenTick c := by
  unfold State.tickStages
  rcases h with h | h <;> rw [h]

theorem drivenTick_far (hr : (s.chan c).farRead = true) (hp : (s.chan c).farPin = true) :
    s.drivenTick c = s.faultChannel c .limit := if_pos ⟨hr, hp⟩

theorem drivenTick_fault (hf : (s.chan c).farRead = false ∨ (s.chan c).farPin = false)
    (he : (s.chan c).enabled = true) (hn : s.energised c = true) (hp : (s.chan c).faultPin = true) :
    s.drivenTick c = s.faultChannel c .driver := (if_neg (not_far hf)).trans (if_pos ⟨he, hn, hp⟩)

theorem drivenTick_moving (hs : (s.chan c).state = .moving)
    (hf : (s.chan c).farRead = false ∨ (s.chan c).farPin = false) (hd : s.faultless c) :
    s.drivenTick c = s.movingTick c := by
  unfold State.drivenTick
  dsimp only
  rw [if_neg (not_far hf), if_neg (not_fault hd), hs]

theorem drivenTick_stopping (hs : (s.chan c).state = .stopping)
    (hf : (s.chan c).farRead = false ∨ (s.chan c).farPin = false) (hd : s.faultless c) :
    s.drivenTick c = s.stoppingTick c := by
  unfold State.drivenTick
  dsimp only
  rw [if_neg (not_far hf), if_neg (not_fault hd), hs]

theorem movingTick_waits (h : (s.chan c).current = none) :
    s.movingTick c = s.withChan c { s.chan c with stepPulses := 0 } := by
  unfold State.movingTick
  dsimp only
  split
  · rfl
  · next e => rw [h] at e; cases e

/-- The stages of a channel with a segment in hand. -/
theorem movingTick_segment (h : (s.chan c).current.isSome = true) : s.movingTick c =
    if (s.chan c).arrived then s.dwellTick c
    else if 0 < (s.chan c).rem then s.withChan c (s.chan c).moveTick else s.arrive c := by
  unfold State.movingTick
  dsimp only
  split
  · next e => rw [e] at h; cases h
  · rfl

/-! ## Velocities and steps (R112, R113) -/

/-- The new velocity: braking once the stopping distance reaches what is left, else toward the ceiling. -/
theorem nextVelocity_eq {x : Channel} (ha : 0 < x.accel) {brake : Bool}
    (hb : brake = (x.braking || decide (x.rem ≤ x.v * x.v / (131072 * x.accel)))) : x.nextVelocity =
      (if brake then max (x.v - x.accel) x.vs
        else if x.v < x.vc then min (x.v + x.accel) x.vc else max (x.v - x.accel) x.vc, brake) := by
  unfold Channel.nextVelocity stopDistance
  rw [if_neg ha.ne', hb]
  by_cases brakes : x.braking = true ∨ x.rem ≤ x.v * x.v / (131072 * x.accel)
  · rw [if_pos brakes, show (x.braking || decide (x.rem ≤ x.v * x.v / (131072 * x.accel))) = true by simpa using brakes]
    rfl
  · rw [if_neg brakes, show (x.braking || decide (x.rem ≤ x.v * x.v / (131072 * x.accel))) = false by
      simpa using brakes]
    refine Prod.ext ?_ ?_
    · simp only [Bool.false_eq_true, if_false]
      split
      · rfl
      · split
        · rfl
        · show x.v = _
          omega
    · split
      · rfl
      · split <;> rfl

/-- The steps of a tick are the whole parts of the phase, at most what is left. -/
theorem stepCount_eq (x : Channel) (v : Nat) : x.stepCount v = (min x.rem ((x.phi + v) / 65536),
    if x.rem < (x.phi + v) / 65536 then 0 else (x.phi + v) % 65536) := by
  unfold Channel.stepCount
  dsimp only
  split
  · refine Prod.ext ?_ rfl
    show x.rem = _
    omega
  · refine Prod.ext ?_ rfl
    show (x.phi + v) / 65536 = _
    omega

/-! ## A stop (R118, R119) -/

theorem rotary_copy {x : Channel} {k : ChannelSettings} (h : x.held = .copy k) : x.rotary = k.rotary := by
  simp [Channel.rotary, h]

/-- The steps that a LINEAR stop may still make. -/
theorem stopRoom_linear {x : Channel} {k : ChannelSettings} (h : x.held = .copy k) (hr : k.rotary = false) :
    x.stopRoom = some (if x.outward then k.travel - x.position else x.position) := by
  simp [Channel.stopRoom, h, hr]

/-- A ROTARY channel, and one without a copy, has no bound of travel. -/
theorem stopRoom_none {x : Channel} (h : x.rotary = true ∨ ∀ k, x.held ≠ .copy k) : x.stopRoom = none := by
  unfold Channel.stopRoom
  split
  · next k hk =>
    rw [rotary_copy hk] at h
    exact if_pos (h.resolve_right fun no => no k hk)
  · rfl
  · rfl

theorem stopTick_free {x : Channel} {v n : Nat} (hv : v = max (x.v - x.accel) x.vs) (hn : n = (x.phi + v) / 65536)
    (h : ∀ room, x.stopRoom = some room → n ≤ room) : x.stopTick =
      ({ x with v := v, phi := (x.phi + v) % 65536, position := x.moved n, stepPulses := n }, false) := by
  subst hv hn
  unfold Channel.stopTick
  dsimp only
  split
  · next room e => exact if_neg (Nat.not_lt.mpr (h room e))
  · rfl

theorem stopTick_bounded {x : Channel} {n room : Nat} (hn : n = (x.phi + max (x.v - x.accel) x.vs) / 65536)
    (hr : x.stopRoom = some room) (h : room < n) : x.stopTick =
      ({ x with v := 0, phi := 0, position := x.moved room, stepPulses := room }, true) := by
  subst hn
  unfold Channel.stopTick
  dsimp only
  rw [hr]
  exact if_pos h

/-- A stop without a pending start is complete as any other end of a profile. -/
theorem stopDone_idles (h : (s.chan c).slot = none) :
    s.stopDone c = (s.comeToRest c (s.chan c).halt (some (s.chan c).outcome)).arbitrate := by
  have emptied : { (s.chan c).halt with slot := none } = (s.chan c).halt := by
    show { (s.chan c).halt with slot := none } = { (s.chan c).halt with slot := (s.chan c).slot }
    rw [h]
  unfold State.stopDone Channel.outcome
  dsimp only
  split
  · next e => rw [emptied, if_pos e]
  · next e => rw [if_neg (by rw [e]; decide)]
  · next e => rw [if_neg (by rw [e]; decide)]

/-! ## The position (R91, R113) -/

theorem moved_linear {x : Channel} {k : ChannelSettings} {n : Nat} (h : x.held = .copy k) (hr : k.rotary = false) :
    x.moved n = if x.outward then x.position + n else x.position - n := by
  simp [Channel.moved, h, hr]

/-- On a ROTARY channel the position stays below the wrap length and differs by whole turns. -/
theorem moved_rotary {x : Channel} {k : ChannelSettings} {n : Nat} (h : x.held = .copy k) (hr : k.rotary = true)
    (hw : 0 < k.travel) : x.moved n < k.travel ∧ ∃ turns : Int, (x.moved n : Int) =
      (if x.outward then (x.position : Int) + n else (x.position : Int) - n) + turns * k.travel := by
  have wraps : (0 : Int) < k.travel := by omega
  have steps : x.moved n =
      ((if x.outward then (x.position : Int) + n else (x.position : Int) - n) % (k.travel : Int)).toNat := by
    cases ho : x.outward <;> simp [Channel.moved, h, hr, ho, sub_eq_add_neg]
  rw [steps]
  generalize (if x.outward then (x.position : Int) + n else (x.position : Int) - n) = p
  have low := Int.emod_nonneg p wraps.ne'
  have high := Int.emod_lt_of_pos p wraps
  have whole := Int.emod_add_mul_ediv p k.travel
  refine ⟨by omega, -(p / k.travel), ?_⟩
  rw [Int.toNat_of_nonneg low, neg_mul, mul_comm]
  omega

/-! ## The tick and the commands that it carries out (log entry 9) -/

/-- No guard of its map stands open while it reads CLOSED. -/
def State.guardsRead (s : State) (c : Fin 4) : Prop :=
  ∀ g : Fin 4, (s.chan c).guardMap.getLsbD g.val = true → (s.guardIn g).pin = true → (s.guardIn g).isOpen = true

theorem tick_homing (hg : s.guardsRead c) (hs : (s.chan c).state = .homing) :
    exec (.channelTick c) s = .next (s.homingTick c) :=
  (exec_channelTick_stages (by rw [hs]; rfl) hg).trans (congrArg Host.Outcome.next (tickStages_homing hs))

theorem tick_driven (hg : s.guardsRead c) (hs : (s.chan c).state = .moving ∨ (s.chan c).state = .stopping) :
    exec (.channelTick c) s = .next (s.drivenTick c) :=
  (exec_channelTick_stages (by rcases hs with hs | hs <;> rw [hs] <;> rfl) hg).trans
    (congrArg Host.Outcome.next (tickStages_driven hs))

/-- The inputs that a MOVING or STOPPING channel reads leave it to its stages. -/
def State.inputsClear (s : State) (c : Fin 4) : Prop :=
  ((s.chan c).farRead = false ∨ (s.chan c).farPin = false) ∧ s.faultless c

theorem tick_moving (hg : s.guardsRead c) (hi : s.inputsClear c) (hs : (s.chan c).state = .moving) :
    exec (.channelTick c) s = .next (s.movingTick c) :=
  (tick_driven hg (.inl hs)).trans (congrArg Host.Outcome.next (drivenTick_moving hs hi.1 hi.2))

theorem tick_stopping (hg : s.guardsRead c) (hi : s.inputsClear c) (hs : (s.chan c).state = .stopping) :
    exec (.channelTick c) s = .next (s.stoppingTick c) :=
  (tick_driven hg (.inr hs)).trans (congrArg Host.Outcome.next (drivenTick_stopping hs hi.1 hi.2))

theorem exec_homeFound_read (hs : (s.chan c).state = .homing) (hp : (s.chan c).homePin = true) :
    exec (.homeFound c) s = .next (s.foundHome c) := by
  refine congrArg Host.Outcome.next ((if_pos hs).trans ?_)
  rw [withChan_pin (x := { s.chan c with homePin := true }) (by rw [← hp])]

theorem exec_searchExhausted_read (hs : (s.chan c).state = .homing) (hp : (s.chan c).homePin = false)
    (hr : (s.chan c).rem = 0) : exec (.searchExhausted c) s = .next (s.searchFailed c) := by
  refine congrArg Host.Outcome.next ((if_pos ⟨hs, hr⟩).trans ?_)
  rw [withChan_pin (x := { s.chan c with homePin := false }) (by rw [← hp])]

theorem exec_farLimit_read (on : s.sampling = true) (hr : (s.chan c).farRead = true) (hp : (s.chan c).farPin = true) :
    exec (.farLimit c) s = .next (s.faultChannel c .limit) := by
  refine congrArg Host.Outcome.next ((if_pos on).trans ?_)
  rw [withChan_pin (x := { s.chan c with farPin := true }) (by rw [← hp])]
  exact if_pos hr

theorem exec_driverFault_read (on : s.sampling = true) (he : (s.chan c).enabled = true) (hn : s.energised c = true)
    (hp : (s.chan c).faultPin = true) : exec (.driverFault c) s = .next (s.faultChannel c .driver) := by
  refine congrArg Host.Outcome.next ((if_pos on).trans ?_)
  unfold State.faultAsserted
  rw [withChan_pin (x := { s.chan c with faultPin := true }) (by rw [← hp])]
  exact if_pos ⟨he, hn⟩

theorem exec_stopComplete_stops (hs : (s.chan c).state = .stopping) (hv : (s.chan c).v ≤ (s.chan c).vs) :
    exec (.stopComplete c) s = .next (s.stoppingTick c) :=
  congrArg Host.Outcome.next ((if_pos ⟨hs, hv⟩).trans (if_pos hv).symm)

/-- A dwell runs down, or ends. -/
theorem dwellTick_runs (h : 1 < (s.chan c).dwell) :
    s.dwellTick c = s.withChan c { s.chan c with dwell := (s.chan c).dwell - 1, stepPulses := 0 } :=
  if_neg (Nat.not_le.mpr h)

theorem dwellTick_ends (h : (s.chan c).dwell ≤ 1) :
    s.dwellTick c = (s.withChan c { s.chan c with dwell := 0, stepPulses := 0 }).segmentDone c := by
  have none : (s.chan c).dwell - 1 = 0 := by omega
  unfold State.dwellTick
  dsimp only
  rw [if_pos h, none]

/-- A MOVING tick with motion to make. -/
theorem moveTick_eq {x : Channel} {v n : Nat} {brake : Bool} (ha : 0 < x.accel)
    (hb : brake = (x.braking || decide (x.rem ≤ x.v * x.v / (131072 * x.accel))))
    (hv : v = (if brake then max (x.v - x.accel) x.vs
      else if x.v < x.vc then min (x.v + x.accel) x.vc else max (x.v - x.accel) x.vc))
    (hn : n = min x.rem ((x.phi + v) / 65536)) : x.moveTick = { x with
      v := v, braking := brake, rem := x.rem - n, stepPulses := n, position := x.moved n
      phi := if x.rem < (x.phi + v) / 65536 then 0 else (x.phi + v) % 65536 } := by
  unfold Channel.moveTick
  dsimp only
  rw [nextVelocity_eq ha hb, ← hv, stepCount_eq, ← hn]

theorem searchTick_eq {x : Channel} {n : Nat} (hn : n = min x.rem ((x.phi + x.vh) / 65536)) : x.searchTick = { x with
      v := x.vh, rem := x.rem - n, stepPulses := n
      phi := if x.rem < (x.phi + x.vh) / 65536 then 0 else (x.phi + x.vh) % 65536 } := by
  unfold Channel.searchTick
  dsimp only
  rw [stepCount_eq, ← hn]

theorem stoppingTick_runs {x : Channel} (hv : (s.chan c).vs < (s.chan c).v) (h : (s.chan c).stopTick = (x, false)) :
    s.stoppingTick c = s.withChan c x := by
  refine (if_neg (Nat.not_le.mpr hv)).trans ?_
  rw [h]
  rfl

/-- A stop that the bound of travel completes. -/
theorem stoppingTick_bounded {x : Channel} (hv : (s.chan c).vs < (s.chan c).v) (h : (s.chan c).stopTick = (x, true))
    (hn : s.mode.node ≠ .closing) (hs : x.slot = none) (ha : x.aside = none) :
    ProfileEnded (s.withChan c x) (s.stoppingTick c) c x.halt x.outcome := by
  have own : (s.withChan c x).chan c = x := (chan_withChan ..).trans (if_pos rfl)
  have done : s.stoppingTick c = (s.withChan c x).stopDone c := by
    refine (if_neg (Nat.not_le.mpr hv)).trans ?_
    rw [h]
    rfl
  rw [done, stopDone_idles (by rw [own]; exact hs), own]
  exact comeToRest_ended hn hs ha

end Stages

/-- Settles O36: the guards by `tickGuards_halt`, the inputs by what reads them, the stages by the record each leaves. -/
theorem tickMakesSteps : Obligations.TickMakesSteps := by
  rintro c s ch n v brake rfl
  refine ⟨exec_channelTick_still, farRead_iff _, energised_iff s c, fun g he hs hm hp ho hn => ?_, fun hg => ?_,
    fun k hk hr => moved_linear hk hr, fun k hk hr hw => moved_rotary hk hr hw⟩
  · obtain ⟨halted, opened⟩ := tickGuards_halt (g := g) hn he hs (by
      unfold State.guardStandsOpen
      rw [hm, hp, ho]
      rfl)
    have stands : (s.tickGuards c).tickStages c = s.tickGuards c := by
      unfold State.tickStages
      rw [halted.own]
      rfl
    refine ⟨s.tickGuards c, congrArg Host.Outcome.next ((if_pos hs).trans stands), opened, ?_⟩
    rw [halted.own]
    exact ⟨rfl, rfl, rfl, rfl, rfl, rfl⟩
  · refine ⟨fun hs hp => ?_, fun hs hp hr => ?_, fun on hs hr hp => ?_, fun on he hn hp hs => ?_, fun hf hd =>
      ⟨fun hs hc => ?_, fun hs hc ha => ⟨fun hw => ?_, fun hw => ?_⟩, fun hs hc ha hr => ?_,
        fun hs hc ha hr acc hb hv hn => ?_, fun hs hv => ?_, fun hs hv hv' hn => ⟨fun room => ?_,
          fun k room hk hr hroom short node ha slot => ?_⟩⟩, fun hp hd hs hr hn => ?_⟩
    · rw [tick_homing hg hs, homingTick_found hp, exec_homeFound_read hs hp]
    · rw [tick_homing hg hs, homingTick_exhausted hp hr, exec_searchExhausted_read hs hp hr]
    · rw [tick_driven hg hs, drivenTick_far hr hp, exec_farLimit_read on hr hp]
    · rw [exec_driverFault_read on he hn hp]
      rcases hs with ⟨hs, hf⟩ | ⟨hs, home, hr⟩
      · rw [tick_driven hg hs, drivenTick_fault hf he hn hp]
      · rw [tick_homing hg hs, homingTick_fault home hr he hn hp]
    · rw [tick_moving hg ⟨hf, hd⟩ hs, movingTick_waits hc]
    · rw [tick_moving hg ⟨hf, hd⟩ hs, movingTick_segment hc, if_pos ha, dwellTick_runs hw]
    · rw [tick_moving hg ⟨hf, hd⟩ hs, movingTick_segment hc, if_pos ha, dwellTick_ends hw, exec_dwellEnd_done hs hc ha]
    · rw [tick_moving hg ⟨hf, hd⟩ hs, movingTick_segment hc, if_neg (by simp [ha]), if_neg (by omega),
        exec_arrival_done hs hc ha hr]
    · rw [tick_moving hg ⟨hf, hd⟩ hs, movingTick_segment hc, if_neg (by simp [ha]), if_pos hr, moveTick_eq acc hb hv hn]
    · rw [tick_stopping hg ⟨hf, hd⟩ hs, exec_stopComplete_stops hs hv]
    · have free : ∀ r, (s.chan c).stopRoom = some r → n ≤ r := by
        intro r hr
        rcases room with rotary | none | ⟨k, hk, fits⟩
        · rw [stopRoom_none (.inl rotary)] at hr
          cases hr
        · rw [stopRoom_none (.inr none)] at hr
          cases hr
        · cases kind : k.rotary with
          | true =>
            rw [stopRoom_none (.inl ((rotary_copy hk).trans kind))] at hr
            cases hr
          | false =>
            rw [stopRoom_linear hk kind] at hr
            cases hr
            exact fits
      rw [tick_stopping hg ⟨hf, hd⟩ hs, stoppingTick_runs hv (stopTick_free hv' hn free)]
    · have bounded := stopTick_bounded (hv' ▸ hn) (stopRoom_linear hk hr) (hroom ▸ short)
      rw [← hroom] at bounded
      have ends := stoppingTick_bounded hv bounded node slot ha
      have own : ∀ {α : Type} (f : Channel → α), _ := fun f => congrArg f ends.own
      exact ⟨_, tick_stopping hg ⟨hf, hd⟩ hs, own Channel.state,
        (own Channel.position).trans (moved_linear hk hr), own Channel.stepPulses, own Channel.v, own Channel.profile⟩
    · rw [tick_homing hg hs, homingTick_search hp hr hd, searchTick_eq hn]

end Sys2Proof.Machine
end

