-- ==== Sys2Proof/Proofs/Prefetch.lean ====
section
/-! PROOF. The prefetch (R89, R99, R114 to R116): what the words of a segment and of a directory entry say, and what a
delivered word does to the fetch at the head and to its channel. -/
namespace Sys2Proof.Machine

/-! ## The words of a segment and of a directory entry (R159) -/

/-- The fields of the first word of a segment: the target and the kind. -/
def segmentRules : List FieldRule := [anyValue 0 24, codeField 30 2 (fun x => decide (x < 3))]

/-- The fields of the second word of a segment: the cruise speed and the dwell. -/
def cruiseRules : List FieldRule := [numField 0 15 (clampNat 1 20000), anyValue 16 16]

/-- The fields of the first word of a directory entry: first segment, count and repeats. -/
def directoryRules : List FieldRule := [anyValue 0 9, numField 16 6 (clampNat 0 32), anyValue 24 8]

section Words
variable {w : Word} {d : Delivered}

theorem segmentRules_ok : (∀ r ∈ segmentRules, r.ok (field w r.lo r.len) = true) ↔ field w 30 2 ≠ 3 := by
  have small := field_lt w 30 2
  simp only [segmentRules, List.forall_mem_cons, anyValue, codeField, List.not_mem_nil, decide_eq_true_eq, true_and,
    false_imp_iff, implies_true, and_true]
  omega

theorem field_segmentRules {r : FieldRule} (hr : r ∈ segmentRules) :
    field (assembled segmentRules w) r.lo r.len = r.fix (field w r.lo r.len) := by
  refine field_assembled hr ?_ (by simp [segmentRules, Apart, anyValue, codeField])
  simp only [segmentRules, List.forall_mem_cons]
  exact ⟨fits_anyValue (by omega), fits_codeField (by omega), by simp⟩

theorem field_cruiseRules {r : FieldRule} (hr : r ∈ cruiseRules) :
    field (assembled cruiseRules w) r.lo r.len = r.fix (field w r.lo r.len) := by
  refine field_assembled hr ?_ (by simp [cruiseRules, Apart, anyValue, numField])
  simp only [cruiseRules, List.forall_mem_cons]
  exact ⟨fits_numField (by omega) fun _ _ => clampNat_lt (by omega) (by omega), fits_anyValue (by omega), by simp⟩

theorem field_directoryRules {r : FieldRule} (hr : r ∈ directoryRules) :
    field (assembled directoryRules w) r.lo r.len = r.fix (field w r.lo r.len) := by
  refine field_assembled hr ?_ (by simp [directoryRules, Apart, anyValue, numField])
  simp only [directoryRules, List.forall_mem_cons]
  exact ⟨fits_anyValue (by omega), fits_numField (by omega) fun _ _ => clampNat_lt (by omega) (by omega),
    fits_anyValue (by omega), by simp⟩

theorem readWord_segment (h : field w 30 2 ≠ 3) :
    readWord 7 0 0 false ⟨w, false⟩ = some (assembled segmentRules w) := readWord_some rfl (segmentRules_ok.mpr h)

theorem readWord_cruise (w : Word) : readWord 7 1 1 false ⟨w, false⟩ = some (assembled cruiseRules w) :=
  readWord_some rfl (by simp [cruiseRules, numField, anyValue])

theorem readWord_accel (w : Word) : ∃ a, readWord 7 2 2 false ⟨w, false⟩ = some a ∧
    field a 0 18 = clampNat 100 200000 (field w 0 18) :=
  readWord_one (r := numField 0 18 (clampNat 100 200000)) rfl
    (fits_numField (by omega) fun _ _ => clampNat_lt (by omega) (by omega)) rfl

theorem readWord_directory (w : Word) : readWord 6 0 0 false ⟨w, false⟩ = some (assembled directoryRules w) :=
  readWord_some rfl (by simp [directoryRules, numField, anyValue])

/-- Sign and magnitude (R179): bit 23 is the sign. -/
theorem signMagnitude_field (w : Word) :
    signMagnitude (field w 0 24) = if w.getLsbD 23 then -(field w 0 23 : Int) else field w 0 23 := by
  have whole : field w 0 24 = field w 0 23 + 2 ^ 23 * (w.getLsbD 23).toNat := by
    rw [← BitVec.testBit_toNat, Nat.toNat_testBit]
    unfold field
    omega
  have small := field_lt w 0 23
  unfold signMagnitude
  rw [whole]
  cases w.getLsbD 23
  · simp only [Bool.toNat_false, Bool.false_eq_true, if_false]
    rw [if_pos (by omega)]
    simp
  · simp only [Bool.toNat_true, if_true]
    rw [if_neg (by omega), show (field w 0 23 + 2 ^ 23 * 1) % 2 ^ 23 = field w 0 23 by omega]

theorem segKindOfCode_eq {x : Nat} : segKindOfCode x =
    if x = 0 then .goto else if x = 1 then .byDistance else .dwell := by
  match x with
  | 0 => rfl
  | 1 => rfl
  | _ + 2 => rfl

theorem segmentOfWords_clean (w0 w1 w2 : Word) : segmentOfWords [⟨w0, false⟩, ⟨w1, false⟩, ⟨w2, false⟩] =
    (if field w0 30 2 = 3 then none else some
      { kind := if field w0 30 2 = 0 then .goto else if field w0 30 2 = 1 then .byDistance else .dwell
        target := if w0.getLsbD 23 then -(field w0 0 23 : Int) else field w0 0 23
        cruise := clampNat 1 20000 (field w1 0 15), dwell := field w1 16 16
        accel := clampNat 100 200000 (field w2 0 18) }) := by
  unfold segmentOfWords nthWord
  simp only [List.getD_cons_zero, List.getD_cons_succ]
  by_cases invalid : field w0 30 2 = 3
  · rw [readWord_invalid (rules := segmentRules) rfl fun ok => segmentRules_ok.mp ok invalid, if_pos invalid]
  · obtain ⟨a, read, accel⟩ := readWord_accel w2
    have code : field (assembled segmentRules w0) 30 2 = field w0 30 2 :=
      field_segmentRules (r := codeField 30 2 fun x => decide (x < 3)) (by simp [segmentRules])
    have target : field (assembled segmentRules w0) 0 24 = field w0 0 24 :=
      field_segmentRules (r := anyValue 0 24) (by simp [segmentRules])
    have cruise : field (assembled cruiseRules w1) 0 15 = clampNat 1 20000 (field w1 0 15) :=
      field_cruiseRules (r := numField 0 15 (clampNat 1 20000)) (by simp [cruiseRules])
    have dwell : field (assembled cruiseRules w1) 16 16 = field w1 16 16 :=
      field_cruiseRules (r := anyValue 16 16) (by simp [cruiseRules])
    rw [readWord_segment invalid, readWord_cruise, read, if_neg invalid]
    simp only [code, target, cruise, dwell, accel, signMagnitude_field, segKindOfCode_eq]

theorem directoryOfWords_clean (w0 w1 : Word) : directoryOfWords [⟨w0, false⟩, ⟨w1, false⟩] =
    some ⟨field w0 0 9, min 32 (field w0 16 6), field w0 24 8⟩ := by
  have first : field (assembled directoryRules w0) 0 9 = field w0 0 9 :=
    field_directoryRules (r := anyValue 0 9) (by simp [directoryRules])
  have count : field (assembled directoryRules w0) 16 6 = clampNat 0 32 (field w0 16 6) :=
    field_directoryRules (r := numField 16 6 (clampNat 0 32)) (by simp [directoryRules])
  have repeats : field (assembled directoryRules w0) 24 8 = field w0 24 8 :=
    field_directoryRules (r := anyValue 24 8) (by simp [directoryRules])
  unfold directoryOfWords nthWord
  simp only [List.getD_cons_zero, List.getD_cons_succ, readWord_directory, first, count, repeats, clampNat,
    Nat.zero_max]

theorem segmentOfWords_bad {d0 d1 d2 : Delivered} (h : d0.bad = true ∨ d1.bad = true ∨ d2.bad = true) :
    segmentOfWords [d0, d1, d2] = none := by
  unfold segmentOfWords nthWord
  simp only [List.getD_cons_zero, List.getD_cons_succ]
  rcases h with h | h | h
  · rw [readWord_bad h]
  · rw [readWord_bad h]
    split <;> simp_all
  · rw [readWord_bad h]
    split <;> simp_all

theorem directoryOfWords_bad {d0 d1 : Delivered} (h : d0.bad = true ∨ d1.bad = true) :
    directoryOfWords [d0, d1] = none := by
  unfold directoryOfWords nthWord
  simp only [List.getD_cons_zero, List.getD_cons_succ]
  rcases h with h | h
  · rw [readWord_bad h]
  · rw [h]
    split <;> simp_all

theorem segment_wordDamaged {o base n : Nat} (hn : n < 3) : (FetchItem.segment o base).wordDamaged n d = true ↔
    d.bad = true ∨ (n = 0 ∧ field d.data 30 2 = 3) := by
  obtain ⟨w, bad⟩ := d
  show (readWord 7 n n false ⟨w, bad⟩).isNone = true ↔ _
  cases bad
  case true => rw [readWord_bad rfl]; simp
  case false =>
    match n, hn with
    | 0, _ =>
      by_cases invalid : field w 30 2 = 3
      · rw [readWord_invalid (rules := segmentRules) rfl fun ok => segmentRules_ok.mp ok invalid]
        simp [invalid]
      · rw [readWord_segment invalid]
        simp [invalid]
    | 1, _ => rw [readWord_cruise]; simp
    | 2, _ =>
      obtain ⟨a, read, -⟩ := readWord_accel w
      rw [read]
      simp

theorem directory_wordDamaged {p : Fin 32} {n : Nat} :
    (FetchItem.directory p).wordDamaged n d = true ↔ d.bad = true := by
  show (if n = 0 then (readWord 6 0 0 false d).isNone else d.bad) = true ↔ _
  by_cases hn : n = 0
  · obtain ⟨w, bad⟩ := d
    rw [if_pos hn]
    cases bad
    case true => rw [readWord_bad rfl]; simp
    case false => rw [readWord_directory]; simp
  · rw [if_neg hn]

end Words

/-! ## A word delivered to the prefetch -/

section Delivery
variable {s : State} {i : Nat} {d : Delivered} {f : Fetch} {fs : List Fetch}

theorem readFor_chan (s : State) (i : Nat) (w : Requester) (c : Fin 4) : (s.readFor i w).chan c = s.chan c := by
  obtain ⟨l, a, b, read⟩ := readFor_eq s i w
  rw [read]
  rfl

theorem readFor_motion (s : State) (i : Nat) (w : Requester) : (s.readFor i w).motion = s.motion := by
  obtain ⟨l, a, b, read⟩ := readFor_eq s i w
  rw [read]

theorem readFor_alert (s : State) (i : Nat) (w : Requester) : (s.readFor i w).alert = s.alert := by
  obtain ⟨l, a, b, read⟩ := readFor_eq s i w
  rw [read]

theorem exec_prefetchRead_fresh (ha : s.mem.access = some ⟨.prefetch, i, false⟩) :
    exec .prefetchRead s = .next ((s.readFor i .prefetch).prefetchWord (s.wordAt i)).endAccess :=
  congrArg Host.Outcome.next (deliver_fresh ha)

theorem dropFetch_eq (ho : s.motion.owed = f :: fs) :
    s.dropFetch = { s with motion.owed := fs, motion.fetchWords := [] } := by
  unfold State.dropFetch
  rw [ho]
  rfl

/-- The end of an access that ends a fetch. -/
theorem dropFetch_endAccess (s : State) : ∃ m : TableMemory, m.words = s.mem.words ∧ s.dropFetch.endAccess =
    { s with motion.owed := s.motion.owed.tail, motion.fetchWords := [], mem := m } := by
  obtain ⟨a, p, w, e⟩ := endAccess_eq s.dropFetch
  refine ⟨_, ?_, e⟩
  rfl

theorem prefetchWord_gone (ho : s.motion.owed = f :: fs)
    (h : f.cancelled = true ∨ (s.chan f.chan).state ≠ .moving) (d : Delivered) : s.prefetchWord d = s.dropFetch := by
  unfold State.prefetchWord
  rw [ho]
  exact if_pos h

section Moving
variable (ho : s.motion.owed = f :: fs) (hf : f.cancelled = false) (hs : (s.chan f.chan).state = .moving)
include ho hf hs

theorem prefetchWord_damaged (h : f.item.wordDamaged s.motion.fetchWords.length d = true) :
    s.prefetchWord d = (s.fetchDamaged f.chan f.item).dropFetch := by
  unfold State.prefetchWord
  rw [ho]
  exact (if_neg (by simp [hf, hs])).trans (if_pos h)

theorem prefetchWord_kept (h : f.item.wordDamaged s.motion.fetchWords.length d = false)
    (more : s.motion.fetchWords.length + 1 < f.item.len) :
    s.prefetchWord d = { s with motion.fetchWords := s.motion.fetchWords ++ [d] } := by
  unfold State.prefetchWord
  rw [ho]
  exact (if_neg (by simp [hf, hs])).trans ((if_neg (by simp [h])).trans (if_pos (by simpa using more)))

theorem prefetchWord_complete (h : f.item.wordDamaged s.motion.fetchWords.length d = false)
    (last : s.motion.fetchWords.length + 1 = f.item.len) :
    s.prefetchWord d = (s.fetchComplete f.chan f.item (s.motion.fetchWords ++ [d])).dropFetch := by
  unfold State.prefetchWord
  rw [ho]
  exact (if_neg (by simp [hf, hs])).trans ((if_neg (by simp [h])).trans (if_neg (by simp [last])))

/-- The second word of a directory entry completes it. -/
theorem prefetchWord_directory {p : Fin 32} {d0 : Delivered} {e : Directory} (item : f.item = .directory p)
    (words : s.motion.fetchWords = [d0]) (clean : d.bad = false) (he : directoryOfWords [d0, d] = some e) :
    s.prefetchWord d = (s.directoryRead f.chan e).dropFetch := by
  rw [prefetchWord_complete ho hf hs (by rw [item, ← Bool.not_eq_true, directory_wordDamaged, clean]; simp)
    (by rw [item, words]; rfl), item, words]
  unfold State.fetchComplete
  simp only [List.cons_append, List.nil_append, he]

/-- The third word of a segment completes it. -/
theorem prefetchWord_segment {o base : Nat} {d0 d1 : Delivered} {g : Segment} (item : f.item = .segment o base)
    (words : s.motion.fetchWords = [d0, d1]) (clean : d.bad = false) (hg : segmentOfWords [d0, d1, d] = some g) :
    s.prefetchWord d = (s.segmentRead f.chan o g).dropFetch := by
  have whole : f.item.wordDamaged s.motion.fetchWords.length d = false := by
    rw [item, words, ← Bool.not_eq_true, segment_wordDamaged (by simp), clean]
    simp
  rw [prefetchWord_complete ho hf hs whole (by rw [item, words]; rfl), item, words]
  unfold State.fetchComplete
  simp only [List.cons_append, List.nil_append, hg]

end Moving

end Delivery

/-! ## The directory entry (R89, R115) -/

section Directory
variable {s u : State} {c : Fin 4} {d : Directory} {f : Fetch} {fs : List Fetch}

theorem resolveFetches_directory {ch : Channel} {p : Fin 32} (hf : f.item = .directory p) :
    resolveFetches c ch d (f :: fs) = f :: resolveFetches c ch d fs := by
  refine List.filterMap_cons_some ?_
  rw [hf]
  simp

/-- `t` is `s` with the profile of channel `c`, which runs no segment yet, ended at its directory entry. -/
structure EntryFails (s t : State) (c : Fin 4) : Prop where
  words  : t.mem.words = s.mem.words
  record : ∀ k n, s.Unseen k n → t.Unseen k n
  flag   : t.alert.overflow = s.alert.overflow
  ended  : s.mode.node ≠ .closing → (s.chan c).slot = none → (s.chan c).aside = none →
    ProfileEnded s t c (s.chan c).halt .faulted

theorem failProfile_fails (hs : (s.chan c).state = .moving) : EntryFails s (s.failProfile c) c := by
  obtain ⟨record, flag, words⟩ :=
    comeToRest_records (s := s) (c := c) (ch := (s.chan c).halt) (o := .faulted) (by rw [hs]; rfl) rfl
  obtain ⟨-, -, words', same⟩ := arbitrate_parts (s.comeToRest c (s.chan c).halt (some .faulted))
  have alert : (s.comeToRest c (s.chan c).halt (some .faulted)).arbitrate.alert =
      (s.comeToRest c (s.chan c).halt (some .faulted)).alert := by rw [same]
  unfold State.failProfile
  refine ⟨words'.trans words, fun k n h => ?_, ?_, fun hn hs ha => ?_⟩
  · generalize s.comeToRest c (s.chan c).halt (some .faulted) = v at record alert ⊢
    refine unseen_of_slots (fun i => ?_) k n (record k n h)
    rw [State.slotAt, alert, State.slotAt]
  · rw [alert, flag]
  · exact comeToRest_ended (ch := (s.chan c).halt) hn hs ha

theorem directoryRead_drops (ho : s.motion.owed = f :: fs) {p : Fin 32} (hf : f.item = .directory p)
    (hd : d.count ≠ 0) : (s.directoryRead c d).dropFetch = { s.withChan c { s.chan c with dir := some d } with
      motion.owed := resolveFetches c (s.chan c) d fs, motion.fetchWords := [] } := by
  have same : ∀ l, resolveFetches c { s.chan c with dir := some d } d l = resolveFetches c (s.chan c) d l :=
    fun _ => rfl
  have head : (s.withChan c { s.chan c with dir := some d }).motion.owed = f :: fs := ho
  unfold State.directoryRead State.dropFetch
  rw [if_neg hd]
  dsimp only
  rw [chan_withChan, if_pos rfl, same, head, resolveFetches_directory hf]
  rfl

/-- What the read of a word, and the raise of its damage, keep of a moving channel's node. -/
structure FetchRead (s u : State) (c : Fin 4) : Prop where
  chan  : u.chan c = s.chan c
  mode  : u.mode = s.mode
  cue   : u.cue = s.cue
  words : u.mem.words = s.mem.words

theorem fetchRead_readFor (s : State) (i : Nat) (c : Fin 4) : FetchRead s (s.readFor i .prefetch) c := by
  obtain ⟨l, a, b, read⟩ := readFor_eq s i .prefetch
  rw [read]
  exact ⟨rfl, rfl, rfl, rfl⟩

theorem FetchRead.raise (h : FetchRead s u c) (hs : (s.chan c).state = .moving) (k : Cause) (n : Nat) :
    FetchRead s (u.raise k n) c := by
  have mild := mild_raise (s := u) k n
  have moving : (u.chan c).state = .moving := by rw [h.chan, hs]
  exact ⟨(mild.chans c (by simp [moving]) (by simp [moving])).trans h.chan, mild.mode.trans h.mode,
    (sent_raiseWith u k n none none).cue.trans h.cue, (congrArg TableMemory.words mild.mem).trans h.words⟩

/-- A record of the matter is kept as a raise leaves it, or the overflow flag is set (R135, R137). -/
theorem raise_unseen (s : State) (k : Cause) (n : Nat) :
    (s.raise k n).Unseen k n ∨ (s.raise k n).alert.overflow = true := by
  rcases raise_recorded s k n none none with ⟨i, r, hr, hc, hn, hu⟩ | full
  · exact .inl ⟨i, r, hr, hu, hc, hn⟩
  · exact .inr full.1

/-- The profile of a channel that waits for its directory entry ended, and its fetch with it. -/
theorem failProfile_drops (read : FetchRead s u c) (hs : (s.chan c).state = .moving) {t : State}
    (ht : t = (u.failProfile c).dropFetch.endAccess) :
    t.motion.fetchWords = [] ∧ t.mem.words = s.mem.words ∧
      (∀ k n, u.Unseen k n ∨ u.alert.overflow = true →
        (t.findRecord k n).isSome = true ∨ t.alert.overflow = true) ∧
      (s.mode.node ≠ .closing → (s.chan c).slot = none → (s.chan c).aside = none →
        (t.chan c).state = .idle ∧ (t.chan c).profile = none ∧ (t.chan c).position = (s.chan c).position ∧
        (t.chan c).buffer = [] ∧ (t.chan c).completed = (s.chan c).completed ∧
        ∀ q, (s.chan c).profile = some q → s.cue.dispatch ≠ .idle → s.cue.queue.length < 16 →
          t.cue.queue = s.cue.queue ++ [.localDone c .faulted q]) := by
  have fails : EntryFails u (u.failProfile c) c := failProfile_fails (by rw [read.chan, hs])
  obtain ⟨m, words, e⟩ := dropFetch_endAccess (u.failProfile c)
  generalize u.failProfile c = v at fails words e ht
  rw [ht, e]
  refine ⟨rfl, words.trans (fails.words.trans read.words), fun k n h => ?_, fun hn slot aside => ?_⟩
  · rcases h with h | full
    · exact .inl (findRecord_of_unseen (fails.record k n h))
    · exact .inr (fails.flag.trans full)
  · have ends := fails.ended (by rw [read.mode]; exact hn) (by rw [read.chan, slot]) (by rw [read.chan, aside])
    have own : ∀ {α : Type} (g : Channel → α), g (v.chan c) = g { (u.chan c).halt with
      state := .idle, profile := none, clamped := (v.chan c).clamped } := fun g => congrArg g ends.own
    have same : ∀ {α : Type} (g : Channel → α), g (u.chan c) = g (s.chan c) := fun g => congrArg g read.chan
    refine ⟨own (·.state), own (·.profile), (own (·.position)).trans (same (·.position)), own (·.buffer),
      (own (·.completed)).trans (same (·.completed)), fun q hq busy room => ?_⟩
    have told := ends.offers q ((same (·.profile)).trans hq) (by rw [read.cue]; exact busy)
      (by rw [read.cue]; exact room)
    rw [read.cue] at told
    exact told

end Directory

/-! ## The segment (R99, R109) -/

section Segment
variable {s u : State} {c : Fin 4}

/-- A damaged segment stops its channel, FAULTED, and empties the slot. -/
theorem fetchDamaged_segment (read : FetchRead s u c) (hs : (s.chan c).state = .moving) (o base : Nat) {t : State}
    (ht : t = (u.fetchDamaged c (.segment o base)).dropFetch.endAccess) :
    (t.chan c).state = .stopping ∧ (t.chan c).ending = some .faulted ∧ (t.chan c).slot = none ∧
      ((t.findRecord .tableDamage 7).isSome = true ∨ t.alert.overflow = true) ∧ t.mem.words = s.mem.words := by
  have kept := read.raise hs .tableDamage 7
  have recorded := raise_unseen u .tableDamage 7
  have damaged : u.fetchDamaged c (.segment o base) =
      (((u.raise .tableDamage 7).withChan c { (u.raise .tableDamage 7).chan c with slot := none }).enterStopping c
        .faulted) := rfl
  generalize u.raise .tableDamage 7 = v at kept recorded damaged
  have moving : ((v.withChan c { v.chan c with slot := none }).chan c).state = .moving := by
    rw [chan_withChan, if_pos rfl]
    exact (congrArg Channel.state kept.chan).trans hs
  rw [enterStopping_moving moving, chan_withChan, if_pos rfl] at damaged
  obtain ⟨m, words, e⟩ := dropFetch_endAccess (u.fetchDamaged c (.segment o base))
  have own : (u.fetchDamaged c (.segment o base)).chan c =
      ({ v.chan c with slot := none } : Channel).stopWith .faulted := by
    rw [damaged, channelLamps_chan, chan_withChan, if_pos rfl]
  have alert : (u.fetchDamaged c (.segment o base)).alert = v.alert := by
    rw [damaged]
    unfold State.channelLamps
    rfl
  have mem : (u.fetchDamaged c (.segment o base)).mem = v.mem := by
    rw [damaged]
    unfold State.channelLamps
    rfl
  generalize u.fetchDamaged c (.segment o base) = z at own alert mem words e ht
  have ends : ∀ {α : Type} (g : Channel → α), g (z.chan c) =
      g (({ v.chan c with slot := none } : Channel).stopWith .faulted) := fun g => congrArg g own
  rw [ht, e]
  refine ⟨ends (·.state), ends (·.ending), ends (·.slot), ?_, ?_⟩
  · rcases recorded with h | full
    · refine .inl (findRecord_of_unseen (unseen_of_slots (s := v) (fun i => ?_) _ _ h))
      exact congrArg (fun a : AlertUnit => a.slots[i]) alert
    · exact .inr ((congrArg AlertUnit.overflow alert).trans full)
  · rw [words, mem, kept.words]

end Segment

/-- Settles O43: the words by their field rules, a delivered word by what it completes, and a damaged or empty entry by
the end of the profile (`failProfile_drops`). -/
theorem prefetchIsDelivered : Obligations.PrefetchIsDelivered := by
  refine ⟨?_, fun _ _ _ => ⟨segmentOfWords_bad, directoryOfWords_bad⟩,
    fun d p o base n hn => ⟨segment_wordDamaged hn, directory_wordDamaged⟩, ?_⟩
  · rintro w0 w1 w2 n rfl
    exact ⟨segmentOfWords_clean w0 w1 w2, directoryOfWords_clean w0 w1⟩
  intro s i f fs ha ho
  have read := fetchRead_readFor s i f.chan
  have motion := readFor_motion s i .prefetch
  have alert : (s.readFor i .prefetch).alert = s.alert := readFor_alert s i .prefetch
  rw [exec_prefetchRead_fresh ha]
  generalize s.readFor i .prefetch = r at read motion alert
  have chan : ∀ c, r.chan c = s.chan c := fun c => by rw [State.chan, motion, State.chan]
  have owed : r.motion.owed = f :: fs := by rw [motion, ho]
  have got : s.motion.fetchWords = r.motion.fetchWords := by rw [motion]
  refine ⟨fun gone => ?_, fun hf hs => ?_⟩
  · rw [prefetchWord_gone owed (by rw [chan]; exact gone), dropFetch_eq owed]
  have hs' : (r.chan f.chan).state = .moving := by rw [chan, hs]
  rw [got]
  refine ⟨fun clean more => ?_, fun p d0 d item words clean hd count => ?_, fun p damaged item why => ?_,
    fun o base d0 d1 g item words clean hg u v hu => ⟨fun busy => ?_, fun hv => ?_⟩, fun o base item damaged => ?_⟩
  · rw [prefetchWord_kept owed hf hs' clean more]
  · obtain ⟨m, p, w, e⟩ := endAccess_eq (r.directoryRead f.chan d).dropFetch
    rw [prefetchWord_directory owed hf hs' item (got ▸ words) clean hd, e, directoryRead_drops owed item count, chan]
    refine ⟨_, rfl, (chan_withChan ..).trans (if_pos rfl), fun x hx => ?_, rfl, alert, read.words, ?_⟩
    · exact ((chan_withChan ..).trans (if_neg hx)).trans (chan x)
    · refine congrArg (List.filterMap · fs) (funext fun y => ?_)
      obtain ⟨yc, item, gone⟩ := y
      cases item with
      | directory q => exact ite_self _
      | segment o base => simp only [orderReaches_iff, segmentFetch, Directory.segmentAt]
  · have ends : ∃ q, FetchRead s q f.chan ∧ r.prefetchWord (s.wordAt i) = (q.failProfile f.chan).dropFetch ∧
        (damaged = true → q.Unseen .tableDamage 6 ∨ q.alert.overflow = true) := by
      rcases why with ⟨_, h⟩ | ⟨no, d0, d, words, clean, hd, empty⟩
      · refine ⟨_, read.raise hs .tableDamage 6, ?_, fun _ => raise_unseen ..⟩
        rw [prefetchWord_damaged owed hf hs' h, item]
        rfl
      · refine ⟨r, read, ?_, by simp [no]⟩
        rw [prefetchWord_directory owed hf hs' item words clean hd, State.directoryRead, if_pos empty]
    obtain ⟨q, kept, word, recorded⟩ := ends
    obtain ⟨gone, same, record, ended⟩ := failProfile_drops kept hs rfl
    rw [word]
    exact ⟨_, rfl, gone, same, fun h => record _ _ (recorded h), ended⟩
  · rw [prefetchWord_segment owed hf hs' item words clean hg]
    have waits : (u.chan f.chan).current.isSome = true := by
      rw [hu, chan_withChan, if_pos rfl]
      exact busy
    have joined : r.segmentRead f.chan o g = u := by
      rw [State.segmentRead, chan, ← hu, tryCurrent_busy waits]
    have ahead : u.motion.owed = f :: fs := by
      rw [hu]
      exact owed
    rw [joined, dropFetch_eq ahead]
  · rw [prefetchWord_segment owed hf hs' item words clean hg, hv, hu, ← chan]
    rfl
  · rw [prefetchWord_damaged owed hf hs' damaged, item]
    exact ⟨_, rfl, fetchDamaged_segment read hs o base rfl⟩

end Sys2Proof.Machine
end
